-- ==== Sys2Proof/Word.lean ====
section
/-! DEFINITION. The machine's words and bytes (R4, R63). -/

namespace Sys2Proof

/-- A 64-bit register or address value (R63). -/
abbrev Word := BitVec 64

/-- A byte of memory; every multi-byte field is little-endian (R4). -/
abbrev Byte := BitVec 8

end Sys2Proof
end

