-- ==== Sys2Proof/Config.lean ====
section
/-! DEFINITION. What the manual leaves open: constants without a body, so that no proof can see a value of them. -/

namespace Sys2Proof

/-- A freedom R2 leaves to the part (an order of ties, of relaxed elements, an early vector read of R191), taken for
the n-th draw once `State.choices` holds none. DESIGN CHOICE, see notes/assumptions/7.md. -/
opaque Config.choice : Nat → Nat

/-- Which of the values inside the bound of R117 an f32 or f64 function delivers: operation, tag, operand and the
captured `fmode` bits daz, ftz and dn. DESIGN CHOICE, see notes/assumptions/13.md. -/
opaque Config.functionPick : Nat → Nat → BitVec 64 → BitVec 6 → Nat

/-- The signature of an attestation report under a device identity key (R405), which the manual does not give:
29,792 bytes as one number. UNVERIFIED, see notes/assumptions/14.md. -/
opaque Config.attestationSignature : BitVec 1024 → List (BitVec 8) → BitVec 238336

/-- Does a firmware image verify against the signing key whose digest the fuses hold (R403): that digest, the signature, the
version and the image's digest? UNVERIFIED, see notes/assumptions/14.md. -/
opaque Config.imageVerifies : BitVec 512 → Nat → BitVec 32 → BitVec 512 → Bool

/-- The opaque launch identity that `swopen` writes into the owner field (R337). See notes/assumptions/15.md. -/
opaque Config.launchIdentity : Nat → BitVec 64

/-- The bits of a value that the manual leaves open (R271, R365, R394, R405), for the n-th draw. See notes/assumptions/7.md. -/
opaque Config.freeBits : Nat → Nat

end Sys2Proof
end

