-- ==== Sys2Proof/Machine/Bits.lean ====
section
/-! DEFINITION. Bytes, bit fields and the sorted lists of bytes that stand for memory. -/

namespace Sys2Proof.Machine

open Host (Cell)

/-- The value of little-endian bytes (R4). -/
def leNat : List Byte → Nat
  | [] => 0
  | b :: bs => b.toNat + 256 * leNat bs

/-- The low `n` bytes of a value, little-endian (R4). -/
def leBytes : Nat → Nat → List Byte
  | 0, _ => []
  | n + 1, v => BitVec.ofNat 8 v :: leBytes n (v / 256)

/-- `n` copies of a byte. -/
def fill (n : Nat) (b : Byte) : List Byte := List.replicate n b

/-- `sext(v, n)` of R40 for a field of `n` bits. -/
def sext {n : Nat} (v : BitVec n) : Word := v.signExtend 64

/-- `zext(v, n)` of R40 for a field of `n` bits. -/
def zext {n : Nat} (v : BitVec n) : Word := v.setWidth 64

/-- Bits `lo + len - 1` down to `lo` of a natural number. -/
def bits (v lo len : Nat) : Nat := v >>> lo % 2 ^ len

/-- Bit `i` of a natural number. -/
def bit (v i : Nat) : Bool := v.testBit i

/-- A Boolean as 0 or 1. -/
def flag (b : Bool) : Nat := if b then 1 else 0

/-- The signed value of the low `n` bits. -/
def signed (n v : Nat) : Int :=
  let u := v % 2 ^ n
  if n = 0 then 0 else if u < 2 ^ (n - 1) then (u : Int) else (u : Int) - (2 ^ n : Nat)

/-- The low `n` bits of an integer in two's complement. -/
def wrap (n : Nat) (v : Int) : Nat := (v % ((2 ^ n : Nat) : Int)).toNat

/-- The quotient rounded up. -/
def ceilDiv (a b : Nat) : Nat := (a + b - 1) / b

/-- Bits `off` to `off + len - 1` of `old` replaced by those of `v`. -/
def insertBits (old off len v : Nat) : Nat :=
  old % 2 ^ off + (v % 2 ^ len) <<< off + (old >>> (off + len)) <<< (off + len)

/-- The first `n` numbers. -/
def upTo (n : Nat) : List Nat := List.range n

/-- Number of one bits among the low `n` bits. -/
def popCount : Nat → Nat → Nat
  | 0, _ => 0
  | n + 1, v => v % 2 + popCount n (v / 2)

/-- The lowest set bit among the low `n` bits, or `n`. -/
def lowestSet : Nat → Nat → Nat
  | 0, _ => 0
  | n + 1, v => if v % 2 = 1 then 0 else lowestSet n (v / 2) + 1

/-- Bits in reverse order. -/
def reverseBits : Nat → Nat → Nat
  | 0, _ => 0
  | n + 1, v => (v % 2) * 2 ^ n + reverseBits n (v / 2)

/-- Position above the highest set bit: 0 for 0. -/
def bitLen (v : Nat) : Nat := if v = 0 then 0 else Nat.log2 v + 1

/-- A list with one element replaced by a function of it. -/
def updateAt {α : Type} (p : α → Bool) (f : α → α) : List α → List α
  | [] => []
  | a :: as => if p a then f a :: as else a :: updateAt p f as

/-- The byte a sorted list of cells holds at an address. -/
def cellGet : List Cell → Nat → Option Byte
  | [], _ => none
  | c :: cs, a => if c.1 = a then some c.2 else cellGet cs a

/-- Cells for bytes at consecutive addresses; with `dense` false, bytes that read as the default 0 are not listed. -/
def cellsOf (dense : Bool) : Nat → List Byte → List Cell
  | _, [] => []
  | a, b :: bs => if dense || b != 0 then (a, b) :: cellsOf dense (a + 1) bs else cellsOf dense (a + 1) bs

/-- Write consecutive bytes into a sorted list of cells. -/
def cellsWrite (dense : Bool) (m : List Cell) (a : Nat) (bs : List Byte) : List Cell :=
  m.takeWhile (·.1 < a) ++ cellsOf dense a bs ++ m.dropWhile (·.1 < a + bs.length)

/-- Remove the cells of `n` consecutive addresses. -/
def cellsDrop (m : List Cell) (a n : Nat) : List Cell :=
  m.takeWhile (·.1 < a) ++ m.dropWhile (·.1 < a + n)

/-- The cells of `n` consecutive addresses. -/
def cellsIn (m : List Cell) (a n : Nat) : List Cell :=
  (m.dropWhile (·.1 < a)).takeWhile (·.1 < a + n)

/-- Addresses strictly rising. -/
def rising : List Cell → Bool
  | [] => true
  | c :: cs => (match cs with | [] => true | d :: _ => decide (c.1 < d.1)) && rising cs

/-- An order of the elements of a list, picked by a number. -/
def permuteBy {α : Type} : Nat → Nat → List α → List α
  | 0, _, l => l
  | n + 1, k, l =>
    match l[k % l.length]? with
    | some x => x :: permuteBy n (k / l.length) (l.eraseIdx (k % l.length))
    | none => l

end Sys2Proof.Machine
end

