-- ==== Sys2Proof/Syntax.lean ====
section
/-! DEFINITION. The instruction type of the MH960: one constructor per row of spec/opcode_table.json.
An encoded instruction carries the fields of its word, in the order of the table; an event of the part
carries the agent or the outside input that it concerns (notes/assumptions/6.md). -/

namespace Sys2Proof

/-- What a partition create message carries (R401): cores of this package, other packages that hold cores of the
partition with how many, translation root (R301), fault queue header, records and capacity (R391), save region (R393), and host
ranges (R397). A required item that is missing is `none` (R429). -/
structure PartitionRequest where
  part : BitVec 16
  cores : List Nat
  otherPackages : List (Nat × Nat)
  root : Option (BitVec 64)
  faultQueue : Option (BitVec 64)
  faultBase : BitVec 64
  faultCap : BitVec 32
  saveRegion : Option (BitVec 64)
  saveHarts : Nat
  hostRanges : List (BitVec 64 × BitVec 64)
  deriving DecidableEq, Repr

/-- A counters message (R364, R366): configure one counter of a core or die, or ask for periodic snapshots. -/
inductive CounterRequest where
  | configure (onDie : Bool) (unit : Nat) (index : Nat) (event : BitVec 8) (filtered : Bool) (part : BitVec 16)
  | read (buffer : BitVec 64) (periodUs : Nat) (signal : BitVec 64)
  deriving DecidableEq, Repr

/-- A firmware image as the flash holds it (R403): its version, its SHAKE256 digest and its signature. -/
structure FirmwareImage where
  version : BitVec 32
  digest : BitVec 512
  signature : Nat
  deriving DecidableEq, Repr

/-- What another package asks of this one over Keavar (R400): an access to a home here, an atomic read-modify-write
in the operations of R212, or an `xinv` at domain scope. -/
inductive RemoteAccess where
  | load (addr : BitVec 52) (size : Nat)
  | store (addr : BitVec 52) (data : List (BitVec 8))
  | atomic (addr : BitVec 52) (size : Nat) (op : BitVec 4) (operand : BitVec 64)
  | cas (addr : BitVec 52) (size : Nat) (expected : BitVec 64) (value : BitVec 64)
  | sigadd (addr : BitVec 52) (addend : BitVec 64)
  | xinv (page : BitVec 64)
  deriving DecidableEq, Repr

/-- One step of the part: an encoded instruction, or an event (spec/95_what_each_step_holds.md). -/
inductive Instr where
  /-- ADD, R69: Sets xd to xa plus xb modulo 2^64. -/
  | add (d : BitVec 5) (a : BitVec 5) (b : BitVec 5)
  /-- SUB, R69: Sets xd to xa minus xb modulo 2^64. -/
  | sub (d : BitVec 5) (a : BitVec 5) (b : BitVec 5)
  /-- AND, R69: Sets xd to the bitwise and of xa and xb. -/
  | and (d : BitVec 5) (a : BitVec 5) (b : BitVec 5)
  /-- OR, R69: Sets xd to the bitwise or of xa and xb. -/
  | or (d : BitVec 5) (a : BitVec 5) (b : BitVec 5)
  /-- XOR, R69: Sets xd to the bitwise xor of xa and xb. -/
  | xor (d : BitVec 5) (a : BitVec 5) (b : BitVec 5)
  /-- SLL, R69: Shifts xa left by xb[5:0]. -/
  | sll (d : BitVec 5) (a : BitVec 5) (b : BitVec 5)
  /-- SRL, R69: Shifts xa right logically by xb[5:0]. -/
  | srl (d : BitVec 5) (a : BitVec 5) (b : BitVec 5)
  /-- SRA, R69: Shifts xa right arithmetically by xb[5:0]. -/
  | sra (d : BitVec 5) (a : BitVec 5) (b : BitVec 5)
  /-- MIN, R69: Sets xd to the signed minimum of xa and xb. -/
  | min (d : BitVec 5) (a : BitVec 5) (b : BitVec 5)
  /-- MAX, R69: Sets xd to the signed maximum of xa and xb. -/
  | max (d : BitVec 5) (a : BitVec 5) (b : BitVec 5)
  /-- MINU, R69: Sets xd to the unsigned minimum of xa and xb. -/
  | minu (d : BitVec 5) (a : BitVec 5) (b : BitVec 5)
  /-- MAXU, R69: Sets xd to the unsigned maximum of xa and xb. -/
  | maxu (d : BitVec 5) (a : BitVec 5) (b : BitVec 5)
  /-- SEL, R69: Selects xa or xb into xd by a condition bit. -/
  | sel (d : BitVec 5) (a : BitVec 5) (b : BitVec 5) (c : BitVec 3)
  /-- MUL, R70: Sets xd to the low 64 bits of the product. -/
  | mul (d : BitVec 5) (a : BitVec 5) (b : BitVec 5)
  /-- MULH, R70: Sets xd to the high 64 bits of the signed product. -/
  | mulh (d : BitVec 5) (a : BitVec 5) (b : BitVec 5)
  /-- MULHU, R70: Sets xd to the high 64 bits of the unsigned product. -/
  | mulhu (d : BitVec 5) (a : BitVec 5) (b : BitVec 5)
  /-- DIV, R71: Signed division with saturating results for zero divisors and overflow. -/
  | div (d : BitVec 5) (a : BitVec 5) (b : BitVec 5)
  /-- DIVU, R71: Unsigned division; a zero divisor gives all ones or zero. -/
  | divu (d : BitVec 5) (a : BitVec 5) (b : BitVec 5)
  /-- REM, R71: Signed remainder with the sign of the dividend. -/
  | rem (d : BitVec 5) (a : BitVec 5) (b : BitVec 5)
  /-- REMU, R71: Unsigned remainder. -/
  | remu (d : BitVec 5) (a : BitVec 5) (b : BitVec 5)
  /-- CLZ, R70: Counts leading zero bits of xa. -/
  | clz (d : BitVec 5) (a : BitVec 5)
  /-- CTZ, R70: Counts trailing zero bits of xa. -/
  | ctz (d : BitVec 5) (a : BitVec 5)
  /-- POPC, R70: Counts one bits of xa. -/
  | popc (d : BitVec 5) (a : BitVec 5)
  /-- BREV, R70: Reverses the bits of xa. -/
  | brev (d : BitVec 5) (a : BitVec 5)
  /-- FADD, R76: Scalar floating add in f32 or f64. -/
  | fadd (d : BitVec 5) (a : BitVec 5) (b : BitVec 5) (p : BitVec 1)
  /-- FSUB, R76: Scalar floating subtract. -/
  | fsub (d : BitVec 5) (a : BitVec 5) (b : BitVec 5) (p : BitVec 1)
  /-- FMUL, R76: Scalar floating multiply. -/
  | fmul (d : BitVec 5) (a : BitVec 5) (b : BitVec 5) (p : BitVec 1)
  /-- FDIV, R76: Scalar floating divide. -/
  | fdiv (d : BitVec 5) (a : BitVec 5) (b : BitVec 5) (p : BitVec 1)
  /-- FSQRT, R76: Scalar floating square root. -/
  | fsqrt (d : BitVec 5) (a : BitVec 5) (p : BitVec 1)
  /-- FMIN, R76: Scalar floating minimum under R52. -/
  | fmin (d : BitVec 5) (a : BitVec 5) (b : BitVec 5) (p : BitVec 1)
  /-- FMAX, R76: Scalar floating maximum under R52. -/
  | fmax (d : BitVec 5) (a : BitVec 5) (b : BitVec 5) (p : BitVec 1)
  /-- FMA, R76: Fused multiply-add with xd as addend and destination. -/
  | fma (d : BitVec 5) (a : BitVec 5) (b : BitVec 5) (p : BitVec 1)
  /-- FCVT_FI, R77: Converts a signed 64-bit integer to floating. -/
  | fcvtFi (d : BitVec 5) (a : BitVec 5) (r : BitVec 3) (p : BitVec 1)
  /-- FCVT_FU, R77: Converts an unsigned 64-bit integer to floating. -/
  | fcvtFu (d : BitVec 5) (a : BitVec 5) (r : BitVec 3) (p : BitVec 1)
  /-- FCVT_TI, R77: Converts floating to a saturated signed 64-bit integer. -/
  | fcvtTi (d : BitVec 5) (a : BitVec 5) (r : BitVec 3) (p : BitVec 1)
  /-- FCVT_TU, R77: Converts floating to a saturated unsigned 64-bit integer. -/
  | fcvtTu (d : BitVec 5) (a : BitVec 5) (r : BitVec 3) (p : BitVec 1)
  /-- FCVT_FX, R77: Converts between f32 and f64. -/
  | fcvtFx (d : BitVec 5) (a : BitVec 5) (r : BitVec 3) (p : BitVec 1)
  /-- FCLASS, R78: Writes the class word of a floating operand. -/
  | fclass (d : BitVec 5) (a : BitVec 5) (p : BitVec 1)
  /-- ADDI, R72: Adds a sign-extended 16-bit immediate. -/
  | addi (d : BitVec 5) (a : BitVec 5) (i : BitVec 16)
  /-- ANDI, R72: Ands with a sign-extended 16-bit immediate. -/
  | andi (d : BitVec 5) (a : BitVec 5) (i : BitVec 16)
  /-- ORI, R72: Ors with a sign-extended 16-bit immediate. -/
  | ori (d : BitVec 5) (a : BitVec 5) (i : BitVec 16)
  /-- XORI, R72: Xors with a sign-extended 16-bit immediate. -/
  | xori (d : BitVec 5) (a : BitVec 5) (i : BitVec 16)
  /-- SLLI, R73: Shifts left by an immediate amount. -/
  | slli (d : BitVec 5) (a : BitVec 5) (s : BitVec 6)
  /-- SRLI, R73: Shifts right logically by an immediate amount. -/
  | srli (d : BitVec 5) (a : BitVec 5) (s : BitVec 6)
  /-- SRAI, R73: Shifts right arithmetically by an immediate amount. -/
  | srai (d : BitVec 5) (a : BitVec 5) (s : BitVec 6)
  /-- LUI, R74: Sets xd to sext(imm21) times 65,536. -/
  | lui (d : BitVec 5) (i : BitVec 21)
  /-- AUPC, R74: Sets xd to PC plus sext(imm21) times 65,536. -/
  | aupc (d : BitVec 5) (i : BitVec 21)
  /-- CMP_EQ, R79: Sets cd when xa equals xb. -/
  | cmpEq (d : BitVec 3) (a : BitVec 5) (b : BitVec 5)
  /-- CMP_NE, R79: Sets cd when xa differs from xb. -/
  | cmpNe (d : BitVec 3) (a : BitVec 5) (b : BitVec 5)
  /-- CMP_LT, R79: Sets cd when xa is signed less than xb. -/
  | cmpLt (d : BitVec 3) (a : BitVec 5) (b : BitVec 5)
  /-- CMP_GE, R79: Sets cd when xa is signed greater or equal to xb. -/
  | cmpGe (d : BitVec 3) (a : BitVec 5) (b : BitVec 5)
  /-- CMP_LTU, R79: Sets cd when xa is unsigned less than xb. -/
  | cmpLtu (d : BitVec 3) (a : BitVec 5) (b : BitVec 5)
  /-- CMP_GEU, R79: Sets cd when xa is unsigned greater or equal to xb. -/
  | cmpGeu (d : BitVec 3) (a : BitVec 5) (b : BitVec 5)
  /-- CMP_FEQ, R79: Floating equality compare into cd. -/
  | cmpFeq (d : BitVec 3) (a : BitVec 5) (b : BitVec 5) (k : BitVec 2)
  /-- CMP_FLT, R79: Floating less-than compare into cd. -/
  | cmpFlt (d : BitVec 3) (a : BitVec 5) (b : BitVec 5) (k : BitVec 2)
  /-- CMP_FLE, R79: Floating less-or-equal compare into cd. -/
  | cmpFle (d : BitVec 3) (a : BitVec 5) (b : BitVec 5) (k : BitVec 2)
  /-- CMP_FUN, R79: Sets cd when either floating operand is NaN. -/
  | cmpFun (d : BitVec 3) (a : BitVec 5) (b : BitVec 5) (k : BitVec 2)
  /-- CMPI_EQ, R80: Sets cd when xa equals the immediate. -/
  | cmpiEq (d : BitVec 3) (a : BitVec 5) (i : BitVec 14)
  /-- CMPI_NE, R80: Sets cd when xa differs from the immediate. -/
  | cmpiNe (d : BitVec 3) (a : BitVec 5) (i : BitVec 14)
  /-- CMPI_LT, R80: Signed less-than compare with the immediate. -/
  | cmpiLt (d : BitVec 3) (a : BitVec 5) (i : BitVec 14)
  /-- CMPI_GE, R80: Signed greater-or-equal compare with the immediate. -/
  | cmpiGe (d : BitVec 3) (a : BitVec 5) (i : BitVec 14)
  /-- CMPI_LTU, R80: Unsigned less-than compare with the sign-extended immediate. -/
  | cmpiLtu (d : BitVec 3) (a : BitVec 5) (i : BitVec 14)
  /-- CMPI_GEU, R80: Unsigned greater-or-equal compare with the sign-extended immediate. -/
  | cmpiGeu (d : BitVec 3) (a : BitVec 5) (i : BitVec 14)
  /-- CAND, R81: cd := ca and cb. -/
  | cand (d : BitVec 3) (a : BitVec 3) (b : BitVec 3)
  /-- COR, R81: cd := ca or cb. -/
  | cor (d : BitVec 3) (a : BitVec 3) (b : BitVec 3)
  /-- CXOR, R81: cd := ca xor cb. -/
  | cxor (d : BitVec 3) (a : BitVec 3) (b : BitVec 3)
  /-- CANDN, R81: cd := ca and not cb. -/
  | candn (d : BitVec 3) (a : BitVec 3) (b : BitVec 3)
  /-- CNOT, R81: cd := not ca. -/
  | cnot (d : BitVec 3) (a : BitVec 3)
  /-- CSET, R81: cd := 1. -/
  | cset (d : BitVec 3)
  /-- CCLR, R81: cd := 0. -/
  | cclr (d : BitVec 3)
  /-- CMOV, R81: cd := ca. -/
  | cmov (d : BitVec 3) (a : BitVec 3)
  /-- BC, R82: Branches PC-relative when the condition bit is set. -/
  | bc (c : BitVec 3) (o : BitVec 22)
  /-- BNC, R82: Branches PC-relative when the condition bit is clear. -/
  | bnc (c : BitVec 3) (o : BitVec 22)
  /-- JAL, R83: Jumps PC-relative and links PC + 4 into xd. -/
  | jal (d : BitVec 5) (o : BitVec 21)
  /-- JALR, R84: Jumps to xa plus offset and links, trapping on a misaligned target. -/
  | jalr (d : BitVec 5) (a : BitVec 5) (i : BitVec 16)
  /-- LD, R209: Relaxed scalar load of one aligned item. -/
  | ld (d : BitVec 5) (a : BitVec 5) (w : BitVec 3) (i : BitVec 8)
  /-- LD_ACQ, R209: Scalar load followed by an acquire at its scope. -/
  | ldAcq (d : BitVec 5) (a : BitVec 5) (w : BitVec 3) (s : BitVec 3) (i : BitVec 8)
  /-- LD_SC, R209: Sequentially consistent scalar load drawing a ticket. -/
  | ldSc (d : BitVec 5) (a : BitVec 5) (w : BitVec 3) (s : BitVec 3) (i : BitVec 8)
  /-- ST, R210: Relaxed scalar store. -/
  | st (d : BitVec 5) (a : BitVec 5) (w : BitVec 3) (i : BitVec 8)
  /-- ST_REL, R210: Scalar store preceded by a release at its scope. -/
  | stRel (d : BitVec 5) (a : BitVec 5) (w : BitVec 3) (s : BitVec 3) (i : BitVec 8)
  /-- ST_SC, R210: Sequentially consistent scalar store drawing a ticket. -/
  | stSc (d : BitVec 5) (a : BitVec 5) (w : BitVec 3) (s : BitVec 3) (i : BitVec 8)
  /-- ST_SW, R210: Foreshore store carrying the window in cw. -/
  | stSw (d : BitVec 5) (a : BitVec 5) (w : BitVec 3) (i : BitVec 8)
  /-- AMOADD, R213: Atomically adds xb to memory and returns the old value. -/
  | amoadd (d : BitVec 5) (a : BitVec 5) (b : BitVec 5) (o : BitVec 3) (s : BitVec 3) (w : BitVec 1)
  /-- AMOAND, R213: Atomic and to memory, returning the old value. -/
  | amoand (d : BitVec 5) (a : BitVec 5) (b : BitVec 5) (o : BitVec 3) (s : BitVec 3) (w : BitVec 1)
  /-- AMOOR, R213: Atomic or to memory, returning the old value. -/
  | amoor (d : BitVec 5) (a : BitVec 5) (b : BitVec 5) (o : BitVec 3) (s : BitVec 3) (w : BitVec 1)
  /-- AMOXOR, R213: Atomic xor to memory, returning the old value. -/
  | amoxor (d : BitVec 5) (a : BitVec 5) (b : BitVec 5) (o : BitVec 3) (s : BitVec 3) (w : BitVec 1)
  /-- AMOMIN, R213: Atomic signed minimum to memory. -/
  | amomin (d : BitVec 5) (a : BitVec 5) (b : BitVec 5) (o : BitVec 3) (s : BitVec 3) (w : BitVec 1)
  /-- AMOMAX, R213: Atomic signed maximum to memory. -/
  | amomax (d : BitVec 5) (a : BitVec 5) (b : BitVec 5) (o : BitVec 3) (s : BitVec 3) (w : BitVec 1)
  /-- AMOMINU, R213: Atomic unsigned minimum to memory. -/
  | amominu (d : BitVec 5) (a : BitVec 5) (b : BitVec 5) (o : BitVec 3) (s : BitVec 3) (w : BitVec 1)
  /-- AMOMAXU, R213: Atomic unsigned maximum to memory. -/
  | amomaxu (d : BitVec 5) (a : BitVec 5) (b : BitVec 5) (o : BitVec 3) (s : BitVec 3) (w : BitVec 1)
  /-- AMOSWAP, R213: Atomic swap of xb with memory. -/
  | amoswap (d : BitVec 5) (a : BitVec 5) (b : BitVec 5) (o : BitVec 3) (s : BitVec 3) (w : BitVec 1)
  /-- CAS, R214: Compare-and-swap of memory against xd with new value xb. -/
  | cas (d : BitVec 5) (a : BitVec 5) (b : BitVec 5) (o : BitVec 3) (s : BitVec 3) (w : BitVec 1)
  /-- FENCE_REL, R196: Release fence at a scope. -/
  | fenceRel (s : BitVec 3)
  /-- FENCE_ACQ, R196: Acquire fence at a scope. -/
  | fenceAcq (s : BitVec 3)
  /-- FENCE_AR, R196: Full acquire-release fence at a scope. -/
  | fenceAr (s : BitVec 3)
  /-- FENCE_SV, R196: Orders older scalar writes before younger vector reads, removing R191. -/
  | fenceSv
  /-- VADD, R113: Per-element add, wrapped or rounded by tag. -/
  | vadd (f : BitVec 2) (d : BitVec 5) (a : BitVec 5) (b : BitVec 5) (m : BitVec 3)
  /-- VSUB, R113: Per-element subtract. -/
  | vsub (f : BitVec 2) (d : BitVec 5) (a : BitVec 5) (b : BitVec 5) (m : BitVec 3)
  /-- VRSUB, R113: Per-element reverse subtract. -/
  | vrsub (f : BitVec 2) (d : BitVec 5) (a : BitVec 5) (b : BitVec 5) (m : BitVec 3)
  /-- VMUL, R113: Per-element multiply. -/
  | vmul (f : BitVec 2) (d : BitVec 5) (a : BitVec 5) (b : BitVec 5) (m : BitVec 3)
  /-- VMULH, R113: Per-element high half of the integer product. -/
  | vmulh (f : BitVec 2) (d : BitVec 5) (a : BitVec 5) (b : BitVec 5) (m : BitVec 3)
  /-- VDIV, R113: Per-element integer quotient under R71 rules. -/
  | vdiv (f : BitVec 2) (d : BitVec 5) (a : BitVec 5) (b : BitVec 5) (m : BitVec 3)
  /-- VREM, R113: Per-element integer remainder under R71 rules. -/
  | vrem (f : BitVec 2) (d : BitVec 5) (a : BitVec 5) (b : BitVec 5) (m : BitVec 3)
  /-- VMIN, R113: Per-element minimum. -/
  | vmin (f : BitVec 2) (d : BitVec 5) (a : BitVec 5) (b : BitVec 5) (m : BitVec 3)
  /-- VMAX, R113: Per-element maximum. -/
  | vmax (f : BitVec 2) (d : BitVec 5) (a : BitVec 5) (b : BitVec 5) (m : BitVec 3)
  /-- VABS, R113: Per-element absolute value. -/
  | vabs (d : BitVec 5) (a : BitVec 5) (m : BitVec 3)
  /-- VNEG, R113: Per-element negation. -/
  | vneg (d : BitVec 5) (a : BitVec 5) (m : BitVec 3)
  /-- VSADD, R113: Per-element saturating integer add. -/
  | vsadd (f : BitVec 2) (d : BitVec 5) (a : BitVec 5) (b : BitVec 5) (m : BitVec 3)
  /-- VSSUB, R113: Per-element saturating integer subtract. -/
  | vssub (f : BitVec 2) (d : BitVec 5) (a : BitVec 5) (b : BitVec 5) (m : BitVec 3)
  /-- VFMA, R114: Fused a times b plus vd. -/
  | vfma (f : BitVec 2) (d : BitVec 5) (a : BitVec 5) (b : BitVec 5) (m : BitVec 3)
  /-- VFMS, R114: Fused a times b minus vd. -/
  | vfms (f : BitVec 2) (d : BitVec 5) (a : BitVec 5) (b : BitVec 5) (m : BitVec 3)
  /-- VFNMA, R114: Fused minus a times b minus vd. -/
  | vfnma (f : BitVec 2) (d : BitVec 5) (a : BitVec 5) (b : BitVec 5) (m : BitVec 3)
  /-- VFNMS, R114: Fused minus a times b plus vd. -/
  | vfnms (f : BitVec 2) (d : BitVec 5) (a : BitVec 5) (b : BitVec 5) (m : BitVec 3)
  /-- VWMUL, R114: Widening multiply into tag W(t). -/
  | vwmul (f : BitVec 2) (d : BitVec 5) (a : BitVec 5) (b : BitVec 5) (m : BitVec 3)
  /-- VAND, R115: Per-element bitwise and. -/
  | vand (f : BitVec 2) (d : BitVec 5) (a : BitVec 5) (b : BitVec 5) (m : BitVec 3)
  /-- VOR, R115: Per-element bitwise or. -/
  | vor (f : BitVec 2) (d : BitVec 5) (a : BitVec 5) (b : BitVec 5) (m : BitVec 3)
  /-- VXOR, R115: Per-element bitwise xor. -/
  | vxor (f : BitVec 2) (d : BitVec 5) (a : BitVec 5) (b : BitVec 5) (m : BitVec 3)
  /-- VNOT, R115: Per-element bitwise not. -/
  | vnot (d : BitVec 5) (a : BitVec 5) (m : BitVec 3)
  /-- VSLL, R115: Per-element shift left. -/
  | vsll (f : BitVec 2) (d : BitVec 5) (a : BitVec 5) (b : BitVec 5) (m : BitVec 3)
  /-- VSRL, R115: Per-element logical shift right. -/
  | vsrl (f : BitVec 2) (d : BitVec 5) (a : BitVec 5) (b : BitVec 5) (m : BitVec 3)
  /-- VSRA, R115: Per-element arithmetic shift right. -/
  | vsra (f : BitVec 2) (d : BitVec 5) (a : BitVec 5) (b : BitVec 5) (m : BitVec 3)
  /-- VPOPC, R115: Per-element population count. -/
  | vpopc (d : BitVec 5) (a : BitVec 5) (m : BitVec 3)
  /-- VCLZ, R115: Per-element leading-zero count. -/
  | vclz (d : BitVec 5) (a : BitVec 5) (m : BitVec 3)
  /-- VRECIP, R116: Per-element reciprocal within the bounds of R117. -/
  | vrecip (d : BitVec 5) (a : BitVec 5) (m : BitVec 3)
  /-- VRSQRT, R116: Per-element reciprocal square root. -/
  | vrsqrt (d : BitVec 5) (a : BitVec 5) (m : BitVec 3)
  /-- VSQRT, R116: Per-element correctly rounded square root. -/
  | vsqrt (d : BitVec 5) (a : BitVec 5) (m : BitVec 3)
  /-- VEXP2, R116: Per-element power of two. -/
  | vexp2 (d : BitVec 5) (a : BitVec 5) (m : BitVec 3)
  /-- VLOG2, R116: Per-element base-2 logarithm. -/
  | vlog2 (d : BitVec 5) (a : BitVec 5) (m : BitVec 3)
  /-- VTANH, R116: Per-element hyperbolic tangent. -/
  | vtanh (d : BitVec 5) (a : BitVec 5) (m : BitVec 3)
  /-- VCMP_EQ, R118: Element compare equal into a mask. -/
  | vcmpEq (f : BitVec 2) (d : BitVec 3) (a : BitVec 5) (b : BitVec 5) (m : BitVec 3)
  /-- VCMP_NE, R118: Element compare not equal into a mask. -/
  | vcmpNe (f : BitVec 2) (d : BitVec 3) (a : BitVec 5) (b : BitVec 5) (m : BitVec 3)
  /-- VCMP_LT, R118: Element compare less-than into a mask. -/
  | vcmpLt (f : BitVec 2) (d : BitVec 3) (a : BitVec 5) (b : BitVec 5) (m : BitVec 3)
  /-- VCMP_LE, R118: Element compare less-or-equal into a mask. -/
  | vcmpLe (f : BitVec 2) (d : BitVec 3) (a : BitVec 5) (b : BitVec 5) (m : BitVec 3)
  /-- VCMP_GT, R118: Element compare greater-than into a mask. -/
  | vcmpGt (f : BitVec 2) (d : BitVec 3) (a : BitVec 5) (b : BitVec 5) (m : BitVec 3)
  /-- VCMP_GE, R118: Element compare greater-or-equal into a mask. -/
  | vcmpGe (f : BitVec 2) (d : BitVec 3) (a : BitVec 5) (b : BitVec 5) (m : BitVec 3)
  /-- VCMP_UN, R118: Element unordered compare into a mask. -/
  | vcmpUn (f : BitVec 2) (d : BitVec 3) (a : BitVec 5) (b : BitVec 5) (m : BitVec 3)
  /-- MAND, R103: Mask and. -/
  | mand (d : BitVec 3) (a : BitVec 3) (b : BitVec 3)
  /-- MOR, R103: Mask or. -/
  | mor (d : BitVec 3) (a : BitVec 3) (b : BitVec 3)
  /-- MXOR, R103: Mask xor. -/
  | mxor (d : BitVec 3) (a : BitVec 3) (b : BitVec 3)
  /-- MANDN, R103: Mask and-not. -/
  | mandn (d : BitVec 3) (a : BitVec 3) (b : BitVec 3)
  /-- MNOT, R103: Mask not. -/
  | mnot (d : BitVec 3) (a : BitVec 3)
  /-- MMV, R103: Mask move. -/
  | mmv (d : BitVec 3) (a : BitVec 3)
  /-- MSET, R103: Sets mask bits below ml. -/
  | mset (d : BitVec 3)
  /-- MCLR, R103: Clears mask bits below ml. -/
  | mclr (d : BitVec 3)
  /-- MPOPC, R103: Counts set mask bits into xd. -/
  | mpopc (d : BitVec 5) (a : BitVec 3)
  /-- MFIRST, R103: Writes the index of the lowest set mask bit. -/
  | mfirst (d : BitVec 5) (a : BitVec 3)
  /-- MANY, R103: Sets cd when any mask bit is set. -/
  | many (d : BitVec 3) (a : BitVec 3)
  /-- MALL, R103: Sets cd when every mask bit is set. -/
  | mall (d : BitVec 3) (a : BitVec 3)
  /-- MIOTA, R103: Writes the prefix count of set mask bits per element. -/
  | miota (d : BitVec 5) (a : BitVec 3)
  /-- MCOMP, R103: Copies vcomp into a mask register. -/
  | mcomp (d : BitVec 3)
  /-- VCVT, R121: Plain element conversion to the named tag. -/
  | vcvt (d : BitVec 5) (a : BitVec 5) (r : BitVec 3) (m : BitVec 3) (t : BitVec 4)
  /-- VCVT_SAT, R121: Saturating element conversion to the named tag. -/
  | vcvtSat (d : BitVec 5) (a : BitVec 5) (r : BitVec 3) (m : BitVec 3) (t : BitVec 4)
  /-- VCVT_SR, R122: Stochastically rounded conversion using random bits from vb. -/
  | vcvtSr (d : BitVec 5) (a : BitVec 5) (b : BitVec 5) (m : BitVec 3) (t : BitVec 4)
  /-- VCVT_SR_SAT, R122: Stochastically rounded saturating conversion. -/
  | vcvtSrSat (d : BitVec 5) (a : BitVec 5) (b : BitVec 5) (m : BitVec 3) (t : BitVec 4)
  /-- VREDSUM, R128: Sum reduction into element 0, floating by the fixed tree. -/
  | vredsum (d : BitVec 5) (a : BitVec 5) (m : BitVec 3)
  /-- VREDMAX, R128: Maximum reduction into element 0. -/
  | vredmax (d : BitVec 5) (a : BitVec 5) (m : BitVec 3)
  /-- VREDMIN, R128: Minimum reduction into element 0. -/
  | vredmin (d : BitVec 5) (a : BitVec 5) (m : BitVec 3)
  /-- VREDAND, R128: Bitwise and reduction. -/
  | vredand (d : BitVec 5) (a : BitVec 5) (m : BitVec 3)
  /-- VREDOR, R128: Bitwise or reduction. -/
  | vredor (d : BitVec 5) (a : BitVec 5) (m : BitVec 3)
  /-- VREDXOR, R128: Bitwise xor reduction. -/
  | vredxor (d : BitVec 5) (a : BitVec 5) (m : BitVec 3)
  /-- VSCAN_SUM, R130: Inclusive prefix sum in ascending order. -/
  | vscanSum (d : BitVec 5) (a : BitVec 5) (m : BitVec 3)
  /-- VSCAN_MAX, R130: Inclusive prefix maximum in ascending order. -/
  | vscanMax (d : BitVec 5) (a : BitVec 5) (m : BitVec 3)
  /-- VSLIDEUP, R131: Slides elements up by k. -/
  | vslideup (f : BitVec 2) (d : BitVec 5) (a : BitVec 5) (b : BitVec 5) (m : BitVec 3)
  /-- VSLIDEDN, R131: Slides elements down by k, zero-filling. -/
  | vslidedn (f : BitVec 2) (d : BitVec 5) (a : BitVec 5) (b : BitVec 5) (m : BitVec 3)
  /-- VPERM, R131: Permutes va by indices in vb. -/
  | vperm (d : BitVec 5) (a : BitVec 5) (b : BitVec 5) (m : BitVec 3)
  /-- VCOMPRESS, R132: Packs selected elements to the bottom of vd. -/
  | vcompress (d : BitVec 5) (a : BitVec 5) (m : BitVec 3)
  /-- VEXPAND, R132: Spreads consecutive elements to selected positions. -/
  | vexpand (d : BitVec 5) (a : BitVec 5) (m : BitVec 3)
  /-- VBCAST, R131: Broadcasts element k to all active elements. -/
  | vbcast (f : BitVec 2) (d : BitVec 5) (a : BitVec 5) (b : BitVec 5) (m : BitVec 3)
  /-- VMV, R131: Moves vector elements. -/
  | vmv (d : BitVec 5) (a : BitVec 5) (m : BitVec 3)
  /-- VIOTA, R131: Writes each element's index in an integer tag. -/
  | viota (d : BitVec 5) (t : BitVec 4) (m : BitVec 3)
  /-- VMVX, R133: Moves element k into a scalar register. -/
  | vmvx (f : BitVec 2) (d : BitVec 5) (a : BitVec 5) (b : BitVec 5)
  /-- VMVS, R133: Converts a scalar to vd's tag and writes it to active elements. -/
  | vmvs (d : BitVec 5) (b : BitVec 5) (m : BitVec 3)
  /-- VNZB, R135: Sets mask bits for nonzero elements. -/
  | vnzb (d : BitVec 3) (a : BitVec 5) (m : BitVec 3)
  /-- VBPOP, R135: Writes prefix counts of set bits of lower elements. -/
  | vbpop (d : BitVec 5) (a : BitVec 5) (m : BitVec 3)
  /-- VRANK, R135: Counts bitmap set bits below each position in vb. -/
  | vrank (d : BitVec 5) (a : BitVec 5) (b : BitVec 5) (m : BitVec 3)
  /-- VXSECT, R136: Lists positions set in both bitmaps, ending with sentinels. -/
  | vxsect (d : BitVec 5) (a : BitVec 5) (b : BitVec 5) (m : BitVec 3)
  /-- VSETVL, R98: Grant point that sets vgrant, vlmax and vl for a tag. -/
  | vsetvl (d : BitVec 5) (a : BitVec 5) (t : BitVec 4)
  /-- VCFG, R99: Sets, reinterprets or removes a register's tag. -/
  | vcfg (d : BitVec 5) (t : BitVec 4)
  /-- VREL, R100: Releases all lane groups and kills vector state. -/
  | vrel
  /-- VRAND, R101: Fills vd with Philox-4x32-10 words. -/
  | vrand (d : BitVec 5) (b : BitVec 5) (m : BitVec 3)
  /-- VLD, R224: Unit-stride vector load with probe, perform and progress recording. -/
  | vld (d : BitVec 5) (a : BitVec 5) (m : BitVec 3) (s : BitVec 3) (o : BitVec 2) (f : BitVec 1)
  /-- VLD_S, R224: Strided vector load. -/
  | vldS (d : BitVec 5) (a : BitVec 5) (b : BitVec 5) (m : BitVec 3) (s : BitVec 3) (o : BitVec 2) (f : BitVec 1)
  /-- VST, R224: Unit-stride vector store. -/
  | vst (d : BitVec 5) (a : BitVec 5) (m : BitVec 3) (s : BitVec 3) (o : BitVec 2)
  /-- VST_S, R224: Strided vector store. -/
  | vstS (d : BitVec 5) (a : BitVec 5) (b : BitVec 5) (m : BitVec 3) (s : BitVec 3) (o : BitVec 2)
  /-- VLDX, R225: Gather through an index vector. -/
  | vldx (d : BitVec 5) (a : BitVec 5) (b : BitVec 5) (m : BitVec 3) (s : BitVec 3) (o : BitVec 2) (f : BitVec 1)
  /-- VGLL, R227: Gather that also records links in the link table. -/
  | vgll (d : BitVec 5) (a : BitVec 5) (b : BitVec 5) (m : BitVec 3) (s : BitVec 3) (o : BitVec 2)
  /-- VSTX, R225: Scatter through an index vector. -/
  | vstx (d : BitVec 5) (a : BitVec 5) (b : BitVec 5) (m : BitVec 3) (s : BitVec 3) (o : BitVec 2)
  /-- VSCC, R229: Scatter-conditional on the link of each element. -/
  | vscc (d : BitVec 5) (a : BitVec 5) (b : BitVec 5) (m : BitVec 3) (s : BitVec 3) (o : BitVec 2)
  /-- VAMO_ADD, R231: Vector atomic add per element. -/
  | vamoAdd (d : BitVec 5) (a : BitVec 5) (b : BitVec 5) (m : BitVec 3) (s : BitVec 3) (o : BitVec 2)
  /-- VAMO_AND, R231: Vector atomic and per element. -/
  | vamoAnd (d : BitVec 5) (a : BitVec 5) (b : BitVec 5) (m : BitVec 3) (s : BitVec 3) (o : BitVec 2)
  /-- VAMO_OR, R231: Vector atomic or per element. -/
  | vamoOr (d : BitVec 5) (a : BitVec 5) (b : BitVec 5) (m : BitVec 3) (s : BitVec 3) (o : BitVec 2)
  /-- VAMO_XOR, R231: Vector atomic xor per element. -/
  | vamoXor (d : BitVec 5) (a : BitVec 5) (b : BitVec 5) (m : BitVec 3) (s : BitVec 3) (o : BitVec 2)
  /-- VAMO_MIN, R231: Vector atomic minimum per element. -/
  | vamoMin (d : BitVec 5) (a : BitVec 5) (b : BitVec 5) (m : BitVec 3) (s : BitVec 3) (o : BitVec 2)
  /-- VAMO_MAX, R231: Vector atomic maximum per element. -/
  | vamoMax (d : BitVec 5) (a : BitVec 5) (b : BitVec 5) (m : BitVec 3) (s : BitVec 3) (o : BitVec 2)
  /-- VAMO_SWAP, R231: Vector atomic swap per element. -/
  | vamoSwap (d : BitVec 5) (a : BitVec 5) (b : BitVec 5) (m : BitVec 3) (s : BitVec 3) (o : BitVec 2)
  /-- VFAS, R232: Adds all active elements to one word indivisibly and returns prefix sums. -/
  | vfas (d : BitVec 5) (a : BitVec 5) (b : BitVec 5) (m : BitVec 3)
  /-- VWAIT, R233: Sleeps until watched words reach at least their expected values or the deadline. -/
  | vwait (a : BitVec 5) (x : BitVec 5) (b : BitVec 5) (m : BitVec 3) (s : BitVec 3)
  /-- VWAIT_EQ, R233: Sleeps until watched words equal their expected values. -/
  | vwaitEq (a : BitVec 5) (x : BitVec 5) (b : BitVec 5) (m : BitVec 3) (s : BitVec 3)
  /-- VWAIT_NE, R233: Sleeps until watched words differ from their expected values. -/
  | vwaitNe (a : BitVec 5) (x : BitVec 5) (b : BitVec 5) (m : BitVec 3) (s : BitVec 3)
  /-- VXLT, R323: Translates token positions through a context map into addresses. -/
  | vxlt (d : BitVec 5) (a : BitVec 5) (b : BitVec 5) (m : BitVec 3) (f : BitVec 1)
  /-- VXLT_W, R323: Translates positions, resolving draft positions through the captured window. -/
  | vxltW (d : BitVec 5) (a : BitVec 5) (b : BitVec 5) (m : BitVec 3) (f : BitVec 1)
  /-- VLIN, R333: Sets mask bits where key nodes are ancestors of query nodes in a draft tree. -/
  | vlin (v : BitVec 5) (a : BitVec 5) (b : BitVec 5) (m : BitVec 3)
  /-- VLIN_B, R333: Sets mask bits by branch lineage of map handles. -/
  | vlinB (v : BitVec 5) (a : BitVec 5) (b : BitVec 5) (m : BitVec 3)
  /-- MENTER, R143: Binds tiles and enters matrix mode. -/
  | menter (n : BitVec 4)
  /-- MEXIT, R144: Kills all tiles and leaves matrix mode. -/
  | mexit
  /-- MZERO, R145: Zeroes a tile and tags it f32. -/
  | mzero (t : BitVec 4)
  /-- MOPA, R148: Outer-product accumulate with A latched and B stepping. -/
  | mopa (t : BitVec 4) (a : BitVec 5) (b : BitVec 5) (r : BitVec 4) (s : BitVec 2) (m : BitVec 3)
  /-- MOPA_RA, R148: Outer-product accumulate with B latched and A stepping. -/
  | mopaRa (t : BitVec 4) (a : BitVec 5) (b : BitVec 5) (r : BitVec 4) (s : BitVec 2) (m : BitVec 3)
  /-- MOPA_MX, R149: Microscaled outer-product accumulate, A latched. -/
  | mopaMx (t : BitVec 4) (a : BitVec 5) (b : BitVec 5) (r : BitVec 4) (m : BitVec 3)
  /-- MOPA_MX_RA, R149: Microscaled outer-product accumulate, B latched. -/
  | mopaMxRa (t : BitVec 4) (a : BitVec 5) (b : BitVec 5) (r : BitVec 4) (m : BitVec 3)
  /-- MROW, R153: Moves a tile row into a vector register. -/
  | mrow (t : BitVec 4) (a : BitVec 5) (b : BitVec 5) (m : BitVec 3)
  /-- MCOL, R153: Moves a tile column into a vector register. -/
  | mcol (t : BitVec 4) (a : BitVec 5) (b : BitVec 5) (m : BitVec 3)
  /-- MPUTR, R153: Writes a vector register into a tile row. -/
  | mputr (t : BitVec 4) (a : BitVec 5) (b : BitVec 5) (m : BitVec 3)
  /-- MPUTC, R153: Writes a vector register into a tile column. -/
  | mputc (t : BitVec 4) (a : BitVec 5) (b : BitVec 5) (m : BitVec 3)
  /-- MCVT, R153: Converts a tile row into a vector register of a named tag. -/
  | mcvt (t : BitVec 4) (a : BitVec 5) (b : BitVec 5) (k : BitVec 4) (m : BitVec 3)
  /-- MLD, R154: Loads a tile from memory by rows. -/
  | mld (t : BitVec 4) (a : BitVec 5) (b : BitVec 5) (m : BitVec 3)
  /-- MST, R154: Stores a tile to memory by rows. -/
  | mst (t : BitVec 4) (a : BitVec 5) (b : BitVec 5) (m : BitVec 3)
  /-- CPY, R262: Pushes a memory-to-memory copy under a tag. -/
  | cpy (d : BitVec 5) (a : BitVec 5) (b : BitVec 5) (g : BitVec 6) (o : BitVec 1) (s : BitVec 2)
  /-- CPYV, R263: Pushes a copy from memory into a register group. -/
  | cpyv (d : BitVec 5) (a : BitVec 5) (n : BitVec 3) (g : BitVec 6) (o : BitVec 1) (s : BitVec 2)
  /-- CPYC, R264: Pushes a copy of a register into another hart's register. -/
  | cpyc (d : BitVec 5) (a : BitVec 5) (b : BitVec 5) (g : BitVec 6) (o : BitVec 1) (s : BitVec 2)
  /-- CPYC_TB, R265: Pushes a copy between tile-buffer allocations on two cores. -/
  | cpycTb (d : BitVec 5) (a : BitVec 5) (b : BitVec 5) (g : BitVec 6) (o : BitVec 1) (s : BitVec 2)
  /-- SCFG, R273: Configures a stream slot from a descriptor and starts fetching. -/
  | scfg (a : BitVec 5) (s : BitVec 3) (n : BitVec 2)
  /-- VLDS, R274: Delivers the next strip of a stream into vd. -/
  | vlds (d : BitVec 5) (n : BitVec 2)
  /-- SADV, R272: Advances a stream cursor past the last strip. -/
  | sadv (n : BitVec 2)
  /-- SCLOSE, R272: Closes a stream slot. -/
  | sclose (n : BitVec 2)
  /-- TWANY, R268: Waits until any masked tag completes and reports it. -/
  | twany (d : BitVec 5) (a : BitVec 5)
  /-- TWALL, R268: Waits until no masked tag is busy and reports them. -/
  | twall (a : BitVec 5)
  /-- TFIND, R268: Returns the lowest complete masked tag without waiting. -/
  | tfind (d : BitVec 5) (a : BitVec 5)
  /-- TCLR, R268: Clears tagmap bits. -/
  | tclr (a : BitVec 5)
  /-- TSTAMP, R268: Reads a tag's stamp. -/
  | tstamp (d : BitVec 5) (g : BitVec 6)
  /-- QBIND, R249: Binds a queue register to a producer and consumer hart. -/
  | qbind (a : BitVec 5) (b : BitVec 5) (q : BitVec 3)
  /-- QPUSH, R250: Appends a word to a queue register, sleeping while full. -/
  | qpush (a : BitVec 5) (q : BitVec 3)
  /-- QPOP, R250: Removes the oldest word of a queue register, sleeping while empty. -/
  | qpop (d : BitVec 5) (q : BitVec 3)
  /-- QSTAT, R251: Returns a queue register's status. -/
  | qstat (d : BitVec 5) (q : BitVec 3)
  /-- BARINIT, R357: Initialises a barrier slot instance with a scope and count. -/
  | barinit (s : BitVec 3) (a : BitVec 5) (i : BitVec 4)
  /-- BAR_ARRIVE, R357: Arrives at a barrier instance with a release. -/
  | barArrive (i : BitVec 4)
  /-- BAR_WAIT, R357: Waits for the phase of the hart's arrival to complete. -/
  | barWait (i : BitVec 4)
  /-- BAR_SYNC, R357: Arrives and waits as one instruction. -/
  | barSync (i : BitVec 4)
  /-- BAR_DROP, R357: Leaves a barrier instance. -/
  | barDrop (i : BitVec 4)
  /-- SIGADD, R363: Releases and atomically adds to a signal word. -/
  | sigadd (a : BitVec 5) (b : BitVec 5) (s : BitVec 3)
  /-- LSYNC, R245: Resynchronises an active lead with the trailing hart. -/
  | lsync
  /-- LOFF, R245: Stops and deactivates the lead. -/
  | loff
  /-- LON, R245: Activates and restarts the lead. -/
  | lon
  /-- TIDE, R373: Declares a matrix burst and receives a granted onset. -/
  | tide (d : BitVec 5) (a : BitVec 5) (b : BitVec 5) (n : BitVec 6)
  /-- TIDEWAIT, R374: Sleeps until the granted onset of the declaration. -/
  | tidewait (d : BitVec 5)
  /-- TIDEQ, R375: Reads a tide account or declaration state. -/
  | tideq (d : BitVec 5) (s : BitVec 6)
  /-- MAPGET, R326: Returns the block entry through which a position resolves. -/
  | mapget (d : BitVec 5) (a : BitVec 5) (b : BitVec 5)
  /-- MAPSET, R326: Writes a block entry of the working map with copy-on-write. -/
  | mapset (h : BitVec 5) (a : BitVec 5) (b : BitVec 5)
  /-- MAPVER_ACQ, R327: Takes a reference to the latest version and acquires it. -/
  | mapverAcq (d : BitVec 5) (a : BitVec 5)
  /-- MAPVER_REL, R327: Drops a version reference and reclaims superseded versions. -/
  | mapverRel (a : BitVec 5)
  /-- MAPVER_PUB, R327: Publishes the working map as a new version with a release. -/
  | mapverPub (a : BitVec 5) (s : BitVec 3)
  /-- BALLOC, R330: Pops a block from a pool, or adds a draft block under a valid cw. -/
  | balloc (d : BitVec 5) (a : BitVec 5)
  /-- BFREE, R330: Pushes a block onto a pool. -/
  | bfree (a : BitVec 5) (b : BitVec 5)
  /-- SWOPEN, R341: Opens a foreshore window on a map. -/
  | swopen (d : BitVec 5) (a : BitVec 5) (b : BitVec 5)
  /-- SWCOMMIT, R344: Seals a window and pushes its commit as an engine command under a tag. -/
  | swcommit (s : BitVec 3) (a : BitVec 5) (b : BitVec 5) (g : BitVec 6)
  /-- SWDROP, R343: Discards an open window and frees its draft blocks. -/
  | swdrop (a : BitVec 5)
  /-- SWSTAT, R342: Returns a window's status. -/
  | swstat (d : BitVec 5) (a : BitVec 5)
  /-- LNSET, R332: Makes a draft node valid with a parent. -/
  | lnset (w : BitVec 5) (a : BitVec 5) (b : BitVec 5)
  /-- LNGET, R332: Reads a draft node's valid bit and parent. -/
  | lnget (d : BitVec 5) (a : BitVec 5) (b : BitVec 5)
  /-- LAUNCH, R280: Checks a launch record and enqueues it or counts its failure. -/
  | launch (a : BitVec 5)
  /-- SPAWN, R281: Enqueues a launch record on the launch's spawn queue. -/
  | spawn (a : BitVec 5)
  /-- YIELD, R283: Pre-empts the hart when an entry waits for its core. -/
  | yield
  /-- EXIT, R282: Retires the hart, releasing and updating the completion counter if last. -/
  | exit
  /-- RESUME, R284: Makes a parked hart runnable again. -/
  | resume (a : BitVec 5)
  /-- CRR, R159: Reads a control register. -/
  | crr (d : BitVec 5) (n : BitVec 12)
  /-- CRW, R159: Writes a control register. -/
  | crw (a : BitVec 5) (n : BitVec 12)
  /-- CRS, R159: Sets bits of a control register. -/
  | crs (a : BitVec 5) (n : BitVec 12)
  /-- CRC, R159: Clears bits of a control register. -/
  | crc (a : BitVec 5) (n : BitVec 12)
  /-- PREF, R180: Prefetches a line at a scope. -/
  | pref (a : BitVec 5) (s : BitVec 3)
  /-- FLUSH, R181: Writes back dirty data of a range as far as its scope. -/
  | flush (a : BitVec 5) (b : BitVec 5) (s : BitVec 3)
  /-- DISCARD, R183: Drops data of a range without writing it back. -/
  | discard (a : BitVec 5) (b : BitVec 5) (s : BitVec 3)
  /-- INV, R182: Writes back and invalidates a range in the core's L1. -/
  | inv (a : BitVec 5) (b : BitVec 5)
  /-- XINV, R184: Invalidates cached translations of a page across a scope. -/
  | xinv (a : BitVec 5) (s : BitVec 3)
  /-- TRAP, R385: Traps with cause 0x10 and the immediate in tval. -/
  | trap (i : BitVec 12)
  /-- TRET, R386: Returns from a vectored trap. -/
  | tret
  /-- WFI, R387: Sleeps until the hart's interrupt bit is pending. -/
  | wfi
  /-- HALT, R385: Traps and always parks the hart. -/
  | halt
  /-- FAULT_POSTING, R392: Writes a fault record once the queue has room, advances tail and raises interrupts. -/
  | faultPosting (part : Nat)
  /-- FAULT_POSTED_INTERRUPT, R383: A supervisor hart takes interrupt 0x80 at an instruction boundary. -/
  | faultPostedInterrupt (hart : Nat)
  /-- BARRIER_GROUP_WAKE, R361: A staggered cluster group of sleepers wakes spacing times g ns after completion. -/
  | barrierGroupWake (launch : Nat) (slot : BitVec 4) (group : Nat)
  /-- TIDEWAIT_ONSET, R374: A sleeping tidewait returns at the granted onset. -/
  | tidewaitOnset (hart : Nat)
  /-- TIDE_WINDOW_START, R376: A declaration's window begins and its state turns active. -/
  | tideWindowStart (hart : Nat)
  /-- TIDE_WINDOW_END, R368: A declaration ends at the end of its window and charges unused capacity. -/
  | tideWindowEnd (hart : Nat)
  /-- TIDE_INTERVAL_END, R377: A 64-cycle interval ends, charging unused capacity and possibly ending a burst. -/
  | tideIntervalEnd (core : Nat)
  /-- LEAD_ISSUE, R236: The lead hart executes, skips or stops at its next instruction. -/
  | leadIssue (hart : Nat)
  /-- COPY_COMPLETE, R258: An engine command completes, setting its tag bit and stamp. -/
  | copyComplete (cmd : Nat)
  /-- COPY_PUSH_WAKE, R261: A CPY waiting for its tag or a FIFO entry proceeds to push. -/
  | copyPushWake (hart : Nat)
  /-- TAG_WAIT_WAKE, R268: A sleeping twany or twall wakes and reports its tags. -/
  | tagWaitWake (hart : Nat)
  /-- STREAM_FETCH_LAND, R271: A stream fetch lands in the strip buffer and increments avail. -/
  | streamFetchLand (hart : Nat) (slot : BitVec 2)
  /-- VLDS_WAKE, R274: A sleeping vlds wakes when elements land or a fault is recorded. -/
  | vldsWake (hart : Nat)
  /-- SWCOMMIT_PERFORM, R345: The engine copies the accepted path into tail blocks and publishes a version. -/
  | swcommitPerform (cmd : Nat)
  /-- VWAIT_WAKE, R233: A sleeping vwait wakes on a write to a watched word's home and rereads. -/
  | vwaitWake (hart : Nat)
  /-- VWAIT_DEADLINE, R233: A vwait's deadline passes and it returns the unmet mask. -/
  | vwaitDeadline (hart : Nat)
  /-- QUEUE_WAKE, R250: A sleeping qpush or qpop wakes when the count changes or the queue unbinds. -/
  | queueWake (hart : Nat)
  /-- SPAWN_WAKE, R281: A spawn sleeping on a full spawn queue proceeds when an entry frees. -/
  | spawnWake (hart : Nat)
  /-- WFI_WAKE, R387: A sleeping wfi returns when the interrupt bit becomes pending. -/
  | wfiWake (hart : Nat)
  /-- VSETVL_LANE_WAKE, R98: A vsetvl waiting for lanes retires when lanes become free. -/
  | vsetvlLaneWake (hart : Nat)
  /-- PLACEMENT, R288: The scheduler places the next admitted unit from the resume lists, spawn queues or run queues. -/
  | placement (core : Nat)
  /-- LANE_RECLAMATION, R96: The scheduler asks a hart to give up lane groups at its next vsetvl. -/
  | laneReclamation (hart : Nat) (leave : BitVec 4)
  /-- REVOKE_DEADLINE, R96: A reclamation or victim request expires after revoke cycles and pre-empts the hart. -/
  | revokeDeadline (hart : Nat)
  /-- PREEMPTION, R295: Stops the lead, drains commands, releases, saves context and frees the hart's resources. -/
  | preemption (hart : Nat)
  /-- RESUMPTION, R297: Places a saved unit, writes hid, restores context and acquires. -/
  | resumption (hart : Nat) (core : Nat)
  /-- AGING_PROMOTION, R289: A head entry waiting agetime ns moves to the next class up. -/
  | agingPromotion (part : Nat) (cls : Nat) (onResume : Bool)
  /-- PARTMV_WRITE, R165: A write to partmv starts or refuses a move of a core to another partition. -/
  | partmvWrite (value : BitVec 64)
  /-- PARTITION_MOVE_COMPLETE, R165: The last hart leaves the moved core and busy clears. -/
  | partitionMoveComplete
  /-- POWER_GOOD, R402: Bring-up runs firmware selection, self-test, core mapping, HBM zeroing and opens the Ceide port. -/
  | powerGood
  /-- KEAVAR_TIME_MESSAGE, R350: A time message from the time master slews the package's shore count. -/
  | keavarTimeMessage (time : BitVec 64)
  /-- TIME_BOUND_LOSS, R350: No time message for over a millisecond; the package runs free and reports it. -/
  | timeBoundLoss
  /-- REMOTE_ACCESS_TIMEOUT, R400: A remote access undelivered or unacknowledged in 1 ms faults with cause 0x0D. -/
  | remoteAccessTimeout (hart : Nat) (addr : BitVec 64)
  /-- CEIDE_LANE_FAILURE, R396: A Ceide lane fails and the port continues on the remaining lanes. -/
  | ceideLaneFailure (lane : BitVec 2)
  /-- CEIDE_READ, R398: A read packet returns data as an acquire at package scope. -/
  | ceideRead (addr : BitVec 52) (size : Nat)
  /-- CEIDE_WRITE, R398: A write packet is performed at the home as a release at package scope. -/
  | ceideWrite (addr : BitVec 52) (data : List (BitVec 8))
  /-- CEIDE_ATOMIC_ADD, R398: An atomic add packet adds indivisibly and returns the old value. -/
  | ceideAtomicAdd (addr : BitVec 52) (addend : BitVec 64)
  /-- MGMT_STATUS, R401: Returns the self-test report, lane, port and time-bound state. -/
  | mgmtStatus
  /-- MGMT_PARTITION_CREATE, R401: Creates a partition with cores, root, fault queue, save region and host ranges. -/
  | mgmtPartitionCreate (request : PartitionRequest)
  /-- MGMT_PARTITION_DESTROY, R401: Destroys a partition unless a live launch remains. -/
  | mgmtPartitionDestroy (part : BitVec 16)
  /-- MGMT_ROOT_CHANGE, R301: Changes a partition's translation root unless a live launch remains. -/
  | mgmtRootChange (part : BitVec 16) (root : BitVec 64)
  /-- MGMT_START_DISPATCHER, R430: Enqueues a launch record from a host range as a supervisor launch. -/
  | mgmtStartDispatcher (addr : BitVec 52)
  /-- MGMT_COUNTERS, R364: Configures performance counters or requests periodic snapshots. -/
  | mgmtCounters (request : CounterRequest)
  /-- COUNTER_SNAPSHOT, R366: Each period the Lighthouse writes snapshot records and adds to the signal word. -/
  | counterSnapshot
  /-- MGMT_TIDE_TOTALS, R376: Returns the partition's tide account totals. -/
  | mgmtTideTotals (part : BitVec 16)
  /-- MGMT_ATTESTATION, R405: Returns a signed attestation report for a nonce. -/
  | mgmtAttestation (nonce : BitVec 256)
  /-- MGMT_FIRMWARE_UPDATE, R403: Writes the inactive firmware image slot. -/
  | mgmtFirmwareUpdate (image : FirmwareImage)
  /-- MGMT_RESET, R401: Restarts bring-up at firmware selection, discarding all state. -/
  | mgmtReset
  /-- NOT_AN_INSTRUCTION, R29: A trailing hart reaches a word that is not an instruction and traps with cause 0x01. -/
  | notAnInstruction (word : BitVec 32)
  /-- FETCH_FAULT, R22: A fetch at the PC faults in translation, has execute clear or hits a window-arena page, and traps with epc
  and tval at the fetched address. -/
  | fetchFault (cause : BitVec 8) (addr : BitVec 64)
  /-- SHORE_TICK, R350: The package shore count advances by 1 each nanosecond, wrapping modulo 2^64. -/
  | shoreTick
  /-- KEAVAR_REMOTE_ACCESS, R400: A remote load, store, atomic, sigadd, engine access or domain-scope xinv arrives from another
  package over Keavar and is performed at the local home or translation caches. -/
  | keavarRemoteAccess (access : RemoteAccess)
  deriving DecidableEq, Repr

end Sys2Proof
end

