-- ==== Sys2Proof/Machine/State.lean ====
section
/-! DEFINITION. The state of the MH960: every piece of state the manual gives the package, as plain data. -/

namespace Sys2Proof.Machine

/-- The element tags, in the order of their codes (R41). -/
inductive Tag where
  | dead | i8 | n8 | i16 | n16 | i32 | n32 | i64 | n64 | f16 | bf16 | f32 | f64 | e4m3 | e5m2 | e2m1
  deriving DecidableEq, Repr

/-- A vector register: its image and its element tag (R86). -/
structure VReg where
  img : BitVec 16384 := 0
  tag : Tag := .dead
  deriving DecidableEq, Repr

/-- The tags of a tile (R138). -/
inductive TileTag where
  | dead | f32 | i32
  deriving DecidableEq, Repr

/-- A tile register: element (i, j) in bits 32 × (64i + j) + 31 down (R138). -/
structure Tile where
  img : BitVec 131072 := 0
  tag : TileTag := .dead
  deriving DecidableEq, Repr

/-- What an instruction captured at first issue (R201, R393 at 0x0600): control registers, scalar operands in the order
of the encoding fields, and the scalar of a vs form. `pc` names the instruction. -/
structure Captured where
  pc : Word := 0
  fmode : BitVec 6 := 0
  rkey : Word := 0
  cw : BitVec 5 := 0
  lslip : BitVec 4 := 0
  lskew : BitVec 3 := 0
  vbyp : BitVec 24 := 0
  rad : BitVec 7 := 0
  bxSpacing : BitVec 10 := 0
  bxGroup : BitVec 6 := 0
  operands : List Word := []
  scalar : Word := 0
  deriving DecidableEq, Repr

/-- The progress of an interrupted vector instruction (R94, R388): `addr` is the instruction's address, `none` when the
copy is empty; `cap` is what that instruction captured. -/
structure Progress where
  vcomp : BitVec 2048 := 0
  vstart : BitVec 12 := 0
  addr : Option Word := none
  cap : Captured := {}
  deriving DecidableEq, Repr

/-- A valid entry of the link table (R226); `home` is the physical address of the granule, by which writes break it
(R228). -/
structure Link where
  index : Nat
  granule : BitVec 52
  size : BitVec 2
  home : Nat
  deriving DecidableEq, Repr

/-- A copy tag (R257); `scope` is that of the last command, `cause` and `addr` the recorded error (R259), `doneAt` the cycle of the
last completion (R258). -/
structure TagState where
  busy : Bool := false
  errpend : Bool := false
  err : Bool := false
  time : BitVec 63 := 0
  scope : BitVec 3 := 0
  cause : BitVec 8 := 0
  addr : Word := 0
  doneAt : Option Nat := none
  deriving DecidableEq, Repr

/-- A stream slot: descriptor (R269), captured scope, `cw` and privilege (R201), and counters (R270). `landed` holds what the
strip buffer took for the elements from the cursor on, so that one that a program has disturbed can be told (R271), each with the
physical address at which it was read, so that `vlds` acquires just that (R274). -/
structure StreamSlot where
  cfg : Bool := false
  base : Word := 0
  stride : Word := 0
  length : BitVec 32 := 0
  tag : Tag := .dead
  descending : Bool := false
  sbuf : BitVec 16 := 0
  soff : BitVec 32 := 0
  scope : BitVec 3 := 0
  cw : BitVec 5 := 0
  sup : Bool := false
  cursor : BitVec 32 := 0
  avail : BitVec 32 := 0
  last : BitVec 32 := 0
  landed : List (Nat × Nat) := []
  fault : Option (BitVec 8 × Word) := none
  deriving DecidableEq, Repr

/-- A hart's state for one barrier slot (R355). -/
structure HartBar where
  init : BitVec 32 := 0
  phase : BitVec 32 := 0
  pending : Bool := false
  member : Bool := false
  dropped : Bool := false
  deriving DecidableEq, Repr

/-- A tide declaration (R368): issue cycle, granted onset, duration, intensity, whether the ramp policy was 01, and whether
its window has begun (R376). -/
structure Declaration where
  issue : Nat
  onset : Nat
  duration : Nat
  intensity : Nat
  fullReady : Bool
  active : Bool := false
  deriving DecidableEq, Repr

/-- The tide accounts (R376) with the bookkeeping of R377 and R378: cover gathered, covered repetitions and capacity already
charged in the current interval, an undeclared burst, an undeclared repetition in this interval, the cycle of the last
repetition that was not covered, and whether a ready repetition is held back. -/
structure Tide where
  decl : Option Declaration := none
  declared : Word := 0
  undeclared : Word := 0
  throttled : Word := 0
  stagger : Word := 0
  unused : Word := 0
  stamp : Word := 0
  coverSum : Nat := 0
  covered : Nat := 0
  charged : Nat := 0
  burst : Bool := false
  undeclaredNow : Bool := false
  lastIssue : Nat := 0
  ready : Bool := false
  deriving DecidableEq, Repr

/-- The watched condition of VWAIT (R233). -/
inductive WaitCond where
  | atLeast | eq | ne
  deriving DecidableEq, Repr

/-- A command for the copy engine, with its captured operands (R260, R344). -/
inductive CmdKind where
  /-- `cpy`: destination, source, bytes (R262). -/
  | copy (dst src : Word) (len : Nat)
  /-- `cpyv`: first register, register count, source, tag and captured length (R263). -/
  | fill (vd n : Nat) (src : Word) (tag : Tag) (len : Nat)
  /-- `cpyc`: target hart, destination register, the source's image and tag, captured length, and the bytes of the source in
  error (R264). -/
  | register (target vd : Nat) (image : BitVec 16384) (tag : Tag) (len : Nat) (bad : List Nat)
  /-- `cpyc.tb`: target core, offset, bytes (R265). -/
  | tileBuffer (core : Nat) (off len : Nat)
  /-- `swcommit`: window, node and scope of the publication (R344). -/
  | commit (window node : Nat)
  deriving DecidableEq, Repr

/-- A command in the FIFO or a channel of a core's engine (R254), oldest first in `State.cmds`. `pieces` numbers what it has
already written, aligned 8-byte pieces or element groups, and `loaded` holds the aligned 8-byte pieces of its source that it
has already read (R199, R200, R263). -/
structure Cmd where
  uid : Nat
  core : Nat
  hart : Nat
  tag : Nat
  scope : BitVec 3
  ord : Bool
  sup : Bool
  cw : BitVec 5
  kind : CmdKind
  pieces : List Nat := []
  loaded : List (Nat × List Byte) := []
  deriving DecidableEq, Repr

/-- A fault record (R392). -/
structure FaultRecord where
  handle : Nat
  epc : Word
  tval : Word
  tidx : BitVec 12
  cause : BitVec 8
  flags : BitVec 8
  hid : BitVec 17
  stamp : Word
  done : Word
  deriving DecidableEq, Repr

/-- A launch record (R276), as copied at the enqueue; `resv` is the reserved bytes at 0x2E and 0x38. -/
structure LaunchRec where
  entry : Word := 0
  args : Word := 0
  nharts : Nat := 1
  hpc : Nat := 1
  lgmin : Nat := 0
  lgmax : Nat := 1
  lgw : Nat := 1
  ntile : Nat := 0
  prio : Nat := 0
  tbuf : Nat := 0
  flags : BitVec 32 := 0
  done : Word := 0
  part : Nat := 0
  tide : Nat := 0
  rad : Nat := 1
  resv : Nat := 0
  spawnq : Word := 0
  deriving DecidableEq, Repr

/-- A launch's spawn queue (R290, R291): the launches that wait in it, oldest first, what the area in memory holds as the part left
it, by physical address, and whether a program has written there. -/
structure SpawnQueue where
  capacity : Nat
  high : Nat
  low : Nat
  records : List Nat := []
  depthFirst : Bool := false
  area : List (Nat × List Byte) := []
  spoilt : Bool := false
  deriving DecidableEq, Repr

/-- What a sleeping hart waits for, with the operands its instruction captured. -/
inductive Wait where
  | awake
  /-- VWAIT (R233): condition, address and value registers, mask, scope, deadline. -/
  | vwait (cond : WaitCond) (va vb : BitVec 5) (md scope : BitVec 3) (deadline : Word)
  /-- `qpush` on a full queue and `qpop` on an empty one (R250). -/
  | qpush (q : BitVec 3) (value : Word)
  | qpop (q : BitVec 3) (xd : BitVec 5)
  /-- `twany` and `twall` (R268). -/
  | tagAny (xd : BitVec 5) (mask : Word)
  | tagAll (mask : Word)
  /-- A CPY or `swcommit` that waits for its tag or for a FIFO entry (R261, R344); `checked` once its checks are made; source
  register and target of a `cpyc`. -/
  | push (tag : Nat) (scope : BitVec 3) (ord : Bool) (kind : CmdKind) (checked : Bool) (vs : BitVec 5) (xcore : Word)
  /-- `vlds` with no element available (R274). -/
  | vlds (vd : BitVec 5) (slot : BitVec 2)
  /-- `spawn` on a full spawn queue, with the copy of the record and its spawn queue header (R281). -/
  | spawn (record : LaunchRec) (queue : Option SpawnQueue)
  /-- `bar.wait`, or `bar.sync` in its wait part (R357). -/
  | barrier (slot : BitVec 4)
  /-- `tidewait` (R374), with the cycle at which it began. -/
  | tidewait (xd : BitVec 5) (began : Nat)
  /-- `wfi` (R387). -/
  | wfi
  /-- `vsetvl` waiting for lanes (R98). -/
  | vsetvl (xd : BitVec 5) (request : Word) (tag : Tag)
  /-- `exit` waiting for its commands or for a queue to empty (R282). -/
  | exit
  /-- A parking trap or a pre-emption that waits for the hart's commands (R256): the program counter to resume at, and the
  fault record of a parking trap. -/
  | leaving (resume : Word) (record : Option FaultRecord)
  deriving DecidableEq, Repr

/-- A step of an index shadow (R238), with its scalar or immediate. -/
inductive ShadowStep where
  | add (v : Word)
  | sub (v : Word)
  | sll (v : Word)
  deriving DecidableEq, Repr

/-- The index shadow of a vector register (R238). -/
structure Shadow where
  base : Word
  tag : Tag
  len : Nat
  steps : List ShadowStep
  deriving DecidableEq, Repr

/-- An entry of the delay buffer (R241). The model's address signature is the list of addresses itself with the element
width; `none` records a skipped gather. -/
inductive LeadEntry where
  | branch (seq : Nat) (taken : Bool) (target : Word)
  | memory (seq : Nat) (signature : Option (Nat × List Word)) (pages : List (Nat × Nat)) (lines : List Nat)
  deriving DecidableEq, Repr

/-- The lead hart of a pair (R235, R236): its PC, the copies with their valid bits, the copies of `vl`, `vlmax` and the mode, the
index shadows, the delay buffer, and the sequence numbers of lead and trailing hart. `stoppedAt` is the instruction at which it
stopped under R236. -/
structure Lead where
  pc : Word := 0
  stoppedAt : Option Word := none
  x : Vector Word 32 := Vector.replicate 32 0
  xValid : BitVec 32 := 0
  c : BitVec 8 := 1
  cValid : BitVec 8 := 0
  vlTag : Tag := .dead
  vlLen : Option Nat := none
  vlMax : Option Nat := none
  matrix : Bool := false
  shadows : Vector (Option Shadow) 32 := Vector.replicate 32 none
  buffer : List LeadEntry := []
  branchSeq : Nat := 0
  memorySeq : Nat := 0
  trailBranch : Nat := 0
  trailMemory : Nat := 0
  deriving DecidableEq, Repr

/-- Where a hart is: not started or gone, resident on a core in a hart slot, saved after pre-emption (R295), or parked
(R296); `damaged` marks a context that cannot be resumed (R389). -/
inductive Place where
  | absent
  | resident (core : Nat) (slot : Nat)
  | saved
  | parked (damaged : Bool)
  deriving DecidableEq, Repr

/-- The status register (R163). -/
structure Status where
  pie : Bool := false
  pprv : Bool := false
  matrix : Bool := false
  ie : Bool := false
  sup : Bool := false
  deriving DecidableEq, Repr

/-- A scalar write of the hart that a relaxed vector load may still be performed before (R191): the bytes it wrote, the
aligned 8 bytes around them as the core read them before and after it, how many instructions of the counted majors have
followed, the bytes of which no older value may be returned any more, and whether others may know of the write or of a younger
value of those 8 bytes, so that none may be returned after an acquire (R197). `late` names the registers whose value comes from a
read made since then: bits 31:0 scalar, 63:32 vector, 71:64 condition and 79:72 mask registers; `barred` says that the hart's
instruction takes an address from one of them, so that it is performed after that read (R190). -/
structure EarlyStore where
  addr : Nat
  len : Nat
  old : List Byte
  new : List Byte
  age : Nat := 0
  closed : BitVec 8 := 0
  seen : Bool := false
  late : BitVec 80 := 0
  barred : Bool := false
  deriving DecidableEq, Repr

/-- The context of one hart with its lead. `vbad`, `mbad` and `tbad` name what holds an uncorrectable error (R389): bytes of
vector registers, bits of masks, elements of tiles, each as register and position. `captured` and `syncArrived` hold what
instructions given up or asleep keep, by address (R201, R357), for the one at `pc` while `resumed` says that it has issued before:
it sleeps, or the hart has returned to it by `tret` or resumption (R223); `midway` says that the hart stands inside an instruction
on its core (R152, R222), `areaCells` is the save area as the last context save left it (R394). `unacked` lists the addresses of
the hart's remote writes since its last release, with whether they are scalar ones (R196), `lostWrites` those not acknowledged in
time, `undelivered` the physical addresses at which an access of the hart will not be delivered in time (R400). The defaults are
the reset column of the manual's tables; where that column names a launch or a placement, notes/assumptions/1.md names the value. -/
structure Hart where
  uid : Nat := 0
  launch : Nat := 0
  part : Nat := 0
  index : Nat := 0
  group : Nat := 0
  cls : Nat := 0
  place : Place := .absent
  placedAt : Nat := 0
  handle : Nat := 0
  areaCells : List Host.Cell := []
  x : Vector Word 32 := Vector.replicate 32 0
  c : BitVec 8 := 1
  pc : Word := 0
  v : Vector VReg 32 := Vector.replicate 32 {}
  m : Vector (BitVec 2048) 8 := (Vector.replicate 8 0).set 0 (BitVec.allOnes 2048)
  vbad : List (Nat × Nat) := []
  mbad : List (Nat × Nat) := []
  tbad : List (Nat × Nat) := []
  ltag : Tag := .dead
  vlen : Nat := 0
  vlmax : Nat := 0
  vgrant : Nat := 0
  held : Nat := 0
  progress : Progress := {}
  heldProgress : Progress := {}
  captured : List Captured := []
  resumed : Bool := false
  fmode : BitVec 6 := 0
  fflags : BitVec 6 := 0
  rkey : Word := 0
  lslip : BitVec 4 := 4
  lskew : BitVec 3 := 2
  vbyp : BitVec 24 := 65536
  rad : BitVec 7 := 1
  leadActive : Bool := false
  leadStopped : Bool := false
  divs : BitVec 32 := 0
  cw : BitVec 5 := 0
  tagmap : BitVec 64 := 0
  hid : BitVec 17 := 0
  status : Status := {}
  epc : Word := 0
  tcause : BitVec 8 := 0
  tval : Word := 0
  tidx : BitVec 12 := 0
  tvec : Word := 0
  tiles : Vector Tile 16 := Vector.replicate 16 {}
  bound : Nat := 0
  links : List Link := []
  tags : Vector TagState 64 := Vector.replicate 64 {}
  slots : Vector StreamSlot 4 := Vector.replicate 4 {}
  bars : Vector HartBar 16 := Vector.replicate 16 {}
  syncArrived : List (Word × BitVec 4) := []
  midway : Bool := false
  tide : Tide := {}
  irq : Bool := false
  wait : Wait := .awake
  shoreSaved : Word := 0
  refork : Bool := false
  lead : Lead := {}
  early : List EarlyStore := []
  unacked : List (Word × Bool) := []
  lostWrites : List (Word × Bool) := []
  undelivered : List Nat := []
  deriving DecidableEq, Repr

/-- An exit group of sleepers that has still to wake (R361): the phase that ended, the clusters in a group, the group, the
shore time at which it wakes, and the harts that slept as the phase ended. -/
structure GroupWake where
  phase : BitVec 32
  size : Nat
  group : Nat
  time : Nat
  sleepers : List Nat := []
  deriving DecidableEq, Repr

/-- One instance of a barrier slot (R354); `key` names the instance of the slot's scope, as R186 compares `hid`, or the core
group or hart that took it along (R360). `arrivedAt` and `droppedAt` are the cycles of the last arrival and of the last drop; `due`
says that this cycle's check waits for its end, with the `bxstag` fields that the hart captured whose arrival or drop completes the
phase, if one does (R358, R361). -/
structure BarInst where
  key : Nat
  e : BitVec 32 := 0
  a : BitVec 32 := 0
  d : BitVec 32 := 0
  p : BitVec 32 := 0
  init : BitVec 32 := 0
  groups : List GroupWake := []
  arrivedAt : Option Nat := none
  droppedAt : Option Nat := none
  due : Option (BitVec 10 × BitVec 6) := none
  deriving DecidableEq, Repr

/-- A barrier slot of a launch (R354): its scope and the instances that have been touched. -/
structure BarSlot where
  scope : BitVec 3 := 0
  insts : List BarInst := []
  deriving DecidableEq, Repr

/-- A tile-buffer allocation on a core (R168): the core group it serves, the core, and its first KiB there. -/
structure Alloc where
  group : Nat
  core : Nat
  base : Nat
  deriving DecidableEq, Repr

/-- An allocation that does not lie in a tile buffer (R168): the core groups that share it, the core that their harts left, the
bytes that are not zero and those in error, by offset. -/
structure Stowed where
  groups : List Nat
  core : Nat
  cells : List Host.Cell
  bad : List Nat := []
  deriving DecidableEq, Repr

/-- A live launch: the record's copy, how many core groups have been placed (R287), how many harts have exited (R282), the
window directory (R336), the barrier slots (R354), the spawn queue, and the tile-buffer allocations (R168), in
place and out of it. -/
structure Launch where
  uid : Nat
  record : LaunchRec
  placed : Nat := 0
  exited : Nat := 0
  dir : Vector (Option Word) 16 := Vector.replicate 16 none
  bars : Vector BarSlot 16 := Vector.replicate 16 {}
  spawn : Option SpawnQueue := none
  allocs : List Alloc := []
  stowed : List Stowed := []
  deriving DecidableEq, Repr

/-- An entry of a run queue (R288); queues are FIFO by the order of `State.runq`. `since` is the shore time from which its
wait counts (R289). -/
structure RunEntry where
  part : Nat
  cls : Nat
  launch : Nat
  since : Word
  deriving DecidableEq, Repr

/-- A unit on a resume list (R288): the harts that are placed together. -/
structure ResumeEntry where
  part : Nat
  cls : Nat
  harts : List Nat
  since : Word
  deriving DecidableEq, Repr

/-- The entry for which the scheduler asks something of a hart (R96, R294): the next core group of a launch, or a unit. -/
inductive Demand where
  | group (launch placed : Nat)
  | unit (harts : List Nat)
  deriving DecidableEq, Repr

/-- A core that victims leave for an entry of a class (R294), as long as the entry waits. -/
structure Reserved where
  core : Nat
  cls : Nat
  need : Demand
  deriving DecidableEq, Repr

/-- A request of the scheduler to a hart (R96, R294): lane groups to leave, or departure of its unit (`victim`); the cycle of
its deadline, `none` once a `vsetvl` has honoured it; whether the hart leaves at its next boundary; and the entry that needs
it, with which the request is lifted. -/
structure Reclaim where
  hart : Nat
  leave : Nat
  victim : Bool
  deadline : Option Nat := none
  due : Bool := false
  need : Option Demand := none
  deriving DecidableEq, Repr

/-- A bound queue register (R247): its core (`none` while saved with the producer, R253), number, entries oldest first and
pair. A queue register that is not listed is unbound and empty. -/
structure QReg where
  core : Option Nat
  q : BitVec 3
  data : List Word := []
  launch : Nat
  prod : Nat
  cons : Nat
  deriving DecidableEq, Repr

/-- A 64-byte sector of an L1 (R171): the cache's number (R174), the sector's physical address, data, the valid and
dirty bytes, and the bytes that hold an uncorrectable error (R389). -/
structure Sector where
  cache : Nat
  addr : Nat
  data : BitVec 512
  valid : BitVec 64
  dirty : BitVec 64
  bad : BitVec 64 := 0
  deriving DecidableEq, Repr

/-- A word that changed at its home while launches numbered below `before` lived (R23): its address and what it held. -/
structure Recoded where
  addr : Nat
  old : BitVec 32
  before : Nat
  deriving DecidableEq, Repr

/-- A visitor line's sector (R176): clean data of another package. -/
structure Visitor where
  addr : Nat
  data : BitVec 512
  deriving DecidableEq, Repr

/-- Which translation cache holds an entry (R309). -/
inductive TlbHome where
  | core (n : Nat)
  /-- The page-sorting unit of a core's vector memory unit. -/
  | sorter (core : Nat)
  | cluster (n : Nat)
  | die (n : Nat)
  deriving DecidableEq, Repr

/-- A cached translation-table entry (R309): partition (`none` for a global one), level, the address bits that select the
entry (the virtual address above the level's span), the entry as read, and its address. -/
structure TlbEntry where
  home : TlbHome
  part : Option Nat
  level : Nat
  index : Nat
  entry : Word
  addr : Nat
  deriving DecidableEq, Repr

/-- The registers that hold one value for a partition: `tidectl`, `bxstag`, `agetime` and `revoke` (R164). -/
structure PartRegs where
  floor : BitVec 3 := 2
  ramp : BitVec 2 := 0
  bxSpacing : BitVec 10 := 0
  bxGroup : BitVec 6 := 63
  agetime : BitVec 32 := 100000
  revoke : BitVec 24 := 30000
  deriving DecidableEq, Repr

/-- A partition: its registers as last written and as they act in this cycle, since a write applies from the next (R164), cores of
this package, the other packages that hold its cores with how many, root (R301), fault queue (R391), save region (R393), host
ranges (R397), the totals of R376, and the records whose posting waits (R392). -/
structure Partition extends PartRegs where
  id : Nat
  cores : List Nat
  otherPackages : List (Nat × Nat) := []
  root : Nat
  faultQueue : Nat
  saveBase : Nat
  saveHarts : Nat
  hostRanges : List (Nat × Nat) := []
  acting : PartRegs := {}
  declared : Word := 0
  undeclared : Word := 0
  throttled : Word := 0
  stagger : Word := 0
  unused : Word := 0
  posting : List FaultRecord := []
  deriving DecidableEq, Repr

/-- A performance counter (R364). -/
structure PerfCtr where
  onDie : Bool
  unit : Nat
  index : Nat
  event : BitVec 8
  filt : Bool
  part : BitVec 16
  value : BitVec 48 := 0
  ovf : Bool := false
  deriving DecidableEq, Repr

/-- A periodic read of the counters (R366), with the shore time of its next snapshot. -/
structure SnapshotRequest where
  buffer : Nat
  periodNs : Nat
  signal : Nat
  next : Nat
  deriving DecidableEq, Repr

/-- What the Lighthouse finds in self-test (R404): the failing ones of the 34 built cores of each die (R11), of the 256 L2
slices, the 16 HBM stacks and the 10 die boundaries (R15), the stacks that cannot be zeroed (R402 step 5), the Ceide lanes and
Keavar ports that work, the packages met on the links, as domain identity and number (R402), and the time master's count
(R351). -/
structure SelfTest where
  failingCores : Vector (BitVec 34) 8 := Vector.replicate 8 0
  failingSlices : BitVec 256 := 0
  failingStacks : BitVec 16 := 0
  failingBoundaries : BitVec 10 := 0
  unzeroed : BitVec 16 := 0
  lanes : BitVec 4 := BitVec.allOnes 4
  ports : BitVec 18 := BitVec.allOnes 18
  met : List (Nat × Nat) := []
  masterTime : Word := 0
  deriving DecidableEq, Repr

/-- Where the package is between power good and running (R402, R404). -/
inductive Phase where
  | bringUp | running | quarantine
  deriving DecidableEq, Repr

/-- The Lighthouse (R401-R405): phase, firmware slots, running slot, fused rollback version and fused digest of Palver's signing
key (R403), the configuration block (its digest, the package number and the domain identity, R402), the device identity keys and
Palver's certificate for the public one (R405), self-test findings, the built cores that serve as the logical cores of each die
(R11, R402 step 4), and the domain's packages. -/
structure Lighthouse where
  phase : Phase := .bringUp
  slot0 : Option FirmwareImage := some { version := 0, digest := 0, signature := 0 }
  slot1 : Option FirmwareImage := none
  runningSlot : Option Nat := none
  rollback : BitVec 32 := 0
  keyDigest : BitVec 512 := 0
  configDigest : BitVec 512 := 0
  package : BitVec 6 := 0
  domainIdentity : Nat := 0
  identityKey : BitVec 1024 := 0
  publicKey : BitVec 512 := 0
  certificate : List Byte := []
  selfTest : SelfTest := {}
  coreMap : List (List Nat) := []
  domain : List Nat := [0]
  deriving DecidableEq, Repr

/-- What the ports have answered (R396, R401, R405), newest last in `State.replies`. -/
inductive Reply where
  /-- Data of a read packet, or of a remote load. -/
  | data (bytes : List Byte)
  /-- Acknowledgement of a write. -/
  | ack
  /-- The old value of an atomic. -/
  | old (value : Word)
  /-- An error response (R397). -/
  | error
  /-- A management reply without a body (R429). -/
  | status (code : BitVec 8)
  /-- The status report: status, phase, self-test findings, the built cores in use, time bound lost (R401, R11). -/
  | report (code : BitVec 8) (phase : Phase) (selfTest : SelfTest) (cores : List (List Nat)) (boundLost : Bool)
  /-- The totals of a partition, with the status (R376, R401). -/
  | totals (code : BitVec 8) (declared undeclared throttled stagger unused : Word)
  /-- The attestation report and its signature, with the status (R405, R401). -/
  | attestation (code : BitVec 8) (body : List Byte) (signature : BitVec 238336)
  deriving DecidableEq, Repr

/-- What acts next: a row of the opcode table, the next step of a hart, or an action of the part that the table gives no
row of its own (notes/assumptions/6.md). -/
inductive Item where
  /-- An event of the table. -/
  | event (i : Instr)
  /-- The cycle count of the cores advances (R20, R350, R376): three cycles make a nanosecond. -/
  | cycle
  /-- The named hart takes its next step. -/
  | hart (uid : Nat)
  /-- An L1 writes back and drops a sector (R171). -/
  | evict (cache addr : Nat)
  /-- A home slice writes its dirty bytes of a sector to HBM (R175). -/
  | cleanHome (addr : Nat)
  /-- A visitor line is replaced (R176). -/
  | dropVisitor (addr : Nat)
  /-- A translation cache replaces an entry (R309): its place in `State.tlb`. -/
  | dropTlb (n : Nat)
  /-- The next vector memory instruction or `mopa` is interrupted after a drawn number of elements (R222, R152). -/
  | cutNext
  /-- The engine reads one aligned 8-byte piece of a command's source, or writes one piece or element group of its
  destination (R199, R200, R263). -/
  | copyRead (cmd n : Nat)
  | copyPiece (cmd n : Nat)
  /-- Events that the manual leaves to the part are counted (R364, R365): corrected errors, bank conflicts, gated lane groups,
  L2 sectors, and bytes between dies and packages. -/
  | counted (onDie : Bool) (unit : Nat) (code : BitVec 8) (n : Nat)
  /-- A management message of unknown kind arrives, or one whose length or reserved bytes break its layout, as one of more than
  4 KiB does (R396, R429); `q` says that its kind is one that quarantine accepts (R401). -/
  | badMessage (q : Bool)
  /-- An uncorrectable error arises in a byte of memory (R389). -/
  | upset (addr : Nat)
  /-- An uncorrectable error arises in a valid byte of an L1 (R171, R389). -/
  | upsetL1 (cache addr : Nat)
  /-- An uncorrectable error arises in a vector register, mask or tile of a hart (R389). -/
  | upsetRegister (hart : Nat) (v m t : List (Nat × Nat))
  deriving DecidableEq, Repr

/-- The state of the package. The hart that the step concerns is `cur`; every other hart, resident, saved or parked, stands in
`rest`. `reserved` names cores that victims leave for an entry of a class (R294), `spawnTurn` the launch whose spawn queue was
served last, by partition and class (R288); `issued` names the cores that issued a repetition in this cycle (R156), `asked` the
dies and places of the declarations made in it (R370), `wrote` the harts that wrote a register of their partition in it (R164).
`spoiled` names the launches in whose spawn queue areas a program has stored (R290); `timeFixed` says that the count has been set,
or that harts may have run since power good (R351); `shoreSeen` is the greatest count that a read of `shore` has returned (R350,
R352; notes/assumptions/36.md). The last five fields are the model's own (notes/assumptions/6.md to 9.md). -/
structure State where
  cur : Hart := {}
  rest : List Hart := []
  launches : List Launch := []
  parts : List Partition := []
  runq : List RunEntry := []
  resumeq : List ResumeEntry := []
  reclaims : List Reclaim := []
  reserved : List Reserved := []
  spawnTurn : List (Nat × Nat × Nat) := []
  cmds : List Cmd := []
  queues : List QReg := []
  l1 : List Sector := []
  fused : List Nat := []
  l2 : List Host.Cell := []
  visitors : List Visitor := []
  tlb : List TlbEntry := []
  hbm : List Host.Cell := []
  poison : List Nat := []
  recoded : List Recoded := []
  spoiled : List Nat := []
  shore : Word := 0
  timeFixed : Bool := false
  shoreSeen : Word := 0
  sinceSlew : Nat := 0
  sinceTime : Nat := 0
  slew : Int := 0
  boundLost : Bool := false
  cycle : Nat := 0
  seq : Word := 0
  moving : Option (Nat × Nat) := none
  moveErr : Bool := false
  movePart : BitVec 16 := 0
  moveCore : BitVec 8 := 0
  rooms : List (Nat × Nat × Int) := []
  freeReps : List (Nat × Nat) := []
  issued : List Nat := []
  asked : List (Nat × Nat) := []
  wrote : List Nat := []
  perf : List PerfCtr := []
  snapshots : List SnapshotRequest := []
  replies : List Reply := []
  lighthouse : Lighthouse := {}
  agenda : List Item := []
  choices : List Nat := []
  draws : Nat := 0
  cut : Option Nat := none
  nextUid : Nat := 1
  deriving DecidableEq, Repr

/-- Why the machine stops with a fault. -/
inductive Fault where
  /-- The agenda names a hart, partition, launch or command that does not exist. Raised by `step` and by the meanings of
  events. Safe: no such event can occur on the part (notes/assumptions/6.md). -/
  | noSuchAgent
  deriving DecidableEq, Repr

/-- Why the model gives no step. -/
inductive Refusal where
  /-- The arm of `exec` has no meaning yet. Raised by `exec` alone. Safe: nothing can be proved of such a step. -/
  | notModelled (mnemonic : String)
  deriving DecidableEq, Repr

/-- The package at power good (R402): counts 0, nothing cached, no hart, no partition, the Lighthouse about to run
bring-up. -/
def State.reset : State := { agenda := [.event .powerGood] }

end Sys2Proof.Machine
end

