-- ==== Sys2Proof/Machine/Mem.lean ====
section
/-! DEFINITION. Physical memory: homes, L1 sectors, visitor lines, and what stores, releases and acquires do to them. -/

namespace Sys2Proof.Machine

open Host (Cell)

/-- The package named by a domain physical address (R300). -/
def packageOf (pa : Nat) : Nat := pa / 2 ^ 46 % 64

/-- The local address of a domain physical address (R166). -/
def localOf (pa : Nat) : Nat := pa % 2 ^ 46

/-- A local address in HBM (R166). -/
def isHbm (pa : Nat) : Bool := decide (localOf pa < 2 ^ 40)

/-- A local address in some core's tile buffer (R166). -/
def isTile (pa : Nat) : Bool :=
  let l := localOf pa
  decide (0x200000000000 ≤ l ∧ l < 0x200000000000 + 256 * 0x200000 ∧ l % 0x200000 < 0x180000)

/-- Does one of `n` consecutive bytes lie in a tile buffer? -/
def touchesTile (pa n : Nat) : Bool := (List.range n).any fun i => isTile (pa + i)

/-- A local address that R166 assigns. -/
def assigned (pa : Nat) : Bool := isHbm pa || isTile pa

/-- The address of byte `o` of core `c`'s tile buffer in package `p` (R166). -/
def tileAddr (p c o : Nat) : Nat := p * 2 ^ 46 + 0x200000000000 + c * 0x200000 + o

/-- This package's number (R402). -/
def State.pkg (s : State) : Nat := s.lighthouse.package.toNat

/-- An address whose home lies on another package (R300). -/
def State.isRemote (s : State) (pa : Nat) : Bool := packageOf pa != s.pkg

/-- Add to a performance counter (R364). -/
def PerfCtr.add (w : Nat) (p : PerfCtr) : PerfCtr :=
  { p with value := p.value + BitVec.ofNat 48 w, ovf := p.ovf || decide (2 ^ 48 ≤ p.value.toNat + w) }

/-- Count an event of a core (R364, R365) that a hart of partition `part` causes. -/
def State.countCore (s : State) (core part : Nat) (code : BitVec 8) (w : Nat) : State :=
  { s with perf := s.perf.map fun p =>
      if !p.onDie && p.unit == core && p.event == code && (!p.filt || p.part.toNat == part) then p.add w else p }

/-- Count an event of a die (R364, R365). -/
def State.countDie (s : State) (die : Nat) (code : BitVec 8) (w : Nat) : State :=
  { s with perf := s.perf.map fun p => if p.onDie && p.unit == die && p.event == code then p.add w else p }

/-- The core a resident hart is on; 0 for one that is not resident. -/
def Hart.core (h : Hart) : Nat :=
  match h.place with
  | .resident c _ => c
  | _ => 0

/-- Is the hart resident on a core? -/
def Hart.isResident (h : Hart) : Bool :=
  match h.place with
  | .resident _ _ => true
  | _ => false

/-- Will an access of the hart to `n` bytes not be delivered in time (R400)? -/
def Hart.undelivers (pa n : Nat) (h : Hart) : Bool := h.undelivered.any fun a => decide (pa ≤ a) && decide (a < pa + n)

/-- Apply a function to every hart. -/
def State.mapHarts (s : State) (f : Hart → Hart) : State := { s with cur := f s.cur, rest := s.rest.map f }

/-- The byte at its home (R175, R189): the home slice's dirty byte, else HBM. -/
def State.homeByte (s : State) (pa : Nat) : Byte := (cellGet s.l2 pa).getD ((cellGet s.hbm pa).getD 0)

/-- Consecutive bytes at their homes. -/
def State.homeRead (s : State) (pa n : Nat) : List Byte := (upTo n).map fun i => s.homeByte (pa + i)

/-- The link table after a write to `n` bytes at `pa` (R228). DESIGN CHOICE (notes/assumptions/10.md): a link stands for the bytes
that its granule had at the `vgll`, so that no write through a frame to which the page is mapped later breaks it. -/
def Hart.breakLinks (pa n : Nat) (h : Hart) : Hart :=
  { h with links := h.links.filter fun l => decide (l.home + 8 ≤ pa) || decide (pa + n ≤ l.home) }

/-- Others have read or written `n` bytes at `pa`: a value from before the hart's own writes to their granule may be returned
no more after its next acquire (R197). -/
def Hart.seenBy (pa n : Nat) (h : Hart) : Hart :=
  { h with early := h.early.map fun (e : EarlyStore) =>
      { e with seen := e.seen || (decide (pa / 8 ≤ e.addr / 8) && decide (e.addr / 8 * 8 < pa + n)) } }

/-- An agent that is none of the harts has read or written `n` bytes at `pa`. -/
def State.seenByAll (s : State) (pa n : Nat) : State := s.mapHarts (Hart.seenBy pa n)

/-- The executing hart has read or written `n` bytes at `pa`: the others may know of it. -/
def State.seenByRest (s : State) (pa n : Nat) : State := { s with rest := s.rest.map (Hart.seenBy pa n) }

/-- The home slice writes its dirty bytes of `n` addresses to HBM (R181). -/
def State.cleanHome (s : State) (pa n : Nat) : State :=
  { s with
    hbm := (cellsIn s.l2 pa n).foldl (fun m c => cellsWrite false m c.1 [c.2]) s.hbm
    l2 := cellsDrop s.l2 pa n }

/-- The slice of the package's L2 that holds a line (R16, R175): the stack half of its local address, and the hash. A visitor
line lies where its remote local address selects (R176). -/
def sliceOf (pa : Nat) : Nat :=
  let a := localOf pa
  bits a 36 4 * 16 + ((upTo 7).foldl (fun x k => x ^^^ bits a (7 + 4 * k) 4) 0 ^^^ bits a 35 1)

/-- The address of the sector that holds a byte (R18). -/
def sectorOf (pa : Nat) : Nat := pa / 64 * 64

/-- One access to a sector at its home slice (R365): a hit where the slice holds dirty bytes of it; whether it holds a clean
copy is free. -/
def State.countSector (s : State) (pa : Nat) : State :=
  let hit := !(cellsIn s.l2 (sectorOf pa) 64).isEmpty || Config.freeBits s.draws % 2 == 1
  { s with draws := s.draws + 1 }.countDie (sliceOf pa / 32) (if hit then 0x41 else 0x42) 1

/-- An access to `n` bytes at their home slices is counted where a die counts such accesses (R364, R365). -/
def State.countHome (s : State) (pa n : Nat) : State :=
  if touchesTile pa n || s.isRemote pa || !(s.perf.any fun p => p.onDie && (p.event == 0x41 || p.event == 0x42)) then s
  else (upTo (ceilDiv (pa % 64 + n) 64)).foldl (fun s i => s.countSector (pa + 64 * i)) s

/-- The die of the home of an address of this package (R16, R166). -/
def homeDie (pa : Nat) : Nat := if isTile pa then (localOf pa - 0x200000000000) / 0x200000 / 32 else sliceOf pa / 32

/-- The data of an access of core `core` crosses to the home's die or package, or back (R365): the sender's die counts its bytes.
DESIGN CHOICE (notes/assumptions/34.md): headers and requests are left to the part, and Keavar bytes count on the core's die. -/
def State.countSent (s : State) (core pa n : Nat) (write : Bool) : State :=
  if s.isRemote pa then (if write then s.countDie (core / 32) 0x47 n else s)
  else if homeDie pa = core / 32 then s
  else s.countDie (if write then core / 32 else homeDie pa) 0x46 n

/-- The 128-byte lines of a slice: 3 MiB (R16, R18). -/
def sliceLines : Nat := 24576

/-- The lines that a slice cannot give up without an effect: dirty ones and visitor lines. -/
def State.sliceHolds (s : State) (slice : Nat) : List Nat :=
  ((((s.l2.map (·.1)).filter fun a => !s.isRemote a) ++ s.visitors.map (·.addr)).filter fun a => sliceOf a == slice).map
    (· / 128) |>.eraseDups

/-- A slice writes a dirty line back, or drops a visitor line, of those it holds. -/
def State.giveLine (s : State) (lines : List Nat) : State :=
  let a := 128 * lines.getD (Config.choice s.draws % lines.length) 0
  let s := { s with draws := s.draws + 1, visitors := s.visitors.filter fun v => v.addr / 128 != a / 128 }
  if s.isRemote a then s else s.cleanHome a 128

/-- Room in the slice of a line that is about to come in (R16). -/
def State.homeRoom (s : State) (pa : Nat) : State :=
  if s.l2.length + s.visitors.length < sliceLines then s
  else
    let lines := s.sliceHolds (sliceOf pa)
    if lines.contains (pa / 128) || decide (lines.length < sliceLines) then s else s.giveLine lines

/-- The slice of a line that has come in keeps within its lines (R16). -/
def State.homeTrim (s : State) (pa : Nat) : State :=
  if s.l2.length + s.visitors.length ≤ sliceLines then s
  else
    let lines := s.sliceHolds (sliceOf pa)
    if lines.length ≤ sliceLines then s else s.giveLine lines

/-- The slices keep within their lines after `n` bytes have become dirty at their home, line by line (R16, R18). -/
def State.trimHome (s : State) (pa n : Nat) : State :=
  if s.isRemote pa then s
  else (upTo (ceilDiv (pa % 128 + n) 128)).foldl (fun s i => s.homeTrim (pa / 128 * 128 + 128 * i)) s

/-- Bytes reach their home (R188, R189): tile buffers have no cache, HBM bytes become dirty in their home slice. Links on the bytes
break (R228); harts that a condition picks may know of it. -/
def State.homePut (s : State) (pa : Nat) (bs : List Byte) (pick : Hart → Bool) : State :=
  let s := if touchesTile pa bs.length then { s with hbm := cellsWrite false s.hbm pa bs }
    else { s with l2 := cellsWrite true s.l2 pa bs }.trimHome pa bs.length
  { s.mapHarts fun h => (if pick h then h.seenBy pa bs.length else h).breakLinks pa bs.length with
    poison := s.poison.filter fun a => decide (a < pa) || decide (pa + bs.length ≤ a) }

/-- The words of code among `n` bytes that differ between two states while a launch lives, as they were (R23). -/
def State.recode (s t : State) (pa n : Nat) : List Recoded :=
  if s.launches.isEmpty || n = 0 then s.recoded
  else
    let word (s : State) (a : Nat) : BitVec 32 := BitVec.ofNat 32 (leNat (s.homeRead a 4))
    ((upTo ((pa + n - 1) / 4 - pa / 4 + 1)).filterMap fun i =>
      let a := 4 * (pa / 4 + i)
      if word s a = word t a then none else some { addr := a, old := word s a, before := s.nextUid }) ++ s.recoded

/-- The launches in whose spawn queue areas some of `n` bytes lie (R290). -/
def State.disturbed (s : State) (pa n : Nat) : List Nat :=
  (s.launches.filter fun l => l.spawn.any fun q => q.area.any fun w =>
    n != 0 && decide (pa < w.1 + w.2.length) && decide (w.1 < pa + n)).map (·.uid)

/-- A write that reaches its home (R188): every hart may know of it, and a word of code may be fetched as it was (R23). A spawn
queue area that it touches is noted (R290). -/
def State.homeWrite (s : State) (pa : Nat) (bs : List Byte) : State :=
  let t := (s.countHome pa bs.length).homePut pa bs fun _ => true
  { t with recoded := s.recode t pa bs.length, spoiled := s.disturbed pa bs.length ++ s.spoiled }

/-- The home slice drops its dirty bytes of `n` addresses (R183), which counts as a write of the HBM value (R188): a word of code
may be fetched as it was (R23). -/
def State.discardHome (s : State) (pa n : Nat) : State :=
  let t := { s.mapHarts fun h => (h.seenBy pa n).breakLinks pa n with l2 := cellsDrop s.l2 pa n }
  { t with recoded := s.recode t pa n, spoiled := s.disturbed pa n ++ s.spoiled }

/-- The number of the L1 that core `core` uses: its own, or its cluster's when fused (R174). -/
def State.cacheOf (s : State) (core : Nat) : Nat :=
  if s.fused.contains (core / 4) then 256 + core / 4 else core

/-- Is the core's L1 fused with its cluster's (R174)? -/
def State.isFused (s : State) (core : Nat) : Bool := s.fused.contains (core / 4)

/-- The sector of an L1 that holds an address. -/
def State.l1Find (s : State) (cache pa : Nat) : Option Sector :=
  s.l1.find? fun x => x.cache == cache && x.addr == sectorOf pa

/-- The visitor copy of a sector. -/
def State.visitorFind (s : State) (pa : Nat) : Option Visitor := s.visitors.find? fun v => v.addr == sectorOf pa

/-- Byte `i` of a sector's data. -/
def sectorByte (d : BitVec 512) (i : Nat) : Byte := d.extractLsb' (8 * i) 8

/-- What a miss of the L1 finds (R176, R189): the visitor copy of a remote line, else the home. -/
def State.behindL1 (s : State) (pa : Nat) : Byte :=
  if s.isRemote pa then
    match s.visitorFind pa with
    | some v => sectorByte v.data (pa % 64)
    | none => s.homeByte pa
  else s.homeByte pa

/-- How a read may be satisfied (R189): plainly; by dirty bytes of the core's L1 and what lies behind it (R173, R187); by
those and the home (R193, R233); or at the home alone (R306, R194). -/
inductive ReadMode where
  | plain | behind | fresh | home
  deriving DecidableEq, Repr

/-- The byte that a read of core `core` returns. -/
def State.readByte (s : State) (core : Nat) (mode : ReadMode) (pa : Nat) : Byte :=
  match mode with
  | .home => s.homeByte pa
  | .fresh =>
    match s.l1Find (s.cacheOf core) pa with
    | some x => if x.dirty.getLsbD (pa % 64) then sectorByte x.data (pa % 64) else s.homeByte pa
    | none => s.homeByte pa
  | .behind =>
    match s.l1Find (s.cacheOf core) pa with
    | some x => if x.dirty.getLsbD (pa % 64) then sectorByte x.data (pa % 64) else s.behindL1 pa
    | none => s.behindL1 pa
  | .plain =>
    match s.l1Find (s.cacheOf core) pa with
    | some x => if x.valid.getLsbD (pa % 64) then sectorByte x.data (pa % 64) else s.behindL1 pa
    | none => s.behindL1 pa

/-- Does the core's L1 hold every one of `n` bytes? -/
def State.l1Holds (s : State) (core pa n : Nat) : Bool :=
  (upTo n).all fun i => (s.l1Find (s.cacheOf core) (pa + i)).any fun x => x.valid.getLsbD ((pa + i) % 64)

/-- How an access of `n` bytes is satisfied: a plain read that the L1 does not hold whole takes no clean byte from it, so that
it returns one write whole (R187). -/
def State.served1 (s : State) (core : Nat) (mode : ReadMode) (pa n : Nat) : ReadMode :=
  if mode = .plain && !s.l1Holds core pa n then .behind else mode

/-- Consecutive bytes as one access of core `core` reads them. -/
def State.readBytes (s : State) (core : Nat) (mode : ReadMode) (pa n : Nat) : List Byte :=
  (upTo n).map fun i => s.readByte core (s.served1 core mode pa n) (pa + i)

/-- A byte that a read would take from an uncorrectable error (R389). -/
def State.badByte (s : State) (core : Nat) (wanted : ReadMode) (pa n : Nat) : Bool :=
  let mode := s.served1 core wanted pa n
  (s.poison.any fun a => decide (pa ≤ a) && decide (a < pa + n) &&
    (match mode, s.l1Find (s.cacheOf core) a with
     | .home, _ => true
     | .fresh, some x | .behind, some x => !x.dirty.getLsbD (a % 64)
     | .plain, some x => !x.valid.getLsbD (a % 64)
     | _, none => true)) ||
  (mode != .home && s.l1.any fun x => x.cache == s.cacheOf core && x.bad != 0 &&
    (upTo 64).any fun i => x.bad.getLsbD i && decide (pa ≤ x.addr + i) && decide (x.addr + i < pa + n) &&
      (mode == .plain || x.dirty.getLsbD i))

/-- An L1 with a sector replaced; a sector with no valid byte is dropped. -/
def State.l1Put (s : State) (x : Sector) : State :=
  let others := s.l1.filter fun y => !(y.cache == x.cache && y.addr == x.addr)
  { s with l1 := if x.valid = 0 then others else x :: others }

/-- The sector for a write, allocated without a fill (R171). -/
def State.l1Get (s : State) (cache pa : Nat) : Sector :=
  (s.l1Find cache pa).getD { cache := cache, addr := sectorOf pa, data := 0, valid := 0, dirty := 0 }

/-- The mask of `n` bytes from byte `i` of a sector. -/
def byteMask (i n : Nat) : BitVec 64 := BitVec.ofNat 64 ((2 ^ n - 1) <<< i)

/-- Forget the valid bytes of the sector that holds an address. -/
def State.l1Drop (s : State) (cache pa : Nat) : State :=
  { s with l1 := s.l1.filter fun y => !(y.cache == cache && y.addr == sectorOf pa) }

/-- Drop the visitor copy of a sector (R176). -/
def State.visitorDrop (s : State) (pa : Nat) : State :=
  { s with visitors := s.visitors.filter fun v => v.addr != sectorOf pa }

/-- Send the dirty bytes of a sector home (R171), as one change of each word of code (R23), of which the harts of other caches may
know; the sector becomes clean, but for bytes in error (R389). DESIGN CHOICE (notes/assumptions/18.md): a write-back that no
instruction forces leaves those bytes behind and faults nothing. -/
def State.writeBackSector (s : State) (x : Sector) : State :=
  let others (h : Hart) : Bool := s.cacheOf h.core != x.cache
  let sent := (upTo 64).filter fun i => x.dirty.getLsbD i && !x.bad.getLsbD i
  let counted := if sent.isEmpty then s
    else (s.countHome x.addr 64).countSent (if 256 ≤ x.cache then 4 * (x.cache - 256) else x.cache) x.addr sent.length true
  let t := sent.foldl (fun t i => t.homePut (x.addr + i) [sectorByte x.data i] others) counted
  { t with recoded := s.recode t x.addr 64 }.l1Put { x with dirty := x.dirty &&& x.bad }

/-- The slices that a hart's bound vector registers take (R87). -/
def Hart.slices (h : Hart) : Nat := h.vgrant * (h.v.toList.filter fun r => r.tag != .dead).length

/-- The lines of a core's L1 that its spilled slices take (R88): what its harts have bound beyond the 1,536 slices of the
physical file. DESIGN CHOICE (notes/assumptions/2.md): the region is as large as the slices in it. -/
def State.spillLines (s : State) (core : Nat) : Nat :=
  2 * ((((s.cur :: s.rest).filter fun h => h.isResident && h.core == core).map Hart.slices).sum - 1536)

/-- The 128-byte lines of an L1 for data: 768 KiB, or 3 MiB fused (R171, R174), less the spill regions of its cores (R88). -/
def State.l1Lines (s : State) (cache : Nat) : Nat :=
  if 256 ≤ cache then 24576 - ((upTo 4).map fun i => s.spillLines (4 * (cache - 256) + i)).sum else 6144 - s.spillLines cache

/-- The sectors that an L1 holds. -/
def State.l1Of (s : State) (cache : Nat) : List Sector := s.l1.filter fun x => x.cache == cache

/-- An L1 writes a line back and drops it (R171), not the line `keep`; one that cannot be sent stays as long as there is
another. -/
def State.l1Evict (s : State) (cache : Nat) (keep : Option Nat) : State :=
  let mine := s.l1Of cache
  let lines := ((mine.map fun x => x.addr / 128).eraseDups).filter fun n => keep != some n
  let free := lines.filter fun n => mine.all fun x => x.addr / 128 != n || x.dirty &&& x.bad == 0
  let n := free.getD (Config.choice s.draws % Nat.max 1 free.length) (lines.headD 0)
  let s := (mine.filter fun x => x.addr / 128 == n).foldl State.writeBackSector { s with draws := s.draws + 1 }
  { s with l1 := s.l1.filter fun x => !(x.cache == cache && x.addr / 128 == n) }

/-- Lines leave an L1 until it has room for `more` beside those it holds. -/
def State.l1Trim (s : State) (cache more : Nat) (keep : Option Nat) : State :=
  if (s.l1Of cache).length + more ≤ 5120 then s
  else
    let held := (((s.l1Of cache).map fun x => x.addr / 128).eraseDups).length
    (upTo (held + more - s.l1Lines cache)).foldl (fun s _ => s.l1Evict cache keep) s

/-- Room in an L1 for the line of an address (R171). -/
def State.l1Room (s : State) (cache pa : Nat) : State :=
  s.l1Trim cache (if (s.l1Of cache).any fun x => x.addr / 128 == pa / 128 then 0 else 1) (some (pa / 128))

/-- The L1s keep within what the spill regions leave them (R88). -/
def State.spillRoom (s : State) : State :=
  ((s.l1.map (·.cache)).eraseDups).foldl (fun s c => s.l1Trim c 0 none) s

/-- Write bytes of one sector into an L1, dirty (R171). -/
def State.l1Write (s : State) (cache pa : Nat) (bs : List Byte) : State :=
  let s := s.l1Room cache pa
  let x := s.l1Get cache pa
  let i := pa % 64
  s.l1Put { x with
    data := BitVec.ofNat 512 (insertBits x.data.toNat (8 * i) (8 * bs.length) (leNat bs))
    valid := x.valid ||| byteMask i bs.length
    dirty := x.dirty ||| byteMask i bs.length
    bad := x.bad &&& ~~~byteMask i bs.length }

/-- Write back the sector of core `core`'s L1 that holds an address, and drop it (R172). -/
def State.writeBackDrop (s : State) (core pa : Nat) : State :=
  match s.l1Find (s.cacheOf core) pa with
  | some x => (s.writeBackSector x).l1Drop (s.cacheOf core) pa
  | none => s

/-- The sectors of an L1 whose write-back would meet an uncorrectable error (R171). -/
def State.unsendable (s : State) (cache : Nat) : List Sector :=
  s.l1.filter fun x => x.cache == cache && x.dirty &&& x.bad != 0

/-- Write back every dirty sector of an L1 (R172). -/
def State.writeBackAll (s : State) (cache : Nat) : State :=
  (s.l1.filter fun x => x.cache == cache && x.dirty != 0).foldl State.writeBackSector s

/-- Drop every clean byte of an L1 (R172, R195). -/
def State.dropClean (s : State) (cache : Nat) : State :=
  { s with l1 := s.l1.filterMap fun x =>
      if x.cache == cache then (if x.dirty = 0 then none else some { x with valid := x.dirty, bad := x.bad &&& x.dirty }) else some x }

/-- Does a release of core `core` at a scope write the L1 back (R172, R174)? -/
def State.releases (s : State) (core scope : Nat) : Bool := decide ((if s.isFused core then 3 else 1) ≤ scope)

/-- `release(scope)` of R195 by a hart of core `core`, as R172 and R174 realise it. -/
def State.releaseBy (s : State) (core scope : Nat) : State :=
  if s.releases core scope then s.writeBackAll (s.cacheOf core) else s

/-- `acquire(scope)` of R195 by a hart of core `core`, as R172, R174 and R176 realise it. -/
def State.acquireBy (s : State) (core scope : Nat) : State :=
  let s := if (if s.isFused core then 3 else 2) ≤ scope then s.dropClean (s.cacheOf core) else s
  if scope = 5 then { s with visitors := [] } else s

/-- Fetch the visitor line of a remote address (R176). -/
def State.visitorFill (s : State) (pa : Nat) : State :=
  [pa / 128 * 128, pa / 128 * 128 + 64].foldl (fun s a =>
    match s.visitorFind a with
    | some _ => s
    | none =>
      let s := s.homeRoom a
      { s with visitors := { addr := a, data := BitVec.ofNat 512 (leNat (s.homeRead a 64)) } :: s.visitors }) s

/-- Fill one sector of an L1 that lacks a byte (R171): all but the dirty bytes come from behind it at one moment (R187);
those in error stay out. -/
def State.fillSector (s : State) (cache pa : Nat) : State :=
  if (s.l1Get cache pa).valid = BitVec.allOnes 64 then s else
    let s := s.l1Room cache pa
    let x := s.l1Get cache pa
    s.l1Put ((upTo 64).foldl (fun y i =>
      if x.dirty.getLsbD i then y
      else if s.poison.contains (x.addr + i) then { y with valid := y.valid &&& ~~~byteMask i 1 }
      else { y with
        data := BitVec.ofNat 512 (insertBits y.data.toNat (8 * i) 8 (s.behindL1 (x.addr + i)).toNat)
        valid := y.valid ||| byteMask i 1
        bad := y.bad &&& ~~~byteMask i 1 }) x)

/-- Drop the clean bytes of a sector from core `core`'s L1, and with `deep` the visitor copy: what a later plain read finds is
not older than what has just been read past them (R190). -/
def State.forgetClean (s : State) (core pa : Nat) (deep : Bool) : State :=
  let s := if deep then s.visitorDrop pa else s
  match s.l1Find (s.cacheOf core) pa with
  | some x => s.l1Put { x with valid := x.dirty, bad := x.bad &&& x.dirty }
  | none => s

/-- Fill the line of an address (R171, R173). -/
def State.fillLine (s : State) (core pa : Nat) : State :=
  let s := if s.isRemote pa then s.visitorFill pa else s
  let cache := s.cacheOf core
  (s.fillSector cache (pa / 128 * 128)).fillSector cache (pa / 128 * 128 + 64)

/-- The memory attributes (R306): the tile buffer, and the three page attributes. -/
inductive Attr where
  | window | cached | streaming | uncached
  deriving DecidableEq, Repr

/-- The read mode that an attribute leaves of a wanted one (R306, R169). -/
def Attr.mode : Attr → ReadMode → ReadMode
  | .window, _ => .home
  | .uncached, _ => .home
  | _, m => m

/-- Does a write of core `core` go to its home at once (R169, R176, R306)? -/
def State.goesHome (s : State) (core : Nat) (attr : Attr) (pa : Nat) : Bool :=
  attr == .window || attr == .uncached || isTile pa || s.isRemote pa ||
    (attr == .streaming && (s.l1Find (s.cacheOf core) pa).isNone)

/-- A write that goes to its home: an atomic's, an `.sc` write, an engine's (R172, R194). The core's dirty bytes of the
sector go first, and its copy and the visitor copy are dropped. -/
def State.storeHome (s : State) (core : Nat) (attr : Attr) (pa : Nat) (bs : List Byte) : State :=
  (if attr = .window || isTile pa then s.homeWrite pa bs
   else ((s.writeBackDrop core pa).visitorDrop pa).homeWrite pa bs).countSent core pa bs.length true

/-- What a plain load leaves in the caches: the line is allocated (R171, R176), except for a tile buffer, an uncached page,
or a streaming one (R306). -/
def State.afterLoad (s : State) (core : Nat) (attr : Attr) (alloc : Bool) (pa : Nat) : State :=
  if isTile pa then s
  else match attr with
  | .cached => if alloc then s.fillLine core pa else if s.isRemote pa then s.visitorFill pa else s
  | .streaming => if s.isRemote pa then s.visitorFill pa else s
  | _ => s

/-- What a read leaves in the caches, given how it was served (R173, R190). -/
def State.afterRead (s : State) (core : Nat) (attr : Attr) (served : ReadMode) (alloc : Bool) (pa : Nat) : State :=
  if isTile pa then s
  else match served with
    | .plain => s.afterLoad core attr alloc pa
    | .behind => (s.forgetClean core pa false).afterLoad core attr alloc pa
    | .fresh | .home => s.forgetClean core pa true

/-- Count a read of `n` bytes by a core (R365): a hit where its L1 served it, else a miss, unless it does not look there; and
the access at the home. -/
def State.countRead (s : State) (core part : Nat) (attr : Attr) (served : ReadMode) (pa n : Nat) : State :=
  if served = .plain then s.countCore core part 0x05 1
  else
    let s := if attr = .window || attr = .uncached || isTile pa || served = .home then s else s.countCore core part 0x06 1
    (s.countHome pa n).countSent core pa n false

/-- Count a store of a core into its L1 (R365): a hit where the L1 held the sector. -/
def State.countStore (s : State) (core part : Nat) (held : Bool) : State := s.countCore core part (if held then 0x05 else 0x06) 1

/-- The canonical form of memory: HBM lists rising addresses and no byte that reads as the default 0; the home slices list
rising addresses. -/
def Memory.wf (s : State) : Bool := rising s.hbm && s.hbm.all (·.2 != 0) && rising s.l2

end Sys2Proof.Machine
end

