-- ==== Sys2Proof/Machine/Xlate.lean ====
section
/-! DEFINITION. Translation (16_translation_tables.md): the walk, the translation caches, the checks in the order of
R307, the tile-buffer window (R169) and the window-arena rule (R335). -/

namespace Sys2Proof.Machine

/-- Where the tile-buffer window begins (R169). -/
abbrev tileWindow : Nat := 0x7E000000000000

/-- What is done at an address, as far as translation asks (R307, R335). -/
inductive Kind where
  | read | write | atomic | fetch
  /-- A `.sw` store, or an engine write under a valid captured `cw`. -/
  | window
  /-- The part's own read or write for an instruction, not checked against windows. -/
  | ownRead | ownWrite
  deriving DecidableEq, Repr

/-- Does the access count as a write for the causes and the dirty bit (R307, R308)? -/
def Kind.writes : Kind → Bool
  | .write | .atomic | .window | .ownWrite => true
  | _ => false

/-- The cause of a translation fault (R303, R307). -/
def Kind.faultCause (k : Kind) : BitVec 8 := if k.writes then 0x05 else 0x04

/-- For whom an address is translated: core, partition, launch, privilege and the `cw` in force (R205), and whether the core's
vector memory unit translates it in its page-sorting unit (R309). -/
structure Agent where
  core : Nat
  part : Nat
  launch : Nat
  sup : Bool
  cw : BitVec 5
  sorts : Bool := false
  deriving DecidableEq, Repr

/-- A translation's result: physical address, attribute, the page's NS bit, and whether it is a window-arena page. -/
structure Phys where
  pa : Nat
  attr : Attr
  ns : Bool := false
  arena : Option Nat := none
  deriving DecidableEq, Repr

/-- The translating agent of a hart, with the `cw` in force. -/
def Hart.agent (h : Hart) (cw : BitVec 5) : Agent :=
  { core := h.core, part := h.part, launch := h.launch, sup := h.status.sup, cw := cw }

/-- The agent of a hart's vector memory instructions (R309). -/
def Hart.unitAgent (h : Hart) (cw : BitVec 5) : Agent := { h.agent cw with sorts := true }

/-- A launch by its number. -/
def State.launch? (s : State) (uid : Nat) : Option Launch := s.launches.find? fun l => l.uid == uid

/-- A partition by its number. -/
def State.part? (s : State) (id : Nat) : Option Partition := s.parts.find? fun p => p.id == id

/-- Address bits below the span of a table level (R302). -/
def levelShift : Nat → Nat
  | 1 => 42
  | 2 => 29
  | _ => 16

/-- What an entry is (R303, R304). -/
inductive EntryKind where
  | bad | table (next : Nat) | page
  deriving DecidableEq, Repr

/-- The kind of a table entry at a level (R303, R304), with the rule of R302 for table frames. DESIGN CHOICE
(notes/assumptions/20.md): a table frame on a package outside the domain is a format error. -/
def entryKind (domain : List Nat) (level e : Nat) : EntryKind :=
  if !bit e 0 then .bad
  else if bits e 1 3 = 0 then
    let next := bits e 12 36 * 65536
    if level = 3 || bits e 1 11 != 0 || bits e 48 4 != 0 || !isHbm next || !domain.contains (packageOf next) then .bad
    else .table next
  else if level = 1 then .bad
  else if !bit e 11 && bits e 48 4 != 0 then .bad
  else if level = 2 && (bits e 12 13 != 0 || bit e 11 || bit e 10) then .bad
  else .page

/-- The translation caches that serve a core (R309). -/
def Agent.homes (a : Agent) : List TlbHome :=
  (if a.sorts then [.sorter a.core] else []) ++ [.core a.core, .cluster (a.core / 4), .die (a.core / 32)]

/-- A cached entry for an address at a level (R309). -/
def State.tlbFind (s : State) (a : Agent) (level va : Nat) : Option TlbEntry :=
  (a.homes.filterMap fun h => s.tlb.find? fun e =>
    e.home == h && e.level == level && e.index == va >>> levelShift level &&
      (e.part == none || e.part == some a.part)).head?

/-- A table entry met on a walk: level, value and address. -/
structure Met where
  level : Nat
  entry : Nat
  addr : Nat
  deriving DecidableEq, Repr

/-- Read an entry of the table at `base` for an address, at its home (R302, R311). -/
def State.readEntry (s : State) (base level va : Nat) : Met :=
  let addr := base + 8 * (va >>> levelShift level % 8192)
  { level := level, entry := leNat (s.homeRead addr 8), addr := addr }

/-- The run of a level-3 entry: the 32 entries around it, with their addresses (R305). -/
def State.runOf (s : State) (m : Met) : List Met :=
  (upTo 32).map fun i =>
    let addr := m.addr / 256 * 256 + 8 * i
    { level := 3, entry := leNat (s.homeRead addr 8), addr := addr }

/-- Is a run well formed (R305)? -/
def wellFormedRun (es : List Met) : Bool :=
  match es.head? with
  | none => true
  | some a => bits a.entry 12 5 == 0 && es.zipIdx.all fun (m, i) =>
      bit m.entry 0 && bit m.entry 10 && bits m.entry 12 36 == bits a.entry 12 36 + i &&
      bits m.entry 1 4 == bits a.entry 1 4 && bits m.entry 7 5 == bits a.entry 7 5 && bits m.entry 48 4 == bits a.entry 48 4

/-- Does the entry belong to a run (R305)? -/
def Met.inRun (m : Met) : Bool := m.level == 3 && bit m.entry 10

/-- Is the entry one of a run that is not well formed (R305)? -/
def State.strayRun (s : State) (m : Met) : Bool := m.inRun && !wellFormedRun (s.runOf m)

/-- The entry that a translation uses where it reads this one: in a run that is not well formed any entry of the run with
contiguous set, a free choice (R305). -/
def State.usedEntry (s : State) (m : Met) : Met :=
  if s.strayRun m then
    let es := (s.runOf m).filter fun x => bit x.entry 10
    es.getD (Config.freeBits s.draws % es.length) m
  else m

/-- May a frame hold a table: a local address of HBM in the domain (R302; DESIGN CHOICE, notes/assumptions/20.md)? -/
def State.tableFrame (s : State) (pa : Nat) : Bool := isHbm pa && s.lighthouse.domain.contains (packageOf pa)

/-- The entry that serves an address at a level, from the caches or from the table above; the second component lists the
entries read. -/
def State.entryAt (s : State) (a : Agent) (useCache : Bool) (va : Nat) : Nat → Option (Met × List Met)
  | 0 => none
  | level + 1 =>
    match (if useCache then s.tlbFind a (level + 1) va else none) with
    | some e => some ({ level := level + 1, entry := e.entry.toNat, addr := e.addr }, [])
    | none =>
      if level = 0 then
        match s.part? a.part with
        | none => none
        | some p => if s.tableFrame p.root then let m := s.readEntry p.root 1 va; some (m, [m]) else none
      else
        match s.entryAt a useCache va level with
        | none => none
        | some (m, met) =>
          match entryKind s.lighthouse.domain m.level m.entry with
          | .table next => let m' := s.usedEntry (s.readEntry next (level + 1) va); some (m', m' :: met)
          | .page => some (m, met)
          | .bad => none

/-- The leaf or block entry of an address (R302-R304), with the entries read on the way. -/
def State.walk (s : State) (a : Agent) (useCache : Bool) (va : Nat) : Option (Met × List Met) :=
  match s.entryAt a useCache va 3 with
  | some (m, met) => if entryKind s.lighthouse.domain m.level m.entry = .page then some (m, met) else none
  | none => none

/-- The physical address that an entry gives (R304). -/
def Met.pa (m : Met) (va : Nat) : Nat :=
  bits m.entry 12 36 * 65536 + va % 2 ^ levelShift m.level

/-- The attribute of an entry (R306). -/
def attrOf (e : Nat) : Attr :=
  match bits e 8 2 with
  | 0 => .cached
  | 1 => .streaming
  | _ => .uncached

/-- Step 4 of R307: permissions, attr 11, tile-buffer frames, package and local address. -/
def State.permitted (s : State) (k : Kind) (m : Met) (va : Nat) : Bool :=
  let pa := m.pa va
  (match k with
   | .read | .ownRead => bit m.entry 1
   | .write | .window | .ownWrite => bit m.entry 2
   | .atomic => bit m.entry 1 && bit m.entry 2
   -- an arena page gives 0x07 to a fetch whatever its execute bit (R22, R335)
   | .fetch => bit m.entry 3 || bit m.entry 11) &&
  bits m.entry 8 2 != 3 &&
  (!isTile pa || (decide (2 ^ 54 ≤ va) && bits m.entry 8 2 == 2)) &&
  s.lighthouse.domain.contains (packageOf pa) && assigned pa

/-- The window number of an arena page (R304). -/
def Met.arena (m : Met) : Option Nat := if bit m.entry 11 then some (bits m.entry 48 4) else none

/-- Does the agent's access carry window `w` (R205), and does its launch hold `w` open (R335)? -/
def State.carries (s : State) (a : Agent) (w : Nat) : Bool :=
  a.cw.getLsbD 4 && a.cw.toNat % 16 == w &&
  (match s.launch? a.launch with
   | some l => (l.dir[w % 16]?.join).isSome
   | none => false)

/-- Step 5 of R307 (R335, R22). -/
def State.windowOk (s : State) (a : Agent) (k : Kind) (m : Met) : Bool :=
  match k, m.arena with
  | .ownRead, _ | .ownWrite, _ => true
  | .window, none => false
  | _, none => true
  | .fetch, some _ => false
  | _, some w => s.carries a w

/-- The cause that steps 4 and 5 of R307 give an entry. -/
def State.entryCause (s : State) (a : Agent) (k : Kind) (m : Met) (va : Nat) : Option (BitVec 8) :=
  if !s.permitted k m va then some 0x06 else if !s.windowOk a k m then some 0x07 else none

/-- The entry with the accessed and dirty bits that a successful translation needs (R308). -/
def Kind.updated (k : Kind) (e : Nat) : Nat := e ||| 32 ||| (if k.writes then 64 else 0)

/-- Do the caches take the whole run of an entry that a walk meets (R305, R309): where it is well formed they may, a free choice? -/
def State.takesRun (s : State) (m : Met) : Bool :=
  m.inRun && wellFormedRun (s.runOf m) && Config.freeBits s.draws % 2 == 1

/-- What the caches take of an entry met on the walk of an address: with it the pages of its run, each under its own entry as it
reads, by page address. -/
def State.taken (s : State) (va : Nat) (m : Met) : List (Nat × Met) :=
  (va, m) :: if s.takesRun m then
    ((s.runOf m).zipIdx.map fun x => ((va / 2 ^ 21 * 32 + x.2) * 65536, x.1)).filter fun x => x.2.addr != m.addr
  else []

/-- The caches after a walk (R309): the entries met become available to the core, its cluster and its die, and to the page-sorting
unit where it translates. -/
def State.tlbFill (s : State) (a : Agent) (va : Nat) (met : List Met) : State :=
  let new := (met.flatMap (s.taken va)).flatMap fun (va, m) => a.homes.map fun h =>
    { home := h, part := if m.level = 1 || !bit m.entry 7 || bits m.entry 1 3 = 0 then some a.part else none,
      level := m.level, index := va >>> levelShift m.level, entry := BitVec.ofNat 64 m.entry, addr := m.addr : TlbEntry }
  { s with tlb := new ++ s.tlb.filter fun e =>
      !new.any fun n => n.home == e.home && n.level == e.level && n.index == e.index && n.part == e.part }

/-- The accessed and dirty update of R308 for a walk's result, and the fill of the caches, which never hold a format error
(R309). -/
def State.update (s : State) (a : Agent) (k : Kind) (va : Nat) (m : Met) (met : List Met) : State :=
  let e := k.updated m.entry
  if e = m.entry then (if met.isEmpty then s else s.tlbFill a va met)
  else
    let s := s.homeWrite m.addr (leBytes 8 e)
    let m' := { m with entry := e }
    let above := met.filter fun n => n.level != m.level
    s.tlbFill a va (if entryKind s.lighthouse.domain m.level e = .page then m' :: above else above)

/-- A free value has been used. -/
def State.spend (s : State) (used : Bool) : State := if used then { s with draws := s.draws + 1 } else s

/-- Count a page walk of the core's die, and its reads of tables at their homes (R365). -/
def State.countWalk (s : State) (a : Agent) (met : List Met) : State :=
  if met.isEmpty then s
  else met.foldl (fun s m => (s.countHome m.addr 8).countSent a.core m.addr 8 false) (s.countDie (a.core / 32) 0x45 1)

/-- What a translation leaves behind: R308's update and the caches, and the free choice of R305 where it made one. -/
def State.touch (s : State) (a : Agent) (k : Kind) (va : Nat) (m : Met) (met : List Met) : State :=
  ((s.spend (met.any Met.inRun)).update a k va m met).countWalk a met

/-- May the walker make its update through this entry (R308): it needs none, or the entry at its home still holds V and the
frame? -/
def State.current (s : State) (k : Kind) (m : Met) : Bool :=
  k.updated m.entry == m.entry ||
  (let now := leNat (s.homeRead m.addr 8)
   bit now 0 && bits now 12 36 == bits m.entry 12 36)

/-- The physical result of an entry. -/
def Met.phys (m : Met) (va : Nat) : Phys :=
  { pa := m.pa va, attr := attrOf m.entry, ns := bit m.entry 4, arena := m.arena }

/-- Can table entries not be read: an uncorrectable error (R389), or a remote read that is not delivered (R400)? -/
def State.lostEntry (s : State) (met : List Met) : Bool :=
  (!s.poison.isEmpty || !s.cur.undelivered.isEmpty) &&
    met.any fun m => s.badByte 0 .home m.addr 8 || s.cur.undelivers m.addr 8

/-- Does a fresh walk meet an entry that it cannot read? -/
def State.walkLost (s : State) (a : Agent) (va : Nat) : Bool :=
  [1, 2, 3].any fun level => (s.entryAt a false va level).any fun x => s.lostEntry x.2

/-- Walk without caches, check and update (R307, R308). An entry that cannot be read faults the access that walks. -/
def State.xlateFresh (s : State) (a : Agent) (k : Kind) (va : Nat) : Except (BitVec 8) Phys × State :=
  if s.walkLost a va then (.error 0x0D, s.countDie (a.core / 32) 0x45 1)
  else match s.walk a false va with
  | none => (.error k.faultCause, s.countDie (a.core / 32) 0x45 1)
  | some (m, met) =>
    match s.entryCause a k m va with
    | some c => (.error c, ((s.spend (met.any Met.inRun)).tlbFill a va met).countWalk a met)
    | none => (.ok (m.phys va), s.touch a k va m met)

/-- Translation of a page address: through the caches where they hold the page and every check passes, else by a fresh walk
(R309). -/
def State.xlatePage (s : State) (a : Agent) (k : Kind) (va : Nat) : Except (BitVec 8) Phys × State :=
  match s.walk a true va with
  | none => s.xlateFresh a k va
  | some (m, met) =>
    if (s.entryCause a k m va).isNone && s.current k m && !s.lostEntry met then
      let now := if k.updated m.entry == m.entry then m.entry else leNat (s.homeRead m.addr 8)
      let m' := if met.isEmpty then { m with entry := now } else m
      (.ok (m.phys va), s.touch a k va m' met)
    else s.xlateFresh a k va

/-- The tile-buffer window (R169): offset `o` of the launch's allocation on the core. -/
def State.xlateWindow (s : State) (a : Agent) (k : Kind) (o : Nat) : Except (BitVec 8) Phys :=
  if k = .fetch then .error 0x04
  else if 0x180000 ≤ o then .error k.faultCause
  else match s.launch? a.launch with
    | none => .error 0x06
    | some l =>
      match l.allocs.find? fun c => c.core == a.core with
      | none => .error 0x06
      | some x =>
        if o < 1024 * l.record.tbuf then .ok { pa := tileAddr s.pkg x.core (1024 * x.base + o), attr := .window }
        else .error 0x06

/-- `xlate(va)` of R40 for one address: R299, R169, then R307. The second component holds the accessed and dirty updates
and the caches (R308, R309), which stay when the access fails. -/
def State.xlate (s : State) (a : Agent) (k : Kind) (va : Word) : Except (BitVec 8) Phys × State :=
  let v := va.toNat
  if 2 ^ 55 ≤ v then (.error k.faultCause, s)
  else if tileWindow ≤ v then (s.xlateWindow a k (v - tileWindow), s)
  else if 2 ^ 54 ≤ v && !a.sup then (.error 0x06, s)
  else s.xlatePage a k v

/-- A translation that changes nothing, for prefetches and the lead (R180, R237, R239); there is none where an entry that it
reads is lost, since that would make the page walked afresh (R309). -/
def State.peekXlate (s : State) (a : Agent) (k : Kind) (va : Word) : Option (Phys × Bool) :=
  let v := va.toNat
  if 2 ^ 55 ≤ v then none
  else if tileWindow ≤ v then
    match s.xlateWindow a k (v - tileWindow) with
    | .ok p => some (p, true)
    | .error _ => none
  else if 2 ^ 54 ≤ v && !a.sup then none
  else match s.walk a true v with
    | some (m, met) => if (s.entryCause a k m v).isNone && !s.lostEntry met then some (m.phys v, bit m.entry 5) else none
    | none => none

end Sys2Proof.Machine
end

