-- ==== Sys2Proof/Machine/Ops.lean ====
section
/-! DEFINITION. The named operations over registers and memory, taking an exception (R381, R390) and what a hart leaves
behind when it is saved (R393). -/

namespace Sys2Proof.Machine

/-- A trap in the making (R381): cause, `tval`, `tidx`; `after` makes the next instruction the resume PC (R385), `parks` parks
whatever the mode (`halt`), `keeps` leaves what the instruction captured (R112). `stalls` is no trap: the instruction does not
begin yet (R66, R263), and nothing changes. -/
structure Trap where
  cause : BitVec 8
  tval : Word := 0
  tidx : BitVec 12 := 0
  after : Bool := false
  parks : Bool := false
  stalls : Bool := false
  keeps : Bool := false
  deriving DecidableEq, Repr

/-- A computation on the state that may trap; the state stands as it was when it trapped. -/
abbrev M := EStateM Trap State

/-! Registers -/

/-- Read a scalar register; `x0` reads zero (R25, R63). -/
def Hart.getX (h : Hart) (r : BitVec 5) : Word := if r = 0 then 0 else h.x[r.toNat]

/-- Write a scalar register; a write of `x0` is discarded (R25, R63). -/
def Hart.setX (h : Hart) (r : BitVec 5) (v : Word) : Hart := if r = 0 then h else { h with x := h.x.set r.toNat v }

/-- Read a condition bit; `c0` is true (R25, R64). -/
def Hart.getC (h : Hart) (r : BitVec 3) : Bool := r == 0 || h.c.getLsbD r.toNat

/-- Write a condition bit; a write of `c0` is discarded (R25, R64). -/
def Hart.setC (h : Hart) (r : BitVec 3) (v : Bool) : Hart :=
  if r = 0 then h
  else { h with c := if v then h.c ||| 1#8 <<< r.toNat else h.c &&& ~~~(1#8 <<< r.toNat) }

/-- Read a mask register; `m0` is all ones (R25, R91). -/
def Hart.getM (h : Hart) (r : BitVec 3) : BitVec 2048 := if r = 0 then BitVec.allOnes 2048 else h.m[r.toNat]

/-- Write a mask register; a write of `m0` is discarded (R25, R91). -/
def Hart.setM (h : Hart) (r : BitVec 3) (v : BitVec 2048) : Hart :=
  if r = 0 then h
  else { h with m := h.m.set r.toNat v, mbad := h.mbad.filter fun p => p.1 != r.toNat }

/-- Read a vector register (R86). -/
def Hart.getV (h : Hart) (r : BitVec 5) : VReg := h.v[r.toNat]

/-- Write a vector register (R86). -/
def Hart.setV (h : Hart) (r : BitVec 5) (v : VReg) : Hart :=
  { h with v := h.v.set r.toNat v, vbad := h.vbad.filter fun p => p.1 != r.toNat }

/-- Read a tile (R138). -/
def Hart.getT (h : Hart) (r : BitVec 4) : Tile := h.tiles[r.toNat]

/-- Write a tile (R138). -/
def Hart.setT (h : Hart) (r : BitVec 4) (t : Tile) : Hart :=
  { h with tiles := h.tiles.set r.toNat t, tbad := h.tbad.filter fun p => p.1 != r.toNat }

/-- The executing hart's scalar register. -/
def State.x (s : State) (r : BitVec 5) : Word := s.cur.getX r

/-- Write the executing hart's scalar register. -/
def State.setX (s : State) (r : BitVec 5) (v : Word) : State := { s with cur := s.cur.setX r v }

/-- The executing hart's condition bit. -/
def State.c (s : State) (r : BitVec 3) : Bool := s.cur.getC r

/-- Write the executing hart's condition bit. -/
def State.setC (s : State) (r : BitVec 3) (v : Bool) : State := { s with cur := s.cur.setC r v }

/-- Change the executing hart. -/
def State.onCur (s : State) (f : Hart → Hart) : State := { s with cur := f s.cur }

/-! Choices and counters -/

/-- The next choice the part makes (R2): from the listed ones, else from the opaque `Config.choice`. -/
def State.draw (s : State) : Nat × State :=
  match s.choices with
  | c :: cs => (c, { s with choices := cs })
  | [] => (Config.choice s.draws, { s with draws := s.draws + 1 })

/-- A free value (R2): the next word that the manual leaves open. -/
def State.freeWord (s : State) : Word × State := (BitVec.ofNat 64 (Config.freeBits s.draws), { s with draws := s.draws + 1 })

/-- Count an event of the executing hart's core. -/
def State.countCur (s : State) (code : BitVec 8) (w : Nat) : State := s.countCore s.cur.core s.cur.part code w

/-! The lead hart and retirement -/

/-- The lead's copies as a re-fork or `lsync` leaves them (R240, R245), the lead at `pc`. -/
def Hart.forkedLead (h : Hart) : Lead :=
  { pc := h.pc, x := h.x, xValid := BitVec.allOnes 32, c := h.c, cValid := BitVec.allOnes 8, vlTag := h.ltag,
    vlLen := some h.vlen, vlMax := some h.vlmax, matrix := h.status.matrix }

/-- A re-fork of an active pair (R240). -/
def Hart.reforkLead (h : Hart) : Hart :=
  { h with lead := h.forkedLead, leadStopped := false, divs := h.divs + 1, refork := false }

/-- The lead stops and its buffer is flushed (R240, R246); a hart without an active lead has none to stop. -/
def Hart.stopLead (h : Hart) : Hart :=
  if h.leadActive then { h with leadStopped := true, lead := { h.lead with buffer := [], stoppedAt := none } } else h

/-- Does the trailing hart stand at the instruction at which the lead stopped (R240): at its address, after as many
branches? -/
def Hart.atStop (h : Hart) (pc : Word) : Bool :=
  h.leadStopped && h.lead.stoppedAt == some pc && h.lead.trailBranch == h.lead.branchSeq

/-- Does the retirement of the instruction at `pc` re-fork the pair (R240)? -/
def Hart.reforks (h : Hart) (pc : Word) : Bool := h.leadActive && (h.refork || h.atStop pc)

/-- What the instruction at the program counter captured at its first issue, when it has issued before (R201, R223). -/
def Hart.capturedHere (h : Hart) : Option Captured := if h.resumed then h.captured.find? fun c => c.pc == h.pc else none

/-- The slot at which the `bar.sync` at the program counter has arrived, when it has issued before (R357). -/
def Hart.arrivedHere (h : Hart) : Option (BitVec 4) :=
  if h.resumed then (h.syncArrived.find? fun a => a.1 == h.pc).map (·.2) else none

/-- Keep what the instruction at the program counter captured: it has issued (R201). -/
def Hart.hold (c : Captured) (h : Hart) : Hart :=
  { h with captured := c :: h.captured.filter (fun d => d.pc != c.pc), resumed := true }

/-- Nothing is kept any more for the instruction at an address. -/
def Hart.forget (pc : Word) (h : Hart) : Hart :=
  { h with
    captured := h.captured.filter fun c => c.pc != pc
    syncArrived := h.syncArrived.filter fun a => a.1 != pc }

/-- What an instruction captures at issue (R201, R393), with its scalar operands in the order of its encoding fields. -/
def State.capture (s : State) (operands : List Word) (scalar : Word := 0) : Captured :=
  let h := s.cur
  let p := s.part? h.part
  { pc := h.pc, fmode := h.fmode, rkey := h.rkey, cw := h.cw, lslip := h.lslip, lskew := h.lskew, vbyp := h.vbyp,
    rad := h.rad, bxSpacing := (p.map (·.acting.bxSpacing)).getD 0, bxGroup := (p.map (·.acting.bxGroup)).getD 63,
    operands := operands, scalar := scalar }

/-- The values an instruction runs with: those of its first issue when it is restarted, else the present ones (R112, R201). -/
def State.issue (s : State) (operands : List Word) (scalar : Word := 0) : Captured :=
  s.cur.capturedHere.getD (s.capture operands scalar)

/-- The executing hart's instruction completes and control passes to `next` (R63); a re-fork follows (R240). -/
def State.retireTo (s : State) (next : Word) : State :=
  let pc := s.cur.pc
  let h := { s.cur with
    pc := next, wait := .awake, midway := false, resumed := false
    captured := s.cur.captured.filter fun c => c.pc != pc
    syncArrived := s.cur.syncArrived.filter fun a => a.1 != pc }
  let s' := { s with cur := if s.cur.reforks s.cur.pc then h.reforkLead else { h with refork := false } }
  (if s.cur.reforks s.cur.pc then s'.countCur 0x07 1 else s').countCur 0x02 1

/-- The executing hart's instruction completes and the next one follows (R63: PC + 4). -/
def State.retire (s : State) : State := s.retireTo (s.cur.pc + 4)

/-! The words of code -/

/-- What a word of code may be fetched as (R23): what it holds, or what it held before a change made while the launch ran. -/
def State.codeWords (s : State) (launch pa : Nat) : List (BitVec 32) :=
  BitVec.ofNat 32 (leNat (s.homeRead pa 4)) ::
    (s.recoded.filter fun r => r.addr == pa && decide (launch < r.before)).map (·.old)

/-- The word that a hart of a launch fetches (R23): the choice is made for each fetch. -/
def State.codeWord (s : State) (launch pa : Nat) : BitVec 32 × State :=
  match s.codeWords launch pa with
  | [w] => (w, s)
  | ws => (ws.getD (s.draw.1 % ws.length) 0, s.draw.2)

/-! Partitions and harts -/

/-- The partition's scope of R202 and R280: package, or domain when it spans packages. -/
def State.partScope (s : State) (part : Nat) : Nat :=
  match s.part? part with
  | some p => if p.otherPackages.isEmpty then 4 else 5
  | none => 4

/-- Every hart that is not absent. -/
def State.harts (s : State) : List Hart := (s.cur :: s.rest).filter fun h => h.place != .absent

/-- The hart of a number, if it lives. -/
def State.hart? (s : State) (uid : Nat) : Option Hart := s.harts.find? fun h => h.uid == uid

/-- Change the hart of a number. -/
def State.onHart (s : State) (uid : Nat) (f : Hart → Hart) : State :=
  s.mapHarts fun h => if h.uid == uid && h.place != .absent then f h else h

/-- Change a launch. -/
def State.onLaunch (s : State) (uid : Nat) (f : Launch → Launch) : State :=
  { s with launches := s.launches.map fun l => if l.uid == uid then f l else l }

/-- Change a partition. -/
def State.onPart (s : State) (id : Nat) (f : Partition → Partition) : State :=
  { s with parts := s.parts.map fun p => if p.id == id then f p else p }

/-- Bring a live hart to the front; the one in front joins the others, unless it is absent. -/
def State.focus (s : State) (uid : Nat) : Option State :=
  if s.cur.uid == uid && s.cur.place != .absent then some s
  else match s.rest.find? fun h => h.uid == uid && h.place != .absent with
    | none => none
    | some h =>
      let others := s.rest.filter fun g => !(g.uid == uid)
      some { s with cur := h, rest := if s.cur.place = .absent then others else s.cur :: others }

/-- Has the hart pushed commands that are not complete (R256)? -/
def State.ownCmds (s : State) (uid : Nat) : Bool := s.cmds.any fun c => c.hart == uid

/-- Has the hart commands to wait for before its context is saved (R256): its own, or a `cpyc` into its registers (R264)? -/
def State.pendingCmds (s : State) (uid : Nat) : Bool :=
  s.cmds.any fun c => c.hart == uid ||
    match c.kind with
    | .register target _ _ _ _ _ => target == uid
    | _ => false

/-! Status and control registers as words -/

/-- Does the hart hold lane groups: not after `vrel`, and not placed with none (R95, R100)? -/
def Hart.granted (h : Hart) : Bool := h.vgrant != 0 && h.held != 0

/-- `status` as a word (R163). -/
def Status.word (t : Status) : Word :=
  BitVec.ofNat 64 (flag t.sup + 2 * flag t.ie + 4 * flag t.matrix + 16 * flag t.pprv + 32 * flag t.pie)

/-- `lstat` as a word (R162). -/
def Hart.lstatWord (h : Hart) : Word :=
  BitVec.ofNat 64 (flag h.leadActive * 2 ^ 63 + flag h.leadStopped * 2 ^ 62) + h.divs.setWidth 64

/-- The code of an element tag (R41). -/
def Tag.code : Tag → Nat
  | .dead => 0 | .i8 => 1 | .n8 => 2 | .i16 => 3 | .n16 => 4 | .i32 => 5 | .n32 => 6 | .i64 => 7 | .n64 => 8
  | .f16 => 9 | .bf16 => 10 | .f32 => 11 | .f64 => 12 | .e4m3 => 13 | .e5m2 => 14 | .e2m1 => 15

/-- The tag of a code (R41). -/
def Tag.ofCode (n : Nat) : Tag :=
  match n with
  | 1 => .i8 | 2 => .n8 | 3 => .i16 | 4 => .n16 | 5 => .i32 | 6 => .n32 | 7 => .i64 | 8 => .n64
  | 9 => .f16 | 10 => .bf16 | 11 => .f32 | 12 => .f64 | 13 => .e4m3 | 14 => .e5m2 | 15 => .e2m1 | _ => .dead

/-- Element width in bits (R40). -/
def Tag.width : Tag → Nat
  | .dead => 0 | .i8 | .n8 | .e4m3 | .e5m2 => 8 | .i16 | .n16 | .f16 | .bf16 => 16 | .i32 | .n32 | .f32 => 32
  | .i64 | .n64 | .f64 => 64 | .e2m1 => 4

/-- `vl` as a word (R93). -/
def Hart.vlWord (h : Hart) : Word := BitVec.ofNat 64 (h.ltag.code * 65536 + h.vlen)

/-- The registers of R157 numbered below 0x100 except `hid` and `shore`, then the trap registers, in ascending number: the
slots of R393 at 0x0110. -/
def Hart.controlWords (h : Hart) : List Word :=
  [h.fmode.setWidth 64, h.fflags.setWidth 64, h.rkey, h.vlWord, BitVec.ofNat 64 h.vlmax, BitVec.ofNat 64 h.vgrant,
   h.progress.vstart.setWidth 64, h.lslip.setWidth 64, h.lskew.setWidth 64, h.vbyp.setWidth 64, h.rad.setWidth 64,
   h.lstatWord, h.cw.setWidth 64, h.tagmap, h.status.word, h.epc, h.tcause.setWidth 64, h.tval, h.tidx.setWidth 64, h.tvec]

/-! The save area (R393) -/

/-- Words as little-endian bytes. -/
def wordsBytes (ws : List Word) : List Byte := ws.flatMap fun w => leBytes 8 w.toNat

/-- A progress copy in the save area (R393). -/
def Progress.bytes (p : Progress) : List Byte :=
  leBytes 256 p.vcomp.toNat ++ leBytes 8 p.vstart.toNat ++ leBytes 8 (p.addr.getD 0).toNat

/-- Captured values in the save area (R393): eight registers, at most 12 operands, the vs scalar, zeros. -/
def Captured.bytes (c : Captured) : List Byte :=
  wordsBytes ([c.fmode.setWidth 64, c.rkey, c.cw.setWidth 64, c.lslip.setWidth 64, c.lskew.setWidth 64,
    c.vbyp.setWidth 64, c.rad.setWidth 64, BitVec.ofNat 64 (c.bxSpacing.toNat * 65536 + c.bxGroup.toNat)] ++
    (c.operands ++ List.replicate 12 0).take 12 ++ [c.scalar] ++ List.replicate 11 0)

/-- The context at 0x1000 of the save area, in a layout of the model's own (R393 leaves it open). -/
def Hart.engineBytes (h : Hart) : List Byte :=
  let tags := h.tags.toList
  let maskOf (f : TagState → Bool) : Nat := tags.foldr (fun t n => flag (f t) + 2 * n) 0
  wordsBytes ([BitVec.ofNat 64 (maskOf (·.busy)), BitVec.ofNat 64 (maskOf (·.errpend))] ++
    tags.map (fun t => BitVec.ofNat 64 (flag t.err * 2 ^ 63 + t.time.toNat)) ++
    h.slots.toList.flatMap (fun q => [
      BitVec.ofNat 64 (flag q.cfg + 2 * flag q.descending + 4 * flag q.sup + 16 * q.scope.toNat + 256 * q.cw.toNat +
        65536 * q.tag.code + 2 ^ 32 * q.sbuf.toNat),
      q.base, q.stride, BitVec.ofNat 64 (q.length.toNat + q.soff.toNat * 2 ^ 32),
      BitVec.ofNat 64 (q.cursor.toNat + q.avail.toNat * 2 ^ 32),
      BitVec.ofNat 64 (q.last.toNat + 2 ^ 32 * ((q.fault.map fun f => 256 + f.1.toNat).getD 0)), (q.fault.map (·.2)).getD 0]) ++
    h.bars.toList.flatMap (fun b => [BitVec.ofNat 64 (b.init.toNat + b.phase.toNat * 2 ^ 32),
      BitVec.ofNat 64 (flag b.pending + 2 * flag b.member + 4 * flag b.dropped)]) ++
    [h.tide.declared, h.tide.undeclared, h.tide.throttled, h.tide.stagger, h.tide.unused, h.tide.stamp,
     BitVec.ofNat 64 (flag h.irq), h.shoreSaved,
     match h.arrivedHere with
     | some i => i.setWidth 64 + 16
     | none => 0])

/-- The code of a tile's tag in the save area (R393). -/
def TileTag.code : TileTag → Nat
  | .dead => 0
  | .f32 => 1
  | .i32 => 2

/-- The queue registers of which a hart is producer, 1 KiB each from 0x2000 (R393, R253); layout the model's own. -/
def State.queueBytes (s : State) (h : Hart) : List (Nat × List Byte) :=
  (s.queues.filter fun q => q.launch == h.launch && q.prod == h.index).map fun q =>
    (0x2000 + 1024 * q.q.toNat, wordsBytes (BitVec.ofNat 64 (q.data.length + 64 + q.cons * 2 ^ 32) :: q.data))

/-- The save area's contents (R393): offset and bytes. -/
def State.saveArea (s : State) (h : Hart) : List (Nat × List Byte) :=
  [(0x0000, wordsBytes (0 :: h.x.toList.tail)),
   (0x0100, leBytes 8 h.pc.toNat ++ leBytes 8 (h.c.toNat % 256) ++ wordsBytes h.controlWords),
   (0x0200, h.progress.bytes),
   (0x0400, h.heldProgress.bytes),
   (0x0600, (h.capturedHere.getD h.progress.cap).bytes),
   (0x0800, h.m.toList.tail.flatMap fun m => leBytes 256 m.toNat),
   (0x1000, h.engineBytes)] ++
  s.queueBytes h ++
  [(0x4000, h.v.toList.map (fun v => BitVec.ofNat 8 v.tag.code) ++
    (h.tiles.toList.map fun t => if h.status.matrix then BitVec.ofNat 8 t.tag.code else 0) ++ List.replicate 208 0)] ++
  ((upTo 32).filterMap fun i =>
    if h.v.toList[i]?.any (·.tag != .dead) then
      some (0x10000 + ((h.v.toList.take i).filter (·.tag != .dead)).length * (256 * h.vgrant),
        leBytes (256 * h.vgrant) ((h.v.toList[i]?.getD {}).img.toNat))
    else none) ++
  (if h.status.matrix then
    (upTo 16).filterMap fun i =>
      if h.tiles.toList[i]?.any (·.tag != .dead) then
        some (0x20000 + ((h.tiles.toList.take i).filter (·.tag != .dead)).length * 16384,
          leBytes 16384 ((h.tiles.toList[i]?.getD {}).img.toNat))
      else none
   else [])

/-- What the homes hold of a save area beyond the bytes that supervisor software may change (R394). -/
def State.areaNow (s : State) (h : Hart) : List Host.Cell :=
  (cellsIn s.l2 (h.handle + 0x200) (0x80000 - 0x200)).foldl (fun l c => cellsWrite false l c.1 [c.2])
    (cellsIn s.hbm (h.handle + 0x200) (0x80000 - 0x200))

/-- Write the executing hart's context to its save area, at the homes (R393). -/
def State.writeSaveArea (s : State) : State :=
  let s := (s.saveArea s.cur).foldl (fun s p => s.homeWrite (s.cur.handle + p.1) p.2) s
  s.onCur fun h => { h with areaCells := s.areaNow h }

/-! Leaving a core: pre-emption and parking -/

/-- Are the two harts of one unit: one core group, one gang, or the pair of a bound queue (R285, R287, R253)? -/
def State.sameUnit (s : State) (g h : Hart) : Bool :=
  g.launch == h.launch && g.uid != h.uid &&
  (g.group == h.group ||
   (match s.launch? h.launch with
    | some l => l.record.flags.getLsbD 2
    | none => false) ||
   s.queues.any fun q => q.launch == h.launch &&
     ((q.prod == h.index && q.cons == g.index) || (q.cons == h.index && q.prod == g.index)))

/-- Has the deadline of a request passed? A `vsetvl` in the deadline's own cycle is honoured (R96). -/
def State.expired (s : State) (r : Reclaim) : Bool := r.due || r.deadline.any fun d => decide (d < s.cycle)

/-- Does the entry of a request still wait in its source (R96, R294)? -/
def State.demanded (s : State) : Demand → Bool
  | .group l n =>
    (s.launch? l).any (fun m => m.placed == n) &&
      ((s.runq.any fun e => e.launch == l) || s.launches.any fun m => m.spawn.any fun q => q.records.contains l)
  | .unit hs => s.resumeq.any fun e => e.harts.any hs.contains

/-- The scheduler lifts the requests whose entry has been placed or has left its source, and what is kept for it (R96, R294). -/
def State.lift (s : State) : State :=
  { s with
    reclaims := s.reclaims.filter fun (r : Reclaim) => r.need.all s.demanded
    reserved := s.reserved.filter fun (r : Reserved) => s.demanded r.need }

/-- The launch record of a hart. -/
def State.recordOf (s : State) (h : Hart) : LaunchRec :=
  match s.launch? h.launch with
  | some l => l.record
  | none => {}

/-- Is the hart exempt from pre-emption (R294)? -/
def State.noPreempt (s : State) (h : Hart) : Bool := (s.recordOf h).flags.getLsbD 3

/-- Must the hart leave its core at this instruction boundary: a victim or a mate of a unit past its deadline (R294), or a
lane reclamation that expired (R96)? -/
def State.mustLeave (s : State) (h : Hart) : Bool :=
  s.reclaims.any fun r => r.hart == h.uid && s.expired r && (r.victim || !s.noPreempt h)

/-- The rest of a unit must leave at its next instruction boundary (R294): a request whose deadline has come. -/
def State.callUnit (s : State) (h : Hart) : State :=
  let mates := s.rest.filter fun g => g.isResident && s.sameUnit g h &&
    !s.reclaims.any fun r => r.hart == g.uid && r.victim && s.expired r
  { s with reclaims := s.reclaims ++
      mates.map fun g => { hart := g.uid, leave := 0, victim := true, due := true } }

/-- Put a hart that has left a core, or is runnable again, on the resume list of its class with the rest of its unit, at the
tail (R284, R288, R295). -/
def State.enlist (s : State) (h : Hart) : State :=
  let mate (e : ResumeEntry) : Bool := e.harts.any fun u =>
    s.harts.any fun g => g.uid == u && s.sameUnit g h
  let cls := ((s.resumeq.find? mate).map (·.cls)).getD h.cls
  { s with resumeq := (s.resumeq.filter fun e => !mate e) ++
      [{ part := h.part, cls := cls, harts := ((s.resumeq.filter mate).flatMap (·.harts)) ++ [h.uid], since := s.shore }] }

/-- Would a context save meet an uncorrectable error in a register that it saves (R389)? -/
def Hart.saveMeetsError (h : Hart) : Bool :=
  !h.mbad.isEmpty || (h.vbad.any fun p => (h.getV (BitVec.ofNat 5 p.1)).tag != .dead) ||
  (h.status.matrix && h.tbad.any fun p => (h.getT (BitVec.ofNat 4 p.1)).tag != .dead)

/-- The fault record of a parking trap (R392), its trap registers written. -/
def State.faultRecord (s : State) (h : Hart) (cause : BitVec 8) (damaged : Bool) : FaultRecord :=
  { handle := h.handle, epc := h.epc, tval := h.tval, tidx := h.tidx, cause := cause
    flags := BitVec.ofNat 8 (flag h.status.matrix + 2 * flag damaged + 4 * flag h.status.sup)
    hid := h.hid, stamp := s.shore
    done := match s.launch? h.launch with
      | some l => l.record.done
      | none => 0 }

/-- What goes wrong in a release of the executing hart at its partition's scope (R171, R400): the address of a remote write that was
not acknowledged, or of a sector whose write-back meets an uncorrectable error. -/
def State.releaseError (s : State) : Option Word :=
  (s.cur.lostWrites.map Prod.fst ++ (if s.releases s.cur.core (s.partScope s.cur.part) then
    (s.unsendable (s.cacheOf s.cur.core)).map fun x => BitVec.ofNat 64 x.addr else [])).head?

/-- What goes wrong as the executing hart leaves its core (R171, R389, R400): the release, or the context save, with 0 for a
register in error. -/
def State.leavingError (s : State) : Option Word :=
  match s.releaseError with
  | some va => some va
  | none => if s.cur.saveMeetsError then some 0 else none

/-- The trap registers of a hart that parks with cause 0x0D as it leaves (R381, R389). -/
def Hart.leavesInError (resume tval : Word) (h : Hart) : Hart :=
  { h with epc := resume, tcause := 0x0D, tval := tval, tidx := 0 }

/-- A hart that stops executing, to return to an address: what it keeps for that address belongs to an instruction that has
issued there (R223). -/
def Hart.leavesFor (resume : Word) (h : Hart) : Hart := if h.resumed && resume == h.pc then h else h.forget resume

/-- The capacity not used so far in the interval and not yet charged (R377). -/
def Tide.unusedNow (t : Tide) : Nat := t.coverSum / 16 - t.covered - t.charged

/-- The unused capacity is charged as a declaration ends (R377, R368). -/
def Tide.charge (t : Tide) : Tide :=
  { t with unused := t.unused + BitVec.ofNat 64 t.unusedNow, charged := t.charged + t.unusedNow }

/-- The context that a hart takes from its core (R295, R393): the resume address, and nothing that a saved hart loses. What it has
not used of its declaration is charged (R377). -/
def Hart.departing (h : Hart) (resume shore : Word) : Hart :=
  { h.leavesFor resume with
    pc := resume, shoreSaved := shore, links := [], wait := .awake, early := [], midway := false,
    unacked := [], lostWrites := [], undelivered := [],
    tide := { h.tide.charge with
      decl := none, burst := false, coverSum := 0, covered := 0, charged := 0, undeclaredNow := false, ready := false } }

/-- Release and context save (R295 steps 3 and 4, R390 steps 3 and 4). -/
def State.saveContext (s : State) (resume : Word) : State :=
  let s := s.releaseBy s.cur.core (s.partScope s.cur.part)
  (s.onCur fun h => h.departing resume s.shore).writeSaveArea

/-! What moves with a core group -/

/-- The instance of a scope that contains a hart, as a number (R186, R12): the scope and the `hid` fields compared. -/
def instanceKey (scope : BitVec 3) (hid : BitVec 17) : Nat :=
  let shift := match scope.toNat with
    | 0 => 0
    | 1 => 3
    | 2 => 5
    | 3 => 7
    | 4 => 11
    | _ => 17
  scope.toNat * 2 ^ 17 + hid.toNat >>> shift

/-- The key of a hart-scope or core-scope instance whose hart or core group is away (R360). -/
def awayKey (scope : BitVec 3) (n : Nat) : Nat := (scope.toNat + 1) * 2 ^ 20 + n

/-- Give the instance of a scope another key (R360). -/
def BarSlot.rekey (scope : BitVec 3) (old new : Nat) (b : BarSlot) : BarSlot :=
  if b.scope = scope && b.insts.any (fun x => x.key == old) then
    { b with insts := (b.insts.filter fun x => x.key != new).map fun (x : BarInst) =>
        if x.key = old then { x with key := new } else x }
  else b

/-- Change the keys of the launch's instances of a scope (R360). -/
def State.rekeyBars (s : State) (launch : Nat) (scope : BitVec 3) (old new : Nat) : State :=
  s.onLaunch launch fun l => { l with bars := l.bars.map (BarSlot.rekey scope old new) }

/-- The barrier instances of a hart, and of its core group once all of it has left, go with it (R360). -/
def State.takeBars (s : State) (h : Hart) : State :=
  let s := s.rekeyBars h.launch 0 (instanceKey 0 h.hid) (awayKey 0 h.index)
  if s.rest.any fun g => g.isResident && g.launch == h.launch && g.group == h.group then s
  else s.rekeyBars h.launch 1 (instanceKey 1 h.hid) (awayKey 1 h.group)

/-- A resumed hart brings them to its new place (R360). -/
def State.bringBars (s : State) (h : Hart) : State :=
  (s.rekeyBars h.launch 0 (awayKey 0 h.index) (instanceKey 0 h.hid)).rekeyBars h.launch 1 (awayKey 1 h.group)
    (instanceKey 1 h.hid)

/-- Core groups leave the allocations that are kept outside the buffer; one that none shares any more is gone. -/
def withoutGroups (groups : List Nat) (ys : List Stowed) : List Stowed :=
  (ys.map fun (y : Stowed) => { y with groups := y.groups.filter fun g => !groups.contains g }).filter fun y => !y.groups.isEmpty

/-- Copy the bytes and error marks of an allocation on a core out of the buffer; they stay with core groups that share it (R168,
R295). The place is free unless another core group of the launch shares it. -/
def State.stow (s : State) (l : Launch) (core first : Nat) (groups : List Nat) : State :=
  let base := tileAddr s.pkg core (1024 * first)
  let len := 1024 * l.record.tbuf
  let bad := (s.poison.filter fun a => decide (base ≤ a) && decide (a < base + len)).map (· - base)
  let y : Stowed :=
    { groups := groups, core := core, cells := (cellsIn s.hbm base len).map fun c => (c.1 - base, c.2), bad := bad }
  let there (z : Alloc) : Bool := z.core == core && z.base == first
  let shared := ((s.launch? l.uid).getD l).allocs.any fun z => there z && !groups.contains z.group
  let s := if shared then s else { s with
    hbm := cellsDrop s.hbm base len, poison := s.poison.filter fun a => decide (a < base) || decide (base + len ≤ a) }
  s.onLaunch l.uid fun m => { m with
    allocs := m.allocs.filter fun z => !(there z && groups.contains z.group)
    stowed := y :: withoutGroups groups m.stowed }

/-- The core groups that share the allocation at a place of a core (R168). -/
def Launch.sharers (l : Launch) (core base : Nat) : List Nat :=
  (l.allocs.filter fun x => x.core == core && x.base == base).map (·.group)

/-- Is a hart of a core group on a core, or parked? -/
def State.keepsBuffer (s : State) (launch group : Nat) : Bool :=
  s.harts.any fun h => h.launch == launch && h.group == group && match h.place with
    | .resident _ _ | .parked _ => true
    | _ => false

/-- An allocation lasts while a hart of a core group that shares it is placed on the core or parked from it; then it waits outside
the buffer for all of them (R168). -/
def State.leaveBuffer (s : State) (launch group : Nat) : State :=
  match s.launch? launch with
  | some l => (l.allocs.filter fun x => x.group == group).foldl (fun s x =>
      let groups := l.sharers x.core x.base
      if groups.any (s.keepsBuffer launch) then s else s.stow l x.core x.base groups) s
  | none => s

/-- What the executing hart leaves on its core (R295 step 5): its queues go with it, requests to it end, its unit is called,
and barrier instances of its own go along. -/
def State.giveBack (s : State) : State :=
  let h := s.cur
  let s := { s with
    queues := s.queues.map fun (q : QReg) =>
      if q.launch == h.launch && q.prod == h.index && q.core == some h.core then { q with core := none } else q
    reclaims := (s.reclaims.filter fun (r : Reclaim) => !(r.hart == h.uid && r.victim)).map fun (r : Reclaim) =>
      if r.hart == h.uid then { r with deadline := none } else r }
  (s.callUnit h).takeBars h

/-- The core's resources are free once the context is saved (R295 step 5, R390 steps 5 and 6); the hart goes to the resume
list, or its fault record is posted. -/
def State.vacate (s : State) (record : Option FaultRecord) : State :=
  let h := s.cur
  let s := s.giveBack
  match record with
  | some r =>
    let s := { s with cur := { h with place := .parked (r.flags.getLsbD 1), held := 0 } }
    (s.onPart h.part fun p => { p with posting := p.posting ++ [r] }).leaveBuffer h.launch h.group
  | none => (({ s with cur := { h with place := .saved, held := 0 } }).enlist h).leaveBuffer h.launch h.group

/-- The executing hart leaves its core (R295 steps 3 to 5, R390 steps 3 to 6): it parks with the record it came with, or with
one of cause 0x0D when the release or the context save meets an uncorrectable error (R171, R389). -/
def State.leaveCore (s : State) (resume : Word) (record : Option FaultRecord) : State :=
  match s.leavingError with
  | none => (s.saveContext resume).vacate record
  | some tval =>
    let damaged := s.cur.saveMeetsError
    let s := s.onCur (Hart.leavesInError resume tval)
    (s.saveContext resume).vacate (some (s.faultRecord s.cur 0x0D damaged))

/-- Stop the lead and leave the core, at once or when the hart's commands are complete (R256). -/
def State.beginLeave (s : State) (resume : Word) (record : Option FaultRecord) : State :=
  let s := s.onCur Hart.stopLead
  if s.pendingCmds s.cur.uid then s.onCur fun h => { h with wait := .leaving resume record }
  else s.leaveCore resume record

/-! Taking an exception -/

/-- What every trap writes (R381). -/
def Hart.trapRegisters (h : Hart) (t : Trap) : Hart :=
  { h with epc := h.pc, tcause := t.cause, tval := t.tval, tidx := t.tidx }

/-- Does the trap park the hart (R381)? -/
def Hart.parksOn (h : Hart) (t : Trap) : Bool :=
  !h.status.sup || h.tvec == 0 || t.cause == 0x0D || t.parks

/-- The vectored entry of R381 and R388, after the trap registers. What an instruction that has issued keeps waits for the
return to it (R223); nothing of it serves the handler. DESIGN CHOICE (notes/assumptions/28.md): an entry taken before the
first instruction after resumption retires cancels the re-fork of R240, and the lead stays stopped until `tret`. -/
def Hart.vectorEntry (h : Hart) : Hart :=
  { (h.leavesFor h.pc).stopLead with
    status := { h.status with pie := h.status.ie, pprv := h.status.sup, ie := false, sup := true }
    pc := h.tvec &&& ~~~3
    links := []
    heldProgress := if h.heldProgress.addr.isNone then h.progress else h.heldProgress
    progress := if h.heldProgress.addr.isNone then {} else h.progress
    wait := .awake
    midway := false
    resumed := false
    refork := false
    tide := { h.tide with ready := false } }

/-- A hart whose instruction trapped does not wait, and keeps nothing that the instruction captured (R201, R381) but what
R112 keeps. -/
def Hart.giveUp (keeps : Bool) (h : Hart) : Hart := { if keeps then h else h.forget h.pc with wait := .awake }

/-- Taking an exception (R381): the executing hart vectors or parks. -/
def State.takeTrap (s : State) (t : Trap) : State :=
  let h := s.cur.trapRegisters t
  if s.cur.parksOn t then
    (s.onCur fun _ => h.giveUp t.keeps).beginLeave (if t.after then h.pc + 4 else h.pc)
      (some (s.faultRecord h t.cause false))
  else s.onCur fun _ => (h.giveUp t.keeps).vectorEntry

/-- The return from an exception (R386, R388), its target known to be aligned. A return to user mode at another address leaves
what interrupted instructions kept unused (R223, R234, R394). -/
def Hart.trapReturn (h : Hart) : Hart :=
  let t := h.epc
  let moves := h.progress.addr.isNone && h.heldProgress.addr == some t
  { h with
    status := { h.status with ie := h.status.pie, sup := h.status.pprv }
    progress := if moves then h.heldProgress else if h.progress.addr == some t then h.progress else {}
    heldProgress :=
      if moves || (!h.status.pprv && h.heldProgress.addr != some t) then {} else h.heldProgress
    captured := if h.status.pprv then h.captured else h.captured.filter fun c => c.pc == t
    syncArrived := if h.status.pprv then h.syncArrived else h.syncArrived.filter fun a => a.1 == t }

/-! Meanings -/

/-- An outcome that is always a next state. -/
abbrev Result := Host.Outcome State Fault Refusal

/-- An instruction that is restarted whole (R112, R125): a trap keeps what it captured at its first issue. -/
def restartable (cap : Captured) (m : M Unit) : M Unit := fun s =>
  match m s with
  | .ok a s' => .ok a s'
  | .error t s' => if t.stalls then .error t s' else .error { t with keeps := true } (s'.onCur (Hart.hold cap))

/-- A meaning from a computation: a trap is taken (R381); an instruction that does not begin yet changes nothing. -/
def finish (m : M Unit) (s : State) : Result :=
  match m s with
  | .ok _ s' => .next s'
  | .error t s' => if t.stalls then .next s else .next (s'.takeTrap t)

/-- The instruction does not begin yet. -/
def stall {α : Type} : M α := throw { cause := 0, stalls := true }

/-- Trap with a cause, `tval` and `tidx` (R39). -/
def trap {α : Type} (cause : BitVec 8) (tval : Word := 0) (tidx : Nat := 0) : M α :=
  throw { cause := cause, tval := tval, tidx := BitVec.ofNat 12 tidx }

/-- Trap when a condition fails. -/
def need (ok : Bool) (cause : BitVec 8) (tval : Word := 0) (tidx : Nat := 0) : M Unit :=
  if ok then pure () else trap cause tval tidx

/-- The executing hart. -/
def curHart : M Hart := do return (← get).cur

/-- Change the executing hart. -/
def modCur (f : Hart → Hart) : M Unit := modify fun s => s.onCur f

/-- The instruction completes. -/
def retireM : M Unit := modify State.retire

/-- Draw a choice. -/
def drawM : M Nat := do
  let s ← get
  set s.draw.2
  return s.draw.1

/-- `xlate` of R40; a failure traps with `tval` the address. -/
def xlateM (a : Agent) (k : Kind) (va : Word) (tidx : Nat := 0) : M Phys := do
  let s ← get
  match s.xlate a k va with
  | (.ok p, s') => set s'; return p
  | (.error c, s') => set s'; trap c va tidx

/-- A release or a fence waits for the hart's remote writes, for `fence.sv` its scalar ones (R196); one that was not acknowledged
in time faults it (R400). -/
def awaitWrites (all : Bool) (tidx : Nat) : M Unit := do
  let awaited (w : Word × Bool) : Bool := all || w.2
  match (← curHart).lostWrites.find? awaited with
  | some w =>
    modCur fun h => { h with lostWrites := h.lostWrites.erase w }
    trap 0x0D w.1 tidx
  | none => modCur fun h => { h with unacked := h.unacked.filter fun w => !awaited w }

/-- The hart has released: what it wrote before may be known wherever an acquire of its own synchronises (R197). -/
def Hart.released (h : Hart) : Hart := { h with early := h.early.map fun (e : EarlyStore) => { e with seen := true } }

/-- `release(scope)` by the executing hart (R195); hart scope needs no write-back. An error in a write-back traps (R171). At every
scope it waits for the acknowledgements of remote writes (R400; notes/assumptions/38.md). -/
def releaseM (scope : Nat) (tidx : Nat := 0) : M Unit := do
  awaitWrites true tidx
  let s ← get
  if s.releases s.cur.core scope then
    match s.unsendable (s.cacheOf s.cur.core) with
    | x :: _ => trap 0x0D (BitVec.ofNat 64 x.addr) tidx
    | [] => pure ()
  modify fun s => (s.releaseBy s.cur.core scope).onCur Hart.released

/-- The executing hart's core writes back its copy of a sector and drops it (R172, R182). An error in it traps (R171). -/
def sendOwn (pa : Nat) (va : Word) (tidx : Nat := 0) : M Unit := do
  let s ← get
  if (s.unsendable (s.cacheOf s.cur.core)).any fun x => x.addr == sectorOf pa then trap 0x0D va tidx
  modify fun s => s.writeBackDrop s.cur.core pa

/-- Nothing of a sector stays in the L1 of the executing hart's core: before an access to an uncached page, which does not look
there (R306), the L1 has evicted it of its own accord, as it may at any time, so that the access is ordered with the hart's older
ones (R190; notes/assumptions/10.md). No instruction forces this write-back, and nothing faults. -/
def State.passL1 (s : State) (p : Phys) : State := if p.attr = .uncached then s.writeBackDrop s.cur.core p.pa else s

/-- Before an access at the home: as `sendOwn`, for an uncached page as `State.passL1`, and the visitor copy is dropped (R176). -/
def sendBack (p : Phys) (va : Word) (tidx : Nat := 0) : M Unit := do
  if p.attr = .uncached then modify fun s => s.passL1 p else sendOwn p.pa va tidx
  modify fun s => s.visitorDrop p.pa

/-- `acquire(scope)` by the executing hart (R195). A vector read may still be performed before an older scalar write (R191),
but not before the acquire: it still is where nobody else may know of the write or of its granule's younger values
(notes/assumptions/10.md). -/
def State.acquire (s : State) (scope : Nat) : State :=
  (s.acquireBy s.cur.core scope).onCur fun h => { h with early := h.early.filter fun e => !e.seen }

/-- `State.acquire` as a computation. -/
def acquireM (scope : Nat) : M Unit := modify fun s => s.acquire scope

/-- The bytes of an entry's granule that an access touches. -/
def EarlyStore.touched (e : EarlyStore) (pa n : Nat) : BitVec 8 :=
  BitVec.ofNat 8 (((upTo 8).filter fun i => decide (pa ≤ e.addr / 8 * 8 + i) && decide (e.addr / 8 * 8 + i < pa + n)).foldl
    (fun m i => m + 2 ^ i) 0)

/-- Close the bytes of an access; an entry with nothing open is dropped. -/
def closeEarly (pa n : Nat) (es : List EarlyStore) : List EarlyStore :=
  (es.map fun (e : EarlyStore) => { e with closed := e.closed ||| e.touched pa n }).filter fun e => e.closed != BitVec.allOnes 8

/-- The hart has read or written `n` bytes as they stand: no younger vector read returns an older value of them (R190,
R191). -/
def Hart.settle (pa n : Nat) (h : Hart) : Hart := { h with early := closeEarly pa n h.early }

/-- Note a scalar write of `n` bytes with its granule before and after, which a relaxed vector load may still be performed
before (R191); newest first. `stale` says that the granule has younger values than the hart had seen. -/
def Hart.noteEarly (pa n : Nat) (old new : List Byte) (stale : Bool) (h : Hart) : Hart :=
  { h with early := { addr := pa, len := n, old := old, new := new, seen := stale } :: h.early }

/-- The hart's write to a remote address waits for its acknowledgement (R400). -/
def Hart.awaits (remote scalar : Bool) (va : Word) (h : Hart) : Hart :=
  if remote then { h with unacked := (va, scalar) :: h.unacked } else h

/-- Read `n` bytes at a translated address, as the executing hart's core does (R171, R389). A vector load that does not
allocate takes nothing clean from a sector with dirty bytes (R173). A read of an uncached page goes to the home (R306). -/
def readPhys (p : Phys) (n : Nat) (mode : ReadMode) (alloc : Bool) (va : Word) (tidx : Nat := 0) : M (List Byte) := do
  modify fun s => s.passL1 p
  let s ← get
  let core := s.cur.core
  let dirty := (s.l1Find (s.cacheOf core) p.pa).any fun x => x.dirty != 0
  let mode := p.attr.mode (if mode = .plain && !alloc && dirty then .behind else mode)
  if s.badByte core mode p.pa n || s.cur.undelivers p.pa n then trap 0x0D va tidx
  let bs := s.readBytes core mode p.pa n
  let served := s.served1 core mode p.pa n
  set (((s.afterRead core p.attr served alloc p.pa).countRead core s.cur.part p.attr served p.pa n).seenByRest p.pa n)
  return bs

/-- `mem.read` of R40 for a scalar access of the executing hart. -/
def memRead (va : Word) (n : Nat) (mode : ReadMode) : M Nat := do
  let h ← curHart
  let p ← xlateM (h.agent h.cw) .read va
  if mode = .home then sendBack p va
  let bs ← readPhys p n mode true va
  modCur (Hart.settle p.pa n)
  return leNat bs

/-- A write at a translated address, of a scalar or vector instruction: through the L1, or at the home, the core's dirty bytes of
the sector first (R171, R194). -/
def storePhys (p : Phys) (bs : List Byte) (home scalar : Bool) (va : Word) (tidx : Nat := 0) : M Unit := do
  let s ← get
  let core := s.cur.core
  if home || s.goesHome core p.attr p.pa then
    sendBack p va tidx
    modify fun s => s.storeHome core p.attr p.pa bs
    modCur (Hart.awaits (s.isRemote p.pa) scalar va)
  else
    let held := (s.l1Find (s.cacheOf core) p.pa).isSome
    modify fun s => { ((s.l1Write (s.cacheOf core) p.pa bs).countStore core s.cur.part held).seenByRest p.pa bs.length with
      spoiled := s.disturbed p.pa bs.length ++ s.spoiled }

/-- The aligned 8 bytes around an address as the executing hart's core reads them: of an uncached page, those at the home with the
core's own dirty bytes (R190, R191). -/
def State.granuleView (s : State) (p : Phys) : List Byte :=
  s.readBytes s.cur.core (if p.attr = .uncached then .fresh else p.attr.mode .plain) (p.pa / 8 * 8) 8

/-- Have the homes younger values of the aligned 8 bytes around an address than clean copies that the core would read? -/
def State.granuleStale (s : State) (p : Phys) : Bool :=
  s.granuleView p != s.readBytes s.cur.core (if p.attr = .window then .home else .fresh) (p.pa / 8 * 8) 8

/-- The executing hart's scalar write is done: note it (R191), with the granule as it was in a state before it. -/
def State.noteWrite (p : Phys) (n : Nat) (before s : State) : State :=
  s.onCur (Hart.noteEarly p.pa n (before.granuleView p) (s.granuleView p) (before.granuleStale p))

/-- A scalar write at a translated address. -/
def writePhys (p : Phys) (bs : List Byte) (home : Bool) (va : Word) : M Unit := do
  let s ← get
  storePhys p bs home true va
  modify (State.noteWrite p bs.length s)

/-- The read and write of one atomic at a translated address (R172, R185): `f` gives the bytes to write, if any, from the
old value, which is returned. -/
def atomicPhys (p : Phys) (n : Nat) (f : Nat → Option Nat) (va : Word) (tidx : Nat := 0) : M Nat := do
  let h ← curHart
  sendBack p va tidx
  let old := leNat (← readPhys p n .home false va tidx)
  match f old with
  | some v => modify fun s => s.storeHome h.core p.attr p.pa (leBytes n v)
  | none => pure ()
  return old

/-- A scalar atomic at a translated address: a read and, where `f` gives a value, a write of the hart (R190, R191). -/
def scalarAtomic (p : Phys) (n : Nat) (f : Nat → Option Nat) (va : Word) : M Nat := do
  let s ← get
  let old ← atomicPhys p n f va
  modCur (Hart.settle p.pa n)
  if (f old).isSome then modify (State.noteWrite p n s)
  return old

/-- The part's own read of memory for an instruction, not checked against windows, at the home (R335, R311). -/
def ownRead (va : Word) (n : Nat) : M Nat := do
  let h ← curHart
  let p ← xlateM (h.agent h.cw) .ownRead va
  sendBack p va
  return leNat (← readPhys p n .home false va)

/-- Draw a ticket (R194, R353). -/
def ticketM : M Unit := modify fun s => { s with seq := s.seq + 1 }

end Sys2Proof.Machine
end

