-- ==== Sys2Proof/Machine/Sys.lean ====
section
/-! DEFINITION. The SYS instructions, traps of the fetch, interrupts and the fault queue (21_traps.md). -/

namespace Sys2Proof.Machine

/-- An event of a named hart: with that hart in front; a hart that does not exist has no events. -/
def State.eventOn (s : State) (uid : Nat) (f : State → Result) : Result :=
  match s.focus uid with
  | some s' => f s'
  | none => .fault .noSuchAgent

/-- An answer of a port or of the Lighthouse. -/
def State.reply (s : State) (r : Reply) : State := { s with replies := s.replies ++ [r] }

/-- What a management message does (R401): before the ports are open none arrives, and in quarantine only those marked Q are
accepted (R429). -/
def State.answered (s : State) (q : Bool) (f : State → State) : State :=
  match s.lighthouse.phase with
  | .bringUp => s
  | .quarantine => if q then f s else s.reply (.status 0x05)
  | .running => f s

/-- A management message as a step. -/
def State.manage (s : State) (q : Bool) (f : State → State) : Result := .next (s.answered q f)

/-- `trap imm` (R385). -/
def execTrap (i : BitVec 12) (s : State) : Result :=
  .next (s.takeTrap { cause := 0x10, tval := i.setWidth 64, after := true })

/-- `halt` (R385, R381): as `trap`, and it always parks. -/
def execHalt (s : State) : Result :=
  .next (s.takeTrap { cause := 0x10, tval := 0xFFFFFFFFFFFFFFFF, after := true, parks := true })

/-- `tret` (R386, R388, R240). The next instruction is the resumed one (R223). -/
def execTret (s : State) : Result :=
  if !s.cur.status.sup then .next (s.takeTrap { cause := 0x11 })
  else if s.cur.epc.toNat % 4 ≠ 0 then .next (s.takeTrap { cause := 0x03, tval := s.cur.epc })
  else .next (((s.onCur fun h => { h.trapReturn with refork := true }).retireTo s.cur.epc).onCur fun h =>
    { h with resumed := true })

/-- `wfi` (R387). -/
def execWfi (s : State) : Result :=
  if !s.cur.status.sup then .next (s.takeTrap { cause := 0x11 })
  else if s.cur.irq then .next s.retire
  else .next (s.onCur fun h => { h with wait := .wfi })

/-- A sleeping `wfi` returns once the interrupt bit is pending (R387). -/
def execWfiWake (hart : Nat) (s : State) : Result :=
  s.eventOn hart fun s => if s.cur.wait = .wfi && s.cur.irq then .next s.retire else .next s

/-- A word that is not an instruction (R29, R30). -/
def execNotAnInstruction (word : BitVec 32) (s : State) : Result :=
  .next (s.takeTrap { cause := 0x01, tval := word.setWidth 64 })

/-- A fetch that fails (R22). The instruction has not issued again, so what it keeps from an earlier issue stays (R201). -/
def execFetchFault (cause : BitVec 8) (addr : BitVec 64) (s : State) : Result :=
  .next (s.takeTrap { cause := cause, tval := addr, keeps := true })

/-- The bytes of a fault record (R392). -/
def FaultRecord.bytes (r : FaultRecord) : List Byte :=
  leBytes 8 r.handle ++ leBytes 8 r.epc.toNat ++ leBytes 8 r.tval.toNat ++ leBytes 2 r.tidx.toNat ++
  leBytes 1 r.cause.toNat ++ leBytes 1 r.flags.toNat ++ leBytes 4 r.hid.toNat ++ leBytes 8 r.stamp.toNat ++
  leBytes 8 r.done.toNat ++ fill 16 0

/-- A field of the fault queue's header (R391), read at its home. -/
def State.queueField (s : State) (p : Partition) (off n : Nat) : Nat := leNat (s.homeRead (p.faultQueue + off) n)

/-- Does the posting interrupt the hart (R383)? -/
def Hart.heedsPosting (h : Hart) (part : Nat) : Bool :=
  h.place != .absent && h.part == part && h.status.sup && h.tvec != 0

/-- Post the oldest waiting record of a partition once the queue has room (R392), and set the interrupt bits (R383). -/
def execFaultPosting (part : Nat) (s : State) : Result :=
  match s.part? part with
  | none => .fault .noSuchAgent
  | some p =>
    match p.posting with
    | [] => .next s
    | r :: rest =>
      let tail := s.queueField p 0x18 8
      let cap := s.queueField p 0x08 4
      if cap ≤ wrap 64 (tail - s.queueField p 0x10 8 : Int) then .next s
      else
        let s := s.homeWrite (s.queueField p 0 8 + 64 * (tail % cap)) r.bytes
        let s := s.homeWrite (p.faultQueue + 0x18) (leBytes 8 (tail + 1))
        let s := s.onPart part fun q => { q with posting := rest }
        .next (s.mapHarts fun h => if h.heedsPosting part then { h with irq := true } else h)

/-- The hart takes the interrupt of R383 at an instruction boundary: a vectoring entry with cause 0x80, the queue's tail in
`tval` and the next instruction's address in `epc`. -/
def execFaultPostedInterrupt (hart : Nat) (s : State) : Result :=
  s.eventOn hart fun s =>
    let h := s.cur
    if !(h.irq && h.status.ie && h.isResident && h.wait = .awake && !h.midway) then .next s
    else
      let tail := match s.part? h.part with
        | some p => s.queueField p 0x18 8
        | none => 0
      let h := h.trapRegisters { cause := 0x80, tval := BitVec.ofNat 64 tail }
      .next (s.onCur fun _ => { h.vectorEntry with irq := false })

end Sys2Proof.Machine
end

