-- ==== Sys2Proof/Machine/Barrier.lean ====
section
/-! DEFINITION. Barrier slots and signal words (19_counters.md, R354-R363). -/

namespace Sys2Proof.Machine

/-- A barrier slot of a launch. -/
def Launch.bar (l : Launch) (i : BitVec 4) : BarSlot := l.bars[i.toNat]

/-- The instance of a slot with a key; one that has not been touched is all zero (R354). -/
def BarSlot.inst (b : BarSlot) (key : Nat) : BarInst := (b.insts.find? fun x => x.key == key).getD { key := key }

/-- A slot with an instance replaced. -/
def BarSlot.put (b : BarSlot) (x : BarInst) : BarSlot :=
  { b with insts := x :: b.insts.filter fun y => y.key != x.key }

/-- The slot that a hart acts on, and its instance. -/
def State.barOf (s : State) (h : Hart) (i : BitVec 4) : BarSlot × BarInst :=
  match s.launch? h.launch with
  | some l => (l.bar i, (l.bar i).inst (instanceKey (l.bar i).scope h.hid))
  | none => ({}, { key := 0 })

/-- Write a slot of the hart's launch. -/
def State.setBar (s : State) (launch : Nat) (i : BitVec 4) (b : BarSlot) : State :=
  s.onLaunch launch fun l => { l with bars := l.bars.set i.toNat b }

/-- The hart's state for a slot as it acts on an instance: bits of another initialisation read as 0 (R355). -/
def Hart.barState (h : Hart) (i : BitVec 4) (x : BarInst) : HartBar :=
  let b := h.bars[i.toNat]
  if b.init = x.init then b else { b with init := x.init, pending := false, member := false, dropped := false }

/-- Write the hart's state for a slot. -/
def Hart.setBarState (h : Hart) (i : BitVec 4) (b : HartBar) : Hart := { h with bars := h.bars.set i.toNat b }

/-- A hart's cluster within the package (R361). -/
def Hart.clusterNo (h : Hart) : Nat := h.hid.toNat / 32 % 64

/-- A wait on a barrier returns (R357): pending is cleared, then the acquire at the slot's scope. -/
def State.barReturn (s : State) (i : BitVec 4) : State :=
  let (b, x) := s.barOf s.cur i
  let s := s.onCur fun h => h.setBarState i { h.barState i x with pending := false }
  (s.acquire b.scope.toNat).retire

/-- Does a hart that slept as a package-scope phase ended still wait for its group to wake (R361)? -/
def BarSlot.staggers (b : BarSlot) (h : Hart) (i : BitVec 4) : Bool :=
  b.insts.any fun x => x.groups.any fun w => w.sleepers.contains h.uid && w.phase == h.bars[i.toNat].phase

/-- Does a sleeping hart wait on this instance, its phase over (R357)? One that waits for its exit group does not (R361). -/
def State.barReady (s : State) (h : Hart) (launch : Nat) (i : BitVec 4) (key : Nat) : Bool :=
  h.launch == launch && h.isResident && h.wait == .barrier i && !(s.barOf h i).1.staggers h i &&
    (s.barOf h i).2.key == key && (s.barOf h i).2.p != (h.barState i (s.barOf h i).2).phase

/-- Let harts act in turn; the hart in front stays there. -/
def State.inTurn (s : State) (us : List Nat) (f : State → State) : State :=
  let front := s.cur.uid
  let s := us.foldl (fun s u => match s.focus u with
    | some t => f t
    | none => s) s
  (s.focus front).getD s

/-- The sleepers of an instance whose phase is over. -/
def State.readySleepers (s : State) (launch : Nat) (i : BitVec 4) (key : Nat) : List Hart :=
  s.harts.filter fun h => s.barReady h launch i key

/-- The exit groups of a package-scope phase that ends now (R361), by the spacing and group of a captured `bxstag`, with their
sleepers. -/
def State.exitGroups (s : State) (bx : BitVec 10 × BitVec 6) (phase : BitVec 32) (asleep : List Hart) : List GroupWake :=
  let size := bx.2.toNat + 1
  (upTo (ceilDiv 64 size)).map fun g =>
    { phase := phase, size := size, group := g, time := s.shore.toNat + bx.1.toNat * g
      sleepers := (asleep.filter fun h => h.clusterNo / size == g).map (·.uid) }

/-- `check(I)` of R357 for an instance of a launch's slot: a phase that is complete ends, and its sleepers wake, by cluster groups
at package scope (R361), else at once. -/
def State.endPhase (s : State) (bx : BitVec 10 × BitVec 6) (launch : Nat) (i : BitVec 4) (b : BarSlot) (x : BarInst) : State :=
  if x.e = 0 || x.a < x.e then s
  else
    let x' := { x with p := x.p + 1, a := 0, e := x.e - x.d, d := 0, due := none }
    let s := s.setBar launch i (b.put x')
    let asleep := s.readySleepers launch i x.key
    if b.scope = 4 then s.setBar launch i (b.put { x' with groups := x.groups ++ s.exitGroups bx x.p asleep })
    else s.inTurn (asleep.map (·.uid)) fun s => s.barReturn i

/-- The one check of an instance for the operations of this cycle on it (R358). -/
def State.checkInst (launch : Nat) (i : BitVec 4) (key : Nat) (s : State) : State :=
  match s.launch? launch with
  | none => s
  | some l =>
    let x := (l.bar i).inst key
    match x.due with
    | none => s
    | some bx =>
      let b := (l.bar i).put { x with due := none }
      (s.setBar launch i b).endPhase bx launch i b { x with due := none }

/-- The checks that end a cycle (R358): every drop and every arrival of it has been applied. -/
def State.checkBars (s : State) : State :=
  s.launches.foldl (fun s l => (upTo 16).foldl (fun s n =>
    let i := BitVec.ofNat 4 n
    ((l.bar i).insts.filter fun x => x.due.isSome).foldl (fun s x => s.checkInst l.uid i x.key) s) s) s

/-- Is the phase of an instance complete, but for the check (R357)? -/
def BarInst.complete (x : BarInst) : Bool := x.e != 0 && decide (x.e ≤ x.a)

/-- An instance after an arrival or a drop: the check follows at the end of the cycle (R358), and the hart whose operation completes
the phase supplies the `bxstag` fields that it captured (R361). -/
def BarInst.checkDue (before after : BarInst) (cap : Captured) : BarInst :=
  { after with due := if before.due.isSome && before.complete then before.due else some (cap.bxSpacing, cap.bxGroup) }

/-- The arrival of R357; its check comes at the end of the cycle (R358). It is applied before any younger access, so no vector
read is performed before an older write that its release covers (R414, R195). -/
def arrive (i : BitVec 4) : M Unit := do
  let s ← get
  let tval : Word := i.setWidth 64
  let (b, x) := s.barOf s.cur i
  let h := s.cur.barState i x
  need (x.e != 0 && !h.dropped) 0x0A tval
  need (!(h.pending && h.phase == x.p)) 0x0A tval
  releaseM b.scope.toNat
  modCur fun h => { h with early := [] }
  modify fun s => s.setBar s.cur.launch i
    (b.put (x.checkDue { x with a := x.a + 1, arrivedAt := some s.cycle } (s.issue [])))
  modCur fun c => c.setBarState i { h with phase := x.p, pending := true, member := true }

/-- A hart goes to sleep in the wait of R357; `sync` holds the `bxstag` that a `bar.sync` captured (R201) and records that its
arrival is made (R393). -/
def Hart.sleepBar (i : BitVec 4) (sync : Option Captured) (h : Hart) : Hart :=
  match sync with
  | some cap => { (h.forget h.pc).hold cap with wait := .barrier i, syncArrived := (h.pc, i) :: (h.forget h.pc).syncArrived }
  | none => { h with wait := .barrier i }

/-- The wait of R357: it returns, or the hart sleeps. -/
def barWait (i : BitVec 4) (sync : Option Captured) : M Unit := do
  let s ← get
  let (b, x) := s.barOf s.cur i
  let h := s.cur.barState i x
  if !h.pending then
    acquireM b.scope.toNat
    retireM
  else if x.p = h.phase then
    modCur (Hart.sleepBar i sync)
  else modify fun s => s.barReturn i

/-- `barinit` (R357). It does not follow an arrival or a drop within one cycle (R358): it waits for the next. -/
def execBarinit (k : BitVec 3) (a : BitVec 5) (i : BitVec 4) (s : State) : Result :=
  finish (do
    let count := s.x a
    let (b, x) := s.barOf s.cur i
    need (k != 5 && count != 0 && decide (count.toNat ≤ 2048)) 0x0A count
    need (k == b.scope || b.insts.all fun y => y.key == x.key || y.e == 0) 0x0A count
    if x.arrivedAt = some s.cycle || x.droppedAt = some s.cycle then stall
    need (x.e == 0 || (x.a == 0 && x.d == 0)) 0x0A count
    let key := instanceKey k s.cur.hid
    let others := b.insts.filter fun y => y.key == key && y.key != x.key
    let x' : BarInst := { x with
      key := key, e := count.setWidth 32, a := 0, d := 0, init := x.init + 1
      groups := x.groups ++ others.flatMap (·.groups) }
    let b' := { b with scope := k, insts := b.insts.filter fun y => y.key != x.key }
    modify fun s => s.setBar s.cur.launch i (b'.put x')
    retireM) s

/-- `bar.arrive` (R357). -/
def execBarArrive (i : BitVec 4) (s : State) : Result :=
  finish (do
    arrive i
    retireM) s

/-- `bar.wait` (R357). -/
def execBarWait (i : BitVec 4) (s : State) : Result := finish (barWait i none) s

/-- `bar.sync` (R357): a resumed one whose arrival is made performs the wait part alone. -/
def execBarSync (i : BitVec 4) (s : State) : Result :=
  finish (do
    let cap := s.issue []
    if s.cur.arrivedHere != some i then arrive i
    barWait i (some cap)) s

/-- A drop of the executing hart (R357); its check comes at the end of the cycle (R358). -/
def State.drop (s : State) (i : BitVec 4) : State :=
  let (b, x) := s.barOf s.cur i
  let h := s.cur.barState i x
  let x' := if h.pending && h.phase == x.p then { x with d := x.d + 1 } else { x with e := x.e - 1 }
  let dropped := x.checkDue { x' with droppedAt := some s.cycle } (s.issue [])
  (s.setBar s.cur.launch i (b.put dropped)).onCur fun c => c.setBarState i { h with dropped := true }

/-- `bar.drop` (R357). It does not follow an arrival within one cycle (R358): it waits for the next. -/
def execBarDrop (i : BitVec 4) (s : State) : Result :=
  finish (do
    let (_, x) := s.barOf s.cur i
    if x.arrivedAt = some s.cycle then stall
    need (x.e != 0 && !(s.cur.barState i x).dropped) 0x0A (i.setWidth 64)
    modify fun s => s.drop i
    retireM) s

/-- Does `exit` drop the hart from its instance of a slot (R357)? -/
def State.exitDrops (s : State) (i : BitVec 4) : Bool :=
  let x := (s.barOf s.cur i).2
  let h := s.cur.barState i x
  x.e != 0 && h.member && !h.dropped

/-- The drops that `exit` makes (R357, R282). -/
def State.dropAll (s : State) : State :=
  (upTo 16).foldl (fun s n => if s.exitDrops (BitVec.ofNat 4 n) then s.drop (BitVec.ofNat 4 n) else s) s

/-- Would a drop of `exit` follow an arrival within one cycle (R358)? -/
def State.dropsLate (s : State) : Bool :=
  (upTo 16).any fun n => s.exitDrops (BitVec.ofNat 4 n) && (s.barOf s.cur (BitVec.ofNat 4 n)).2.arrivedAt == some s.cycle

/-- The wait of a hart that slept as a package-scope phase ended returns (R357, R361), whatever the slot is now. -/
def State.groupReturn (i : BitVec 4) (phase : BitVec 32) (s : State) : State :=
  let b := s.cur.bars[i.toNat]
  if s.cur.wait == .barrier i && b.phase == phase then
    ((s.onCur fun h => h.setBarState i { b with pending := false }).acquire 4).retire
  else s

/-- A cluster group of sleepers wakes (R361). -/
def execBarrierGroupWake (launch : Nat) (slot : BitVec 4) (group : Nat) (s : State) : Result :=
  match s.launch? launch with
  | none => .fault .noSuchAgent
  | some l =>
    let due (w : GroupWake) : Bool := w.group == group && decide (w.time ≤ s.shore.toNat)
    let b := l.bar slot
    let rung := b.insts.flatMap fun x => x.groups.filter due
    let b' := { b with insts := b.insts.map fun x => { x with groups := x.groups.filter fun w => !due w } }
    let s := s.setBar launch slot b'
    .next (rung.foldl (fun s w => s.inTurn w.sleepers (State.groupReturn slot w.phase)) s)

/-- `sigadd` (R363). -/
def execSigadd (a b : BitVec 5) (k : BitVec 3) (s : State) : Result :=
  finish (do
    let va := s.x a
    need (va.toNat % 8 == 0) 0x03 va
    let p ← xlateM (s.cur.agent s.cur.cw) .atomic va
    releaseM k.toNat
    let _ ← scalarAtomic p 8 (fun old => some ((old + (s.x b).toNat) % 2 ^ 64)) va
    retireM) s

end Sys2Proof.Machine
end

