-- ==== Sys2Proof/Machine/Cache.lean ====
section
/-! DEFINITION. The CACHE instructions (10_memories.md, R178-R184; R312, R313). -/

namespace Sys2Proof.Machine

/-! Ranges -/

/-- Is the address in the tile-buffer window (R169)? The reserved addresses above it are not. -/
def inWindow (va : Word) : Bool := decide (tileWindow ≤ va.toNat) && decide (va.toNat < tileWindow + 0x180000)

/-- The first address of each 64 KiB page of a range (R302), the range's own first address for the first page. -/
def pageStarts (va len : Nat) : List Nat :=
  (upTo ((va + len - 1) / 65536 - va / 65536 + 1)).map fun i => if i = 0 then va else (va / 65536 + i) * 65536

/-- Translate every page of a range before anything is done (R179); pages of the window are skipped. DESIGN CHOICE
(notes/assumptions/20.md): in ascending order up to the first that fails, so that R308's updates are made for no page above it. -/
def translatePages (a : Agent) (k : Kind) : List Nat → M (List (Nat × Phys))
  | [] => return []
  | va :: rest => do
    if inWindow (BitVec.ofNat 64 va) && decide (va < 2 ^ 64) then translatePages a k rest
    else
      let p ← xlateM a k (BitVec.ofNat 64 va)
      return (va / 65536 * 65536, { p with pa := p.pa - va % 65536 }) :: (← translatePages a k rest)

/-- The sectors of a range that lie on translated pages, as virtual and physical address (R179): every sector touched, or
only those wholly inside. -/
def rangeSectors (va len : Nat) (whole : Bool) (pages : List (Nat × Phys)) : List (Nat × Nat) :=
  let first := if whole then ceilDiv va 64 else va / 64
  let last := if whole then (va + len) / 64 else ceilDiv (va + len) 64
  ((upTo (last - first)).map fun i => (first + i) * 64).filterMap fun a =>
    (pages.find? fun p => p.1 == a / 65536 * 65536).map fun p => (a, p.2.pa + a % 65536)

/-- The pages of a range that lie in the tile-buffer window, where the launch has an allocation (R169, R179). -/
def State.windowPages (s : State) (starts : List Nat) : List (Nat × Phys) :=
  starts.filterMap fun v =>
    let page := v / 65536 * 65536
    if inWindow (BitVec.ofNat 64 page) && decide (page < 2 ^ 64) then
      match s.xlateWindow (s.cur.agent s.cur.cw) .read (page - tileWindow) with
      | .ok p => some (page, p)
      | .error _ => none
    else none

/-- Older and younger accesses of the hart to the bytes of a range on pages are ordered with a CACHE instruction
(R179). -/
def Hart.settleRange (va len : Nat) (pages : List (Nat × Phys)) (h : Hart) : Hart :=
  pages.foldl (fun h p =>
    let lo := max va p.1
    h.settle (p.2.pa + (lo - p.1)) (min (va + len) (p.1 + 65536) - lo)) h

/-- `flush`, `discard` and `inv` (R179): length check, translation of the range, then the action on each sector. -/
def rangeOp (a b : BitVec 5) (k : Kind) (whole : Bool) (act : Nat → Nat → M Unit) : M Unit := do
  let s ← get
  let va := (s.x a).toNat
  let len := (s.x b).toNat
  if len ≠ 0 then
    need (decide (len ≤ 0x1000000)) 0x03 (s.x b)
    let pages ← translatePages (s.cur.agent s.cur.cw) k (pageStarts va len)
    modCur (Hart.settleRange va len (pages ++ s.windowPages (pageStarts va len)))
    for x in rangeSectors va len whole pages do act x.1 x.2
  retireM

/-! The five instructions -/

/-- `pref` (R180): what it drops, it drops without a trap; it changes no architectural state. -/
def execPref (a : BitVec 5) (k : BitVec 3) (s : State) : Result :=
  let va := s.x a
  match s.peekXlate (s.cur.agent s.cur.cw) .read va with
  | none => .next s.retire
  | some (p, _) =>
    if p.ns || p.attr = .window || inWindow va then .next s.retire
    else if k.toNat ≤ 1 then .next (s.afterLoad s.cur.core p.attr true p.pa).retire
    else if k = 5 && s.isRemote p.pa then .next (s.afterLoad s.cur.core p.attr false p.pa).retire
    else .next s.retire

/-- Write back an L1's dirty bytes of one sector, which stays valid (R181). -/
def State.writeBackAt (s : State) (core pa : Nat) : State :=
  match s.l1Find (s.cacheOf core) pa with
  | some x => s.writeBackSector x
  | none => s

/-- Does the scope reach the home slice of an address (R181, R183)? -/
def State.reachesHome (s : State) (k : BitVec 3) (pa : Nat) : Bool := k = 5 || (decide (3 ≤ k.toNat) && !s.isRemote pa)

/-- `flush` (R181). An uncorrectable error in a written-back sector traps with the sector's address. -/
def execFlush (a b : BitVec 5) (k : BitVec 3) (s : State) : Result :=
  finish (rangeOp a b .read false fun va pa => do
    let s ← get
    need (!(s.unsendable (s.cacheOf s.cur.core)).any fun x => x.addr == pa) 0x0D (BitVec.ofNat 64 va)
    modify fun s => s.writeBackAt s.cur.core pa
    let s ← get
    if s.reachesHome k pa then
      if !(cellsIn s.l2 pa 64).isEmpty then need (!s.badByte s.cur.core .home pa 64) 0x0D (BitVec.ofNat 64 va)
      modify fun s => s.cleanHome pa 64
    if k = 5 then modify fun s => s.visitorDrop pa) s

/-- `discard` (R183): dirty bytes are dropped, in the L1 and as far as the scope reaches at the home. -/
def execDiscard (a b : BitVec 5) (k : BitVec 3) (s : State) : Result :=
  finish (rangeOp a b .write true fun _ pa => do
    modify fun s => s.l1Drop (s.cacheOf s.cur.core) pa
    if (← get).reachesHome k pa then modify fun s => s.discardHome pa 64
    if k = 5 then modify fun s => s.visitorDrop pa) s

/-- `inv` (R182). -/
def execInv (a b : BitVec 5) (s : State) : Result :=
  finish (rangeOp a b .read false fun va pa => sendOwn pa (BitVec.ofNat 64 va)) s

/-! Shootdown -/

/-- The cores that a scope of core `c` covers (R184, R8): the core, its cluster, its stack half, or the package. -/
def coveredCores (c : Nat) (k : BitVec 3) : List Nat :=
  if k.toNat ≤ 1 then [c]
  else if k = 2 then (upTo 4).map (c / 4 * 4 + ·)
  else if k = 3 then (upTo 16).map (c / 16 * 16 + ·)
  else upTo 256

/-- Does a translation cache serve a covered core (R184, R312)? What an `xinv` drops is used by none of them after it (R313), so
it leaves the caches that they share with others too. -/
def TlbHome.covered (cores : List Nat) (h : TlbHome) : Bool :=
  match h with
  | .core n | .sorter n => cores.contains n
  | .cluster n => cores.any fun c => c / 4 == n
  | .die n => cores.any fun c => c / 32 == n

/-- Does a cached entry serve an address (R184): its page, block or table, or another page of the same contiguous run
(R305)? -/
def TlbEntry.serves (e : TlbEntry) (va : Nat) : Bool :=
  let i := va >>> levelShift e.level
  e.index == i || (e.level == 3 && e.entry.getLsbD 10 && e.index / 32 == i / 32)

/-- What an `xinv` does on the cores it covers (R312, R243). -/
def State.shootDown (s : State) (cores : List Nat) (va : Nat) : State :=
  let s := { s with tlb := s.tlb.filter fun e => !(e.home.covered cores && e.serves va) }
  let s := (cores.map s.cacheOf).eraseDups.foldl (fun s c => (s.writeBackAll c).dropClean c) s
  s.mapHarts fun h =>
    if h.isResident && cores.contains h.core && h.leadActive then { h with lead := { h.lead with buffer := [] } } else h

/-- `xinv` (R184, R312): bits 63:55 of the address are ignored. -/
def execXinv (a : BitVec 5) (k : BitVec 3) (s : State) : Result :=
  if !s.cur.status.sup then .next (s.takeTrap { cause := 0x11 })
  else
    let s := s.shootDown (coveredCores s.cur.core k) ((s.x a).toNat % 2 ^ 55)
    .next (s.onCur fun h => { h with early := [] }).retire

end Sys2Proof.Machine
end

