-- ==== Sys2Proof/Machine/Scalar.lean ====
section
/-! DEFINITION. Scalar integer instructions, condition bits, branches and jumps (04_scalar_registers.md). -/

namespace Sys2Proof.Machine

/-- A scalar result: xd is written and the instruction completes (R66, R67). -/
def writeX (d : BitVec 5) (v : Word) (s : State) : Result := .next (s.setX d v).retire

/-- A condition result: cd is written and the instruction completes (R64, R67). -/
def writeC (d : BitVec 3) (v : Bool) (s : State) : Result := .next (s.setC d v).retire

/-- Signed quotient truncated toward zero, saturating (R71). -/
def sdivide (a b : Word) : Word :=
  if b = 0 then
    if 0 < a.toInt then 0x7FFFFFFFFFFFFFFF else if a.toInt < 0 then 0x8000000000000000 else 0
  else if a.toInt = -2 ^ 63 ∧ b.toInt = -1 then 0x7FFFFFFFFFFFFFFF
  else BitVec.ofInt 64 (a.toInt.tdiv b.toInt)

/-- Unsigned quotient (R71). -/
def udivide (a b : Word) : Word :=
  if b = 0 then (if a = 0 then 0 else 0xFFFFFFFFFFFFFFFF) else BitVec.ofNat 64 (a.toNat / b.toNat)

/-- Signed remainder with the sign of the dividend (R71). -/
def sremainder (a b : Word) : Word :=
  if b = 0 then a
  else if a.toInt = -2 ^ 63 ∧ b.toInt = -1 then 0xFFFFFFFFFFFFFFFF
  else BitVec.ofInt 64 (a.toInt - b.toInt * a.toInt.tdiv b.toInt)

/-- Unsigned remainder (R71). -/
def uremainder (a b : Word) : Word :=
  if b = 0 then a else BitVec.ofNat 64 (a.toNat - b.toNat * (a.toNat / b.toNat))

/-- `clz` of R70. -/
def leadingZeros (a : Word) : Word := BitVec.ofNat 64 (64 - bitLen a.toNat)

/-- `ctz` of R70. -/
def trailingZeros (a : Word) : Word := BitVec.ofNat 64 (lowestSet 64 a.toNat)

/-- `add` (R69). -/
def execAdd (d a b : BitVec 5) (s : State) : Result := writeX d (s.x a + s.x b) s

/-- `sub` (R69). -/
def execSub (d a b : BitVec 5) (s : State) : Result := writeX d (s.x a - s.x b) s

/-- `and` (R69). -/
def execAnd (d a b : BitVec 5) (s : State) : Result := writeX d (s.x a &&& s.x b) s

/-- `or` (R69). -/
def execOr (d a b : BitVec 5) (s : State) : Result := writeX d (s.x a ||| s.x b) s

/-- `xor` (R69). -/
def execXor (d a b : BitVec 5) (s : State) : Result := writeX d (s.x a ^^^ s.x b) s

/-- `sll` (R69): the shift is b[5:0]. -/
def execSll (d a b : BitVec 5) (s : State) : Result := writeX d (s.x a <<< ((s.x b).toNat % 64)) s

/-- `srl` (R69). -/
def execSrl (d a b : BitVec 5) (s : State) : Result := writeX d (s.x a >>> ((s.x b).toNat % 64)) s

/-- `sra` (R69). -/
def execSra (d a b : BitVec 5) (s : State) : Result := writeX d ((s.x a).sshiftRight ((s.x b).toNat % 64)) s

/-- `min` (R69), signed. -/
def execMin (d a b : BitVec 5) (s : State) : Result := writeX d (if (s.x a).toInt ≤ (s.x b).toInt then s.x a else s.x b) s

/-- `max` (R69), signed. -/
def execMax (d a b : BitVec 5) (s : State) : Result := writeX d (if (s.x a).toInt ≤ (s.x b).toInt then s.x b else s.x a) s

/-- `minu` (R69), unsigned. -/
def execMinu (d a b : BitVec 5) (s : State) : Result := writeX d (if (s.x a).toNat ≤ (s.x b).toNat then s.x a else s.x b) s

/-- `maxu` (R69), unsigned. -/
def execMaxu (d a b : BitVec 5) (s : State) : Result := writeX d (if (s.x a).toNat ≤ (s.x b).toNat then s.x b else s.x a) s

/-- `mul` (R70). -/
def execMul (d a b : BitVec 5) (s : State) : Result := writeX d (s.x a * s.x b) s

/-- `mulh` (R70): bits 127:64 of the signed product. -/
def execMulh (d a b : BitVec 5) (s : State) : Result := writeX d (BitVec.ofInt 64 ((s.x a).toInt * (s.x b).toInt / 2 ^ 64)) s

/-- `mulhu` (R70). -/
def execMulhu (d a b : BitVec 5) (s : State) : Result := writeX d (BitVec.ofNat 64 ((s.x a).toNat * (s.x b).toNat / 2 ^ 64)) s

/-- `div` (R70, R71). -/
def execDiv (d a b : BitVec 5) (s : State) : Result := writeX d (sdivide (s.x a) (s.x b)) s

/-- `divu` (R70, R71). -/
def execDivu (d a b : BitVec 5) (s : State) : Result := writeX d (udivide (s.x a) (s.x b)) s

/-- `rem` (R70, R71). -/
def execRem (d a b : BitVec 5) (s : State) : Result := writeX d (sremainder (s.x a) (s.x b)) s

/-- `remu` (R70, R71). -/
def execRemu (d a b : BitVec 5) (s : State) : Result := writeX d (uremainder (s.x a) (s.x b)) s

/-- `sel` (R69). -/
def execSel (d a b : BitVec 5) (c : BitVec 3) (s : State) : Result := writeX d (if s.c c then s.x a else s.x b) s

/-- `clz` (R70). -/
def execClz (d a : BitVec 5) (s : State) : Result := writeX d (leadingZeros (s.x a)) s

/-- `ctz` (R70). -/
def execCtz (d a : BitVec 5) (s : State) : Result := writeX d (trailingZeros (s.x a)) s

/-- `popc` (R70). -/
def execPopc (d a : BitVec 5) (s : State) : Result := writeX d (BitVec.ofNat 64 (popCount 64 (s.x a).toNat)) s

/-- `brev` (R70). -/
def execBrev (d a : BitVec 5) (s : State) : Result := writeX d (BitVec.ofNat 64 (reverseBits 64 (s.x a).toNat)) s

/-- `addi` (R72). -/
def execAddi (d a : BitVec 5) (i : BitVec 16) (s : State) : Result := writeX d (s.x a + sext i) s

/-- `andi` (R72): the mask is sign-extended. -/
def execAndi (d a : BitVec 5) (i : BitVec 16) (s : State) : Result := writeX d (s.x a &&& sext i) s

/-- `ori` (R72). -/
def execOri (d a : BitVec 5) (i : BitVec 16) (s : State) : Result := writeX d (s.x a ||| sext i) s

/-- `xori` (R72). -/
def execXori (d a : BitVec 5) (i : BitVec 16) (s : State) : Result := writeX d (s.x a ^^^ sext i) s

/-- `slli` (R73). -/
def execSlli (d a : BitVec 5) (n : BitVec 6) (s : State) : Result := writeX d (s.x a <<< n.toNat) s

/-- `srli` (R73). -/
def execSrli (d a : BitVec 5) (n : BitVec 6) (s : State) : Result := writeX d (s.x a >>> n.toNat) s

/-- `srai` (R73). -/
def execSrai (d a : BitVec 5) (n : BitVec 6) (s : State) : Result := writeX d ((s.x a).sshiftRight n.toNat) s

/-- `lui` (R74). -/
def execLui (d : BitVec 5) (i : BitVec 21) (s : State) : Result := writeX d (sext i * 65536) s

/-- `aupc` (R74): PC is the address of the word itself. -/
def execAupc (d : BitVec 5) (i : BitVec 21) (s : State) : Result := writeX d (s.cur.pc + sext i * 65536) s

/-- `cmp.eq` (R79). -/
def execCmpEq (d : BitVec 3) (a b : BitVec 5) (s : State) : Result := writeC d (s.x a == s.x b) s

/-- `cmp.ne` (R79). -/
def execCmpNe (d : BitVec 3) (a b : BitVec 5) (s : State) : Result := writeC d (s.x a != s.x b) s

/-- `cmp.lt` (R79). -/
def execCmpLt (d : BitVec 3) (a b : BitVec 5) (s : State) : Result := writeC d (decide ((s.x a).toInt < (s.x b).toInt)) s

/-- `cmp.ge` (R79). -/
def execCmpGe (d : BitVec 3) (a b : BitVec 5) (s : State) : Result := writeC d (decide ((s.x b).toInt ≤ (s.x a).toInt)) s

/-- `cmp.ltu` (R79). -/
def execCmpLtu (d : BitVec 3) (a b : BitVec 5) (s : State) : Result := writeC d (decide ((s.x a).toNat < (s.x b).toNat)) s

/-- `cmp.geu` (R79). -/
def execCmpGeu (d : BitVec 3) (a b : BitVec 5) (s : State) : Result := writeC d (decide ((s.x b).toNat ≤ (s.x a).toNat)) s

/-- `cmpi.eq` (R80). -/
def execCmpiEq (d : BitVec 3) (a : BitVec 5) (i : BitVec 14) (s : State) : Result := writeC d (s.x a == sext i) s

/-- `cmpi.ne` (R80). -/
def execCmpiNe (d : BitVec 3) (a : BitVec 5) (i : BitVec 14) (s : State) : Result := writeC d (s.x a != sext i) s

/-- `cmpi.lt` (R80). -/
def execCmpiLt (d : BitVec 3) (a : BitVec 5) (i : BitVec 14) (s : State) : Result := writeC d (decide ((s.x a).toInt < (sext i).toInt)) s

/-- `cmpi.ge` (R80). -/
def execCmpiGe (d : BitVec 3) (a : BitVec 5) (i : BitVec 14) (s : State) : Result := writeC d (decide ((sext i).toInt ≤ (s.x a).toInt)) s

/-- `cmpi.ltu` (R80). -/
def execCmpiLtu (d : BitVec 3) (a : BitVec 5) (i : BitVec 14) (s : State) : Result := writeC d (decide ((s.x a).toNat < (sext i).toNat)) s

/-- `cmpi.geu` (R80). -/
def execCmpiGeu (d : BitVec 3) (a : BitVec 5) (i : BitVec 14) (s : State) : Result := writeC d (decide ((sext i).toNat ≤ (s.x a).toNat)) s

/-- `cand` (R81). -/
def execCand (d a b : BitVec 3) (s : State) : Result := writeC d (s.c a && s.c b) s

/-- `cor` (R81). -/
def execCor (d a b : BitVec 3) (s : State) : Result := writeC d (s.c a || s.c b) s

/-- `cxor` (R81). -/
def execCxor (d a b : BitVec 3) (s : State) : Result := writeC d (s.c a != s.c b) s

/-- `candn` (R81). -/
def execCandn (d a b : BitVec 3) (s : State) : Result := writeC d (s.c a && !s.c b) s

/-- `cnot` (R81). -/
def execCnot (d a : BitVec 3) (s : State) : Result := writeC d (!s.c a) s

/-- `cset` (R81). -/
def execCset (d : BitVec 3) (s : State) : Result := writeC d true s

/-- `cclr` (R81). -/
def execCclr (d : BitVec 3) (s : State) : Result := writeC d false s

/-- `cmov` (R81). -/
def execCmov (d a : BitVec 3) (s : State) : Result := writeC d (s.c a) s

/-! Branches and jumps. The trailing hart takes its lead's next branch entry and compares it with its own outcome (R242);
nothing else about a branch depends on the lead (R85). -/

/-- A branch outcome meets the delay buffer (R240, R242): an entry that disagrees, or no entry while the lead runs, marks
the pair for a re-fork when the instruction retires, and so does the branch at which the lead stopped. -/
def Hart.checkBranch (h : Hart) (taken : Bool) (target : Word) : Hart :=
  if !h.leadActive then h
  else match h.lead.buffer with
    | .branch n t a :: rest =>
      let h' := { h with lead := { h.lead with buffer := rest, trailBranch := h.lead.trailBranch + 1 } }
      if n = h.lead.trailBranch && t = taken && a = target then h' else { h' with refork := true }
    | .memory _ _ _ _ :: _ => { h with refork := true }
    | [] =>
      { h with
        refork := h.refork || !h.leadStopped || h.atStop h.pc
        lead := { h.lead with trailBranch := h.lead.trailBranch + 1 } }

/-- Transfer control to `target` and complete (R22, R82). -/
def branchTo (taken : Bool) (target : Word) (s : State) : Result :=
  .next ((s.onCur fun h => h.checkBranch taken target).retireTo target)

/-- A branch on a condition (R82). -/
def branchIf (taken : Bool) (o : BitVec 22) (s : State) : Result :=
  if taken then branchTo true (s.cur.pc + sext o * 4) s else branchTo false (s.cur.pc + 4) s

/-- `bc` (R82): branches when the bit is set. -/
def execBc (c : BitVec 3) (o : BitVec 22) (s : State) : Result := branchIf (s.c c) o s

/-- `bnc` (R82): branches when the bit is clear. -/
def execBnc (c : BitVec 3) (o : BitVec 22) (s : State) : Result := branchIf (!s.c c) o s

/-- `jal` (R83). -/
def execJal (d : BitVec 5) (o : BitVec 21) (s : State) : Result :=
  branchTo true (s.cur.pc + sext o * 4) (s.setX d (s.cur.pc + 4))

/-- `jalr` (R84): a misaligned target traps with cause 0x03 and leaves xd unchanged. -/
def execJalr (d a : BitVec 5) (i : BitVec 16) (s : State) : Result :=
  let t := s.x a + sext i
  if t &&& 3 = 0 then branchTo true t (s.setX d (s.cur.pc + 4))
  else .next (s.takeTrap { cause := 0x03, tval := t })

end Sys2Proof.Machine
end

