-- ==== Sys2Proof/Machine/Control.lean ====
section
/-! DEFINITION. Control registers and the CR instructions (09_control_registers.md). -/

namespace Sys2Proof.Machine

/-- The control registers of R157. -/
inductive CtlReg where
  | fmode | fflags | rkey | vl | vlmax | vgrant | vstart | lslip | lskew | vbyp | rad | lstat | cw | tagmap | hid | shore
  | status | epc | tcause | tval | tidx | tvec | tidectl | bxstag | agetime | revoke | partid | partmv
  deriving DecidableEq, Repr

/-- A register by its number (R157). -/
def CtlReg.ofNumber (n : BitVec 12) : Option CtlReg :=
  match n.toNat with
  | 0x001 => some .fmode | 0x002 => some .fflags | 0x003 => some .rkey
  | 0x010 => some .vl | 0x011 => some .vlmax | 0x012 => some .vgrant | 0x013 => some .vstart
  | 0x014 => some .lslip | 0x015 => some .lskew | 0x016 => some .vbyp
  | 0x020 => some .rad | 0x021 => some .lstat | 0x030 => some .cw | 0x031 => some .tagmap
  | 0x040 => some .hid | 0x041 => some .shore
  | 0x100 => some .status | 0x101 => some .epc | 0x102 => some .tcause | 0x103 => some .tval | 0x104 => some .tidx
  | 0x105 => some .tvec | 0x110 => some .tidectl | 0x111 => some .bxstag | 0x120 => some .agetime
  | 0x121 => some .revoke | 0x122 => some .partid | 0x123 => some .partmv
  | _ => none

/-- Access of a privilege to a register (R157): a dash, read only, or read and write. -/
inductive CtlAccess where
  | refused | readOnly | readWrite
  deriving DecidableEq, Repr

/-- The access columns of R157. -/
def CtlReg.access (r : CtlReg) (sup : Bool) : CtlAccess :=
  match r with
  | .fmode | .fflags | .rkey | .lslip | .lskew | .vbyp | .rad | .lstat | .cw => .readWrite
  | .vl | .vlmax | .vgrant | .vstart | .tagmap | .hid | .shore | .partid => .readOnly
  | .status | .tidectl | .bxstag | .agetime | .revoke => if sup then .readWrite else .readOnly
  | .epc | .tcause | .tval | .tidx | .tvec | .partmv => if sup then .readWrite else .refused

/-- The executing hart's partition (R157). -/
def State.curPart (s : State) : Partition :=
  (s.part? s.cur.part).getD { id := s.cur.part, cores := [], root := 0, faultQueue := 0, saveBase := 0, saveHarts := 0 }

/-- A register of a partition as a word (R164); 0 for the others. -/
def PartRegs.word (p : PartRegs) : CtlReg → Word
  | .tidectl => BitVec.ofNat 64 (p.floor.toNat * 16 + p.ramp.toNat)
  | .bxstag => BitVec.ofNat 64 (p.bxSpacing.toNat * 65536 + p.bxGroup.toNat)
  | .agetime => p.agetime.setWidth 64
  | .revoke => p.revoke.setWidth 64
  | _ => 0

/-- A control register's value (R12, R48, R55, R59, R93, R94, R104, R162, R163, R164); a register of the partition reads as it
acts in this cycle. -/
def State.ctlRead (s : State) (r : CtlReg) : Word :=
  let h := s.cur
  match r with
  | .fmode => h.fmode.setWidth 64
  | .fflags => h.fflags.setWidth 64
  | .rkey => h.rkey
  | .vl => h.vlWord
  | .vlmax => BitVec.ofNat 64 h.vlmax
  | .vgrant => BitVec.ofNat 64 h.vgrant
  | .vstart => h.progress.vstart.setWidth 64
  | .lslip => h.lslip.setWidth 64
  | .lskew => h.lskew.setWidth 64
  | .vbyp => h.vbyp.setWidth 64
  | .rad => h.rad.setWidth 64
  | .lstat => h.lstatWord
  | .cw => h.cw.setWidth 64
  | .tagmap => h.tagmap
  | .hid => h.hid.setWidth 64
  | .shore => s.shore
  | .status => h.status.word
  | .epc => h.epc
  | .tcause => h.tcause.setWidth 64
  | .tval => h.tval
  | .tidx => h.tidx.setWidth 64
  | .tvec => h.tvec
  | .tidectl | .bxstag | .agetime | .revoke => s.curPart.acting.word r
  | .partid => BitVec.ofNat 64 h.part
  | .partmv =>
    BitVec.ofNat 64 (flag s.moving.isSome * 2 ^ 63 + flag s.moveErr * 2 ^ 62 + s.movePart.toNat * 65536 + s.moveCore.toNat)

/-- Does a field's map forbid the value (R158 step 4)? -/
def CtlReg.forbids (r : CtlReg) (v : Word) : Bool :=
  match r with
  | .fmode => decide (4 < v.toNat % 8)
  | .rad => v.toNat % 128 == 0 || decide (64 < v.toNat % 128)
  | .tidectl => v.toNat / 16 % 8 == 0 || v.toNat / 16 % 8 == 7 || decide (1 < v.toNat % 4)
  | _ => false

/-- The register of a hart after a write of a permitted value; reserved bits and read-only fields keep (R158). -/
def Hart.ctlWrite (h : Hart) (r : CtlReg) (v : Word) : Hart :=
  match r with
  | .fmode => { h with fmode := v.setWidth 6 }
  | .fflags => { h with fflags := v.setWidth 6 }
  | .rkey => { h with rkey := v }
  | .lslip => { h with lslip := v.setWidth 4 }
  | .lskew => { h with lskew := v.setWidth 3 }
  | .vbyp => { h with vbyp := v.setWidth 24 }
  | .rad => { h with rad := v.setWidth 7 }
  | .lstat => { h with divs := v.setWidth 32 }
  | .cw => { h with cw := v.setWidth 5 }
  | .status =>
    { h with status := { h.status with pie := v.getLsbD 5, pprv := v.getLsbD 4, ie := v.getLsbD 1, sup := v.getLsbD 0 } }
  | .epc => { h with epc := v }
  | .tcause => { h with tcause := v.setWidth 8 }
  | .tval => { h with tval := v }
  | .tidx => { h with tidx := v.setWidth 12 }
  | .tvec => { h with tvec := v &&& ~~~3 }
  | _ => h

/-- Does any launch of a partition live? -/
def State.partLives (s : State) (id : Nat) : Bool := s.launches.any fun l => l.record.part == id

/-- A write of `partmv` (R164, R165): refused with err set, or accepted: the core leaves its partition and its harts are asked to
leave, and is kept for no entry of the partition that it leaves. DESIGN CHOICE (notes/assumptions/33.md): the part and core fields
take the written values either way, and a live partition's only core may not be moved to that partition itself. -/
def State.writePartmv (s : State) (v : Word) : State :=
  let target := v.toNat / 65536 % 65536
  let core := v.toNat % 256
  let s := { s with movePart := BitVec.ofNat 16 target, moveCore := BitVec.ofNat 8 core }
  let owner := s.parts.find? fun p => p.cores.contains core
  let empties : Bool :=
    match owner with
    | some p => s.partLives p.id && p.cores.all (· == core) && p.otherPackages.isEmpty
    | none => false
  if s.moving.isSome || (s.part? target).isNone || empties then { s with moveErr := true }
  else
    let s := { s with
      moveErr := false
      moving := some (core, target)
      reserved := s.reserved.filter fun (r : Reserved) => r.core != core
      parts := s.parts.map fun (p : Partition) => { p with cores := p.cores.filter (· != core) } }
    let asked := (s.harts.filter fun (h : Hart) => h.isResident && h.core == core).map fun (h : Hart) =>
      ({ hart := h.uid, leave := 0, victim := true
         deadline := some (s.cycle + (match s.part? h.part with
           | some p => p.acting.revoke.toNat
           | none => 0)) } : Reclaim)
    { s with reclaims := s.reclaims ++ asked }

/-- The executing hart writes a register of its partition; the write applies from the next cycle, and the hart's next
instruction follows in it (R164, R160). -/
def State.writePart (s : State) (f : Partition → Partition) : State :=
  { s.onPart s.cur.part f with wrote := s.cur.uid :: s.wrote }

/-- A permitted write of a control register (R158, R164): the hart's own, its partition's, or `partmv`. -/
def State.ctlWrite (s : State) (r : CtlReg) (v : Word) : State :=
  match r with
  | .tidectl =>
    s.writePart fun p => { p with floor := BitVec.ofNat 3 (v.toNat / 16), ramp := BitVec.ofNat 2 v.toNat }
  | .bxstag =>
    s.writePart fun p => { p with bxSpacing := BitVec.ofNat 10 (v.toNat / 65536), bxGroup := BitVec.ofNat 6 v.toNat }
  | .agetime => s.writePart fun p => { p with agetime := v.setWidth 32 }
  | .revoke => s.writePart fun p => { p with revoke := v.setWidth 24 }
  | .partmv => s.writePartmv v
  | r => s.onCur fun h => h.ctlWrite r v

/-- The outcome of the checks of R158 for a read or a write of the word `word`, before step 4: the register, or the trap. An
unlisted number is an unlisted value of R29, so `tval` is the word (R30); the other traps name no `tval` (R381). -/
def State.ctlCheck (s : State) (n : BitVec 12) (write : Bool) (word : Nat) : Except Trap CtlReg :=
  match CtlReg.ofNumber n with
  | none => .error { cause := 0x01, tval := BitVec.ofNat 64 word }
  | some r =>
    match r.access s.cur.status.sup with
    | .refused => .error { cause := 0x11 }
    | .readOnly => if write then .error { cause := 0x01 } else .ok r
    | .readWrite => .ok r

/-- The value that a write starts from (R159): of a partition's register the one last written, be it in this very cycle, so that
writes of several harts follow one another (R164). -/
def State.ctlLatest (s : State) (r : CtlReg) : Word :=
  match r with
  | .tidectl | .bxstag | .agetime | .revoke => s.curPart.toPartRegs.word r
  | r => s.ctlRead r

/-- A write by `crw`, `crs` or `crc` (R158, R159): `f` gives the new value from the old one. -/
def ctlModify (word : Nat) (n : BitVec 12) (f : Word → Word) (s : State) : Result :=
  match s.ctlCheck n true word with
  | .error t => .next (s.takeTrap t)
  | .ok r =>
    let v := f (s.ctlLatest r)
    if r.forbids v then .next (s.takeTrap { cause := 0x01 }) else .next (s.ctlWrite r v).retire

/-- The word of a CR instruction (R24, R159): xd, xa, number, fn. -/
def ctlWord (d a n fn : Nat) : Nat := 0x3A * 2 ^ 26 + d * 2 ^ 21 + a * 2 ^ 16 + n * 16 + fn

/-- How far from the count the least value lies that a read of `shore` may return: at most 2 below it (R350), and not below
what an earlier read has returned (R352). -/
def State.shoreLeast (s : State) : Int :=
  let d := (s.shoreSeen - s.shore).toInt
  if -2 ≤ d && d ≤ 2 then d else -2

/-- A read of `shore` on some core: at most 2 from the package's count (R350), drawn. -/
def State.lookShore (s : State) : State :=
  let far := s.shoreLeast + (s.draw.1 % (3 - s.shoreLeast).toNat : Nat)
  { s.draw.2 with shoreSeen := s.shore + BitVec.ofInt 64 far }

/-- `crr` (R159). -/
def execCrr (d : BitVec 5) (n : BitVec 12) (s : State) : Result :=
  match s.ctlCheck n false (ctlWord d.toNat 0 n.toNat 0) with
  | .error t => .next (s.takeTrap t)
  | .ok .shore => writeX d s.lookShore.shoreSeen s.lookShore
  | .ok r => writeX d (s.ctlRead r) s

/-- `crw` (R159). -/
def execCrw (a : BitVec 5) (n : BitVec 12) (s : State) : Result :=
  ctlModify (ctlWord 0 a.toNat n.toNat 1) n (fun _ => s.x a) s

/-- `crs` (R159). -/
def execCrs (a : BitVec 5) (n : BitVec 12) (s : State) : Result :=
  ctlModify (ctlWord 0 a.toNat n.toNat 2) n (fun v => v ||| s.x a) s

/-- `crc` (R159). -/
def execCrc (a : BitVec 5) (n : BitVec 12) (s : State) : Result :=
  ctlModify (ctlWord 0 a.toNat n.toNat 3) n (fun v => v &&& ~~~s.x a) s

end Sys2Proof.Machine
end

