-- ==== Sys2Proof/Machine/Flags.lean ====
section
/-! DEFINITION. The sticky exception flags of `fflags` (R55, R56). -/

namespace Sys2Proof.Machine

/-- The flags of R55. -/
def flNX : BitVec 6 := 1
def flUF : BitVec 6 := 2
def flOF : BitVec 6 := 4
def flDZ : BitVec 6 := 8
def flNV : BitVec 6 := 16
def flSX : BitVec 6 := 32

/-- OR flags into `fflags`; only CR writes, hart start and resumption clear one (R55, R56). -/
def State.raise (s : State) (fl : BitVec 6) : State := { s with cur := { s.cur with fflags := s.cur.fflags ||| fl } }

/-- The flags of several elements together (R56). -/
def orFlags (fls : List (BitVec 6)) : BitVec 6 := fls.foldl (· ||| ·) 0

end Sys2Proof.Machine
end

