-- ==== Sys2Proof/Machine/Float.lean ====
section
/-! DEFINITION. Number formats, rounding, NaNs and floating operations on bit patterns (03_element_formats.md). Values are
kept exact, as a natural number times a power of two, until the one rounding of R49. -/

namespace Sys2Proof.Machine

/-- How a format encodes infinities and NaNs (R45). -/
inductive Special where
  | ieee | e5m2 | e4m3 | e2m1
  deriving DecidableEq, Repr

/-- A floating format (R44): exponent bits, fraction bits, bias. -/
structure Fmt where
  ebits : Nat
  fbits : Nat
  bias : Nat
  special : Special
  deriving DecidableEq, Repr

/-- The formats of R44. -/
def Fmt.f64 : Fmt := ⟨11, 52, 1023, .ieee⟩
def Fmt.f32 : Fmt := ⟨8, 23, 127, .ieee⟩
def Fmt.bf16 : Fmt := ⟨8, 7, 127, .ieee⟩
def Fmt.f16 : Fmt := ⟨5, 10, 15, .ieee⟩
def Fmt.e5m2 : Fmt := ⟨5, 2, 15, .e5m2⟩
def Fmt.e4m3 : Fmt := ⟨4, 3, 7, .e4m3⟩
def Fmt.e2m1 : Fmt := ⟨2, 1, 1, .e2m1⟩

/-- Width in bits. -/
def Fmt.width (f : Fmt) : Nat := 1 + f.ebits + f.fbits

/-- The magnitude bits of the largest finite value (R44, R45). -/
def Fmt.maxMag (f : Fmt) : Nat :=
  match f.special with
  | .ieee | .e5m2 => (2 ^ f.ebits - 1) * 2 ^ f.fbits - 1
  | .e4m3 => 0x7E
  | .e2m1 => 0x7

/-- The magnitude bits of infinity, for the formats that have one (R45). -/
def Fmt.infMag (f : Fmt) : Nat := (2 ^ f.ebits - 1) * 2 ^ f.fbits

/-- A sign in front of magnitude bits. -/
def Fmt.signed (f : Fmt) (sign : Bool) (mag : Nat) : Nat := flag sign * 2 ^ (f.width - 1) + mag

/-- The default NaN (R45); e2m1 has none and gives +0. -/
def Fmt.defaultNan (f : Fmt) : Nat :=
  match f.special with
  | .ieee => f.infMag + 2 ^ (f.fbits - 1)
  | .e5m2 => 0x7E
  | .e4m3 => 0x7F
  | .e2m1 => 0

/-- Do DAZ and FTZ apply to the format (R50)? -/
def Fmt.flushes (f : Fmt) : Bool := f.special == .ieee

/-- A decoded value: NaN with sign, signalling bit and fraction; infinity; or sign × m × 2^e. -/
inductive FVal where
  | nan (sign signalling : Bool) (frac fbits : Nat)
  | inf (sign : Bool)
  | fin (sign : Bool) (m : Nat) (e : Int)
  deriving DecidableEq, Repr

/-- Decode a bit pattern (R44, R45). -/
def Fmt.decode (f : Fmt) (b : Nat) : FVal :=
  let sign := bit b (f.width - 1)
  let ex := bits b f.fbits f.ebits
  let fr := b % 2 ^ f.fbits
  let finite := FVal.fin sign (if ex = 0 then fr else fr + 2 ^ f.fbits)
    ((if ex = 0 then 1 else (ex : Int)) - f.bias - f.fbits)
  match f.special with
  | .ieee =>
    if ex = 2 ^ f.ebits - 1 then (if fr = 0 then .inf sign else .nan sign (!bit fr (f.fbits - 1)) fr f.fbits) else finite
  | .e5m2 => if ex = 31 then (if fr = 0 then .inf sign else .nan sign false fr f.fbits) else finite
  | .e4m3 => if ex = 15 && fr = 7 then .nan sign false fr f.fbits else finite
  | .e2m1 => finite

/-- A bit pattern and the flags it was made with. -/
structure FRes where
  val : Nat
  fl : BitVec 6 := 0
  deriving DecidableEq, Repr

/-- Rounding modes (R48). -/
inductive Rm where
  | rne | rtz | rup | rdn | rna
  deriving DecidableEq, Repr

/-- A rounding mode from its code (R48). -/
def Rm.ofCode (n : Nat) : Rm :=
  match n with
  | 1 => .rtz | 2 => .rup | 3 => .rdn | 4 => .rna | _ => .rne

/-- The modes an operation captures (R48): rounding, daz, ftz, dn, and `.sat` of a conversion. -/
structure Mode where
  rm : Rm := .rne
  daz : Bool := false
  ftz : Bool := false
  dn : Bool := false
  sat : Bool := false
  deriving DecidableEq, Repr

/-- The mode that `fmode` holds (R48). -/
def Mode.ofFmode (f : BitVec 6) : Mode :=
  { rm := .ofCode (f.toNat % 8), daz := f.getLsbD 3, ftz := f.getLsbD 4, dn := f.getLsbD 5 }

/-- Does rounding `q` with a discarded part move away from zero (R49)? `half` is 2 for more than half, 1 for exactly half,
0 for less; `any` says whether the discarded part is nonzero. -/
def Rm.up (rm : Rm) (sign : Bool) (odd : Bool) (half : Nat) (any : Bool) : Bool :=
  match rm with
  | .rne => half == 2 || (half == 1 && odd)
  | .rna => half != 0
  | .rtz => false
  | .rup => any && !sign
  | .rdn => any && sign

/-- `m × 2^e` (plus something below one unit of `m` when `sticky`) cut at 2^q: quotient, position of the rest against one
half, and whether there is a rest. -/
def cutAt (m : Nat) (e : Int) (sticky : Bool) (q : Int) : Nat × Nat × Bool :=
  if q ≤ e then (m <<< (e - q).toNat, 0, sticky)
  else
    let sh := (q - e).toNat
    let r := m % 2 ^ sh
    let h := 2 ^ (sh - 1)
    (m >>> sh, if h < r || (r == h && sticky) then 2 else if r == h then 1 else 0, r != 0 || sticky)

/-- The overflow result (R53), in magnitude bits: infinity, largest finite, or NaN of e4m3. -/
def Fmt.overflowMag (f : Fmt) (md : Mode) (sign : Bool) : Nat :=
  let toMax : Bool := md.sat || f.special == .e2m1 ||
    (match md.rm with
     | .rne | .rna => false
     | .rtz => true
     | .rup => sign
     | .rdn => !sign)
  if toMax then f.maxMag else if f.special = .e4m3 then 0x7F else f.infMag

/-- The overflow result as a pattern: an e4m3 NaN takes the default sign under dn (R53). -/
def Fmt.overflowVal (f : Fmt) (md : Mode) (sign : Bool) : Nat :=
  let mag := f.overflowMag md sign
  if f.special = .e4m3 && mag = 0x7F && md.dn then 0x7F else f.signed sign mag

/-- `round(x, mode)` of R40 for the exact value sign × (m × 2^e, plus less than one unit when `sticky`), with R49, R50's FTZ
and R53. With `sticky`, `m` must hold at least two bits more than the format's precision. -/
def Fmt.round (f : Fmt) (md : Mode) (sign : Bool) (m : Nat) (e : Int) (sticky : Bool := false) : FRes :=
  if m = 0 && !sticky then ⟨f.signed sign 0, 0⟩
  else
    let top : Int := e + (bitLen m : Int) - 1
    let emin : Int := 1 - (f.bias : Int)
    let q : Int := max (top - f.fbits) (emin - f.fbits)
    let (k, half, any) := cutAt m e sticky q
    let k := if md.rm.up sign (k % 2 == 1) half any then k + 1 else k
    -- the exponent field and the fraction, the carry of a rounding into the next binade included
    let mag : Nat := if k < 2 ^ f.fbits then k else ((q + f.fbits - emin).toNat + 1) * 2 ^ f.fbits + (k - 2 ^ f.fbits)
    let q1 : Int := top - f.fbits
    let (k1, half1, any1) := cutAt m e sticky q1
    let k1 := if md.rm.up sign (k1 % 2 == 1) half1 any1 then k1 + 1 else k1
    let tiny := decide (top < emin) && !(k1 == 2 ^ (f.fbits + 1) && top + 1 == emin)
    if f.maxMag < mag then ⟨f.overflowVal md sign, flOF ||| flNX⟩
    else if tiny && md.ftz && f.flushes && mag != 0 then ⟨f.signed sign 0, flUF ||| flNX⟩
    else ⟨f.signed sign mag, (if any then flNX else 0) ||| (if tiny && any then flUF else 0)⟩

/-- DAZ on an operand (R50). -/
def Fmt.daz (f : Fmt) (md : Mode) (b : Nat) : Nat :=
  if md.daz && f.flushes && bits b f.fbits f.ebits == 0 then f.signed (bit b (f.width - 1)) 0 else b

/-- Decode after DAZ. -/
def Fmt.read (f : Fmt) (md : Mode) (b : Nat) : FVal := f.decode (f.daz md b)

/-- Is the value a NaN, and is it signalling? -/
def FVal.isNan : FVal → Bool
  | .nan _ _ _ _ => true
  | _ => false
def FVal.isSnan : FVal → Bool
  | .nan _ s _ _ => s
  | _ => false

/-- The NaN a format gives for a NaN operand (R52, R53). DESIGN CHOICE (notes/assumptions/23.md): an e5m2 operand with top
fraction bit 0 becomes quiet in an IEEE format, as R52 says of a result; R45 says it is never quietened, which holds here of
an e5m2 result. -/
def Fmt.nanOf (f : Fmt) (md : Mode) (sign : Bool) (frac fb : Nat) : Nat :=
  if md.dn then f.defaultNan
  else match f.special with
  | .ieee =>
    let fr := if fb ≤ f.fbits then frac <<< (f.fbits - fb) else frac >>> (fb - f.fbits)
    f.signed sign (f.infMag + (fr ||| 2 ^ (f.fbits - 1)))
  | .e5m2 =>
    let fr := if fb ≤ 2 then frac else frac >>> (fb - 2)
    -- a source whose top fraction bit marks a quiet NaN keeps or gains it; an e5m2 source is never quietened (R45)
    let fr := if fb = 2 then fr else fr ||| 2
    f.signed sign (f.infMag + if fr = 0 then 2 else fr)
  | .e4m3 => f.signed sign 0x7F
  | .e2m1 => 0

/-- The result of an operation with a NaN operand: the first NaN in operand order (R52); NV for a signalling one, and for
a NaN that becomes a zero of e2m1 (R53). -/
def Fmt.nanResult (f : Fmt) (md : Mode) (ops : List FVal) : FRes :=
  let nv := if ops.any FVal.isSnan || f.special == .e2m1 then flNV else 0
  match ops.find? FVal.isNan with
  | some (.nan s _ fr fb) => ⟨f.nanOf md s fr fb, nv⟩
  | _ => ⟨f.defaultNan, nv⟩

/-- An invalid operation (R52). -/
def Fmt.invalid (f : Fmt) : FRes := ⟨f.defaultNan, flNV⟩

/-- An infinity in a format, by R53 for the formats that have none. -/
def Fmt.infinity (f : Fmt) (md : Mode) (sign : Bool) : FRes :=
  match f.special with
  | .ieee | .e5m2 => ⟨f.signed sign (if md.sat then f.maxMag else f.infMag), 0⟩
  | _ => ⟨f.overflowVal md sign, 0⟩

/-- The sign of an exact zero sum of opposite-signed or like-signed operands (R49). -/
def zeroSign (md : Mode) (a b : Bool) : Bool := if a = b then a else md.rm == .rdn

/-- Exact sum of two finite values: sign and magnitude at the smaller exponent; the sign of a zero by R49. -/
def addExact (md : Mode) (sa : Bool) (ma : Nat) (ea : Int) (sb : Bool) (mb : Nat) (eb : Int) : Bool × Nat × Int :=
  let e := min ea eb
  let x := ma <<< (ea - e).toNat
  let y := mb <<< (eb - e).toNat
  if sa = sb then (sa, x + y, e)
  else if x = y then (zeroSign md sa sb, 0, e)
  else if y < x then (sa, x - y, e) else (sb, y - x, e)

/-- Sum of two decoded values into a format. -/
def Fmt.addVals (f : Fmt) (md : Mode) (a b : FVal) : FRes :=
  match a, b with
  | .nan _ _ _ _, _ | _, .nan _ _ _ _ => f.nanResult md [a, b]
  | .inf s, .inf t => if s = t then f.infinity md s else f.invalid
  | .inf s, .fin _ _ _ => f.infinity md s
  | .fin _ _ _, .inf t => f.infinity md t
  | .fin s m e, .fin t n g =>
    let (sg, r, x) := addExact md s m e t n g
    f.round md sg r x

/-- A value with its sign inverted; a NaN is left alone (R52 keeps the operand's sign). -/
def FVal.negate : FVal → FVal
  | .inf s => .inf (!s)
  | .fin s m e => .fin (!s) m e
  | v => v

/-- `a + b`, `a - b` on patterns of one format. -/
def Fmt.add (f : Fmt) (md : Mode) (a b : Nat) : FRes := f.addVals md (f.read md a) (f.read md b)
def Fmt.sub (f : Fmt) (md : Mode) (a b : Nat) : FRes := f.addVals md (f.read md a) (f.read md b).negate

/-- `a × b` of source values, rounded into a format. -/
def Fmt.mulVals (f : Fmt) (md : Mode) (a b : FVal) : FRes :=
  match a, b with
  | .nan _ _ _ _, _ | _, .nan _ _ _ _ => f.nanResult md [a, b]
  | .inf s, .inf t => f.infinity md (s != t)
  | .inf s, .fin t m _ => if m = 0 then f.invalid else f.infinity md (s != t)
  | .fin s m _, .inf t => if m = 0 then f.invalid else f.infinity md (s != t)
  | .fin s m e, .fin t n g => f.round md (s != t) (m * n) (e + g)

/-- `a × b` on patterns of one format. -/
def Fmt.mul (f : Fmt) (md : Mode) (a b : Nat) : FRes := f.mulVals md (f.read md a) (f.read md b)

/-- `(±(a × b)) + (±c)` with one rounding (R76, R114): `negP` and `negC` invert the product and the addend. An invalid
product stays invalid when the addend is a quiet NaN. -/
def Fmt.fmaVals (f : Fmt) (md : Mode) (negP negC : Bool) (a b c : FVal) : FRes :=
  let c' := if negC then c.negate else c
  let invalidProduct : Bool :=
    match a, b with
    | .inf _, .fin _ m _ | .fin _ m _, .inf _ => m == 0
    | _, _ => false
  if invalidProduct then f.invalid
  else match a, b, c' with
  | .nan _ _ _ _, _, _ | _, .nan _ _ _ _, _ | _, _, .nan _ _ _ _ => f.nanResult md [a, b, c']
  | .fin s m e, .fin t n g, .fin u k h =>
    let (sg, r, x) := addExact md ((s != t) != negP) (m * n) (e + g) u k h
    f.round md sg r x
  | .fin _ _ _, .fin _ _ _, .inf u => f.infinity md u
  | a, b, c'' =>
    let sp : Bool := (match a, b with
      | .inf s, .inf t | .inf s, .fin t _ _ | .fin s _ _, .inf t | .fin s _ _, .fin t _ _ => s != t
      | _, _ => false) != negP
    match c'' with
    | .inf u => if u = sp then f.infinity md sp else f.invalid
    | _ => f.infinity md sp

/-- Integer square root by bits, `n` bits of result. -/
def isqrt : Nat → Nat → Nat → Nat
  | 0, _, r => r
  | n + 1, x, r => let t := r + 2 ^ n; isqrt n x (if t * t ≤ x then t else r)

/-- `a / b` (R76). -/
def Fmt.div (f : Fmt) (md : Mode) (a b : Nat) : FRes :=
  match f.read md a, f.read md b with
  | .nan s q x y, v => f.nanResult md [.nan s q x y, v]
  | v, .nan s q x y => f.nanResult md [v, .nan s q x y]
  | .inf _, .inf _ => f.invalid
  | .inf s, .fin t _ _ => f.infinity md (s != t)
  | .fin s _ _, .inf t => ⟨f.signed (s != t) 0, 0⟩
  | .fin s m e, .fin t n g =>
    if n = 0 then (if m = 0 then f.invalid else ⟨f.signed (s != t) f.infMag, flDZ⟩)
    else if m = 0 then ⟨f.signed (s != t) 0, 0⟩
    else
      let sh := f.fbits + 6 + bitLen n
      f.round md (s != t) ((m <<< sh) / n) (e - g - sh) ((m <<< sh) % n != 0)

/-- The square root of a finite positive value: magnitude, exponent and sticky with at least `p` bits. -/
def sqrtExact (p m : Nat) (e : Int) : Nat × Int × Bool :=
  let sh := 2 * p + (if e % 2 = 0 then 0 else 1)
  let x := m <<< sh
  let r := isqrt (bitLen x / 2 + 1) x 0
  (r, (e - sh) / 2, r * r != x)

/-- `√a` (R76, R116). -/
def Fmt.sqrt (f : Fmt) (md : Mode) (a : Nat) : FRes :=
  match f.read md a with
  | .nan s q x y => f.nanResult md [.nan s q x y]
  | .inf s => if s then f.invalid else f.infinity md false
  | .fin s m e =>
    if m = 0 then ⟨f.signed s 0, 0⟩
    else if s then f.invalid
    else
      let (r, x, st) := sqrtExact (f.fbits + 3) m e
      f.round md false r x st

/-- Order of two finite magnitudes: is `m × 2^e < n × 2^g`? -/
def magLt (m : Nat) (e : Int) (n : Nat) (g : Int) : Bool :=
  let x := min e g
  decide (m <<< (e - x).toNat < n <<< (g - x).toNat)

/-- `a < b` on values that are not NaN; zeros of either sign are equal. -/
def FVal.lt : FVal → FVal → Bool
  | .inf s, .inf t => s && !t
  | .inf s, _ => s
  | _, .inf t => !t
  | .fin s m e, .fin t n g =>
    if m = 0 && n = 0 then false
    else if m = 0 then !t
    else if n = 0 then s
    else if s then (!t || magLt n g m e) else (!t && magLt m e n g)
  | _, _ => false

/-- The sign of a value. -/
def FVal.sign : FVal → Bool
  | .nan s _ _ _ => s
  | .inf s => s
  | .fin s _ _ => s

/-- `min` and `max` of R52: the other operand when one is NaN, −0 below +0; the chosen operand, as read after DAZ, unchanged
(R50). -/
def Fmt.minmax (f : Fmt) (md : Mode) (isMax : Bool) (a b : Nat) : FRes :=
  let a := f.daz md a
  let b := f.daz md b
  let x := f.decode a
  let y := f.decode b
  let nv := if x.isSnan || y.isSnan then flNV else 0
  match x.isNan, y.isNan with
  | true, true => f.nanResult md [x, y]
  | true, false => ⟨b, nv⟩
  | false, true => ⟨a, nv⟩
  | false, false =>
    let aLess := x.lt y || (!y.lt x && x.sign && !y.sign)
    ⟨if aLess != isMax then a else b, 0⟩

/-- The outcomes of a floating compare (R79, R118): less, equal, unordered; and whether a NaN, and a signalling one, was
met. -/
structure FCmp where
  lt : Bool
  eq : Bool
  un : Bool
  snan : Bool
  deriving DecidableEq, Repr

/-- Compare two patterns of one format (R51: DAZ applies). -/
def Fmt.cmp (f : Fmt) (md : Mode) (a b : Nat) : FCmp :=
  let x := f.read md a
  let y := f.read md b
  let un := x.isNan || y.isNan
  { lt := !un && x.lt y, eq := !un && !x.lt y && !y.lt x, un := un, snan := x.isSnan || y.isSnan }

/-- A decoded value into a format (R121): conversions between floating formats. -/
def Fmt.ofVal (f : Fmt) (md : Mode) (v : FVal) : FRes :=
  match v with
  | .nan s q x y => f.nanResult md [.nan s q x y]
  | .inf s => f.infinity md s
  | .fin s m e => f.round md s m e

/-- Conversion between floating formats (R77, R121); DAZ on the source. -/
def Fmt.convert (src dst : Fmt) (md : Mode) (a : Nat) : FRes := dst.ofVal md (src.read md a)

/-- An integer into a format (R77, R121). -/
def Fmt.ofInt (f : Fmt) (md : Mode) (x : Int) : FRes := f.round md (decide (x < 0)) x.natAbs 0

/-- A decoded value rounded to an integer and saturated to [lo, hi] (R54, R77, R121): NaN gives 0 and NV. -/
def toIntSat (rm : Rm) (lo hi : Int) (v : FVal) : Int × BitVec 6 :=
  match v with
  | .nan _ _ _ _ => (0, flNV)
  | .inf s => (if s then lo else hi, flNV)
  | .fin s m e =>
    let (k, half, any) := cutAt m e false 0
    let k := if rm.up s (k % 2 == 1) half any then k + 1 else k
    let x : Int := if s then -(k : Int) else k
    if x < lo then (lo, flNV) else if hi < x then (hi, flNV) else (x, if any then flNX else 0)

/-- Stochastic rounding (R57): the exact value `v` into a floating format with 32 random bits. DESIGN CHOICE
(notes/assumptions/23.md): for UF and FTZ the result is tiny when the delivered value is below the minimum normal, and an infinity
takes RUP or RDN by its sign. -/
def Fmt.stochastic (f : Fmt) (md : Mode) (v : FVal) (rand : Nat) : FRes :=
  match v with
  | .nan s q x y => f.nanResult md [.nan s q x y]
  | .inf s => f.infinity { md with rm := if s then .rdn else .rup } s
  | .fin s m e =>
    if m = 0 then ⟨f.signed s 0, 0⟩
    else
      let md' := { md with rm := if s then .rdn else .rup }
      let top : Int := e + (bitLen m : Int) - 1
      let emin : Int := 1 - (f.bias : Int)
      let q : Int := max (top - f.fbits) (emin - f.fbits)
      let (k, _, any) := cutAt m e false q
      -- the discarded part, scaled to 32 bits
      let d : Nat := if q ≤ e then 0 else ((m % 2 ^ (q - e).toNat) <<< 32) >>> (q - e).toNat
      let k := if 2 ^ 32 ≤ d + rand then k + 1 else k
      let nx := if any then flNX else 0
      let mag : Nat := if k < 2 ^ f.fbits then k else ((q + f.fbits - emin).toNat + 1) * 2 ^ f.fbits + (k - 2 ^ f.fbits)
      if f.maxMag < mag then ⟨f.overflowVal md' s, flOF ||| flNX⟩
      else
        let tiny := decide (mag < 2 ^ f.fbits)
        if tiny && md.ftz && f.flushes && mag != 0 then ⟨f.signed s 0, flUF ||| flNX⟩
        else ⟨f.signed s mag, nx ||| (if tiny && any then flUF else 0)⟩

/-! The functions of R116 and R117, in fixed point with `fixBits` fraction bits, far beyond every bound. -/

/-- Fraction bits of the fixed-point evaluation. -/
def fixBits : Nat := 400

/-- Taylor series of e^x - 1 for 0 ≤ x < 1 in fixed point: remaining terms, index, current term, sum. -/
def expSeries : Nat → Nat → Nat → Nat → Nat → Nat
  | 0, _, _, _, sum => sum
  | n + 1, i, x, term, sum =>
    let t := ((term * x) >>> fixBits) / i
    expSeries n (i + 1) x t (sum + t)

/-- e^x for 0 ≤ x < 1 in fixed point. -/
def expFix (x : Nat) : Nat := expSeries 100 1 x (2 ^ fixBits) (2 ^ fixBits)

/-- Series of atanh(1/3): index, power of 1/3, sum. -/
def atanhThird : Nat → Nat → Nat → Nat → Nat
  | 0, _, _, sum => sum
  | n + 1, k, p, sum => atanhThird n (k + 2) (p / 9) (sum + p / k)

/-- ln 2 in fixed point. -/
def ln2Fix : Nat := 2 * atanhThird 130 1 (2 ^ fixBits / 3) 0

/-- Repeated squaring in fixed point. -/
def squareFix : Nat → Nat → Nat
  | 0, x => x
  | n + 1, x => squareFix n ((x * x) >>> fixBits)

/-- Bits of log2 of a fixed-point number in [1, 2): bits left, number, bits so far. -/
def log2Bits : Nat → Nat → Nat → Nat
  | 0, _, acc => acc
  | n + 1, x, acc =>
    let y := (x * x) >>> fixBits
    if 2 ^ (fixBits + 1) ≤ y then log2Bits n (y >>> 1) (2 * acc + 1) else log2Bits n y (2 * acc)

/-- The five functions that R117 bounds. -/
inductive Fn where
  | recip | rsqrt | exp2 | log2 | tanh
  deriving DecidableEq, Repr

/-- A number for `Config.functionPick`. -/
def Fn.code : Fn → Nat
  | .recip => 0 | .rsqrt => 1 | .exp2 => 3 | .log2 => 4 | .tanh => 5

/-- The bound of R117 in units in the last place for f32 and f64. -/
def Fn.bound (fn : Fn) (f : Fmt) : Nat :=
  match fn with
  | .recip | .rsqrt => 1
  | .exp2 | .log2 => if f.fbits = 52 then 2 else 1
  | .tanh => if f.fbits = 52 then 4 else 2

/-- m × 2^e in fixed point, cut toward zero. -/
def toFix (m : Nat) (e : Int) : Nat :=
  if 0 ≤ e + fixBits then m <<< (e + fixBits).toNat else m >>> (-(e + fixBits)).toNat

/-- The exact result for a finite nonzero operand in the domain of the function: sign, magnitude, exponent, and whether
the magnitude is cut (the true value lies above it by less than a unit). -/
def Fn.exact (fn : Fn) (s : Bool) (m : Nat) (e : Int) : Bool × Nat × Int × Bool :=
  match fn with
  | .recip =>
    let sh := 64 + 2 * bitLen m
    (s, 2 ^ sh / m, -e - sh, 2 ^ sh % m != 0)
  | .rsqrt =>
    -- 1 / √(m 2^e) with e made even
    let (m, e) := if e % 2 = 0 then (m, e) else (2 * m, e - 1)
    let sh := 2 * (64 + bitLen m)
    let x := 2 ^ sh / m
    let r := isqrt (bitLen x / 2 + 1) x 0
    (false, r, -(e / 2) - sh / 2, r * r * m != 2 ^ sh)
  | .exp2 =>
    let x := toFix m e
    let n := x >>> fixBits
    let fr := x % 2 ^ fixBits
    let exactFr := fr = 0 && (decide (0 ≤ e) || m % 2 ^ (-e).toNat == 0)
    if exactFr then (false, 1, if s then -(n : Int) else n, false)
    else if s then
      -- 2^(-x) = 2^(-n-1) × 2^(1 - fr)
      (false, expFix (((2 ^ fixBits - fr) * ln2Fix) >>> fixBits), -(n : Int) - 1 - fixBits, true)
    else (false, expFix ((fr * ln2Fix) >>> fixBits), (n : Int) - fixBits, true)
  | .log2 =>
    let k : Int := e + (bitLen m : Int) - 1
    if m = 2 ^ (bitLen m - 1) then (decide (k < 0), k.natAbs, 0, false)
    else
      let fr := log2Bits 160 (m <<< (fixBits + 1 - bitLen m)) 0
      let v : Int := k * 2 ^ 160 + fr
      -- below zero the magnitude is cut from above, so one unit less lies below the true magnitude
      if v < 0 then (true, v.natAbs - 1, -160, true) else (false, v.natAbs, -160, true)
  | .tanh =>
    let top : Int := e + (bitLen m : Int) - 1
    if top < -100 then (s, (m <<< 128) - 1, e - 128, true)
    else
      -- e^(2x) by reducing 2x below 1 and squaring
      let x := toFix m (e + 1 - 7)
      let g := squareFix 7 (expFix x)
      let one := 2 ^ fixBits
      (s, ((g - one) <<< fixBits) / (g + one), -(fixBits : Int), true)

/-- The representable values within `bound` units in the last place of the exact value (R117), in half units of it: those
that round to themselves. `h` is the exact value in half units, cut; the exact value is not representable. -/
def Fmt.near (f : Fmt) (bound h : Nat) (s : Bool) (u : Int) : List Int :=
  (List.range (4 * bound)).filterMap fun i =>
    let j : Int := (h : Int) + 1 - 2 * bound + i
    if (f.round {} (s != decide (j < 0)) j.natAbs (u - 1)).fl = 0 then some j else none

/-- A result of R117 for f32 and f64: some representable value within `bound` units of the exact one; which one is free. UF
is raised when the delivered value or the correctly rounded one is tiny (notes/assumptions/13.md). -/
def Fmt.within (f : Fmt) (md : Mode) (bound pick : Nat) (s : Bool) (m : Nat) (e : Int) : FRes :=
  let top : Int := e + (bitLen m : Int) - 1
  let emin : Int := 1 - (f.bias : Int)
  let u : Int := max (top - f.fbits) (emin - f.fbits)
  let h := (cutAt m e true (u - 1)).1
  let all := f.near bound h s u
  let j := all.getD (pick % all.length) ((h : Int) + h % 2)
  let r := f.round md (s != decide (j < 0)) j.natAbs (u - 1)
  let tiny := (f.round md s m e true).fl &&& flUF != 0 || decide (j.natAbs < 2 ^ (f.fbits + 1) && u = emin - f.fbits)
  ⟨r.val, r.fl ||| flNX ||| (if tiny then flUF else 0)⟩

/-- A function of R116 on a pattern of f16, bf16, f32 or f64 with tag code `tag`; `fm` is the captured `fmode`. An f32 or f64
result that is neither exact nor out of range is free within the bound (notes/assumptions/13.md). -/
def Fmt.func (f : Fmt) (fn : Fn) (tag : Nat) (fm : BitVec 6) (a : Nat) : FRes :=
  let md := { Mode.ofFmode fm with rm := .rne }
  let one := f.bias * 2 ^ f.fbits
  match f.read md a with
  | .nan s q x y => f.nanResult md [.nan s q x y]
  | .inf s =>
    match fn with
    | .recip => ⟨f.signed s 0, 0⟩
    | .rsqrt => if s then f.invalid else ⟨0, 0⟩
    | .exp2 => if s then ⟨0, 0⟩ else ⟨f.infMag, 0⟩
    | .log2 => if s then f.invalid else ⟨f.infMag, 0⟩
    | .tanh => ⟨f.signed s one, 0⟩
  | .fin s m e =>
    if m = 0 then
      match fn with
      | .recip | .rsqrt => ⟨f.signed s f.infMag, flDZ⟩
      | .exp2 => ⟨one, 0⟩
      | .log2 => ⟨f.signed true f.infMag, flDZ⟩
      | .tanh => ⟨f.signed s 0, 0⟩
    else if s && (fn = .rsqrt || fn = .log2) then f.invalid
    else if fn = .tanh && !magLt m e 20 0 then ⟨f.signed s one, flNX⟩
    else
      -- a power of two far outside every range is 2^±1100
      let (sg, r, x, cut) := if fn = .exp2 && magLt 1100 0 m e then (false, 1, if s then -1100 else 1100, false)
        else fn.exact s m e
      let rr := f.round md sg r x cut
      if f.width = 16 || rr.fl &&& flOF != 0 || (f.round {} sg r x cut).fl = 0 then rr
      else f.within md (fn.bound f) (Config.functionPick fn.code tag (BitVec.ofNat 64 a) (fm &&& 0x38)) sg r x

/-! Scalar floating operands (R47). -/

/-- The format that the p bit of FOP names (R75). -/
def fmtOfP (p : BitVec 1) : Fmt := if p = 0 then .f32 else .f64

/-- A `.s` or `.d` operand (R47): an unboxed `.s` operand is the default NaN. -/
def unbox (p : BitVec 1) (x : Word) : Nat :=
  if p = 1 then x.toNat
  else if x.toNat / 2 ^ 32 = 2 ^ 32 - 1 then x.toNat % 2 ^ 32 else Fmt.f32.defaultNan

/-- A `.s` or `.d` result (R47). -/
def box (p : BitVec 1) (v : Nat) : Word := if p = 1 then BitVec.ofNat 64 v else BitVec.ofNat 64 (0xFFFFFFFF00000000 + v)

/-- `fclass` (R78). -/
def classWord (f : Fmt) (b : Nat) : Nat :=
  let sign := bit b (f.width - 1)
  let mag := b % 2 ^ (f.width - 1)
  let cls : Nat :=
    match f.decode b with
    | .nan _ sg _ _ => if sg then 5 else 4
    | .inf _ => 3
    | .fin _ m _ => if m = 0 then 0 else if mag < 2 ^ f.fbits then 1 else 2
  let edge : Nat := if cls = 2 then (if mag = 2 ^ f.fbits then 1 else if mag = f.maxMag then 2 else 0) else 0
  edge * 16 + flag sign * 8 + cls

end Sys2Proof.Machine
end

