-- ==== Sys2Proof/Machine/Operands.lean ====
section
/-! DEFINITION. Vector operands: elements and tags (R41, R42), active elements (R40, R92), operand forms (R109), the writing
of a destination (R89), and the checks that vector instructions share (R90, R108, R142). -/

namespace Sys2Proof.Machine

/-! Tags -/

/-- Is the tag an integer tag (R41)? -/
def Tag.isInt : Tag → Bool
  | .i8 | .n8 | .i16 | .n16 | .i32 | .n32 | .i64 | .n64 => true
  | _ => false

/-- Is the tag an `i` tag (R41)? -/
def Tag.isSigned : Tag → Bool
  | .i8 | .i16 | .i32 | .i64 => true
  | _ => false

/-- The format of a floating tag (R41). -/
def Tag.fmt : Tag → Option Fmt
  | .f16 => some .f16 | .bf16 => some .bf16 | .f32 => some .f32 | .f64 => some .f64
  | .e4m3 => some .e4m3 | .e5m2 => some .e5m2 | .e2m1 => some .e2m1
  | _ => none

/-- The class F of R110. -/
def Tag.isF : Tag → Bool
  | .f16 | .bf16 | .f32 | .f64 => true
  | _ => false

/-- The classes F and F8 of R110. -/
def Tag.isFloat : Tag → Bool
  | .f16 | .bf16 | .f32 | .f64 | .e4m3 | .e5m2 => true
  | _ => false

/-- The classes I, F and F8 of R110. -/
def Tag.isNumber (t : Tag) : Bool := t.isInt || t.isFloat

/-- W(t) of R111. -/
def Tag.widen : Tag → Option Tag
  | .i8 => some .i16 | .n8 => some .n16 | .i16 => some .i32 | .n16 => some .n32 | .i32 => some .i64 | .n32 => some .n64
  | .f16 => some .f32 | .bf16 => some .f32 | .f32 => some .f64 | .e4m3 => some .bf16 | .e5m2 => some .bf16
  | _ => none

/-- The integer an element stands for under an integer tag (R41). -/
def Tag.int (t : Tag) (b : Nat) : Int := if t.isSigned then signed t.width b else ((b % 2 ^ t.width : Nat) : Int)

/-- The least and the greatest value of an integer tag (R41). -/
def Tag.least (t : Tag) : Int := if t.isSigned then -(2 ^ (t.width - 1) : Nat) else 0
def Tag.greatest (t : Tag) : Int := if t.isSigned then (2 ^ (t.width - 1) : Nat) - 1 else (2 ^ t.width : Nat) - 1

/-- `sat` of R54 for an integer tag: the pattern, and SX when it clamps. -/
def Tag.sat (t : Tag) (x : Int) : FRes :=
  if x < t.least then ⟨wrap t.width t.least, flSX⟩
  else if t.greatest < x then ⟨wrap t.width t.greatest, flSX⟩ else ⟨wrap t.width x, 0⟩

/-! Elements -/

/-- Element `i` of an image with elements of `w` bits (R42). -/
def elemOf (img w i : Nat) : Nat := bits img (w * i) w

/-- Element `i` of a register under its tag (R42). -/
def VReg.elem (v : VReg) (i : Nat) : Nat := elemOf v.img.toNat v.tag.width i

/-- Elements packed into an image, the first lowest (R42). -/
def packElems (w : Nat) : List Nat → Nat
  | [] => 0
  | e :: es => e % 2 ^ w + (packElems w es) <<< w

/-- The image that a destination keeps under a new tag (R89): its own when the tag stays, zero otherwise. -/
def VReg.base (v : VReg) (t : Tag) : Nat := if v.tag = t then v.img.toNat else 0

/-- A destination after an instruction (R89): element i takes the i-th value where there is one. -/
def VReg.write (v : VReg) (t : Tag) (es : List (Option Nat)) : VReg :=
  let w := t.width
  let old := v.base t
  let low := packElems w (es.zipIdx.map fun e => e.1.getD (elemOf old w e.2))
  { tag := t, img := BitVec.ofNat 16384 (insertBits old 0 (w * es.length) low) }

/-! Active elements -/

/-- `active(m, i)` of R40, or of R92 in pair mode. -/
def activeAt (pair : Bool) (vl : Nat) (m : BitVec 2048) (i : Nat) : Bool :=
  if pair then decide (2 * (i / 2) < vl) && m.getLsbD (i / 2) else decide (i < vl) && m.getLsbD i

/-- The mask length of R92. -/
def maskLen (pair : Bool) (vl : Nat) : Nat := if pair then (vl + 1) / 2 else vl

/-- Elements of a destination of tag `d` that an instruction may write (R107): in pair mode an e2m1 destination takes the
whole last pair. -/
def destLen (pair : Bool) (d : Tag) (vl : Nat) : Nat := if pair && d == .e2m1 then 2 * ((vl + 1) / 2) else vl

/-! Checks -/

/-- Bytes of a register of `cpyv` (R263). -/
def fillBytes (t : Tag) (vl : Nat) : Nat := ceilDiv (t.width * vl) 8

/-- Element groups, of 512 bits, in so many bytes of a register (R104). -/
def groupsIn (bytes : Nat) : Nat := ceilDiv bytes 64

/-- The element groups of a hart's registers that a command has still to write, as register and group (R263, R264). -/
def Cmd.pending (uid : Nat) (c : Cmd) : List (Nat × Nat) :=
  let groups (vd n b : Nat) : List (Nat × Nat) :=
    ((upTo (n * groupsIn b)).filter fun i => !c.pieces.contains i).map fun i => (vd + i / groupsIn b, i % groupsIn b)
  match c.kind with
  | .fill vd n _ t vl => if c.hart = uid then groups vd n (fillBytes t vl) else []
  | .register target vd _ t vl _ => if target = uid then groups vd 1 (fillBytes t vl) else []
  | _ => []

/-- The element groups of a hart's registers that the engine has still to write (R263, R264). -/
def State.pendingGroups (s : State) (uid : Nat) : List (Nat × Nat) := s.cmds.flatMap (Cmd.pending uid)

/-- Wait until the engine has written registers that an instruction reads or writes whole (R263, R66). -/
def settled (regs : List (BitVec 5)) : M Unit := do
  let s ← get
  if (s.pendingGroups s.cur.uid).any fun p => regs.any fun r => p.1 == r.toNat then stall

/-- Does an instruction that works by element touch a pending group (R263): of a source, one below `vl`; of its destination,
one below `vl`, or any when the tag changes (R89)? -/
def Hart.touches (d : Option (BitVec 5 × Tag)) (srcs : List (BitVec 5)) (h : Hart) (p : Nat × Nat) : Bool :=
  let below (t : Tag) : Bool := decide (p.2 < groupsIn (fillBytes t h.vlen))
  (srcs.any fun r => p.1 == r.toNat && below (h.getV r).tag) ||
  d.any fun r => p.1 == r.1.toNat && ((h.getV r.1).tag != r.2 || below r.2)

/-- Wait until the engine has written the element groups that an instruction by element touches (R263, R66). -/
def settledElems (d : Option (BitVec 5 × Tag)) (srcs : List (BitVec 5)) : M Unit := do
  let s ← get
  if (s.pendingGroups s.cur.uid).any (s.cur.touches d srcs) then stall

/-- The first checks of R108: not in matrix mode, and not after `vrel`. -/
def notMatrixNotReleased : M Unit := do
  let h ← curHart
  need (!h.status.matrix) 0x0A
  need h.granted 0x09

/-- The capacity rule of R90 (and of R142 in matrix mode) for tags under the present `vl`. -/
def capacity (ts : List Tag) : M Unit := do
  let h ← curHart
  need (ts.all fun t => decide (t.width * h.vlen ≤ 2048 * h.vgrant)) 0x02

/-- The capacity rule of R90, from which matrix mode is exempt. -/
def capacityUnlessMatrix (ts : List Tag) : M Unit := do
  if !(← curHart).status.matrix then capacity ts

/-- Does element `i`, of `w` bits, of a vector register hold an uncorrectable error (R389)? -/
def Hart.elemBad (h : Hart) (w : Nat) (r : BitVec 5) (i : Nat) : Bool :=
  h.vbad.any fun p => p.1 == r.toNat && decide (8 * p.2 < w * (i + 1)) && decide (w * i < 8 * p.2 + 8)

/-- Does a vector register hold an uncorrectable error anywhere (R389)? -/
def Hart.regBad (h : Hart) (r : BitVec 5) : Bool := h.vbad.any fun p => p.1 == r.toNat

/-- Does bit `i` of a mask register hold an uncorrectable error (R389)? `m0` never does. -/
def Hart.bitBad (h : Hart) (m : BitVec 3) (i : Nat) : Bool := m != 0 && h.mbad.contains (m.toNat, i)

/-- Is every register, mask and tile of the hart free of errors? -/
def Hart.clean (h : Hart) : Bool := h.vbad.isEmpty && h.mbad.isEmpty && h.tbad.isEmpty

/-- The lowest of `n` elements, units or repetitions whose source is in error (R112, R389). -/
def Hart.lowestBad (h : Hart) (n : Nat) (bad : Nat → Bool) : Option Nat :=
  if h.clean then none else (upTo n).find? bad

/-- The machine check of R389 for the lowest element in error. -/
def soundBelow (n : Nat) (bad : Hart → Nat → Bool) : M Unit := do
  let h ← curHart
  match h.lowestBad n (bad h) with
  | some i => trap 0x0D 0 i
  | none => pure ()

/-- Is element `i` in error for an instruction that reads the mask bits below the mask length and the active elements of
registers (R389, R112, R92)? -/
def Hart.readsBad (regs : List (BitVec 5)) (m : BitVec 3) (pair : Bool) (h : Hart) (i : Nat) : Bool :=
  h.bitBad m (if pair then i / 2 else i) ||
  (activeAt pair h.vlen (h.getM m) i && regs.any fun r => h.elemBad (h.getV r).tag.width r i)

/-- Elements that the mask bits below the mask length govern (R92). -/
def governed (pair : Bool) (vl : Nat) : Nat := if pair then 2 * maskLen true vl else vl

/-- The checks of R108 in their order: `live` are the sources, `tagsOk` the tag rules, `extra` further tags for R90. -/
def vectorChecks (live : List (BitVec 5)) (tagsOk : Bool) (extra : List Tag) : M Unit := do
  notMatrixNotReleased
  let h ← curHart
  need ((live.all fun r => (h.getV r).tag != .dead) && tagsOk) 0x02
  capacity ((live.map fun r => (h.getV r).tag) ++ extra)

/-! The b operand -/

/-- What b supplies (R109): element patterns, the flags of a conversion, and the vector register it names. -/
structure BOperand where
  elem : Nat → Nat
  fl : BitVec 6 := 0
  reg : Option (BitVec 5) := none

/-- A scalar converted to tag `t` (R109); VLOGIC takes bits under any tag. -/
def scalarElem (t : Tag) (logic : Bool) (md : Mode) (x : Word) : FRes :=
  match t.fmt with
  | some f =>
    if logic || t = .e2m1 then ⟨x.toNat % 2 ^ t.width, 0⟩
    else if t = .f64 then ⟨x.toNat, 0⟩
    else if t = .f32 then ⟨unbox 0 x, 0⟩
    else Fmt.f32.convert f md (unbox 0 x)
  | none => ⟨x.toNat % 2 ^ t.width, 0⟩

/-- An immediate converted to tag `t` (R109): exact, or rounded with RNE, without flags. -/
def immediateElem (t : Tag) (logic : Bool) (k : BitVec 5) : Nat :=
  match t.fmt with
  | some f => if logic then wrap t.width k.toInt else (f.ofInt {} k.toInt).val
  | none => wrap t.width k.toInt

/-- The b operand of a form (R109, R27), with what the instruction captured. -/
def Hart.bOperand (h : Hart) (cap : Captured) (form : BitVec 2) (b : BitVec 5) (t : Tag) (logic : Bool) : BOperand :=
  if form = 0 then { elem := (h.getV b).elem, reg := some b }
  else if form = 1 then
    let r := scalarElem t logic (Mode.ofFmode cap.fmode) cap.scalar
    { elem := fun _ => r.val, fl := r.fl }
  else { elem := fun _ => immediateElem t logic b }

/-- The tag of the b operand: that of its register, or the one it is converted to. -/
def Hart.bTag (h : Hart) (form : BitVec 2) (b : BitVec 5) (t : Tag) : Tag := if form = 0 then (h.getV b).tag else t

/-- The registers among va and b that are read (R107). -/
def sourceRegs (form : BitVec 2) (a b : BitVec 5) : List (BitVec 5) := if form = 0 then [a, b] else [a]

/-! Per-element results -/

/-- Does a list of element values of `w` bits write every bit of byte `k`? -/
def coversByte (w : Nat) (es : List (Option Nat)) (k : Nat) : Bool :=
  (upTo ((8 * k + 7) / w - 8 * k / w + 1)).all fun j => (es[8 * k / w + j]?.join).isSome

/-- Write the elements of a destination (R89); an error stays in the bytes that are not written (R389). -/
def Hart.writeV (d : BitVec 5) (t : Tag) (es : List (Option Nat)) (h : Hart) : Hart :=
  let old := h.getV d
  { h.setV d (old.write t es) with
    vbad := h.vbad.filter fun p => p.1 != d.toNat || (old.tag == t && !coversByte t.width es p.2) }

/-- The results of the active elements below `n`. -/
def perElement (n : Nat) (active : Nat → Bool) (f : Nat → FRes) : List (Option FRes) :=
  (upTo n).map fun i => if active i then some (f i) else none

/-- The flags of the active elements (R56). -/
def resultFlags (rs : List (Option FRes)) : BitVec 6 := orFlags (rs.filterMap fun r => r.map FRes.fl)

/-- A vector instruction completes (R365 code 0x03). -/
def retireVector : M Unit := do
  modify fun s => s.countCur 0x03 1
  retireM

/-- Write a destination register and the flags of its elements, and complete (R107, R56). `once` are the flags of a vs
conversion, raised when an element is active (R109). -/
def writeVector (d : BitVec 5) (t : Tag) (rs : List (Option FRes)) (once : BitVec 6) : M Unit := do
  modCur (Hart.writeV d t (rs.map fun r => r.map FRes.val))
  modify fun s => s.raise (resultFlags rs ||| if rs.any Option.isSome then once else 0)
  retireVector

/-- Write bits below `ml` of a mask register where `active` (R119), and complete; other bits keep. -/
def Hart.writeMask (h : Hart) (d : BitVec 3) (n : Nat) (value : Nat → Option Bool) : Hart :=
  let old := h.getM d
  let low := packElems 1 ((upTo n).map fun i => flag ((value i).getD (old.getLsbD i)))
  { h.setM d (BitVec.ofNat 2048 (insertBits old.toNat 0 n low)) with
    mbad := h.mbad.filter fun p => p.1 != d.toNat || !(decide (p.2 < n) && (value p.2).isSome) }

end Sys2Proof.Machine
end

