-- ==== Sys2Proof/Machine/VArith.lean ====
section
/-! DEFINITION. Per-element vector instructions (06_vector_arithmetic.md). -/

namespace Sys2Proof.Machine

/-- The binary operations of VARITH (R113). -/
inductive VOp where
  | add | sub | rsub | mul | mulh | div | rem | min | max | sadd | ssub
  deriving DecidableEq, Repr

/-- The tags an operation accepts (R110). -/
def VOp.accepts (op : VOp) (t : Tag) : Bool :=
  match op with
  | .add | .sub | .rsub | .mul | .min | .max => t.isNumber
  | .mulh | .div | .rem | .sadd | .ssub => t.isInt

/-- The quotient of R71 at the width of an integer tag. -/
def Tag.quotient (t : Tag) (a b : Int) : Int :=
  if b = 0 then (if 0 < a then t.greatest else if a < 0 then t.least else 0)
  else if t.isSigned && a == t.least && b == -1 then t.greatest
  else a.tdiv b

/-- The remainder of R71 at the width of an integer tag. -/
def Tag.remainder (t : Tag) (a b : Int) : Int :=
  if b = 0 then a
  else if t.isSigned && a == t.least && b == -1 then -1
  else a - b * a.tdiv b

/-- The operation on the integers of a tag (R113). -/
def VOp.int (op : VOp) (t : Tag) (a b : Int) : FRes :=
  let w := t.width
  match op with
  | .add => ⟨wrap w (a + b), 0⟩
  | .sub => ⟨wrap w (a - b), 0⟩
  | .rsub => ⟨wrap w (b - a), 0⟩
  | .mul => ⟨wrap w (a * b), 0⟩
  | .mulh => ⟨wrap w (a * b / (2 ^ w : Nat)), 0⟩
  | .div => ⟨wrap w (t.quotient a b), 0⟩
  | .rem => ⟨wrap w (t.remainder a b), 0⟩
  | .min => ⟨wrap w (if a ≤ b then a else b), 0⟩
  | .max => ⟨wrap w (if a ≤ b then b else a), 0⟩
  | .sadd => t.sat (a + b)
  | .ssub => t.sat (a - b)

/-- The operation on patterns of a floating format (R113, R52). -/
def VOp.float (op : VOp) (f : Fmt) (md : Mode) (a b : Nat) : FRes :=
  match op with
  | .add => f.add md a b
  | .sub => f.sub md a b
  -- b − a as −a + b: the NaN order is va, then b (R52)
  | .rsub => f.addVals md (f.read md a).negate (f.read md b)
  | .mul => f.mul md a b
  | .min => f.minmax md false a b
  | .max => f.minmax md true a b
  | _ => ⟨0, 0⟩

/-- The operation on element patterns of a tag. -/
def VOp.apply (op : VOp) (t : Tag) (md : Mode) (a b : Nat) : FRes :=
  match t.fmt with
  | some f => op.float f md a b
  | none => op.int t (t.int a) (t.int b)

/-- A binary per-element instruction with the checks of R108: `ok` the tag rules, `rt` the result tag, `f` the element
function, which also sees the captured `fmode` and the old destination (R107, R112). An element `vl` that only an e2m1 source makes
active is not written, but raises its flags (R92, R107, R56). -/
def binary (form : BitVec 2) (d a b : BitVec 5) (m : BitVec 3) (logic readsD : Bool)
    (ok : Tag → Tag → Tag → Bool) (rt : Tag → Tag → Tag) (f : BitVec 6 → Tag → Tag → Nat → Nat → Nat → FRes) : M Unit := do
  let s ← get
  let h := s.cur
  let cap := s.issue [] (h.getX b)
  let t := (h.getV a).tag
  let td := (h.getV d).tag
  let res := rt t td
  let srcs := sourceRegs form a b ++ (if readsD then [d] else [])
  restartable cap do
    vectorChecks srcs (ok t (h.bTag form b t) td) [res]
    settledElems (some (d, res)) srcs
    let pair := t == .e2m1 || res == .e2m1
    let active := activeAt pair h.vlen (h.getM m)
    let n := destLen pair res h.vlen
    soundBelow (governed pair h.vlen) (Hart.readsBad srcs m pair)
    let bo := h.bOperand cap form b t logic
    let va := h.getV a
    let vd := h.getV d
    let at_ (i : Nat) : FRes := f cap.fmode t td (va.elem i) (bo.elem i) (vd.elem i)
    writeVector d res (perElement n active at_) (bo.fl ||| if active n then (at_ n).fl else 0)

/-- A binary VARITH instruction (R113). -/
def varith (op : VOp) (form : BitVec 2) (d a b : BitVec 5) (m : BitVec 3) (s : State) : Result :=
  finish (binary form d a b m false false (fun t tb _ => t = tb && op.accepts t) (fun t _ => t)
    fun fm t _ x y _ => op.apply t (Mode.ofFmode fm) x y) s

/-- A unary instruction (R113, R115, R116): `f` on element patterns. -/
def unary (d a : BitVec 5) (m : BitVec 3) (ok : Tag → Bool) (f : BitVec 6 → Tag → Nat → FRes) (s : State) : Result :=
  finish (binary 0 d a a m false false (fun t _ _ => ok t) (fun t _ => t) fun fm t _ x _ _ => f fm t x) s

/-- `vadd` (R113). -/
def execVadd (f : BitVec 2) (d a b : BitVec 5) (m : BitVec 3) (s : State) : Result := varith .add f d a b m s

/-- `vsub` (R113). -/
def execVsub (f : BitVec 2) (d a b : BitVec 5) (m : BitVec 3) (s : State) : Result := varith .sub f d a b m s

/-- `vrsub` (R113). -/
def execVrsub (f : BitVec 2) (d a b : BitVec 5) (m : BitVec 3) (s : State) : Result := varith .rsub f d a b m s

/-- `vmul` (R113). -/
def execVmul (f : BitVec 2) (d a b : BitVec 5) (m : BitVec 3) (s : State) : Result := varith .mul f d a b m s

/-- `vmulh` (R113). -/
def execVmulh (f : BitVec 2) (d a b : BitVec 5) (m : BitVec 3) (s : State) : Result := varith .mulh f d a b m s

/-- `vdiv` (R113, R71). -/
def execVdiv (f : BitVec 2) (d a b : BitVec 5) (m : BitVec 3) (s : State) : Result := varith .div f d a b m s

/-- `vrem` (R113, R71). -/
def execVrem (f : BitVec 2) (d a b : BitVec 5) (m : BitVec 3) (s : State) : Result := varith .rem f d a b m s

/-- `vmin` (R113, R52). -/
def execVmin (f : BitVec 2) (d a b : BitVec 5) (m : BitVec 3) (s : State) : Result := varith .min f d a b m s

/-- `vmax` (R113, R52). -/
def execVmax (f : BitVec 2) (d a b : BitVec 5) (m : BitVec 3) (s : State) : Result := varith .max f d a b m s

/-- `vsadd` (R113, R54). -/
def execVsadd (f : BitVec 2) (d a b : BitVec 5) (m : BitVec 3) (s : State) : Result := varith .sadd f d a b m s

/-- `vssub` (R113, R54). -/
def execVssub (f : BitVec 2) (d a b : BitVec 5) (m : BitVec 3) (s : State) : Result := varith .ssub f d a b m s

/-- `vabs` of one element (R113): on floating tags the sign bit is cleared. -/
def absElem (t : Tag) (x : Nat) : Nat :=
  if t.isInt then wrap t.width ((t.int x).natAbs : Int) else x % 2 ^ (t.width - 1)

/-- `vneg` of one element (R113): on floating tags the sign bit is inverted. -/
def negElem (t : Tag) (x : Nat) : Nat :=
  if t.isInt then wrap t.width (-(t.int x)) else x ^^^ 2 ^ (t.width - 1)

/-- `vabs` (R113). -/
def execVabs (d a : BitVec 5) (m : BitVec 3) (s : State) : Result :=
  unary d a m Tag.isNumber (fun _ t x => ⟨absElem t x, 0⟩) s

/-- `vneg` (R113). -/
def execVneg (d a : BitVec 5) (m : BitVec 3) (s : State) : Result :=
  unary d a m Tag.isNumber (fun _ t x => ⟨negElem t x, 0⟩) s

/-- One element of a fused multiply-add (R114): `negP` and `negC` invert product and addend. -/
def fmaElem (negP negC : Bool) (md : Mode) (t td : Tag) (a b c : Nat) : FRes :=
  match t.fmt, td.fmt with
  | some f, some g => g.fmaVals md negP negC (f.read md a) (f.read md b) (g.read md c)
  | _, _ =>
    let p := t.int a * t.int b
    ⟨wrap td.width ((if negP then -p else p) + (if negC then -(td.int c) else td.int c)), 0⟩

/-- A VFMA instruction (R110, R111, R114). -/
def vfma (negP negC : Bool) (form : BitVec 2) (d a b : BitVec 5) (m : BitVec 3) (s : State) : Result :=
  finish (binary form d a b m false true (fun t tb td => t = tb && t.isNumber && (td = t || t.widen == some td))
    (fun _ td => td) fun fm => fmaElem negP negC (Mode.ofFmode fm)) s

/-- `vfma` (R114). -/
def execVfma (f : BitVec 2) (d a b : BitVec 5) (m : BitVec 3) (s : State) : Result := vfma false false f d a b m s

/-- `vfms` (R114). -/
def execVfms (f : BitVec 2) (d a b : BitVec 5) (m : BitVec 3) (s : State) : Result := vfma false true f d a b m s

/-- `vfnma` (R114). -/
def execVfnma (f : BitVec 2) (d a b : BitVec 5) (m : BitVec 3) (s : State) : Result := vfma true true f d a b m s

/-- `vfnms` (R114). -/
def execVfnms (f : BitVec 2) (d a b : BitVec 5) (m : BitVec 3) (s : State) : Result := vfma true false f d a b m s

/-- One element of `vwmul` (R114). -/
def wideMulElem (md : Mode) (t : Tag) (a b : Nat) : FRes :=
  let w := t.widen.getD .dead
  match t.fmt, w.fmt with
  | some f, some g => g.mulVals md (f.read md a) (f.read md b)
  | _, _ => ⟨wrap w.width (t.int a * t.int b), 0⟩

/-- `vwmul` (R111, R114). -/
def execVwmul (f : BitVec 2) (d a b : BitVec 5) (m : BitVec 3) (s : State) : Result :=
  finish (binary f d a b m false false (fun t tb _ => t = tb && t.widen.isSome) (fun t _ => t.widen.getD .dead)
    fun fm t _ x y _ => wideMulElem (Mode.ofFmode fm) t x y) s

/-- A bitwise instruction (R115). -/
def bitwise (f : Nat → Nat → Nat) (form : BitVec 2) (d a b : BitVec 5) (m : BitVec 3) (s : State) : Result :=
  finish (binary form d a b m true false (fun t tb _ => t = tb) (fun t _ => t) fun _ _ _ x y _ => ⟨f x y, 0⟩) s

/-- `vand` (R115). -/
def execVand (f : BitVec 2) (d a b : BitVec 5) (m : BitVec 3) (s : State) : Result := bitwise (· &&& ·) f d a b m s

/-- `vor` (R115). -/
def execVor (f : BitVec 2) (d a b : BitVec 5) (m : BitVec 3) (s : State) : Result := bitwise (· ||| ·) f d a b m s

/-- `vxor` (R115). -/
def execVxor (f : BitVec 2) (d a b : BitVec 5) (m : BitVec 3) (s : State) : Result := bitwise (· ^^^ ·) f d a b m s

/-- `vnot` (R115). -/
def execVnot (d a : BitVec 5) (m : BitVec 3) (s : State) : Result :=
  unary d a m (fun _ => true) (fun _ t x => ⟨2 ^ t.width - 1 - x, 0⟩) s

/-- A shift (R115): the amount is the low log2(w) bits of b, and `b` itself follows VLOGIC's operand rule. -/
def shift (f : Nat → Nat → Nat → Nat) (form : BitVec 2) (d a b : BitVec 5) (m : BitVec 3) (s : State) : Result :=
  finish (binary form d a b m true false (fun t tb _ => t = tb && t.isInt) (fun t _ => t)
    fun _ t _ x y _ => ⟨f t.width x (y % t.width), 0⟩) s

/-- `vsll` (R115). -/
def execVsll (f : BitVec 2) (d a b : BitVec 5) (m : BitVec 3) (s : State) : Result :=
  shift (fun w x k => (x <<< k) % 2 ^ w) f d a b m s

/-- `vsrl` (R115). -/
def execVsrl (f : BitVec 2) (d a b : BitVec 5) (m : BitVec 3) (s : State) : Result := shift (fun _ x k => x >>> k) f d a b m s

/-- `vsra` (R115): bit w − 1 is shifted in under every tag. -/
def execVsra (f : BitVec 2) (d a b : BitVec 5) (m : BitVec 3) (s : State) : Result :=
  shift (fun w x k => wrap w (signed w x / (2 ^ k : Nat))) f d a b m s

/-- `vpopc` (R115). -/
def execVpopc (d a : BitVec 5) (m : BitVec 3) (s : State) : Result :=
  unary d a m Tag.isInt (fun _ t x => ⟨popCount t.width x, 0⟩) s

/-- `vclz` (R115). -/
def execVclz (d a : BitVec 5) (m : BitVec 3) (s : State) : Result :=
  unary d a m Tag.isInt (fun _ t x => ⟨t.width - bitLen x, 0⟩) s

/-- One of the five bounded functions (R116, R117). -/
def vfunc (fn : Fn) (d a : BitVec 5) (m : BitVec 3) (s : State) : Result :=
  unary d a m Tag.isF (fun fm t x => match t.fmt with
    | some f => f.func fn t.code fm x
    | none => ⟨0, 0⟩) s

/-- `vrecip` (R116, R117). -/
def execVrecip (d a : BitVec 5) (m : BitVec 3) (s : State) : Result := vfunc .recip d a m s

/-- `vrsqrt` (R116, R117). -/
def execVrsqrt (d a : BitVec 5) (m : BitVec 3) (s : State) : Result := vfunc .rsqrt d a m s

/-- `vsqrt` (R116, R117): correctly rounded with rm. -/
def execVsqrt (d a : BitVec 5) (m : BitVec 3) (s : State) : Result :=
  unary d a m Tag.isF (fun fm t x => match t.fmt with
    | some f => f.sqrt (Mode.ofFmode fm) x
    | none => ⟨0, 0⟩) s

/-- `vexp2` (R116, R117). -/
def execVexp2 (d a : BitVec 5) (m : BitVec 3) (s : State) : Result := vfunc .exp2 d a m s

/-- `vlog2` (R116, R117). -/
def execVlog2 (d a : BitVec 5) (m : BitVec 3) (s : State) : Result := vfunc .log2 d a m s

/-- `vtanh` (R116, R117). -/
def execVtanh (d a : BitVec 5) (m : BitVec 3) (s : State) : Result := vfunc .tanh d a m s

/-- The conditions of VCMP (R118). -/
inductive Cc where
  | eq | ne | lt | le | gt | ge | un
  deriving DecidableEq, Repr

/-- Is the condition true of two integers (R118)? -/
def Cc.int (cc : Cc) (a b : Int) : Bool :=
  match cc with
  | .eq => a == b
  | .ne => a != b
  | .lt => decide (a < b)
  | .le => decide (a ≤ b)
  | .gt => decide (b < a)
  | .ge => decide (b ≤ a)
  | .un => false

/-- Is the condition true of a floating comparison (R118)? -/
def Cc.holds (cc : Cc) (c : FCmp) : Bool :=
  match cc with
  | .eq => c.eq
  | .ne => !c.eq
  | .lt => c.lt
  | .le => c.lt || c.eq
  | .gt => !c.un && !c.lt && !c.eq
  | .ge => !c.un && !c.lt
  | .un => c.un

/-- Does the condition raise NV for a quiet NaN too (R118)? -/
def Cc.signals : Cc → Bool
  | .lt | .le | .gt | .ge => true
  | _ => false

/-- One comparison: outcome and flags (R118). -/
def Cc.apply (cc : Cc) (t : Tag) (md : Mode) (a b : Nat) : Bool × BitVec 6 :=
  match t.fmt with
  | some f =>
    let c := f.cmp md a b
    (cc.holds c, if c.snan || (c.un && cc.signals) then flNV else 0)
  | none => (cc.int (t.int a) (t.int b), 0)

/-- A VCMP instruction (R118, R119). -/
def vcompare (cc : Cc) (form : BitVec 2) (d : BitVec 3) (a b : BitVec 5) (m : BitVec 3) : M Unit := do
  let s ← get
  let h := s.cur
  let cap := s.issue [] (h.getX b)
  let t := (h.getV a).tag
  let srcs := sourceRegs form a b
  restartable cap do
    vectorChecks srcs (t == h.bTag form b t && (if cc = .un then t.isFloat else t.isNumber)) []
    settledElems none srcs
    let active := activeAt false h.vlen (h.getM m)
    soundBelow h.vlen (Hart.readsBad srcs m false)
    let bo := h.bOperand cap form b t false
    let va := h.getV a
    let rs := (upTo h.vlen).map fun i =>
      if active i then some (cc.apply t (Mode.ofFmode cap.fmode) (va.elem i) (bo.elem i)) else none
    modCur fun h => h.writeMask d h.vlen fun i => (rs[i]?.join).map Prod.fst
    modify fun s => s.raise (orFlags (rs.filterMap fun r => r.map Prod.snd) |||
      if rs.any Option.isSome then bo.fl else 0)
    retireVector

/-- `vcmp.eq` (R118). -/
def execVcmpEq (f : BitVec 2) (d : BitVec 3) (a b : BitVec 5) (m : BitVec 3) (s : State) : Result :=
  finish (vcompare .eq f d a b m) s

/-- `vcmp.ne` (R118). -/
def execVcmpNe (f : BitVec 2) (d : BitVec 3) (a b : BitVec 5) (m : BitVec 3) (s : State) : Result :=
  finish (vcompare .ne f d a b m) s

/-- `vcmp.lt` (R118). -/
def execVcmpLt (f : BitVec 2) (d : BitVec 3) (a b : BitVec 5) (m : BitVec 3) (s : State) : Result :=
  finish (vcompare .lt f d a b m) s

/-- `vcmp.le` (R118). -/
def execVcmpLe (f : BitVec 2) (d : BitVec 3) (a b : BitVec 5) (m : BitVec 3) (s : State) : Result :=
  finish (vcompare .le f d a b m) s

/-- `vcmp.gt` (R118). -/
def execVcmpGt (f : BitVec 2) (d : BitVec 3) (a b : BitVec 5) (m : BitVec 3) (s : State) : Result :=
  finish (vcompare .gt f d a b m) s

/-- `vcmp.ge` (R118). -/
def execVcmpGe (f : BitVec 2) (d : BitVec 3) (a b : BitVec 5) (m : BitVec 3) (s : State) : Result :=
  finish (vcompare .ge f d a b m) s

/-- `vcmp.un` (R118). -/
def execVcmpUn (f : BitVec 2) (d : BitVec 3) (a b : BitVec 5) (m : BitVec 3) (s : State) : Result :=
  finish (vcompare .un f d a b m) s

/-- A plain conversion (R121). -/
def convertElem (t u : Tag) (md : Mode) (a : Nat) : FRes :=
  match t.fmt, u.fmt with
  | none, none => if md.sat then u.sat (t.int a) else ⟨wrap u.width (t.int a), 0⟩
  | none, some g => g.ofInt md (t.int a)
  | some f, none =>
    let r := toIntSat md.rm u.least u.greatest (f.decode a)
    ⟨wrap u.width r.1, r.2⟩
  | some f, some g =>
    -- to its own tag an infinity stays even under .sat
    if t = u then g.ofVal { md with sat := false } (f.read md a) else g.ofVal md (f.read md a)

/-- The mode of a VCVT: its rounding code, or `fmode.rm` for 000 (R120). -/
def vcvtMode (fm : BitVec 6) (r : BitVec 3) (sat : Bool) : Mode :=
  let md := { Mode.ofFmode fm with sat := sat }
  if r = 0 then md else { md with rm := Rm.ofCode (r.toNat - 1) }

/-- VCVT without stochastic rounding (R121). -/
def vcvt (d a : BitVec 5) (r m : BitVec 3) (u : BitVec 4) (sat : Bool) (s : State) : Result :=
  let res := Tag.ofCode u.toNat
  finish (binary 0 d a a m false false (fun _ _ _ => true) (fun _ _ => res)
    fun fm t _ x _ _ => convertElem t res (vcvtMode fm r sat) x) s

/-- `vcvt` (R121). -/
def execVcvt (d a : BitVec 5) (r m : BitVec 3) (u : BitVec 4) (s : State) : Result := vcvt d a r m u false s

/-- `vcvt.sat` (R121). -/
def execVcvtSat (d a : BitVec 5) (r m : BitVec 3) (u : BitVec 4) (s : State) : Result := vcvt d a r m u true s

/-- Stochastic rounding of one element (R122, R57). -/
def stochasticElem (t u : Tag) (md : Mode) (a rand : Nat) : FRes :=
  match u.fmt with
  | some g =>
    g.stochastic md (match t.fmt with
      | some f => f.read md a
      | none => .fin (decide (t.int a < 0)) (t.int a).natAbs 0) rand
  | none => ⟨0, 0⟩

/-- VCVT with stochastic rounding (R122): random bits from vb. -/
def vcvtSr (d a b : BitVec 5) (m : BitVec 3) (u : BitVec 4) (sat : Bool) (s : State) : Result :=
  let res := Tag.ofCode u.toNat
  finish (binary 0 d a b m false false (fun _ tb _ => tb = .n32 && res.fmt.isSome) (fun _ _ => res)
    fun fm t _ x y _ => stochasticElem t res { Mode.ofFmode fm with sat := sat } x y) s

/-- `vcvt.sr` (R122). -/
def execVcvtSr (d a b : BitVec 5) (m : BitVec 3) (u : BitVec 4) (s : State) : Result := vcvtSr d a b m u false s

/-- `vcvt.sr.sat` (R122). -/
def execVcvtSrSat (d a b : BitVec 5) (m : BitVec 3) (u : BitVec 4) (s : State) : Result := vcvtSr d a b m u true s

end Sys2Proof.Machine
end

