-- ==== Sys2Proof/Machine/VCross.lean ====
section
/-! DEFINITION. Reductions, scans, permutations, moves and bitmap instructions (07_cross_lane.md). -/

namespace Sys2Proof.Machine

/-! Reductions and scans -/

/-- The operations of VRED (R127). -/
inductive Red where
  | sum | max | min | and | or | xor
  deriving DecidableEq, Repr

/-- The tags an operation accepts (R127). -/
def Red.accepts (op : Red) (t : Tag) : Bool :=
  match op with
  | .sum | .max | .min => t.isNumber
  | _ => t.isInt

/-- The integer identities (R128). -/
def Red.identity (op : Red) (t : Tag) : Nat :=
  match op with
  | .sum | .or | .xor => 0
  | .and => 2 ^ t.width - 1
  | .max => wrap t.width t.least
  | .min => wrap t.width t.greatest

/-- The operation on integer patterns (R128). -/
def Red.int (op : Red) (t : Tag) (a b : Nat) : Nat :=
  match op with
  | .sum => (a + b) % 2 ^ t.width
  | .and => a &&& b
  | .or => a ||| b
  | .xor => a ^^^ b
  | .max => if t.int a ≤ t.int b then b else a
  | .min => if t.int a ≤ t.int b then a else b

/-- The infinity of e4m3 that a tree carries as an exact value (R128): a pattern outside the format. -/
def e4m3Infinity : Nat := 256

/-- Is the pattern the infinity that an e4m3 tree carries (R128)? -/
def Fmt.isCarried (f : Fmt) (x : Nat) : Bool := f.special == .e4m3 && x == e4m3Infinity

/-- The floating identities (R60). -/
def Red.floatIdentity (op : Red) (f : Fmt) : Nat :=
  match op with
  | .max => if f.special = .e4m3 then e4m3Infinity else f.signed true f.infMag
  | .min => if f.special = .e4m3 then e4m3Infinity else f.infMag
  | _ => f.signed true 0

/-- The operation at a node (R60, R52). Against the infinity of an e4m3 tree the other operand wins, unless it is NaN. -/
def Red.float (op : Red) (f : Fmt) (md : Mode) (a b : Nat) : FRes :=
  match op with
  | .max | .min =>
    if f.isCarried a then ⟨if (f.decode b).isNan && b != e4m3Infinity then a else b, 0⟩
    else if f.isCarried b then ⟨if (f.decode a).isNan then b else a, 0⟩
    else f.minmax md (op == .max) a b
  | _ => f.add md a b

/-- One level of the tree (R60). -/
def treeLevel (op : Nat → Nat → FRes) : List Nat → List Nat × BitVec 6
  | a :: b :: rest =>
    let r := op a b
    let (l, fl) := treeLevel op rest
    (r.val :: l, r.fl ||| fl)
  | l => (l, 0)

/-- The tree of R60 over 2^levels leaves. -/
def tree (op : Nat → Nat → FRes) : Nat → List Nat → FRes
  | 0, l => ⟨l.headD 0, 0⟩
  | n + 1, l =>
    let (l', fl) := treeLevel op l
    let r := tree op n l'
    ⟨r.val, fl ||| r.fl⟩

/-- The least number of levels whose leaves hold `n` elements (R60). -/
def treeLevels (n : Nat) : Nat := bitLen (Nat.max n 1 - 1)

/-- The one element of a tree without a node. DESIGN CHOICE (notes/assumptions/23.md): R60 gives such a tree no operation, and R50
and R52 speak of the operations of VRED; the element is the operand and the rounded result of one: DAZ and FTZ apply, and a NaN
becomes a NaN result. -/
def Red.single (op : Red) (f : Fmt) (md : Mode) (x : Nat) : FRes :=
  match op with
  | .max | .min => if (f.decode x).isNan then f.nanResult md [f.decode x] else ⟨f.daz md x, 0⟩
  | _ => f.convert f md x

/-- The result of a reduction (R128, R129). DESIGN CHOICE (notes/assumptions/23.md): the identity of an e4m3 tree that survives
because every active element is NaN gives the value that R128 states where none is active. -/
def Red.reduce (op : Red) (t : Tag) (md : Mode) (vl : Nat) (active : Nat → Bool) (elem : Nat → Nat) : FRes :=
  match t.fmt with
  | some f =>
    let k := treeLevels vl
    let leaves := (upTo (2 ^ k)).map fun j => if active j then elem j else op.floatIdentity f
    let r := if vl = 1 && active 0 then op.single f md (elem 0) else tree (op.float f md) k leaves
    ⟨if f.isCarried r.val then (if op = .max then 0xFF else 0x7F) else r.val, r.fl⟩
  | none => ⟨((upTo vl).filter active).foldl (fun x i => op.int t x (elem i)) (op.identity t), 0⟩

/-- The checks and reads that VRED and scans share; the rest gets the hart, the tag, the mode and the active elements. DESIGN CHOICE
(notes/assumptions/18.md): `tidx` of a machine check is the element of the source. -/
def reductionOf (ok : Tag → Bool) (d a : BitVec 5) (m : BitVec 3)
    (f : Tag → Mode → Nat → (Nat → Bool) → (Nat → Nat) → List (Option FRes) × BitVec 6) : M Unit := do
  let s ← get
  let h := s.cur
  let cap := s.issue []
  let t := (h.getV a).tag
  restartable cap do
    vectorChecks [a] (ok t) []
    settled [a, d]
    let active := activeAt false h.vlen (h.getM m)
    soundBelow h.vlen (Hart.readsBad [a] m false)
    let (rs, fl) := f t (Mode.ofFmode cap.fmode) h.vlen active (h.getV a).elem
    writeVector d t rs fl

/-- A reduction (R128): element 0 is written even when `vl` is 0. -/
def vred (op : Red) (d a : BitVec 5) (m : BitVec 3) (s : State) : Result :=
  finish (reductionOf op.accepts d a m fun t md vl active elem => ([some (op.reduce t md vl active elem)], 0)) s

/-- `vredsum` (R128). -/
def execVredsum (d a : BitVec 5) (m : BitVec 3) (s : State) : Result := vred .sum d a m s

/-- `vredmax` (R128). -/
def execVredmax (d a : BitVec 5) (m : BitVec 3) (s : State) : Result := vred .max d a m s

/-- `vredmin` (R128). -/
def execVredmin (d a : BitVec 5) (m : BitVec 3) (s : State) : Result := vred .min d a m s

/-- `vredand` (R128). -/
def execVredand (d a : BitVec 5) (m : BitVec 3) (s : State) : Result := vred .and d a m s

/-- `vredor` (R128). -/
def execVredor (d a : BitVec 5) (m : BitVec 3) (s : State) : Result := vred .or d a m s

/-- `vredxor` (R128). -/
def execVredxor (d a : BitVec 5) (m : BitVec 3) (s : State) : Result := vred .xor d a m s

/-- One step of a floating scan (R130), with the running value first: the first active element of an e4m3 maximum is copied
exactly, and a NaN operand gives a NaN, since R52 does not list `vscan.max` among the operations that drop one. DESIGN CHOICE
(notes/assumptions/23.md): −0 is below +0 for it, as R52 has it for the operations that it does list. -/
def Red.scanStep (op : Red) (f : Fmt) (md : Mode) (x y : Nat) : FRes :=
  if f.isCarried x then ⟨y, 0⟩
  else if op = .max ∧ ((f.decode x).isNan || (f.decode y).isNan) then f.nanResult md [f.decode x, f.decode y]
  else op.float f md x y

/-- A scan (R130) from the running value `x` through the remaining elements. -/
def scanFrom (op : Nat → Nat → FRes) (active : Nat → Bool) (elem : Nat → Nat) : Nat → List Nat → List (Option FRes)
  | _, [] => []
  | x, i :: is =>
    if active i then let r := op x (elem i); some r :: scanFrom op active elem r.val is
    else none :: scanFrom op active elem x is

/-- The scans (R130). -/
def vscan (op : Red) (d a : BitVec 5) (m : BitVec 3) (s : State) : Result :=
  finish (reductionOf op.accepts d a m fun t md vl active elem =>
    (match t.fmt with
     | some f => scanFrom (op.scanStep f md) active elem (op.floatIdentity f) (upTo vl)
     | none => scanFrom (fun x y => ⟨op.int t x y, 0⟩) active elem (op.identity t) (upTo vl), 0)) s

/-- `vscan.sum` (R130). -/
def execVscanSum (d a : BitVec 5) (m : BitVec 3) (s : State) : Result := vscan .sum d a m s

/-- `vscan.max` (R130). -/
def execVscanMax (d a : BitVec 5) (m : BitVec 3) (s : State) : Result := vscan .max d a m s

/-! Permutations and moves -/

/-- Every live tag but e2m1 (R131). -/
def Tag.movable (t : Tag) : Bool := t != .dead && t != .e2m1

/-- What a permutation writes to an element (R131): nothing, zero, or an element of va. -/
inductive Moved where
  | keep
  | zero
  | from (k : Nat)

/-- The captured values of a permutation, with the scalar that b names (R125, R201). -/
def State.permCapture (s : State) (b : BitVec 5) : Captured := s.issue [] (s.x b)

/-- A permutation of va (R131): where element i of the result comes from, by the length. `more` are further sources.
DESIGN CHOICE (notes/assumptions/18.md): `tidx` of a machine check is the element of the result. -/
def permute (cap : Captured) (d a : BitVec 5) (more : List (BitVec 5)) (m : BitVec 3) (ok : Bool)
    (f : Nat → Nat → Moved) : M Unit := do
  restartable cap do
    let h ← curHart
    let va := h.getV a
    let t := va.tag
    vectorChecks (a :: more) (t.movable && ok) []
    settled (d :: a :: more)
    let active := activeAt false h.vlen (h.getM m)
    soundBelow h.vlen fun h i => h.readsBad more m false i || (active i && match f h.vlen i with
      | .from k => h.elemBad t.width a k
      | _ => false)
    writeVector d t ((upTo h.vlen).map fun i => if active i then (match f h.vlen i with
      | .keep => none
      | .zero => some ⟨0, 0⟩
      | .from k => some ⟨va.elem k, 0⟩) else none) 0

/-- The amount or index that b supplies (R131): the scalar read unsigned, or the immediate. -/
def Captured.amount (c : Captured) (form : BitVec 2) (b : BitVec 5) : Nat :=
  if form = 1 then c.scalar.toNat else b.toNat

/-- `vslideup` (R131). -/
def execVslideup (f : BitVec 2) (d a b : BitVec 5) (m : BitVec 3) (s : State) : Result :=
  let cap := s.permCapture b
  let k := cap.amount f b
  finish (permute cap d a [] m true fun _ i => if k ≤ i then .from (i - k) else .keep) s

/-- `vslidedn` (R131). -/
def execVslidedn (f : BitVec 2) (d a b : BitVec 5) (m : BitVec 3) (s : State) : Result :=
  let cap := s.permCapture b
  let k := cap.amount f b
  finish (permute cap d a [] m true fun vl i => if i + k < vl then .from (i + k) else .zero) s

/-- `vperm` (R131). -/
def execVperm (d a b : BitVec 5) (m : BitVec 3) (s : State) : Result :=
  let vb := s.cur.getV b
  finish (permute (s.permCapture 0) d a [b] m vb.tag.isInt fun vl i =>
    if vb.elem i < vl then .from (vb.elem i) else .zero) s

/-- `vbcast` (R131). -/
def execVbcast (f : BitVec 2) (d a b : BitVec 5) (m : BitVec 3) (s : State) : Result :=
  let cap := s.permCapture b
  let k := cap.amount f b
  finish (permute cap d a [] m true fun vl _ => if k < vl then .from k else .zero) s

/-- `vcompress` (R132): the selected elements, packed. DESIGN CHOICE (notes/assumptions/18.md): `tidx` of a machine check is the
element of the source. -/
def execVcompress (d a : BitVec 5) (m : BitVec 3) (s : State) : Result :=
  finish (restartable (s.permCapture 0) do
    let h ← curHart
    let t := (h.getV a).tag
    vectorChecks [a] t.movable []
    settled [d, a]
    let sel := (upTo h.vlen).filter (activeAt false h.vlen (h.getM m))
    soundBelow h.vlen (Hart.readsBad [a] m false)
    writeVector d t (sel.map fun i => some ⟨(h.getV a).elem i, 0⟩) 0) s

/-- `vexpand` (R132): element i takes as many elements of va as lie selected below it. -/
def execVexpand (d a : BitVec 5) (m : BitVec 3) (s : State) : Result :=
  let sel := s.cur.getM m
  finish (permute (s.permCapture 0) d a [] m true fun _ i => .from (popCount i (sel.toNat % 2 ^ i))) s

/-- The registers v24 to v31 are no operands in matrix mode (R142). -/
def notLatches (regs : List (BitVec 5)) : M Unit := do
  let h ← curHart
  need (!(h.status.matrix && regs.any fun r => decide (24 ≤ r.toNat))) 0x0A

/-- The checks of a move that is legal in matrix mode (R124, R142). -/
def moveChecks (regs live : List (BitVec 5)) (ok : Bool) : M Unit := do
  notLatches regs
  let h ← curHart
  need h.granted 0x09
  need ((live.all fun r => (h.getV r).tag != .dead) && ok) 0x02
  capacity (live.map fun r => (h.getV r).tag)
  settled regs

/-- `vmv` (R131). DESIGN CHOICE (notes/assumptions/23.md): of an e2m1 register with an odd `vl`, the element `vl` that shares the
last byte is copied from the image of the source. -/
def execVmv (d a : BitVec 5) (m : BitVec 3) (s : State) : Result :=
  finish (restartable (s.permCapture 0) do
    moveChecks [d, a] [a] true
    let h ← curHart
    let t := (h.getV a).tag
    let active := activeAt (t == .e2m1) h.vlen (h.getM m)
    let n := destLen (t == .e2m1) t h.vlen
    soundBelow (governed (t == .e2m1) h.vlen) (Hart.readsBad [a] m (t == .e2m1))
    writeVector d t (perElement n active fun i => ⟨(h.getV a).elem i, 0⟩) 0) s

/-- `viota` (R131). -/
def execViota (d : BitVec 5) (u : BitVec 4) (m : BitVec 3) (s : State) : Result :=
  let t := Tag.ofCode u.toNat
  finish (restartable (s.permCapture 0) do
    vectorChecks [] t.isInt [t]
    settled [d]
    let h ← curHart
    let active := activeAt false h.vlen (h.getM m)
    soundBelow h.vlen (Hart.readsBad [] m false)
    writeVector d t (perElement h.vlen active fun i => ⟨i % 2 ^ t.width, 0⟩) 0) s

/-- The scalar that an element becomes (R133). -/
def elemScalar (t : Tag) (v : Nat) : Word :=
  if t.isSigned then BitVec.ofInt 64 (signed t.width v) else if t = .f32 then box 0 v else BitVec.ofNat 64 v

/-- `vmvx` (R133). -/
def execVmvx (f : BitVec 2) (d a b : BitVec 5) (s : State) : Result :=
  let cap := s.permCapture b
  let k := cap.amount f b
  finish (restartable cap do
    let h ← curHart
    let va := h.getV a
    moveChecks [a] [a] va.tag.movable
    if k < h.vlen then soundBelow (k + 1) fun h i => i == k && h.elemBad va.tag.width a k
    modCur fun h => h.setX d (if k < h.vlen then elemScalar va.tag (va.elem k) else 0)
    retireVector) s

/-- `vmvs` (R133). -/
def execVmvs (d b : BitVec 5) (m : BitVec 3) (s : State) : Result :=
  finish (restartable (s.permCapture b) do
    moveChecks [d] [d] true
    let h ← curHart
    let t := (h.getV d).tag
    let cap := s.permCapture b
    let r := scalarElem t false (Mode.ofFmode cap.fmode) cap.scalar
    let active := activeAt (t == .e2m1) h.vlen (h.getM m)
    let n := destLen (t == .e2m1) t h.vlen
    soundBelow (governed (t == .e2m1) h.vlen) (Hart.readsBad [] m (t == .e2m1))
    writeVector d t (perElement n active fun _ => ⟨r.val, 0⟩) r.fl) s

/-! Bitmap instructions -/

/-- `nz` of R51: any bit but the sign bit of a floating tag. -/
def nonzero (t : Tag) (e : Nat) : Bool := if t.fmt.isSome then e % 2 ^ (t.width - 1) != 0 else e != 0

/-- `vnzb` (R135): in pair mode bit j covers elements 2j and 2j + 1. -/
def execVnzb (d : BitVec 3) (a : BitVec 5) (m : BitVec 3) (s : State) : Result :=
  finish (restartable (s.permCapture 0) do
    let h ← curHart
    let va := h.getV a
    let t := va.tag
    vectorChecks [a] true []
    settled [a]
    let ml := maskLen (t == .e2m1) h.vlen
    let sel := h.getM m
    soundBelow (governed (t == .e2m1) h.vlen) (Hart.readsBad [a] m (t == .e2m1))
    let one (j : Nat) : Bool :=
      if t = .e2m1 then nonzero t (va.elem (2 * j)) || nonzero t (va.elem (2 * j + 1)) else nonzero t (va.elem j)
    modCur fun h => h.writeMask d ml fun j => if sel.getLsbD j then some (one j) else none
    retireVector) s

/-- `vbpop` (R135): set bits of the lower elements, whatever the mask. DESIGN CHOICE (notes/assumptions/18.md): `tidx` of a machine
check is the element of the result. -/
def execVbpop (d a : BitVec 5) (m : BitVec 3) (s : State) : Result :=
  finish (restartable (s.permCapture 0) do
    let h ← curHart
    let va := h.getV a
    let w := va.tag.width
    vectorChecks [a] va.tag.isInt [.n32]
    settled [d, a]
    let active := activeAt false h.vlen (h.getM m)
    soundBelow h.vlen fun h i => h.readsBad [] m false i ||
      (active i && (upTo i).any (h.elemBad w a))
    writeVector d .n32 (perElement h.vlen active fun i => ⟨popCount (w * i) va.img.toNat, 0⟩) 0) s

/-- The machine check of an instruction with bitmap operands (R134, R389): they are read whole whatever `vl` and the mask say,
so an error in one concerns element 0. -/
def soundBitmaps (bitmaps regs : List (BitVec 5)) (m : BitVec 3) : M Unit := do
  let h ← curHart
  soundBelow (Nat.max 1 h.vlen) fun h i =>
    (i == 0 && bitmaps.any h.regBad) || (decide (i < h.vlen) && h.readsBad regs m false i)

/-- `vrank` (R134, R135). -/
def execVrank (d a b : BitVec 5) (m : BitVec 3) (s : State) : Result :=
  finish (restartable (s.permCapture 0) do
    let h ← curHart
    let va := h.getV a
    let vb := h.getV b
    notMatrixNotReleased
    need (va.tag.isInt && vb.tag == .n32) 0x02
    capacity [.n32]
    settled [d, a, b]
    let active := activeAt false h.vlen (h.getM m)
    soundBitmaps [a] [b] m
    writeVector d .n32 (perElement h.vlen active fun i => ⟨popCount (min (vb.elem i) 16384) va.img.toNat, 0⟩) 0) s

/-- The first `n` positions of set bits, ascending. -/
def bitPositions : Nat → Nat → List Nat
  | 0, _ => []
  | n + 1, c =>
    if c = 0 then [] else
      let rest := c &&& (c - 1)
      Nat.log2 (c ^^^ rest) :: bitPositions n rest

/-- `vxsect` (R136). -/
def execVxsect (d a b : BitVec 5) (m : BitVec 3) (s : State) : Result :=
  finish (restartable (s.permCapture 0) do
    let h ← curHart
    let va := h.getV a
    let vb := h.getV b
    notMatrixNotReleased
    need (va.tag.isInt && vb.tag.isInt) 0x02
    capacity [.n32]
    settled [d, a, b]
    let active := activeAt false h.vlen (h.getM m)
    soundBitmaps [a, b] [] m
    let ps := bitPositions h.vlen (va.img &&& vb.img).toNat
    writeVector d .n32 (perElement h.vlen active fun j => ⟨ps.getD j 0xFFFFFFFF, 0⟩) 0) s

end Sys2Proof.Machine
end

