-- ==== Sys2Proof/Machine/VMem.lean ====
section
/-! DEFINITION. Vector memory instructions (12_memory_instructions.md, R216-R234). -/

namespace Sys2Proof.Machine

/-! Capture, checks and order -/

/-- The captured values of a vector memory instruction: those of its first issue when it is resumed (R223), else the
present ones. Progress of an instruction at another address traps first of all (R218, R388). -/
def captureOf (operands : List Word) : M Captured := do
  let s ← get
  match s.cur.progress.addr with
  | some a => if a = s.cur.pc then return s.cur.progress.cap else trap 0x0A
  | none => return s.capture operands

/-- Steps 1 to 4 of R218 (R142, R100, R90), and the wait for registers an engine still writes (R263). -/
def memoryChecks (regs live : List (BitVec 5)) (ok : Bool) (dest : Option (BitVec 5 × Tag)) (tags : List Tag) : M Unit := do
  notLatches regs
  let h ← curHart
  need h.granted 0x09
  need ((live.all fun r => (h.getV r).tag != .dead) && ok) 0x02
  capacity tags
  settledElems dest live

/-- Bytes of one unit of an access: an element, or a pair of e2m1 elements (R217). -/
def Tag.unitBytes (t : Tag) : Nat := if t = .e2m1 then 1 else t.width / 8

/-- Elements of a unit (R217). -/
def Tag.unitElems (t : Tag) : Nat := if t = .e2m1 then 2 else 1

/-- Units of a vector of `vl` elements (R217). -/
def Tag.units (t : Tag) (vl : Nat) : Nat := maskLen (t == .e2m1) vl

/-- Unit `u` of a register image. -/
def VReg.unit (v : VReg) (t : Tag) (u : Nat) : Nat := elemOf v.img.toNat (8 * t.unitBytes) u

/-- A destination after some units have been written (R89, R222). -/
def VReg.writeUnits (v : VReg) (t : Tag) (us : List (Nat × Nat)) : VReg :=
  let w := 8 * t.unitBytes
  { tag := t, img := BitVec.ofNat 16384 (us.foldl (fun img u => insertBits img (w * u.1) w u.2) (v.base t)) }

/-- Write units of a destination (R89, R222); an error stays in the units that are not written (R389). -/
def Hart.writeVUnits (d : BitVec 5) (t : Tag) (us : List (Nat × Nat)) (h : Hart) : Hart :=
  let old := h.getV d
  { h.setV d (old.writeUnits t us) with
    vbad := h.vbad.filter fun p => p.1 != d.toNat || (old.tag == t && !us.any fun u => u.1 == p.2 / t.unitBytes) }

/-- Do two units of `n` bytes overlap? -/
def overlapping (n : Nat) : List Nat → Bool
  | [] => false
  | a :: as => (as.any fun b => decide (a < b + n) && decide (b < a + n)) || overlapping n as

/-- The bank of a tile-buffer address (R167). -/
def bankOf (pa : Nat) : Nat := pa / 16 % 64

/-- Units of one class keep ascending order: each place of an order goes to the lowest unit left of its class. -/
def inClassOrder (cls : Nat × Phys → Option Nat) (us p : List (Nat × Phys)) : List (Nat × Phys) :=
  (p.foldl (fun (acc : List (Nat × Phys) × List (Nat × Phys)) u =>
    if (cls u).isSome then
      let n := (acc.2.find? fun w => cls w == cls u).getD u
      (acc.1 ++ [n], acc.2.filter fun w => w.1 != n.1)
    else (acc.1 ++ [u], acc.2)) ([], us)).1

/-- Units whose order among themselves is free: one of each class. -/
def classFirsts (cls : Nat × Phys → Option Nat) (us : List (Nat × Phys)) : List (Nat × Phys) :=
  us.foldl (fun acc u => if (cls u).isSome && acc.any (fun w => cls w == cls u) then acc else acc ++ [u]) []

/-- Units that keep ascending order (R170): window units of one bank. -/
def bankClass (u : Nat × Phys) : Option Nat := if isTile u.2.pa then some (bankOf u.2.pa) else none

/-- Can an access fail once its probe has passed (R389, R400)? -/
def State.mayFail (s : State) : Bool := !s.poison.isEmpty || !s.cur.undelivered.isEmpty || s.l1.any fun x => x.bad != 0

/-- The order in which a relaxed instruction performs its units of `n` aligned bytes (R192, R221): drawn where the order can matter,
but ascending within each class. -/
def relaxedOrder (n : Nat) (cls : Nat × Phys → Option Nat) (stops : Bool) (us : List (Nat × Phys)) : M (List (Nat × Phys)) := do
  let s ← get
  if s.cut.isNone && !stops && !s.mayFail && !overlapping n ((classFirsts cls us).map fun u => u.2.pa / n * n) then return us
  let k ← drawM
  return inClassOrder cls (us.filter fun u => (cls u).isSome) (permuteBy us.length k us)

/-! The delay buffer (R242) -/

/-- Does a memory entry's signature agree with an element width in bytes and the element addresses (R241, R242)? An entry of a
skipped gather has none. -/
def signatureAgrees (sig : Option (Nat × List Word)) (width : Nat) (addrs : List Word) : Bool :=
  sig.isNone || sig == some (width, addrs)

/-- The pages and frames that the next entry of the delay buffer offers to the probe of a tracked instruction (R242). -/
def Hart.recordedPages (width : Nat) (addrs : List Word) (h : Hart) : List (Nat × Nat) :=
  match h.leadActive, h.lead.buffer with
  | true, .memory n sig pages _ :: _ =>
    if n = h.lead.trailMemory && signatureAgrees sig width addrs then pages else []
  | _, _ => []

/-- The trailing hart takes the next memory entry at a tracked instruction (R241, R242); a disagreement, or an empty buffer
while the lead runs, re-forks the pair (R240). -/
def Hart.checkMemory (width : Nat) (addrs : List Word) (h : Hart) : Hart :=
  if !h.leadActive then h
  else match h.lead.buffer with
    | .memory n sig _ _ :: rest =>
      { h with
        refork := h.refork || n != h.lead.trailMemory || !signatureAgrees sig width addrs
        lead := { h.lead with buffer := rest, trailMemory := h.lead.trailMemory + 1 } }
    | .branch _ _ _ :: _ => { h with refork := true }
    | [] => if h.leadStopped then h else { h with refork := true }

/-- The frame that a recorded pair gives for a page (R242); window pages have none (R169). -/
def Phys.framed (pages : List (Nat × Nat)) (va : Word) (p : Phys) : Phys :=
  match pages.find? fun q => q.1 == va.toNat / 65536 with
  | some q => if p.attr = .window then p else { p with pa := q.2 * 65536 + va.toNat % 65536 }
  | none => p

/-! The probe -/

/-- The probe of R219 with the stop of the `.ff` forms (R220): physical addresses, and the unit at which a `.ff` form stops, which
has an active one below it unless it is the `first`. `elems` is the number of elements in a unit, `pages` holds recorded frames
(R242). DESIGN CHOICE (notes/assumptions/20.md): units are translated in ascending order and the probe ends at the first that
fails or stops, so that R308's updates are made for no page that only higher ones touch. -/
def probe (a : Agent) (k : Kind) (noWindow ff : Bool) (elems : Nat) (pages : List (Nat × Nat)) (addr : Nat → Word) :
    Bool → List Nat → M (List (Nat × Phys) × Option Nat)
  | _, [] => return ([], none)
  | first, u :: us => do
    let s ← get
    let (r, s') := if noWindow && inWindow (addr u) then (.error 0x06, s) else s.xlate a k (addr u)
    set s'
    match r with
    | .error c => if ff && !first then return ([], some u) else trap c (addr u) (elems * u)
    | .ok p =>
      if ff && !first && p.ns then return ([], some u)
      else
        let (ps, stop) ← probe a k noWindow (ff && !(first && p.ns)) elems pages addr false us
        return ((u, p.framed pages (addr u)) :: ps, stop)

/-! Perform -/

/-- Run a computation and hand back its trap; the state stands as it left it. -/
def attempt {α : Type} (x : M α) : M (Except Trap α) := fun s =>
  match x s with
  | .ok a s' => .ok (.ok a) s'
  | .error t s' => .ok (.error t) s'

/-- How a perform ended (R222): finished, interrupted between units, or stopped by a trap. -/
inductive Ended where
  | finished
  | cut
  | trapped (t : Trap)

/-- Perform units in the given order, at most `budget` of them; the completed ones with their results. -/
def performUnits {α : Type} (f : Nat → Phys → M α) : Option Nat → List (Nat × Phys) → M (List (Nat × α) × Ended)
  | _, [] => return ([], .finished)
  | some 0, _ :: _ => return ([], .cut)
  | budget, (u, p) :: us => do
    match ← attempt (f u p) with
    | .error t => return ([], .trapped t)
    | .ok r =>
      let (rs, e) ← performUnits f (budget.map (· - 1)) us
      return ((u, r) :: rs, e)

/-- The result of one unit: the value for the destination register, if there is one, and flags. -/
structure UnitResult where
  val : Option Nat := none
  fl : BitVec 6 := 0

/-- One more counted instruction follows the hart's scalar writes (R191). -/
def Hart.ageEarly (h : Hart) : Hart :=
  { h with early := (h.early.map fun (e : EarlyStore) => { e with age := e.age + 1 }).filter fun e => decide (e.age < 64) }

/-- Is a unit of a vector memory instruction in error: its mask bit, or one of the source registers given (R389)? With the
registers that give its address alone, that address is unknown. -/
def Hart.unitBad (h : Hart) (m : BitVec 3) (regs : List (BitVec 5)) (u : Nat) : Bool :=
  h.bitBad m u || ((h.getM m).getLsbD u && regs.any fun r => h.elemBad (8 * (h.getV r).tag.unitBytes) r u)

/-- Units without a known address take their places among the probed ones. -/
def withBad (units : Nat) (bad : List Nat) (ps : List (Nat × Phys)) : List (Nat × Phys) :=
  if bad.isEmpty then ps
  else (upTo units).filterMap fun u =>
    if bad.contains u then some (u, { pa := 2 ^ 60 + 64 * u, attr := .uncached, ns := false }) else ps.find? fun p => p.1 == u

/-- The bits of a set of units. -/
def unitBits (us : List Nat) : Nat := us.foldl (fun n u => n ||| 2 ^ u) 0

/-- The progress recorded at an interruption (R222): every completed unit with every inactive one below the length; `vstart`
names an element. -/
def progressOf (pc : Word) (cap : Captured) (units elems : Nat) (active : Nat → Bool) (before : BitVec 2048)
    (done : List Nat) : Progress :=
  let inactive := (upTo units).filter fun u => !active u
  let all := (before.toNat ||| unitBits inactive ||| unitBits done) % 2 ^ units
  { vcomp := BitVec.ofNat 2048 all, vstart := BitVec.ofNat 12 (elems * lowestSet units (2 ^ units - 1 - all)),
    addr := some pc, cap := cap }

/-- A vector memory instruction: operand registers, the sources among them and those that its addresses come from, tag rules
and element tag (R217, R218), mask, access kind, order code and scope (R216), `.ff`, whether window elements are refused
(R227, R229), address of a unit from the captured operands, the destination register, whether it is tracked (R241), and whether
units on one granule are tried in ascending order (R229). -/
structure VAccess where
  regs : List (BitVec 5)
  live : List (BitVec 5)
  index : List (BitVec 5) := []
  ok : Bool
  tag : Tag
  more : List Tag := []
  mask : BitVec 3
  kind : Kind
  order : BitVec 2
  ff : Bool := false
  noWindow : Bool := false
  operands : List Word
  address : List Word → Nat → Word
  dest : Option (BitVec 5) := none
  tracked : Bool := false
  granules : Bool := false

/-- The frame of R218 to R223: checks, probe, perform, and completion or recorded progress. Every active unit whose address is
known is checked and probed; one whose source is in error stops the perform (R222, R389). `open_` runs once the checks have
passed, `perform` for each unit, `close` at completion. -/
def vectorAccess (v : VAccess) (open_ : M Unit) (perform : Captured → Nat → Nat → Phys → M UnitResult)
    (close : M Unit) : M Unit := do
  let cap ← captureOf v.operands
  memoryChecks v.regs v.live v.ok (v.dest.map fun d => (d, v.tag)) (v.tag :: v.more)
  let h ← curHart
  let resumed := h.progress.addr.isSome
  let va := v.address cap.operands
  if v.kind = .window then need (cap.cw.getLsbD 4) 0x07 (cap.operands.headD 0)
  let units := v.tag.units h.vlen
  let elems := v.tag.unitElems
  let mask := h.getM v.mask
  let active : Nat → Bool := fun u => decide (u < units) && mask.getLsbD u
  let us := (upTo units).filter active
  let bad : Nat → Bool := fun u => !h.clean && h.unitBad v.mask v.live u
  let lost : Nat → Bool := fun u => !h.clean && h.unitBad v.mask v.index u
  match us.find? fun u => !lost u && (va u).toNat % v.tag.unitBytes != 0 with
  | some u => trap 0x03 (va u) (elems * u)
  | none => pure ()
  let todo := us.filter fun u => !lost u && !h.progress.vcomp.getLsbD u
  let addrs := if v.tracked then (upTo units).map va else []
  let pages := if v.tracked then h.recordedPages v.tag.unitBytes addrs else []
  let (ps, stop) ← probe (h.unitAgent cap.cw) v.kind v.noWindow (v.ff && !resumed) elems pages va (us.head? == todo.head?) todo
  open_
  match stop with
  | some u => modCur fun h => { h with vlen := elems * u }
  | none => pure ()
  let units := match stop with
    | some u => u
    | none => units
  let stops := (upTo units).filter fun u => bad u && !h.progress.vcomp.getLsbD u
  let all := withBad units (stops.filter lost) ps
  let ordered ← if v.order = 1 || v.order = 2 then pure all
    else if v.granules then relaxedOrder 8 (fun u => some ((va u.1).toNat / 8)) (!stops.isEmpty) all
    else relaxedOrder v.tag.unitBytes bankClass (!stops.isEmpty) all
  let budget := (← get).cut
  modify fun s => { s with cut := none }
  let (rs, ended) ← performUnits
    (fun u p => if stops.contains u then trap 0x0D 0 (elems * stops.headD 0) else perform cap units u p) budget ordered
  match v.dest with
  | some d =>
    if units ≠ 0 then
      modCur (Hart.writeVUnits d v.tag (rs.filterMap fun r => r.2.val.map fun x => (r.1, x)))
  | none => pure ()
  modify fun s => s.raise (orFlags (rs.map fun r => r.2.fl))
  let progress := progressOf h.pc cap units elems active h.progress.vcomp (rs.map Prod.fst)
  match ended with
  | .finished =>
    close
    if v.tracked then modCur (Hart.checkMemory v.tag.unitBytes addrs)
    modCur fun h => { h.ageEarly with progress := {} }
    retireVector
  | .cut => modCur fun h => { h with progress := progress, midway := true }
  | .trapped t =>
    modCur fun h => { h with progress := progress }
    throw t

/-! Loads and stores -/

/-- May a vector read of `n` bytes at `pa` be performed before a scalar write (R191): within the distance `rad`, touching it,
with none of its bytes settled since, and at an address that no read younger than it gives (R190)? It lies in the write's granule
(R187). -/
def EarlyStore.allows (rad pa n : Nat) (e : EarlyStore) : Bool :=
  !e.barred && decide (e.age + 1 < rad) && decide (e.addr < pa + n) && decide (pa < e.addr + e.len) && e.closed &&& e.touched pa n == 0 &&
    pa / 8 == e.addr / 8 && (pa + n - 1) / 8 == e.addr / 8

/-- The hart has read `n` bytes as they were before a write: nothing older may be read of them any more (R190). -/
def Hart.settleBefore (e : EarlyStore) (pa n : Nat) (h : Hart) : Hart :=
  { h with early := h.early.takeWhile (· != e) ++ e :: closeEarly pa n (h.early.dropWhile (· != e)).tail }

/-- What a relaxed vector load returns (R191): the bytes as they stand, or as they were just before one of the hart's scalar
writes; which, is drawn. -/
def earlyRead (rad : Nat) (pa : Nat) (bs : List Byte) : M (List Byte) := do
  let h ← curHart
  let n := bs.length
  let near := h.early.filter (EarlyStore.allows rad pa n)
  if near.isEmpty then
    modCur (Hart.settle pa n)
    return bs
  let k ← drawM
  match (none :: near.map some)[k % (near.length + 1)]?.join with
  | none =>
    modCur (Hart.settle pa n)
    return bs
  | some e =>
    modCur (Hart.settleBefore e pa n)
    return (e.old.drop (pa % 8)).take n

/-- Read one unit of a vector load under its order (R190 to R194). -/
def loadUnit (order : BitVec 2) (scope n elems : Nat) (cap : Captured) (alloc : Bool) (va : Word) (u : Nat) (p : Phys) :
    M Nat := do
  if order = 2 then
    releaseM scope (elems * u)
    ticketM
    sendBack p va (elems * u)
    let bs ← readPhys p n .home false va (elems * u)
    modCur (Hart.settle p.pa n)
    acquireM scope
    return leNat bs
  else if order = 1 then
    let bs ← readPhys p n .fresh false va (elems * u)
    modCur (Hart.settle p.pa n)
    return leNat bs
  else
    let bs ← readPhys p n .plain alloc va (elems * u)
    return leNat (← earlyRead cap.rad.toNat p.pa bs)

/-- Write one unit of a vector store under its order (R190 to R194). An ordered element of a scope wider than the L1's
sharers reaches its home at once (R193). -/
def storeUnit (order : BitVec 2) (scope n : Nat) (v : Nat) (va : Word) (tidx : Nat) (p : Phys) : M Unit := do
  let s ← get
  let bs := leBytes n v
  if order = 2 then
    ticketM
    releaseM scope tidx
    storePhys p bs true false va tidx
    acquireM scope
  else storePhys p bs (order = 1 && decide ((if s.isFused s.cur.core then 3 else 2) ≤ scope)) false va tidx
  modCur (Hart.settle p.pa n)

/-- Does a strided load of elements so many bits apart allocate (R173)? -/
def strideAllocates (cap : Captured) (vl bits : Nat) : Bool :=
  cap.vbyp != 0 && decide (vl * bits ≤ 8 * cap.vbyp.toNat)

/-- Element `i` of an index register as a byte offset (R217). -/
def VReg.offset (v : VReg) (i : Nat) : Word :=
  if v.tag.isSigned then BitVec.ofInt 64 (signed v.tag.width (v.elem i)) else BitVec.ofNat 64 (v.elem i)

/-- VLD (R224): `stride` is none for the unit-stride form. -/
def vectorLoad (d a : BitVec 5) (b : Option (BitVec 5)) (m k : BitVec 3) (o : BitVec 2) (ff : BitVec 1) : M Unit := do
  let s ← get
  let h := s.cur
  let t := h.ltag
  let n := t.unitBytes
  let stride (ops : List Word) : Word := if b.isSome then ops.getD 1 0 else BitVec.ofNat 64 n
  let at_ (ops : List Word) (u : Nat) : Word := ops.headD 0 + stride ops * BitVec.ofNat 64 u
  vectorAccess
    { regs := [d], live := [], ok := b.isNone || t != .e2m1, tag := t, mask := m, kind := .read, order := o,
      ff := ff = 1, operands := s.x a :: (b.map s.x).toList, address := at_, dest := some d,
      tracked := true }
    (pure ())
    (fun cap _ u p => do
      let alloc := strideAllocates cap h.vlen (if b.isSome then 8 * (stride cap.operands).toInt.natAbs else t.width)
      let v ← loadUnit o k.toNat n t.unitElems cap alloc (at_ cap.operands u) u p
      return { val := some v })
    (pure ())

/-- VST (R224): order 11 is `.sw`. -/
def vectorStore (v a : BitVec 5) (b : Option (BitVec 5)) (m k : BitVec 3) (o : BitVec 2) : M Unit := do
  let s ← get
  let src := s.cur.getV v
  let t := src.tag
  let n := t.unitBytes
  let stride (ops : List Word) : Word := if b.isSome then ops.getD 1 0 else BitVec.ofNat 64 n
  let at_ (ops : List Word) (u : Nat) : Word := ops.headD 0 + stride ops * BitVec.ofNat 64 u
  vectorAccess
    { regs := [v], live := [v], ok := b.isNone || t != .e2m1, tag := t, mask := m,
      kind := if o = 3 then .window else .write, order := o, operands := s.x a :: (b.map s.x).toList, address := at_ }
    (pure ())
    (fun cap _ u p => do
      storeUnit o k.toNat n (src.unit t u) (at_ cap.operands u) (t.unitElems * u) p
      return {})
    (pure ())

/-- `vld` (R224). -/
def execVld (d a : BitVec 5) (m k : BitVec 3) (o : BitVec 2) (ff : BitVec 1) (s : State) : Result :=
  finish (vectorLoad d a none m k o ff) s

/-- `vld.s` (R224). -/
def execVldS (d a b : BitVec 5) (m k : BitVec 3) (o : BitVec 2) (ff : BitVec 1) (s : State) : Result :=
  finish (vectorLoad d a (some b) m k o ff) s

/-- `vst` (R224). -/
def execVst (v a : BitVec 5) (m k : BitVec 3) (o : BitVec 2) (s : State) : Result := finish (vectorStore v a none m k o) s

/-- `vst.s` (R224). -/
def execVstS (v a b : BitVec 5) (m k : BitVec 3) (o : BitVec 2) (s : State) : Result :=
  finish (vectorStore v a (some b) m k o) s

/-- The address of an element through an index register (R225). -/
def indexAddress (vidx : VReg) (ops : List Word) (i : Nat) : Word := ops.headD 0 + vidx.offset i

/-- Does a gather allocate (R173): 128 bytes for each distinct line of the elements that it probes (R219)? -/
def gatherAllocates (cap : Captured) (addrs : List Word) : Bool :=
  cap.vbyp != 0 && decide (128 * (addrs.map fun a => a.toNat / 128).eraseDups.length ≤ cap.vbyp.toNat)

/-- `vldx` (R225). -/
def execVldx (d a b : BitVec 5) (m k : BitVec 3) (o : BitVec 2) (ff : BitVec 1) (s : State) : Result :=
  let vidx := s.cur.getV b
  let t := s.cur.ltag
  let probed := s.cur.getM m &&& ~~~s.cur.progress.vcomp
  let n := t.unitBytes
  finish (vectorAccess
    { regs := [d, b], live := [b], index := [b], ok := t != .e2m1 && vidx.tag.isInt, tag := t, more := [vidx.tag], mask := m,
      kind := .read, order := o, ff := ff = 1, operands := [s.x a], address := indexAddress vidx, dest := some d,
      tracked := true }
    (pure ())
    (fun cap vl u p => do
      let alloc := gatherAllocates cap (((upTo vl).filter probed.getLsbD).map (indexAddress vidx cap.operands))
      let v ← loadUnit o k.toNat n 1 cap alloc (indexAddress vidx cap.operands u) u p
      return { val := some v })
    (pure ())) s

/-- `vstx` (R225): order 11 is `.sw`. -/
def execVstx (v a b : BitVec 5) (m k : BitVec 3) (o : BitVec 2) (s : State) : Result :=
  let vidx := s.cur.getV b
  let src := s.cur.getV v
  let n := src.tag.unitBytes
  finish (vectorAccess
    { regs := [v, b], live := [v, b], index := [b], ok := src.tag != .e2m1 && vidx.tag.isInt, tag := src.tag, more := [vidx.tag],
      mask := m, kind := if o = 3 then .window else .write, order := o, operands := [s.x a], address := indexAddress vidx }
    (pure ())
    (fun cap _ u p => do
      storeUnit o k.toNat n (src.unit src.tag u) (indexAddress vidx cap.operands u) u p
      return {})
    (pure ())) s

/-! Gather-linked and scatter-conditional -/

/-- log2 of an element width in bytes (R226). -/
def sizeCode (n : Nat) : BitVec 2 := BitVec.ofNat 2 (Nat.log2 n)

/-- The granule of an address (R226). -/
def granuleOf (va : Word) : BitVec 52 := BitVec.ofNat 52 (va.toNat / 8)

/-- `vgll` (R227): reads at the home, so that no later write can pass the link unseen (R228). -/
def execVgll (d a b : BitVec 5) (m k : BitVec 3) (o : BitVec 2) (s : State) : Result :=
  let vidx := s.cur.getV b
  let t := s.cur.ltag
  let n := t.unitBytes
  finish (vectorAccess
    { regs := [d, b], live := [b], index := [b], ok := t != .e2m1 && vidx.tag.isInt, tag := t, more := [vidx.tag], mask := m,
      kind := .read, order := o, noWindow := true, operands := [s.x a], address := indexAddress vidx, dest := some d,
      tracked := true }
    (modCur fun h => if h.midway then h else { h with links := [] })
    (fun cap _ u p => do
      let va := indexAddress vidx cap.operands u
      if o = 2 then releaseM k.toNat u; ticketM
      sendBack p va u
      let v := leNat (← readPhys p n .home false va u)
      modCur (Hart.settle p.pa n)
      modCur fun h => { h with links := { index := u, granule := granuleOf va, size := sizeCode n, home := p.pa / 8 * 8 } :: h.links }
      if o = 2 then acquireM k.toNat
      return { val := some v })
    (pure ())) s

/-- Does element `u` still hold its link (R229)? A write to its granule has broken it (R228). -/
def Hart.linked (h : Hart) (u : Nat) (va : Word) (n : Nat) : Bool :=
  h.links.any fun l => l.index == u && l.granule == granuleOf va && l.size == sizeCode n

/-- An element has succeeded: no other one on its granule does (R229), whatever frame the page has by now. -/
def Hart.succeeded (va : Word) (h : Hart) : Hart := { h with links := h.links.filter fun l => l.granule != granuleOf va }

/-- `vscc` (R229): elements on one granule are tried in index order, the others in a drawn one where that can matter (R221). -/
def execVscc (v a b : BitVec 5) (m k : BitVec 3) (o : BitVec 2) (s : State) : Result :=
  let vidx := s.cur.getV b
  let src := s.cur.getV v
  let n := src.tag.unitBytes
  let core := s.cur.core
  finish (vectorAccess
    { regs := [v, b], live := [v, b], index := [b], ok := src.tag != .e2m1 && vidx.tag.isInt, tag := src.tag, more := [vidx.tag],
      mask := m, kind := .write, order := o, noWindow := true, operands := [s.x a], address := indexAddress vidx
      granules := true }
    (pure ())
    (fun cap _ u p => do
      let va := indexAddress vidx cap.operands u
      if o = 2 then ticketM; releaseM k.toNat u
      sendBack p va u
      if (← curHart).undelivers p.pa n then trap 0x0D va u
      let ok := (← curHart).linked u va n
      if ok then
        modCur (Hart.settle p.pa n)
        modify fun s => s.storeHome core p.attr p.pa (leBytes n (src.unit src.tag u))
        modCur (Hart.succeeded va)
      modCur fun h => h.setM m (if ok then h.getM m ||| BitVec.ofNat 2048 (2 ^ u) else h.getM m &&& ~~~(BitVec.ofNat 2048 (2 ^ u)))
      if o = 2 then acquireM k.toNat
      return {})
    (modCur fun h => { h with links := [] })) s

/-! Vector atomics -/

/-- The operations of VATOM (R230). -/
inductive VamoOp where
  | add | and | or | xor | min | max | swap
  deriving DecidableEq, Repr

/-- The tags an operation accepts (R230). -/
def VamoOp.accepts (op : VamoOp) (t : Tag) : Bool :=
  match op with
  | .add | .min | .max => t.isInt || t.isF
  | .and | .or | .xor => t.isInt
  | .swap => t != .dead && t != .e2m1

/-- The new value (R230, R231). -/
def VamoOp.apply (op : VamoOp) (t : Tag) (md : Mode) (old b : Nat) : FRes :=
  match op with
  | .add => VOp.add.apply t md old b
  | .and => ⟨old &&& b, 0⟩
  | .or => ⟨old ||| b, 0⟩
  | .xor => ⟨old ^^^ b, 0⟩
  | .min => VOp.min.apply t md old b
  | .max => VOp.max.apply t md old b
  | .swap => ⟨b, 0⟩

/-- `vamo` (R231): the value operand is the register after vidx (R230). -/
def vamo (op : VamoOp) (d a b : BitVec 5) (m k : BitVec 3) (o : BitVec 2) (s : State) : Result :=
  let vidx := s.cur.getV b
  let src := s.cur.getV (b + 1)
  let t := src.tag
  let n := t.unitBytes
  finish (vectorAccess
    { regs := [d, b, b + 1], live := [b, b + 1], index := [b], ok := op.accepts t && vidx.tag.isInt, tag := t, more := [vidx.tag], mask := m
      kind := .atomic, order := o, operands := [s.x a], address := indexAddress vidx, dest := some d }
    (pure ())
    (fun cap _ u p => do
      let md := Mode.ofFmode cap.fmode
      if o = 2 then ticketM; releaseM k.toNat u
      let old ← atomicPhys p n (fun old => some (op.apply t md old (src.elem u)).val) (indexAddress vidx cap.operands u) u
      modCur (Hart.settle p.pa n)
      if o = 2 then acquireM k.toNat
      return { val := some old, fl := (op.apply t md old (src.elem u)).fl })
    (pure ())) s

/-- `vamo.add` (R230, R231). -/
def execVamoAdd (d a b : BitVec 5) (m k : BitVec 3) (o : BitVec 2) (s : State) : Result := vamo .add d a b m k o s

/-- `vamo.and` (R230, R231). -/
def execVamoAnd (d a b : BitVec 5) (m k : BitVec 3) (o : BitVec 2) (s : State) : Result := vamo .and d a b m k o s

/-- `vamo.or` (R230, R231). -/
def execVamoOr (d a b : BitVec 5) (m k : BitVec 3) (o : BitVec 2) (s : State) : Result := vamo .or d a b m k o s

/-- `vamo.xor` (R230, R231). -/
def execVamoXor (d a b : BitVec 5) (m k : BitVec 3) (o : BitVec 2) (s : State) : Result := vamo .xor d a b m k o s

/-- `vamo.min` (R230, R231). -/
def execVamoMin (d a b : BitVec 5) (m k : BitVec 3) (o : BitVec 2) (s : State) : Result := vamo .min d a b m k o s

/-- `vamo.max` (R230, R231). -/
def execVamoMax (d a b : BitVec 5) (m k : BitVec 3) (o : BitVec 2) (s : State) : Result := vamo .max d a b m k o s

/-- `vamo.swap` (R230, R231). -/
def execVamoSwap (d a b : BitVec 5) (m k : BitVec 3) (o : BitVec 2) (s : State) : Result := vamo .swap d a b m k o s

/-- The prefix sums of `vfas` (R232) from the running sum, and the last sum. -/
def prefixSums (w : Nat) (elem : Nat → Nat) : Nat → List Nat → List (Nat × Nat) × Nat
  | x, [] => ([], x)
  | x, i :: is =>
    let (rs, last) := prefixSums w elem ((x + elem i) % 2 ^ w) is
    ((i, x) :: rs, last)

/-- `vfas` (R232): one indivisible access for all active elements. -/
def execVfas (d a b : BitVec 5) (m : BitVec 3) (s : State) : Result :=
  finish (do
    let src := s.cur.getV b
    let t := src.tag
    let n := t.unitBytes
    let cap ← captureOf [s.x a]
    memoryChecks [d, b] [b] t.isInt (some (d, t)) [t]
    let h ← curHart
    let us := (upTo h.vlen).filter fun u => (h.getM m).getLsbD u
    let va := cap.operands.headD 0
    match us with
    | [] =>
      soundBelow h.vlen (Hart.readsBad [b] m false)
      if h.vlen ≠ 0 then modCur (Hart.writeVUnits d t [])
    | first :: _ =>
      need (va.toNat % n == 0) 0x03 va first
      let p ← xlateM (h.unitAgent cap.cw) .atomic va first
      soundBelow h.vlen (Hart.readsBad [b] m false)
      let old ← atomicPhys p n (fun old => some (prefixSums t.width src.elem old us).2) va first
      modCur (Hart.settle p.pa n)
      modCur (Hart.writeVUnits d t (prefixSums t.width src.elem old us).1)
    modCur fun h => { h.ageEarly with progress := {} }
    retireVector) s

/-! Waiting on flags -/

/-- Is the condition met (R233)? -/
def WaitCond.met (c : WaitCond) (w b : Nat) : Bool :=
  match c with
  | .atLeast => decide (b ≤ w)
  | .eq => w == b
  | .ne => w != b

/-- Read the watched words at their translated addresses (R233): dirty bytes of the own L1, other bytes at the home. -/
def watchWords (va vb : VReg) (c : WaitCond) : List (Nat × Phys) → M (List (Nat × Bool))
  | [] => return []
  | (u, p) :: us => do
    let w := leNat (← readPhys p 8 .fresh false (BitVec.ofNat 64 (va.elem u)) u)
    modCur (Hart.settle p.pa 8)
    return (u, c.met w (vb.elem u)) :: (← watchWords va vb c us)

/-- The active elements of VWAIT whose flag address is not in error (R233). -/
def Hart.watched (h : Hart) (a : BitVec 5) (m : BitVec 3) : List Nat :=
  (upTo h.vlen).filter fun u => (h.getM m).getLsbD u && (h.clean || !h.readsBad [a] m false u)

/-- One pass of the loop of R233 with what was captured, the deadline first: every flag address is translated, then every
word read; it returns, or the hart sleeps. -/
def vwaitPass (cap : Captured) (c : WaitCond) (a b : BitVec 5) (m k : BitVec 3) : M Unit := do
  let s ← get
  let h := s.cur
  let deadline := cap.operands.headD 0
  let us := h.watched a m
  let (ps, _) ← probe (h.unitAgent cap.cw) .read false false 1 [] (fun u => BitVec.ofNat 64 ((h.getV a).elem u)) true us
  soundBelow h.vlen (Hart.readsBad [a, b] m false)
  let met ← watchWords (h.getV a) (h.getV b) c ps
  let done (out : Nat → Bool) : M Unit := do
    modCur fun h => h.writeMask m h.vlen fun i => if us.contains i then some (out i) else none
    modCur Hart.ageEarly
  if met.all Prod.snd then
    done fun _ => false
    acquireM k.toNat
    retireVector
  else if deadline.toNat ≤ s.shore.toNat then
    done fun i => met.any fun w => w.1 == i && !w.2
    retireVector
  else modCur fun h => { h.hold cap with wait := .vwait c a b m k deadline }

/-- VWAIT (R233). A restarted one keeps its deadline and what else it captured (R234). -/
def vwait (c : WaitCond) (a x b : BitVec 5) (m k : BitVec 3) (s : State) : Result :=
  finish (do
    let cap := s.issue [BitVec.ofNat 64 (Nat.min (s.shore.toNat + (s.x x).toNat) (2 ^ 64 - 1))]
    let _ ← captureOf cap.operands
    let h := s.cur
    let ta := (h.getV a).tag
    let tb := (h.getV b).tag
    memoryChecks [a, b] [a, b] ((ta == .i64 || ta == .n64) && (tb == .i64 || tb == .n64)) none [ta, tb]
    match (h.watched a m).find? fun u => (h.getV a).elem u % 8 != 0 with
    | some u => trap 0x03 (BitVec.ofNat 64 ((h.getV a).elem u)) u
    | none => pure ()
    vwaitPass cap c a b m k) s

/-- `vwait` (R233). -/
def execVwait (a x b : BitVec 5) (m k : BitVec 3) (s : State) : Result := vwait .atLeast a x b m k s

/-- `vwait.eq` (R233). -/
def execVwaitEq (a x b : BitVec 5) (m k : BitVec 3) (s : State) : Result := vwait .eq a x b m k s

/-- `vwait.ne` (R233). -/
def execVwaitNe (a x b : BitVec 5) (m k : BitVec 3) (s : State) : Result := vwait .ne a x b m k s

/-- A sleeping VWAIT wakes and reads again (R233). -/
def execVwaitWake (hart : Nat) (s : State) : Result :=
  s.eventOn hart fun s =>
    match s.cur.wait with
    | .vwait c a b m k deadline => finish (vwaitPass (s.issue [deadline]) c a b m k) s
    | _ => .next s

/-- The deadline of a sleeping VWAIT passes (R233): it reads once more and returns. -/
def execVwaitDeadline (hart : Nat) (s : State) : Result :=
  s.eventOn hart fun s =>
    match s.cur.wait with
    | .vwait c a b m k deadline =>
      if deadline.toNat ≤ s.shore.toNat then finish (vwaitPass (s.issue [deadline]) c a b m k) s else .next s
    | _ => .next s

end Sys2Proof.Machine
end

