-- ==== Sys2Proof/Machine/Maps.lean ====
section
/-! DEFINITION. Context maps, block pools and translation of positions (17_context_maps.md, R315-R330). -/

namespace Sys2Proof.Machine

/-! Planned accesses: an instruction of this chapter is indivisible (R325, R330), so its writes wait until every check has
passed -/

/-- A write in the making. -/
structure Planned where
  pos : Phys
  va : Word
  bytes : List Byte

/-- Writes in the making, the newest first. -/
abbrev Plan := List Planned

/-- A computation that plans writes. -/
abbrev PM := StateT Plan M

/-- The bytes at an address as the planned writes leave them. -/
def Plan.overlay (w : Plan) (pa : Nat) (bs : List Byte) : List Byte :=
  bs.zipIdx.map fun b =>
    match w.find? fun x => decide (x.pos.pa ≤ pa + b.2) && decide (pa + b.2 < x.pos.pa + x.bytes.length) with
    | some x => x.bytes.getD (pa + b.2 - x.pos.pa) b.1
    | none => b.1

/-- Pieces of a range that translate as one, as offset and length: those of a page, or of 1 KiB in the tile-buffer window,
where an allocation ends at a KiB (R169). -/
def pagePieces (va : Word) (n : Nat) : List (Nat × Nat) :=
  let size := if inWindow va then 1024 else 65536
  let start := va.toNat % size
  (upTo (ceilDiv (start + n) size)).map fun i =>
    let first := i * size - start
    (first, min n ((i + 1) * size - start) - first)

/-- The core's own dirty bytes of a range go to their home, so that it holds what the hart wrote (R172). -/
def sendRange (p : Phys) (n : Nat) (va : Word) (tidx : Nat := 0) : M Unit :=
  (upTo (ceilDiv (p.pa % 64 + n) 64)).forM fun i => sendBack { p with pa := p.pa + 64 * i } va tidx

/-- Bytes of at most a page at a physical address, at their home: a read of the hart, of which others may know (R190, R197). -/
def homeBytes (p : Phys) (n : Nat) (va : Word) (tidx : Nat) : M (List Byte) := do
  sendRange p n va tidx
  let s ← get
  if s.badByte s.cur.core .home p.pa n || s.cur.undelivers p.pa n then trap 0x0D va tidx
  set (((s.countHome p.pa n).countSent s.cur.core p.pa n false).seenByRest p.pa n)
  modCur (Hart.settle p.pa n)
  return s.homeRead p.pa n

/-- Read at the home, planned writes included (R325, R329). -/
def planRead (a : Agent) (k : Kind) (va : Word) (n : Nat) (tidx : Nat := 0) : PM (List Byte) := do
  let w ← get
  let parts ← (pagePieces va n).mapM fun p => do
    let v := va + BitVec.ofNat 64 p.1
    let x ← (xlateM a k v tidx : M Phys)
    return w.overlay x.pa (← (homeBytes x p.2 v tidx : M (List Byte)))
  return parts.flatten

/-- Plan a write: what it could trap on is met here (R171, R325). -/
def planWrite (a : Agent) (k : Kind) (va : Word) (bs : List Byte) : PM Unit := do
  for p in pagePieces va bs.length do
    let v := va + BitVec.ofNat 64 p.1
    let x ← (xlateM a k v : M Phys)
    (sendRange x p.2 v : M Unit)
    modify fun w => { pos := x, va := v, bytes := (bs.drop p.1).take p.2 } :: w

/-- Perform a write at its home, sector by sector. -/
def State.storeHomeRange (s : State) (core : Nat) (attr : Attr) (pa : Nat) (bs : List Byte) : State :=
  let first := pa / 64
  (upTo (ceilDiv (pa % 64 + bs.length) 64)).foldl (fun s i =>
    let lo := if i = 0 then pa else 64 * (first + i)
    let part := (bs.drop (lo - pa)).take (64 * (first + i + 1) - lo)
    s.storeHome core attr lo part) s

/-- Carry out the planned writes, the oldest first; a remote one waits for its acknowledgement (R400). -/
def commitPlan (w : Plan) : M Unit :=
  modify fun s => w.reverse.foldl (fun s x =>
    (s.storeHomeRange s.cur.core x.pos.attr x.pos.pa x.bytes).onCur fun h =>
      (h.settle x.pos.pa x.bytes.length).awaits (s.isRemote x.pos.pa) true x.va) s

/-- Run a planned computation and carry out its writes. -/
def planned {α : Type} (x : PM α) : M α := do
  let (a, w) ← x.run []
  commitPlan w
  return a

/-! Handles, headers and views -/

/-- How the words of a map are read: at the home for a MAP instruction, as relaxed loads for VXLT and VLIN (R321). -/
abbrev Reader := Word → PM Nat

/-- Read a word of a map at its home. -/
def homeReader (a : Agent) : Reader := fun va => do return leNat (← planRead a .read va 8)

/-- Read a word of a map as a relaxed 8-byte load (R321). -/
def relaxedReader (a : Agent) (tidx : Nat) : Reader := fun va => do
  let p ← (xlateM a .read va tidx : M Phys)
  let bs ← (readPhys p 8 .plain false va tidx : M (List Byte))
  (modCur (Hart.settle p.pa 8) : M Unit)
  return leNat bs

/-- How a window's record is read: so many bytes at an address. -/
abbrev RecordReader := Word → Nat → PM Nat

/-- Read a window's record at its home, unchecked (R335). -/
def recordReader (a : Agent) (tidx : Nat) : RecordReader := fun va n => do return leNat (← planRead a .ownRead va n tidx)

/-- A header handle (R315). -/
def isHeader (h : Word) : Bool := h.toNat % 64 == 0

/-- A version handle (R315). -/
def isVersion (h : Word) : Bool := h.toNat % 65536 == 1

/-- A map's geometry (R316). -/
structure Geometry where
  lgt : Nat
  nplane : Nat
  tstride : Nat
  pstride : Nat
  deriving DecidableEq, Repr

/-- A map header (R316) with its address. -/
structure MapHeader where
  addr : Word
  geo : Geometry
  length : Nat
  top : Word
  parent : Word
  fork : Nat
  vnum : Nat
  vcur : Word
  rstate : Word
  pool : Word
  deriving DecidableEq, Repr

/-- Is the header malformed (R317)? -/
def MapHeader.malformed (h : MapHeader) : Bool :=
  decide (h.geo.lgt < 4) || decide (8 < h.geo.lgt) || h.geo.tstride == 0 ||
  decide (65536 < 2 ^ h.geo.lgt * h.geo.tstride) || h.geo.pstride % 65536 != 0 || h.top.toNat % 65536 != 0 ||
  !(h.parent == 0 || isVersion h.parent) || (h.parent == 0 && h.fork != 0)

/-- Read and check the header at an address (R316, R317); `handle` is the handle that leads to it. -/
def readHeader (rd : Reader) (addr handle : Word) (tidx : Nat := 0) : PM MapHeader := do
  let w0 ← rd addr
  let pstride ← rd (addr + 8)
  let top ← rd (addr + 16)
  let parent ← rd (addr + 24)
  let w4 ← rd (addr + 32)
  let vcur ← rd (addr + 40)
  let rstate ← rd (addr + 48)
  let pool ← rd (addr + 56)
  let h : MapHeader :=
    { addr := addr
      geo := { lgt := bits w0 0 8, nplane := bits w0 8 8, tstride := bits w0 16 16, pstride := pstride }
      length := bits w0 32 32, top := BitVec.ofNat 64 top, parent := BitVec.ofNat 64 parent
      fork := bits w4 0 32, vnum := bits w4 32 32, vcur := BitVec.ofNat 64 vcur
      rstate := BitVec.ofNat 64 rstate, pool := BitVec.ofNat 64 pool }
  if h.malformed then (trap 0x08 handle tidx : M Unit)
  return h

/-- What a handle lets resolve (R321): the top page, the length and the header. -/
structure MapView where
  top : Word
  length : Nat
  hdr : MapHeader
  deriving DecidableEq, Repr

/-- The view of a handle (R315, R317, R321). -/
def readView (rd : Reader) (handle : Word) (tidx : Nat := 0) : PM MapView := do
  if isHeader handle then
    let h ← readHeader rd handle handle tidx
    return { top := h.top, length := h.length, hdr := h }
  else if isVersion handle then
    let page := handle - 1
    let len := bits (← rd page) 32 32
    let map := BitVec.ofNat 64 (← rd (page + 0x28))
    if !isHeader map then (trap 0x08 handle tidx : M Unit)
    let h ← readHeader rd map handle tidx
    return { top := page, length := len, hdr := h }
  else (trap 0x03 handle tidx : M MapView)

/-! Resolution (R321) -/

/-- Where a position leads: nowhere, to an entry of a view, or beyond the view at lineage depth 0, where a window may cover
it (R321, R339). -/
inductive Resolved where
  | nothing
  | entry (e : Nat)
  | beyond
  deriving DecidableEq, Repr

/-- Follow the lineage until the position is not below the fork (R321): the view, and whether it is still the handle's. -/
def ancestor (rd : Reader) (g : Geometry) (p tidx : Nat) : Nat → MapView → Nat → PM (MapView × Nat)
  | 0, _, _ => (trap 0x08 0 tidx : M (MapView × Nat))
  | fuel + 1, v, d =>
    if p < v.hdr.fork then do
      if d = 8 then (trap 0x08 0 tidx : M Unit)
      let v' ← readView rd v.hdr.parent tidx
      if v'.hdr.geo ≠ g then (trap 0x08 0 tidx : M Unit)
      ancestor rd g p tidx fuel v' (d + 1)
    else return (v, d)

/-- Is a block entry malformed (R319)? -/
def entryMalformed (e : Nat) : Bool := bits e 6 10 != 0 || bits e 55 9 != 0

/-- Resolve a position through a view (R321); `w` is the captured window of `.w`. -/
def resolveEntry (rd : Reader) (v : MapView) (p : Nat) (w : Option Nat) (tidx : Nat := 0) : PM Resolved := do
  let (u, d) ← ancestor rd v.hdr.geo p tidx 10 v 0
  if u.length ≤ p then return (if w.isSome && d = 0 then .beyond else .nothing)
  let b := p >>> v.hdr.geo.lgt
  if 8184 ≤ b / 8192 then return .nothing
  let t ← rd (u.top + BitVec.ofNat 64 (8 * (8 + b / 8192)))
  if !bit t 0 then return .nothing
  let e ← rd (BitVec.ofNat 64 (t / 65536 * 65536 + 8 * (b % 8192)))
  if entryMalformed e then (trap 0x08 0 tidx : M Unit)
  if !bit e 0 then return .nothing
  if bit e 1 && !(w.any fun n => bits e 2 4 == n) then return .nothing
  return .entry e

/-- The address of a position in a plane through an entry (R321). -/
def Geometry.address (g : Geometry) (e p plane : Nat) : Word :=
  BitVec.ofNat 64 (e / 65536 * 65536 + plane * g.pstride + (p % 2 ^ g.lgt) * g.tstride)

/-- The resolution in a window of a draft position (R339); a malformed draft entry traps (R319). -/
def windowResolve (s : State) (own : RecordReader) (v : MapView) (w p plane : Nat) (tidx : Nat := 0) : PM (Option Word) := do
  match (s.launch? s.cur.launch).bind fun l => l.dir[w % 16]?.join with
  | none => return none
  | some rec_ =>
    let map ← own rec_ 8
    let blen ← own (rec_ + 8) 4
    if v.hdr.addr.toNat ≠ map || decide (p < blen) || decide (64 ≤ p - blen) then return none
    let j := p - blen
    let node ← own (rec_ + 0x40 + BitVec.ofNat 64 j) 1
    if !bit node 6 then return none
    if 4 ≤ j >>> v.hdr.geo.lgt then return none
    let e ← own (rec_ + 0x80 + BitVec.ofNat 64 (8 * (j >>> v.hdr.geo.lgt))) 8
    if entryMalformed e then (trap 0x08 0 tidx : M Unit)
    if !bit e 0 then return none
    return some (v.hdr.geo.address e j plane)

/-- Resolve a position to an address in a plane (R321, R339). -/
def resolveAddress (s : State) (rd : Reader) (own : RecordReader) (v : MapView) (plane : Nat) (w : Option Nat) (p : Nat)
    (tidx : Nat := 0) : PM (Option Word) := do
  match ← resolveEntry rd v p w tidx with
  | .nothing => return none
  | .entry e => return some (v.hdr.geo.address e p plane)
  | .beyond => windowResolve s own v (w.getD 0) p plane tidx

/-! VXLT -/

/-- Resolve an element of VXLT (R323). -/
def resolveElem (s : State) (v : MapView) (plane : Nat) (w : Option Nat) (pos : Nat → Nat) (i : Nat) : PM (Option Word) :=
  let a := s.cur.agent s.cur.cw
  resolveAddress s (relaxedReader a i) (recordReader a i) v plane w (pos i) i

/-- Resolve elements in ascending order (R323). -/
def resolveElems (f : Nat → PM (Option Word)) : List Nat → PM (List (Nat × Option Word))
  | [] => return []
  | i :: is => do
    let r ← f i
    return (i, r) :: (← resolveElems f is)

/-- The element addresses of VXLT for its signature, mask ignored (R241, R242): 0 where a position leads nowhere. Nothing is
accessed for it. -/
def signatureAddresses (s : State) (f : Nat → PM (Option Word)) (vl : Nat) : List Word :=
  (upTo vl).map fun i =>
    match (f i).run [] s with
    | .ok (r, _) _ => r.getD 0
    | .error _ _ => 0

/-- Does the launch of a hart hold a window open (R336)? -/
def State.holdsOpen (s : State) (launch w : Nat) : Bool :=
  match s.launch? launch with
  | some l => (l.dir[w % 16]?.join).isSome
  | none => false

/-- VXLT (R322, R323). An element in error is not resolved; its trap comes after those of the others (R112, R382). -/
def vxlt (d a b : BitVec 5) (m : BitVec 3) (ff : BitVec 1) (windowed : Bool) (s : State) : Result :=
  finish (do
    let h := s.cur
    let src := h.getV b
    notMatrixNotReleased
    need src.tag.isInt 0x02
    capacity [src.tag, .n64]
    settledElems (some (d, .n64)) [b]
    let handle := s.x a
    let plane := s.x (a + 1)
    let w := h.cw.toNat % 16
    if windowed then need (h.cw.getLsbD 4 && s.holdsOpen h.launch w) 0x07 handle
    let (v, _) ← (readView (relaxedReader (h.agent h.cw) 0) handle).run []
    need (decide (plane.toNat ≤ v.hdr.geo.nplane)) 0x08 plane 0
    let resolve := resolveElem s v plane.toNat (if windowed then some w else none) src.elem
    let sound (i : Nat) : Bool := h.clean || !h.readsBad [b] m false i
    let us := (upTo h.vlen).filter fun i => (h.getM m).getLsbD i
    let (rs, _) ← (resolveElems resolve (us.filter sound)).run []
    let missing := (rs.filter fun r => r.2.isNone).map Prod.fst
    let addr (i : Nat) : Option Nat := ((rs.find? fun r => r.1 == i).bind (·.2)).map BitVec.toNat
    let write (n : Nat) : M Unit := do
      soundBelow h.vlen (Hart.readsBad [b] m false)
      modCur (Hart.writeV d .n64 ((upTo n).map addr))
      modCur fun h => h.writeMask m h.vlen fun i => if us.contains i then some (missing.contains i) else none
    match missing with
    | [] => write h.vlen
    | k :: _ =>
      if ff = 1 && us.any fun i => decide (i < k) then
        write k
        modCur fun h => { h with vlen := k }
      else trap 0x08 (BitVec.ofNat 64 (src.elem k)) k
    if h.leadActive then
      let t ← get
      modCur (Hart.checkMemory (src.tag.width / 8) (signatureAddresses t resolve h.vlen))
    retireVector) s

/-- `vxlt` (R323). -/
def execVxlt (d a b : BitVec 5) (m : BitVec 3) (f : BitVec 1) (s : State) : Result := vxlt d a b m f false s

/-- `vxlt.w` (R323, R339). -/
def execVxltW (d a b : BitVec 5) (m : BitVec 3) (f : BitVec 1) (s : State) : Result := vxlt d a b m f true s

/-! Pools (R329, R330) -/

/-- A pool header: count, capacity, stack, and whether its home lies on the hart's package. -/
structure Pool where
  addr : Word
  count : Nat
  cap : Nat
  stack : Word
  here : Bool
  deriving DecidableEq, Repr

/-- Read a pool header (R329). -/
def readPool (a : Agent) (addr : Word) : PM Pool := do
  let p ← (xlateM a .read addr : M Phys)
  let count := leNat (← planRead a .read addr 8)
  let cap := leNat (← planRead a .read (addr + 8) 8)
  let stack := leNat (← planRead a .read (addr + 16) 8)
  let s ← (get : M State)
  return { addr := addr, count := count, cap := cap, stack := BitVec.ofNat 64 stack, here := !s.isRemote p.pa }

/-- The scope S of R330. -/
def Pool.scope (p : Pool) : Nat := if p.here then 4 else 5

/-- Address of a stack slot. -/
def Pool.slot (p : Pool) (i : Nat) : Word := p.stack + BitVec.ofNat 64 (8 * i)

/-- Set the count of free blocks. -/
def Pool.setCount (p : Pool) (a : Agent) (n : Nat) : PM Unit := planWrite a .write p.addr (leBytes 8 n)

/-- Take the block on top of a pool that is not empty (R330). -/
def Pool.pop (p : Pool) (a : Agent) : PM Word := do
  let v := leNat (← planRead a .read (p.slot (p.count - 1)) 8)
  p.setCount a (p.count - 1)
  return BitVec.ofNat 64 v

/-- Take a page for a map; an empty or malformed pool traps with its address (R320, R329). -/
def takePage (a : Agent) (pool : Word) : PM Word := do
  let p ← readPool a pool
  if p.cap < p.count || p.count = 0 then (trap 0x08 pool : M Unit)
  p.pop a

/-- Push blocks on a pool with room for them (R330). -/
def Pool.push (p : Pool) (a : Agent) : List Word → PM Unit
  | [] => pure ()
  | b :: bs => do
    planWrite a .write (p.slot p.count) (leBytes 8 b.toNat)
    p.setCount a (p.count + 1)
    Pool.push { p with count := p.count + 1 } a bs

/-- `bfree` (R330). -/
def execBfree (a b : BitVec 5) (s : State) : Result :=
  finish (do
    let blk := s.x a
    let pool := s.x b
    let ag := s.cur.agent s.cur.cw
    need (blk != 0 && blk.toNat % 65536 == 0) 0x03 blk
    planned (do
      let p ← readPool ag pool
      if p.cap < p.count then (trap 0x08 pool : M Unit)
      if p.count = p.cap then (trap 0x08 pool : M Unit)
      (releaseM p.scope : M Unit)
      p.push ag [blk])
    retireM) s

/-- The draft entry that a `balloc` under a window adds to its record (R338). -/
def draftBlock (s : State) (rec_ : Word) (w nprov : Nat) (blk pool : Word) : PM Unit := do
  let a := s.cur.agent s.cur.cw
  let off (o : Nat) : Word := rec_ + BitVec.ofNat 64 o
  planWrite a .ownWrite (off (0x80 + 8 * nprov)) (leBytes 8 (blk.toNat / 65536 * 65536 + w * 4 + 3))
  planWrite a .ownWrite (off (0xA0 + 8 * nprov)) (leBytes 8 pool.toNat)
  planWrite a .ownWrite (off 0x19) [BitVec.ofNat 8 (nprov + 1)]

/-- Is the page of an address an arena page of a window (R304, R335)? Nothing is accessed there, so no bit of the page's entry
changes and no permission is asked. -/
def State.arenaPage (s : State) (a : Agent) (va : Word) (w : Nat) : Bool :=
  decide (va.toNat < tileWindow) && (a.sup || decide (va.toNat < 2 ^ 54)) &&
    (s.walk a true va.toNat).any fun m => m.1.arena == some w

/-- `balloc` (R330), and under a valid `cw` the rules of R338. -/
def execBalloc (d a : BitVec 5) (s : State) : Result :=
  finish (do
    let pool := s.x a
    let h := s.cur
    let ag := h.agent h.cw
    let w := h.cw.toNat % 16
    let taken ← planned (do
      let p ← readPool ag pool
      if p.cap < p.count then (trap 0x08 pool : M Unit)
      if !h.cw.getLsbD 4 then
        if p.count = 0 then return (none : Option (Word × Nat))
        return some (← p.pop ag, p.scope)
      else
        match (s.launch? h.launch).bind fun l => l.dir[w]?.join with
        | none => (trap 0x07 (h.cw.setWidth 64) : M (Option (Word × Nat)))
        | some rec_ =>
          let st := leNat (← planRead ag .ownRead (rec_ + 0x18) 2)
          if bit st 1 then (trap 0x07 (h.cw.setWidth 64) : M Unit)
          let nprov := bits st 8 8
          if 4 ≤ nprov then (trap 0x08 pool : M Unit)
          if p.count = 0 then return none
          let blk ← p.pop ag
          if !(← (get : M State)).arenaPage ag blk w then (trap 0x07 blk : M Unit)
          draftBlock s rec_ w nprov blk pool
          return some (blk, p.scope))
    match taken with
    | none => modCur fun h => h.setX d 0
    | some (blk, scope) =>
      modCur fun h => h.setX d blk
      acquireM scope
    retireM) s

/-! Copy-on-write, publication and reclamation -/

/-- Copy a 64 KiB page. -/
def copyPage (a : Agent) (src dst : Word) : PM (List Byte) := do
  let bs ← planRead a .read src 65536
  planWrite a .write dst bs
  return bs

/-- A top page's bytes after R320's copy: record zero except map, fresh bits clear. -/
def copiedTop (bs : List Byte) : List Byte :=
  fill 0x28 0 ++ (bs.drop 0x28).take 8 ++ fill 16 0 ++
  (bs.drop 0x40).zipIdx.map fun b => if b.2 % 8 = 0 then b.1 &&& 0xFD else b.1

/-- Make sure that the working top page is not a published one (R320); the working top page. -/
def ownTop (a : Agent) (h : MapHeader) : PM Word := do
  let st := leNat (← planRead a .read (h.top + 0x24) 1)
  if bit st 0 then
    let page ← takePage a h.pool
    let bs ← planRead a .read h.top 65536
    planWrite a .write page (copiedTop bs)
    planWrite a .write (h.addr + 0x10) (leBytes 8 page.toNat)
    return page
  else return h.top

/-- Write a block entry of the working map with the copies of R320 (R326). -/
def setEntry (a : Agent) (h : MapHeader) (b : Nat) (e : Word) : PM Unit := do
  let top ← ownTop a h
  let slot := top + BitVec.ofNat 64 (8 * (8 + b / 8192))
  let t := leNat (← planRead a .read slot 8)
  let leaf ←
    if !bit t 0 then do
      let page ← takePage a h.pool
      planWrite a .write page (fill 65536 0)
      planWrite a .write slot (leBytes 8 (page.toNat / 65536 * 65536 + 3))
      pure page
    else if !bit t 1 then do
      let page ← takePage a h.pool
      let _ ← copyPage a (BitVec.ofNat 64 (t / 65536 * 65536)) page
      planWrite a .write slot (leBytes 8 (page.toNat / 65536 * 65536 + 3))
      pure page
    else pure (BitVec.ofNat 64 (t / 65536 * 65536))
  planWrite a .write (leaf + BitVec.ofNat 64 (8 * (b % 8192))) (leBytes 8 e.toNat)

/-- The valid leaf pages of a version page: pointer number and page number (R318). -/
def leafPages (bs : List Byte) : List (Nat × Nat) :=
  ((upTo 8184).map fun k => (k, leNat ((bs.drop (8 * (8 + k))).take 8))).filterMap fun p =>
    if bit p.2 0 then some (p.1, p.2 / 65536) else none

/-- The page number a pointer of a version page names, whatever its other bits (R328). -/
def leafPage (bs : List Byte) (k : Nat) : Nat := leNat ((bs.drop (8 * (8 + k))).take 8) / 65536

/-- No more version pages than pages of the address space: how far a chain of versions is followed. -/
def versionPages : Nat := 2 ^ 39

/-- The oldest live version, following prev from a version handle (R328). -/
def oldestVersion (a : Agent) : Nat → Word → PM Word
  | 0, v => return v
  | fuel + 1, v => do
    let prev := leNat (← planRead a .read (v - 1 + 0x10) 8)
    if prev = 0 then return v else oldestVersion a fuel (BitVec.ofNat 64 prev)

/-- A list in ascending order without repeats. -/
def insertSorted (x : Nat) : List Nat → List Nat
  | [] => [x]
  | y :: ys => if x = y then y :: ys else if x < y then x :: y :: ys else y :: insertSorted x ys

/-- The loop of R328 from version `v`. -/
def reclaimFrom (a : Agent) (pool vcur : Word) : Nat → Word → PM Unit
  | 0, _ => pure ()
  | fuel + 1, v => do
    if v = vcur then return
    let page := v - 1
    let refs := leNat (← planRead a .read (page + 0x20) 4)
    if refs ≠ 0 then return
    let next := BitVec.ofNat 64 (leNat (← planRead a .read (page + 0x18) 8))
    let own ← planRead a .read page 65536
    let newer ← planRead a .read (next - 1) 65536
    let leaves := (leafPages own).filterMap fun p => if leafPage newer p.1 = p.2 then none else some (p.2 * 65536)
    let pages := (page.toNat :: leaves).foldr insertSorted []
    let p ← readPool a pool
    if p.cap < p.count + pages.length then
      let st := leNat (← planRead a .read (page + 0x24) 1)
      planWrite a .write (page + 0x24) [BitVec.ofNat 8 (st ||| 4)]
    else
      (releaseM p.scope : M Unit)
      p.push a (pages.map (BitVec.ofNat 64))
      planWrite a .write (next - 1 + 0x10) (leBytes 8 0)
      reclaimFrom a pool vcur fuel next

/-- Reclamation (R328). -/
def reclaim (a : Agent) (h : MapHeader) (vcur : Word) : PM Unit := do
  if vcur = 0 then return
  let v ← oldestVersion a versionPages vcur
  reclaimFrom a h.pool vcur versionPages v

/-- A header handle, or the trap of R315 and R326 (a version handle traps with cause 0x08). -/
def headerOnly (a : Agent) (xh : Word) : PM MapHeader := do
  if !isHeader xh then
    if isVersion xh then (trap 0x08 : M Unit) else (trap 0x03 xh : M Unit)
  readHeader (homeReader a) xh xh

/-- Publication (R327), without the copy of the top page and with the release left to the caller: the header's working state
becomes its newest version. -/
def publish (a : Agent) (h : MapHeader) (scope : BitVec 3) : PM Unit := do
  let off (o : Nat) : Word := h.top + BitVec.ofNat 64 o
  let v := h.top + 1
  planWrite a .write (off 0) (leBytes 4 (h.vnum + 1))
  planWrite a .write (off 4) (leBytes 4 h.length)
  planWrite a .write (off 8) (leBytes 8 h.rstate.toNat)
  planWrite a .write (off 0x10) (leBytes 8 h.vcur.toNat)
  planWrite a .write (off 0x18) (leBytes 8 0)
  planWrite a .write (off 0x20) (leBytes 4 0)
  planWrite a .write (off 0x24) [1, scope.setWidth 8]
  if h.vcur ≠ 0 then
    let page := h.vcur - 1
    let st := leNat (← planRead a .read (page + 0x24) 1)
    planWrite a .write (page + 0x18) (leBytes 8 v.toNat)
    planWrite a .write (page + 0x24) [BitVec.ofNat 8 (st ||| 2)]
  planWrite a .write (h.addr + 0x28) (leBytes 8 v.toNat)
  planWrite a .write (h.addr + 0x24) (leBytes 4 (h.vnum + 1))
  reclaim a h v

/-! The MAP instructions -/

/-- `mapget` (R326). -/
def execMapget (d a b : BitVec 5) (s : State) : Result :=
  finish (do
    let ag := s.cur.agent s.cur.cw
    let e ← planned (do
      let v ← readView (homeReader ag) (s.x a)
      resolveEntry (homeReader ag) v (s.x b).toNat none)
    modCur fun h => h.setX d (match e with
      | .entry n => BitVec.ofNat 64 n
      | _ => 0)
    retireM) s

/-- A version left pending by a full pool is reclaimed by the next MAP instruction on the map that finds room (R328). What
such an attempt meets is no fault of the instruction, but for a write that its release waits for in vain: then the instruction
faults (R400), as it was `before` it. -/
def reclaimPending (before : State) (a : Agent) (h : MapHeader) : M Unit := do
  let lost := (← curHart).lostWrites
  match ← attempt (planned (do
    if h.vcur = 0 then return
    let v ← oldestVersion a versionPages h.vcur
    let st := leNat (← planRead a .read (v - 1 + 0x24) 1)
    if bit st 2 then reclaimFrom a h.pool h.vcur versionPages v)) with
  | .ok _ => pure ()
  | .error t =>
    let left := (← curHart).lostWrites
    if left ≠ lost then
      set (before.onCur fun h => { h with lostWrites := left })
      throw t

/-- `mapset` (R326, R320): the field of xd names the handle's register. DESIGN CHOICE (notes/assumptions/26.md): a bad entry is
found before a position beyond the map's tables, and `tval` names it. -/
def execMapset (h a b : BitVec 5) (s : State) : Result :=
  finish (do
    let ag := s.cur.agent s.cur.cw
    let pos := s.x a
    let blk := s.x b
    let hdr ← planned (do
      let hdr ← headerOnly ag (s.x h)
      if bits blk.toNat 1 15 ≠ 0 then (trap 0x08 blk : M Unit)
      if 8184 ≤ (pos.toNat >>> hdr.geo.lgt) / 8192 then (trap 0x08 pos : M Unit)
      setEntry ag hdr (pos.toNat >>> hdr.geo.lgt) blk
      return hdr)
    reclaimPending s ag hdr
    retireM) s

/-- `mapver.acq` (R327). -/
def execMapverAcq (d a : BitVec 5) (s : State) : Result :=
  finish (do
    let ag := s.cur.agent s.cur.cw
    let xh := s.x a
    let (h, scope) ← planned (do
      let h ← headerOnly ag xh
      if h.vcur = 0 then (trap 0x08 xh : M Unit)
      let page := h.vcur - 1
      let refs := leNat (← planRead ag .read (page + 0x20) 4)
      if refs = 2 ^ 32 - 1 then (trap 0x08 : M Unit)
      planWrite ag .write (page + 0x20) (leBytes 4 (refs + 1))
      let scope := leNat (← planRead ag .read (page + 0x25) 1)
      return (h, scope))
    reclaimPending s ag h
    modCur fun c => c.setX d h.vcur
    acquireM scope
    retireM) s

/-- `mapver.rel` (R327). -/
def execMapverRel (a : BitVec 5) (s : State) : Result :=
  finish (do
    let ag := s.cur.agent s.cur.cw
    let xv := s.x a
    planned (do
      if !isVersion xv then
        if isHeader xv then (trap 0x08 : M Unit) else (trap 0x03 xv : M Unit)
      let page := xv - 1
      let refs := leNat (← planRead ag .read (page + 0x20) 4)
      if refs = 0 then (trap 0x08 : M Unit)
      let v ← readView (homeReader ag) xv
      planWrite ag .write (page + 0x20) (leBytes 4 (refs - 1))
      reclaim ag v.hdr v.hdr.vcur)
    retireM) s

/-- `mapver.pub` (R327). -/
def execMapverPub (a : BitVec 5) (k : BitVec 3) (s : State) : Result :=
  finish (do
    let ag := s.cur.agent s.cur.cw
    planned (do
      let h ← headerOnly ag (s.x a)
      let top ← ownTop ag h
      (releaseM k.toNat : M Unit)
      publish ag { h with top := top } k)
    retireM) s

end Sys2Proof.Machine
end

