-- ==== Sys2Proof/Machine/Tide.lean ====
section
/-! DEFINITION. Tide declarations, accounts and the throttle of undeclared matrix work (20_tide.md). The cycle count of the
cores advances through `State.nextCycle`. -/

namespace Sys2Proof.Machine

/-! Windows, cover and classes -/

/-- First cycle of the window (R368). -/
def Declaration.start (d : Declaration) : Nat := d.issue + d.onset

/-- The cycle at which the window is over (R368). -/
def Declaration.over (d : Declaration) : Nat := d.issue + d.onset + d.duration

/-- The cover at a cycle (R369). -/
def Declaration.cover (d : Declaration) (t : Nat) : Nat :=
  if t < d.start || d.over ≤ t then 0
  else if 3000 ≤ d.onset || d.fullReady || d.issue + 3000 ≤ t then d.intensity
  else d.intensity * (t - d.issue) / 3000

/-- The cover of a hart's accounts at a cycle (R369). -/
def Tide.cover (d : Tide) (t : Nat) : Nat :=
  match d.decl with
  | some x => x.cover t
  | none => 0

/-- Is the hart's next repetition covered (R377)? -/
def Tide.covers (t : Tide) (cycle : Nat) : Bool := decide (t.covered < (t.coverSum + t.cover cycle) / 16)

/-- Does the burst hold the hart's next repetition back (R378)? -/
def Tide.holdsBack (t : Tide) (cycle : Nat) (floor : BitVec 3) : Bool :=
  !t.covers cycle && t.burst && decide (cycle < t.lastIssue + 2 ^ floor.toNat)

/-- The class of a repetition (R377), or that it is held back (R378). -/
inductive RepClass where
  | covered | free | undeclared | held
  deriving DecidableEq, Repr

/-- Free repetitions that a core has issued in the interval (R377). -/
def State.freeCount (s : State) (core : Nat) : Nat :=
  ((s.freeReps.find? fun p => p.1 == core).map Prod.snd).getD 0

/-- The floor that acts on a hart's bursts in this cycle (R164, R378). -/
def State.floorOf (s : State) (h : Hart) : BitVec 3 := ((s.part? h.part).map (·.acting.floor)).getD 2

/-- The class of the executing hart's next repetition at this cycle (R377, R378). -/
def State.classify (s : State) : RepClass :=
  let t := s.cur.tide
  if t.covers s.cycle then .covered
  else if t.holdsBack s.cycle (s.floorOf s.cur) then .held
  else if s.freeCount s.cur.core < 8 then .free else .undeclared

/-- The accounts after a repetition of a class (R377, R378). -/
def Tide.count (c : RepClass) (cycle : Nat) (t : Tide) : Tide :=
  match c with
  | .covered => { t with covered := t.covered + 1, ready := false }
  | .free => { t with lastIssue := cycle, ready := false }
  | .undeclared =>
    { t with undeclared := t.undeclared + 1, burst := true, undeclaredNow := true, lastIssue := cycle, ready := false }
  | .held => { t with ready := true }

/-- The executing hart's matrix unit issues a repetition, or holds it back (R156, R377, R378). -/
def State.countRep (s : State) (c : RepClass) : State :=
  let core := s.cur.core
  let s := s.onCur fun h => { h with tide := h.tide.count c s.cycle }
  let s := if c = .free then
      { s with freeReps := (core, s.freeCount core + 1) :: s.freeReps.filter fun p => p.1 != core } else s
  if c = .held then s else { s with issued := core :: s.issued }

/-! The passing of a cycle -/

/-- What a cycle adds to the accounts of a resident hart (R376, R377, R378). -/
def Hart.tideCycle (cycle : Nat) (floor : BitVec 3) (h : Hart) : Hart :=
  let t := h.tide
  let inWindow := match t.decl with
    | some d => d.active
    | none => false
  let held := t.ready && t.holdsBack cycle floor
  { h with tide := { t with
    coverSum := t.coverSum + t.cover cycle
    declared := if inWindow then t.declared + 1 else t.declared
    throttled := if held then t.throttled + 1 else t.throttled } }

/-- Is a repetition of the hart held back in this cycle (R378)? -/
def Hart.throttledNow (cycle : Nat) (floor : BitVec 3) (h : Hart) : Bool :=
  h.isResident && h.tide.ready && h.tide.holdsBack cycle floor

/-- The events that fall due at a cycle (R368, R374, R376, R377): ends of windows, of the interval, starts, onsets. -/
noncomputable def State.tideDue (s : State) : List Item :=
  let residents := s.harts.filter Hart.isResident
  let declared (p : Declaration → Bool) : List Nat :=
    (residents.filter fun h => h.tide.decl.any p).map (·.uid)
  (declared fun d => d.over == s.cycle).map (fun u => Item.event (.tideWindowEnd u)) ++
  (if s.cycle % 64 = 0 then
    ((residents.map Hart.core).eraseDups).map fun c => Item.event (.tideIntervalEnd c) else []) ++
  (declared fun d => d.start == s.cycle && !d.active).map (fun u => Item.event (.tideWindowStart u)) ++
  ((residents.filter fun h =>
    match h.wait with
    | .tidewait _ _ => h.tide.decl.all fun d => decide (d.start ≤ s.cycle)
    | _ => false).map fun h => Item.event (.tidewaitOnset h.uid))

/-- The cores' cycle count advances (R20, R156): the checks of the cycle's barrier arrivals and drops (R358), accounts, counters,
the events that fall due, and with every third cycle a tick of the shore count (R350). What the spilled slices of the cycle leave
of an L1 is what it holds (R88). -/
noncomputable def State.nextCycle (s : State) : State :=
  let s := s.checkBars
  let residents := s.harts.filter Hart.isResident
  let throttled := residents.filter fun h => h.throttledNow s.cycle (s.floorOf h)
  let seen (p : PerfCtr) : Bool := !p.onDie && p.event == 0x01 &&
    (!p.filt || residents.any fun h => h.core == p.unit && h.part == p.part.toNat)
  let counted := { s with perf := s.perf.map fun (p : PerfCtr) => if seen p then p.add 1 else p }
  let s := throttled.foldl (fun s h => s.countCore h.core h.part 0x0A 1) counted
  let s := s.mapHarts fun h => if h.isResident then h.tideCycle s.cycle (s.floorOf h) else h
  let busy (core : Nat) : Bool := residents.any fun h => h.core == core
  let s := { s with
    cycle := s.cycle + 1, issued := [], asked := [], wrote := []
    parts := s.parts.map fun (p : Partition) => { p with acting := p.toPartRegs }
    -- an interval ends on a core without a hart as well (R377)
    freeReps := s.freeReps.filter fun (r : Nat × Nat) => (s.cycle + 1) % 64 != 0 || busy r.1 }
  { s with agenda := s.tideDue ++ (if s.cycle % 3 = 0 then [Item.event .shoreTick] else []) ++ s.agenda }.spillRoom

/-- A window begins (R376). -/
def execTideWindowStart (hart : Nat) (s : State) : Result :=
  s.eventOn hart fun s =>
    let begin_ (d : Declaration) : Declaration := if d.start ≤ s.cycle then { d with active := true } else d
    .next (s.onCur fun h => { h with tide := { h.tide with decl := h.tide.decl.map begin_ } })

/-- A window ends, and with it the declaration; the unused capacity is charged (R368, R377). -/
def execTideWindowEnd (hart : Nat) (s : State) : Result :=
  s.eventOn hart fun s =>
    match s.cur.tide.decl with
    | some d =>
      if d.over ≤ s.cycle then
        .next (s.onCur fun h => { h with tide := { h.tide.charge with decl := none } })
      else .next s
    | none => .next s

/-- A hart's accounts at the end of an interval (R377, R378). -/
def Tide.intervalEnd (t : Tide) : Tide :=
  { t with
    unused := t.unused + BitVec.ofNat 64 t.unusedNow
    coverSum := 0
    covered := 0
    charged := 0
    burst := t.burst && t.undeclaredNow
    undeclaredNow := false }

/-- The end of a 64-cycle interval on a core (R377, R378). -/
def execTideIntervalEnd (core : Nat) (s : State) : Result :=
  if s.cycle % 64 ≠ 0 then .next s
  else
    let s := s.mapHarts fun h => if h.isResident && h.core == core then { h with tide := h.tide.intervalEnd } else h
    .next { s with freeReps := s.freeReps.filter fun p => p.1 != core }

/-! Granted onsets -/

/-- What an onset slot of a die can still admit (R370, R371). -/
def State.room (s : State) (die slot : Nat) : Int :=
  ((s.rooms.find? fun r => r.1 == die && r.2.1 == slot).map (·.2.2)).getD 16

/-- The slot that a request from cycle `a` on is granted (R371). -/
def State.grantSlot (s : State) (die a n : Nat) : Nat :=
  let first := ceilDiv a 8
  let last := (a + 600) / 8
  let slots := (upTo (last + 1 - first)).map fun i => 8 * (first + i)
  (slots.find? fun x => decide ((n : Int) ≤ s.room die x)).getD (8 * last)

/-- Take room from a slot; slots of the past are forgotten (R371). -/
def State.takeRoom (s : State) (die slot n : Nat) : State :=
  { s with rooms := (die, slot, s.room die slot - n) ::
      s.rooms.filter fun r => decide (s.cycle ≤ r.2.1) && !(r.1 == die && r.2.1 == slot) }

/-! The instructions -/

/-- A hart's place in the order in which the declarations of one cycle reach a Breakwater: core, then hart slot (R370). -/
def Hart.seat (h : Hart) : Nat :=
  match h.place with
  | .resident core slot => 8 * core + slot
  | _ => 0

/-- Has a hart of a later place on the die declared in this cycle already, so that this one's declaration belongs to the next
(R370)? -/
def State.outOfTurn (s : State) : Bool := s.asked.any fun r => r.1 == s.cur.core / 32 && decide (s.cur.seat < r.2)

/-- `tide` (R373). One that would make a declaration out of the order of R370 issues in the next cycle. -/
def execTide (d a b : BitVec 5) (n : BitVec 6) (s : State) : Result :=
  let asked := min (s.x a).toNat 4194303
  let dur := min (s.x b).toNat 16777215
  let n := min n.toNat (s.recordOf s.cur).tide
  if dur ≠ 0 && n ≠ 0 && s.outOfTurn then .next s
  else
  let s := s.onCur fun h => { h with tide := { h.tide with decl := none } }
  if dur = 0 || n = 0 then .next (s.setX d (BitVec.ofNat 64 asked)).retire
  else
    let full := ((s.part? s.cur.part).map (·.acting.ramp)).getD 0 == 1
    let o := if full then max asked 3000 else asked
    let die := s.cur.core / 32
    let slot := s.grantSlot die (s.cycle + o) n
    let g := slot - s.cycle
    let s := (s.takeRoom die slot n).countDie die 0x48 ((g - asked) / 3)
    let s := { s with asked := (die, s.cur.seat) :: s.asked }
    let s := s.onCur fun h => { h with tide := { h.tide with
      decl := some { issue := s.cycle, onset := g, duration := dur, intensity := n, fullReady := full, active := (g == 0) }
      stagger := h.tide.stagger + BitVec.ofNat 64 (g - asked)
      stamp := s.shore } }
    .next (s.setX d (BitVec.ofNat 64 g)).retire

/-- `tidewait` (R374): it sleeps until the onset when that lies ahead. -/
def execTidewait (d : BitVec 5) (s : State) : Result :=
  match s.cur.tide.decl with
  | some x =>
    if s.cycle < x.start then .next (s.onCur fun h => { h with wait := .tidewait d s.cycle })
    else .next (s.setX d 0).retire
  | none => .next (s.setX d 0).retire

/-- A sleeping `tidewait` returns at the onset with the cycles it slept (R374). -/
def execTidewaitOnset (hart : Nat) (s : State) : Result :=
  s.eventOn hart fun s =>
    match s.cur.wait with
    | .tidewait d began =>
      if s.cur.tide.decl.all fun x => decide (x.start ≤ s.cycle) then
        .next (s.setX d (BitVec.ofNat 64 (s.cycle - began))).retire
      else .next s
    | _ => .next s

/-- `sel` 5: the declaration's state (R376). -/
def Tide.declWord (t : Tide) (cycle : Nat) : Word :=
  match t.decl with
  | none => 0
  | some d => BitVec.ofNat 64 ((d.start - cycle) % 2 ^ 32 * 2 ^ 32 + flag d.active * 64 + flag (!d.active) * 32 + d.intensity)

/-- `tideq` (R375, R376). -/
def execTideq (d : BitVec 5) (sel : BitVec 6) (s : State) : Result :=
  let t := s.cur.tide
  let v : Word := match sel.toNat with
    | 0 => t.declared
    | 1 => t.undeclared
    | 2 => t.throttled
    | 3 => t.stagger
    | 4 => t.unused
    | 5 => t.declWord s.cycle
    | _ => t.stamp
  .next (s.setX d v).retire

/-- The totals of a partition's tide accounts (R376, R401). -/
def execMgmtTideTotals (part : BitVec 16) (s : State) : Result :=
  s.manage false fun s =>
    match s.part? part.toNat with
    | some p => s.reply (.totals 0 p.declared p.undeclared p.throttled p.stagger p.unused)
    | none => s.reply (.status 0x02)

end Sys2Proof.Machine
end

