-- ==== Sys2Proof/Machine/Matrix.lean ====
section
/-! DEFINITION. Matrix mode and the majors MCTL, MOPA, MMOV and MLS (08_tile_registers.md; exact accumulation R61). -/

namespace Sys2Proof.Machine

/-! Exact accumulation (R61) -/

/-- A product of decoded operands, exact; `none` for 0 × ∞. -/
def FVal.times : FVal → FVal → Option FVal
  | .nan s q x y, _ => some (.nan s q x y)
  | _, .nan s q x y => some (.nan s q x y)
  | .inf s, .inf t => some (.inf (s != t))
  | .inf s, .fin t m _ => if m = 0 then none else some (.inf (s != t))
  | .fin s m _, .inf t => if m = 0 then none else some (.inf (s != t))
  | .fin s m e, .fin t n g => some (.fin (s != t) (m * n) (e + g))

/-- Is the value the infinity of a sign? -/
def FVal.isInf (sign : Bool) : FVal → Bool
  | .inf s => s == sign
  | _ => false

/-- The exact sum of finite values at the end of a list, from a first one (R61; R49 for the sign of zero). -/
def exactSum : Bool × Nat × Int → List FVal → Bool × Nat × Int
  | a, [] => a
  | a, .fin s m e :: vs => exactSum (addExact {} a.1 a.2.1 a.2.2 s m e) vs
  | a, _ :: vs => exactSum a vs

/-- R61 for floating operands: the accumulator's word, the rows of A and B, and the scales, `none` for a NaN scale. -/
def mopaFloat (acc : Nat) (fa fb : Fmt) (as bs : List Nat) (scale : Option Int) : FRes :=
  let c := Fmt.f32.decode acc
  let xs := as.map fa.decode
  let ys := bs.map fb.decode
  let products := (xs.zip ys).map fun p => p.1.times p.2
  let terms := c :: products.filterMap id
  let invalid := products.any Option.isNone || (terms.any (FVal.isInf true) && terms.any (FVal.isInf false))
  let signalling := (c :: xs ++ ys).any FVal.isSnan
  if invalid || scale.isNone || (c :: xs ++ ys).any FVal.isNan then
    ⟨0x7FC00000, if invalid || signalling then flNV else 0⟩
  else if terms.any (FVal.isInf true) then ⟨Fmt.f32.signed true Fmt.f32.infMag, 0⟩
  else if terms.any (FVal.isInf false) then ⟨Fmt.f32.signed false Fmt.f32.infMag, 0⟩
  else
    let scaled := (products.filterMap id).map fun
      | .fin s m e => .fin s m (e + scale.getD 0)
      | v => v
    match c with
    | .fin s m e =>
      let (sg, n, x) := exactSum (s, m, e) scaled
      let r := Fmt.f32.round {} sg n x
      ⟨r.val, r.fl &&& ~~~flUF⟩
    | _ => ⟨acc, 0⟩

/-- R61 for integer operands, modulo 2^32. -/
def mopaInt (acc : Nat) (ta tb : Tag) (as bs : List Nat) : FRes :=
  let sum := ((as.zip bs).map fun p => ta.int p.1 * tb.int p.2).foldl (· + ·) 0
  ⟨wrap 32 (acc + sum), 0⟩

/-! Operands -/

/-- Is the tag an operand tag (R146)? -/
def Tag.isOperand : Tag → Bool
  | .f32 | .bf16 | .f16 | .e4m3 | .e5m2 | .e2m1 | .i8 | .n8 => true
  | _ => false

/-- The depth k of an operand tag (R146). -/
def Tag.depth (t : Tag) : Nat := if t.isOperand then 32 / t.width else 0

/-- May two operand tags meet (R146)? -/
def tagsMeet (a b : Tag) : Bool :=
  a.isOperand && b.isOperand && (a == b ||
    match a, b with
    | .e4m3, .e5m2 | .e5m2, .e4m3 | .i8, .n8 | .n8, .i8 => true
    | _, _ => false)

/-- Does the tag take scales (R149)? -/
def Tag.isScaled : Tag → Bool
  | .e4m3 | .e5m2 | .e2m1 => true
  | _ => false

/-- The descriptor of a tile-buffer operand (R150). -/
structure Descriptor where
  base : Nat
  tilePitch : Nat
  rowPitch : Nat
  rot : Nat
  deriving DecidableEq, Repr

/-- The descriptor that a pair of registers holds (R150). -/
def Descriptor.ofPair (lo hi : Word) : Descriptor :=
  { base := bits lo.toNat 0 21, tilePitch := bits hi.toNat 16 16, rowPitch := bits hi.toNat 0 16, rot := bits hi.toNat 32 4 }

/-- The offset of row `r` at step `s` (R150). -/
def Descriptor.row (d : Descriptor) (s r : Nat) : Nat :=
  let o := d.base + s * 64 * d.tilePitch + r * d.rowPitch
  o / 1024 * 1024 + ((bits o 4 6 + d.rot * r) % 64) * 16 + o % 16

/-- A MOPA operand: a register with its step width, or a descriptor; `latched` operands stay at step 0 (R148). -/
structure MopaOperand where
  src : BitVec 5 ⊕ Descriptor
  latched : Bool
  mx : Bool
  deriving DecidableEq, Repr

/-- The step an operand is read at. -/
def MopaOperand.at_ (o : MopaOperand) (s : Nat) : Nat := if o.latched then 0 else s

/-- The register of a register operand at a step (R148, R149). -/
def MopaOperand.reg (o : MopaOperand) (v : BitVec 5) (s : Nat) : BitVec 5 :=
  v + BitVec.ofNat 5 (o.at_ s * if o.mx then 2 else 1)

/-- The registers that an operand names over all steps (R142). -/
def MopaOperand.regs (o : MopaOperand) (rep : Nat) : List (BitVec 5) :=
  match o.src with
  | .inl v => (upTo (rep + 1)).flatMap fun s => if o.mx then [o.reg v s, o.reg v s + 1] else [o.reg v s]
  | .inr _ => []

/-- The tag an operand is read under at a step (R146). -/
def Hart.operandTag (h : Hart) (o : MopaOperand) (s : Nat) : Tag :=
  match o.src with
  | .inl v => (h.getV (o.reg v s)).tag
  | .inr _ => h.ltag

/-- Are the scale registers of an operand n8 (R149)? -/
def Hart.scalesOk (h : Hart) (o : MopaOperand) (rep : Nat) : Bool :=
  match o.src with
  | .inl v => !o.mx || (upTo (rep + 1)).all fun s => (h.getV (o.reg v s + 1)).tag == .n8
  | .inr _ => true

/-- The launch's tile-buffer allocation on the executing hart's core: byte offset in the core's buffer, and length (R168). -/
def State.allocation (s : State) (h : Hart) : Nat × Nat :=
  match s.launch? h.launch with
  | some l =>
    match l.allocs.find? fun c => c.core == h.core with
    | some c => (1024 * c.base, 1024 * l.record.tbuf)
    | none => (0, 0)
  | none => (0, 0)

/-- The 64 rows of an operand at a step, 32 bits each (R146, R150), and where a byte of it is in error (R389): the address of
the row in the tile-buffer window (R169), or 0 for a register. -/
def State.operandRows (s : State) (h : Hart) (o : MopaOperand) (k : Nat) : List Nat × Option Word :=
  match o.src with
  | .inl v =>
    let r := o.reg v k
    ((upTo 64).map fun i => bits (h.getV r).img.toNat (32 * i) 32,
      if h.vbad.any fun p => (p.1 == r.toNat && decide (p.2 < 256)) || (o.mx && p.1 == (r + 1).toNat && decide (p.2 < 64))
      then some 0 else none)
  | .inr d =>
    let at_ (i : Nat) : Nat := tileAddr s.pkg h.core ((s.allocation h).1 + d.row (o.at_ k) i)
    ((upTo 64).map fun i => leNat (s.homeRead (at_ i) 4),
      ((upTo 64).find? fun i => s.badByte h.core .home (at_ i) 4).map fun i =>
        BitVec.ofNat 64 (tileWindow + d.row (o.at_ k) i))

/-- The exponent of a row's scale, `none` for the NaN code (R46, R149). -/
def Hart.scaleOf (h : Hart) (o : MopaOperand) (k i : Nat) : Option Int :=
  match o.src with
  | .inl v =>
    if o.mx then
      let b := (h.getV (o.reg v k + 1)).elem i
      if b = 255 then none else some ((b : Int) - 127)
    else some 0
  | .inr _ => some 0

/-- The k elements of a row (R146). -/
def rowElems (t : Tag) (row : Nat) : List Nat := (upTo t.depth).map fun d => elemOf row t.width d

/-! Tiles -/

/-- Element (i, j) of a tile (R138). -/
def Tile.at_ (t : Tile) (i j : Nat) : Nat := bits t.img.toNat (32 * (64 * i + j)) 32

/-- A tile with words replaced: bit positions in words and values. -/
def Tile.put (t : Tile) (ws : List (Nat × Nat)) (tag : TileTag) : Tile :=
  { img := BitVec.ofNat 131072 (ws.foldl (fun n w => insertBits n (32 * w.1) 32 w.2) t.img.toNat), tag := tag }

/-- The tag of a tile as an element tag. -/
def TileTag.tag : TileTag → Tag
  | .dead => .dead
  | .f32 => .f32
  | .i32 => .i32

/-- One repetition's results: word position, value and flags for the elements that the mask enables (R148). -/
def repetition (tile : Tile) (m : BitVec 2048) (ta tb : Tag) (as bs : List Nat) (sa sb : Nat → Option Int) :
    List (Nat × FRes) :=
  let rows := (upTo 64).filter m.getLsbD
  let cols := (upTo 64).filter fun j => m.getLsbD (64 + j)
  rows.flatMap fun i => cols.map fun j =>
    let x := rowElems ta (as.getD i 0)
    let y := rowElems tb (bs.getD j 0)
    let acc := tile.at_ i j
    (64 * i + j,
      match ta.fmt, tb.fmt with
      | some fa, some fb =>
        mopaFloat acc fa fb x y (match sa i, sb j with
          | some p, some q => some (p + q)
          | _, _ => none)
      | _, _ => mopaInt acc ta tb x y)

/-! MCTL -/

/-- Wait for every register that an engine command has still to write. -/
def allSettled : M Unit := do
  let s ← get
  if !(s.pendingGroups s.cur.uid).isEmpty then stall

/-- `menter` (R143); the field holds n − 1. -/
def execMenter (n : BitVec 4) (s : State) : Result :=
  finish (do
    let h := s.cur
    need (!h.status.matrix) 0x0A
    need h.granted 0x09
    need (decide (n.toNat + 1 ≤ (s.recordOf h).ntile)) 0x0A
    need h.ltag.isOperand 0x02
    allSettled
    let dead (h : Hart) : Hart := (upTo 8).foldl (fun h i => h.setV (BitVec.ofNat 5 (24 + i)) {}) h
    let bind (h : Hart) : Hart := (upTo 16).foldl (fun h i =>
      h.setT (BitVec.ofNat 4 i) { tag := if i ≤ n.toNat then .f32 else .dead }) h
    modCur fun h =>
      let h := bind (dead h)
      { h with
        vlen := 64 * h.ltag.depth, vlmax := 64 * h.ltag.depth, bound := n.toNat + 1
        status := { h.status with matrix := true } }
    retireM) s

/-- `mexit` (R144). -/
def execMexit (s : State) : Result :=
  finish (do
    need s.cur.status.matrix 0x0A
    modCur fun h => { h with
      tiles := Vector.replicate 16 {}, tbad := [], bound := 0, vlen := 0, vlmax := 0, ltag := .dead
      status := { h.status with matrix := false } }
    retireM) s

/-- `mzero` (R145). -/
def execMzero (t : BitVec 4) (s : State) : Result :=
  finish (do
    need s.cur.status.matrix 0x0A
    need ((s.cur.getT t).tag != .dead) 0x02
    modCur fun h => h.setT t { tag := .f32 }
    retireM) s

/-- Write elements of a tile (R138); an error stays in those that are not written (R389). -/
def Hart.putT (t : BitVec 4) (ws : List (Nat × Nat)) (tag : TileTag) (h : Hart) : Hart :=
  { h.setT t ((h.getT t).put ws tag) with
    tbad := h.tbad.filter fun p => p.1 != t.toNat || !ws.any fun w => w.1 == p.2 }

/-! MOPA -/

/-- The operands of a MOPA from its fields and captured descriptor pairs (R147, R150). -/
def mopaOperands (a b : BitVec 5) (src : BitVec 2) (ra mx : Bool) (ops : List Word) : MopaOperand × MopaOperand :=
  let pair (n : Nat) : Descriptor := .ofPair (ops.getD n 0) (ops.getD (n + 1) 0)
  ({ src := if src.getLsbD 0 then .inr (pair 0) else .inl a, latched := !ra, mx := mx },
   { src := if src.getLsbD 1 then .inr (pair (if src.getLsbD 0 then 2 else 0)) else .inl b, latched := ra, mx := mx })

/-- Check 4 of R151 for an operand. -/
def MopaOperand.aligned (o : MopaOperand) : M Unit :=
  match o.src with
  | .inl _ => pure ()
  | .inr d => do
    need (d.base % 64 == 0) 0x03 (BitVec.ofNat 64 d.base)
    need (d.rowPitch % 4 == 0) 0x03 (BitVec.ofNat 64 d.rowPitch)

/-- The offsets of an operand's rows over all steps (R151). -/
def MopaOperand.offsets (o : MopaOperand) (rep : Nat) : List Nat :=
  match o.src with
  | .inl _ => []
  | .inr d => (upTo (rep + 1)).flatMap fun s => (upTo 64).map fun r => d.row (o.at_ s) r

/-- The checks of R151 in their order. DESIGN CHOICE (notes/assumptions/21.md): where several of check 4 fail, `tval` holds the
first of A's base, A's row pitch, B's base and B's row pitch. -/
def mopaChecks (t : BitVec 4) (rep : Nat) (A B : MopaOperand) : M Unit := do
  let s ← get
  let h := s.cur
  need h.status.matrix 0x0A
  notLatches (A.regs rep ++ B.regs rep)
  need (decide (t.toNat + rep < h.bound)) 0x02
  need ((upTo (rep + 1)).all fun k =>
    let ta := h.operandTag A k
    let tb := h.operandTag B k
    tagsMeet ta tb && (!A.mx || (ta.isScaled && tb.isScaled))) 0x02
  need (h.scalesOk A rep && h.scalesOk B rep) 0x02
  A.aligned
  B.aligned
  match ((A.offsets rep ++ B.offsets rep).filter fun e => decide ((s.allocation h).2 < e + 4)).min? with
  | some e => trap 0x06 (BitVec.ofNat 64 e)
  | none => pure ()
  settled (A.regs rep ++ B.regs rep)

/-- The hart has read the window rows of an operand at a step (R203, R190). -/
def MopaOperand.settles (o : MopaOperand) (s : State) (k : Nat) (h : Hart) : Hart :=
  match o.src with
  | .inl _ => h
  | .inr d => if h.early.isEmpty then h else
    (upTo 64).foldl (fun g i => g.settle (tileAddr s.pkg h.core ((s.allocation h).1 + d.row (o.at_ k) i)) 4) h

/-- The other harts may know of what the window rows of an operand at a step held (R197). -/
def State.seenRows (s : State) (o : MopaOperand) (k : Nat) : State :=
  match o.src with
  | .inl _ => s
  | .inr d => if s.rest.all (·.early.isEmpty) then s else
    (upTo 64).foldl (fun t i => t.seenByRest (tileAddr s.pkg s.cur.core ((s.allocation s.cur).1 + d.row (o.at_ k) i)) 4) s

/-- Is a mask bit of a MOPA, or a word of its tile that the mask enables, in error (R148, R389)? -/
def Hart.repetitionBad (h : Hart) (d : BitVec 4) (m : BitVec 3) : Bool :=
  let mask := h.getM m
  (m != 0 && h.mbad.any fun p => p.1 == m.toNat && decide (p.2 < 128)) ||
  h.tbad.any fun p => p.1 == d.toNat && mask.getLsbD (p.2 / 64) && mask.getLsbD (64 + p.2 % 64)

/-- One repetition of a MOPA (R148, R152). The tile of step `k` takes its results and the flags are raised; after the last
repetition the instruction completes, else it goes on from `vstart`. DESIGN CHOICE (notes/assumptions/21.md): where several
things are in error, `tval` is that of the mask or tile, else of A, else of B. -/
def mopaStep (t : BitVec 4) (rep k : Nat) (m : BitVec 3) (A B : MopaOperand) (cap : Captured) : M Unit := do
  let s ← get
  let h := s.cur
  let here : Progress := { vstart := BitVec.ofNat 12 k, addr := some h.pc, cap := cap }
  if s.issued.contains h.core then stall
  let c := s.classify
  if c = .held then modify fun s => s.countRep c
  else
    let d := t + BitVec.ofNat 4 k
    let (as, badA) := s.operandRows h A k
    let (bs, badB) := s.operandRows h B k
    match (if h.repetitionBad d m then some 0 else none).or (badA.or badB) with
    | some tval =>
      modCur fun h => { h with progress := here }
      trap 0x0D tval k
    | none => pure ()
    let ta := h.operandTag A k
    let tile := h.getT d
    let rs := repetition tile (h.getM m) ta (h.operandTag B k) as bs (h.scaleOf A k) (h.scaleOf B k)
    modCur fun h => (B.settles s k (A.settles s k h)).putT d (rs.map fun r => (r.1, r.2.val)) (if ta.isInt then .i32 else .f32)
    modify fun s => (s.raise (orFlags (rs.map fun r => r.2.fl))).countRep c
    modify fun s => ((s.seenRows A k).seenRows B k).countCur 0x04 1
    if k < rep then modCur fun h => { h with progress := { here with vstart := BitVec.ofNat 12 (k + 1) }, midway := true }
    else
      modCur fun h => { h with progress := {} }
      retireVector

/-- A MOPA of any variant (R147, R148): one repetition each time the hart acts. DESIGN CHOICE (notes/assumptions/21.md): progress of
an instruction at another address traps 0x0A before the checks of R151, as R218 says of vector memory instructions. -/
def mopa (t : BitVec 4) (a b : BitVec 5) (rep : BitVec 4) (src : BitVec 2) (m : BitVec 3) (ra mx : Bool) (s : State) :
    Result :=
  finish (do
    let pair (r : BitVec 5) : List Word := [s.x r, s.x (r + 1)]
    let cap ← captureOf ((if src.getLsbD 0 then pair a else []) ++ (if src.getLsbD 1 then pair b else []))
    let (A, B) := mopaOperands a b src ra mx cap.operands
    mopaChecks t rep.toNat A B
    let p := (← curHart).progress
    mopaStep t rep.toNat (if p.addr.isSome then min p.vstart.toNat rep.toNat else 0) m A B cap) s

/-- `mopa` (R148). -/
def execMopa (t : BitVec 4) (a b : BitVec 5) (r : BitVec 4) (x : BitVec 2) (m : BitVec 3) (s : State) : Result :=
  mopa t a b r x m false false s

/-- `mopa.ra` (R148). -/
def execMopaRa (t : BitVec 4) (a b : BitVec 5) (r : BitVec 4) (x : BitVec 2) (m : BitVec 3) (s : State) : Result :=
  mopa t a b r x m true false s

/-- `mopa.mx` (R148, R149). -/
def execMopaMx (t : BitVec 4) (a b : BitVec 5) (r : BitVec 4) (m : BitVec 3) (s : State) : Result :=
  mopa t a b r 0 m false true s

/-- `mopa.mx.ra` (R148, R149). -/
def execMopaMxRa (t : BitVec 4) (a b : BitVec 5) (r : BitVec 4) (m : BitVec 3) (s : State) : Result :=
  mopa t a b r 0 m true true s

/-! MMOV -/

/-- The checks of MMOV (R153) that come before its tag rules. -/
def mmovChecks (v : BitVec 5) (tagsOk : Bool) : M Unit := do
  let h ← curHart
  need h.status.matrix 0x0A
  notLatches [v]
  need tagsOk 0x02

/-- Does an element of a tile hold an uncorrectable error (R389)? -/
def Hart.tileBad (h : Hart) (t : BitVec 4) (i : Nat) : Bool := h.tbad.contains (t.toNat, i)

/-- The element of a tile that position `j` of row or column `k` names. -/
def lineElem (row : Bool) (k j : Nat) : Nat := if row then 64 * k + j else 64 * j + k

/-- A tile's row or column into a register (R153), through a conversion. -/
def mread (row : Bool) (t : BitVec 4) (v b : BitVec 5) (m : BitVec 3) (res : Tag) (convert : Nat → FRes) : M Unit := do
  let s ← get
  let h := s.cur
  let tile := h.getT t
  let k := (s.x b).toNat
  let active := activeAt (res == .e2m1) 64 (h.getM m)
  settled [v]
  soundBelow 64 fun h j => h.bitBad m (if res == .e2m1 then j / 2 else j) ||
    (decide (k < 64) && active j && h.tileBad t (lineElem row k j))
  writeVector v res (perElement 64 active fun j =>
    if 64 ≤ k then ⟨0, 0⟩ else convert (if row then tile.at_ k j else tile.at_ j k)) 0

/-- `mrow` (R153). -/
def execMrow (t : BitVec 4) (a b : BitVec 5) (m : BitVec 3) (s : State) : Result :=
  finish (do
    mmovChecks a ((s.cur.getT t).tag != .dead)
    mread true t a b m (s.cur.getT t).tag.tag fun x => ⟨x, 0⟩) s

/-- `mcol` (R153). -/
def execMcol (t : BitVec 4) (a b : BitVec 5) (m : BitVec 3) (s : State) : Result :=
  finish (do
    mmovChecks a ((s.cur.getT t).tag != .dead)
    mread false t a b m (s.cur.getT t).tag.tag fun x => ⟨x, 0⟩) s

/-- `mcvt` (R153): the conversion of R121 with the rounding mode of `fmode`. -/
def execMcvt (t : BitVec 4) (a b : BitVec 5) (k : BitVec 4) (m : BitVec 3) (s : State) : Result :=
  finish (do
    let tile := (s.cur.getT t).tag
    let res := Tag.ofCode k.toNat
    mmovChecks a (tile != .dead && decide (64 * res.width ≤ 2048 * s.cur.vgrant))
    mread true t a b m res (convertElem tile.tag res (vcvtMode s.cur.fmode 0 false))) s

/-- A register into a tile's row or column (R153). -/
def mwrite (row : Bool) (t : BitVec 4) (v b : BitVec 5) (m : BitVec 3) (s : State) : Result :=
  finish (do
    let h := s.cur
    let src := h.getV v
    let tile := h.getT t
    mmovChecks v (tile.tag != .dead && (src.tag == .f32 || src.tag == .i32 || src.tag == .n32))
    settled [v]
    let k := (s.x b).toNat
    let us := (upTo 64).filter (h.getM m).getLsbD
    if k < 64 then
      soundBelow 64 fun h j => h.bitBad m j || ((h.getM m).getLsbD j && h.elemBad 32 v j)
      modCur (Hart.putT t (us.map fun j => (lineElem row k j, src.elem j)) (if src.tag = .f32 then .f32 else .i32))
    retireVector) s

/-- `mputr` (R153). -/
def execMputr (t : BitVec 4) (a b : BitVec 5) (m : BitVec 3) (s : State) : Result := mwrite true t a b m s

/-- `mputc` (R153). -/
def execMputc (t : BitVec 4) (a b : BitVec 5) (m : BitVec 3) (s : State) : Result := mwrite false t a b m s

/-! MLS -/

/-- The address of an 8-byte unit (R154, R155). -/
def tileUnit (ops : List Word) (u : Nat) : Word :=
  ops.getD 0 0 + BitVec.ofNat 64 (u / 32) * ops.getD 1 0 + BitVec.ofNat 64 (8 * (u % 32))

/-- MLS (R154, R155): the frame of R218 to R223 over 2,048 units. DESIGN CHOICE (notes/assumptions/21.md): where base and pitch
are both misaligned `tval` holds the base, and the footprint of `mld` in R173 is the 16 KiB of a tile. -/
def tileAccess (t : BitVec 4) (a b : BitVec 5) (m : BitVec 3) (store : Bool) : M Unit := do
  let s ← get
  need s.cur.status.matrix 0x0A
  let cap ← captureOf [s.x a, s.x b]
  let tile := s.cur.getT t
  need (tile.tag != .dead) 0x02
  let x := cap.operands.getD 0 0
  let y := cap.operands.getD 1 0
  need (x.toNat % 8 == 0) 0x03 x
  need (y.toNat % 8 == 0) 0x03 y
  let h ← curHart
  let mask := h.getM m
  let active : Nat → Bool := fun u => mask.getLsbD (u / 32)
  let lost : Nat → Bool := fun u => h.bitBad m (u / 32)
  let bad : Nat → Bool := fun u => !h.clean && (lost u ||
    (store && active u && (h.tileBad t (2 * u) || h.tileBad t (2 * u + 1))))
  let left := (upTo 2048).filter fun u => !h.progress.vcomp.getLsbD u
  let (ps, _) ← probe (h.unitAgent cap.cw) (if store then .write else .read) false false 1 [] (tileUnit cap.operands) true
    (left.filter fun u => active u && !lost u)
  let stops := left.filter bad
  let ordered ← relaxedOrder 8 bankClass (!stops.isEmpty) (withBad 2048 (stops.filter lost) ps)
  let budget := (← get).cut
  modify fun s => { s with cut := none }
  let word (u : Nat) : Nat := bits tile.img.toNat (64 * u) 64
  let alloc := cap.vbyp != 0 && decide (64 * 256 ≤ cap.vbyp.toNat)
  let (rs, ended) ← performUnits (fun u p => do
    if stops.contains u then trap 0x0D 0 (stops.headD 0)
    else if store then
      storeUnit 0 0 8 (word u) (tileUnit cap.operands u) u p
      return 0
    else
      let bs ← readPhys p 8 .plain alloc (tileUnit cap.operands u) u
      return leNat (← earlyRead cap.rad.toNat p.pa bs)) budget ordered
  if !store then
    modCur (Hart.putT t (rs.flatMap fun r => [(2 * r.1, r.2 % 2 ^ 32), (2 * r.1 + 1, r.2 / 2 ^ 32)]) tile.tag)
  let progress := progressOf h.pc cap 2048 1 active h.progress.vcomp (rs.map Prod.fst)
  match ended with
  | .finished =>
    modCur fun h => { h.ageEarly with progress := {} }
    retireVector
  | .cut => modCur fun h => { h with progress := progress, midway := true }
  | .trapped e =>
    modCur fun h => { h with progress := progress }
    throw e

/-- `mld` (R154). -/
def execMld (t : BitVec 4) (a b : BitVec 5) (m : BitVec 3) (s : State) : Result := finish (tileAccess t a b m false) s

/-- `mst` (R154). -/
def execMst (t : BitVec 4) (a b : BitVec 5) (m : BitVec 3) (s : State) : Result := finish (tileAccess t a b m true) s

end Sys2Proof.Machine
end

