-- ==== Sys2Proof/Machine/Copy.lean ====
section
/-! DEFINITION. The copy engine, tags and streams (14_copy_queues.md). -/

namespace Sys2Proof.Machine

/-! Pushing a command -/

/-- Commands outstanding on a core, oldest first (R254). -/
def State.outstanding (s : State) (core : Nat) : List Cmd := s.cmds.filter fun c => c.core == core

/-- Is the core's FIFO full, its four channels taken (R254)? -/
def State.fifoFull (s : State) (core : Nat) : Bool := decide (68 ≤ (s.outstanding core).length)

/-- Tag state of a hart. -/
def Hart.tag (h : Hart) (g : Nat) : TagState := (h.tags.toList[g]?).getD {}

/-- Change a tag of a hart. -/
def Hart.setTag (h : Hart) (g : Nat) (f : TagState → TagState) : Hart :=
  { h with tags := h.tags.set (g % 64) (f h.tags[g % 64]) }

/-- What the instruction captured when it first issued, if it is restarted whole (R201), else the present values. -/
def restarted (operands : List Word) : M Captured := do return (← get).issue operands

/-- Tag and `tagmap` of a hart after a push (R261). -/
def Hart.tagPushed (h : Hart) (tag : Nat) (scope : BitVec 3) : Hart :=
  let h := h.setTag tag fun t => { t with busy := true, errpend := false, scope := scope }
  { h with tagmap := h.tagmap &&& ~~~(1#64 <<< tag) }

/-- The push of R261: the waits, the checks of the command between them unless they are made already, the release, then
`atPush` with the seal or the marks, and the tag. `again` makes the checks afresh after every wait; `vs` and `xcore` are
those of a `cpyc`. DESIGN CHOICE (notes/assumptions/24.md): a `cpyc` whose target has left its core while it waited fails them. -/
def pushCommand (tag : Nat) (scope : BitVec 3) (ord : Bool) (kind : CmdKind) (cap : Captured) (vs : BitVec 5)
    (xcore : Word) (checks : M Unit) (ready : M Bool) (atPush : M Unit) (again checked : Bool) : M Unit := do
  let h ← curHart
  let sleep (done : Bool) : M Unit := modCur fun h =>
    { h.hold cap with wait := .push tag scope ord kind done vs xcore }
  if (h.tag tag).busy then sleep checked
  else
    if !checked then checks
    let s ← get
    if s.fifoFull h.core || !(← ready) then sleep (!again)
    else
      releaseM scope.toNat
      atPush
      modCur fun h => h.tagPushed tag scope
      modify fun s => { s with
        cmds := s.cmds ++ [{ uid := s.nextUid, core := h.core, hart := h.uid, tag := tag, scope := scope, ord := ord,
                             sup := h.status.sup, cw := cap.cw, kind := kind }]
        nextUid := s.nextUid + 1 }
      retireM

/-! Checks of the commands (R262 to R265) -/

/-- The lowest address of a range at which an access of a kind fails, with its cause (R262). DESIGN CHOICE
(notes/assumptions/20.md): pages are translated in ascending order, none above the first that fails. -/
def rangeFault (a : Agent) (k : Kind) (va len : Nat) : M (Option (Nat × BitVec 8)) := do
  if len = 0 then return none
  go (pageStarts va len)
where
  /-- The first failing page; in the window the end of each piece counts as well (R169). -/
  go : List Nat → M (Option (Nat × BitVec 8))
    | [] => return none
    | v :: vs => do
      match ← attempt (xlateM a k (BitVec.ofNat 64 v)) with
      | .error t => return some (v, t.cause)
      | .ok _ =>
        let last := min (va + len - 1) (v / 65536 * 65536 + 65535)
        if inWindow (BitVec.ofNat 64 v) then
          match ← attempt (xlateM a k (BitVec.ofNat 64 last)) with
          | .error t => do
            let s ← get
            return some (tileWindow + (s.allocation s.cur).2, t.cause)
          | .ok _ => go vs
        else go vs

/-- Trap at the lowest of the faulting addresses (R262). DESIGN CHOICE (notes/assumptions/24.md): where source and destination fail
at the same address, the cause is the source's. -/
def lowestFault : List (Option (Nat × BitVec 8)) → M Unit
  | fs =>
    match fs.filterMap id with
    | [] => pure ()
    | f :: rest =>
      let low := rest.foldl (fun (x : Nat × BitVec 8) y => if y.1 < x.1 then y else x) f
      trap low.2 (BitVec.ofNat 64 low.1)

/-- The kind of an engine write under a captured `cw` (R335). -/
def engineKind (cw : BitVec 5) : Kind := if cw.getLsbD 4 then .window else .write

/-- The hart that `xcore` names, if it can be the target (R264). DESIGN CHOICE (notes/assumptions/24.md): another hart of the
issuing hart's own core can be. -/
def State.copyTarget (s : State) (x : Word) (vd : BitVec 5) : Option Hart :=
  if 2048 ≤ x.toNat then none
  else s.harts.find? fun g =>
    g.place == .resident (x.toNat % 256) (x.toNat / 256) && g.launch == s.cur.launch && g.uid != s.cur.uid &&
      !(g.status.matrix && decide (24 ≤ vd.toNat))

/-- Is the launch's allocation on a core kept outside the buffer, for harts parked from there (R168)? -/
def State.stowedOn (s : State) (l : Launch) (core : Nat) : Option Stowed :=
  l.stowed.find? fun y => y.core == core && y.groups.any (s.keepsBuffer l.uid)

/-- Does the launch hold an allocation on a core (R168)? -/
def State.holdsBuffer (s : State) (launch core : Nat) : Bool :=
  (s.launch? launch).any fun l => (l.allocs.any fun c => c.core == core) || (s.stowedOn l core).isSome

/-- The checks of a command, made by the executing hart (R262 to R265, R90). DESIGN CHOICE (notes/assumptions/24.md): `tval` of a
range outside the allocation is the offset where that exceeds its size, else the length. -/
def commandChecks (cap : Captured) (vs : BitVec 5) (xcore : Word) : CmdKind → M Unit
  | .copy dst src len => do
    let h ← curHart
    need (decide (len ≤ 0x1000000)) 0x03 (BitVec.ofNat 64 len)
    let a := h.agent cap.cw
    lowestFault [← rangeFault a .read src.toNat len, ← rangeFault a (engineKind cap.cw) dst.toNat len]
  | .fill vd n src t vl => do
    let h ← curHart
    let regs := (upTo n).map fun j => BitVec.ofNat 5 (vd + j)
    notLatches regs
    need h.granted 0x09
    need (t != .dead) 0x02
    capacityUnlessMatrix [t]
    settled regs
    lowestFault [← rangeFault (h.agent cap.cw) .read src.toNat (n * fillBytes t vl)]
  | .register _ vd _ t _ _ => do
    let s ← get
    notLatches [vs, BitVec.ofNat 5 vd]
    need s.cur.granted 0x09
    need (t != .dead) 0x02
    capacityUnlessMatrix [t]
    settled [vs]
    need (s.copyTarget xcore (BitVec.ofNat 5 vd)).isSome 0x06 xcore
  | .tileBuffer core off len => do
    let s ← get
    let size := (s.allocation s.cur).2
    need (decide (xcore.toNat < 256) && s.holdsBuffer s.cur.launch core && core != s.cur.core) 0x06 xcore
    need (decide (off ≤ size)) 0x06 (BitVec.ofNat 64 off)
    need (decide (off + len ≤ size)) 0x06 (BitVec.ofNat 64 len)
  | .commit _ _ => pure ()

/-- Mark the registers that a command is to write (R263, R264): its tag, and zero until the engine writes them. -/
def markRegisters : CmdKind → M Unit
  | .fill vd n _ t _ => modCur fun h => (upTo n).foldl (fun h j => h.setV (BitVec.ofNat 5 (vd + j)) { tag := t }) h
  | .register target vd _ t _ _ => modify fun s => s.onHart target fun h => h.setV (BitVec.ofNat 5 vd) { tag := t }
  | _ => pure ()

/-- Can the target take a mark (R264): it is at an instruction boundary, neither asleep in an instruction nor inside one, and what
its instructions before the mark have the engine write to the register is written? -/
def markable : CmdKind → M Bool
  | .register target vd _ _ _ _ => do
    let s ← get
    return ((s.hart? target).all fun g => g.wait == .awake && !g.midway) && (s.pendingGroups target).all fun p => p.1 != vd
  | _ => return true

/-- The scope of a CPY's two bits (R260). -/
def cpyScope (k : BitVec 2) : BitVec 3 :=
  match k.toNat with
  | 0 => 1
  | 1 => 2
  | 2 => 4
  | _ => 5

/-- A CPY from its captured operands (R260, R261). -/
def cpyPush (tag : Nat) (scope : BitVec 3) (ord : Bool) (cap : Captured) (vs : BitVec 5) (xcore : Word) (kind : CmdKind)
    (checked : Bool) : M Unit :=
  let again := match kind with
    | .register _ _ _ _ _ _ => true
    | _ => false
  pushCommand tag scope ord kind cap vs xcore (commandChecks cap vs xcore kind) (markable kind) (markRegisters kind) again
    checked

/-- `cpy` (R262). -/
def execCpy (d a b : BitVec 5) (g : BitVec 6) (o : BitVec 1) (k : BitVec 2) (s : State) : Result :=
  finish (do
    let cap ← restarted [s.x d, s.x a, s.x b]
    let x (i : Nat) : Word := cap.operands.getD i 0
    cpyPush g.toNat (cpyScope k) (o = 1) cap 0 0 (.copy (x 0) (x 1) (x 2).toNat) false) s

/-- `cpyv` (R263); the field holds n − 1. -/
def execCpyv (d a : BitVec 5) (n : BitVec 3) (g : BitVec 6) (o : BitVec 1) (k : BitVec 2) (s : State) : Result :=
  finish (do
    let cap ← restarted [s.x a]
    let h ← curHart
    cpyPush g.toNat (cpyScope k) (o = 1) cap 0 0
      (.fill d.toNat (n.toNat + 1) (cap.operands.getD 0 0) h.ltag h.vlen) false) s

/-- The command of a `cpyc` (R264): the target is named when it is pushed. -/
def registerKind (s : State) (xcore : Word) (d b : BitVec 5) : CmdKind :=
  let v := s.cur.getV b
  .register (((s.copyTarget xcore d).map (·.uid)).getD 0) d.toNat v.img v.tag s.cur.vlen
    ((s.cur.vbad.filter fun p => p.1 == b.toNat).map (·.2))

/-- `cpyc` (R264). -/
def execCpyc (d a b : BitVec 5) (g : BitVec 6) (o : BitVec 1) (k : BitVec 2) (s : State) : Result :=
  finish (do
    let cap ← restarted [s.x a]
    let xcore := cap.operands.getD 0 0
    cpyPush g.toNat (cpyScope k) (o = 1) cap b xcore (registerKind s xcore d b) false) s

/-- `cpyc.tb` (R265). -/
def execCpycTb (d a b : BitVec 5) (g : BitVec 6) (o : BitVec 1) (k : BitVec 2) (s : State) : Result :=
  finish (do
    let cap ← restarted [s.x d, s.x a, s.x b]
    let x (i : Nat) : Word := cap.operands.getD i 0
    cpyPush g.toNat (cpyScope k) (o = 1) cap 0 (x 1) (.tileBuffer (x 1).toNat (x 0).toNat (x 2).toNat) false) s

/-! What the engine does -/

/-- For whom a command's accesses are translated (R255). -/
def State.cmdAgent (s : State) (c : Cmd) : Option Agent :=
  (s.hart? c.hart).map fun h => { core := c.core, part := h.part, launch := h.launch, sup := c.sup, cw := c.cw }

/-- Will an access of a hart's engine not be delivered in time (R400)? -/
def State.undelivers (s : State) (hart pa n : Nat) : Bool := (s.hart? hart).any (Hart.undelivers pa n)

/-- An engine read for a hart of bytes in one sector: dirty bytes of the core's L1 and the homes (R190, R199); of an uncached page
the home alone, as `State.passL1` has it (R306). It also gives the physical address. -/
def engineReadAt (hart : Nat) (a : Agent) (k : Kind) (va : Word) (n : Nat) : M (List Byte × Nat) := do
  let p ← xlateM a k va
  modify fun s => if p.attr = .uncached then s.writeBackDrop a.core p.pa else s
  let s ← get
  let mode := p.attr.mode .fresh
  if s.badByte a.core mode p.pa n || s.undelivers hart p.pa n then trap 0x0D va
  set (((s.countHome p.pa n).countSent a.core p.pa n false).seenByAll p.pa n)
  return (s.readBytes a.core mode p.pa n, p.pa)

/-- The bytes of an engine read. -/
def engineRead (hart : Nat) (a : Agent) (k : Kind) (va : Word) (n : Nat) : M (List Byte) := do
  return (← engineReadAt hart a k va n).1

/-- An engine write for a hart at its home, of bytes in one sector (R255); an error in the issuing core's copy of it stops the
write (R171), but for an uncached page (R306), and so does an acknowledgement that does not come (R400). -/
def engineWrite (hart : Nat) (a : Agent) (k : Kind) (va : Word) (bs : List Byte) : M Unit := do
  let p ← xlateM a k va
  let s ← get
  if (p.attr != .uncached && (s.unsendable (s.cacheOf a.core)).any fun x => x.addr == sectorOf p.pa) ||
      s.undelivers hart p.pa bs.length then
    trap 0x0D va
  modify fun s => (s.storeHome a.core p.attr p.pa bs).countCore a.core a.part 0x0C bs.length

/-- Aligned 8-byte pieces of a range: offset and length (R187). -/
def piecesOf (va len : Nat) : List (Nat × Nat) :=
  if len = 0 then [] else
    (upTo ((va + len - 1) / 8 - va / 8 + 1)).map fun i =>
      let lo := if i = 0 then va else (va / 8 + i) * 8
      (lo - va, min (va + len) ((va / 8 + i + 1) * 8) - lo)

/-- Element groups of so many registers of `b` bytes each, as offset and length (R104). -/
def elementGroups (n b : Nat) : List (Nat × Nat) :=
  (upTo (n * groupsIn b)).map fun i =>
    let g := 64 * (i % groupsIn b)
    (i / groupsIn b * b + g, min 64 (b - g))

/-- Where the source of a command begins, as far as its pieces go, and its bytes. -/
def CmdKind.source : CmdKind → Nat × Nat
  | .copy _ src len => (src.toNat, len)
  | .fill _ n src t vl => (src.toNat, n * fillBytes t vl)
  | .tileBuffer _ off len => (off, len)
  | .register _ _ _ _ _ _ | .commit _ _ => (0, 0)

/-- The single-copy atomic pieces that a command reads: offset and length (R187, R255). -/
def CmdKind.reads (k : CmdKind) : List (Nat × Nat) := piecesOf k.source.1 k.source.2

/-- The pieces or element groups that a command writes: offset and length (R255, R258). -/
def CmdKind.writes : CmdKind → List (Nat × Nat)
  | .copy dst _ len => piecesOf dst.toNat len
  | .fill _ n _ t vl => elementGroups n (fillBytes t vl)
  | .register _ _ _ t vl _ => elementGroups 1 (fillBytes t vl)
  | .tileBuffer _ off len => piecesOf off len
  | .commit _ _ => []

/-- Address of byte `off` of an agent's allocation, on the core it stands for (R168). -/
def State.bufferAt (s : State) (a : Agent) (off : Nat) : Option Nat := do
  let l ← s.launch? a.launch
  let x ← l.allocs.find? fun x => x.core == a.core
  return tileAddr s.pkg a.core (1024 * x.base + off)

/-- Read a piece of a command's source (R255); the error that it meets names the piece's address (R259, R268). -/
def readPiece (hart : Nat) (a : Agent) (k : CmdKind) (p : Nat × Nat) : M (List Byte) := do
  match k with
  | .copy _ src _ | .fill _ _ src _ _ => engineRead hart a .read (src + BitVec.ofNat 64 p.1) p.2
  | .tileBuffer _ off _ =>
    let s ← get
    match s.bufferAt a (off + p.1) with
    | some pa =>
      if s.badByte a.core .home pa p.2 then trap 0x0D (BitVec.ofNat 64 (tileWindow + off + p.1))
      set (s.seenByAll pa p.2)
      return s.homeRead pa p.2
    | none => return fill p.2 0
  | .register _ _ _ _ _ _ | .commit _ _ => return []

/-- Note what the engine has done for a command. -/
def State.onCmd (s : State) (uid : Nat) (f : Cmd → Cmd) : State :=
  { s with cmds := updateAt (fun c => c.uid == uid) f s.cmds }

/-- Read a piece unless that is done (R199). -/
def loadPiece (c : Cmd) (a : Agent) (n : Nat) : M Unit := do
  let s ← get
  let loaded := ((s.cmds.find? fun x => x.uid == c.uid).map (·.loaded)).getD []
  match c.kind.reads[n]? with
  | some p =>
    if !loaded.any fun l => l.1 == n then
      let bs ← readPiece c.hart a c.kind p
      modify fun s => s.onCmd c.uid fun x => { x with loaded := (n, bs) :: x.loaded }
  | none => pure ()

/-- The source bytes of a range at an offset, every piece of them read at one moment (R187, R199). -/
def sourceBytes (c : Cmd) (a : Agent) (off n : Nat) : M (List Byte) := do
  let first := (c.kind.source.1 + off) / 8 - c.kind.source.1 / 8
  let pieces := (upTo (if n = 0 then 0 else (c.kind.source.1 + off + n - 1) / 8 - (c.kind.source.1 + off) / 8 + 1)).map (first + ·)
  pieces.forM (loadPiece c a)
  let s ← get
  let loaded := ((s.cmds.find? fun x => x.uid == c.uid).map (·.loaded)).getD []
  let bytes := pieces.flatMap fun k => ((loaded.find? fun l => l.1 == k).map Prod.snd).getD []
  return (bytes.drop (off - ((c.kind.reads[first]?).map Prod.fst).getD 0)).take n

/-- An image's low bits. -/
def lowBits (n : Nat) (v : Nat) : BitVec 16384 := BitVec.ofNat 16384 (v % 2 ^ n)

/-- Write bytes of a register that the engine fills, of `bits` bits in all (R263, R264); an error stays in other bytes (R389). -/
def Hart.fillGroup (h : Hart) (r : BitVec 5) (bits off : Nat) (bs : List Byte) : Hart :=
  let v := h.getV r
  { h.setV r { v with img := lowBits bits (insertBits v.img.toNat (8 * off) (8 * bs.length) (leNat bs)) } with
    vbad := h.vbad.filter fun p => p.1 != r.toNat || decide (p.2 < off) || decide (off + bs.length ≤ p.2) }

/-- Write bytes of the launch's allocation on a core (R265), in the buffer or kept outside it. DESIGN CHOICE
(notes/assumptions/24.md): where no hart of the launch is placed on the core or parked from it any more, nothing is written. -/
def State.writeBuffer (s : State) (launch core off : Nat) (bs : List Byte) : State :=
  match s.launch? launch with
  | none => s
  | some l =>
    match l.allocs.find? fun x => x.core == core with
    | some x => s.homeWrite (tileAddr s.pkg core (1024 * x.base + off)) bs
    | none =>
      match s.stowedOn l core with
      | some y => s.onLaunch launch fun m => { m with
          stowed := updateAt (· == y) (fun (z : Stowed) => { z with
            cells := cellsWrite false z.cells off bs
            bad := z.bad.filter fun b => decide (b < off) || decide (off + bs.length ≤ b) }) m.stowed }
      | none => s

/-- Write a piece or element group of a command (R262 to R265). -/
def writeUnit (c : Cmd) (a : Agent) (n : Nat) : M Unit := do
  match c.kind.writes[n]? with
  | none => pure ()
  | some p =>
    match c.kind with
    | .copy dst _ _ => engineWrite c.hart a (engineKind c.cw) (dst + BitVec.ofNat 64 p.1) (← sourceBytes c a p.1 p.2)
    | .fill vd _ _ t vl =>
      let bs ← sourceBytes c a p.1 p.2
      modify fun s => (s.onHart c.hart fun h =>
        h.fillGroup (BitVec.ofNat 5 (vd + n / groupsIn (fillBytes t vl))) (t.width * vl) (p.1 % fillBytes t vl) bs).countCore
          a.core a.part 0x0C bs.length
    | .register target vd image t vl bad =>
      if bad.any fun b => decide (p.1 ≤ b) && decide (b < p.1 + p.2) then trap 0x0D
      modify fun s => (s.onHart target fun h =>
        h.fillGroup (BitVec.ofNat 5 vd) (min (t.width * vl) (2048 * h.vgrant)) p.1
          (leBytes p.2 (image.toNat >>> (8 * p.1)))).countCore a.core a.part 0x0C
            (min p.2 (256 * ((s.hart? target).map (·.vgrant)).getD 0 - p.1))
    | .tileBuffer core off _ =>
      let bs ← sourceBytes c a p.1 p.2
      modify fun s => (s.writeBuffer a.launch core (off + p.1) bs).countCore a.core a.part 0x0C bs.length
    | .commit _ _ => pure ()
    modify fun s => s.onCmd c.uid fun x => { x with pieces := n :: x.pieces }

/-- Write what is left of a command. -/
def writeRest (c : Cmd) (a : Agent) : List Nat → M Unit
  | [] => pure ()
  | n :: ns => do
    if !c.pieces.contains n then writeUnit c a n
    writeRest c a ns

/-- Perform a command's remaining accesses (R262 to R265). DESIGN CHOICE (notes/assumptions/24.md): in ascending order, so that the
lowest failing piece left ends the command, and the pieces below it are written. -/
def performCommand (c : Cmd) (a : Agent) : M Unit := writeRest c a (upTo c.kind.writes.length)

/-- Tag, stamp and `tagmap` of a hart after a completion (R258, R259). -/
def Hart.tagCompleted (h : Hart) (tag : Nat) (now : BitVec 63) (cycle : Nat) (err : Option Trap) : Hart :=
  let h := h.setTag tag fun t =>
    match err with
    | some e =>
      { t with busy := false, err := true, errpend := true, time := now, cause := e.cause, addr := e.tval, doneAt := some cycle }
    | none => { t with busy := false, err := false, time := now, doneAt := some cycle }
  { h with tagmap := h.tagmap ||| 1#64 <<< tag }

/-- A command completes, with the error it met, if any (R258, R259); a hart that waited only for it leaves its core
(R256). -/
def State.completeCommand (s : State) (c : Cmd) (err : Option Trap) : State :=
  let s := { s with cmds := s.cmds.filter fun x => x.uid != c.uid }
  let s := s.onHart c.hart fun h => h.tagCompleted c.tag (s.shore.setWidth 63) s.cycle err
  let others := match c.kind with
    | .register target _ _ _ _ _ => [c.hart, target]
    | _ => [c.hart]
  others.foldl (fun s u =>
    match s.focus u with
    | some t =>
      match t.cur.wait with
      | .leaving resume record => if t.pendingCmds u then s else t.leaveCore resume record
      | _ => s
    | none => s) s

/-- May a command complete: it holds one of the four channels, and under `.ord` no older command of its hart is left
(R254, R200)? -/
def State.mayComplete (s : State) (c : Cmd) : Bool :=
  (((s.outstanding c.core).take 4).any fun x => x.uid == c.uid) &&
  (!c.ord || ((s.cmds.takeWhile fun x => x.uid != c.uid).all fun x => x.hart != c.hart))

/-- An engine command completes (R258): what is left of it is performed. -/
def execCopyComplete (cmd : Nat) (s : State) : Result :=
  match s.cmds.find? fun c => c.uid == cmd with
  | none => .fault .noSuchAgent
  | some c =>
    let isCommit := match c.kind with
      | .commit _ _ => true
      | _ => false
    if isCommit || !s.mayComplete c then .next s
    else match s.cmdAgent c with
      | none => .next (s.completeCommand c none)
      | some a =>
        match performCommand c a s with
        | .ok _ s' => .next (s'.completeCommand c none)
        | .error t s' => .next (s'.completeCommand c (some t))

/-- The engine reads or writes a piece of a command ahead of its completion (R199, R200); an error waits for completion. -/
def State.copyAhead (s : State) (cmd n : Nat) (write : Bool) : State :=
  match s.cmds.find? fun c => c.uid == cmd with
  | none => s
  | some c =>
    let may := if write then s.mayComplete c && !c.pieces.contains n
      else ((s.outstanding c.core).take 4).any fun x => x.uid == c.uid
    match s.cmdAgent c with
    | none => s
    | some a =>
      if !may then s
      else match (if write then writeUnit c a n else loadPiece c a n) s with
        | .ok _ s' => s'
        | .error _ _ => s

/-! TAGW -/

/-- The tags of a mask, ascending. -/
def tagsOf (m : Word) : List Nat := (upTo 64).filter m.getLsbD

/-- `report(S)` (R268): an acquire for each tag, or the trap of the lowest tag with an error not yet reported. -/
def report (m : Word) : M Unit := do
  let h ← curHart
  match (tagsOf m).find? fun g => (h.tag g).errpend with
  | some g =>
    modCur fun h => h.setTag g fun t => { t with errpend := false }
    trap (h.tag g).cause (h.tag g).addr g
  | none => for g in tagsOf m do acquireM (h.tag g).scope.toNat

/-- Is no tag of a mask busy (R268)? -/
def Hart.idle (h : Hart) (m : Word) : Bool := (tagsOf m).all fun g => !(h.tag g).busy

/-- `twany` with its mask read (R268). -/
def waitAny (d : BitVec 5) (m : Word) : M Unit := do
  let h ← curHart
  if h.tagmap &&& m ≠ 0 || h.idle m then
    report (h.tagmap &&& m)
    modCur fun c => c.setX d (h.tagmap &&& m)
    retireM
  else modCur fun h => { h with wait := .tagAny d m }

/-- `twall` with its mask read (R268). -/
def waitAll (m : Word) : M Unit := do
  let h ← curHart
  if h.idle m then
    report (h.tagmap &&& m)
    retireM
  else modCur fun h => { h with wait := .tagAll m }

/-- `twany` (R268). -/
def execTwany (d a : BitVec 5) (s : State) : Result := finish (waitAny d (s.x a)) s

/-- `twall` (R268). -/
def execTwall (a : BitVec 5) (s : State) : Result := finish (waitAll (s.x a)) s

/-- A sleeping `twany` or `twall` looks at its tags again (R268). -/
def execTagWaitWake (hart : Nat) (s : State) : Result :=
  s.eventOn hart fun s =>
    match s.cur.wait with
    | .tagAny d m => finish (waitAny d m) s
    | .tagAll m => finish (waitAll m) s
    | _ => .next s

/-- `tfind` (R268). -/
def execTfind (d a : BitVec 5) (s : State) : Result :=
  finish (do
    match (tagsOf (s.cur.tagmap &&& s.x a)).head? with
    | none => modCur fun h => h.setX d 0xFFFFFFFFFFFFFFFF
    | some g =>
      report (1#64 <<< g)
      modCur fun h => h.setX d (BitVec.ofNat 64 g)
    retireM) s

/-- The tags whose last completion was in a cycle, as bits of `tagmap`. -/
def Hart.completedIn (h : Hart) (cycle : Nat) : Word :=
  BitVec.ofNat 64 (h.tags.toList.foldr (fun t n => flag (t.doneAt == some cycle) + 2 * n) 0)

/-- `tclr` (R268): the bit of a tag that completes in the same cycle stays set (R258). -/
def execTclr (a : BitVec 5) (s : State) : Result :=
  .next (s.onCur fun h => { h with tagmap := h.tagmap &&& ~~~(s.x a &&& ~~~(h.completedIn s.cycle)) }).retire

/-- `tstamp` (R268, R257). -/
def execTstamp (d : BitVec 5) (g : BitVec 6) (s : State) : Result :=
  let t := s.cur.tag g.toNat
  .next (s.setX d (BitVec.ofNat 64 (flag t.err * 2 ^ 63 + t.time.toNat))).retire

/-! Streams -/

/-- A stream slot of a hart. -/
def Hart.slot (h : Hart) (n : BitVec 2) : StreamSlot := h.slots[n.toNat]

/-- Change a stream slot. -/
def Hart.setSlot (h : Hart) (n : BitVec 2) (q : StreamSlot) : Hart := { h with slots := h.slots.set n.toNat q }

/-- `sclose` on a slot (R272). -/
def StreamSlot.close (q : StreamSlot) : StreamSlot := { q with cfg := false, avail := 0, landed := [] }

/-- Elements that the strip buffer holds (R269). -/
def StreamSlot.capacity (q : StreamSlot) : Nat := if q.tag.width = 0 then 0 else 8192 * q.sbuf.toNat / q.tag.width

/-- Byte offset of stream element `i` in the launch's allocation (R271). -/
def StreamSlot.offset (q : StreamSlot) (i : Nat) : Nat :=
  q.soff.toNat + (i % q.capacity) * (q.tag.width / 8)

/-- Address of stream element `i` (R269). -/
def StreamSlot.address (q : StreamSlot) (i : Nat) : Word :=
  q.base + BitVec.ofNat 64 (if q.descending then q.length.toNat - 1 - i else i) * q.stride

/-- `scfg` (R273). -/
def execScfg (a : BitVec 5) (k : BitVec 3) (n : BitVec 2) (s : State) : Result :=
  finish (do
    let va := s.x a
    need (va.toNat % 32 == 0) 0x03
    let w0 ← memRead va 8 .plain
    let w1 ← memRead (va + 8) 8 .plain
    let w2 ← memRead (va + 16) 8 .plain
    let w3 ← memRead (va + 24) 8 .plain
    let tag := Tag.ofCode (bits w2 32 8)
    let sbuf := bits w2 48 16
    let soff := bits w3 0 32
    need (decide (1 ≤ bits w2 32 8) && decide (bits w2 32 8 ≤ 14) && bits w2 41 7 == 0 && decide (1 ≤ sbuf) &&
      decide (sbuf ≤ 1536) && soff % 1024 == 0 && bits w3 32 32 == 0) 0x0C va
    need (w0 % (tag.width / 8) == 0 && w1 % (tag.width / 8) == 0) 0x03
    need (decide (soff + 1024 * sbuf ≤ (s.allocation s.cur).2)) 0x06
    releaseM k.toNat
    modCur fun h => h.setSlot n
      { cfg := true, base := BitVec.ofNat 64 w0, stride := BitVec.ofNat 64 w1, length := BitVec.ofNat 32 w2, tag := tag,
        descending := bit w2 40, sbuf := BitVec.ofNat 16 sbuf, soff := BitVec.ofNat 32 soff, scope := k, cw := h.cw,
        sup := h.status.sup }
    retireM) s

/-- `sadv` (R272). -/
def execSadv (n : BitVec 2) (s : State) : Result :=
  let q := s.cur.slot n
  if !q.cfg then .next (s.takeTrap { cause := 0x0C })
  else .next (s.onCur fun h => h.setSlot n
    { q with cursor := q.cursor + q.last, avail := q.avail - q.last, last := 0, landed := q.landed.drop q.last.toNat }).retire

/-- `sclose` (R272). -/
def execSclose (n : BitVec 2) (s : State) : Result :=
  let q := s.cur.slot n
  .next (if q.cfg then s.onCur fun h => h.setSlot n q.close else s).retire

/-- The next fetch of a slot, if one is due (R271). -/
def StreamSlot.due (q : StreamSlot) : Bool :=
  q.cfg && q.fault.isNone && decide (q.cursor.toNat + q.avail.toNat < q.length.toNat) &&
    decide (q.avail.toNat < q.capacity)

/-- A stream fetch lands, or records its fault (R271). -/
def execStreamFetchLand (hart : Nat) (slot : BitVec 2) (s : State) : Result :=
  s.eventOn hart fun s =>
    let h := s.cur
    let q := h.slot slot
    if !h.isResident || !q.due then .next s
    else
      let i := q.cursor.toNat + q.avail.toNat
      let a : Agent := { core := h.core, part := h.part, launch := h.launch, sup := q.sup, cw := q.cw }
      match engineReadAt h.uid a .read (q.address i) (q.tag.width / 8) s with
      | .ok (bs, pa) s' =>
        let s' := (s'.homeWrite (tileAddr s'.pkg h.core ((s'.allocation h).1 + q.offset i)) bs).countCore h.core h.part 0x0C bs.length
        .next (s'.onCur fun h => h.setSlot slot { q with avail := q.avail + 1, landed := q.landed ++ [(leNat bs, pa)] })
      | .error t s' => .next (s'.onCur fun h => h.setSlot slot { q with fault := some (t.cause, q.address i) })

/-- Do `n` bytes at an offset of the allocation lie in the strip buffer of another configured slot of the launch on the core
(R271)? -/
def State.stripShared (s : State) (slot : BitVec 2) (off n : Nat) : Bool :=
  s.harts.any fun g => g.isResident && g.core == s.cur.core && g.launch == s.cur.launch &&
    (upTo 4).any fun k => !(g.uid == s.cur.uid && k == slot.toNat) &&
      (g.slots.toList[k]?).any fun q => q.cfg && decide (off < q.soff.toNat + 1024 * q.sbuf.toNat) && decide (q.soff.toNat < off + n)

/-- Is the element `i` after the cursor, whose bytes in the strip buffer are `bs`, as its fetch left it: neither written by
the program nor in another slot's strip buffer (R271)? -/
def State.undisturbed (s : State) (slot : BitVec 2) (q : StreamSlot) (i : Nat) (bs : List Byte) : Bool :=
  (q.landed[i]?).map Prod.fst == some (leNat bs) && !s.stripShared slot (q.offset (q.cursor.toNat + i)) (q.tag.width / 8)

/-- `vlds` acquires the elements that it delivers (R199, R274): nothing older than what their fetches read at a physical address
is returned any more. -/
def State.acquireElement (s : State) (pa n : Nat) : State := (s.forgetClean s.cur.core pa true).onCur (Hart.settle pa n)

/-- `vlds` (R274). -/
def vlds (d : BitVec 5) (n : BitVec 2) : M Unit := do
  let s ← get
  let h := s.cur
  let q := h.slot n
  need q.cfg 0x0C
  notLatches [d]
  need h.granted 0x09
  capacity [q.tag]
  settled [d]
  if q.avail = 0 && decide (q.cursor.toNat < q.length.toNat) then
    match q.fault with
    | none => modCur fun h => { h.hold (s.issue []) with wait := .vlds d n }
    | some (c, va) =>
      modCur fun h => h.setSlot n { q with fault := none }
      trap c va
  else
    let len := min h.vlen q.avail.toNat
    let at_ (i : Nat) : Nat := tileAddr s.pkg h.core ((s.allocation h).1 + q.offset (q.cursor.toNat + i))
    let w := q.tag.width / 8
    match (upTo len).find? fun i => s.badByte h.core .home (at_ i) w with
    | some i => trap 0x0D (BitVec.ofNat 64 (tileWindow + q.offset (q.cursor.toNat + i))) i
    | none => pure ()
    let kept (i : Nat) : Bool := s.undisturbed n q i (s.homeRead (at_ i) w)
    modCur (Hart.writeV d q.tag ((upTo len).map fun i =>
      some (if kept i then leNat (s.homeRead (at_ i) w) else Config.freeBits (s.draws + i) % 2 ^ q.tag.width)))
    if !(upTo len).all kept then modify fun s => { s with draws := s.draws + len }
    modify fun s => (q.landed.take len).foldl (fun s l => s.acquireElement l.2 w) s
    modCur fun h => { h.setSlot n { q with last := BitVec.ofNat 32 len } with vlen := len }
    retireVector

/-- `vlds` (R274). -/
def execVlds (d : BitVec 5) (n : BitVec 2) (s : State) : Result := finish (vlds d n) s

/-- A sleeping `vlds` looks at its slot again (R274). -/
def execVldsWake (hart : Nat) (s : State) : Result :=
  s.eventOn hart fun s =>
    match s.cur.wait with
    | .vlds d n => finish (vlds d n) s
    | _ => .next s

end Sys2Proof.Machine
end

