-- ==== Sys2Proof/WellFormed.lean ====
section
/-! DEFINITION. Well-formed instructions: the checks of R29 that the fields of a word can break. -/

namespace Sys2Proof

/-- Scope codes 6 and 7 are reserved (R8). -/
def scopeOk (s : BitVec 3) : Bool := decide (s.toNat ≤ 5)

/-- SM width 111 is reserved (R27). -/
def loadWidthOk (w : BitVec 3) : Bool := w != 7#3

/-- A store has no unsigned width (R27, R29). -/
def storeWidthOk (w : BitVec 3) : Bool := decide (w.toNat ≤ 3)

/-- Orders of AMO and CAS: 0 to 4, and the relaxed order carries scope 000 (R212). -/
def atomicOrderOk (o s : BitVec 3) : Bool := decide (o.toNat ≤ 4) && scopeOk s && (o != 0#3 || s == 0#3)

/-- V form 11 is reserved (R27). -/
def formOk (f : BitVec 2) : Bool := f != 3#2

/-- The slides, `vbcast` and `vmvx` take forms 01 and 10, and no immediate below zero (R131). -/
def indexFormOk (f : BitVec 2) (b : BitVec 5) : Bool := f == 1#2 || (f == 2#2 && !b.msb)

/-- Rounding codes of a plain VCVT: 000 to 100 (R120). -/
def vcvtRoundOk (r : BitVec 3) : Bool := decide (r.toNat ≤ 4)

/-- Rounding codes of `fcvt`: 000 to 101 (R75). -/
def fcvtRoundOk (r : BitVec 3) : Bool := decide (r.toNat ≤ 5)

/-- A floating compare has kind 01 or 10 (R79). -/
def fkindOk (k : BitVec 2) : Bool := k == 1#2 || k == 2#2

/-- VM orders of a load, link, conditional or atomic: 00 with scope 000, 01 and 10 with scopes 0 to 5 (R216). -/
def vectorOrderOk (o : BitVec 2) (s : BitVec 3) : Bool :=
  (o == 0#2 && s == 0#3) || ((o == 1#2 || o == 2#2) && scopeOk s)

/-- VM orders of a store: those of a load, and 11 with scope 000 (R216). -/
def vectorStoreOrderOk (o : BitVec 2) (s : BitVec 3) : Bool := vectorOrderOk o s || (o == 3#2 && s == 0#3)

/-- Does a register or descriptor group of MOPA exist (R25, R147)? `step` says that the operand steps. -/
def mopaGroupOk (r : BitVec 5) (rep : BitVec 4) (tileBuffer steps : Bool) : Bool :=
  if tileBuffer then r != 31#5 else decide (r.toNat + (if steps then rep.toNat else 0) ≤ 31)

/-- The groups of `mopa` and `mopa.ra`: the destination tiles and both operands (R147). -/
def mopaOk (t : BitVec 4) (a b : BitVec 5) (rep : BitVec 4) (src : BitVec 2) (latchB : Bool) : Bool :=
  decide (t.toNat + rep.toNat ≤ 15) && mopaGroupOk a rep (src.getLsbD 0) latchB &&
    mopaGroupOk b rep (src.getLsbD 1) (!latchB)

/-- The groups of the `.mx` variants: each operand is followed by its scale register, and the stepping operand
advances by two (R148, R149). -/
def mopaMxOk (t : BitVec 4) (a b : BitVec 5) (rep : BitVec 4) (latchB : Bool) : Bool :=
  decide (t.toNat + rep.toNat ≤ 15) &&
    decide (a.toNat + (if latchB then 2 * rep.toNat else 0) + 1 ≤ 31) &&
    decide (b.toNat + (if latchB then 0 else 2 * rep.toNat) + 1 ≤ 31)

/-- The control register numbers of R157. -/
def crNumbers : List Nat :=
  [0x001, 0x002, 0x003, 0x010, 0x011, 0x012, 0x013, 0x014, 0x015, 0x016, 0x020, 0x021, 0x030, 0x031, 0x040, 0x041,
   0x100, 0x101, 0x102, 0x103, 0x104, 0x105, 0x110, 0x111, 0x120, 0x121, 0x122, 0x123]

/-- A number that R157 does not list is an unlisted value (R158). -/
def crListed (n : BitVec 12) : Bool := crNumbers.contains n.toNat

/-- Is the step an encoded instruction (and not an event of the part)? -/
def Instr.isWord : Instr → Bool
  | .add _ _ _ => true
  | .sub _ _ _ => true
  | .and _ _ _ => true
  | .or _ _ _ => true
  | .xor _ _ _ => true
  | .sll _ _ _ => true
  | .srl _ _ _ => true
  | .sra _ _ _ => true
  | .min _ _ _ => true
  | .max _ _ _ => true
  | .minu _ _ _ => true
  | .maxu _ _ _ => true
  | .sel _ _ _ _ => true
  | .mul _ _ _ => true
  | .mulh _ _ _ => true
  | .mulhu _ _ _ => true
  | .div _ _ _ => true
  | .divu _ _ _ => true
  | .rem _ _ _ => true
  | .remu _ _ _ => true
  | .clz _ _ => true
  | .ctz _ _ => true
  | .popc _ _ => true
  | .brev _ _ => true
  | .fadd _ _ _ _ => true
  | .fsub _ _ _ _ => true
  | .fmul _ _ _ _ => true
  | .fdiv _ _ _ _ => true
  | .fsqrt _ _ _ => true
  | .fmin _ _ _ _ => true
  | .fmax _ _ _ _ => true
  | .fma _ _ _ _ => true
  | .fcvtFi _ _ _ _ => true
  | .fcvtFu _ _ _ _ => true
  | .fcvtTi _ _ _ _ => true
  | .fcvtTu _ _ _ _ => true
  | .fcvtFx _ _ _ _ => true
  | .fclass _ _ _ => true
  | .addi _ _ _ => true
  | .andi _ _ _ => true
  | .ori _ _ _ => true
  | .xori _ _ _ => true
  | .slli _ _ _ => true
  | .srli _ _ _ => true
  | .srai _ _ _ => true
  | .lui _ _ => true
  | .aupc _ _ => true
  | .cmpEq _ _ _ => true
  | .cmpNe _ _ _ => true
  | .cmpLt _ _ _ => true
  | .cmpGe _ _ _ => true
  | .cmpLtu _ _ _ => true
  | .cmpGeu _ _ _ => true
  | .cmpFeq _ _ _ _ => true
  | .cmpFlt _ _ _ _ => true
  | .cmpFle _ _ _ _ => true
  | .cmpFun _ _ _ _ => true
  | .cmpiEq _ _ _ => true
  | .cmpiNe _ _ _ => true
  | .cmpiLt _ _ _ => true
  | .cmpiGe _ _ _ => true
  | .cmpiLtu _ _ _ => true
  | .cmpiGeu _ _ _ => true
  | .cand _ _ _ => true
  | .cor _ _ _ => true
  | .cxor _ _ _ => true
  | .candn _ _ _ => true
  | .cnot _ _ => true
  | .cset _ => true
  | .cclr _ => true
  | .cmov _ _ => true
  | .bc _ _ => true
  | .bnc _ _ => true
  | .jal _ _ => true
  | .jalr _ _ _ => true
  | .ld _ _ _ _ => true
  | .ldAcq _ _ _ _ _ => true
  | .ldSc _ _ _ _ _ => true
  | .st _ _ _ _ => true
  | .stRel _ _ _ _ _ => true
  | .stSc _ _ _ _ _ => true
  | .stSw _ _ _ _ => true
  | .amoadd _ _ _ _ _ _ => true
  | .amoand _ _ _ _ _ _ => true
  | .amoor _ _ _ _ _ _ => true
  | .amoxor _ _ _ _ _ _ => true
  | .amomin _ _ _ _ _ _ => true
  | .amomax _ _ _ _ _ _ => true
  | .amominu _ _ _ _ _ _ => true
  | .amomaxu _ _ _ _ _ _ => true
  | .amoswap _ _ _ _ _ _ => true
  | .cas _ _ _ _ _ _ => true
  | .fenceRel _ => true
  | .fenceAcq _ => true
  | .fenceAr _ => true
  | .fenceSv => true
  | .vadd _ _ _ _ _ => true
  | .vsub _ _ _ _ _ => true
  | .vrsub _ _ _ _ _ => true
  | .vmul _ _ _ _ _ => true
  | .vmulh _ _ _ _ _ => true
  | .vdiv _ _ _ _ _ => true
  | .vrem _ _ _ _ _ => true
  | .vmin _ _ _ _ _ => true
  | .vmax _ _ _ _ _ => true
  | .vabs _ _ _ => true
  | .vneg _ _ _ => true
  | .vsadd _ _ _ _ _ => true
  | .vssub _ _ _ _ _ => true
  | .vfma _ _ _ _ _ => true
  | .vfms _ _ _ _ _ => true
  | .vfnma _ _ _ _ _ => true
  | .vfnms _ _ _ _ _ => true
  | .vwmul _ _ _ _ _ => true
  | .vand _ _ _ _ _ => true
  | .vor _ _ _ _ _ => true
  | .vxor _ _ _ _ _ => true
  | .vnot _ _ _ => true
  | .vsll _ _ _ _ _ => true
  | .vsrl _ _ _ _ _ => true
  | .vsra _ _ _ _ _ => true
  | .vpopc _ _ _ => true
  | .vclz _ _ _ => true
  | .vrecip _ _ _ => true
  | .vrsqrt _ _ _ => true
  | .vsqrt _ _ _ => true
  | .vexp2 _ _ _ => true
  | .vlog2 _ _ _ => true
  | .vtanh _ _ _ => true
  | .vcmpEq _ _ _ _ _ => true
  | .vcmpNe _ _ _ _ _ => true
  | .vcmpLt _ _ _ _ _ => true
  | .vcmpLe _ _ _ _ _ => true
  | .vcmpGt _ _ _ _ _ => true
  | .vcmpGe _ _ _ _ _ => true
  | .vcmpUn _ _ _ _ _ => true
  | .mand _ _ _ => true
  | .mor _ _ _ => true
  | .mxor _ _ _ => true
  | .mandn _ _ _ => true
  | .mnot _ _ => true
  | .mmv _ _ => true
  | .mset _ => true
  | .mclr _ => true
  | .mpopc _ _ => true
  | .mfirst _ _ => true
  | .many _ _ => true
  | .mall _ _ => true
  | .miota _ _ => true
  | .mcomp _ => true
  | .vcvt _ _ _ _ _ => true
  | .vcvtSat _ _ _ _ _ => true
  | .vcvtSr _ _ _ _ _ => true
  | .vcvtSrSat _ _ _ _ _ => true
  | .vredsum _ _ _ => true
  | .vredmax _ _ _ => true
  | .vredmin _ _ _ => true
  | .vredand _ _ _ => true
  | .vredor _ _ _ => true
  | .vredxor _ _ _ => true
  | .vscanSum _ _ _ => true
  | .vscanMax _ _ _ => true
  | .vslideup _ _ _ _ _ => true
  | .vslidedn _ _ _ _ _ => true
  | .vperm _ _ _ _ => true
  | .vcompress _ _ _ => true
  | .vexpand _ _ _ => true
  | .vbcast _ _ _ _ _ => true
  | .vmv _ _ _ => true
  | .viota _ _ _ => true
  | .vmvx _ _ _ _ => true
  | .vmvs _ _ _ => true
  | .vnzb _ _ _ => true
  | .vbpop _ _ _ => true
  | .vrank _ _ _ _ => true
  | .vxsect _ _ _ _ => true
  | .vsetvl _ _ _ => true
  | .vcfg _ _ => true
  | .vrel => true
  | .vrand _ _ _ => true
  | .vld _ _ _ _ _ _ => true
  | .vldS _ _ _ _ _ _ _ => true
  | .vst _ _ _ _ _ => true
  | .vstS _ _ _ _ _ _ => true
  | .vldx _ _ _ _ _ _ _ => true
  | .vgll _ _ _ _ _ _ => true
  | .vstx _ _ _ _ _ _ => true
  | .vscc _ _ _ _ _ _ => true
  | .vamoAdd _ _ _ _ _ _ => true
  | .vamoAnd _ _ _ _ _ _ => true
  | .vamoOr _ _ _ _ _ _ => true
  | .vamoXor _ _ _ _ _ _ => true
  | .vamoMin _ _ _ _ _ _ => true
  | .vamoMax _ _ _ _ _ _ => true
  | .vamoSwap _ _ _ _ _ _ => true
  | .vfas _ _ _ _ => true
  | .vwait _ _ _ _ _ => true
  | .vwaitEq _ _ _ _ _ => true
  | .vwaitNe _ _ _ _ _ => true
  | .vxlt _ _ _ _ _ => true
  | .vxltW _ _ _ _ _ => true
  | .vlin _ _ _ _ => true
  | .vlinB _ _ _ _ => true
  | .menter _ => true
  | .mexit => true
  | .mzero _ => true
  | .mopa _ _ _ _ _ _ => true
  | .mopaRa _ _ _ _ _ _ => true
  | .mopaMx _ _ _ _ _ => true
  | .mopaMxRa _ _ _ _ _ => true
  | .mrow _ _ _ _ => true
  | .mcol _ _ _ _ => true
  | .mputr _ _ _ _ => true
  | .mputc _ _ _ _ => true
  | .mcvt _ _ _ _ _ => true
  | .mld _ _ _ _ => true
  | .mst _ _ _ _ => true
  | .cpy _ _ _ _ _ _ => true
  | .cpyv _ _ _ _ _ _ => true
  | .cpyc _ _ _ _ _ _ => true
  | .cpycTb _ _ _ _ _ _ => true
  | .scfg _ _ _ => true
  | .vlds _ _ => true
  | .sadv _ => true
  | .sclose _ => true
  | .twany _ _ => true
  | .twall _ => true
  | .tfind _ _ => true
  | .tclr _ => true
  | .tstamp _ _ => true
  | .qbind _ _ _ => true
  | .qpush _ _ => true
  | .qpop _ _ => true
  | .qstat _ _ => true
  | .barinit _ _ _ => true
  | .barArrive _ => true
  | .barWait _ => true
  | .barSync _ => true
  | .barDrop _ => true
  | .sigadd _ _ _ => true
  | .lsync => true
  | .loff => true
  | .lon => true
  | .tide _ _ _ _ => true
  | .tidewait _ => true
  | .tideq _ _ => true
  | .mapget _ _ _ => true
  | .mapset _ _ _ => true
  | .mapverAcq _ _ => true
  | .mapverRel _ => true
  | .mapverPub _ _ => true
  | .balloc _ _ => true
  | .bfree _ _ => true
  | .swopen _ _ _ => true
  | .swcommit _ _ _ _ => true
  | .swdrop _ => true
  | .swstat _ _ => true
  | .lnset _ _ _ => true
  | .lnget _ _ _ => true
  | .launch _ => true
  | .spawn _ => true
  | .yield => true
  | .exit => true
  | .resume _ => true
  | .crr _ _ => true
  | .crw _ _ => true
  | .crs _ _ => true
  | .crc _ _ => true
  | .pref _ _ => true
  | .flush _ _ _ => true
  | .discard _ _ _ => true
  | .inv _ _ => true
  | .xinv _ _ => true
  | .trap _ => true
  | .tret => true
  | .wfi => true
  | .halt => true
  | .faultPosting _ => false
  | .faultPostedInterrupt _ => false
  | .barrierGroupWake _ _ _ => false
  | .tidewaitOnset _ => false
  | .tideWindowStart _ => false
  | .tideWindowEnd _ => false
  | .tideIntervalEnd _ => false
  | .leadIssue _ => false
  | .copyComplete _ => false
  | .copyPushWake _ => false
  | .tagWaitWake _ => false
  | .streamFetchLand _ _ => false
  | .vldsWake _ => false
  | .swcommitPerform _ => false
  | .vwaitWake _ => false
  | .vwaitDeadline _ => false
  | .queueWake _ => false
  | .spawnWake _ => false
  | .wfiWake _ => false
  | .vsetvlLaneWake _ => false
  | .placement _ => false
  | .laneReclamation _ _ => false
  | .revokeDeadline _ => false
  | .preemption _ => false
  | .resumption _ _ => false
  | .agingPromotion _ _ _ => false
  | .partmvWrite _ => false
  | .partitionMoveComplete => false
  | .powerGood => false
  | .keavarTimeMessage _ => false
  | .timeBoundLoss => false
  | .remoteAccessTimeout _ _ => false
  | .ceideLaneFailure _ => false
  | .ceideRead _ _ => false
  | .ceideWrite _ _ => false
  | .ceideAtomicAdd _ _ => false
  | .mgmtStatus => false
  | .mgmtPartitionCreate _ => false
  | .mgmtPartitionDestroy _ => false
  | .mgmtRootChange _ _ => false
  | .mgmtStartDispatcher _ => false
  | .mgmtCounters _ => false
  | .counterSnapshot => false
  | .mgmtTideTotals _ => false
  | .mgmtAttestation _ => false
  | .mgmtFirmwareUpdate _ => false
  | .mgmtReset => false
  | .notAnInstruction _ => false
  | .fetchFault _ _ => false
  | .shoreTick => false
  | .keavarRemoteAccess _ => false

/-- The field checks of R29: does an encoded instruction with these fields have a word? An event has no field to check. -/
def Instr.wellFormed : Instr → Bool
  | .add _ _ _ => true
  | .sub _ _ _ => true
  | .and _ _ _ => true
  | .or _ _ _ => true
  | .xor _ _ _ => true
  | .sll _ _ _ => true
  | .srl _ _ _ => true
  | .sra _ _ _ => true
  | .min _ _ _ => true
  | .max _ _ _ => true
  | .minu _ _ _ => true
  | .maxu _ _ _ => true
  | .sel _ _ _ _ => true
  | .mul _ _ _ => true
  | .mulh _ _ _ => true
  | .mulhu _ _ _ => true
  | .div _ _ _ => true
  | .divu _ _ _ => true
  | .rem _ _ _ => true
  | .remu _ _ _ => true
  | .clz _ _ => true
  | .ctz _ _ => true
  | .popc _ _ => true
  | .brev _ _ => true
  | .fadd _ _ _ _ => true
  | .fsub _ _ _ _ => true
  | .fmul _ _ _ _ => true
  | .fdiv _ _ _ _ => true
  | .fsqrt _ _ _ => true
  | .fmin _ _ _ _ => true
  | .fmax _ _ _ _ => true
  | .fma _ _ _ _ => true
  | .fcvtFi _ _ r _ => fcvtRoundOk r
  | .fcvtFu _ _ r _ => fcvtRoundOk r
  | .fcvtTi _ _ r _ => fcvtRoundOk r
  | .fcvtTu _ _ r _ => fcvtRoundOk r
  | .fcvtFx _ _ r _ => fcvtRoundOk r
  | .fclass _ _ _ => true
  | .addi _ _ _ => true
  | .andi _ _ _ => true
  | .ori _ _ _ => true
  | .xori _ _ _ => true
  | .slli _ _ _ => true
  | .srli _ _ _ => true
  | .srai _ _ _ => true
  | .lui _ _ => true
  | .aupc _ _ => true
  | .cmpEq _ _ _ => true
  | .cmpNe _ _ _ => true
  | .cmpLt _ _ _ => true
  | .cmpGe _ _ _ => true
  | .cmpLtu _ _ _ => true
  | .cmpGeu _ _ _ => true
  | .cmpFeq _ _ _ k => fkindOk k
  | .cmpFlt _ _ _ k => fkindOk k
  | .cmpFle _ _ _ k => fkindOk k
  | .cmpFun _ _ _ k => fkindOk k
  | .cmpiEq _ _ _ => true
  | .cmpiNe _ _ _ => true
  | .cmpiLt _ _ _ => true
  | .cmpiGe _ _ _ => true
  | .cmpiLtu _ _ _ => true
  | .cmpiGeu _ _ _ => true
  | .cand _ _ _ => true
  | .cor _ _ _ => true
  | .cxor _ _ _ => true
  | .candn _ _ _ => true
  | .cnot _ _ => true
  | .cset _ => true
  | .cclr _ => true
  | .cmov _ _ => true
  | .bc _ _ => true
  | .bnc _ _ => true
  | .jal _ _ => true
  | .jalr _ _ _ => true
  | .ld _ _ w _ => loadWidthOk w
  | .ldAcq _ _ w s _ => loadWidthOk w && scopeOk s
  | .ldSc _ _ w s _ => loadWidthOk w && scopeOk s
  | .st _ _ w _ => storeWidthOk w
  | .stRel _ _ w s _ => storeWidthOk w && scopeOk s
  | .stSc _ _ w s _ => storeWidthOk w && scopeOk s
  | .stSw _ _ w _ => storeWidthOk w
  | .amoadd _ _ _ o s _ => atomicOrderOk o s
  | .amoand _ _ _ o s _ => atomicOrderOk o s
  | .amoor _ _ _ o s _ => atomicOrderOk o s
  | .amoxor _ _ _ o s _ => atomicOrderOk o s
  | .amomin _ _ _ o s _ => atomicOrderOk o s
  | .amomax _ _ _ o s _ => atomicOrderOk o s
  | .amominu _ _ _ o s _ => atomicOrderOk o s
  | .amomaxu _ _ _ o s _ => atomicOrderOk o s
  | .amoswap _ _ _ o s _ => atomicOrderOk o s
  | .cas _ _ _ o s _ => atomicOrderOk o s
  | .fenceRel s => scopeOk s
  | .fenceAcq s => scopeOk s
  | .fenceAr s => scopeOk s
  | .fenceSv => true
  | .vadd f _ _ _ _ => formOk f
  | .vsub f _ _ _ _ => formOk f
  | .vrsub f _ _ _ _ => formOk f
  | .vmul f _ _ _ _ => formOk f
  | .vmulh f _ _ _ _ => formOk f
  | .vdiv f _ _ _ _ => formOk f
  | .vrem f _ _ _ _ => formOk f
  | .vmin f _ _ _ _ => formOk f
  | .vmax f _ _ _ _ => formOk f
  | .vabs _ _ _ => true
  | .vneg _ _ _ => true
  | .vsadd f _ _ _ _ => formOk f
  | .vssub f _ _ _ _ => formOk f
  | .vfma f _ _ _ _ => formOk f
  | .vfms f _ _ _ _ => formOk f
  | .vfnma f _ _ _ _ => formOk f
  | .vfnms f _ _ _ _ => formOk f
  | .vwmul f _ _ _ _ => formOk f
  | .vand f _ _ _ _ => formOk f
  | .vor f _ _ _ _ => formOk f
  | .vxor f _ _ _ _ => formOk f
  | .vnot _ _ _ => true
  | .vsll f _ _ _ _ => formOk f
  | .vsrl f _ _ _ _ => formOk f
  | .vsra f _ _ _ _ => formOk f
  | .vpopc _ _ _ => true
  | .vclz _ _ _ => true
  | .vrecip _ _ _ => true
  | .vrsqrt _ _ _ => true
  | .vsqrt _ _ _ => true
  | .vexp2 _ _ _ => true
  | .vlog2 _ _ _ => true
  | .vtanh _ _ _ => true
  | .vcmpEq f _ _ _ _ => formOk f
  | .vcmpNe f _ _ _ _ => formOk f
  | .vcmpLt f _ _ _ _ => formOk f
  | .vcmpLe f _ _ _ _ => formOk f
  | .vcmpGt f _ _ _ _ => formOk f
  | .vcmpGe f _ _ _ _ => formOk f
  | .vcmpUn f _ _ _ _ => formOk f
  | .mand _ _ _ => true
  | .mor _ _ _ => true
  | .mxor _ _ _ => true
  | .mandn _ _ _ => true
  | .mnot _ _ => true
  | .mmv _ _ => true
  | .mset _ => true
  | .mclr _ => true
  | .mpopc _ _ => true
  | .mfirst _ _ => true
  | .many _ _ => true
  | .mall _ _ => true
  | .miota _ _ => true
  | .mcomp _ => true
  | .vcvt _ _ r _ t => t != 0#4 && vcvtRoundOk r
  | .vcvtSat _ _ r _ t => t != 0#4 && vcvtRoundOk r
  | .vcvtSr _ _ _ _ t => t != 0#4
  | .vcvtSrSat _ _ _ _ t => t != 0#4
  | .vredsum _ _ _ => true
  | .vredmax _ _ _ => true
  | .vredmin _ _ _ => true
  | .vredand _ _ _ => true
  | .vredor _ _ _ => true
  | .vredxor _ _ _ => true
  | .vscanSum _ _ _ => true
  | .vscanMax _ _ _ => true
  | .vslideup f _ _ b _ => indexFormOk f b
  | .vslidedn f _ _ b _ => indexFormOk f b
  | .vperm _ _ _ _ => true
  | .vcompress _ _ _ => true
  | .vexpand _ _ _ => true
  | .vbcast f _ _ b _ => indexFormOk f b
  | .vmv _ _ _ => true
  | .viota _ t _ => t != 0#4
  | .vmvx f _ _ b => indexFormOk f b
  | .vmvs _ _ _ => true
  | .vnzb _ _ _ => true
  | .vbpop _ _ _ => true
  | .vrank _ _ _ _ => true
  | .vxsect _ _ _ _ => true
  | .vsetvl _ _ t => t != 0#4
  | .vcfg _ _ => true
  | .vrel => true
  | .vrand _ _ _ => true
  | .vld _ _ _ s o _ => vectorOrderOk o s
  | .vldS _ _ _ _ s o _ => vectorOrderOk o s
  | .vst _ _ _ s o => vectorStoreOrderOk o s
  | .vstS _ _ _ _ s o => vectorStoreOrderOk o s
  | .vldx _ _ _ _ s o _ => vectorOrderOk o s
  | .vgll _ _ _ _ s o => vectorOrderOk o s
  | .vstx _ _ _ _ s o => vectorStoreOrderOk o s
  | .vscc _ _ _ _ s o => vectorOrderOk o s
  | .vamoAdd _ _ b _ s o => vectorOrderOk o s && b != 31#5
  | .vamoAnd _ _ b _ s o => vectorOrderOk o s && b != 31#5
  | .vamoOr _ _ b _ s o => vectorOrderOk o s && b != 31#5
  | .vamoXor _ _ b _ s o => vectorOrderOk o s && b != 31#5
  | .vamoMin _ _ b _ s o => vectorOrderOk o s && b != 31#5
  | .vamoMax _ _ b _ s o => vectorOrderOk o s && b != 31#5
  | .vamoSwap _ _ b _ s o => vectorOrderOk o s && b != 31#5
  | .vfas _ _ _ _ => true
  | .vwait _ _ _ _ s => scopeOk s
  | .vwaitEq _ _ _ _ s => scopeOk s
  | .vwaitNe _ _ _ _ s => scopeOk s
  | .vxlt _ a _ _ _ => a != 31#5
  | .vxltW _ a _ _ _ => a != 31#5
  | .vlin _ _ _ _ => true
  | .vlinB _ _ _ _ => true
  | .menter _ => true
  | .mexit => true
  | .mzero _ => true
  | .mopa t a b r s _ => mopaOk t a b r s false
  | .mopaRa t a b r s _ => mopaOk t a b r s true
  | .mopaMx t a b r _ => mopaMxOk t a b r false
  | .mopaMxRa t a b r _ => mopaMxOk t a b r true
  | .mrow _ _ _ _ => true
  | .mcol _ _ _ _ => true
  | .mputr _ _ _ _ => true
  | .mputc _ _ _ _ => true
  | .mcvt _ _ _ k _ => k != 0#4
  | .mld _ _ _ _ => true
  | .mst _ _ _ _ => true
  | .cpy _ _ _ _ _ _ => true
  | .cpyv d _ n _ _ _ => decide (d.toNat + n.toNat ≤ 31)
  | .cpyc _ _ _ _ _ _ => true
  | .cpycTb _ _ _ _ _ _ => true
  | .scfg _ s _ => scopeOk s
  | .vlds _ _ => true
  | .sadv _ => true
  | .sclose _ => true
  | .twany _ _ => true
  | .twall _ => true
  | .tfind _ _ => true
  | .tclr _ => true
  | .tstamp _ _ => true
  | .qbind _ _ _ => true
  | .qpush _ _ => true
  | .qpop _ _ => true
  | .qstat _ _ => true
  | .barinit s _ _ => scopeOk s
  | .barArrive _ => true
  | .barWait _ => true
  | .barSync _ => true
  | .barDrop _ => true
  | .sigadd _ _ s => scopeOk s
  | .lsync => true
  | .loff => true
  | .lon => true
  | .tide _ _ _ n => decide (n.toNat ≤ 16)
  | .tidewait _ => true
  | .tideq _ s => decide (s.toNat ≤ 6)
  | .mapget _ _ _ => true
  | .mapset _ _ _ => true
  | .mapverAcq _ _ => true
  | .mapverRel _ => true
  | .mapverPub _ s => scopeOk s
  | .balloc _ _ => true
  | .bfree _ _ => true
  | .swopen _ _ _ => true
  | .swcommit s _ _ _ => scopeOk s
  | .swdrop _ => true
  | .swstat _ _ => true
  | .lnset _ _ _ => true
  | .lnget _ _ _ => true
  | .launch _ => true
  | .spawn _ => true
  | .yield => true
  | .exit => true
  | .resume _ => true
  | .crr _ n => crListed n
  | .crw _ n => crListed n
  | .crs _ n => crListed n
  | .crc _ n => crListed n
  | .pref _ s => scopeOk s
  | .flush _ _ s => scopeOk s
  | .discard _ _ s => scopeOk s
  | .inv _ _ => true
  | .xinv _ s => scopeOk s
  | .trap _ => true
  | .tret => true
  | .wfi => true
  | .halt => true
  | .faultPosting _ => true
  | .faultPostedInterrupt _ => true
  | .barrierGroupWake _ _ _ => true
  | .tidewaitOnset _ => true
  | .tideWindowStart _ => true
  | .tideWindowEnd _ => true
  | .tideIntervalEnd _ => true
  | .leadIssue _ => true
  | .copyComplete _ => true
  | .copyPushWake _ => true
  | .tagWaitWake _ => true
  | .streamFetchLand _ _ => true
  | .vldsWake _ => true
  | .swcommitPerform _ => true
  | .vwaitWake _ => true
  | .vwaitDeadline _ => true
  | .queueWake _ => true
  | .spawnWake _ => true
  | .wfiWake _ => true
  | .vsetvlLaneWake _ => true
  | .placement _ => true
  | .laneReclamation _ _ => true
  | .revokeDeadline _ => true
  | .preemption _ => true
  | .resumption _ _ => true
  | .agingPromotion _ _ _ => true
  | .partmvWrite _ => true
  | .partitionMoveComplete => true
  | .powerGood => true
  | .keavarTimeMessage _ => true
  | .timeBoundLoss => true
  | .remoteAccessTimeout _ _ => true
  | .ceideLaneFailure _ => true
  | .ceideRead _ _ => true
  | .ceideWrite _ _ => true
  | .ceideAtomicAdd _ _ => true
  | .mgmtStatus => true
  | .mgmtPartitionCreate _ => true
  | .mgmtPartitionDestroy _ => true
  | .mgmtRootChange _ _ => true
  | .mgmtStartDispatcher _ => true
  | .mgmtCounters _ => true
  | .counterSnapshot => true
  | .mgmtTideTotals _ => true
  | .mgmtAttestation _ => true
  | .mgmtFirmwareUpdate _ => true
  | .mgmtReset => true
  | .notAnInstruction _ => true
  | .fetchFault _ _ => true
  | .shoreTick => true
  | .keavarRemoteAccess _ => true

end Sys2Proof
end

