-- ==== Sys2Proof/Decode.lean ====
section
/-! DEFINITION. Decoding a word (R21, R24, R28, R29) and encoding a well-formed instruction. -/

namespace Sys2Proof

/-- Why a word is not an instruction (R29). -/
inductive Reject where
  /-- Major 0x00 or 0x3F, permanently illegal. -/
  | illegalMajor
  /-- Major 0x3D or 0x3E, reserved. -/
  | reservedMajor
  /-- An unlisted fn, sub, kind, cc or id6 value, or a field that must be zero and is not. -/
  | unlisted (major : BitVec 6)
  /-- A reserved code or a broken register group (the checks of `Instr.wellFormed`). -/
  | reservedField (major : BitVec 6)
  deriving DecidableEq, Repr

/-- Field `len` bits wide with lowest bit `lo` (R24). -/
def fld (w : BitVec 32) (lo len : Nat) : BitVec len := w.extractLsb' lo len

/-- Accept a decoded instruction when its fields pass R29. -/
def accept (major : BitVec 6) (i : Instr) : Except Reject Instr :=
  if i.wellFormed then .ok i else .error (.reservedField major)

/-- Major 0x01. -/
def decodeMajor01 (w : BitVec 32) : Except Reject Instr :=
  if fld w 0 11 == 0x0#11 then accept 0x01#6 (.add (fld w 21 5) (fld w 16 5) (fld w 11 5))
  else if fld w 0 11 == 0x1#11 then accept 0x01#6 (.sub (fld w 21 5) (fld w 16 5) (fld w 11 5))
  else if fld w 0 11 == 0x2#11 then accept 0x01#6 (.and (fld w 21 5) (fld w 16 5) (fld w 11 5))
  else if fld w 0 11 == 0x3#11 then accept 0x01#6 (.or (fld w 21 5) (fld w 16 5) (fld w 11 5))
  else if fld w 0 11 == 0x4#11 then accept 0x01#6 (.xor (fld w 21 5) (fld w 16 5) (fld w 11 5))
  else if fld w 0 11 == 0x5#11 then accept 0x01#6 (.sll (fld w 21 5) (fld w 16 5) (fld w 11 5))
  else if fld w 0 11 == 0x6#11 then accept 0x01#6 (.srl (fld w 21 5) (fld w 16 5) (fld w 11 5))
  else if fld w 0 11 == 0x7#11 then accept 0x01#6 (.sra (fld w 21 5) (fld w 16 5) (fld w 11 5))
  else if fld w 0 11 == 0x8#11 then accept 0x01#6 (.min (fld w 21 5) (fld w 16 5) (fld w 11 5))
  else if fld w 0 11 == 0x9#11 then accept 0x01#6 (.max (fld w 21 5) (fld w 16 5) (fld w 11 5))
  else if fld w 0 11 == 0xA#11 then accept 0x01#6 (.minu (fld w 21 5) (fld w 16 5) (fld w 11 5))
  else if fld w 0 11 == 0xB#11 then accept 0x01#6 (.maxu (fld w 21 5) (fld w 16 5) (fld w 11 5))
  else if fld w 0 8 == 0xC#8 then accept 0x01#6 (.sel (fld w 21 5) (fld w 16 5) (fld w 11 5) (fld w 8 3))
  else .error (.unlisted 0x01#6)

/-- Major 0x02. -/
def decodeMajor02 (w : BitVec 32) : Except Reject Instr :=
  if fld w 0 11 == 0x0#11 then accept 0x02#6 (.mul (fld w 21 5) (fld w 16 5) (fld w 11 5))
  else if fld w 0 11 == 0x1#11 then accept 0x02#6 (.mulh (fld w 21 5) (fld w 16 5) (fld w 11 5))
  else if fld w 0 11 == 0x2#11 then accept 0x02#6 (.mulhu (fld w 21 5) (fld w 16 5) (fld w 11 5))
  else if fld w 0 11 == 0x3#11 then accept 0x02#6 (.div (fld w 21 5) (fld w 16 5) (fld w 11 5))
  else if fld w 0 11 == 0x4#11 then accept 0x02#6 (.divu (fld w 21 5) (fld w 16 5) (fld w 11 5))
  else if fld w 0 11 == 0x5#11 then accept 0x02#6 (.rem (fld w 21 5) (fld w 16 5) (fld w 11 5))
  else if fld w 0 11 == 0x6#11 then accept 0x02#6 (.remu (fld w 21 5) (fld w 16 5) (fld w 11 5))
  else if fld w 0 16 == 0x7#16 then accept 0x02#6 (.clz (fld w 21 5) (fld w 16 5))
  else if fld w 0 16 == 0x8#16 then accept 0x02#6 (.ctz (fld w 21 5) (fld w 16 5))
  else if fld w 0 16 == 0x9#16 then accept 0x02#6 (.popc (fld w 21 5) (fld w 16 5))
  else if fld w 0 16 == 0xA#16 then accept 0x02#6 (.brev (fld w 21 5) (fld w 16 5))
  else .error (.unlisted 0x02#6)

/-- Major 0x03. -/
def decodeMajor03 (w : BitVec 32) : Except Reject Instr :=
  if fld w 5 6 == 0x0#6 && fld w 0 4 == 0x0#4 then accept 0x03#6 (.fadd (fld w 21 5) (fld w 16 5) (fld w 11 5) (fld w 4 1))
  else if fld w 5 6 == 0x0#6 && fld w 0 4 == 0x1#4 then accept 0x03#6 (.fsub (fld w 21 5) (fld w 16 5) (fld w 11 5) (fld w 4 1))
  else if fld w 5 6 == 0x0#6 && fld w 0 4 == 0x2#4 then accept 0x03#6 (.fmul (fld w 21 5) (fld w 16 5) (fld w 11 5) (fld w 4 1))
  else if fld w 5 6 == 0x0#6 && fld w 0 4 == 0x3#4 then accept 0x03#6 (.fdiv (fld w 21 5) (fld w 16 5) (fld w 11 5) (fld w 4 1))
  else if fld w 5 11 == 0x0#11 && fld w 0 4 == 0x4#4 then accept 0x03#6 (.fsqrt (fld w 21 5) (fld w 16 5) (fld w 4 1))
  else if fld w 5 6 == 0x0#6 && fld w 0 4 == 0x5#4 then accept 0x03#6 (.fmin (fld w 21 5) (fld w 16 5) (fld w 11 5) (fld w 4 1))
  else if fld w 5 6 == 0x0#6 && fld w 0 4 == 0x6#4 then accept 0x03#6 (.fmax (fld w 21 5) (fld w 16 5) (fld w 11 5) (fld w 4 1))
  else if fld w 5 6 == 0x0#6 && fld w 0 4 == 0x7#4 then accept 0x03#6 (.fma (fld w 21 5) (fld w 16 5) (fld w 11 5) (fld w 4 1))
  else if fld w 11 5 == 0x0#5 && fld w 5 3 == 0x0#3 && fld w 0 4 == 0x8#4 then accept 0x03#6 (.fcvtFi (fld w 21 5) (fld w 16 5) (fld w 8 3) (fld w 4 1))
  else if fld w 11 5 == 0x0#5 && fld w 5 3 == 0x1#3 && fld w 0 4 == 0x8#4 then accept 0x03#6 (.fcvtFu (fld w 21 5) (fld w 16 5) (fld w 8 3) (fld w 4 1))
  else if fld w 11 5 == 0x0#5 && fld w 5 3 == 0x2#3 && fld w 0 4 == 0x8#4 then accept 0x03#6 (.fcvtTi (fld w 21 5) (fld w 16 5) (fld w 8 3) (fld w 4 1))
  else if fld w 11 5 == 0x0#5 && fld w 5 3 == 0x3#3 && fld w 0 4 == 0x8#4 then accept 0x03#6 (.fcvtTu (fld w 21 5) (fld w 16 5) (fld w 8 3) (fld w 4 1))
  else if fld w 11 5 == 0x0#5 && fld w 5 3 == 0x4#3 && fld w 0 4 == 0x8#4 then accept 0x03#6 (.fcvtFx (fld w 21 5) (fld w 16 5) (fld w 8 3) (fld w 4 1))
  else if fld w 5 11 == 0x0#11 && fld w 0 4 == 0x9#4 then accept 0x03#6 (.fclass (fld w 21 5) (fld w 16 5) (fld w 4 1))
  else .error (.unlisted 0x03#6)

/-- Major 0x04. -/
def decodeMajor04 (w : BitVec 32) : Except Reject Instr :=
  accept 0x04#6 (.addi (fld w 21 5) (fld w 16 5) (fld w 0 16))

/-- Major 0x05. -/
def decodeMajor05 (w : BitVec 32) : Except Reject Instr :=
  accept 0x05#6 (.andi (fld w 21 5) (fld w 16 5) (fld w 0 16))

/-- Major 0x06. -/
def decodeMajor06 (w : BitVec 32) : Except Reject Instr :=
  accept 0x06#6 (.ori (fld w 21 5) (fld w 16 5) (fld w 0 16))

/-- Major 0x07. -/
def decodeMajor07 (w : BitVec 32) : Except Reject Instr :=
  accept 0x07#6 (.xori (fld w 21 5) (fld w 16 5) (fld w 0 16))

/-- Major 0x08. -/
def decodeMajor08 (w : BitVec 32) : Except Reject Instr :=
  if fld w 6 10 == 0x0#10 then accept 0x08#6 (.slli (fld w 21 5) (fld w 16 5) (fld w 0 6))
  else if fld w 6 10 == 0x1#10 then accept 0x08#6 (.srli (fld w 21 5) (fld w 16 5) (fld w 0 6))
  else if fld w 6 10 == 0x2#10 then accept 0x08#6 (.srai (fld w 21 5) (fld w 16 5) (fld w 0 6))
  else .error (.unlisted 0x08#6)

/-- Major 0x09. -/
def decodeMajor09 (w : BitVec 32) : Except Reject Instr :=
  accept 0x09#6 (.lui (fld w 21 5) (fld w 0 21))

/-- Major 0x0A. -/
def decodeMajor0A (w : BitVec 32) : Except Reject Instr :=
  accept 0x0A#6 (.aupc (fld w 21 5) (fld w 0 21))

/-- Major 0x0B. -/
def decodeMajor0B (w : BitVec 32) : Except Reject Instr :=
  if fld w 19 4 == 0x0#4 && fld w 0 9 == 0x0#9 then accept 0x0B#6 (.cmpEq (fld w 23 3) (fld w 14 5) (fld w 9 5))
  else if fld w 19 4 == 0x1#4 && fld w 0 9 == 0x0#9 then accept 0x0B#6 (.cmpNe (fld w 23 3) (fld w 14 5) (fld w 9 5))
  else if fld w 19 4 == 0x2#4 && fld w 0 9 == 0x0#9 then accept 0x0B#6 (.cmpLt (fld w 23 3) (fld w 14 5) (fld w 9 5))
  else if fld w 19 4 == 0x3#4 && fld w 0 9 == 0x0#9 then accept 0x0B#6 (.cmpGe (fld w 23 3) (fld w 14 5) (fld w 9 5))
  else if fld w 19 4 == 0x4#4 && fld w 0 9 == 0x0#9 then accept 0x0B#6 (.cmpLtu (fld w 23 3) (fld w 14 5) (fld w 9 5))
  else if fld w 19 4 == 0x5#4 && fld w 0 9 == 0x0#9 then accept 0x0B#6 (.cmpGeu (fld w 23 3) (fld w 14 5) (fld w 9 5))
  else if fld w 19 4 == 0x6#4 && fld w 0 7 == 0x0#7 then accept 0x0B#6 (.cmpFeq (fld w 23 3) (fld w 14 5) (fld w 9 5) (fld w 7 2))
  else if fld w 19 4 == 0x7#4 && fld w 0 7 == 0x0#7 then accept 0x0B#6 (.cmpFlt (fld w 23 3) (fld w 14 5) (fld w 9 5) (fld w 7 2))
  else if fld w 19 4 == 0x8#4 && fld w 0 7 == 0x0#7 then accept 0x0B#6 (.cmpFle (fld w 23 3) (fld w 14 5) (fld w 9 5) (fld w 7 2))
  else if fld w 19 4 == 0x9#4 && fld w 0 7 == 0x0#7 then accept 0x0B#6 (.cmpFun (fld w 23 3) (fld w 14 5) (fld w 9 5) (fld w 7 2))
  else .error (.unlisted 0x0B#6)

/-- Major 0x0C. -/
def decodeMajor0C (w : BitVec 32) : Except Reject Instr :=
  if fld w 19 4 == 0x0#4 then accept 0x0C#6 (.cmpiEq (fld w 23 3) (fld w 14 5) (fld w 0 14))
  else if fld w 19 4 == 0x1#4 then accept 0x0C#6 (.cmpiNe (fld w 23 3) (fld w 14 5) (fld w 0 14))
  else if fld w 19 4 == 0x2#4 then accept 0x0C#6 (.cmpiLt (fld w 23 3) (fld w 14 5) (fld w 0 14))
  else if fld w 19 4 == 0x3#4 then accept 0x0C#6 (.cmpiGe (fld w 23 3) (fld w 14 5) (fld w 0 14))
  else if fld w 19 4 == 0x4#4 then accept 0x0C#6 (.cmpiLtu (fld w 23 3) (fld w 14 5) (fld w 0 14))
  else if fld w 19 4 == 0x5#4 then accept 0x0C#6 (.cmpiGeu (fld w 23 3) (fld w 14 5) (fld w 0 14))
  else .error (.unlisted 0x0C#6)

/-- Major 0x0D. -/
def decodeMajor0D (w : BitVec 32) : Except Reject Instr :=
  if fld w 0 17 == 0x0#17 then accept 0x0D#6 (.cand (fld w 23 3) (fld w 20 3) (fld w 17 3))
  else if fld w 0 17 == 0x2000#17 then accept 0x0D#6 (.cor (fld w 23 3) (fld w 20 3) (fld w 17 3))
  else if fld w 0 17 == 0x4000#17 then accept 0x0D#6 (.cxor (fld w 23 3) (fld w 20 3) (fld w 17 3))
  else if fld w 0 17 == 0x6000#17 then accept 0x0D#6 (.candn (fld w 23 3) (fld w 20 3) (fld w 17 3))
  else if fld w 0 20 == 0x8000#20 then accept 0x0D#6 (.cnot (fld w 23 3) (fld w 20 3))
  else if fld w 0 23 == 0xA000#23 then accept 0x0D#6 (.cset (fld w 23 3))
  else if fld w 0 23 == 0xC000#23 then accept 0x0D#6 (.cclr (fld w 23 3))
  else if fld w 0 20 == 0xE000#20 then accept 0x0D#6 (.cmov (fld w 23 3) (fld w 20 3))
  else .error (.unlisted 0x0D#6)

/-- Major 0x0E. -/
def decodeMajor0E (w : BitVec 32) : Except Reject Instr :=
  if fld w 22 1 == 0x0#1 then accept 0x0E#6 (.bc (fld w 23 3) (fld w 0 22))
  else if fld w 22 1 == 0x1#1 then accept 0x0E#6 (.bnc (fld w 23 3) (fld w 0 22))
  else .error (.unlisted 0x0E#6)

/-- Major 0x0F. -/
def decodeMajor0F (w : BitVec 32) : Except Reject Instr :=
  accept 0x0F#6 (.jal (fld w 21 5) (fld w 0 21))

/-- Major 0x10. -/
def decodeMajor10 (w : BitVec 32) : Except Reject Instr :=
  accept 0x10#6 (.jalr (fld w 21 5) (fld w 16 5) (fld w 0 16))

/-- Major 0x11. -/
def decodeMajor11 (w : BitVec 32) : Except Reject Instr :=
  if fld w 8 5 == 0x0#5 then accept 0x11#6 (.ld (fld w 21 5) (fld w 16 5) (fld w 13 3) (fld w 0 8))
  else if fld w 8 2 == 0x1#2 then accept 0x11#6 (.ldAcq (fld w 21 5) (fld w 16 5) (fld w 13 3) (fld w 10 3) (fld w 0 8))
  else if fld w 8 2 == 0x2#2 then accept 0x11#6 (.ldSc (fld w 21 5) (fld w 16 5) (fld w 13 3) (fld w 10 3) (fld w 0 8))
  else .error (.unlisted 0x11#6)

/-- Major 0x12. -/
def decodeMajor12 (w : BitVec 32) : Except Reject Instr :=
  if fld w 8 5 == 0x0#5 then accept 0x12#6 (.st (fld w 21 5) (fld w 16 5) (fld w 13 3) (fld w 0 8))
  else if fld w 8 2 == 0x1#2 then accept 0x12#6 (.stRel (fld w 21 5) (fld w 16 5) (fld w 13 3) (fld w 10 3) (fld w 0 8))
  else if fld w 8 2 == 0x2#2 then accept 0x12#6 (.stSc (fld w 21 5) (fld w 16 5) (fld w 13 3) (fld w 10 3) (fld w 0 8))
  else if fld w 8 5 == 0x3#5 then accept 0x12#6 (.stSw (fld w 21 5) (fld w 16 5) (fld w 13 3) (fld w 0 8))
  else .error (.unlisted 0x12#6)

/-- Major 0x13. -/
def decodeMajor13 (w : BitVec 32) : Except Reject Instr :=
  if fld w 0 4 == 0x0#4 then accept 0x13#6 (.amoadd (fld w 21 5) (fld w 16 5) (fld w 11 5) (fld w 8 3) (fld w 5 3) (fld w 4 1))
  else if fld w 0 4 == 0x1#4 then accept 0x13#6 (.amoand (fld w 21 5) (fld w 16 5) (fld w 11 5) (fld w 8 3) (fld w 5 3) (fld w 4 1))
  else if fld w 0 4 == 0x2#4 then accept 0x13#6 (.amoor (fld w 21 5) (fld w 16 5) (fld w 11 5) (fld w 8 3) (fld w 5 3) (fld w 4 1))
  else if fld w 0 4 == 0x3#4 then accept 0x13#6 (.amoxor (fld w 21 5) (fld w 16 5) (fld w 11 5) (fld w 8 3) (fld w 5 3) (fld w 4 1))
  else if fld w 0 4 == 0x4#4 then accept 0x13#6 (.amomin (fld w 21 5) (fld w 16 5) (fld w 11 5) (fld w 8 3) (fld w 5 3) (fld w 4 1))
  else if fld w 0 4 == 0x5#4 then accept 0x13#6 (.amomax (fld w 21 5) (fld w 16 5) (fld w 11 5) (fld w 8 3) (fld w 5 3) (fld w 4 1))
  else if fld w 0 4 == 0x6#4 then accept 0x13#6 (.amominu (fld w 21 5) (fld w 16 5) (fld w 11 5) (fld w 8 3) (fld w 5 3) (fld w 4 1))
  else if fld w 0 4 == 0x7#4 then accept 0x13#6 (.amomaxu (fld w 21 5) (fld w 16 5) (fld w 11 5) (fld w 8 3) (fld w 5 3) (fld w 4 1))
  else if fld w 0 4 == 0x8#4 then accept 0x13#6 (.amoswap (fld w 21 5) (fld w 16 5) (fld w 11 5) (fld w 8 3) (fld w 5 3) (fld w 4 1))
  else .error (.unlisted 0x13#6)

/-- Major 0x14. -/
def decodeMajor14 (w : BitVec 32) : Except Reject Instr :=
  if fld w 0 4 == 0x0#4 then accept 0x14#6 (.cas (fld w 21 5) (fld w 16 5) (fld w 11 5) (fld w 8 3) (fld w 5 3) (fld w 4 1))
  else .error (.unlisted 0x14#6)

/-- Major 0x15. -/
def decodeMajor15 (w : BitVec 32) : Except Reject Instr :=
  if fld w 7 19 == 0x0#19 && fld w 0 4 == 0x0#4 then accept 0x15#6 (.fenceRel (fld w 4 3))
  else if fld w 7 19 == 0x0#19 && fld w 0 4 == 0x1#4 then accept 0x15#6 (.fenceAcq (fld w 4 3))
  else if fld w 7 19 == 0x0#19 && fld w 0 4 == 0x2#4 then accept 0x15#6 (.fenceAr (fld w 4 3))
  else if fld w 0 26 == 0x3#26 then accept 0x15#6 .fenceSv
  else .error (.unlisted 0x15#6)

/-- Major 0x16. -/
def decodeMajor16 (w : BitVec 32) : Except Reject Instr :=
  if fld w 0 6 == 0x0#6 then accept 0x16#6 (.vadd (fld w 24 2) (fld w 19 5) (fld w 14 5) (fld w 9 5) (fld w 6 3))
  else if fld w 0 6 == 0x1#6 then accept 0x16#6 (.vsub (fld w 24 2) (fld w 19 5) (fld w 14 5) (fld w 9 5) (fld w 6 3))
  else if fld w 0 6 == 0x2#6 then accept 0x16#6 (.vrsub (fld w 24 2) (fld w 19 5) (fld w 14 5) (fld w 9 5) (fld w 6 3))
  else if fld w 0 6 == 0x3#6 then accept 0x16#6 (.vmul (fld w 24 2) (fld w 19 5) (fld w 14 5) (fld w 9 5) (fld w 6 3))
  else if fld w 0 6 == 0x4#6 then accept 0x16#6 (.vmulh (fld w 24 2) (fld w 19 5) (fld w 14 5) (fld w 9 5) (fld w 6 3))
  else if fld w 0 6 == 0x5#6 then accept 0x16#6 (.vdiv (fld w 24 2) (fld w 19 5) (fld w 14 5) (fld w 9 5) (fld w 6 3))
  else if fld w 0 6 == 0x6#6 then accept 0x16#6 (.vrem (fld w 24 2) (fld w 19 5) (fld w 14 5) (fld w 9 5) (fld w 6 3))
  else if fld w 0 6 == 0x7#6 then accept 0x16#6 (.vmin (fld w 24 2) (fld w 19 5) (fld w 14 5) (fld w 9 5) (fld w 6 3))
  else if fld w 0 6 == 0x8#6 then accept 0x16#6 (.vmax (fld w 24 2) (fld w 19 5) (fld w 14 5) (fld w 9 5) (fld w 6 3))
  else if fld w 24 2 == 0x0#2 && fld w 9 5 == 0x0#5 && fld w 0 6 == 0x9#6 then accept 0x16#6 (.vabs (fld w 19 5) (fld w 14 5) (fld w 6 3))
  else if fld w 24 2 == 0x0#2 && fld w 9 5 == 0x0#5 && fld w 0 6 == 0xA#6 then accept 0x16#6 (.vneg (fld w 19 5) (fld w 14 5) (fld w 6 3))
  else if fld w 0 6 == 0xB#6 then accept 0x16#6 (.vsadd (fld w 24 2) (fld w 19 5) (fld w 14 5) (fld w 9 5) (fld w 6 3))
  else if fld w 0 6 == 0xC#6 then accept 0x16#6 (.vssub (fld w 24 2) (fld w 19 5) (fld w 14 5) (fld w 9 5) (fld w 6 3))
  else .error (.unlisted 0x16#6)

/-- Major 0x17. -/
def decodeMajor17 (w : BitVec 32) : Except Reject Instr :=
  if fld w 0 6 == 0x0#6 then accept 0x17#6 (.vfma (fld w 24 2) (fld w 19 5) (fld w 14 5) (fld w 9 5) (fld w 6 3))
  else if fld w 0 6 == 0x1#6 then accept 0x17#6 (.vfms (fld w 24 2) (fld w 19 5) (fld w 14 5) (fld w 9 5) (fld w 6 3))
  else if fld w 0 6 == 0x2#6 then accept 0x17#6 (.vfnma (fld w 24 2) (fld w 19 5) (fld w 14 5) (fld w 9 5) (fld w 6 3))
  else if fld w 0 6 == 0x3#6 then accept 0x17#6 (.vfnms (fld w 24 2) (fld w 19 5) (fld w 14 5) (fld w 9 5) (fld w 6 3))
  else if fld w 0 6 == 0x4#6 then accept 0x17#6 (.vwmul (fld w 24 2) (fld w 19 5) (fld w 14 5) (fld w 9 5) (fld w 6 3))
  else .error (.unlisted 0x17#6)

/-- Major 0x18. -/
def decodeMajor18 (w : BitVec 32) : Except Reject Instr :=
  if fld w 0 6 == 0x0#6 then accept 0x18#6 (.vand (fld w 24 2) (fld w 19 5) (fld w 14 5) (fld w 9 5) (fld w 6 3))
  else if fld w 0 6 == 0x1#6 then accept 0x18#6 (.vor (fld w 24 2) (fld w 19 5) (fld w 14 5) (fld w 9 5) (fld w 6 3))
  else if fld w 0 6 == 0x2#6 then accept 0x18#6 (.vxor (fld w 24 2) (fld w 19 5) (fld w 14 5) (fld w 9 5) (fld w 6 3))
  else if fld w 24 2 == 0x0#2 && fld w 9 5 == 0x0#5 && fld w 0 6 == 0x3#6 then accept 0x18#6 (.vnot (fld w 19 5) (fld w 14 5) (fld w 6 3))
  else if fld w 0 6 == 0x4#6 then accept 0x18#6 (.vsll (fld w 24 2) (fld w 19 5) (fld w 14 5) (fld w 9 5) (fld w 6 3))
  else if fld w 0 6 == 0x5#6 then accept 0x18#6 (.vsrl (fld w 24 2) (fld w 19 5) (fld w 14 5) (fld w 9 5) (fld w 6 3))
  else if fld w 0 6 == 0x6#6 then accept 0x18#6 (.vsra (fld w 24 2) (fld w 19 5) (fld w 14 5) (fld w 9 5) (fld w 6 3))
  else if fld w 24 2 == 0x0#2 && fld w 9 5 == 0x0#5 && fld w 0 6 == 0x7#6 then accept 0x18#6 (.vpopc (fld w 19 5) (fld w 14 5) (fld w 6 3))
  else if fld w 24 2 == 0x0#2 && fld w 9 5 == 0x0#5 && fld w 0 6 == 0x8#6 then accept 0x18#6 (.vclz (fld w 19 5) (fld w 14 5) (fld w 6 3))
  else .error (.unlisted 0x18#6)

/-- Major 0x19. -/
def decodeMajor19 (w : BitVec 32) : Except Reject Instr :=
  if fld w 24 2 == 0x0#2 && fld w 9 5 == 0x0#5 && fld w 0 6 == 0x0#6 then accept 0x19#6 (.vrecip (fld w 19 5) (fld w 14 5) (fld w 6 3))
  else if fld w 24 2 == 0x0#2 && fld w 9 5 == 0x0#5 && fld w 0 6 == 0x1#6 then accept 0x19#6 (.vrsqrt (fld w 19 5) (fld w 14 5) (fld w 6 3))
  else if fld w 24 2 == 0x0#2 && fld w 9 5 == 0x0#5 && fld w 0 6 == 0x2#6 then accept 0x19#6 (.vsqrt (fld w 19 5) (fld w 14 5) (fld w 6 3))
  else if fld w 24 2 == 0x0#2 && fld w 9 5 == 0x0#5 && fld w 0 6 == 0x3#6 then accept 0x19#6 (.vexp2 (fld w 19 5) (fld w 14 5) (fld w 6 3))
  else if fld w 24 2 == 0x0#2 && fld w 9 5 == 0x0#5 && fld w 0 6 == 0x4#6 then accept 0x19#6 (.vlog2 (fld w 19 5) (fld w 14 5) (fld w 6 3))
  else if fld w 24 2 == 0x0#2 && fld w 9 5 == 0x0#5 && fld w 0 6 == 0x5#6 then accept 0x19#6 (.vtanh (fld w 19 5) (fld w 14 5) (fld w 6 3))
  else .error (.unlisted 0x19#6)

/-- Major 0x1A. -/
def decodeMajor1A (w : BitVec 32) : Except Reject Instr :=
  if fld w 22 2 == 0x0#2 && fld w 0 6 == 0x0#6 then accept 0x1A#6 (.vcmpEq (fld w 24 2) (fld w 19 3) (fld w 14 5) (fld w 9 5) (fld w 6 3))
  else if fld w 22 2 == 0x0#2 && fld w 0 6 == 0x1#6 then accept 0x1A#6 (.vcmpNe (fld w 24 2) (fld w 19 3) (fld w 14 5) (fld w 9 5) (fld w 6 3))
  else if fld w 22 2 == 0x0#2 && fld w 0 6 == 0x2#6 then accept 0x1A#6 (.vcmpLt (fld w 24 2) (fld w 19 3) (fld w 14 5) (fld w 9 5) (fld w 6 3))
  else if fld w 22 2 == 0x0#2 && fld w 0 6 == 0x3#6 then accept 0x1A#6 (.vcmpLe (fld w 24 2) (fld w 19 3) (fld w 14 5) (fld w 9 5) (fld w 6 3))
  else if fld w 22 2 == 0x0#2 && fld w 0 6 == 0x4#6 then accept 0x1A#6 (.vcmpGt (fld w 24 2) (fld w 19 3) (fld w 14 5) (fld w 9 5) (fld w 6 3))
  else if fld w 22 2 == 0x0#2 && fld w 0 6 == 0x5#6 then accept 0x1A#6 (.vcmpGe (fld w 24 2) (fld w 19 3) (fld w 14 5) (fld w 9 5) (fld w 6 3))
  else if fld w 22 2 == 0x0#2 && fld w 0 6 == 0x6#6 then accept 0x1A#6 (.vcmpUn (fld w 24 2) (fld w 19 3) (fld w 14 5) (fld w 9 5) (fld w 6 3))
  else .error (.unlisted 0x1A#6)

/-- Major 0x1B. -/
def decodeMajor1B (w : BitVec 32) : Except Reject Instr :=
  if fld w 22 4 == 0x0#4 && fld w 17 2 == 0x0#2 && fld w 12 2 == 0x0#2 && fld w 0 9 == 0x0#9 then accept 0x1B#6 (.mand (fld w 19 3) (fld w 14 3) (fld w 9 3))
  else if fld w 22 4 == 0x0#4 && fld w 17 2 == 0x0#2 && fld w 12 2 == 0x0#2 && fld w 0 9 == 0x1#9 then accept 0x1B#6 (.mor (fld w 19 3) (fld w 14 3) (fld w 9 3))
  else if fld w 22 4 == 0x0#4 && fld w 17 2 == 0x0#2 && fld w 12 2 == 0x0#2 && fld w 0 9 == 0x2#9 then accept 0x1B#6 (.mxor (fld w 19 3) (fld w 14 3) (fld w 9 3))
  else if fld w 22 4 == 0x0#4 && fld w 17 2 == 0x0#2 && fld w 12 2 == 0x0#2 && fld w 0 9 == 0x3#9 then accept 0x1B#6 (.mandn (fld w 19 3) (fld w 14 3) (fld w 9 3))
  else if fld w 22 4 == 0x0#4 && fld w 17 2 == 0x0#2 && fld w 0 14 == 0x4#14 then accept 0x1B#6 (.mnot (fld w 19 3) (fld w 14 3))
  else if fld w 22 4 == 0x0#4 && fld w 17 2 == 0x0#2 && fld w 0 14 == 0x5#14 then accept 0x1B#6 (.mmv (fld w 19 3) (fld w 14 3))
  else if fld w 22 4 == 0x0#4 && fld w 0 19 == 0x6#19 then accept 0x1B#6 (.mset (fld w 19 3))
  else if fld w 22 4 == 0x0#4 && fld w 0 19 == 0x7#19 then accept 0x1B#6 (.mclr (fld w 19 3))
  else if fld w 24 2 == 0x0#2 && fld w 17 2 == 0x0#2 && fld w 0 14 == 0x8#14 then accept 0x1B#6 (.mpopc (fld w 19 5) (fld w 14 3))
  else if fld w 24 2 == 0x0#2 && fld w 17 2 == 0x0#2 && fld w 0 14 == 0x9#14 then accept 0x1B#6 (.mfirst (fld w 19 5) (fld w 14 3))
  else if fld w 22 4 == 0x0#4 && fld w 17 2 == 0x0#2 && fld w 0 14 == 0xA#14 then accept 0x1B#6 (.many (fld w 19 3) (fld w 14 3))
  else if fld w 22 4 == 0x0#4 && fld w 17 2 == 0x0#2 && fld w 0 14 == 0xB#14 then accept 0x1B#6 (.mall (fld w 19 3) (fld w 14 3))
  else if fld w 24 2 == 0x0#2 && fld w 17 2 == 0x0#2 && fld w 0 14 == 0xC#14 then accept 0x1B#6 (.miota (fld w 19 5) (fld w 14 3))
  else if fld w 22 4 == 0x0#4 && fld w 0 19 == 0xD#19 then accept 0x1B#6 (.mcomp (fld w 19 3))
  else .error (.unlisted 0x1B#6)

/-- Major 0x1C. -/
def decodeMajor1C (w : BitVec 32) : Except Reject Instr :=
  if fld w 24 2 == 0x0#2 && fld w 12 2 == 0x0#2 && fld w 4 2 == 0x0#2 then accept 0x1C#6 (.vcvt (fld w 19 5) (fld w 14 5) (fld w 9 3) (fld w 6 3) (fld w 0 4))
  else if fld w 24 2 == 0x0#2 && fld w 12 2 == 0x0#2 && fld w 4 2 == 0x1#2 then accept 0x1C#6 (.vcvtSat (fld w 19 5) (fld w 14 5) (fld w 9 3) (fld w 6 3) (fld w 0 4))
  else if fld w 24 2 == 0x0#2 && fld w 4 2 == 0x2#2 then accept 0x1C#6 (.vcvtSr (fld w 19 5) (fld w 14 5) (fld w 9 5) (fld w 6 3) (fld w 0 4))
  else if fld w 24 2 == 0x0#2 && fld w 4 2 == 0x3#2 then accept 0x1C#6 (.vcvtSrSat (fld w 19 5) (fld w 14 5) (fld w 9 5) (fld w 6 3) (fld w 0 4))
  else .error (.unlisted 0x1C#6)

/-- Major 0x1D. -/
def decodeMajor1D (w : BitVec 32) : Except Reject Instr :=
  if fld w 24 2 == 0x0#2 && fld w 9 5 == 0x0#5 && fld w 0 6 == 0x0#6 then accept 0x1D#6 (.vredsum (fld w 19 5) (fld w 14 5) (fld w 6 3))
  else if fld w 24 2 == 0x0#2 && fld w 9 5 == 0x0#5 && fld w 0 6 == 0x1#6 then accept 0x1D#6 (.vredmax (fld w 19 5) (fld w 14 5) (fld w 6 3))
  else if fld w 24 2 == 0x0#2 && fld w 9 5 == 0x0#5 && fld w 0 6 == 0x2#6 then accept 0x1D#6 (.vredmin (fld w 19 5) (fld w 14 5) (fld w 6 3))
  else if fld w 24 2 == 0x0#2 && fld w 9 5 == 0x0#5 && fld w 0 6 == 0x3#6 then accept 0x1D#6 (.vredand (fld w 19 5) (fld w 14 5) (fld w 6 3))
  else if fld w 24 2 == 0x0#2 && fld w 9 5 == 0x0#5 && fld w 0 6 == 0x4#6 then accept 0x1D#6 (.vredor (fld w 19 5) (fld w 14 5) (fld w 6 3))
  else if fld w 24 2 == 0x0#2 && fld w 9 5 == 0x0#5 && fld w 0 6 == 0x5#6 then accept 0x1D#6 (.vredxor (fld w 19 5) (fld w 14 5) (fld w 6 3))
  else if fld w 24 2 == 0x0#2 && fld w 9 5 == 0x0#5 && fld w 0 6 == 0x8#6 then accept 0x1D#6 (.vscanSum (fld w 19 5) (fld w 14 5) (fld w 6 3))
  else if fld w 24 2 == 0x0#2 && fld w 9 5 == 0x0#5 && fld w 0 6 == 0x9#6 then accept 0x1D#6 (.vscanMax (fld w 19 5) (fld w 14 5) (fld w 6 3))
  else .error (.unlisted 0x1D#6)

/-- Major 0x1E. -/
def decodeMajor1E (w : BitVec 32) : Except Reject Instr :=
  if fld w 0 6 == 0x0#6 then accept 0x1E#6 (.vslideup (fld w 24 2) (fld w 19 5) (fld w 14 5) (fld w 9 5) (fld w 6 3))
  else if fld w 0 6 == 0x1#6 then accept 0x1E#6 (.vslidedn (fld w 24 2) (fld w 19 5) (fld w 14 5) (fld w 9 5) (fld w 6 3))
  else if fld w 24 2 == 0x0#2 && fld w 0 6 == 0x2#6 then accept 0x1E#6 (.vperm (fld w 19 5) (fld w 14 5) (fld w 9 5) (fld w 6 3))
  else if fld w 24 2 == 0x0#2 && fld w 9 5 == 0x0#5 && fld w 0 6 == 0x3#6 then accept 0x1E#6 (.vcompress (fld w 19 5) (fld w 14 5) (fld w 6 3))
  else if fld w 24 2 == 0x0#2 && fld w 9 5 == 0x0#5 && fld w 0 6 == 0x4#6 then accept 0x1E#6 (.vexpand (fld w 19 5) (fld w 14 5) (fld w 6 3))
  else if fld w 0 6 == 0x5#6 then accept 0x1E#6 (.vbcast (fld w 24 2) (fld w 19 5) (fld w 14 5) (fld w 9 5) (fld w 6 3))
  else if fld w 24 2 == 0x0#2 && fld w 9 5 == 0x0#5 && fld w 0 6 == 0x6#6 then accept 0x1E#6 (.vmv (fld w 19 5) (fld w 14 5) (fld w 6 3))
  else if fld w 24 2 == 0x0#2 && fld w 13 6 == 0x0#6 && fld w 0 6 == 0x7#6 then accept 0x1E#6 (.viota (fld w 19 5) (fld w 9 4) (fld w 6 3))
  else if fld w 0 9 == 0x8#9 then accept 0x1E#6 (.vmvx (fld w 24 2) (fld w 19 5) (fld w 14 5) (fld w 9 5))
  else if fld w 24 2 == 0x1#2 && fld w 14 5 == 0x0#5 && fld w 0 6 == 0x9#6 then accept 0x1E#6 (.vmvs (fld w 19 5) (fld w 9 5) (fld w 6 3))
  else .error (.unlisted 0x1E#6)

/-- Major 0x1F. -/
def decodeMajor1F (w : BitVec 32) : Except Reject Instr :=
  if fld w 22 4 == 0x0#4 && fld w 9 5 == 0x0#5 && fld w 0 6 == 0x0#6 then accept 0x1F#6 (.vnzb (fld w 19 3) (fld w 14 5) (fld w 6 3))
  else if fld w 24 2 == 0x0#2 && fld w 9 5 == 0x0#5 && fld w 0 6 == 0x1#6 then accept 0x1F#6 (.vbpop (fld w 19 5) (fld w 14 5) (fld w 6 3))
  else if fld w 24 2 == 0x0#2 && fld w 0 6 == 0x2#6 then accept 0x1F#6 (.vrank (fld w 19 5) (fld w 14 5) (fld w 9 5) (fld w 6 3))
  else if fld w 24 2 == 0x0#2 && fld w 0 6 == 0x3#6 then accept 0x1F#6 (.vxsect (fld w 19 5) (fld w 14 5) (fld w 9 5) (fld w 6 3))
  else .error (.unlisted 0x1F#6)

/-- Major 0x20. -/
def decodeMajor20 (w : BitVec 32) : Except Reject Instr :=
  if fld w 24 2 == 0x0#2 && fld w 13 1 == 0x0#1 && fld w 0 9 == 0x0#9 then accept 0x20#6 (.vsetvl (fld w 19 5) (fld w 14 5) (fld w 9 4))
  else if fld w 24 2 == 0x0#2 && fld w 13 6 == 0x0#6 && fld w 0 9 == 0x1#9 then accept 0x20#6 (.vcfg (fld w 19 5) (fld w 9 4))
  else if fld w 0 26 == 0x2#26 then accept 0x20#6 .vrel
  else if fld w 24 2 == 0x1#2 && fld w 14 5 == 0x0#5 && fld w 0 6 == 0x3#6 then accept 0x20#6 (.vrand (fld w 19 5) (fld w 9 5) (fld w 6 3))
  else .error (.unlisted 0x20#6)

/-- Major 0x21. -/
def decodeMajor21 (w : BitVec 32) : Except Reject Instr :=
  if fld w 11 5 == 0x0#5 && fld w 0 2 == 0x0#2 then accept 0x21#6 (.vld (fld w 21 5) (fld w 16 5) (fld w 8 3) (fld w 5 3) (fld w 3 2) (fld w 2 1))
  else if fld w 0 2 == 0x1#2 then accept 0x21#6 (.vldS (fld w 21 5) (fld w 16 5) (fld w 11 5) (fld w 8 3) (fld w 5 3) (fld w 3 2) (fld w 2 1))
  else .error (.unlisted 0x21#6)

/-- Major 0x22. -/
def decodeMajor22 (w : BitVec 32) : Except Reject Instr :=
  if fld w 11 5 == 0x0#5 && fld w 0 3 == 0x0#3 then accept 0x22#6 (.vst (fld w 21 5) (fld w 16 5) (fld w 8 3) (fld w 5 3) (fld w 3 2))
  else if fld w 0 3 == 0x1#3 then accept 0x22#6 (.vstS (fld w 21 5) (fld w 16 5) (fld w 11 5) (fld w 8 3) (fld w 5 3) (fld w 3 2))
  else .error (.unlisted 0x22#6)

/-- Major 0x23. -/
def decodeMajor23 (w : BitVec 32) : Except Reject Instr :=
  if fld w 0 2 == 0x0#2 then accept 0x23#6 (.vldx (fld w 21 5) (fld w 16 5) (fld w 11 5) (fld w 8 3) (fld w 5 3) (fld w 3 2) (fld w 2 1))
  else if fld w 0 3 == 0x1#3 then accept 0x23#6 (.vgll (fld w 21 5) (fld w 16 5) (fld w 11 5) (fld w 8 3) (fld w 5 3) (fld w 3 2))
  else .error (.unlisted 0x23#6)

/-- Major 0x24. -/
def decodeMajor24 (w : BitVec 32) : Except Reject Instr :=
  if fld w 0 3 == 0x0#3 then accept 0x24#6 (.vstx (fld w 21 5) (fld w 16 5) (fld w 11 5) (fld w 8 3) (fld w 5 3) (fld w 3 2))
  else if fld w 0 3 == 0x1#3 then accept 0x24#6 (.vscc (fld w 21 5) (fld w 16 5) (fld w 11 5) (fld w 8 3) (fld w 5 3) (fld w 3 2))
  else .error (.unlisted 0x24#6)

/-- Major 0x25. -/
def decodeMajor25 (w : BitVec 32) : Except Reject Instr :=
  if fld w 0 3 == 0x0#3 then accept 0x25#6 (.vamoAdd (fld w 21 5) (fld w 16 5) (fld w 11 5) (fld w 8 3) (fld w 5 3) (fld w 3 2))
  else if fld w 0 3 == 0x1#3 then accept 0x25#6 (.vamoAnd (fld w 21 5) (fld w 16 5) (fld w 11 5) (fld w 8 3) (fld w 5 3) (fld w 3 2))
  else if fld w 0 3 == 0x2#3 then accept 0x25#6 (.vamoOr (fld w 21 5) (fld w 16 5) (fld w 11 5) (fld w 8 3) (fld w 5 3) (fld w 3 2))
  else if fld w 0 3 == 0x3#3 then accept 0x25#6 (.vamoXor (fld w 21 5) (fld w 16 5) (fld w 11 5) (fld w 8 3) (fld w 5 3) (fld w 3 2))
  else if fld w 0 3 == 0x4#3 then accept 0x25#6 (.vamoMin (fld w 21 5) (fld w 16 5) (fld w 11 5) (fld w 8 3) (fld w 5 3) (fld w 3 2))
  else if fld w 0 3 == 0x5#3 then accept 0x25#6 (.vamoMax (fld w 21 5) (fld w 16 5) (fld w 11 5) (fld w 8 3) (fld w 5 3) (fld w 3 2))
  else if fld w 0 3 == 0x6#3 then accept 0x25#6 (.vamoSwap (fld w 21 5) (fld w 16 5) (fld w 11 5) (fld w 8 3) (fld w 5 3) (fld w 3 2))
  else if fld w 0 8 == 0x7#8 then accept 0x25#6 (.vfas (fld w 21 5) (fld w 16 5) (fld w 11 5) (fld w 8 3))
  else .error (.unlisted 0x25#6)

/-- Major 0x26. -/
def decodeMajor26 (w : BitVec 32) : Except Reject Instr :=
  if fld w 0 5 == 0x0#5 then accept 0x26#6 (.vwait (fld w 21 5) (fld w 16 5) (fld w 11 5) (fld w 8 3) (fld w 5 3))
  else if fld w 0 5 == 0x1#5 then accept 0x26#6 (.vwaitEq (fld w 21 5) (fld w 16 5) (fld w 11 5) (fld w 8 3) (fld w 5 3))
  else if fld w 0 5 == 0x2#5 then accept 0x26#6 (.vwaitNe (fld w 21 5) (fld w 16 5) (fld w 11 5) (fld w 8 3) (fld w 5 3))
  else .error (.unlisted 0x26#6)

/-- Major 0x27. -/
def decodeMajor27 (w : BitVec 32) : Except Reject Instr :=
  if fld w 3 5 == 0x0#5 && fld w 0 2 == 0x0#2 then accept 0x27#6 (.vxlt (fld w 21 5) (fld w 16 5) (fld w 11 5) (fld w 8 3) (fld w 2 1))
  else if fld w 3 5 == 0x0#5 && fld w 0 2 == 0x1#2 then accept 0x27#6 (.vxltW (fld w 21 5) (fld w 16 5) (fld w 11 5) (fld w 8 3) (fld w 2 1))
  else .error (.unlisted 0x27#6)

/-- Major 0x28. -/
def decodeMajor28 (w : BitVec 32) : Except Reject Instr :=
  if fld w 24 2 == 0x1#2 && fld w 0 6 == 0x0#6 then accept 0x28#6 (.vlin (fld w 19 5) (fld w 14 5) (fld w 9 5) (fld w 6 3))
  else if fld w 24 2 == 0x1#2 && fld w 0 6 == 0x1#6 then accept 0x28#6 (.vlinB (fld w 19 5) (fld w 14 5) (fld w 9 5) (fld w 6 3))
  else .error (.unlisted 0x28#6)

/-- Major 0x29. -/
def decodeMajor29 (w : BitVec 32) : Except Reject Instr :=
  if fld w 0 22 == 0x0#22 then accept 0x29#6 (.menter (fld w 22 4))
  else if fld w 0 26 == 0x1#26 then accept 0x29#6 .mexit
  else if fld w 0 22 == 0x2#22 then accept 0x29#6 (.mzero (fld w 22 4))
  else .error (.unlisted 0x29#6)

/-- Major 0x2A. -/
def decodeMajor2A (w : BitVec 32) : Except Reject Instr :=
  if fld w 0 3 == 0x0#3 then accept 0x2A#6 (.mopa (fld w 22 4) (fld w 17 5) (fld w 12 5) (fld w 8 4) (fld w 6 2) (fld w 3 3))
  else if fld w 0 3 == 0x1#3 then accept 0x2A#6 (.mopaRa (fld w 22 4) (fld w 17 5) (fld w 12 5) (fld w 8 4) (fld w 6 2) (fld w 3 3))
  else if fld w 6 2 == 0x0#2 && fld w 0 3 == 0x2#3 then accept 0x2A#6 (.mopaMx (fld w 22 4) (fld w 17 5) (fld w 12 5) (fld w 8 4) (fld w 3 3))
  else if fld w 6 2 == 0x0#2 && fld w 0 3 == 0x3#3 then accept 0x2A#6 (.mopaMxRa (fld w 22 4) (fld w 17 5) (fld w 12 5) (fld w 8 4) (fld w 3 3))
  else .error (.unlisted 0x2A#6)

/-- Major 0x2B. -/
def decodeMajor2B (w : BitVec 32) : Except Reject Instr :=
  if fld w 6 6 == 0x0#6 && fld w 0 3 == 0x0#3 then accept 0x2B#6 (.mrow (fld w 22 4) (fld w 17 5) (fld w 12 5) (fld w 3 3))
  else if fld w 6 6 == 0x0#6 && fld w 0 3 == 0x1#3 then accept 0x2B#6 (.mcol (fld w 22 4) (fld w 17 5) (fld w 12 5) (fld w 3 3))
  else if fld w 6 6 == 0x0#6 && fld w 0 3 == 0x2#3 then accept 0x2B#6 (.mputr (fld w 22 4) (fld w 17 5) (fld w 12 5) (fld w 3 3))
  else if fld w 6 6 == 0x0#6 && fld w 0 3 == 0x3#3 then accept 0x2B#6 (.mputc (fld w 22 4) (fld w 17 5) (fld w 12 5) (fld w 3 3))
  else if fld w 6 2 == 0x0#2 && fld w 0 3 == 0x4#3 then accept 0x2B#6 (.mcvt (fld w 22 4) (fld w 17 5) (fld w 12 5) (fld w 8 4) (fld w 3 3))
  else .error (.unlisted 0x2B#6)

/-- Major 0x2C. -/
def decodeMajor2C (w : BitVec 32) : Except Reject Instr :=
  if fld w 6 6 == 0x0#6 && fld w 0 3 == 0x0#3 then accept 0x2C#6 (.mld (fld w 22 4) (fld w 17 5) (fld w 12 5) (fld w 3 3))
  else if fld w 6 6 == 0x0#6 && fld w 0 3 == 0x1#3 then accept 0x2C#6 (.mst (fld w 22 4) (fld w 17 5) (fld w 12 5) (fld w 3 3))
  else .error (.unlisted 0x2C#6)

/-- Major 0x2D. -/
def decodeMajor2D (w : BitVec 32) : Except Reject Instr :=
  if fld w 0 2 == 0x0#2 then accept 0x2D#6 (.cpy (fld w 21 5) (fld w 16 5) (fld w 11 5) (fld w 5 6) (fld w 4 1) (fld w 2 2))
  else if fld w 14 2 == 0x0#2 && fld w 0 2 == 0x1#2 then accept 0x2D#6 (.cpyv (fld w 21 5) (fld w 16 5) (fld w 11 3) (fld w 5 6) (fld w 4 1) (fld w 2 2))
  else if fld w 0 2 == 0x2#2 then accept 0x2D#6 (.cpyc (fld w 21 5) (fld w 16 5) (fld w 11 5) (fld w 5 6) (fld w 4 1) (fld w 2 2))
  else if fld w 0 2 == 0x3#2 then accept 0x2D#6 (.cpycTb (fld w 21 5) (fld w 16 5) (fld w 11 5) (fld w 5 6) (fld w 4 1) (fld w 2 2))
  else .error (.unlisted 0x2D#6)

/-- Major 0x2E. -/
def decodeMajor2E (w : BitVec 32) : Except Reject Instr :=
  if fld w 21 5 == 0x0#5 && fld w 10 6 == 0x0#6 && fld w 0 5 == 0x0#5 then accept 0x2E#6 (.scfg (fld w 16 5) (fld w 7 3) (fld w 5 2))
  else if fld w 7 14 == 0x0#14 && fld w 0 5 == 0x1#5 then accept 0x2E#6 (.vlds (fld w 21 5) (fld w 5 2))
  else if fld w 7 19 == 0x0#19 && fld w 0 5 == 0x2#5 then accept 0x2E#6 (.sadv (fld w 5 2))
  else if fld w 7 19 == 0x0#19 && fld w 0 5 == 0x3#5 then accept 0x2E#6 (.sclose (fld w 5 2))
  else .error (.unlisted 0x2E#6)

/-- Major 0x2F. -/
def decodeMajor2F (w : BitVec 32) : Except Reject Instr :=
  if fld w 0 16 == 0x0#16 then accept 0x2F#6 (.twany (fld w 21 5) (fld w 16 5))
  else if fld w 21 5 == 0x0#5 && fld w 0 16 == 0x1#16 then accept 0x2F#6 (.twall (fld w 16 5))
  else if fld w 0 16 == 0x2#16 then accept 0x2F#6 (.tfind (fld w 21 5) (fld w 16 5))
  else if fld w 21 5 == 0x0#5 && fld w 0 16 == 0x3#16 then accept 0x2F#6 (.tclr (fld w 16 5))
  else if fld w 11 10 == 0x0#10 && fld w 0 5 == 0x4#5 then accept 0x2F#6 (.tstamp (fld w 21 5) (fld w 5 6))
  else .error (.unlisted 0x2F#6)

/-- Major 0x30. -/
def decodeMajor30 (w : BitVec 32) : Except Reject Instr :=
  if fld w 21 5 == 0x0#5 && fld w 8 3 == 0x0#3 && fld w 0 5 == 0x0#5 then accept 0x30#6 (.qbind (fld w 16 5) (fld w 11 5) (fld w 5 3))
  else if fld w 21 5 == 0x0#5 && fld w 8 8 == 0x0#8 && fld w 0 5 == 0x1#5 then accept 0x30#6 (.qpush (fld w 16 5) (fld w 5 3))
  else if fld w 8 13 == 0x0#13 && fld w 0 5 == 0x2#5 then accept 0x30#6 (.qpop (fld w 21 5) (fld w 5 3))
  else if fld w 8 13 == 0x0#13 && fld w 0 5 == 0x3#5 then accept 0x30#6 (.qstat (fld w 21 5) (fld w 5 3))
  else .error (.unlisted 0x30#6)

/-- Major 0x31. -/
def decodeMajor31 (w : BitVec 32) : Except Reject Instr :=
  if fld w 24 2 == 0x0#2 && fld w 9 7 == 0x0#7 && fld w 0 5 == 0x0#5 then accept 0x31#6 (.barinit (fld w 21 3) (fld w 16 5) (fld w 5 4))
  else if fld w 9 17 == 0x0#17 && fld w 0 5 == 0x1#5 then accept 0x31#6 (.barArrive (fld w 5 4))
  else if fld w 9 17 == 0x0#17 && fld w 0 5 == 0x2#5 then accept 0x31#6 (.barWait (fld w 5 4))
  else if fld w 9 17 == 0x0#17 && fld w 0 5 == 0x3#5 then accept 0x31#6 (.barSync (fld w 5 4))
  else if fld w 9 17 == 0x0#17 && fld w 0 5 == 0x4#5 then accept 0x31#6 (.barDrop (fld w 5 4))
  else .error (.unlisted 0x31#6)

/-- Major 0x32. -/
def decodeMajor32 (w : BitVec 32) : Except Reject Instr :=
  if fld w 21 5 == 0x0#5 && fld w 8 3 == 0x0#3 && fld w 0 5 == 0x0#5 then accept 0x32#6 (.sigadd (fld w 16 5) (fld w 11 5) (fld w 5 3))
  else .error (.unlisted 0x32#6)

/-- Major 0x33. -/
def decodeMajor33 (w : BitVec 32) : Except Reject Instr :=
  if fld w 0 26 == 0x0#26 then accept 0x33#6 .lsync
  else if fld w 0 26 == 0x1#26 then accept 0x33#6 .loff
  else if fld w 0 26 == 0x2#26 then accept 0x33#6 .lon
  else .error (.unlisted 0x33#6)

/-- Major 0x34. -/
noncomputable def decodeMajor34 (w : BitVec 32) : Except Reject Instr :=
  if fld w 0 5 == 0x0#5 then accept 0x34#6 (.tide (fld w 21 5) (fld w 16 5) (fld w 11 5) (fld w 5 6))
  else if fld w 0 21 == 0x1#21 then accept 0x34#6 (.tidewait (fld w 21 5))
  else if fld w 11 10 == 0x0#10 && fld w 0 5 == 0x2#5 then accept 0x34#6 (.tideq (fld w 21 5) (fld w 5 6))
  else .error (.unlisted 0x34#6)

/-- Major 0x35. -/
noncomputable def decodeMajor35 (w : BitVec 32) : Except Reject Instr :=
  if fld w 0 11 == 0x0#11 then accept 0x35#6 (.mapget (fld w 21 5) (fld w 16 5) (fld w 11 5))
  else if fld w 0 11 == 0x1#11 then accept 0x35#6 (.mapset (fld w 21 5) (fld w 16 5) (fld w 11 5))
  else if fld w 0 16 == 0x2#16 then accept 0x35#6 (.mapverAcq (fld w 21 5) (fld w 16 5))
  else if fld w 21 5 == 0x0#5 && fld w 0 16 == 0x3#16 then accept 0x35#6 (.mapverRel (fld w 16 5))
  else if fld w 21 5 == 0x0#5 && fld w 8 8 == 0x0#8 && fld w 0 5 == 0x4#5 then accept 0x35#6 (.mapverPub (fld w 16 5) (fld w 5 3))
  else .error (.unlisted 0x35#6)

/-- Major 0x36. -/
noncomputable def decodeMajor36 (w : BitVec 32) : Except Reject Instr :=
  if fld w 0 16 == 0x0#16 then accept 0x36#6 (.balloc (fld w 21 5) (fld w 16 5))
  else if fld w 21 5 == 0x0#5 && fld w 0 11 == 0x1#11 then accept 0x36#6 (.bfree (fld w 16 5) (fld w 11 5))
  else .error (.unlisted 0x36#6)

/-- Major 0x37. -/
noncomputable def decodeMajor37 (w : BitVec 32) : Except Reject Instr :=
  if fld w 0 11 == 0x0#11 then accept 0x37#6 (.swopen (fld w 21 5) (fld w 16 5) (fld w 11 5))
  else if fld w 24 2 == 0x0#2 && fld w 0 5 == 0x1#5 then accept 0x37#6 (.swcommit (fld w 21 3) (fld w 16 5) (fld w 11 5) (fld w 5 6))
  else if fld w 21 5 == 0x0#5 && fld w 0 16 == 0x2#16 then accept 0x37#6 (.swdrop (fld w 16 5))
  else if fld w 0 16 == 0x3#16 then accept 0x37#6 (.swstat (fld w 21 5) (fld w 16 5))
  else .error (.unlisted 0x37#6)

/-- Major 0x38. -/
noncomputable def decodeMajor38 (w : BitVec 32) : Except Reject Instr :=
  if fld w 0 11 == 0x0#11 then accept 0x38#6 (.lnset (fld w 21 5) (fld w 16 5) (fld w 11 5))
  else if fld w 0 11 == 0x1#11 then accept 0x38#6 (.lnget (fld w 21 5) (fld w 16 5) (fld w 11 5))
  else .error (.unlisted 0x38#6)

/-- Major 0x39. -/
noncomputable def decodeMajor39 (w : BitVec 32) : Except Reject Instr :=
  if fld w 21 5 == 0x0#5 && fld w 0 16 == 0x0#16 then accept 0x39#6 (.launch (fld w 16 5))
  else if fld w 21 5 == 0x0#5 && fld w 0 16 == 0x1#16 then accept 0x39#6 (.spawn (fld w 16 5))
  else if fld w 0 26 == 0x2#26 then accept 0x39#6 .yield
  else if fld w 0 26 == 0x3#26 then accept 0x39#6 .exit
  else if fld w 21 5 == 0x0#5 && fld w 0 16 == 0x4#16 then accept 0x39#6 (.resume (fld w 16 5))
  else .error (.unlisted 0x39#6)

/-- Major 0x3A. -/
noncomputable def decodeMajor3A (w : BitVec 32) : Except Reject Instr :=
  if fld w 16 5 == 0x0#5 && fld w 0 4 == 0x0#4 then accept 0x3A#6 (.crr (fld w 21 5) (fld w 4 12))
  else if fld w 21 5 == 0x0#5 && fld w 0 4 == 0x1#4 then accept 0x3A#6 (.crw (fld w 16 5) (fld w 4 12))
  else if fld w 21 5 == 0x0#5 && fld w 0 4 == 0x2#4 then accept 0x3A#6 (.crs (fld w 16 5) (fld w 4 12))
  else if fld w 21 5 == 0x0#5 && fld w 0 4 == 0x3#4 then accept 0x3A#6 (.crc (fld w 16 5) (fld w 4 12))
  else .error (.unlisted 0x3A#6)

/-- Major 0x3B. -/
noncomputable def decodeMajor3B (w : BitVec 32) : Except Reject Instr :=
  if fld w 21 5 == 0x0#5 && fld w 8 8 == 0x0#8 && fld w 0 5 == 0x0#5 then accept 0x3B#6 (.pref (fld w 16 5) (fld w 5 3))
  else if fld w 21 5 == 0x0#5 && fld w 8 3 == 0x0#3 && fld w 0 5 == 0x1#5 then accept 0x3B#6 (.flush (fld w 16 5) (fld w 11 5) (fld w 5 3))
  else if fld w 21 5 == 0x0#5 && fld w 8 3 == 0x0#3 && fld w 0 5 == 0x2#5 then accept 0x3B#6 (.discard (fld w 16 5) (fld w 11 5) (fld w 5 3))
  else if fld w 21 5 == 0x0#5 && fld w 0 11 == 0x3#11 then accept 0x3B#6 (.inv (fld w 16 5) (fld w 11 5))
  else if fld w 21 5 == 0x0#5 && fld w 8 8 == 0x0#8 && fld w 0 5 == 0x4#5 then accept 0x3B#6 (.xinv (fld w 16 5) (fld w 5 3))
  else .error (.unlisted 0x3B#6)

/-- Major 0x3C. -/
noncomputable def decodeMajor3C (w : BitVec 32) : Except Reject Instr :=
  if fld w 16 10 == 0x0#10 && fld w 0 4 == 0x0#4 then accept 0x3C#6 (.trap (fld w 4 12))
  else if fld w 0 26 == 0x1#26 then accept 0x3C#6 .tret
  else if fld w 0 26 == 0x2#26 then accept 0x3C#6 .wfi
  else if fld w 0 26 == 0x3#26 then accept 0x3C#6 .halt
  else .error (.unlisted 0x3C#6)

/-- The decoder: the major opcode alone chooses how the other bits are read (R21, R28). (The runtime cannot build a
constructor with fields past the 244th, so the compiler makes no code for it; the kernel evaluates it.) -/
noncomputable def decode (w : BitVec 32) : Except Reject Instr :=
  let major := fld w 26 6
  if major == 0x01#6 then decodeMajor01 w
  else if major == 0x02#6 then decodeMajor02 w
  else if major == 0x03#6 then decodeMajor03 w
  else if major == 0x04#6 then decodeMajor04 w
  else if major == 0x05#6 then decodeMajor05 w
  else if major == 0x06#6 then decodeMajor06 w
  else if major == 0x07#6 then decodeMajor07 w
  else if major == 0x08#6 then decodeMajor08 w
  else if major == 0x09#6 then decodeMajor09 w
  else if major == 0x0A#6 then decodeMajor0A w
  else if major == 0x0B#6 then decodeMajor0B w
  else if major == 0x0C#6 then decodeMajor0C w
  else if major == 0x0D#6 then decodeMajor0D w
  else if major == 0x0E#6 then decodeMajor0E w
  else if major == 0x0F#6 then decodeMajor0F w
  else if major == 0x10#6 then decodeMajor10 w
  else if major == 0x11#6 then decodeMajor11 w
  else if major == 0x12#6 then decodeMajor12 w
  else if major == 0x13#6 then decodeMajor13 w
  else if major == 0x14#6 then decodeMajor14 w
  else if major == 0x15#6 then decodeMajor15 w
  else if major == 0x16#6 then decodeMajor16 w
  else if major == 0x17#6 then decodeMajor17 w
  else if major == 0x18#6 then decodeMajor18 w
  else if major == 0x19#6 then decodeMajor19 w
  else if major == 0x1A#6 then decodeMajor1A w
  else if major == 0x1B#6 then decodeMajor1B w
  else if major == 0x1C#6 then decodeMajor1C w
  else if major == 0x1D#6 then decodeMajor1D w
  else if major == 0x1E#6 then decodeMajor1E w
  else if major == 0x1F#6 then decodeMajor1F w
  else if major == 0x20#6 then decodeMajor20 w
  else if major == 0x21#6 then decodeMajor21 w
  else if major == 0x22#6 then decodeMajor22 w
  else if major == 0x23#6 then decodeMajor23 w
  else if major == 0x24#6 then decodeMajor24 w
  else if major == 0x25#6 then decodeMajor25 w
  else if major == 0x26#6 then decodeMajor26 w
  else if major == 0x27#6 then decodeMajor27 w
  else if major == 0x28#6 then decodeMajor28 w
  else if major == 0x29#6 then decodeMajor29 w
  else if major == 0x2A#6 then decodeMajor2A w
  else if major == 0x2B#6 then decodeMajor2B w
  else if major == 0x2C#6 then decodeMajor2C w
  else if major == 0x2D#6 then decodeMajor2D w
  else if major == 0x2E#6 then decodeMajor2E w
  else if major == 0x2F#6 then decodeMajor2F w
  else if major == 0x30#6 then decodeMajor30 w
  else if major == 0x31#6 then decodeMajor31 w
  else if major == 0x32#6 then decodeMajor32 w
  else if major == 0x33#6 then decodeMajor33 w
  else if major == 0x34#6 then decodeMajor34 w
  else if major == 0x35#6 then decodeMajor35 w
  else if major == 0x36#6 then decodeMajor36 w
  else if major == 0x37#6 then decodeMajor37 w
  else if major == 0x38#6 then decodeMajor38 w
  else if major == 0x39#6 then decodeMajor39 w
  else if major == 0x3A#6 then decodeMajor3A w
  else if major == 0x3B#6 then decodeMajor3B w
  else if major == 0x3C#6 then decodeMajor3C w
  else if major == 0x3D#6 || major == 0x3E#6 then .error .reservedMajor
  else .error .illegalMajor

/-- The word of an encoded instruction, its fields placed as R24 and the tables of its chapter give them;
an event has no word. -/
def encode : Instr → Option (BitVec 32)
  | .add d a b => some (0x1#6 ++ d ++ a ++ b ++ 0x0#11)
  | .sub d a b => some (0x1#6 ++ d ++ a ++ b ++ 0x1#11)
  | .and d a b => some (0x1#6 ++ d ++ a ++ b ++ 0x2#11)
  | .or d a b => some (0x1#6 ++ d ++ a ++ b ++ 0x3#11)
  | .xor d a b => some (0x1#6 ++ d ++ a ++ b ++ 0x4#11)
  | .sll d a b => some (0x1#6 ++ d ++ a ++ b ++ 0x5#11)
  | .srl d a b => some (0x1#6 ++ d ++ a ++ b ++ 0x6#11)
  | .sra d a b => some (0x1#6 ++ d ++ a ++ b ++ 0x7#11)
  | .min d a b => some (0x1#6 ++ d ++ a ++ b ++ 0x8#11)
  | .max d a b => some (0x1#6 ++ d ++ a ++ b ++ 0x9#11)
  | .minu d a b => some (0x1#6 ++ d ++ a ++ b ++ 0xA#11)
  | .maxu d a b => some (0x1#6 ++ d ++ a ++ b ++ 0xB#11)
  | .sel d a b c => some (0x1#6 ++ d ++ a ++ b ++ c ++ 0xC#8)
  | .mul d a b => some (0x2#6 ++ d ++ a ++ b ++ 0x0#11)
  | .mulh d a b => some (0x2#6 ++ d ++ a ++ b ++ 0x1#11)
  | .mulhu d a b => some (0x2#6 ++ d ++ a ++ b ++ 0x2#11)
  | .div d a b => some (0x2#6 ++ d ++ a ++ b ++ 0x3#11)
  | .divu d a b => some (0x2#6 ++ d ++ a ++ b ++ 0x4#11)
  | .rem d a b => some (0x2#6 ++ d ++ a ++ b ++ 0x5#11)
  | .remu d a b => some (0x2#6 ++ d ++ a ++ b ++ 0x6#11)
  | .clz d a => some (0x2#6 ++ d ++ a ++ 0x7#16)
  | .ctz d a => some (0x2#6 ++ d ++ a ++ 0x8#16)
  | .popc d a => some (0x2#6 ++ d ++ a ++ 0x9#16)
  | .brev d a => some (0x2#6 ++ d ++ a ++ 0xA#16)
  | .fadd d a b p => some (0x3#6 ++ d ++ a ++ b ++ 0x0#6 ++ p ++ 0x0#4)
  | .fsub d a b p => some (0x3#6 ++ d ++ a ++ b ++ 0x0#6 ++ p ++ 0x1#4)
  | .fmul d a b p => some (0x3#6 ++ d ++ a ++ b ++ 0x0#6 ++ p ++ 0x2#4)
  | .fdiv d a b p => some (0x3#6 ++ d ++ a ++ b ++ 0x0#6 ++ p ++ 0x3#4)
  | .fsqrt d a p => some (0x3#6 ++ d ++ a ++ 0x0#11 ++ p ++ 0x4#4)
  | .fmin d a b p => some (0x3#6 ++ d ++ a ++ b ++ 0x0#6 ++ p ++ 0x5#4)
  | .fmax d a b p => some (0x3#6 ++ d ++ a ++ b ++ 0x0#6 ++ p ++ 0x6#4)
  | .fma d a b p => some (0x3#6 ++ d ++ a ++ b ++ 0x0#6 ++ p ++ 0x7#4)
  | .fcvtFi d a r p => some (0x3#6 ++ d ++ a ++ 0x0#5 ++ r ++ 0x0#3 ++ p ++ 0x8#4)
  | .fcvtFu d a r p => some (0x3#6 ++ d ++ a ++ 0x0#5 ++ r ++ 0x1#3 ++ p ++ 0x8#4)
  | .fcvtTi d a r p => some (0x3#6 ++ d ++ a ++ 0x0#5 ++ r ++ 0x2#3 ++ p ++ 0x8#4)
  | .fcvtTu d a r p => some (0x3#6 ++ d ++ a ++ 0x0#5 ++ r ++ 0x3#3 ++ p ++ 0x8#4)
  | .fcvtFx d a r p => some (0x3#6 ++ d ++ a ++ 0x0#5 ++ r ++ 0x4#3 ++ p ++ 0x8#4)
  | .fclass d a p => some (0x3#6 ++ d ++ a ++ 0x0#11 ++ p ++ 0x9#4)
  | .addi d a i => some (0x4#6 ++ d ++ a ++ i)
  | .andi d a i => some (0x5#6 ++ d ++ a ++ i)
  | .ori d a i => some (0x6#6 ++ d ++ a ++ i)
  | .xori d a i => some (0x7#6 ++ d ++ a ++ i)
  | .slli d a s => some (0x8#6 ++ d ++ a ++ 0x0#10 ++ s)
  | .srli d a s => some (0x8#6 ++ d ++ a ++ 0x1#10 ++ s)
  | .srai d a s => some (0x8#6 ++ d ++ a ++ 0x2#10 ++ s)
  | .lui d i => some (0x9#6 ++ d ++ i)
  | .aupc d i => some (0xA#6 ++ d ++ i)
  | .cmpEq d a b => some (0xB#6 ++ d ++ 0x0#4 ++ a ++ b ++ 0x0#9)
  | .cmpNe d a b => some (0xB#6 ++ d ++ 0x1#4 ++ a ++ b ++ 0x0#9)
  | .cmpLt d a b => some (0xB#6 ++ d ++ 0x2#4 ++ a ++ b ++ 0x0#9)
  | .cmpGe d a b => some (0xB#6 ++ d ++ 0x3#4 ++ a ++ b ++ 0x0#9)
  | .cmpLtu d a b => some (0xB#6 ++ d ++ 0x4#4 ++ a ++ b ++ 0x0#9)
  | .cmpGeu d a b => some (0xB#6 ++ d ++ 0x5#4 ++ a ++ b ++ 0x0#9)
  | .cmpFeq d a b k => some (0xB#6 ++ d ++ 0x6#4 ++ a ++ b ++ k ++ 0x0#7)
  | .cmpFlt d a b k => some (0xB#6 ++ d ++ 0x7#4 ++ a ++ b ++ k ++ 0x0#7)
  | .cmpFle d a b k => some (0xB#6 ++ d ++ 0x8#4 ++ a ++ b ++ k ++ 0x0#7)
  | .cmpFun d a b k => some (0xB#6 ++ d ++ 0x9#4 ++ a ++ b ++ k ++ 0x0#7)
  | .cmpiEq d a i => some (0xC#6 ++ d ++ 0x0#4 ++ a ++ i)
  | .cmpiNe d a i => some (0xC#6 ++ d ++ 0x1#4 ++ a ++ i)
  | .cmpiLt d a i => some (0xC#6 ++ d ++ 0x2#4 ++ a ++ i)
  | .cmpiGe d a i => some (0xC#6 ++ d ++ 0x3#4 ++ a ++ i)
  | .cmpiLtu d a i => some (0xC#6 ++ d ++ 0x4#4 ++ a ++ i)
  | .cmpiGeu d a i => some (0xC#6 ++ d ++ 0x5#4 ++ a ++ i)
  | .cand d a b => some (0xD#6 ++ d ++ a ++ b ++ 0x0#17)
  | .cor d a b => some (0xD#6 ++ d ++ a ++ b ++ 0x2000#17)
  | .cxor d a b => some (0xD#6 ++ d ++ a ++ b ++ 0x4000#17)
  | .candn d a b => some (0xD#6 ++ d ++ a ++ b ++ 0x6000#17)
  | .cnot d a => some (0xD#6 ++ d ++ a ++ 0x8000#20)
  | .cset d => some (0xD#6 ++ d ++ 0xA000#23)
  | .cclr d => some (0xD#6 ++ d ++ 0xC000#23)
  | .cmov d a => some (0xD#6 ++ d ++ a ++ 0xE000#20)
  | .bc c o => some (0xE#6 ++ c ++ 0x0#1 ++ o)
  | .bnc c o => some (0xE#6 ++ c ++ 0x1#1 ++ o)
  | .jal d o => some (0xF#6 ++ d ++ o)
  | .jalr d a i => some (0x10#6 ++ d ++ a ++ i)
  | .ld d a w i => some (0x11#6 ++ d ++ a ++ w ++ 0x0#5 ++ i)
  | .ldAcq d a w s i => some (0x11#6 ++ d ++ a ++ w ++ s ++ 0x1#2 ++ i)
  | .ldSc d a w s i => some (0x11#6 ++ d ++ a ++ w ++ s ++ 0x2#2 ++ i)
  | .st d a w i => some (0x12#6 ++ d ++ a ++ w ++ 0x0#5 ++ i)
  | .stRel d a w s i => some (0x12#6 ++ d ++ a ++ w ++ s ++ 0x1#2 ++ i)
  | .stSc d a w s i => some (0x12#6 ++ d ++ a ++ w ++ s ++ 0x2#2 ++ i)
  | .stSw d a w i => some (0x12#6 ++ d ++ a ++ w ++ 0x3#5 ++ i)
  | .amoadd d a b o s w => some (0x13#6 ++ d ++ a ++ b ++ o ++ s ++ w ++ 0x0#4)
  | .amoand d a b o s w => some (0x13#6 ++ d ++ a ++ b ++ o ++ s ++ w ++ 0x1#4)
  | .amoor d a b o s w => some (0x13#6 ++ d ++ a ++ b ++ o ++ s ++ w ++ 0x2#4)
  | .amoxor d a b o s w => some (0x13#6 ++ d ++ a ++ b ++ o ++ s ++ w ++ 0x3#4)
  | .amomin d a b o s w => some (0x13#6 ++ d ++ a ++ b ++ o ++ s ++ w ++ 0x4#4)
  | .amomax d a b o s w => some (0x13#6 ++ d ++ a ++ b ++ o ++ s ++ w ++ 0x5#4)
  | .amominu d a b o s w => some (0x13#6 ++ d ++ a ++ b ++ o ++ s ++ w ++ 0x6#4)
  | .amomaxu d a b o s w => some (0x13#6 ++ d ++ a ++ b ++ o ++ s ++ w ++ 0x7#4)
  | .amoswap d a b o s w => some (0x13#6 ++ d ++ a ++ b ++ o ++ s ++ w ++ 0x8#4)
  | .cas d a b o s w => some (0x14#6 ++ d ++ a ++ b ++ o ++ s ++ w ++ 0x0#4)
  | .fenceRel s => some (0x15#6 ++ 0x0#19 ++ s ++ 0x0#4)
  | .fenceAcq s => some (0x15#6 ++ 0x0#19 ++ s ++ 0x1#4)
  | .fenceAr s => some (0x15#6 ++ 0x0#19 ++ s ++ 0x2#4)
  | .fenceSv => some (0x15#6 ++ 0x3#26)
  | .vadd f d a b m => some (0x16#6 ++ f ++ d ++ a ++ b ++ m ++ 0x0#6)
  | .vsub f d a b m => some (0x16#6 ++ f ++ d ++ a ++ b ++ m ++ 0x1#6)
  | .vrsub f d a b m => some (0x16#6 ++ f ++ d ++ a ++ b ++ m ++ 0x2#6)
  | .vmul f d a b m => some (0x16#6 ++ f ++ d ++ a ++ b ++ m ++ 0x3#6)
  | .vmulh f d a b m => some (0x16#6 ++ f ++ d ++ a ++ b ++ m ++ 0x4#6)
  | .vdiv f d a b m => some (0x16#6 ++ f ++ d ++ a ++ b ++ m ++ 0x5#6)
  | .vrem f d a b m => some (0x16#6 ++ f ++ d ++ a ++ b ++ m ++ 0x6#6)
  | .vmin f d a b m => some (0x16#6 ++ f ++ d ++ a ++ b ++ m ++ 0x7#6)
  | .vmax f d a b m => some (0x16#6 ++ f ++ d ++ a ++ b ++ m ++ 0x8#6)
  | .vabs d a m => some (0x16#6 ++ 0x0#2 ++ d ++ a ++ 0x0#5 ++ m ++ 0x9#6)
  | .vneg d a m => some (0x16#6 ++ 0x0#2 ++ d ++ a ++ 0x0#5 ++ m ++ 0xA#6)
  | .vsadd f d a b m => some (0x16#6 ++ f ++ d ++ a ++ b ++ m ++ 0xB#6)
  | .vssub f d a b m => some (0x16#6 ++ f ++ d ++ a ++ b ++ m ++ 0xC#6)
  | .vfma f d a b m => some (0x17#6 ++ f ++ d ++ a ++ b ++ m ++ 0x0#6)
  | .vfms f d a b m => some (0x17#6 ++ f ++ d ++ a ++ b ++ m ++ 0x1#6)
  | .vfnma f d a b m => some (0x17#6 ++ f ++ d ++ a ++ b ++ m ++ 0x2#6)
  | .vfnms f d a b m => some (0x17#6 ++ f ++ d ++ a ++ b ++ m ++ 0x3#6)
  | .vwmul f d a b m => some (0x17#6 ++ f ++ d ++ a ++ b ++ m ++ 0x4#6)
  | .vand f d a b m => some (0x18#6 ++ f ++ d ++ a ++ b ++ m ++ 0x0#6)
  | .vor f d a b m => some (0x18#6 ++ f ++ d ++ a ++ b ++ m ++ 0x1#6)
  | .vxor f d a b m => some (0x18#6 ++ f ++ d ++ a ++ b ++ m ++ 0x2#6)
  | .vnot d a m => some (0x18#6 ++ 0x0#2 ++ d ++ a ++ 0x0#5 ++ m ++ 0x3#6)
  | .vsll f d a b m => some (0x18#6 ++ f ++ d ++ a ++ b ++ m ++ 0x4#6)
  | .vsrl f d a b m => some (0x18#6 ++ f ++ d ++ a ++ b ++ m ++ 0x5#6)
  | .vsra f d a b m => some (0x18#6 ++ f ++ d ++ a ++ b ++ m ++ 0x6#6)
  | .vpopc d a m => some (0x18#6 ++ 0x0#2 ++ d ++ a ++ 0x0#5 ++ m ++ 0x7#6)
  | .vclz d a m => some (0x18#6 ++ 0x0#2 ++ d ++ a ++ 0x0#5 ++ m ++ 0x8#6)
  | .vrecip d a m => some (0x19#6 ++ 0x0#2 ++ d ++ a ++ 0x0#5 ++ m ++ 0x0#6)
  | .vrsqrt d a m => some (0x19#6 ++ 0x0#2 ++ d ++ a ++ 0x0#5 ++ m ++ 0x1#6)
  | .vsqrt d a m => some (0x19#6 ++ 0x0#2 ++ d ++ a ++ 0x0#5 ++ m ++ 0x2#6)
  | .vexp2 d a m => some (0x19#6 ++ 0x0#2 ++ d ++ a ++ 0x0#5 ++ m ++ 0x3#6)
  | .vlog2 d a m => some (0x19#6 ++ 0x0#2 ++ d ++ a ++ 0x0#5 ++ m ++ 0x4#6)
  | .vtanh d a m => some (0x19#6 ++ 0x0#2 ++ d ++ a ++ 0x0#5 ++ m ++ 0x5#6)
  | .vcmpEq f d a b m => some (0x1A#6 ++ f ++ 0x0#2 ++ d ++ a ++ b ++ m ++ 0x0#6)
  | .vcmpNe f d a b m => some (0x1A#6 ++ f ++ 0x0#2 ++ d ++ a ++ b ++ m ++ 0x1#6)
  | .vcmpLt f d a b m => some (0x1A#6 ++ f ++ 0x0#2 ++ d ++ a ++ b ++ m ++ 0x2#6)
  | .vcmpLe f d a b m => some (0x1A#6 ++ f ++ 0x0#2 ++ d ++ a ++ b ++ m ++ 0x3#6)
  | .vcmpGt f d a b m => some (0x1A#6 ++ f ++ 0x0#2 ++ d ++ a ++ b ++ m ++ 0x4#6)
  | .vcmpGe f d a b m => some (0x1A#6 ++ f ++ 0x0#2 ++ d ++ a ++ b ++ m ++ 0x5#6)
  | .vcmpUn f d a b m => some (0x1A#6 ++ f ++ 0x0#2 ++ d ++ a ++ b ++ m ++ 0x6#6)
  | .mand d a b => some (0x1B#6 ++ 0x0#4 ++ d ++ 0x0#2 ++ a ++ 0x0#2 ++ b ++ 0x0#9)
  | .mor d a b => some (0x1B#6 ++ 0x0#4 ++ d ++ 0x0#2 ++ a ++ 0x0#2 ++ b ++ 0x1#9)
  | .mxor d a b => some (0x1B#6 ++ 0x0#4 ++ d ++ 0x0#2 ++ a ++ 0x0#2 ++ b ++ 0x2#9)
  | .mandn d a b => some (0x1B#6 ++ 0x0#4 ++ d ++ 0x0#2 ++ a ++ 0x0#2 ++ b ++ 0x3#9)
  | .mnot d a => some (0x1B#6 ++ 0x0#4 ++ d ++ 0x0#2 ++ a ++ 0x4#14)
  | .mmv d a => some (0x1B#6 ++ 0x0#4 ++ d ++ 0x0#2 ++ a ++ 0x5#14)
  | .mset d => some (0x1B#6 ++ 0x0#4 ++ d ++ 0x6#19)
  | .mclr d => some (0x1B#6 ++ 0x0#4 ++ d ++ 0x7#19)
  | .mpopc d a => some (0x1B#6 ++ 0x0#2 ++ d ++ 0x0#2 ++ a ++ 0x8#14)
  | .mfirst d a => some (0x1B#6 ++ 0x0#2 ++ d ++ 0x0#2 ++ a ++ 0x9#14)
  | .many d a => some (0x1B#6 ++ 0x0#4 ++ d ++ 0x0#2 ++ a ++ 0xA#14)
  | .mall d a => some (0x1B#6 ++ 0x0#4 ++ d ++ 0x0#2 ++ a ++ 0xB#14)
  | .miota d a => some (0x1B#6 ++ 0x0#2 ++ d ++ 0x0#2 ++ a ++ 0xC#14)
  | .mcomp d => some (0x1B#6 ++ 0x0#4 ++ d ++ 0xD#19)
  | .vcvt d a r m t => some (0x1C#6 ++ 0x0#2 ++ d ++ a ++ 0x0#2 ++ r ++ m ++ 0x0#2 ++ t)
  | .vcvtSat d a r m t => some (0x1C#6 ++ 0x0#2 ++ d ++ a ++ 0x0#2 ++ r ++ m ++ 0x1#2 ++ t)
  | .vcvtSr d a b m t => some (0x1C#6 ++ 0x0#2 ++ d ++ a ++ b ++ m ++ 0x2#2 ++ t)
  | .vcvtSrSat d a b m t => some (0x1C#6 ++ 0x0#2 ++ d ++ a ++ b ++ m ++ 0x3#2 ++ t)
  | .vredsum d a m => some (0x1D#6 ++ 0x0#2 ++ d ++ a ++ 0x0#5 ++ m ++ 0x0#6)
  | .vredmax d a m => some (0x1D#6 ++ 0x0#2 ++ d ++ a ++ 0x0#5 ++ m ++ 0x1#6)
  | .vredmin d a m => some (0x1D#6 ++ 0x0#2 ++ d ++ a ++ 0x0#5 ++ m ++ 0x2#6)
  | .vredand d a m => some (0x1D#6 ++ 0x0#2 ++ d ++ a ++ 0x0#5 ++ m ++ 0x3#6)
  | .vredor d a m => some (0x1D#6 ++ 0x0#2 ++ d ++ a ++ 0x0#5 ++ m ++ 0x4#6)
  | .vredxor d a m => some (0x1D#6 ++ 0x0#2 ++ d ++ a ++ 0x0#5 ++ m ++ 0x5#6)
  | .vscanSum d a m => some (0x1D#6 ++ 0x0#2 ++ d ++ a ++ 0x0#5 ++ m ++ 0x8#6)
  | .vscanMax d a m => some (0x1D#6 ++ 0x0#2 ++ d ++ a ++ 0x0#5 ++ m ++ 0x9#6)
  | .vslideup f d a b m => some (0x1E#6 ++ f ++ d ++ a ++ b ++ m ++ 0x0#6)
  | .vslidedn f d a b m => some (0x1E#6 ++ f ++ d ++ a ++ b ++ m ++ 0x1#6)
  | .vperm d a b m => some (0x1E#6 ++ 0x0#2 ++ d ++ a ++ b ++ m ++ 0x2#6)
  | .vcompress d a m => some (0x1E#6 ++ 0x0#2 ++ d ++ a ++ 0x0#5 ++ m ++ 0x3#6)
  | .vexpand d a m => some (0x1E#6 ++ 0x0#2 ++ d ++ a ++ 0x0#5 ++ m ++ 0x4#6)
  | .vbcast f d a b m => some (0x1E#6 ++ f ++ d ++ a ++ b ++ m ++ 0x5#6)
  | .vmv d a m => some (0x1E#6 ++ 0x0#2 ++ d ++ a ++ 0x0#5 ++ m ++ 0x6#6)
  | .viota d t m => some (0x1E#6 ++ 0x0#2 ++ d ++ 0x0#6 ++ t ++ m ++ 0x7#6)
  | .vmvx f d a b => some (0x1E#6 ++ f ++ d ++ a ++ b ++ 0x8#9)
  | .vmvs d b m => some (0x1E#6 ++ 0x1#2 ++ d ++ 0x0#5 ++ b ++ m ++ 0x9#6)
  | .vnzb d a m => some (0x1F#6 ++ 0x0#4 ++ d ++ a ++ 0x0#5 ++ m ++ 0x0#6)
  | .vbpop d a m => some (0x1F#6 ++ 0x0#2 ++ d ++ a ++ 0x0#5 ++ m ++ 0x1#6)
  | .vrank d a b m => some (0x1F#6 ++ 0x0#2 ++ d ++ a ++ b ++ m ++ 0x2#6)
  | .vxsect d a b m => some (0x1F#6 ++ 0x0#2 ++ d ++ a ++ b ++ m ++ 0x3#6)
  | .vsetvl d a t => some (0x20#6 ++ 0x0#2 ++ d ++ a ++ 0x0#1 ++ t ++ 0x0#9)
  | .vcfg d t => some (0x20#6 ++ 0x0#2 ++ d ++ 0x0#6 ++ t ++ 0x1#9)
  | .vrel => some (0x20#6 ++ 0x2#26)
  | .vrand d b m => some (0x20#6 ++ 0x1#2 ++ d ++ 0x0#5 ++ b ++ m ++ 0x3#6)
  | .vld d a m s o f => some (0x21#6 ++ d ++ a ++ 0x0#5 ++ m ++ s ++ o ++ f ++ 0x0#2)
  | .vldS d a b m s o f => some (0x21#6 ++ d ++ a ++ b ++ m ++ s ++ o ++ f ++ 0x1#2)
  | .vst d a m s o => some (0x22#6 ++ d ++ a ++ 0x0#5 ++ m ++ s ++ o ++ 0x0#3)
  | .vstS d a b m s o => some (0x22#6 ++ d ++ a ++ b ++ m ++ s ++ o ++ 0x1#3)
  | .vldx d a b m s o f => some (0x23#6 ++ d ++ a ++ b ++ m ++ s ++ o ++ f ++ 0x0#2)
  | .vgll d a b m s o => some (0x23#6 ++ d ++ a ++ b ++ m ++ s ++ o ++ 0x1#3)
  | .vstx d a b m s o => some (0x24#6 ++ d ++ a ++ b ++ m ++ s ++ o ++ 0x0#3)
  | .vscc d a b m s o => some (0x24#6 ++ d ++ a ++ b ++ m ++ s ++ o ++ 0x1#3)
  | .vamoAdd d a b m s o => some (0x25#6 ++ d ++ a ++ b ++ m ++ s ++ o ++ 0x0#3)
  | .vamoAnd d a b m s o => some (0x25#6 ++ d ++ a ++ b ++ m ++ s ++ o ++ 0x1#3)
  | .vamoOr d a b m s o => some (0x25#6 ++ d ++ a ++ b ++ m ++ s ++ o ++ 0x2#3)
  | .vamoXor d a b m s o => some (0x25#6 ++ d ++ a ++ b ++ m ++ s ++ o ++ 0x3#3)
  | .vamoMin d a b m s o => some (0x25#6 ++ d ++ a ++ b ++ m ++ s ++ o ++ 0x4#3)
  | .vamoMax d a b m s o => some (0x25#6 ++ d ++ a ++ b ++ m ++ s ++ o ++ 0x5#3)
  | .vamoSwap d a b m s o => some (0x25#6 ++ d ++ a ++ b ++ m ++ s ++ o ++ 0x6#3)
  | .vfas d a b m => some (0x25#6 ++ d ++ a ++ b ++ m ++ 0x7#8)
  | .vwait a x b m s => some (0x26#6 ++ a ++ x ++ b ++ m ++ s ++ 0x0#5)
  | .vwaitEq a x b m s => some (0x26#6 ++ a ++ x ++ b ++ m ++ s ++ 0x1#5)
  | .vwaitNe a x b m s => some (0x26#6 ++ a ++ x ++ b ++ m ++ s ++ 0x2#5)
  | .vxlt d a b m f => some (0x27#6 ++ d ++ a ++ b ++ m ++ 0x0#5 ++ f ++ 0x0#2)
  | .vxltW d a b m f => some (0x27#6 ++ d ++ a ++ b ++ m ++ 0x0#5 ++ f ++ 0x1#2)
  | .vlin v a b m => some (0x28#6 ++ 0x1#2 ++ v ++ a ++ b ++ m ++ 0x0#6)
  | .vlinB v a b m => some (0x28#6 ++ 0x1#2 ++ v ++ a ++ b ++ m ++ 0x1#6)
  | .menter n => some (0x29#6 ++ n ++ 0x0#22)
  | .mexit => some (0x29#6 ++ 0x1#26)
  | .mzero t => some (0x29#6 ++ t ++ 0x2#22)
  | .mopa t a b r s m => some (0x2A#6 ++ t ++ a ++ b ++ r ++ s ++ m ++ 0x0#3)
  | .mopaRa t a b r s m => some (0x2A#6 ++ t ++ a ++ b ++ r ++ s ++ m ++ 0x1#3)
  | .mopaMx t a b r m => some (0x2A#6 ++ t ++ a ++ b ++ r ++ 0x0#2 ++ m ++ 0x2#3)
  | .mopaMxRa t a b r m => some (0x2A#6 ++ t ++ a ++ b ++ r ++ 0x0#2 ++ m ++ 0x3#3)
  | .mrow t a b m => some (0x2B#6 ++ t ++ a ++ b ++ 0x0#6 ++ m ++ 0x0#3)
  | .mcol t a b m => some (0x2B#6 ++ t ++ a ++ b ++ 0x0#6 ++ m ++ 0x1#3)
  | .mputr t a b m => some (0x2B#6 ++ t ++ a ++ b ++ 0x0#6 ++ m ++ 0x2#3)
  | .mputc t a b m => some (0x2B#6 ++ t ++ a ++ b ++ 0x0#6 ++ m ++ 0x3#3)
  | .mcvt t a b k m => some (0x2B#6 ++ t ++ a ++ b ++ k ++ 0x0#2 ++ m ++ 0x4#3)
  | .mld t a b m => some (0x2C#6 ++ t ++ a ++ b ++ 0x0#6 ++ m ++ 0x0#3)
  | .mst t a b m => some (0x2C#6 ++ t ++ a ++ b ++ 0x0#6 ++ m ++ 0x1#3)
  | .cpy d a b g o s => some (0x2D#6 ++ d ++ a ++ b ++ g ++ o ++ s ++ 0x0#2)
  | .cpyv d a n g o s => some (0x2D#6 ++ d ++ a ++ 0x0#2 ++ n ++ g ++ o ++ s ++ 0x1#2)
  | .cpyc d a b g o s => some (0x2D#6 ++ d ++ a ++ b ++ g ++ o ++ s ++ 0x2#2)
  | .cpycTb d a b g o s => some (0x2D#6 ++ d ++ a ++ b ++ g ++ o ++ s ++ 0x3#2)
  | .scfg a s n => some (0x2E#6 ++ 0x0#5 ++ a ++ 0x0#6 ++ s ++ n ++ 0x0#5)
  | .vlds d n => some (0x2E#6 ++ d ++ 0x0#14 ++ n ++ 0x1#5)
  | .sadv n => some (0x2E#6 ++ 0x0#19 ++ n ++ 0x2#5)
  | .sclose n => some (0x2E#6 ++ 0x0#19 ++ n ++ 0x3#5)
  | .twany d a => some (0x2F#6 ++ d ++ a ++ 0x0#16)
  | .twall a => some (0x2F#6 ++ 0x0#5 ++ a ++ 0x1#16)
  | .tfind d a => some (0x2F#6 ++ d ++ a ++ 0x2#16)
  | .tclr a => some (0x2F#6 ++ 0x0#5 ++ a ++ 0x3#16)
  | .tstamp d g => some (0x2F#6 ++ d ++ 0x0#10 ++ g ++ 0x4#5)
  | .qbind a b q => some (0x30#6 ++ 0x0#5 ++ a ++ b ++ 0x0#3 ++ q ++ 0x0#5)
  | .qpush a q => some (0x30#6 ++ 0x0#5 ++ a ++ 0x0#8 ++ q ++ 0x1#5)
  | .qpop d q => some (0x30#6 ++ d ++ 0x0#13 ++ q ++ 0x2#5)
  | .qstat d q => some (0x30#6 ++ d ++ 0x0#13 ++ q ++ 0x3#5)
  | .barinit s a i => some (0x31#6 ++ 0x0#2 ++ s ++ a ++ 0x0#7 ++ i ++ 0x0#5)
  | .barArrive i => some (0x31#6 ++ 0x0#17 ++ i ++ 0x1#5)
  | .barWait i => some (0x31#6 ++ 0x0#17 ++ i ++ 0x2#5)
  | .barSync i => some (0x31#6 ++ 0x0#17 ++ i ++ 0x3#5)
  | .barDrop i => some (0x31#6 ++ 0x0#17 ++ i ++ 0x4#5)
  | .sigadd a b s => some (0x32#6 ++ 0x0#5 ++ a ++ b ++ 0x0#3 ++ s ++ 0x0#5)
  | .lsync => some (0x33#6 ++ 0x0#26)
  | .loff => some (0x33#6 ++ 0x1#26)
  | .lon => some (0x33#6 ++ 0x2#26)
  | .tide d a b n => some (0x34#6 ++ d ++ a ++ b ++ n ++ 0x0#5)
  | .tidewait d => some (0x34#6 ++ d ++ 0x1#21)
  | .tideq d s => some (0x34#6 ++ d ++ 0x0#10 ++ s ++ 0x2#5)
  | .mapget d a b => some (0x35#6 ++ d ++ a ++ b ++ 0x0#11)
  | .mapset h a b => some (0x35#6 ++ h ++ a ++ b ++ 0x1#11)
  | .mapverAcq d a => some (0x35#6 ++ d ++ a ++ 0x2#16)
  | .mapverRel a => some (0x35#6 ++ 0x0#5 ++ a ++ 0x3#16)
  | .mapverPub a s => some (0x35#6 ++ 0x0#5 ++ a ++ 0x0#8 ++ s ++ 0x4#5)
  | .balloc d a => some (0x36#6 ++ d ++ a ++ 0x0#16)
  | .bfree a b => some (0x36#6 ++ 0x0#5 ++ a ++ b ++ 0x1#11)
  | .swopen d a b => some (0x37#6 ++ d ++ a ++ b ++ 0x0#11)
  | .swcommit s a b g => some (0x37#6 ++ 0x0#2 ++ s ++ a ++ b ++ g ++ 0x1#5)
  | .swdrop a => some (0x37#6 ++ 0x0#5 ++ a ++ 0x2#16)
  | .swstat d a => some (0x37#6 ++ d ++ a ++ 0x3#16)
  | .lnset w a b => some (0x38#6 ++ w ++ a ++ b ++ 0x0#11)
  | .lnget d a b => some (0x38#6 ++ d ++ a ++ b ++ 0x1#11)
  | .launch a => some (0x39#6 ++ 0x0#5 ++ a ++ 0x0#16)
  | .spawn a => some (0x39#6 ++ 0x0#5 ++ a ++ 0x1#16)
  | .yield => some (0x39#6 ++ 0x2#26)
  | .exit => some (0x39#6 ++ 0x3#26)
  | .resume a => some (0x39#6 ++ 0x0#5 ++ a ++ 0x4#16)
  | .crr d n => some (0x3A#6 ++ d ++ 0x0#5 ++ n ++ 0x0#4)
  | .crw a n => some (0x3A#6 ++ 0x0#5 ++ a ++ n ++ 0x1#4)
  | .crs a n => some (0x3A#6 ++ 0x0#5 ++ a ++ n ++ 0x2#4)
  | .crc a n => some (0x3A#6 ++ 0x0#5 ++ a ++ n ++ 0x3#4)
  | .pref a s => some (0x3B#6 ++ 0x0#5 ++ a ++ 0x0#8 ++ s ++ 0x0#5)
  | .flush a b s => some (0x3B#6 ++ 0x0#5 ++ a ++ b ++ 0x0#3 ++ s ++ 0x1#5)
  | .discard a b s => some (0x3B#6 ++ 0x0#5 ++ a ++ b ++ 0x0#3 ++ s ++ 0x2#5)
  | .inv a b => some (0x3B#6 ++ 0x0#5 ++ a ++ b ++ 0x3#11)
  | .xinv a s => some (0x3B#6 ++ 0x0#5 ++ a ++ 0x0#8 ++ s ++ 0x4#5)
  | .trap i => some (0x3C#6 ++ 0x0#10 ++ i ++ 0x0#4)
  | .tret => some (0x3C#6 ++ 0x1#26)
  | .wfi => some (0x3C#6 ++ 0x2#26)
  | .halt => some (0x3C#6 ++ 0x3#26)
  | .faultPosting _ => none
  | .faultPostedInterrupt _ => none
  | .barrierGroupWake _ _ _ => none
  | .tidewaitOnset _ => none
  | .tideWindowStart _ => none
  | .tideWindowEnd _ => none
  | .tideIntervalEnd _ => none
  | .leadIssue _ => none
  | .copyComplete _ => none
  | .copyPushWake _ => none
  | .tagWaitWake _ => none
  | .streamFetchLand _ _ => none
  | .vldsWake _ => none
  | .swcommitPerform _ => none
  | .vwaitWake _ => none
  | .vwaitDeadline _ => none
  | .queueWake _ => none
  | .spawnWake _ => none
  | .wfiWake _ => none
  | .vsetvlLaneWake _ => none
  | .placement _ => none
  | .laneReclamation _ _ => none
  | .revokeDeadline _ => none
  | .preemption _ => none
  | .resumption _ _ => none
  | .agingPromotion _ _ _ => none
  | .partmvWrite _ => none
  | .partitionMoveComplete => none
  | .powerGood => none
  | .keavarTimeMessage _ => none
  | .timeBoundLoss => none
  | .remoteAccessTimeout _ _ => none
  | .ceideLaneFailure _ => none
  | .ceideRead _ _ => none
  | .ceideWrite _ _ => none
  | .ceideAtomicAdd _ _ => none
  | .mgmtStatus => none
  | .mgmtPartitionCreate _ => none
  | .mgmtPartitionDestroy _ => none
  | .mgmtRootChange _ _ => none
  | .mgmtStartDispatcher _ => none
  | .mgmtCounters _ => none
  | .counterSnapshot => none
  | .mgmtTideTotals _ => none
  | .mgmtAttestation _ => none
  | .mgmtFirmwareUpdate _ => none
  | .mgmtReset => none
  | .notAnInstruction _ => none
  | .fetchFault _ _ => none
  | .shoreTick => none
  | .keavarRemoteAccess _ => none

/-- The four bytes of a word, lowest address first (R21). -/
def wordBytes (w : BitVec 32) : List (BitVec 8) := [fld w 0 8, fld w 8 8, fld w 16 8, fld w 24 8]

/-- The word that four bytes hold (R21). -/
def bytesWord (b : List (BitVec 8)) : Option (BitVec 32) :=
  match b with
  | [b0, b1, b2, b3] => some (b3 ++ b2 ++ b1 ++ b0)
  | _ => none

/-- The decoder as the opcode table numbers bits: every instruction is one 32-bit word, so the bits above `nbits`
are zero and the word is `w` itself, stored little-endian and read back (R4, R21). -/
noncomputable def decodeTableWord (nbits w : Nat) : Option Instr :=
  match bytesWord (wordBytes (BitVec.ofNat 32 (w % 2 ^ nbits))) with
  | some word =>
    match decode word with
    | .ok i => some i
    | .error _ => none
  | none => none

end Sys2Proof
end

