-- ==== Sys2Proof/Machine/ScalarFp.lean ====
section
/-! DEFINITION. Scalar floating point (04_scalar_registers.md, R75-R79). -/

namespace Sys2Proof.Machine

/-- The mode a scalar floating instruction uses (R48, R76). -/
def State.mode (s : State) : Mode := Mode.ofFmode s.cur.fmode

/-- A floating result: xd boxed (R47), flags raised (R76). -/
def writeF (d : BitVec 5) (p : BitVec 1) (r : FRes) (s : State) : Result := writeX d (box p r.val) (s.raise r.fl)

/-- An operand in precision p (R47, R76). -/
def State.fx (s : State) (p : BitVec 1) (r : BitVec 5) : Nat := unbox p (s.x r)

/-- `fadd` (R76). -/
def execFadd (d a b : BitVec 5) (p : BitVec 1) (s : State) : Result :=
  writeF d p ((fmtOfP p).add s.mode (s.fx p a) (s.fx p b)) s

/-- `fsub` (R76). -/
def execFsub (d a b : BitVec 5) (p : BitVec 1) (s : State) : Result :=
  writeF d p ((fmtOfP p).sub s.mode (s.fx p a) (s.fx p b)) s

/-- `fmul` (R76). -/
def execFmul (d a b : BitVec 5) (p : BitVec 1) (s : State) : Result :=
  writeF d p ((fmtOfP p).mul s.mode (s.fx p a) (s.fx p b)) s

/-- `fdiv` (R76). -/
def execFdiv (d a b : BitVec 5) (p : BitVec 1) (s : State) : Result :=
  writeF d p ((fmtOfP p).div s.mode (s.fx p a) (s.fx p b)) s

/-- `fsqrt` (R76). -/
def execFsqrt (d a : BitVec 5) (p : BitVec 1) (s : State) : Result :=
  writeF d p ((fmtOfP p).sqrt s.mode (s.fx p a)) s

/-- `fmin` (R52, R76). -/
def execFmin (d a b : BitVec 5) (p : BitVec 1) (s : State) : Result :=
  writeF d p ((fmtOfP p).minmax s.mode false (s.fx p a) (s.fx p b)) s

/-- `fmax` (R52, R76). -/
def execFmax (d a b : BitVec 5) (p : BitVec 1) (s : State) : Result :=
  writeF d p ((fmtOfP p).minmax s.mode true (s.fx p a) (s.fx p b)) s

/-- `fma` (R76): the old xd is the addend and the third operand. -/
def execFma (d a b : BitVec 5) (p : BitVec 1) (s : State) : Result :=
  let f := fmtOfP p
  let v := fun r => f.read s.mode (s.fx p r)
  writeF d p (f.fmaVals s.mode false false (v a) (v b) (v d)) s

/-- The mode of a conversion: the rnd field, or `fmode.rm` for 000 (R75). -/
def State.cvtMode (s : State) (r : BitVec 3) : Mode :=
  if r = 0 then s.mode else { s.mode with rm := Rm.ofCode (r.toNat - 1) }

/-- `fcvt.fi` (R77). -/
def execFcvtFi (d a : BitVec 5) (r : BitVec 3) (p : BitVec 1) (s : State) : Result :=
  writeF d p ((fmtOfP p).ofInt (s.cvtMode r) (s.x a).toInt) s

/-- `fcvt.fu` (R77). -/
def execFcvtFu (d a : BitVec 5) (r : BitVec 3) (p : BitVec 1) (s : State) : Result :=
  writeF d p ((fmtOfP p).ofInt (s.cvtMode r) (s.x a).toNat) s

/-- Floating to integer (R77): DAZ applies to the source, NaN gives 0, out of range saturates with NV. -/
def floatToInt (lo hi : Int) (d a : BitVec 5) (r : BitVec 3) (p : BitVec 1) (s : State) : Result :=
  let (x, fl) := toIntSat (s.cvtMode r).rm lo hi ((fmtOfP p).read s.mode (s.fx p a))
  writeX d (BitVec.ofInt 64 x) (s.raise fl)

/-- `fcvt.ti` (R77). -/
def execFcvtTi (d a : BitVec 5) (r : BitVec 3) (p : BitVec 1) (s : State) : Result :=
  floatToInt (-2 ^ 63) (2 ^ 63 - 1) d a r p s

/-- `fcvt.tu` (R77). -/
def execFcvtTu (d a : BitVec 5) (r : BitVec 3) (p : BitVec 1) (s : State) : Result :=
  floatToInt 0 (2 ^ 64 - 1) d a r p s

/-- `fcvt.fx` (R77): p names the destination. -/
def execFcvtFx (d a : BitVec 5) (r : BitVec 3) (p : BitVec 1) (s : State) : Result :=
  writeF d p (Fmt.convert (fmtOfP (~~~p)) (fmtOfP p) (s.cvtMode r) (s.fx (~~~p) a)) s

/-- `fclass` (R78): no DAZ, no flag. -/
def execFclass (d a : BitVec 5) (p : BitVec 1) (s : State) : Result :=
  writeX d (BitVec.ofNat 64 (classWord (fmtOfP p) (s.fx p a))) s

/-- A floating compare (R79): kind 01 is `.s`, 10 is `.d`. -/
def State.fcmp (s : State) (k : BitVec 2) (a b : BitVec 5) : FCmp :=
  let p : BitVec 1 := if k = 1 then 0 else 1
  (fmtOfP p).cmp s.mode (s.fx p a) (s.fx p b)

/-- `cmp.feq` (R79). -/
def execCmpFeq (d : BitVec 3) (a b : BitVec 5) (k : BitVec 2) (s : State) : Result :=
  let c := s.fcmp k a b
  writeC d c.eq (s.raise (if c.snan then flNV else 0))

/-- `cmp.flt` (R79). -/
def execCmpFlt (d : BitVec 3) (a b : BitVec 5) (k : BitVec 2) (s : State) : Result :=
  let c := s.fcmp k a b
  writeC d c.lt (s.raise (if c.un then flNV else 0))

/-- `cmp.fle` (R79). -/
def execCmpFle (d : BitVec 3) (a b : BitVec 5) (k : BitVec 2) (s : State) : Result :=
  let c := s.fcmp k a b
  writeC d (c.lt || c.eq) (s.raise (if c.un then flNV else 0))

/-- `cmp.fun` (R79). -/
def execCmpFun (d : BitVec 3) (a b : BitVec 5) (k : BitVec 2) (s : State) : Result :=
  let c := s.fcmp k a b
  writeC d c.un (s.raise (if c.snan then flNV else 0))

end Sys2Proof.Machine
end

