-- ==== Sys2Proof/Machine/ScalarMem.lean ====
section
/-! DEFINITION. Scalar loads, stores, atomics and fences (12_memory_instructions.md, R208-R215). -/

namespace Sys2Proof.Machine

/-- Bytes of an SM width code (R27). -/
def smBytes (w : BitVec 3) : Nat := 2 ^ (w.toNat % 4)

/-- The value a load gives its register (R209, R27). -/
def smExtend (w : BitVec 3) (v : Nat) : Word :=
  if w.toNat < 4 then BitVec.ofInt 64 (signed (8 * smBytes w) v) else BitVec.ofNat 64 v

/-- The address of an LD or ST (R209, R210). -/
def smAddress (s : State) (a : BitVec 5) (w : BitVec 3) (i : BitVec 8) : Word :=
  s.x a + sext i * BitVec.ofNat 64 (smBytes w)

/-- The alignment check of a scalar access (R209, R213). -/
def aligned (va : Word) (n : Nat) : M Unit := need (va.toNat % n == 0) 0x03 va

/-- LD (R209, R194): the scope of an acquiring load, and whether it is sequentially consistent. DESIGN CHOICE
(notes/assumptions/40.md): an `.sc` load releases before its address is translated, a store or an atomic after, so that where both
would trap the load reports the release's error and the others the translation's. -/
def loadScalar (d a : BitVec 5) (w : BitVec 3) (i : BitVec 8) (scope : Option Nat) (sc : Bool) : M Unit := do
  let va := smAddress (← get) a w i
  aligned va (smBytes w)
  if sc then releaseM (scope.getD 0)
  let v ← memRead va (smBytes w) (if sc then .home else .plain)
  if sc then ticketM
  modCur fun h => h.setX d (smExtend w v)
  match scope with
  | some k => acquireM k
  | none => pure ()
  retireM

/-- ST (R210, R194): the scope of a releasing store, whether it is sequentially consistent, and whether it is `.sw`. -/
def storeScalar (d a : BitVec 5) (w : BitVec 3) (i : BitVec 8) (scope : Option Nat) (sc sw : Bool) : M Unit := do
  let s ← get
  let va := smAddress s a w i
  aligned va (smBytes w)
  need (!sw || s.cur.cw.getLsbD 4) 0x07 va
  let p ← xlateM (s.cur.agent s.cur.cw) (if sw then .window else .write) va
  if sc then ticketM
  match scope with
  | some k => releaseM k
  | none => pure ()
  writePhys p (leBytes (smBytes w) (s.x d).toNat) sc va
  if sc then acquireM (scope.getD 0)
  retireM

/-- `ld` (R209). -/
def execLd (d a : BitVec 5) (w : BitVec 3) (i : BitVec 8) (s : State) : Result := finish (loadScalar d a w i none false) s

/-- `ld.acq` (R209, R195). -/
def execLdAcq (d a : BitVec 5) (w k : BitVec 3) (i : BitVec 8) (s : State) : Result :=
  finish (loadScalar d a w i (some k.toNat) false) s

/-- `ld.sc` (R209, R194). -/
def execLdSc (d a : BitVec 5) (w k : BitVec 3) (i : BitVec 8) (s : State) : Result :=
  finish (loadScalar d a w i (some k.toNat) true) s

/-- `st` (R210). -/
def execSt (d a : BitVec 5) (w : BitVec 3) (i : BitVec 8) (s : State) : Result :=
  finish (storeScalar d a w i none false false) s

/-- `st.rel` (R210, R195). -/
def execStRel (d a : BitVec 5) (w k : BitVec 3) (i : BitVec 8) (s : State) : Result :=
  finish (storeScalar d a w i (some k.toNat) false false) s

/-- `st.sc` (R210, R194). -/
def execStSc (d a : BitVec 5) (w k : BitVec 3) (i : BitVec 8) (s : State) : Result :=
  finish (storeScalar d a w i (some k.toNat) true false) s

/-- `st.sw` (R210, R335). -/
def execStSw (d a : BitVec 5) (w : BitVec 3) (i : BitVec 8) (s : State) : Result :=
  finish (storeScalar d a w i none false true) s

/-- Does the order code release, acquire, draw a ticket (R212)? -/
def orderReleases (o : BitVec 3) : Bool := o == 2 || o == 3 || o == 4

/-- Order codes with an acquire (R212). -/
def orderAcquires (o : BitVec 3) : Bool := o == 1 || o == 3 || o == 4

/-- AMO and CAS (R213, R214): `f` gives the new value, if there is one, from the old one. -/
def atomicScalar (d a : BitVec 5) (o k : BitVec 3) (w : BitVec 1) (f : Nat → Nat → Option Nat) : M Unit := do
  let s ← get
  let n := 4 * (w.toNat + 1)
  let va := s.x a
  aligned va n
  let p ← xlateM (s.cur.agent s.cur.cw) .atomic va
  if o = 4 then ticketM
  if orderReleases o then releaseM k.toNat
  let old ← scalarAtomic p n (f (8 * n)) va
  modCur fun h => h.setX d (BitVec.ofInt 64 (signed (8 * n) old))
  if orderAcquires o then acquireM k.toNat
  retireM

/-- The operations of R212 at `n` bits: `old` and `b` are below 2^n. -/
def amoOp (op n old b : Nat) : Nat :=
  match op with
  | 0 => (old + b) % 2 ^ n
  | 1 => old &&& b
  | 2 => old ||| b
  | 3 => old ^^^ b
  | 4 => if signed n old ≤ signed n b then old else b
  | 5 => if signed n old ≤ signed n b then b else old
  | 6 => min old b
  | 7 => max old b
  | _ => b

/-- An AMO with operation `op` (R212, R213). -/
def amo (op : Nat) (d a b : BitVec 5) (o k : BitVec 3) (w : BitVec 1) (s : State) : Result :=
  finish (atomicScalar d a o k w fun n old => some (amoOp op n old ((s.x b).toNat % 2 ^ n))) s

/-- `amoadd` (R212). -/
def execAmoadd (d a b : BitVec 5) (o k : BitVec 3) (w : BitVec 1) (s : State) : Result := amo 0 d a b o k w s

/-- `amoand` (R212). -/
def execAmoand (d a b : BitVec 5) (o k : BitVec 3) (w : BitVec 1) (s : State) : Result := amo 1 d a b o k w s

/-- `amoor` (R212). -/
def execAmoor (d a b : BitVec 5) (o k : BitVec 3) (w : BitVec 1) (s : State) : Result := amo 2 d a b o k w s

/-- `amoxor` (R212). -/
def execAmoxor (d a b : BitVec 5) (o k : BitVec 3) (w : BitVec 1) (s : State) : Result := amo 3 d a b o k w s

/-- `amomin` (R212). -/
def execAmomin (d a b : BitVec 5) (o k : BitVec 3) (w : BitVec 1) (s : State) : Result := amo 4 d a b o k w s

/-- `amomax` (R212). -/
def execAmomax (d a b : BitVec 5) (o k : BitVec 3) (w : BitVec 1) (s : State) : Result := amo 5 d a b o k w s

/-- `amominu` (R212). -/
def execAmominu (d a b : BitVec 5) (o k : BitVec 3) (w : BitVec 1) (s : State) : Result := amo 6 d a b o k w s

/-- `amomaxu` (R212). -/
def execAmomaxu (d a b : BitVec 5) (o k : BitVec 3) (w : BitVec 1) (s : State) : Result := amo 7 d a b o k w s

/-- `amoswap` (R212). -/
def execAmoswap (d a b : BitVec 5) (o k : BitVec 3) (w : BitVec 1) (s : State) : Result := amo 8 d a b o k w s

/-- `cas` (R214): xd holds the expected value. -/
def execCas (d a b : BitVec 5) (o k : BitVec 3) (w : BitVec 1) (s : State) : Result :=
  finish (atomicScalar d a o k w fun n old =>
    if old = (s.x d).toNat % 2 ^ n then some ((s.x b).toNat % 2 ^ n) else none) s

/-- `fence.rel` (R196). -/
def execFenceRel (k : BitVec 3) (s : State) : Result :=
  finish (do
    releaseM k.toNat
    retireM) s

/-- `fence.acq` (R196). -/
def execFenceAcq (k : BitVec 3) (s : State) : Result := .next (s.acquire k.toNat).retire

/-- `fence.ar` (R196): removes R191 too. -/
def execFenceAr (k : BitVec 3) (s : State) : Result :=
  finish (do
    releaseM k.toNat
    acquireM k.toNat
    modCur fun h => { h with early := [] }
    retireM) s

/-- `fence.sv` (R196): it waits for the hart's scalar writes and removes R191. -/
def execFenceSv (s : State) : Result :=
  finish (do
    awaitWrites false 0
    modCur fun h => { h with early := [] }
    retireM) s

end Sys2Proof.Machine
end

