-- ==== Sys2Proof/Machine/Lead.lean ====
section
/-! DEFINITION. The lead hart (13_lead_queues.md, R235-R244): one step of it. It reads memory and fills caches and the delay
buffer; nothing that it does changes a register or memory of its trailing hart (R17). -/

namespace Sys2Proof.Machine

/-- An instruction that the lead executes (R236): the registers that it reads, and its meaning. -/
structure LeadExec where
  x : List (BitVec 5)
  c : List (BitVec 3)
  run : State → Result

/-- XOP, XMUL, ADDI to AUPC, CMP, CMPI and CLOG, which the lead executes (R236). -/
def leadExec : Instr → Option LeadExec
  | .add d a b => some ⟨[a, b], [], execAdd d a b⟩
  | .sub d a b => some ⟨[a, b], [], execSub d a b⟩
  | .and d a b => some ⟨[a, b], [], execAnd d a b⟩
  | .or d a b => some ⟨[a, b], [], execOr d a b⟩
  | .xor d a b => some ⟨[a, b], [], execXor d a b⟩
  | .sll d a b => some ⟨[a, b], [], execSll d a b⟩
  | .srl d a b => some ⟨[a, b], [], execSrl d a b⟩
  | .sra d a b => some ⟨[a, b], [], execSra d a b⟩
  | .min d a b => some ⟨[a, b], [], execMin d a b⟩
  | .max d a b => some ⟨[a, b], [], execMax d a b⟩
  | .minu d a b => some ⟨[a, b], [], execMinu d a b⟩
  | .maxu d a b => some ⟨[a, b], [], execMaxu d a b⟩
  | .sel d a b c => some ⟨[a, b], [c], execSel d a b c⟩
  | .mul d a b => some ⟨[a, b], [], execMul d a b⟩
  | .mulh d a b => some ⟨[a, b], [], execMulh d a b⟩
  | .mulhu d a b => some ⟨[a, b], [], execMulhu d a b⟩
  | .div d a b => some ⟨[a, b], [], execDiv d a b⟩
  | .divu d a b => some ⟨[a, b], [], execDivu d a b⟩
  | .rem d a b => some ⟨[a, b], [], execRem d a b⟩
  | .remu d a b => some ⟨[a, b], [], execRemu d a b⟩
  | .clz d a => some ⟨[a], [], execClz d a⟩
  | .ctz d a => some ⟨[a], [], execCtz d a⟩
  | .popc d a => some ⟨[a], [], execPopc d a⟩
  | .brev d a => some ⟨[a], [], execBrev d a⟩
  | .addi d a i => some ⟨[a], [], execAddi d a i⟩
  | .andi d a i => some ⟨[a], [], execAndi d a i⟩
  | .ori d a i => some ⟨[a], [], execOri d a i⟩
  | .xori d a i => some ⟨[a], [], execXori d a i⟩
  | .slli d a n => some ⟨[a], [], execSlli d a n⟩
  | .srli d a n => some ⟨[a], [], execSrli d a n⟩
  | .srai d a n => some ⟨[a], [], execSrai d a n⟩
  | .lui d i => some ⟨[], [], execLui d i⟩
  | .aupc d i => some ⟨[], [], execAupc d i⟩
  | .cmpEq d a b => some ⟨[a, b], [], execCmpEq d a b⟩
  | .cmpNe d a b => some ⟨[a, b], [], execCmpNe d a b⟩
  | .cmpLt d a b => some ⟨[a, b], [], execCmpLt d a b⟩
  | .cmpGe d a b => some ⟨[a, b], [], execCmpGe d a b⟩
  | .cmpLtu d a b => some ⟨[a, b], [], execCmpLtu d a b⟩
  | .cmpGeu d a b => some ⟨[a, b], [], execCmpGeu d a b⟩
  | .cmpFeq d a b k => some ⟨[a, b], [], execCmpFeq d a b k⟩
  | .cmpFlt d a b k => some ⟨[a, b], [], execCmpFlt d a b k⟩
  | .cmpFle d a b k => some ⟨[a, b], [], execCmpFle d a b k⟩
  | .cmpFun d a b k => some ⟨[a, b], [], execCmpFun d a b k⟩
  | .cmpiEq d a i => some ⟨[a], [], execCmpiEq d a i⟩
  | .cmpiNe d a i => some ⟨[a], [], execCmpiNe d a i⟩
  | .cmpiLt d a i => some ⟨[a], [], execCmpiLt d a i⟩
  | .cmpiGe d a i => some ⟨[a], [], execCmpiGe d a i⟩
  | .cmpiLtu d a i => some ⟨[a], [], execCmpiLtu d a i⟩
  | .cmpiGeu d a i => some ⟨[a], [], execCmpiGeu d a i⟩
  | .cand d a b => some ⟨[], [a, b], execCand d a b⟩
  | .cor d a b => some ⟨[], [a, b], execCor d a b⟩
  | .cxor d a b => some ⟨[], [a, b], execCxor d a b⟩
  | .candn d a b => some ⟨[], [a, b], execCandn d a b⟩
  | .cnot d a => some ⟨[], [a], execCnot d a⟩
  | .cset d => some ⟨[], [], execCset d⟩
  | .cclr d => some ⟨[], [], execCclr d⟩
  | .cmov d a => some ⟨[], [a], execCmov d a⟩
  | _ => none

/-- The registers that an instruction names as destinations (R236). -/
structure Dests where
  x : List (BitVec 5) := []
  c : List (BitVec 3) := []
  v : List (BitVec 5) := []

/-- The destinations of an instruction of the majors 0x01 to 0x33 (R236). -/
def dests : Instr → Dests
  | .add r _ _ | .sub r _ _ | .and r _ _ | .or r _ _ | .xor r _ _ | .sll r _ _ | .srl r _ _ | .sra r _ _
  | .min r _ _ | .max r _ _ | .minu r _ _ | .maxu r _ _ | .sel r _ _ _ | .mul r _ _ | .mulh r _ _ | .mulhu r _ _
  | .div r _ _ | .divu r _ _ | .rem r _ _ | .remu r _ _ | .clz r _ | .ctz r _ | .popc r _ | .brev r _
  | .fadd r _ _ _ | .fsub r _ _ _ | .fmul r _ _ _ | .fdiv r _ _ _ | .fsqrt r _ _ | .fmin r _ _ _ | .fmax r _ _ _
  | .fma r _ _ _ | .fcvtFi r _ _ _ | .fcvtFu r _ _ _ | .fcvtTi r _ _ _ | .fcvtTu r _ _ _ | .fcvtFx r _ _ _
  | .fclass r _ _ | .addi r _ _ | .andi r _ _ | .ori r _ _ | .xori r _ _ | .slli r _ _ | .srli r _ _ | .srai r _ _
  | .lui r _ | .aupc r _ | .jal r _ | .jalr r _ _ | .ld r _ _ _ | .ldAcq r _ _ _ _ | .ldSc r _ _ _ _
  | .amoadd r _ _ _ _ _ | .amoand r _ _ _ _ _ | .amoor r _ _ _ _ _ | .amoxor r _ _ _ _ _ | .amomin r _ _ _ _ _
  | .amomax r _ _ _ _ _ | .amominu r _ _ _ _ _ | .amomaxu r _ _ _ _ _ | .amoswap r _ _ _ _ _ | .cas r _ _ _ _ _
  | .mpopc r _ | .mfirst r _ | .vmvx _ r _ _ | .vsetvl r _ _ | .twany r _ | .tfind r _ | .tstamp r _ | .qpop r _
  | .qstat r _ => { x := [r] }
  | .cmpEq r _ _ | .cmpNe r _ _ | .cmpLt r _ _ | .cmpGe r _ _ | .cmpLtu r _ _ | .cmpGeu r _ _ | .cmpFeq r _ _ _
  | .cmpFlt r _ _ _ | .cmpFle r _ _ _ | .cmpFun r _ _ _ | .cmpiEq r _ _ | .cmpiNe r _ _ | .cmpiLt r _ _
  | .cmpiGe r _ _ | .cmpiLtu r _ _ | .cmpiGeu r _ _ | .cand r _ _ | .cor r _ _ | .cxor r _ _ | .candn r _ _
  | .cnot r _ | .cset r | .cclr r | .cmov r _ | .many r _ | .mall r _ => { c := [r] }
  | .vadd _ r _ _ _ | .vsub _ r _ _ _ | .vrsub _ r _ _ _ | .vmul _ r _ _ _ | .vmulh _ r _ _ _ | .vdiv _ r _ _ _
  | .vrem _ r _ _ _ | .vmin _ r _ _ _ | .vmax _ r _ _ _ | .vabs r _ _ | .vneg r _ _ | .vsadd _ r _ _ _
  | .vssub _ r _ _ _ | .vfma _ r _ _ _ | .vfms _ r _ _ _ | .vfnma _ r _ _ _ | .vfnms _ r _ _ _ | .vwmul _ r _ _ _
  | .vand _ r _ _ _ | .vor _ r _ _ _ | .vxor _ r _ _ _ | .vnot r _ _ | .vsll _ r _ _ _ | .vsrl _ r _ _ _
  | .vsra _ r _ _ _ | .vpopc r _ _ | .vclz r _ _ | .vrecip r _ _ | .vrsqrt r _ _ | .vsqrt r _ _ | .vexp2 r _ _
  | .vlog2 r _ _ | .vtanh r _ _ | .miota r _ | .vcvt r _ _ _ _ | .vcvtSat r _ _ _ _ | .vcvtSr r _ _ _ _
  | .vcvtSrSat r _ _ _ _ | .vredsum r _ _ | .vredmax r _ _ | .vredmin r _ _ | .vredand r _ _ | .vredor r _ _
  | .vredxor r _ _ | .vscanSum r _ _ | .vscanMax r _ _ | .vslideup _ r _ _ _ | .vslidedn _ r _ _ _ | .vperm r _ _ _
  | .vcompress r _ _ | .vexpand r _ _ | .vbcast _ r _ _ _ | .vmv r _ _ | .viota r _ _ | .vmvs r _ _ | .vbpop r _ _
  | .vrank r _ _ _ | .vxsect r _ _ _ | .vcfg r _ | .vrand r _ _ | .vld r _ _ _ _ _ | .vldS r _ _ _ _ _ _
  | .vldx r _ _ _ _ _ _ | .vgll r _ _ _ _ _ | .vamoAdd r _ _ _ _ _ | .vamoAnd r _ _ _ _ _ | .vamoOr r _ _ _ _ _
  | .vamoXor r _ _ _ _ _ | .vamoMin r _ _ _ _ _ | .vamoMax r _ _ _ _ _ | .vamoSwap r _ _ _ _ _ | .vfas r _ _ _
  | .vxlt r _ _ _ _ | .vxltW r _ _ _ _ | .cpyc r _ _ _ _ _ | .vlds r _ => { v := [r] }
  | .mrow _ r _ _ | .mcol _ r _ _ | .mcvt _ r _ _ _ => { v := [r] }
  | .cpyv d _ n _ _ _ => { v := (upTo (n.toNat + 1)).map fun i => d + BitVec.ofNat 5 i }
  | _ => {}

/-- The decoder for the majors 0x01 to 0x33, whose instructions the lead tells apart (R28). -/
def decodeLow (w : BitVec 32) : Except Reject Instr :=
  match (fld w 26 6).toNat with
  | 0x01 => decodeMajor01 w
  | 0x02 => decodeMajor02 w
  | 0x03 => decodeMajor03 w
  | 0x04 => decodeMajor04 w
  | 0x05 => decodeMajor05 w
  | 0x06 => decodeMajor06 w
  | 0x07 => decodeMajor07 w
  | 0x08 => decodeMajor08 w
  | 0x09 => decodeMajor09 w
  | 0x0A => decodeMajor0A w
  | 0x0B => decodeMajor0B w
  | 0x0C => decodeMajor0C w
  | 0x0D => decodeMajor0D w
  | 0x0E => decodeMajor0E w
  | 0x0F => decodeMajor0F w
  | 0x10 => decodeMajor10 w
  | 0x11 => decodeMajor11 w
  | 0x12 => decodeMajor12 w
  | 0x13 => decodeMajor13 w
  | 0x14 => decodeMajor14 w
  | 0x15 => decodeMajor15 w
  | 0x16 => decodeMajor16 w
  | 0x17 => decodeMajor17 w
  | 0x18 => decodeMajor18 w
  | 0x19 => decodeMajor19 w
  | 0x1A => decodeMajor1A w
  | 0x1B => decodeMajor1B w
  | 0x1C => decodeMajor1C w
  | 0x1D => decodeMajor1D w
  | 0x1E => decodeMajor1E w
  | 0x1F => decodeMajor1F w
  | 0x20 => decodeMajor20 w
  | 0x21 => decodeMajor21 w
  | 0x22 => decodeMajor22 w
  | 0x23 => decodeMajor23 w
  | 0x24 => decodeMajor24 w
  | 0x25 => decodeMajor25 w
  | 0x26 => decodeMajor26 w
  | 0x27 => decodeMajor27 w
  | 0x28 => decodeMajor28 w
  | 0x29 => decodeMajor29 w
  | 0x2A => decodeMajor2A w
  | 0x2B => decodeMajor2B w
  | 0x2C => decodeMajor2C w
  | 0x2D => decodeMajor2D w
  | 0x2E => decodeMajor2E w
  | 0x2F => decodeMajor2F w
  | 0x30 => decodeMajor30 w
  | 0x31 => decodeMajor31 w
  | 0x32 => decodeMajor32 w
  | 0x33 => decodeMajor33 w
  | _ => .error .illegalMajor

/-- Could a hart execute the instruction in its mode (R141, R142, R144)? Majors 0x34 and above are legal in both. -/
def legalIn (matrix : Bool) (major : Nat) (i : Instr) : Bool :=
  match i with
  | .menter _ => !matrix
  | .vmv _ _ _ | .vmvx _ _ _ _ | .vmvs _ _ _ | .vcfg _ _ => true
  -- v24 to v31 are dead in matrix mode (R142)
  | .vld d _ _ _ _ _ | .vldS d _ _ _ _ _ _ => !matrix || decide (d < 24)
  | .vldx d _ b _ _ _ _ | .vgll d _ b _ _ _ => !matrix || (decide (d < 24) && decide (b < 24))
  | _ =>
    if matrix then decide (major ≤ 0x15) || (decide (0x21 ≤ major) && decide (major ≤ 0x26)) || decide (0x29 ≤ major)
    else !(decide (0x29 ≤ major) && decide (major ≤ 0x2C))

/-- Words of the majors 0x34 to 0x3C (R236): the x destinations of an instruction that the lead skips; none for a word that
stops it. In user mode it skips the supervisor's instructions. -/
def leadHigh (sup : Bool) (w : BitVec 32) : Option (List (BitVec 5)) :=
  let zero (lo len : Nat) : Bool := fld w lo len == 0
  let d := fld w 21 5
  let scope := scopeOk (fld w 5 3)
  let skip (ok : Bool) (ds : List (BitVec 5)) : Option (List (BitVec 5)) := if ok then some ds else none
  match (fld w 26 6).toNat, (fld w 0 5).toNat with
  | 0x34, 0 => skip (decide ((fld w 5 6).toNat ≤ 16)) [d]
  | 0x34, 1 => skip (zero 5 16) [d]
  | 0x34, 2 => skip (zero 11 10 && decide ((fld w 5 6).toNat ≤ 6)) [d]
  | 0x35, 0 | 0x37, 0 | 0x38, 1 => skip (zero 5 6) [d]
  | 0x35, 1 | 0x38, 0 => skip (zero 5 6) []
  | 0x35, 2 | 0x36, 0 | 0x37, 3 => skip (zero 5 11) [d]
  | 0x35, 3 | 0x37, 2 | 0x39, 0 | 0x39, 1 => skip (zero 21 5 && zero 5 11) []
  | 0x35, 4 | 0x3B, 0 | 0x3B, 4 => skip (zero 21 5 && zero 8 8 && scope) []
  | 0x36, 1 | 0x3B, 3 => skip (zero 21 5 && zero 5 6) []
  | 0x37, 1 => skip (zero 24 2 && scopeOk (fld w 21 3)) []
  | 0x39, 2 => skip (zero 5 21) []
  | 0x39, 4 => skip (!sup && zero 21 5 && zero 5 11) []
  | 0x3C, 1 | 0x3C, 2 => skip (!sup && zero 5 21) []
  | 0x3B, 1 | 0x3B, 2 => skip (zero 21 5 && zero 8 3 && scope) []
  | 0x3A, _ =>
    match (fld w 0 4).toNat with
    | 0 => skip (zero 16 5 && crListed (fld w 4 12)) [d]
    | 1 | 2 | 3 => skip (zero 21 5 && crListed (fld w 4 12)) []
    | _ => none
  | _, _ => none

/-! The lead's registers -/

/-- The lead's copy of a scalar register, when it is valid (R236). -/
def Lead.getX (l : Lead) (r : BitVec 5) : Option Word :=
  if r = 0 then some 0 else if l.xValid.getLsbD r.toNat then some l.x[r.toNat] else none

/-- The lead's copy of a condition bit, when it is valid (R236). -/
def Lead.getC (l : Lead) (r : BitVec 3) : Option Bool :=
  if r = 0 then some true else if l.cValid.getLsbD r.toNat then some (l.c.getLsbD r.toNat) else none

/-- Write a copy, or leave it invalid (R236). -/
def Lead.setX (l : Lead) (r : BitVec 5) (v : Option Word) : Lead :=
  if r = 0 then l
  else match v with
    | some v => { l with x := l.x.set r.toNat v, xValid := l.xValid ||| 1#32 <<< r.toNat }
    | none => { l with xValid := l.xValid &&& ~~~(1#32 <<< r.toNat) }

/-- The shadow of a vector register (R238). -/
def Lead.shadow (l : Lead) (r : BitVec 5) : Option Shadow := l.shadows[r.toNat]

/-- Set or clear a shadow (R238). -/
def Lead.setShadow (l : Lead) (r : BitVec 5) (s : Option Shadow) : Lead := { l with shadows := l.shadows.set r.toNat s }

/-- Leave destinations invalid and clear shadows, as a skipped instruction does (R236). -/
def Lead.skip (d : Dests) (l : Lead) : Lead :=
  let l := d.x.foldl (fun l r => l.setX r none) l
  let l := d.c.foldl (fun (l : Lead) r => { l with cValid := l.cValid &&& ~~~(1#8 <<< r.toNat) }) l
  d.v.foldl (fun l r => l.setShadow r none) l

/-- An executed instruction (R236): its meaning, run on the lead's registers. -/
def State.leadRun (s : State) (e : LeadExec) (d : Dests) : Lead :=
  let l := s.cur.lead
  if e.x.all (fun r => (l.getX r).isSome) && e.c.all (fun r => (l.getC r).isSome) then
    match e.run { s with cur := { s.cur with x := l.x, c := l.c, pc := l.pc, leadActive := false } } with
    | .next t =>
      { l with
        x := t.cur.x
        c := t.cur.c
        xValid := d.x.foldl (fun b r => b ||| 1#32 <<< r.toNat) l.xValid
        cValid := d.c.foldl (fun b r => b ||| 1#8 <<< r.toNat) l.cValid }
    | _ => l
  else l.skip d

/-! What the lead reads -/

/-- A translation of the lead that it may use (R237, R239): permitted, its page accessed already and without NS. -/
def State.leadXlate (s : State) (va : Word) : Option Phys :=
  match s.peekXlate (s.cur.agent s.cur.cw) .read va with
  | some (p, true) => if p.ns then none else some p
  | _ => none

/-- The lead's use of a page goes through the translation caches (R237); its walks are not counted (R365). -/
def State.leadPage (s : State) (va : Word) : State :=
  { (s.xlate (s.cur.agent s.cur.cw) .read va).2 with perf := s.perf }

/-- A lead read of bytes on one page (R237): the bytes, with the line filled, or nothing. DESIGN CHOICE (notes/assumptions/28.md):
a byte in uncorrectable error gives nothing. -/
def State.leadPiece (s : State) (va : Word) (n : Nat) : Option (List Byte × State) :=
  match s.leadXlate va with
  | none => none
  | some p =>
    let core := s.cur.core
    if s.badByte core (p.attr.mode .plain) p.pa n then none
    else some (s.readBytes core (p.attr.mode .plain) p.pa n, (s.leadPage va).afterLoad core p.attr true p.pa)

/-- A lead read of bytes (R237): the value, or nothing where it may not read one of the pages (R17). -/
def State.leadRead (s : State) (va : Word) (n : Nat) : Option (Nat × State) :=
  let here := min n (65536 - va.toNat % 65536)
  match s.leadPiece va here with
  | none => none
  | some (bs, t) =>
    if here = n then some (leNat bs, t)
    else match t.leadPiece (va + BitVec.ofNat 64 here) (n - here) with
      | none => none
      | some (cs, u) => some (leNat (bs ++ cs), u)

/-- A reader for the prefetch of VXLT (R239): it gives up where a lead read does. -/
def leadReader : RecordReader := fun va n => do
  let s ← (get : M State)
  match s.leadRead va n with
  | some (v, t) =>
    (set t : M Unit)
    return v
  | none => (trap 0x04 va : M Nat)

/-- A lead read where it may be made; the read is dropped elsewhere. -/
def leadReadOr (va : Word) (n : Nat) : StateM State (Option Nat) := fun s =>
  match s.leadRead va n with
  | some (v, t) => (some v, t)
  | none => (none, s)

/-- Prefetch lines (R239): each address whose page the lead may use. -/
def State.leadFill (s : State) (alloc : Bool) (addrs : List Word) : State :=
  ((addrs.map fun a => a.toNat / 128).eraseDups).foldl (fun s line =>
    let va := BitVec.ofNat 64 (128 * line)
    match s.leadXlate va with
    | some p => ((s.leadPage va).afterLoad s.cur.core p.attr alloc p.pa).countCur 0x08 1
    | none => s) s

/-- A memory entry (R241): up to 64 pages with their frames, and up to 512 sorted lines. The window has no pages (R169). -/
def State.memoryEntry (s : State) (seq : Nat) (sig : Option (Nat × List Word)) (addrs : List Word) : LeadEntry :=
  let pages := ((addrs.map fun a => a.toNat / 65536).eraseDups).filterMap fun v =>
    (s.leadXlate (BitVec.ofNat 64 (65536 * v))).bind fun p => if p.attr = .window then none else some (v, p.pa / 65536)
  let lines := ((addrs.map fun a => a.toNat / 128).eraseDups).foldl (fun l x => insertSorted x l) []
  .memory seq sig (pages.take 64) (lines.take 512)

/-- Add an entry to the delay buffer (R241). -/
def State.record (s : State) (e : LeadEntry) : State :=
  s.onCur fun h => { h with lead := { h.lead with buffer := h.lead.buffer ++ [e] } }

/-- Change the lead of the executing hart. -/
def State.onLead (s : State) (f : Lead → Lead) : State := s.onCur fun h => { h with lead := f h.lead }

/-- The memory entry of a tracked instruction (R241); none for a signature records only the sequence number. -/
def State.track (s : State) (sig : Option (Nat × List Word)) (addrs : List Word) : State :=
  let e := s.memoryEntry s.cur.lead.memorySeq sig addrs
  (s.record e).onLead fun l => { l with memorySeq := l.memorySeq + 1 }

/-! Index shadows (R238) -/

/-- A step of a shadow on an element value (R238, R113, R115). -/
def ShadowStep.apply (t : Tag) (v : Nat) : ShadowStep → Nat
  | .add w => (v + w.toNat) % 2 ^ t.width
  | .sub w => wrap t.width ((v : Int) - w.toNat)
  | .sll w => (v * 2 ^ (w.toNat % t.width)) % 2 ^ t.width

/-- An element as an index (R217). -/
def indexWord (t : Tag) (v : Nat) : Word := if t.isSigned then BitVec.ofInt 64 (signed t.width v) else BitVec.ofNat 64 v

/-- The elements of a shadow, re-read from memory (R238), with their places; those whose page the lead may not read are
dropped (R239). -/
def shadowElems (sh : Shadow) : List Nat → StateM State (List (Nat × Nat))
  | [] => return []
  | i :: is => do
    let n := sh.tag.width / 8
    let v ← leadReadOr (sh.base + BitVec.ofNat 64 (n * i)) n
    let vs ← shadowElems sh is
    return match v with
      | some v => (i, sh.steps.foldl (fun v st => st.apply sh.tag v) v) :: vs
      | none => vs

/-- Append a step to the shadow of va (R238). -/
def Lead.stepShadow (l : Lead) (d a : BitVec 5) (step : Option ShadowStep) : Lead :=
  match l.shadow a, step with
  | some sh, some st =>
    l.setShadow d (if sh.steps.length < 4 then some { sh with steps := sh.steps ++ [st] } else none)
  | _, _ => l.setShadow d none

/-- The scalar of a vs or vi form as the lead knows it (R109); the vv form has none. -/
def Lead.formScalar (l : Lead) (f : BitVec 2) (b : BitVec 5) : Option Word :=
  if f = 1 then l.getX b else if f = 2 then some (sext b) else none

/-! One step -/

/-- The lead goes on at an address. -/
def State.leadGo (s : State) (pc : Word) : State := s.onLead fun l => { l with pc := pc }

/-- The lead goes on at the next instruction. -/
def State.leadNext (s : State) : State := s.leadGo (s.cur.lead.pc + 4)

/-- The lead stops at its instruction (R236, R240). -/
def State.leadStop (s : State) : State :=
  s.onCur fun h => { h with leadStopped := true, lead := { h.lead with stoppedAt := some h.lead.pc } }

/-- A branch entry, and the lead at the outcome (R236, R241). -/
def State.leadBranch (s : State) (taken : Bool) (target : Word) : State :=
  ((s.record (.branch s.cur.lead.branchSeq taken target)).onLead fun l => { l with branchSeq := l.branchSeq + 1 }).leadGo target

/-- The prefetch of a VLD (R239, R238). -/
def State.leadVld (s : State) (d a : BitVec 5) (b : Option (BitVec 5)) : State :=
  let l := s.cur.lead
  let t := l.vlTag
  let n := t.unitBytes
  let stride : Option Word := match b with
    | some r => l.getX r
    | none => some (BitVec.ofNat 64 n)
  match l.getX a, stride, l.vlLen with
  | some base, some st, some vl =>
    let addrs := (upTo (t.units vl)).map fun u => base + st * BitVec.ofNat 64 u
    let shadow : Option Shadow := if b.isNone && t.isInt then some { base := base, tag := t, len := vl, steps := [] } else none
    let apart := if b.isSome then 8 * st.toInt.natAbs else t.width
    let alloc := strideAllocates { vbyp := s.cur.vbyp } vl apart
    ((s.leadFill alloc addrs).track (some (n, addrs)) addrs).onLead fun l => l.setShadow d shadow
  | _, _, _ => (s.track none []).onLead fun l => l.setShadow d none

/-- The prefetch of a gather (R239). An entry whose index array could not be read whole has no agreeing signature. -/
def State.leadGather (s : State) (d a b : BitVec 5) : State :=
  let l := s.cur.lead
  let n := l.vlTag.unitBytes
  let s' := match l.getX a, l.vlLen, l.shadow b with
    | some base, some vl, some sh =>
      let (vs, t) := (shadowElems sh (upTo (min vl sh.len))).run s
      let addrs : List Word := vs.map fun (v : Nat × Nat) => base + indexWord sh.tag v.2
      (t.leadFill (gatherAllocates { vbyp := s.cur.vbyp } addrs) addrs).track (some (n, addrs)) addrs
    | _, _, _ => s.track none []
  s'.onLead fun l => l.setShadow d none

/-- The view that a VXLT of the lead resolves through, with the window that `.w` names: the handle is valid and its header
readable, the plane within it, and the window open (R323). -/
def leadView (windowed : Bool) (handle plane : Word) : M (Option (MapView × Option Nat)) := do
  let s ← get
  let h := s.cur
  let w := h.cw.toNat % 16
  if windowed && !(h.cw.getLsbD 4 && s.holdsOpen h.launch w) then return none
  match ← attempt ((readView (leadReader · 8) handle).run []) with
  | .ok (v, _) =>
    return if plane.toNat ≤ v.hdr.geo.nplane then some (v, if windowed then some w else none) else none
  | .error _ => return none

/-- Resolve positions for the lead (R239): 0 where one leads nowhere or its entries cannot be read. -/
def leadResolve (s : State) (v : MapView) (plane : Nat) (w : Option Nat) : List Nat → M (List Word)
  | [] => return []
  | p :: ps => do
    let r ← attempt ((resolveAddress s (leadReader · 8) leadReader v plane w p).run [])
    let rest ← leadResolve s v plane w ps
    return (match r with
      | .ok (x, _) => x.getD 0
      | .error _ => 0) :: rest

/-- The prefetch of a translation (R239): map header and block entries are read, the resulting addresses recorded. -/
def State.leadVxlt (s : State) (d a b : BitVec 5) (windowed : Bool) : State :=
  let l := s.cur.lead
  let s' := match l.getX a, l.getX (a + 1), l.vlLen, l.shadow b with
    | some handle, some plane, some vl, some sh =>
      let (vs, t) := (shadowElems sh (upTo (min vl sh.len))).run s
      let resolve : M (Option (List Word)) := do
        match ← leadView windowed handle plane with
        | some (v, w) => return some (← leadResolve s v plane.toNat w (vs.map Prod.snd))
        | none => return none
      match resolve t with
      | .ok (some addrs) t' => t'.track (some (sh.tag.width / 8, addrs)) (addrs.filter (· != 0))
      | .ok none t' | .error _ t' => t'.track none []
    | _, _, _, _ => s.track none []
  s'.onLead fun l => l.setShadow d none

/-- Does the lead wait at a tracked instruction (R244)? -/
def Lead.atBound (l : Lead) (rad : BitVec 7) : Bool := decide (l.trailMemory + rad.toNat ≤ l.memorySeq)

/-- Is the instruction tracked (R241)? -/
def tracked : Instr → Bool
  | .vld _ _ _ _ _ _ | .vldS _ _ _ _ _ _ _ | .vldx _ _ _ _ _ _ _ | .vgll _ _ _ _ _ _ | .vxlt _ _ _ _ _
  | .vxltW _ _ _ _ _ => true
  | _ => false

/-- The lead at an instruction of the majors 0x01 to 0x33 (R236), given whether the mode allows it. -/
def State.leadAt (s : State) (legal : Bool) (i : Instr) : State :=
  let l := s.cur.lead
  let pc := l.pc
  let skipped := (s.onLead (Lead.skip (dests i))).leadNext
  if !legal then skipped
  else if tracked i && l.atBound s.cur.rad then s
  else match i with
  | .bc c o | .bnc c o =>
    match l.getC c with
    | none => s.leadStop
    | some v =>
      let taken := match i with
        | .bc _ _ => v
        | _ => !v
      s.leadBranch taken (if taken then pc + sext o * 4 else pc + 4)
  | .jal d o => (s.onLead fun l => l.setX d (some (pc + 4))).leadBranch true (pc + sext o * 4)
  | .jalr d a imm =>
    match l.getX a with
    | none => s.leadStop
    | some x =>
      if (x + sext imm) &&& 3 = 0 then (s.onLead fun l => l.setX d (some (pc + 4))).leadBranch true (x + sext imm)
      else s.leadStop
  | .ld d a w imm | .ldAcq d a w _ imm | .ldSc d a w _ imm =>
    let n := smBytes w
    let read : Option (Nat × State) := do
      let x ← l.getX a
      let va := x + sext imm * BitVec.ofNat 64 n
      if va.toNat % n ≠ 0 then none else s.leadRead va n
    match read with
    | some (v, t) => (t.onLead fun l => l.setX d (some (smExtend w v))).leadNext
    | none => skipped
  | .vsetvl d a t =>
    let tag := Tag.ofCode t.toNat
    let n := (l.getX a).map fun x => min x.toNat (s.cur.vgrant * 2048 / tag.width)
    (s.onLead fun l => { l.setX d (n.map (BitVec.ofNat 64)) with
      vlTag := tag, vlLen := n, vlMax := some (s.cur.vgrant * 2048 / tag.width) }).leadNext
  | .vrel =>
    (s.onLead fun l => { l with
      vlTag := .dead, vlLen := some 0, vlMax := some 0, shadows := Vector.replicate 32 none }).leadNext
  | .menter _ =>
    (s.onLead fun l =>
      let n := if l.vlLen.isSome then some (64 * leadDepth l.vlTag) else none
      (upTo 8).foldl (fun l i => l.setShadow (BitVec.ofNat 5 (24 + i)) none)
        { l with vlLen := n, vlMax := n, matrix := true }).leadNext
  | .mexit =>
    (s.onLead fun l => { l with vlTag := .dead, vlLen := some 0, vlMax := some 0, matrix := false }).leadNext
  | .vadd f d a b _ => (s.onLead fun l => l.stepShadow d a ((l.formScalar f b).map .add)).leadNext
  | .vsub f d a b _ => (s.onLead fun l => l.stepShadow d a ((l.formScalar f b).map .sub)).leadNext
  | .vsll f d a b _ => (s.onLead fun l => l.stepShadow d a ((l.formScalar f b).map .sll)).leadNext
  | .vld d a _ _ _ _ => (s.leadVld d a none).leadNext
  | .vldS d a b _ _ _ _ => (s.leadVld d a (some b)).leadNext
  | .vldx d a b _ _ _ _ | .vgll d a b _ _ _ => (s.leadGather d a b).leadNext
  | .vxlt d a b _ _ => (s.leadVxlt d a b false).leadNext
  | .vxltW d a b _ _ => (s.leadVxlt d a b true).leadNext
  | i =>
    match leadExec i with
    | some e => (s.onLead fun _ => s.leadRun e (dests i)).leadNext
    | none => skipped
where
  /-- Elements of 32 bits (R143), for the tags that `menter` takes. -/
  leadDepth (t : Tag) : Nat := if t.width = 0 then 0 else 32 / t.width

/-- One step of the lead (R236): it fetches, and executes, skips or stops; with a full buffer it waits (R241), on a code page not
yet accessed it stops (R308). DESIGN CHOICE (notes/assumptions/28.md): an uncorrectable error in the word stops it. -/
def State.leadStep (s : State) : State :=
  let h := s.cur
  let l := h.lead
  if !(h.leadActive && !h.leadStopped && h.isResident) || 512 ≤ l.buffer.length then s
  else if l.pc &&& 3 ≠ 0 then s.leadStop
  else match s.peekXlate (h.agent 0) .fetch l.pc with
    | none => s.leadStop
    | some (_, false) => s.leadStop
    | some (p, true) =>
      if s.badByte h.core .home p.pa 4 then s.leadStop
      else
        let (w, s) := s.codeWord h.launch p.pa
        match decodeLow w with
        | .ok i => s.leadAt (legalIn l.matrix (fld w 26 6).toNat i) i
        | .error _ =>
          if (fld w 26 6).toNat < 0x34 then s.leadStop
          else match leadHigh h.status.sup w with
            | some ds => (s.onLead (Lead.skip { x := ds })).leadNext
            | none => s.leadStop

/-- LEAD_ISSUE (R236). -/
def execLeadIssue (hart : Nat) (s : State) : Result := s.eventOn hart fun s => .next s.leadStep

end Sys2Proof.Machine
end

