-- ==== Sys2Proof/Machine/Place.lean ====
section
/-! DEFINITION. The scheduler's choices (15_run_queues.md): the sources of R288, admission (R286), tile-buffer allocations
(R168), fusion of L1s (R174), and how a hart starts (R65) or is restored (R297, R393, R394). -/

namespace Sys2Proof.Machine

/-! Core groups -/

/-- Does a launch set GANG (R287), FUSEL1 (R174)? -/
def LaunchRec.gang (r : LaunchRec) : Bool := r.flags.getLsbD 2
def LaunchRec.fuses (r : LaunchRec) : Bool := r.flags.getLsbD 1

/-- How many core groups a launch has (R285). -/
def LaunchRec.groupCount (r : LaunchRec) : Nat := ceilDiv r.nharts r.hpc

/-- The hart indices of core group `k` (R285). -/
def LaunchRec.members (r : LaunchRec) (k : Nat) : List Nat :=
  ((upTo r.hpc).map (r.hpc * k + ·)).filter fun i => decide (i < r.nharts)

/-- Where an entry comes from (R288): a unit of a resume list, a launch in another launch's spawn queue, or the head of a
run queue. -/
inductive Source where
  | resume (e : ResumeEntry)
  | spawn (parent launch : Nat)
  | run (e : RunEntry)
  deriving DecidableEq, Repr

/-- An entry that waits for cores (R288): its class, source and launch, and the core groups to place in one step, with hart
numbers for a resumption and hart indices for a start. -/
structure Entry where
  cls : Nat
  source : Source
  launch : Nat
  groups : List (Nat × List Nat)
  deriving DecidableEq, Repr

/-- Is the entry a resumption? -/
def Entry.resumes (e : Entry) : Bool :=
  match e.source with
  | .resume _ => true
  | _ => false

/-- Can the unit be placed: every live hart of it has left its core, and none is parked (R295, R296)? -/
def State.unitWhole (s : State) (e : ResumeEntry) : Bool :=
  e.harts.all fun u => s.harts.any fun h => h.uid == u && h.place == .saved &&
    s.harts.all fun g => g.uid == u || !s.sameUnit g h || (e.harts.contains g.uid && g.place == .saved)

/-- The core groups of a unit on a resume list. -/
def State.unitGroups (s : State) (e : ResumeEntry) : List (Nat × List Nat) :=
  let hs := e.harts.filterMap s.hart?
  ((hs.map (·.group)).eraseDups).map fun g => (g, (hs.filter fun h => h.group == g).map (·.uid))

/-- The launch of a unit. -/
def State.unitLaunch (s : State) (e : ResumeEntry) : Nat := ((e.harts.filterMap s.hart?).head?.map (·.launch)).getD 0

/-- What the scheduler places next of a launch: the next core group, or all of a gang (R287). -/
def Launch.nextGroups (l : Launch) : List (Nat × List Nat) :=
  let ks := if l.record.gang then upTo l.record.groupCount else [l.placed]
  ks.map fun k => (k, l.record.members k)

/-- The record that a spawn queue gives next (R291): its youngest in depth-first order, else its oldest. -/
def SpawnQueue.next? (q : SpawnQueue) : Option Nat := if q.depthFirst then q.records.getLast? else q.records.head?

/-- The record at the head of a spawn queue: one that is partly placed stays there (R287, R291). -/
def State.spawnHead? (s : State) (q : SpawnQueue) : Option Nat :=
  match q.records.find? fun u => (s.launch? u).any fun m => m.placed != 0 with
  | some u => some u
  | none => q.next?

/-- The heads of the spawn queues of a class, in the order in which they are visited (R288). -/
def State.spawnHeads (s : State) (part cls : Nat) : List Entry :=
  let running := s.launches.filter fun l => l.record.part == part && l.record.prio == cls && l.placed != 0
  let last := ((s.spawnTurn.find? fun t => t.1 == part && t.2.1 == cls).map (·.2.2)).getD 0
  -- launches are numbered in the order in which they were enqueued
  let order := (running.filter fun l => decide (last < l.uid)) ++ running.filter fun l => decide (l.uid ≤ last)
  order.filterMap fun l => do
    let q ← l.spawn
    let u ← s.spawnHead? q
    let m ← s.launch? u
    return { cls := cls, source := .spawn l.uid u, launch := u, groups := m.nextGroups }

/-- The head of a resume list (R288, R296). -/
def State.resumeHead (s : State) (part cls : Nat) : Option Entry :=
  (s.resumeq.find? fun e => e.part == part && e.cls == cls && s.unitWhole e).map fun e =>
    { cls := cls, source := .resume e, launch := s.unitLaunch e, groups := s.unitGroups e }

/-- The head of a run queue (R288). -/
def State.runHead (s : State) (part cls : Nat) : Option Entry := do
  let e ← s.runq.find? fun e => e.part == part && e.cls == cls
  let l ← s.launch? e.launch
  return { cls := cls, source := .run e, launch := e.launch, groups := l.nextGroups }

/-- What the entry is to a request (R96, R294). -/
def State.demand (s : State) (e : Entry) : Demand :=
  match e.source with
  | .resume x => .unit x.harts
  | _ => .group e.launch (((s.launch? e.launch).map (·.placed)).getD 0)

/-- The classes from 7 down to 0. -/
def classes : List Nat := (upTo 8).reverse

/-- The heads of every source of a partition, in the order of R288. -/
def State.heads (s : State) (part : Nat) : List Entry :=
  classes.filterMap (s.resumeHead part) ++
  classes.flatMap fun c => s.spawnHeads part c ++ (s.runHead part c).toList

/-! Admission -/

/-- The harts resident on a core, but for some that are taken as gone. -/
def State.residents (s : State) (core : Nat) (gone : List Nat) : List Hart :=
  s.harts.filter fun h => h.isResident && h.core == core && !gone.contains h.uid

/-- `hid` of a placement (R12): package, core and hart slot. -/
def State.hidOf (s : State) (core slot : Nat) : BitVec 17 := BitVec.ofNat 17 (s.pkg * 2048 + core * 8 + slot)

/-- Is a resumed hart contained in the same instances on the core as before it left, for every slot of its launch that has
an initialised instance at cluster, stack or package scope (R360)? -/
def State.contained (s : State) (l : Launch) (core uid : Nat) : Bool :=
  match s.hart? uid with
  | none => true
  | some h => l.bars.toList.all fun b =>
      b.scope.toNat < 2 || 4 < b.scope.toNat || b.insts.all (fun x => x.e == 0) ||
        instance_ b.scope h.hid == instance_ b.scope (s.hidOf core 0)
where
  /-- The `hid` fields that R186 compares at a scope. -/
  instance_ (scope : BitVec 3) (hid : BitVec 17) : Nat := hid.toNat >>> (if scope = 2 then 5 else if scope = 3 then 7 else 11)

/-- Are the queue registers of a resumed core group's producers free on the core (R253)? -/
def State.queuesFree (s : State) (launch core : Nat) (uids : List Nat) : Bool :=
  let idx := (uids.filterMap s.hart?).map (·.index)
  s.queues.all fun q => !(q.core.isNone && q.launch == launch && idx.contains q.prod) ||
    !s.queues.any fun x => x.core == some core && x.q == q.q

/-- The free save areas of a partition (R393), by number. -/
def State.freeAreas (s : State) (p : Partition) : List Nat :=
  (upTo p.saveHarts).filter fun i => !s.harts.any fun h => h.part == p.id && h.handle == p.saveBase + 0x80000 * i

/-- The core groups that share a core group's allocation, in a buffer or outside (R168). -/
def Launch.partners (l : Launch) (group : Nat) : List Nat :=
  ((l.allocs.filter fun x => x.group == group).flatMap fun x => l.sharers x.core x.base) ++
    (l.stowed.filter fun y => y.groups.contains group).flatMap (·.groups)

/-- May a resumed core group bring its allocation to a core (R168): none that shares it has a resident hart but those taken as gone,
so that it moves with all of them, and no other core group of the launch keeps an allocation there? -/
def State.bufferFree (s : State) (l : Launch) (core group : Nat) (gone : List Nat) : Bool :=
  let partners := l.partners group
  (s.harts.all fun h => !h.isResident || h.launch != l.uid || !partners.contains h.group || gone.contains h.uid) &&
  (l.allocs.all fun x => x.core != core || partners.contains x.group) &&
  l.stowed.all fun y => y.core != core || y.groups.contains group || !y.groups.any (s.keepsBuffer l.uid)

/-- Does a core admit a core group (R286), some harts taken as gone? A resumed one waits for the count it was saved with
(R352). DESIGN CHOICE (notes/assumptions/31.md): it does not share the allocation that a parked core group keeps there. -/
def State.admits (s : State) (e : Entry) (core : Nat) (g : Nat × List Nat) (gone : List Nat) : Bool :=
  match s.launch? e.launch with
  | none => false
  | some l =>
    let r := l.record
    let here := s.residents core gone
    let n := g.2.length
    let others := (here.map (·.launch)).eraseDups
    let tbuf (u : Nat) : Nat := ((s.launch? u).map fun m => m.record.tbuf).getD 0
    !others.contains l.uid && decide (here.length + n ≤ 8) &&
    decide ((here.map fun h => (s.recordOf h).ntile).sum + n * r.ntile ≤ 16) &&
    decide ((here.map fun h => (s.recordOf h).lgmin).sum + n * r.lgmin ≤ 8) &&
    decide ((others.map tbuf).sum + r.tbuf ≤ 1536) &&
    (if e.resumes then
       g.2.all (s.contained l core) && s.queuesFree l.uid core g.2 && s.bufferFree l core g.1 gone &&
         g.2.all fun u => (s.hart? u).any fun h => decide (h.shoreSaved.toNat ≤ s.shore.toNat)
     else match s.part? r.part with
       | some p => decide ((e.groups.map (·.2.length)).sum ≤ (s.freeAreas p).length)
       | none => false)

/-- Cores for core groups, each on its own (R285, R287), if there are any. -/
def State.assign (s : State) (e : Entry) (gone cores used : List Nat) :
    List (Nat × List Nat) → Option (List (Nat × (Nat × List Nat)))
  | [] => some []
  | g :: gs => cores.findSome? fun c =>
    if used.contains c || !s.admits e c g gone then none
    else (s.assign e gone cores (c :: used) gs).map fun rest => (c, g) :: rest

/-- Cores for an entry, one of its core groups on the given core (R288, R283). -/
def State.assignTo (s : State) (e : Entry) (part core : Nat) (gone : List Nat) : Option (List (Nat × (Nat × List Nat))) :=
  match s.part? part with
  | some p => e.groups.findSome? fun g =>
    if s.admits e core g gone then (s.assign e gone p.cores [core] (e.groups.erase g)).map fun rest => (core, g) :: rest
    else none
  | none => none

/-- Cores of a partition for an entry (R294). -/
def State.assignAny (s : State) (e : Entry) (part : Nat) (gone : List Nat) : Option (List (Nat × (Nat × List Nat))) :=
  match s.part? part with
  | some p => s.assign e gone p.cores [] e.groups
  | none => none

/-- Is the core kept for an entry of a higher class that victims left it for and that still waits (R294, R298)? -/
def State.keptFrom (s : State) (e : Entry) (core : Nat) : Bool :=
  s.reserved.any fun r => r.core == core && decide (e.cls < r.cls) && s.demanded r.need

/-- The entry with which the scheduler fills a core (R288), with its cores. -/
def State.nextEntry (s : State) (part core : Nat) : Option (Entry × List (Nat × (Nat × List Nat))) :=
  (s.heads part).findSome? fun e =>
    if s.keptFrom e core then none else (s.assignTo e part core []).map fun a => (e, a)

/-! Tile-buffer allocations -/

/-- Give core groups an allocation at a place (R168): shared with the core group of the launch that lies there, else with the
bytes and error marks that are kept outside the buffer, else zero. -/
def State.layAt (s : State) (uid : Nat) (groups : List Nat) (old : Option Stowed) (core base : Nat) : State :=
  match s.launch? uid with
  | none => s
  | some l =>
    let a := tileAddr s.pkg core (1024 * base)
    let len := 1024 * l.record.tbuf
    let s := if l.allocs.any fun x => x.core == core && x.base == base then s else
      let clean := { s with
        hbm := cellsDrop s.hbm a len
        poison := (s.poison.filter fun x => decide (x < a) || decide (a + len ≤ x)) ++
          ((old.map (·.bad)).getD []).map fun (n : Nat) => a + n }
      ((old.map (·.cells)).getD []).foldl
        (fun (s : State) c => { s with hbm := cellsWrite false s.hbm (a + c.1) [c.2] }) clean
    s.onLaunch uid fun m => { m with
      allocs := (groups.map fun g => { group := g, core := core, base := base }) ++ m.allocs
      stowed := withoutGroups groups m.stowed }

/-- An allocation's place on a core: its launch, its first KiB, and the core groups that share it. -/
structure Placed where
  launch : Launch
  base : Nat
  groups : List Nat

/-- The allocations on a core. -/
def State.allocsOn (s : State) (core : Nat) : List Placed :=
  s.launches.flatMap fun l =>
    let here := l.allocs.filter fun x => x.core == core
    ((here.map (·.base)).eraseDups).map fun b =>
      { launch := l, base := b, groups := (here.filter fun x => x.base == b).map (·.group) }

/-- The lowest first KiB at which an allocation fits on a core (R168). -/
def State.roomAt (s : State) (core kib : Nat) : Option Nat :=
  let taken := (s.allocsOn core).map fun y => (y.base, y.base + y.launch.record.tbuf)
  (0 :: taken.map (·.2)).find? fun b => decide (b + kib ≤ 1536) && taken.all fun t => decide (b + kib ≤ t.1) || decide (t.2 ≤ b)

/-- The allocations on a core that stay in place when `kib` more are needed: all of them if they fit, else those that a core group
with a resident hart shares (R168, R286). -/
def State.stays (s : State) (core kib : Nat) : List Placed :=
  let all := s.allocsOn core
  if (all.map fun y => y.launch.record.tbuf).sum + kib ≤ 1536 then all
  else all.filter fun y => (s.residents core []).any fun h => h.launch == y.launch.uid && y.groups.contains h.group

/-- What core groups of a launch keep outside the buffer. -/
def State.stowedOf (s : State) (uid : Nat) (groups : List Nat) : Option Stowed :=
  (s.launch? uid).bind fun l => l.stowed.find? fun y => y.groups.any groups.contains

/-- What a hart's scalar writes left of the bytes of a core's buffer moves with its launch's allocation there, from one first KiB to
another (R168, R191). -/
def Hart.shiftEarly (pkg core : Nat) (moved : Option (Nat × Nat × Nat)) (h : Hart) : Hart :=
  { h with early := h.early.filterMap fun (e : EarlyStore) =>
      if e.addr < tileAddr pkg core 0 || tileAddr pkg core 0x180000 ≤ e.addr then some e
      else moved.bind fun (a, b, kib) =>
        if tileAddr pkg core (1024 * a) ≤ e.addr && e.addr < tileAddr pkg core (1024 * (a + kib)) then
          some { e with addr := e.addr - 1024 * a + 1024 * b } else none }

/-- Make room on a core for `kib` (R168, R286): allocations close up, shared ones staying shared; those that do not stay wait
outside the buffer. -/
def State.repack (s : State) (core kib : Nat) : State :=
  let stays := s.stays core kib
  let away := (s.allocsOn core).foldl (fun s y => s.stow y.launch core y.base y.groups) s
  let laid := (stays.foldl (fun (p : State × Nat) y =>
    (p.1.layAt y.launch.uid y.groups (p.1.stowedOf y.launch.uid y.groups) core p.2, p.2 + y.launch.record.tbuf)) (away, 0)).1
  let moved (h : Hart) : Option (Nat × Nat × Nat) := do
    let l ← s.launch? h.launch
    let x ← l.allocs.find? fun x => x.core == core && x.group == h.group
    let y ← (← laid.launch? h.launch).allocs.find? fun x => x.core == core && x.group == h.group
    return (x.base, y.base, l.record.tbuf)
  laid.mapHarts fun h => h.shiftEarly s.pkg core (if h.isResident && h.core == core then moved h else none)

/-- A core group gains its launch's allocation on a core, keeps the one it has there, or shares that of a parked core group
of the launch, whether it lies in the buffer or waits outside it; its own comes with all that share it (R168). -/
def State.gainBuffer (s : State) (uid group core : Nat) : State :=
  match s.launch? uid with
  | none => s
  | some l =>
    if l.record.tbuf = 0 || l.allocs.any (fun x => x.group == group && x.core == core) then s
    else
      let s := (l.allocs.filter fun x => x.group == group).foldl (fun s x => s.stow l x.core x.base (l.sharers x.core x.base)) s
      match l.allocs.find? fun x => x.core == core with
      | some x => s.layAt uid [group] none core x.base
      | none =>
        let lasting := l.stowed.find? fun y => y.core == core && (y.groups.any fun g => g != group && s.keepsBuffer uid g)
        let old := lasting.or (s.stowedOf uid [group])
        let sharers := ((old.map (·.groups)).getD []).filter (· != group)
        let lay (s : State) (b : Nat) : State := s.layAt uid (group :: sharers) old core b
        match s.roomAt core l.record.tbuf with
        | some b => lay s b
        | none =>
          let s := s.repack core l.record.tbuf
          lay s ((s.roomAt core l.record.tbuf).getD 0)

/-- A core group gives its allocation up, once none of its harts lives (R282); those that share it keep it, in the buffer as long as
one of them is placed on the core or parked from it (R168). -/
def State.freeBuffer (s : State) (uid group : Nat) : State :=
  if s.harts.any fun h => h.launch == uid && h.group == group then s
  else
    let t := s.onLaunch uid fun m => { m with
      allocs := m.allocs.filter fun y => y.group != group
      stowed := withoutGroups [group] m.stowed }
    match t.launch? uid with
    | some l => (l.allocs.map (·.group)).foldl (fun t g => t.leaveBuffer uid g) t
    | none => t

/-! Fusion -/

/-- Fuse or unfuse a core's cluster at a placement (R174): its L1s are written back and every line invalidated. DESIGN
CHOICE (notes/assumptions/18.md): dirty bytes in error are dropped; no instruction forced the write-back, and nothing faults. -/
def State.fuse (s : State) (core : Nat) : State :=
  let cluster := core / 4
  let want := s.harts.any fun h => h.isResident && h.core / 4 == cluster && (s.recordOf h).fuses
  if want = s.fused.contains cluster then s
  else
    let caches := if want then (upTo 4).map (4 * cluster + ·) else [256 + cluster]
    let s := caches.foldl State.writeBackAll s
    { s with
      l1 := s.l1.filter fun x => !caches.contains x.cache
      fused := if want then cluster :: s.fused else s.fused.filter (· != cluster) }

/-! Starting and restoring a hart -/

/-- The start values of a hart (R63, R64, R65, R277). -/
def LaunchRec.start (r : LaunchRec) (index : Nat) (h : Hart) : Hart :=
  let x := ((Vector.replicate 32 (0 : Word)).set 10 r.args).set 11 (BitVec.ofNat 64 index)
  let h := { h with
    index := index, group := index / r.hpc, pc := r.entry, x := x.set 12 (BitVec.ofNat 64 r.nharts)
    rad := BitVec.ofNat 7 r.rad, vgrant := r.lgmax, held := r.lgmax
    status := { sup := r.flags.getLsbD 4 } }
  if r.flags.getLsbD 0 then { h with leadActive := true, lead := { h.forkedLead with pc := r.entry } } else h

/-- The control registers that resumption takes from the save area, with their places in it (R393). Those that R157 gives as
read only keep their values, as read-only fields do (R394, R158). -/
def savedRegs : List (CtlReg × Nat) :=
  [(.fmode, 0), (.fflags, 1), (.rkey, 2), (.lslip, 7), (.lskew, 8), (.vbyp, 9), (.rad, 10), (.lstat, 11), (.cw, 12),
   (.status, 14), (.epc, 15), (.tcause, 16), (.tval, 17), (.tidx, 18), (.tvec, 19)]

/-- A word of a hart's save area, at its home (R393). -/
def State.areaWord (s : State) (h : Hart) (off : Nat) : Word := BitVec.ofNat 64 (leNat (s.homeRead (h.handle + off) 8))

/-- The lowest slot of a save area that holds an edit error (R394). -/
def State.editError (s : State) (h : Hart) : Option Nat :=
  if (s.areaWord h 0x100).toNat % 4 ≠ 0 then some 0x100
  else (savedRegs.find? fun r => r.1.forbids (s.areaWord h (0x110 + 8 * r.2))).map fun r => 0x110 + 8 * r.2

/-- A hart restored from its save area (R297 step 2, R394). Another resume PC leaves captured values and progress unused. -/
def State.restored (s : State) (h : Hart) : Hart :=
  let pc := s.areaWord h 0x100
  let xs := Vector.ofFn fun (i : Fin 32) => if i.val = 0 then (0 : Word) else s.areaWord h (8 * i.val)
  let moved := pc != h.pc
  let h := { h with
    x := xs, pc := pc, c := BitVec.ofNat 8 ((s.areaWord h 0x108).toNat % 256) ||| 1
    captured := if moved then (h.forget h.pc).captured else h.captured
    syncArrived := if moved then (h.forget h.pc).syncArrived else h.syncArrived
    resumed := !moved
    progress := if moved then {} else h.progress }
  savedRegs.foldl (fun h r => h.ctlWrite r.1 (s.areaWord h (0x110 + 8 * r.2))) h

/-- The address of an uncorrectable error in what resumption reads of a save area (R389). -/
def State.areaError (s : State) (h : Hart) : Option Nat :=
  s.poison.find? fun a => (s.saveArea h).any fun p => decide (h.handle + p.1 ≤ a) && decide (a < h.handle + p.1 + p.2.length)

/-- Is a save area as the context save left it, but for what supervisor software may change (R394)? -/
def State.areaKept (s : State) (h : Hart) : Bool := s.areaNow h == h.areaCells

/-- A hart of unpredictable state (R394): everything that the context holds is free, the entries of its queue registers among
it. -/
def State.unpredictable (s : State) (h : Hart) : Hart × State :=
  let f (i : Nat) : Nat := Config.freeBits (s.draws + i)
  let w (i : Nat) : Word := BitVec.ofNat 64 (f i)
  let b (i : Nat) : Bool := f i % 2 == 1
  ({ h with
      x := Vector.ofFn fun (i : Fin 32) => if i.val = 0 then (0 : Word) else w i.val
      c := BitVec.ofNat 8 (f 32) ||| 1, pc := w 33 &&& ~~~3
      v := Vector.ofFn fun (i : Fin 32) => { img := BitVec.ofNat 16384 (f (64 + i.val)), tag := Tag.ofCode (f (96 + i.val) % 16) }
      m := Vector.ofFn fun (i : Fin 8) => if i.val = 0 then BitVec.allOnes 2048 else BitVec.ofNat 2048 (f (128 + i.val))
      tiles := Vector.ofFn fun (i : Fin 16) =>
        { img := BitVec.ofNat 131072 (f (144 + i.val)), tag := if f (160 + i.val) % 3 = 0 then .dead else if b (160 + i.val) then .f32 else .i32 }
      bound := f 34 % 17, ltag := Tag.ofCode (f 35 % 16), vlen := f 36 % 8193, vlmax := f 37 % 8193, vgrant := f 38 % 9
      progress := { vcomp := BitVec.ofNat 2048 (f 39), vstart := BitVec.ofNat 12 (f 40), addr := if b 41 then some (w 42) else none }
      heldProgress := { vcomp := BitVec.ofNat 2048 (f 43), vstart := BitVec.ofNat 12 (f 44), addr := if b 45 then some (w 46) else none }
      captured := [], resumed := true, syncArrived := if b 179 then [(w 33 &&& ~~~3, BitVec.ofNat 4 (f 180))] else [], fmode := BitVec.ofNat 6 (f 47), fflags := BitVec.ofNat 6 (f 48), rkey := w 49
      lslip := BitVec.ofNat 4 (f 50), lskew := BitVec.ofNat 3 (f 51), vbyp := BitVec.ofNat 24 (f 52), rad := BitVec.ofNat 7 (1 + f 53 % 64)
      divs := BitVec.ofNat 32 (f 54), cw := BitVec.ofNat 5 (f 55), tagmap := w 56
      status := { pie := b 57, pprv := b 58, matrix := b 59, ie := b 60, sup := b 61 }
      epc := w 62, tcause := BitVec.ofNat 8 (f 63), tval := w 176, tidx := BitVec.ofNat 12 (f 177), tvec := w 178 &&& ~~~3
      irq := b 181, leadActive := b 182
      tags := Vector.ofFn fun (i : Fin 64) =>
        { errpend := b (256 + i.val), err := b (320 + i.val), time := BitVec.ofNat 63 (f (384 + i.val)),
          scope := BitVec.ofNat 3 (f (448 + i.val) % 6), cause := BitVec.ofNat 8 (f (512 + i.val)), addr := w (576 + i.val) }
      slots := Vector.ofFn fun (i : Fin 4) =>
        { cfg := b (640 + i.val), base := w (644 + i.val), stride := w (648 + i.val), length := BitVec.ofNat 32 (f (652 + i.val)),
          tag := Tag.ofCode (1 + f (656 + i.val) % 14), descending := b (660 + i.val), sbuf := BitVec.ofNat 16 (f (664 + i.val)),
          soff := BitVec.ofNat 32 (f (668 + i.val)), scope := BitVec.ofNat 3 (f (672 + i.val) % 6),
          cw := BitVec.ofNat 5 (f (676 + i.val)), sup := h.status.sup && b (680 + i.val),
          cursor := BitVec.ofNat 32 (f (684 + i.val)), avail := BitVec.ofNat 32 (f (688 + i.val)), last := BitVec.ofNat 32 (f (692 + i.val)) }
      bars := Vector.ofFn fun (i : Fin 16) =>
        { init := BitVec.ofNat 32 (f (704 + i.val)), phase := BitVec.ofNat 32 (f (720 + i.val)), pending := b (736 + i.val),
          member := b (752 + i.val), dropped := b (768 + i.val) }
      tide := { declared := w 183, undeclared := w 184, throttled := w 185, stagger := w 186, unused := w 187, stamp := w 188 } },
    { s with
      draws := s.draws + 1024
      queues := s.queues.map fun (q : QReg) =>
        if q.core.isNone && q.launch == h.launch && q.prod == h.index then
          { q with data := (upTo (f 189 % 33)).map fun i => w (800 + i) }
        else q })

/-- The executing hart, not yet running, parks at once: a damaged context (R389) or an edit error (R394). -/
def State.parkAgain (s : State) (t : Trap) (damaged : Bool) : State :=
  let h := s.cur
  let r := s.faultRecord { h with epc := s.areaWord h 0x100, tval := t.tval, tidx := 0 } t.cause damaged
  let s := { s with cur := { h with place := .parked damaged, held := 0 } }
  let s := s.onPart h.part fun p => { p with posting := p.posting ++ [r] }
  if damaged then s
  else s.homeWrite (h.handle + 0x188) (wordsBytes [s.areaWord h 0x100, t.cause.setWidth 64, t.tval, 0])

/-- Resumption of one hart on a core and slot (R297, R246). -/
def State.resumeHart (s : State) (uid core slot cls : Nat) : State :=
  match s.focus uid with
  | none => s
  | some s =>
    let kept := { s.cur with place := .resident core slot, hid := s.hidOf core slot, cls := cls, placedAt := s.nextUid }
    let area := { s with cur := kept }
    match s.areaError s.cur, s.editError s.cur with
    | some a, _ => area.parkAgain { cause := 0x0D, tval := BitVec.ofNat 64 a } true
    | none, some off => area.parkAgain { cause := 0x01, tval := BitVec.ofNat 64 off } false
    | none, none =>
      let (h, s) := if s.areaKept s.cur then (s.restored kept, s) else s.unpredictable kept
      let s := { s with
        cur := { h with held := if h.status.matrix then max 1 (chosenHeld s h) else chosenHeld s h, lead := {}, refork := h.leadActive }
        queues := s.queues.map fun (q : QReg) =>
          if q.core.isNone && q.launch == h.launch && q.prod == h.index then { q with core := some core } else q }
      (s.bringBars s.cur).acquireBy core (s.partScope h.part)
where
  /-- The held grant at a placement (R292, R96), within lgmin and lgmax (R95). -/
  chosenHeld (s : State) (h : Hart) : Nat :=
    let r := s.recordOf h
    max r.lgmin (s.reclaims.foldl (fun g q => if q.hart = h.uid && !q.victim then min g q.leave else g) r.lgmax)

/-- The start of one hart on a core and slot (R65, R95, R198, R393). -/
def State.startHart (s : State) (l : Launch) (index core slot cls : Nat) : State :=
  let area := match s.part? l.record.part with
    | some p => p.saveBase + 0x80000 * ((s.freeAreas p).head?.getD 0)
    | none => 0
  let h : Hart := l.record.start index
    { uid := s.nextUid, launch := l.uid, part := l.record.part, cls := cls, place := .resident core slot,
      placedAt := s.nextUid, handle := area, hid := s.hidOf core slot }
  let s := { s with rest := h :: s.rest, nextUid := s.nextUid + 1 }
  s.acquireBy core (s.partScope l.record.part)

/-- The free hart slots of a core, in an order that the scheduler draws, any order (R285). -/
def State.slotsOf (s : State) (core : Nat) : List Nat × State :=
  let taken := (s.residents core []).map fun h => match h.place with
    | .resident _ n => n
    | _ => 0
  let free := (upTo 8).filter fun n => !taken.contains n
  let (k, s) := s.draw
  (permuteBy free.length k free, s)

/-- Place one core group on a core (R285, R168, R174). -/
def State.placeGroup (s : State) (e : Entry) (core : Nat) (g : Nat × List Nat) : State :=
  let (slots, s) := s.slotsOf core
  let s := s.gainBuffer e.launch g.1 core
  let s := (g.2.zip slots).foldl (fun s p =>
    if e.resumes then s.resumeHart p.1 core p.2 e.cls
    else match s.launch? e.launch with
      | some l => s.startHart l p.1 core p.2 e.cls
      | none => s) { s with nextUid := s.nextUid + 1 }
  s.fuse core

/-- Harts of a resumed unit that parked again call their unit away (R296). -/
def State.callAgain (s : State) (uids : List Nat) : State :=
  uids.foldl (fun s u =>
    match s.hart? u with
    | some h =>
      match h.place with
      | .parked _ => (s.focus u).elim s fun t => t.callUnit t.cur
      | _ => s
    | none => s) s

/-- The wait of the next head of a run queue, or of a resume list, begins (R289). -/
def State.renewHead (s : State) (part cls : Nat) (onResume : Bool) : State :=
  if onResume then
    { s with resumeq := updateAt (fun e => e.part == part && e.cls == cls) (fun e => { e with since := s.shore }) s.resumeq }
  else { s with runq := updateAt (fun e => e.part == part && e.cls == cls) (fun e => { e with since := s.shore }) s.runq }

/-- Take a placed record from a spawn queue, which may return to breadth-first order (R291). -/
def SpawnQueue.take (q : SpawnQueue) (u : Nat) : SpawnQueue :=
  let rs := q.records.filter (· != u)
  { q with records := rs, depthFirst := q.depthFirst && decide (q.low ≤ rs.length) }

/-- Has the launch ended: all its harts have exited (R282), and its spawn queue is empty? -/
def Launch.over (l : Launch) : Bool := decide (l.record.nharts ≤ l.exited) && l.spawn.all fun q => q.records.isEmpty

/-- What a placement leaves of its source (R287, R288, R291). -/
def State.served (s : State) (part : Nat) (e : Entry) : State :=
  match e.source with
  | .resume x => ({ s with resumeq := s.resumeq.filter fun y => y != x }).renewHead part e.cls true
  | .spawn parent u =>
    let s := s.onLaunch u fun l => { l with placed := l.placed + e.groups.length }
    let s := { s with spawnTurn := (part, e.cls, parent) :: s.spawnTurn.filter fun t => !(t.1 == part && t.2.1 == e.cls) }
    match s.launch? u with
    | some l =>
      if l.record.groupCount ≤ l.placed then
        let s := s.onLaunch parent fun m => { m with spawn := m.spawn.map fun q => q.take u }
        { s with launches := s.launches.filter fun m => !(m.uid == parent && m.over) }
      else s
    | none => s
  | .run x =>
    let s := s.onLaunch x.launch fun l => { l with placed := l.placed + e.groups.length }
    match s.launch? x.launch with
    | some l =>
      let s := if l.record.groupCount ≤ l.placed then { s with runq := s.runq.filter fun y => y.launch != x.launch } else s
      s.renewHead part e.cls false
    | none => s

/-- Place an entry on its cores (R287, R297). -/
def State.placeEntry (s : State) (part : Nat) (e : Entry) (cores : List (Nat × (Nat × List Nat))) : State :=
  let s := cores.foldl (fun s p => s.placeGroup e p.1 p.2) s
  let used := cores.map (·.1)
  let s := { s with reserved := s.reserved.filter fun r => !(used.contains r.core && decide (r.cls ≤ e.cls)) }
  let s := (s.served part e).lift
  if e.resumes then s.callAgain (e.groups.flatMap (·.2)) else s

/-! Victims (R294) -/

/-- The unit of a hart among the resident harts. -/
def State.unitOf (s : State) (h : Hart) : List Hart := s.harts.filter fun g => g.isResident && (g.uid == h.uid || s.sameUnit g h)

/-- Which unit goes first: the lower class, then the one placed later (R294). -/
def goesBefore (a b : Hart) : Bool := decide (a.cls < b.cls) || (a.cls == b.cls && decide (b.placedAt ≤ a.placedAt))

/-- The units that can be victims of an entry of a class, in the order of R294, one hart for each. -/
def State.candidates (s : State) (part cls : Nat) : List Hart :=
  let asked (h : Hart) : Bool := s.reclaims.any fun r => r.hart == h.uid && r.victim
  let hs := s.harts.filter fun h => h.isResident && h.part == part && decide (h.cls < cls) && !s.noPreempt h && !asked h
  let firsts := hs.filter fun h => (s.unitOf h).all fun g => decide (h.uid ≤ g.uid)
  firsts.foldl (fun l h => l.takeWhile (goesBefore · h) ++ h :: l.dropWhile (goesBefore · h)) []

/-- The cores of an entry once a prefix of the candidates has left, with the harts that must leave. -/
def State.victimsFor (s : State) (part : Nat) (e : Entry) (gone : List Nat) :
    List Hart → Option (List Nat × List Nat)
  | [] => (s.assignAny e part gone).map fun a => (a.map (·.1), gone)
  | h :: rest =>
    match s.assignAny e part gone with
    | some a => some (a.map (·.1), gone)
    | none => s.victimsFor part e (gone ++ (s.unitOf h).map (·.uid)) rest

/-- Ask victims for the first head that no core admits (R294): they leave at their next grant point or at the deadline, and
only from the cores that then admit the entry. -/
def State.chooseVictims (s : State) (p : Partition) : State :=
  let asked := (s.reclaims.filter (·.victim)).map (·.hart)
  let waiting := classes.flatMap fun c => (s.heads p.id).filter fun e => e.cls == c
  let needy (e : Entry) : Option (Entry × List Nat × List Nat) :=
    if (s.assignAny e p.id asked).isSome then none
    else (s.victimsFor p.id e asked (s.candidates p.id e.cls)).map fun v => (e, v.1, v.2)
  match waiting.findSome? needy with
  | none => s
  | some (e, cores, gone) =>
    let on (h : Hart) : Bool := gone.contains h.uid && !asked.contains h.uid &&
      (s.unitOf h).any fun g => cores.contains g.core
    let victims := s.harts.filter on
    { s with
      reclaims := s.reclaims ++ victims.map fun h =>
        ({ hart := h.uid, leave := 0, victim := true, deadline := some (s.cycle + p.acting.revoke.toNat)
           need := some (s.demand e) } : Reclaim)
      reserved := s.reserved ++ cores.map fun c => { core := c, cls := e.cls, need := s.demand e } }

/-- The partition that a core serves. -/
def State.partOfCore (s : State) (core : Nat) : Option Partition := s.parts.find? fun p => p.cores.contains core

end Sys2Proof.Machine
end

