-- ==== Sys2Proof/Machine/Queue.lean ====
section
/-! DEFINITION. Queue registers (13_lead_queues.md, R247-R253) and the LEAD instructions (R245). -/

namespace Sys2Proof.Machine

/-- The bound queue register of a number on a core. -/
def State.queue? (s : State) (core : Nat) (q : BitVec 3) : Option QReg :=
  s.queues.find? fun x => x.core == some core && x.q == q

/-- Is the entry that register? -/
def QReg.is (core : Nat) (q : BitVec 3) (x : QReg) : Bool := x.core == some core && x.q == q

/-- Unbind a queue register (R252): entries, count and binding are cleared. Its sleepers wake through QUEUE_WAKE. -/
def State.unbind (s : State) (core : Nat) (q : BitVec 3) : State :=
  { s with queues := s.queues.filter fun x => !x.is core q }

/-- Is the hart the producer, the consumer (R250, R251)? -/
def QReg.producedBy (x : QReg) (h : Hart) : Bool := x.launch == h.launch && x.prod == h.index
def QReg.consumedBy (x : QReg) (h : Hart) : Bool := x.launch == h.launch && x.cons == h.index

/-- Is the index that of a live hart of the launch placed on the core (R249)? -/
def State.placedHere (s : State) (h : Hart) (index : Nat) : Bool :=
  s.harts.any fun g => g.launch == h.launch && g.index == index && g.isResident && g.core == h.core

/-- `qbind` (R249). -/
def execQbind (a b : BitVec 5) (q : BitVec 3) (s : State) : Result :=
  finish (do
    let h := s.cur
    let p := s.x a
    let c := s.x b
    need (p != c) 0x0B p
    need (s.placedHere h p.toNat) 0x0B p
    need (s.placedHere h c.toNat) 0x0B c
    need (h.index == p.toNat || h.index == c.toNat) 0x0B (BitVec.ofNat 64 h.index)
    let fresh : QReg := { core := some h.core, q := q, launch := h.launch, prod := p.toNat, cons := c.toNat }
    match s.queue? h.core q with
    | none => modify fun s => { s with queues := fresh :: s.queues }
    | some x =>
      need (x.launch == h.launch) 0x0B (q.setWidth 64)
      if x.prod = p.toNat && x.cons = c.toNat then pure ()
      else
        need (x.prod == h.index || x.cons == h.index) 0x0B (q.setWidth 64)
        modify fun s => { s.unbind h.core q with queues := fresh :: (s.unbind h.core q).queues }
    retireM) s

/-- `qpush` with its value read (R250): the binding check, then it sleeps on a full queue or appends. -/
def pushQueue (q : BitVec 3) (v : Word) : M Unit := do
  let s ← get
  let h := s.cur
  match s.queue? h.core q with
  | none => trap 0x0B
  | some x =>
    need (x.producedBy h) 0x0B
    if 32 ≤ x.data.length then modCur fun h => { h with wait := .qpush q v }
    else
      releaseM 1
      modify fun s => { s with queues := updateAt (QReg.is h.core q) (fun x => { x with data := x.data ++ [v] }) s.queues }
      retireM

/-- `qpop` (R250): the binding check, then it sleeps on an empty queue or takes the oldest entry. -/
def popQueue (q : BitVec 3) (d : BitVec 5) : M Unit := do
  let s ← get
  let h := s.cur
  match s.queue? h.core q with
  | none => trap 0x0B
  | some x =>
    need (x.consumedBy h) 0x0B
    match x.data with
    | [] => modCur fun h => { h with wait := .qpop q d }
    | v :: rest =>
      modCur fun h => h.setX d v
      modify fun s => { s with queues := updateAt (QReg.is h.core q) (fun x => { x with data := rest }) s.queues }
      acquireM 1
      retireM

/-- `qpush` (R250). -/
def execQpush (a : BitVec 5) (q : BitVec 3) (s : State) : Result := finish (pushQueue q (s.x a)) s

/-- `qpop` (R250). -/
def execQpop (d : BitVec 5) (q : BitVec 3) (s : State) : Result := finish (popQueue q d) s

/-- A sleeping `qpush` or `qpop` looks at its queue again (R250). One whose partner has left with the queue is about to leave
too (R253). -/
def execQueueWake (hart : Nat) (s : State) : Result :=
  s.eventOn hart fun s =>
    if s.mustLeave s.cur then .next s
    else match s.cur.wait with
    | .qpush q v => finish (pushQueue q v) s
    | .qpop q d => finish (popQueue q d) s
    | _ => .next s

/-- What `qstat` reads (R251). -/
def QReg.word (x : QReg) (h : Hart) : Nat :=
  if x.launch = h.launch then
    x.data.length + 64 + flag (x.producedBy h) * 128 + flag (x.consumedBy h) * 256
  else 64

/-- `qstat` (R251). -/
def execQstat (d : BitVec 5) (q : BitVec 3) (s : State) : Result :=
  let v := match s.queue? s.cur.core q with
    | some x => x.word s.cur
    | none => 0
  .next (s.setX d (BitVec.ofNat 64 v)).retire

/-! LEAD (R245) -/

/-- The lead restarts at the next instruction, `divs` unchanged (R245). DESIGN CHOICE (notes/assumptions/28.md): as the first
instruction after resumption it takes the place of the re-fork of R240, and `divs` stays. -/
def State.restartLead (s : State) : State :=
  let s := s.onCur fun h => { h with refork := false, lead := { h.lead with stoppedAt := none } }
  (s.retireTo (s.cur.pc + 4)).onCur fun h => { h with lead := h.forkedLead, leadStopped := false }

/-- `lsync` (R245). -/
def execLsync (s : State) : Result := .next (if s.cur.leadActive then s.restartLead else s.retire)

/-- `loff` (R245). -/
def execLoff (s : State) : Result :=
  .next (s.onCur fun h => { h with leadActive := false, leadStopped := true, lead := {}, refork := false }).retire

/-- `lon` (R245). -/
def execLon (s : State) : Result := .next (s.onCur fun h => { h with leadActive := true }).restartLead

end Sys2Proof.Machine
end

