-- ==== Sys2Proof/Machine/Windows.lean ====
section
/-! DEFINITION. Foreshore windows, node tables and lineage masks (18_foreshore.md; R331-R333). -/

namespace Sys2Proof.Machine

/-! Window records -/

/-- The record page of an open window (R336). -/
def State.recordPage (s : State) (launch w : Nat) : Option Word := (s.launch? launch).bind fun l => l.dir[w % 16]?.join

/-- Set a directory entry of a launch (R336). -/
def Launch.setDir (w : Nat) (v : Option Word) (l : Launch) : Launch := { l with dir := l.dir.set (w % 16) v }

/-- The window number in a register and its record page, or the trap of R331. -/
def openWindow (xw : Word) : M (Nat × Word) := do
  let s ← get
  match (if xw.toNat < 16 then s.recordPage s.cur.launch xw.toNat else none) with
  | some r => return (xw.toNat, r)
  | none => trap 0x07 xw

/-- A field of a window's record, read at its home and not checked (R337, R335). -/
def recordField (a : Agent) (r : Word) (off n : Nat) : PM Nat := do
  return leNat (← planRead a .ownRead (r + BitVec.ofNat 64 off) n)

/-- Write a field of a window's record (R337). -/
def setRecordField (a : Agent) (r : Word) (off n v : Nat) : PM Unit :=
  planWrite a .ownWrite (r + BitVec.ofNat 64 off) (leBytes n v)

/-- Zero the bytes of the record that commit and drop clear (R343, R345). -/
def clearRecord (a : Agent) (r : Word) : PM Unit := planWrite a .ownWrite (r + 0x18) (fill 0xC8 0)

/-- Clear `cw.valid` when it names a window (R343, R344). -/
def Hart.leaveWindow (w : Nat) (h : Hart) : Hart := if h.cw.toNat % 16 = w then { h with cw := h.cw &&& 15 } else h

/-! Node tables (R332) -/

/-- The byte of a node, read as a relaxed load (R332). -/
def nodeByte (a : Agent) (r : Word) (n tidx : Nat) : M Nat := do
  let va := r + BitVec.ofNat 64 (0x40 + n)
  let p ← xlateM a .ownRead va tidx
  let bs ← readPhys p 1 .plain false va tidx
  modCur (Hart.settle p.pa 1)
  return leNat bs

/-- `lnset` (R332): the field of xd names the window's register. DESIGN CHOICE (notes/assumptions/26.md): where both node numbers
are 64 or above `tval` holds the node's. -/
def execLnset (w a b : BitVec 5) (s : State) : Result :=
  finish (do
    let (_, r) ← openWindow (s.x w)
    let ag := s.cur.agent s.cur.cw
    let (st, _) ← (recordField ag r 0x18 1).run []
    need (!bit st 1) 0x07
    let node := s.x a
    let parent := s.x b
    need (decide (node.toNat < 64)) 0x08 node
    need (decide (parent.toNat < 64)) 0x08 parent
    need (!bit (← nodeByte ag r node.toNat 0) 6) 0x08 node
    need (parent == node || bit (← nodeByte ag r parent.toNat 0) 6) 0x08 parent
    let p ← xlateM ag .ownWrite (r + 0x40 + node)
    writePhys p [BitVec.ofNat 8 (64 + parent.toNat)] false (r + 0x40 + node)
    retireM) s

/-- `lnget` (R332). -/
def execLnget (d a b : BitVec 5) (s : State) : Result :=
  finish (do
    let (_, r) ← openWindow (s.x a)
    let node := (s.x b).toNat
    let v ← if node < 64 then nodeByte (s.cur.agent s.cur.cw) r node 0 else pure 0
    modCur fun h => h.setX d (if bit v 6 then BitVec.ofNat 64 (v % 128) else 0)
    retireM) s

/-- Is node `key` the node `n` or reached from it by following parents (R333)? -/
def reaches (node : Nat → M Nat) (key : Nat) : Nat → Nat → M Bool
  | 0, _ => return false
  | fuel + 1, n => do
    if n = key then return true
    let p := (← node n) % 64
    if p = n then return false else reaches node key fuel p

/-- The results of VLIN for the active elements in ascending order. -/
def vlinElems (f : Nat → M Bool) : List Nat → M (List (Nat × Bool))
  | [] => return []
  | i :: is => do
    let r ← f i
    return (i, r) :: (← vlinElems f is)

/-- The frame of VLIN (R333). An element in error is not resolved; its trap comes after those of the others (R112, R382). -/
def vlinFrame (a v : BitVec 5) (m : BitVec 3) (prepare : M (Nat → M Bool)) : M Unit := do
  let h ← curHart
  notMatrixNotReleased
  need ((h.getV a).tag.isInt && (h.getV v).tag.isInt) 0x02
  capacity [(h.getV a).tag, (h.getV v).tag]
  settledElems none [a, v]
  let f ← prepare
  let us := (upTo h.vlen).filter fun i => (h.getM m).getLsbD i && (h.clean || !h.readsBad [a, v] m false i)
  let rs ← vlinElems f us
  soundBelow h.vlen (Hart.readsBad [a, v] m false)
  modCur fun h => h.writeMask m h.vlen fun i => (rs.find? fun r => r.1 == i).map Prod.snd
  retireVector

/-- `vlin` (R333): draft trees; the field of vd names vb, b names xs. -/
def execVlin (v a b : BitVec 5) (m : BitVec 3) (s : State) : Result :=
  finish (vlinFrame a v m (do
    let (_, r) ← openWindow (s.x b)
    let node (i n : Nat) : M Nat := nodeByte (s.cur.agent s.cur.cw) r n i
    return fun i => do
      let q := (s.cur.getV a).elem i
      let k := (s.cur.getV v).elem i
      if 64 ≤ q || 64 ≤ k then return false
      if !bit (← node i q) 6 then return false
      reaches (node i) k 64 q)) s

/-- The identity of a map (R315). -/
def identity (rd : Reader) (handle : Word) (tidx : Nat) : PM Word := do
  if isHeader handle then return handle
  else if isVersion handle then
    let map := BitVec.ofNat 64 (← rd (handle - 1 + 0x28))
    if !isHeader map then (trap 0x08 handle tidx : M Unit)
    return map
  else (trap 0x03 handle tidx : M Word)

/-- The lineage of a branch (R333): identities with the bound on key positions, the branch itself first, through at most so
many ancestors. -/
def lineage (rd : Reader) (tidx : Nat) : Nat → MapView → Nat → PM (List (Word × Nat))
  | 0, v, bound => do
    if v.hdr.parent ≠ 0 then (trap 0x08 0 tidx : M Unit)
    return [(v.hdr.addr, bound)]
  | n + 1, v, bound => do
    if v.hdr.parent = 0 then return [(v.hdr.addr, bound)]
    let u ← readView rd v.hdr.parent tidx
    return (v.hdr.addr, bound) :: (← lineage rd tidx n u (min bound v.hdr.fork))

/-- `vlin.b` (R333): branch lineage. -/
def execVlinB (v a b : BitVec 5) (m : BitVec 3) (s : State) : Result :=
  finish (vlinFrame a v m (do
    let rd (i : Nat) : Reader := relaxedReader (s.cur.agent s.cur.cw) i
    let (keys, _) ← (identity (rd 0) (s.x b) 0).run []
    return fun i => do
      let (line, _) ← (do
        let u ← readView (rd i) (BitVec.ofNat 64 ((s.cur.getV a).elem i)) i
        lineage (rd i) i 8 u u.length : PM (List (Word × Nat))).run []
      return line.any fun l => l.1 == keys && decide ((s.cur.getV v).elem i < l.2))) s

/-! SWIN -/

/-- The checks of `swopen` (R341) in their order, and the record it writes. -/
def openRecord (s : State) (xh base : Word) : PM Nat := do
  let a := s.cur.agent s.cur.cw
  if base.toNat % 65536 ≠ 0 then (trap 0x03 base : M Unit)
  let p ← (xlateM a .ownWrite base : M Phys)
  match p.arena with
  | none => (trap 0x07 base : M Nat)
  | some w =>
    if (s.recordPage s.cur.launch w).isSome then (trap 0x07 base : M Unit)
    if !isHeader xh then (trap (if isVersion xh then 0x08 else 0x03) xh : M Unit)
    let h ← readHeader (homeReader a) xh xh
    let bytes ← planRead a .ownRead (base + 0x18) 0xC8
    if !bytes.all (· == 0) then (trap 0x07 : M Unit)
    setRecordField a base 0 8 xh.toNat
    setRecordField a base 8 4 h.length
    setRecordField a base 0x10 8 (Config.launchIdentity s.cur.launch).toNat
    setRecordField a base 0x18 1 1
    return w

/-- `swopen` (R341). -/
def execSwopen (d a b : BitVec 5) (s : State) : Result :=
  finish (do
    let w ← planned (openRecord s (s.x a) (s.x b))
    modify fun t => t.onLaunch s.cur.launch (Launch.setDir w (some (s.x b)))
    modCur fun h => h.setX d (BitVec.ofNat 64 w)
    retireM) s

/-- Give the draft blocks of a window back to their pools (R343, R345, R349). With `strict`, a pool that cannot take a block
traps with cause 0x08; else such a block is left out of every pool. -/
def freeDrafts (a : Agent) (r : Word) (strict : Bool) : List Nat → PM Unit
  | [] => pure ()
  | q :: qs => do
    let e ← recordField a r (0x80 + 8 * q) 8
    let pool := BitVec.ofNat 64 (← recordField a r (0xA0 + 8 * q) 8)
    let p ← readPool a pool
    if p.cap ≤ p.count then
      if strict then (trap 0x08 pool : M Unit)
    else
      (releaseM p.scope : M Unit)
      p.push a [BitVec.ofNat 64 (e / 65536 * 65536)]
    freeDrafts a r strict qs

/-- `swdrop` (R343). -/
def execSwdrop (a : BitVec 5) (s : State) : Result :=
  finish (do
    let (w, r) ← openWindow (s.x a)
    let ag := s.cur.agent s.cur.cw
    planned (do
      let st ← recordField ag r 0x18 2
      if bit st 1 then (trap 0x07 : M Unit)
      freeDrafts ag r true (upTo (bits st 8 8))
      clearRecord ag r)
    modify fun t => t.onLaunch s.cur.launch (Launch.setDir w none)
    modCur (Hart.leaveWindow w)
    retireM) s

/-- Give back the draft blocks that can be given back, one by one (R349). -/
def returnDrafts (a : Agent) (r : Word) : List Nat → M Unit
  | [] => pure ()
  | q :: qs => do
    let _ ← attempt (planned (freeDrafts a r false [q]))
    returnDrafts a r qs

/-- The windows that the last `exit` of a launch drops (R349): nothing traps. DESIGN CHOICE (notes/assumptions/26.md): where a
record page can no longer be read or written, the draft blocks that cannot be read are in no pool, the record stays as it is, and
the window closes all the same. -/
def dropWindows (launch : Nat) : List Nat → M Unit
  | [] => pure ()
  | w :: ws => do
    let s ← get
    match s.recordPage launch w with
    | some r =>
      let a := s.cur.agent s.cur.cw
      let n ← attempt (planned (recordField a r 0x19 1))
      returnDrafts a r (upTo (match n with
        | .ok n => min n 4
        | .error _ => 0))
      let _ ← attempt (planned (clearRecord a r))
      modify fun t => t.onLaunch launch (Launch.setDir w none)
    | none => pure ()
    dropWindows launch ws

/-- What `swstat` says of a record (R342). -/
def windowStatus (a : Agent) (r : Word) : PM Nat := do
  let st ← recordField a r 0x18 2
  let blen ← recordField a r 8 4
  let nodes ← planRead a .ownRead (r + 0x40) 64
  return st % 4 + bits st 8 3 * 4 + (nodes.filter fun b => b.getLsbD 6).length * 256 + blen * 2 ^ 32

/-- What `swstat` says of a record that cannot be read: the window is open, the other fields are free. -/
def unreadStatus (f : Nat) : Nat :=
  1 + bits f 1 1 * 2 + bits f 2 3 % 5 * 4 + bits f 8 7 % 65 * 256 + bits f 32 32 * 2 ^ 32

/-- `swstat` (R342). It traps on no read: of a record that cannot be read the manual states no value, and the fields that the
record holds take free ones (notes/assumptions/26.md). -/
def execSwstat (d a : BitVec 5) (s : State) : Result :=
  finish (do
    let xw := s.x a
    need (decide (xw.toNat < 16)) 0x07 xw
    match s.recordPage s.cur.launch xw.toNat with
    | none => modCur fun h => h.setX d 0
    | some r =>
      match ← attempt (planned (windowStatus (s.cur.agent s.cur.cw) r)) with
      | .ok v => modCur fun h => h.setX d (BitVec.ofNat 64 v)
      | .error _ => modify fun t => t.freeWord.2.setX d (BitVec.ofNat 64 (unreadStatus t.freeWord.1.toNat))
    retireM) s

/-! Commit: the push (R344) -/

/-- The window checks of `swcommit` (R344). -/
def commitWindow (xw : Word) : M (Nat × Word) := do
  let (w, r) ← openWindow xw
  let h ← curHart
  let (st, _) ← (recordField (h.agent h.cw) r 0x18 1).run []
  need (!bit st 1) 0x07
  return (w, r)

/-- Make the window checks again and seal the window, as one step (R344). -/
def sealWindow (xw : Word) : M Unit := do
  let (w, r) ← commitWindow xw
  let h ← curHart
  planned (setRecordField (h.agent h.cw) r 0x18 1 3)
  modCur (Hart.leaveWindow w)

/-- The push of `swcommit` after its first checks (R344). -/
def commitPush (tag : Nat) (scope : BitVec 3) (cap : Captured) : M Unit :=
  let xw := cap.operands.getD 0 0
  pushCommand tag scope false (.commit xw.toNat (cap.operands.getD 1 0).toNat) cap 0 0 (pure ()) (pure true) (sealWindow xw)
    false true

/-- `swcommit` (R344). -/
def execSwcommit (k : BitVec 3) (a b : BitVec 5) (g : BitVec 6) (s : State) : Result :=
  finish (do
    let cap ← restarted [s.x a, s.x b]
    let _ ← commitWindow (cap.operands.getD 0 0)
    let node := cap.operands.getD 1 0
    need (decide (node.toNat < 64)) 0x08 node
    commitPush g.toNat k cap) s

/-- A CPY or `swcommit` that waits for its tag or for a FIFO entry goes on (R261, R344). -/
def execCopyPushWake (hart : Nat) (s : State) : Result :=
  s.eventOn hart fun s =>
    match s.cur.wait, s.cur.capturedHere with
    | .push tag scope ord kind checked vs xcore, some cap =>
      match kind with
      | .commit _ _ => finish (commitPush tag scope cap) s
      | .register _ vd _ _ _ _ =>
        finish (cpyPush tag scope ord cap vs xcore (registerKind s xcore (BitVec.ofNat 5 vd) vs) checked) s
      | _ => finish (cpyPush tag scope ord cap vs xcore kind checked) s
    | _, _ => .next s

/-! Commit: what the engine does (R345) -/

/-- The accepted path, root first (R345). -/
def commitPath (a : Agent) (r : Word) : Nat → Nat → List Nat → PM (List Nat)
  | 0, _, acc => return acc
  | fuel + 1, n, acc => do
    let b ← recordField a r (0x40 + n) 1
    if !bit b 6 then (trap 0x08 : M Unit)
    if b % 64 = n then return n :: acc else commitPath a r fuel (b % 64) (n :: acc)

/-- The working entry of a block, 0 when it is not mapped (R321, R345). -/
def workingEntry (a : Agent) (h : MapHeader) (b : Nat) : PM Nat := do
  if 8184 ≤ b / 8192 then (trap 0x08 : M Unit)
  let t ← homeReader a (h.top + BitVec.ofNat 64 (8 * (8 + b / 8192)))
  if !bit t 0 then return 0
  let e ← homeReader a (BitVec.ofNat 64 (t / 65536 * 65536 + 8 * (b % 8192)))
  if !bit e 0 then return 0
  if entryMalformed e then (trap 0x08 : M Unit)
  return e

/-- The tail block of a position, allocated by `balloc` and mapped by `mapset` when it is not (R345, R330, R326), with the scope
of the `balloc`'s acquire. A block that cannot be mapped stays in its pool: no block is lost (R346). -/
def tailEntry (a : Agent) (r map : Word) (p : Nat) : PM (Geometry × Nat × Option Nat) := do
  let h ← readHeader (homeReader a) map map
  let e ← workingEntry a h (p >>> h.geo.lgt)
  if e ≠ 0 then return (h.geo, e, none)
  let tpool := BitVec.ofNat 64 (← recordField a r 0x20 8)
  let pool ← readPool a tpool
  if pool.cap < pool.count || pool.count = 0 then (trap 0x08 : M Unit)
  let blk ← pool.pop a
  if blk = 0 || bits blk.toNat 1 15 ≠ 0 then (trap 0x08 : M Unit)
  setEntry a h (p >>> h.geo.lgt) (blk ||| 1)
  return (h.geo, (blk ||| 1).toNat, some pool.scope)

/-- Run a planned computation of a commit and carry out its writes, which are the engine's (R345, R365). -/
def engineDoes {α : Type} (x : PM α) : M α := do
  let (a, w) ← x.run []
  commitPlan w
  modify fun s => s.countCur 0x0C (w.map fun x => x.bytes.length).sum
  return a

/-- The geometry of a commit's map and the entry of a position's tail block (R345); a malformed entry ends the commit. -/
def tailBlock (a : Agent) (r map : Word) (p : Nat) : M (Geometry × Nat) := do
  let (g, e, taken) ← engineDoes (tailEntry a r map p)
  match taken with
  | some scope => acquireM scope
  | none => pure ()
  need (!entryMalformed e) 0x08
  return (g, e)

/-- Copy one token's bytes of every plane (R345): the draft is read unchecked, the tail is ordinary pages. -/
def copyToken (a : Agent) (src dst : Nat → Word) (n : Nat) : List Nat → M Unit
  | [] => pure ()
  | l :: ls => do
    engineDoes (do
      let bs ← planRead a .ownRead (src l) n
      planWrite a .write (dst l) bs)
    copyToken a src dst n ls

/-- The copies of a commit, node by node (R345). -/
def commitTokens (a : Agent) (r map : Word) (blen : Nat) : List (Nat × Nat) → M Unit
  | [] => pure ()
  | (j, i) :: rest => do
    let p := blen + i
    let (draft, _) ← (do
      let h ← readHeader (homeReader a) map map
      if 4 ≤ j >>> h.geo.lgt then return 0
      recordField a r (0x80 + 8 * (j >>> h.geo.lgt)) 8 : PM Nat).run []
    need (bit draft 0) 0x08
    let (g, e) ← tailBlock a r map p
    need (!entryMalformed draft) 0x08
    copyToken a (g.address draft j) (g.address e p) g.tstride (upTo (g.nplane + 1))
    commitTokens a r map blen rest

/-- The publication of a commit, the frees and the clearing of the record (R345). -/
def commitPublish (a : Agent) (r map : Word) (blen len node : Nat) (scope : BitVec 3) : PM Unit := do
  let h ← readHeader (homeReader a) map map
  if h.length ≠ blen then (trap 0x08 : M Unit)
  let sbase ← recordField a r 0x28 8
  let sstride ← recordField a r 0x30 8
  let rstate := if sbase = 0 then h.rstate else BitVec.ofNat 64 (sbase + node * sstride)
  planWrite a .write (h.addr + 4) (leBytes 4 (blen + len))
  planWrite a .write (h.addr + 0x30) (leBytes 8 rstate.toNat)
  let top ← ownTop a h
  (releaseM scope.toNat : M Unit)
  publish a { h with top := top, length := blen + len, rstate := rstate } scope
  let n ← recordField a r 0x19 1
  freeDrafts a r false (upTo (min n 4))
  clearRecord a r

/-- The commit of an accepted path (R345). -/
def commitWork (c : Cmd) (a : Agent) (r : Word) (node : Nat) : M Unit := do
  let ((map, blen, path), _) ← (do
    let map ← recordField a r 0 8
    let blen ← recordField a r 8 4
    let path ← commitPath a r 64 node []
    return (BitVec.ofNat 64 map, blen, path) : PM (Word × Nat × List Nat)).run []
  commitTokens a r map blen path.zipIdx
  engineDoes (commitPublish a r map blen path.length node c.scope)

/-- The engine performs a commit (R345), or ends it by an error, publishing nothing and unsealing the window (R346). DESIGN CHOICE
(notes/assumptions/26.md): where the record can no longer be written then, the window stays sealed, and the tag has the first
error. -/
def execSwcommitPerform (cmd : Nat) (s : State) : Result :=
  match s.cmds.find? fun c => c.uid == cmd with
  | none => .fault .noSuchAgent
  | some c =>
    match c.kind with
    | .commit w node =>
      if !s.mayComplete c then .next s
      else s.eventOn c.hart fun s =>
        let h := s.cur
        let a : Agent := { core := c.core, part := h.part, launch := h.launch, sup := c.sup, cw := c.cw }
        match s.recordPage h.launch w with
        | none => .next (s.completeCommand c (some { cause := 0x07 }))
        | some r =>
          match commitWork c a r node s with
          | .ok _ s' => .next ((s'.onLaunch h.launch (Launch.setDir w none)).completeCommand c none)
          | .error t s' =>
            match (engineDoes (setRecordField a r 0x18 1 1)) s' with
            | .ok _ s'' => .next (s''.completeCommand c (some t))
            | .error _ s'' => .next (s''.completeCommand c (some t))
    | _ => .next s

end Sys2Proof.Machine
end

