-- ==== Sys2Proof/Machine/Task.lean ====
section
/-! DEFINITION. The TASK instructions and the events of the scheduler (15_run_queues.md; R165). -/

namespace Sys2Proof.Machine

/-! Launch records -/

/-- A launch record from its 64 bytes (R276). -/
def LaunchRec.ofBytes (bs : List Byte) : LaunchRec :=
  let f (off n : Nat) : Nat := leNat ((bs.drop off).take n)
  { entry := BitVec.ofNat 64 (f 0 8), args := BitVec.ofNat 64 (f 8 8), nharts := f 0x10 4, hpc := f 0x14 1
    lgmin := f 0x15 1, lgmax := f 0x16 1, lgw := f 0x17 1, ntile := f 0x18 1, prio := f 0x19 1, tbuf := f 0x1A 2
    flags := BitVec.ofNat 32 (f 0x1C 4), done := BitVec.ofNat 64 (f 0x20 8), part := f 0x28 2, tide := f 0x2A 2
    rad := f 0x2C 2, resv := f 0x2E 2 + 65536 * f 0x38 8, spawnq := BitVec.ofNat 64 (f 0x30 8) }

/-- Do the fields of failure bit 1 lie within their limits (R276)? -/
def LaunchRec.withinLimits (r : LaunchRec) (packages : Nat) : Bool :=
  decide (1 ≤ r.nharts ∧ r.nharts ≤ 2048 * packages ∧ 1 ≤ r.hpc ∧ r.hpc ≤ 8 ∧ r.lgmin ≤ 8 ∧ 1 ≤ r.lgmax ∧ r.lgmax ≤ 8 ∧
    r.lgmin ≤ r.lgmax ∧ 1 ≤ r.lgw ∧ r.lgw ≤ 15 ∧ r.ntile ≤ 16 ∧ r.prio ≤ 7 ∧ r.tbuf ≤ 1536 ∧ r.tide ≤ 16 ∧
    1 ≤ r.rad ∧ r.rad ≤ 64)

/-- Can the record never be placed on so many cores (R276)? -/
def LaunchRec.unplaceable (r : LaunchRec) (cores : Nat) : Bool :=
  decide (16 < r.hpc * r.ntile) || decide (1536 < r.tbuf) || decide (8 < r.hpc * r.lgmin) ||
  (r.gang && decide (cores < r.groupCount))

/-- Failure bits (R276, R277, R280, R281): `sup` is the privilege of the enqueuer, `own` the partition that the record must name,
and `header` whether its spawn queue header is sound. DESIGN CHOICE (notes/assumptions/29.md): a record that names no partition
counts no package and no core, so it also sets bit 1, and bit 5 under GANG. -/
def State.failureBits (s : State) (r : LaunchRec) (sup : Bool) (own : Option Nat) (header : Bool) : Nat :=
  let p := s.part? r.part
  let packages := (p.map fun p => p.otherPackages.length + flag (!p.cores.isEmpty)).getD 0
  let cores := (p.map fun p => p.cores.length + (p.otherPackages.map (·.2)).sum).getD 0
  flag (r.flags.toNat / 32 != 0 || r.resv != 0) + 2 * flag (!r.withinLimits packages) +
  4 * flag (p.isNone || own.any fun o => o != r.part) + 8 * flag (!sup && (r.flags.getLsbD 3 || r.flags.getLsbD 4)) +
  16 * flag (r.entry.toNat % 4 != 0) + 32 * flag (r.unplaceable cores) + 64 * flag (!header) +
  128 * flag (r.spawnq.toNat % 64 != 0)

/-- The spawn queue of a sound header (R290). -/
def SpawnQueue.ofHeader (bs : List Byte) : Option SpawnQueue :=
  let f (off : Nat) : Nat := leNat ((bs.drop off).take 4)
  if 1 ≤ f 0 && f 0 ≤ 65536 && 1 ≤ f 4 && f 4 ≤ f 0 && f 8 < f 4 && (bs.drop 12).all (· == 0) then
    some { capacity := f 0, high := f 4, low := f 8 }
  else none

/-- The spawn queue that a record asks for, and whether its header is sound (R276, R290): a header that does not translate in
the record's partition is not. `read` reads the header at its home. DESIGN CHOICE (notes/assumptions/29.md): one at an address that
is no multiple of 64 sets bit 7 alone, and is not read. -/
def readHeader4 (a : Agent) (r : LaunchRec) (read : Phys → M (List Byte)) : M (Option SpawnQueue × Bool) := do
  let s ← get
  if r.spawnq = 0 || r.spawnq.toNat % 64 ≠ 0 || (s.part? r.part).isNone then return (none, true)
  match ← attempt (xlateM { a with part := r.part } .ownRead r.spawnq) with
  | .error _ => return (none, false)
  | .ok p =>
    let bs ← read p
    let q := SpawnQueue.ofHeader bs
    return (q, q.isSome)

/-- The reads and checks that can trap (R280): the record, and where its completion counter lies. -/
def readRecord (xa : Word) (cw : BitVec 5) : M (LaunchRec × Phys) := do
  need (xa.toNat % 64 == 0) 0x03 xa
  let h ← curHart
  let p ← xlateM (h.agent cw) .read xa
  let r := LaunchRec.ofBytes (← readPhys p 64 .plain true xa)
  modCur (Hart.settle p.pa 64)
  need (r.done.toNat % 8 == 0) 0x03 r.done
  let d ← xlateM (h.agent cw) .write r.done
  return (r, d)

/-- The completion counter's new value (R278): count + 1 without a carry, failure bits set. -/
def counterValue (bits old : Nat) : Nat := (old % 2 ^ 32 + 1) % 2 ^ 32 + 2 ^ 32 * ((old / 2 ^ 32) ||| bits)

/-- Can a completion counter not be counted: its word is in error (R389), or the access is not delivered (R400)? -/
def State.countFails (s : State) (h : Hart) (p : Phys) : Bool :=
  s.badByte h.core (p.attr.mode .fresh) p.pa 8 || h.undelivers p.pa 8

/-- One access to a completion counter at its home (R278). -/
def State.countAt (s : State) (core : Nat) (p : Phys) (bits : Nat) : State :=
  let s := s.writeBackDrop core p.pa
  s.storeHome core p.attr p.pa (leBytes 8 (counterValue bits (leNat (s.homeRead p.pa 8))))

/-- What the area of a record's spawn queue holds (R290), page by page where it translates. -/
def State.spawnArea (s : State) (r : LaunchRec) (q : SpawnQueue) : List (Nat × List Byte) :=
  let a : Agent := { core := 0, part := r.part, launch := 0, sup := true, cw := 0 }
  (pagePieces r.spawnq (64 * (q.capacity + 1))).filterMap fun p =>
    (s.peekXlate a .ownRead (r.spawnq + BitVec.ofNat 64 p.1)).map fun x => (x.1.pa, s.homeRead x.1.pa p.2)

/-- A live launch of a record (R280): nothing placed, no window, every barrier slot zero (R354); its spawn queue area belongs to
the part from now on (R290). -/
def State.newLaunch (s : State) (r : LaunchRec) (q : Option SpawnQueue) : State :=
  let q := q.map fun (q : SpawnQueue) => { q with area := s.spawnArea r q }
  { s with launches := s.launches ++ [{ uid := s.nextUid, record := r, spawn := q }], nextUid := s.nextUid + 1 }

/-- Append a copy of a record to its run queue (R280). -/
def State.enqueue (s : State) (r : LaunchRec) (q : Option SpawnQueue) : State :=
  let e : RunEntry := { part := r.part, cls := r.prio, launch := s.nextUid, since := s.shore }
  let s := s.newLaunch r q
  { s with runq := s.runq ++ [e] }

/-- `launch` (R280). -/
def execLaunch (a : BitVec 5) (s : State) : Result :=
  finish (do
    let h := s.cur
    let (r, d) ← readRecord (s.x a) h.cw
    let (q, sound) ← readHeader4 (h.agent h.cw) r fun p => homeBytes p 64 r.spawnq 0
    let own := if h.status.sup then none else some h.part
    let f := (← get).failureBits r h.status.sup own sound
    releaseM (s.partScope r.part)
    if f = 0 then modify fun s => s.enqueue r q
    else
      need (!(← get).countFails h d) 0x0D r.done
      modify fun s => s.countAt h.core d f
      modCur (Hart.settle d.pa 8)
    retireM) s

/-- What the part keeps in a spawn queue area (R290), the values its own: the rest of the header, and an entry where one
translates. -/
def State.writeSpawnArea (s : State) (uid : Nat) : State :=
  match s.launch? uid with
  | none => s
  | some l =>
    let a : Agent := { core := s.cur.core, part := l.record.part, launch := uid, sup := true, cw := 0 }
    let n := (l.spawn.map fun q => Config.freeBits s.draws % q.capacity).getD 0
    let place (s : State) (off len k : Nat) : State :=
      match s.xlate a .ownWrite (l.record.spawnq + BitVec.ofNat 64 off) with
      | (.ok p, s) => { s.homeWrite p.pa (leBytes len (Config.freeBits (s.draws + k))) with spoiled := s.spoiled }
      | (.error _, s) => s
    let s := place (place s 0x0C 52 1) (64 * (n + 1)) 64 2
    { s with draws := s.draws + 3 }.onLaunch uid fun m =>
      { m with spawn := m.spawn.map fun (q : SpawnQueue) => { q with area := s.spawnArea l.record q } }

/-- A record of which nothing is known but that it can be placed on so many cores (R290). -/
def LaunchRec.unknown (part cores n : Nat) : LaunchRec :=
  let f (i : Nat) : Nat := Config.freeBits (n + i)
  let hpc := 1 + f 3 % 8
  let lgmin := f 4 % (8 / hpc + 1)
  let lgmax := max 1 lgmin
  let r : LaunchRec :=
    { entry := BitVec.ofNat 64 (f 0 * 4), args := BitVec.ofNat 64 (f 1), nharts := 1 + f 2 % 2048, hpc := hpc, lgmin := lgmin
      lgmax := lgmax + f 5 % (9 - lgmax), lgw := 1 + f 6 % 15, ntile := f 7 % (16 / hpc + 1), prio := f 8 % 8, tbuf := f 9 % 1537
      flags := BitVec.ofNat 32 (f 10 % 32), done := BitVec.ofNat 64 (f 11 * 8), part := part, tide := f 12 % 17
      rad := 1 + f 13 % 64, spawnq := BitVec.ofNat 64 (f 14 % 2 * (f 15 * 64)) }
  if r.gang && decide (cores < r.groupCount) then { r with flags := r.flags &&& ~~~4 } else r

/-- The spawn queue of such a record, if it has one. -/
def LaunchRec.unknownQueue (r : LaunchRec) (n : Nat) : Option SpawnQueue :=
  let f (i : Nat) : Nat := Config.freeBits (n + i)
  let capacity := 1 + f 16 % 65536
  let high := 1 + f 17 % capacity
  if r.spawnq = 0 then none else some { capacity := capacity, high := high, low := f 18 % high }

/-- A partly placed record of which nothing is known that its remaining core groups alone depend on (R290). -/
def LaunchRec.unknownRest (r : LaunchRec) (placed n : Nat) : LaunchRec :=
  let u := LaunchRec.unknown r.part 0 n
  { r with
    entry := u.entry, args := u.args, nharts := placed * r.hpc + u.nharts, lgw := u.lgw, done := u.done, tide := u.tide
    rad := u.rad }

/-- Has something changed what the part left in a spawn queue area (R290)? -/
def State.areaDisturbed (s : State) (q : SpawnQueue) : Bool := q.area.any fun w => s.homeRead w.1 w.2.length != w.2

/-- The records of a spawn queue whose area a program has written are unpredictable (R290), from then on: it has stored there, or
what stands there has changed. -/
def State.scramble (s : State) : State :=
  let spoil (l : Launch) (q : SpawnQueue) : SpawnQueue :=
    { q with spoilt := q.spoilt || s.spoiled.contains l.uid || s.areaDisturbed q }
  let bad := s.launches.flatMap fun l => match l.spawn.map (spoil l) with
    | some q => if q.spoilt then q.records else []
    | none => []
  let unknown (l : Launch) (n : Nat) : Launch :=
    if !bad.contains l.uid then { l with spawn := l.spawn.map (spoil l) }
    else if l.placed = 0 then
      let r := LaunchRec.unknown l.record.part (((s.part? l.record.part).map fun p => p.cores.length).getD 0) n
      { l with record := r, spawn := r.unknownQueue n }
    else { l with record := l.record.unknownRest l.placed n, spawn := l.spawn.map (spoil l) }
  { s with
    spoiled := []
    launches := s.launches.zipIdx.map fun x => unknown x.1 (s.draws + 20 * x.2)
    draws := s.draws + if bad.isEmpty then 0 else 20 * s.launches.length }

/-- Append a record to the executing hart's spawn queue (R281, R291). -/
def State.pushSpawn (s : State) (r : LaunchRec) (q : Option SpawnQueue) : State :=
  let s := s.scramble
  let u := s.nextUid
  let s := s.newLaunch r q
  (s.onLaunch s.cur.launch fun l => { l with spawn := l.spawn.map fun x =>
    { x with records := x.records ++ [u], depthFirst := x.depthFirst || decide (x.high < x.records.length + 1) } }).writeSpawnArea
    s.cur.launch

/-- The last part of `spawn`: it sleeps on a full queue (R281). -/
def spawnRecord (r : LaunchRec) (q : Option SpawnQueue) (cap : Captured) : M Unit := do
  let s ← get
  match (s.launch? s.cur.launch).bind (·.spawn) with
  | none => retireM
  | some x =>
    if x.capacity ≤ x.records.length then modCur fun h => { h.hold cap with wait := .spawn r q }
    else
      releaseM (s.partScope r.part)
      modify fun s => s.pushSpawn r q
      retireM

/-- `spawn` (R281). -/
def execSpawn (a : BitVec 5) (s : State) : Result :=
  finish (do
    let cap ← restarted [s.x a]
    let xa := cap.operands.getD 0 0
    let h := s.cur
    need (((s.launch? h.launch).bind (·.spawn)).isSome) 0x0B xa
    let (r, d) ← readRecord xa cap.cw
    let (q, sound) ← readHeader4 (h.agent cap.cw) r fun p => homeBytes p 64 r.spawnq 0
    let f := (← get).failureBits r h.status.sup (some h.part) sound
    if f = 0 then spawnRecord r q cap
    else
      releaseM (s.partScope r.part)
      need (!(← get).countFails h d) 0x0D r.done
      modify fun s => s.countAt h.core d f
      modCur (Hart.settle d.pa 8)
      retireM) s

/-- A `spawn` that sleeps on a full queue looks again (R281). -/
def execSpawnWake (hart : Nat) (s : State) : Result :=
  s.eventOn hart fun s =>
    match s.cur.wait with
    | .spawn r q => finish (spawnRecord r q (s.cur.capturedHere.getD {})) s
    | _ => .next s

/-- Does an entry wait for a slot on the executing hart's core (R283)? -/
def State.entryWaits (s : State) : Bool :=
  let h := s.cur
  let gone := (s.unitOf h).map (·.uid)
  (s.heads h.part).any fun e => decide (h.cls ≤ e.cls) && (s.assignTo e h.part h.core gone).isSome

/-- `yield` (R283). -/
def execYield (s : State) : Result :=
  if s.noPreempt s.cur || !s.entryWaits then .next s.retire
  else .next ((s.retire).beginLeave (s.cur.pc + 4) none)

/-! `exit` (R282) -/

/-- The executing hart's queue registers as its `exit` finds them (R252): those it consumes are unbound at once, those it
produces once they are empty. -/
def State.exitQueues (s : State) : State :=
  let h := s.cur
  let leaves (q : QReg) : Bool := q.core == some h.core && (q.consumedBy h || (q.producedBy h && q.data.isEmpty))
  { s with queues := s.queues.filter fun q => !leaves q }

/-- Has the executing hart a queue register that it produces and that is not empty (R252)? -/
def State.exitBlocked (s : State) : Bool :=
  s.queues.any fun q => q.core == some s.cur.core && q.producedBy s.cur && !q.data.isEmpty

/-- The totals of a partition grow by a hart's counts (R376). -/
def Partition.addTide (p : Partition) (t : Tide) : Partition :=
  { p with
    declared := p.declared + t.declared
    undeclared := p.undeclared + t.undeclared
    throttled := p.throttled + t.throttled
    stagger := p.stagger + t.stagger
    unused := p.unused + t.unused }

/-- The last exit of a launch (R282 step 5, R349): its windows are dropped, then its completion counter grows by 1. The
counter's address is translated through the launch's partition. -/
def lastExit (l : Launch) (core : Nat) : M Unit := do
  dropWindows l.uid (upTo 16)
  let s ← get
  let a : Agent := { core := core, part := l.record.part, launch := l.uid, sup := true, cw := 0 }
  match s.xlate a .write l.record.done with
  | (.ok p, s) => set (s.countAt core p 0)
  | (.error _, s) => set s
  modify fun s => s.onLaunch l.uid fun m => { m with dir := Vector.replicate 16 none, bars := Vector.replicate 16 {} }

/-- The executing hart is gone (R282 step 4): slot, lane groups, tiles and save area are free. -/
def State.vanish (s : State) : State :=
  let h := s.cur
  let s := { s with
    cur := { h with place := .absent, wait := .awake }
    reclaims := s.reclaims.filter fun r => r.hart != h.uid
    resumeq := s.resumeq.map fun (e : ResumeEntry) => { e with harts := e.harts.filter (· != h.uid) } }
  s.freeBuffer h.launch h.group

/-- Is the executing hart's exit the last one of its launch, and can it not be counted (R282, R389, R400)? The address of the
counter then. -/
def State.lostCount (s : State) : Option Word := do
  let l ← s.launch? s.cur.launch
  let a : Agent := { core := s.cur.core, part := l.record.part, launch := l.uid, sup := true, cw := 0 }
  match (s.xlate a .write l.record.done).1 with
  | .ok p => if l.record.nharts ≤ l.exited + 1 && s.countFails s.cur p then some l.record.done else none
  | .error c => if l.record.nharts ≤ l.exited + 1 && c == 0x0D then some l.record.done else none

/-- Steps 3 to 5 of R282. -/
def exitSteps : M Unit := do
  let s ← get
  let h := s.cur
  modify State.dropAll
  releaseM (s.partScope h.part)
  modify fun s => s.onPart h.part fun p => p.addTide h.tide.charge
  modify fun s => s.onLaunch h.launch fun l => { l with exited := l.exited + 1 }
  match (← get).launch? h.launch with
  | some l =>
    if l.record.nharts ≤ l.exited then lastExit l h.core
    modify State.vanish
    modify fun s => ({ s with launches := s.launches.filter fun m => !(m.uid == l.uid && m.over) }).lift
  | none => modify State.vanish

/-- `exit` (R282): it waits for the hart's commands and for the queues it fills, then the hart is gone. What would fail in its
release or its count traps before it changes anything (R380). Its drops do not follow an arrival within one cycle (R358). -/
def execExit (s : State) : Result :=
  let asleep (s : State) : State := s.onCur fun h => { h.hold (s.issue []) with wait := .exit }
  if s.ownCmds s.cur.uid then .next (asleep s)
  else match s.lostCount.or s.releaseError with
    | some va => .next (s.takeTrap { cause := 0x0D, tval := va })
    | none =>
      let t := s.exitQueues
      if t.exitBlocked then .next (asleep t)
      else if t.dropsLate then .next s
      else finish exitSteps (t.countCur 0x02 1)

/-! `resume` and the events -/

/-- `resume` (R284). -/
def execResume (a : BitVec 5) (s : State) : Result :=
  let xh := s.x a
  if !s.cur.status.sup then .next (s.takeTrap { cause := 0x11 })
  else
    match s.rest.find? fun h => h.place == .parked false && h.part == s.cur.part && h.handle == xh.toNat with
    | none => .next (s.takeTrap { cause := 0x06, tval := xh })
    | some h =>
      .next (((s.onHart h.uid fun g => { g with place := .saved }).enlist h).leaveBuffer h.launch h.group).retire

/-- The scheduler fills a core with the first entry of R288 that it admits; with none, it looks for victims (R294). -/
def execPlacement (core : Nat) (s : State) : Result :=
  let s := s.scramble
  match s.partOfCore core with
  | none => if core < 256 then .next s else .fault .noSuchAgent
  | some p =>
    if s.lighthouse.phase ≠ .running then .next s
    else match s.nextEntry p.id core with
      | some (e, cores) => .next (s.placeEntry p.id e cores)
      | none => .next (s.chooseVictims p)

/-- A unit is resumed on a core when that is what R288 places there next (R297). -/
def execResumption (hart core : Nat) (s : State) : Result :=
  match s.hart? hart with
  | none => .fault .noSuchAgent
  | some h =>
    match s.partOfCore core with
    | none => .next s
    | some p =>
      if s.lighthouse.phase ≠ .running || p.id ≠ h.part then .next s
      else match s.nextEntry p.id core with
        | some (e, cores) =>
          match e.source with
          | .resume x => if x.harts.contains hart then .next (s.placeEntry p.id e cores) else .next s
          | _ => .next s
        | none => .next s

/-- Is the demand that of the hart's own unit? -/
def Demand.isOf (uid : Nat) : Demand → Bool
  | .unit hs => hs.contains uid
  | .group _ _ => false

/-- The scheduler asks a hart for lane groups for the entry that it would place next, leaving the hart some (R96); leaving it all
it may hold lifts the request. A hart that is away has no deadline: the request stands when it resumes (R423).
DESIGN CHOICE (notes/assumptions/17.md): a second request to a hart replaces the first and starts a deadline of its own, and a
write of `revoke` moves no deadline already set; a request that leaves a resident hart all it holds has no deadline. -/
def execLaneReclamation (hart : Nat) (leave : BitVec 4) (s : State) : Result :=
  s.eventOn hart fun s =>
    let h := s.cur
    let others := s.reclaims.filter fun r => r.victim || r.hart != h.uid
    if (s.recordOf h).lgmax ≤ leave.toNat then .next { s with reclaims := others }
    else
      let due := s.cycle + ((s.part? h.part).map fun p => p.acting.revoke.toNat).getD 0
      let r : Reclaim :=
        { hart := h.uid, leave := leave.toNat, victim := false
          deadline := if h.isResident && leave.toNat < h.held then some due else none
          need := ((s.heads h.part).map s.demand).find? fun d => !d.isOf h.uid }
      .next { s with reclaims := r :: others }

/-- A hart that must leave does (R294, R295): at an instruction boundary, or out of a sleep, which is abandoned. -/
def State.preempt (s : State) : State :=
  let leaving : Bool := match s.cur.wait with
    | .leaving _ _ => true
    | _ => false
  if s.cur.isResident && s.mustLeave s.cur && !leaving then s.beginLeave s.cur.pc none else s

/-- A request's deadline has passed (R96, R294). -/
def execRevokeDeadline (hart : Nat) (s : State) : Result := s.eventOn hart fun s => .next s.preempt

/-- Pre-emption (R295). -/
def execPreemption (hart : Nat) (s : State) : Result := s.eventOn hart fun s => .next s.preempt

/-- The head of a resume list or run queue moves one class up (R289). -/
def execAgingPromotion (part cls : Nat) (onResume : Bool) (s : State) : Result :=
  match s.part? part with
  | none => .fault .noSuchAgent
  | some p =>
    let old (since : Word) : Bool := p.acting.agetime != 0 && decide (p.acting.agetime.toNat ≤ (s.shore - since).toNat) && decide (cls < 7)
    if onResume then
      match s.resumeq.find? fun e => e.part == part && e.cls == cls && s.unitWhole e with
      | some e =>
        if old e.since then
          let s := { s with resumeq := (s.resumeq.filter (· != e)) ++ [{ e with cls := cls + 1, since := s.shore }] }
          .next (s.renewHead part cls true)
        else .next s
      | none => .next s
    else
      match s.runq.find? fun e => e.part == part && e.cls == cls with
      | some e =>
        if old e.since then
          let s := { s with runq := (s.runq.filter (· != e)) ++ [{ e with cls := cls + 1, since := s.shore }] }
          .next (s.renewHead part cls false)
        else .next s
      | none => .next s

/-- A write of `partmv` (R165). -/
def execPartmvWrite (value : BitVec 64) (s : State) : Result := .next (s.writePartmv value)

/-- The move of a core completes once its last hart has left (R165). DESIGN CHOICE (notes/assumptions/33.md): where the target
partition has been destroyed meanwhile, the core serves none. -/
def execPartitionMoveComplete (s : State) : Result :=
  match s.moving with
  | none => .next s
  | some (core, target) =>
    if (s.residents core []).isEmpty then
      .next ({ s with moving := none }.onPart target fun p => { p with cores := p.cores ++ [core] })
    else .next s

end Sys2Proof.Machine
end

