-- ==== Sys2Proof/Machine/Outside.lean ====
section
/-! DEFINITION. The world outside (22_outside.md, 19_counters.md): bring-up, shore time, the Ceide port, Keavar links, and the
Lighthouse's messages. -/

namespace Sys2Proof.Machine

/-! Bring-up (R402-R404) -/

/-- Does a firmware slot qualify (R403)? -/
def Lighthouse.qualifies (l : Lighthouse) (i : FirmwareImage) : Bool :=
  Config.imageVerifies l.keyDigest i.signature i.version i.digest && decide (l.rollback.toNat ≤ i.version.toNat)

/-- The slot that boots (R403): of those that qualify, the higher version. -/
def Lighthouse.select (l : Lighthouse) : Option Nat :=
  match l.slot0.filter l.qualifies, l.slot1.filter l.qualifies with
  | some a, some b => if a.version.toNat < b.version.toNat then some 1 else some 0
  | some _, none => some 0
  | none, some _ => some 1
  | none, none => none

/-- The image in a slot. -/
def Lighthouse.slot (l : Lighthouse) (n : Nat) : Option FirmwareImage := if n = 0 then l.slot0 else l.slot1

/-- Failing ones among the built cores of a die. -/
def failingCount (cores : BitVec 34) : Nat := ((upTo 34).filter cores.getLsbD).length

/-- Does self-test fail beyond repair (R404)? -/
def SelfTest.fails (t : SelfTest) : Bool :=
  t.failingCores.toList.any (fun c => decide (2 < failingCount c)) || t.failingSlices != 0 || t.failingStacks != 0 ||
    t.failingBoundaries != 0 || t.lanes == 0

/-- The 32 built cores of a die that serve as its logical cores, in their order (R11, R402 step 4). Which of the sound ones are
spares is DESIGN CHOICE (notes/assumptions/5.md). -/
def logicalCores (failing : BitVec 34) : List Nat := ((upTo 34).filter fun n => !failing.getLsbD n).take 32

/-- The packages of the same domain that link training has met (R402). -/
def Lighthouse.metNumbers (l : Lighthouse) : List Nat :=
  (l.selfTest.met.filter fun m => m.1 == l.domainIdentity).map (·.2)

/-- The packages that link training joins (R402, R351): this one alone when every port is down or its number clashes. -/
def Lighthouse.joined (l : Lighthouse) : List Nat :=
  let me := l.package.toNat
  if l.selfTest.ports = 0 || l.metNumbers.contains me then [me] else me :: l.metNumbers

/-- Is the package the time master of its domain (R350)? -/
def Lighthouse.isMaster (l : Lighthouse) : Bool := l.domain.all fun p => decide (l.package.toNat ≤ p)

/-- Steps 2 to 6 of R402: firmware, self-test, core mapping, zeroing, and the port. The time is set once, by the first bring-up that
joins other packages, and no more when harts may have run (R351). -/
def State.bringUp (s : State) : State :=
  let l := s.lighthouse
  match l.select with
  | none => { s with lighthouse := { l with phase := .quarantine, runningSlot := none } }
  | some n =>
    let domain := l.joined
    let ports := if l.metNumbers.contains l.package.toNat then 0 else l.selfTest.ports
    let l := { l with
      runningSlot := some n, domain := domain, selfTest := { l.selfTest with ports := ports }
      coreMap := l.selfTest.failingCores.toList.map logicalCores
      phase := if l.selfTest.fails || l.selfTest.unzeroed != 0 then .quarantine else .running }
    let joins := decide (1 < domain.length)
    { s with
      lighthouse := l
      shore := if joins && !s.timeFixed && !l.isMaster then l.selfTest.masterTime else s.shore
      timeFixed := s.timeFixed || joins || l.phase == .running }

/-- What a bring-up finds of the state before it: no memory, queue or launch (R401, R402); the count, the tickets and the
flash stay, and so do the model's own fields. -/
def State.wiped (s : State) : State :=
  { shore := s.shore, timeFixed := s.timeFixed, shoreSeen := s.shoreSeen, sinceSlew := s.sinceSlew, cycle := s.cycle, seq := s.seq, replies := s.replies
    lighthouse := { s.lighthouse with phase := .bringUp, runningSlot := none, coreMap := [] }
    agenda := s.agenda, choices := s.choices, draws := s.draws, nextUid := s.nextUid }

/-- POWER_GOOD (R402): counts start at 0. -/
def execPowerGood (s : State) : Result :=
  .next
  { s.wiped with
    shore := 0, timeFixed := false, shoreSeen := 0, sinceSlew := 0, seq := 0, cycle := 0, replies := [] }.bringUp

/-- MGMT_RESET (R401): bring-up runs again from step 2. -/
def execMgmtReset (s : State) : Result := s.manage true fun s => ((s.reply (.status 0)).wiped).bringUp

/-! Shore time (R350, R351) -/

/-- SHORE_TICK (R350, R351): the count advances by 1, or by 0 or 2 when a correction is due, at most once in 1,024 ticks. -/
def execShoreTick (s : State) : Result :=
  let s := { s with sinceTime := s.sinceTime + 1 }
  if s.slew ≠ 0 && 1023 ≤ s.sinceSlew then
    if 0 < s.slew then .next { s with shore := s.shore + 2, slew := s.slew - 1, sinceSlew := 0 }
    else .next { s with slew := s.slew + 1, sinceSlew := 0 }
  else .next { s with shore := s.shore + 1, sinceSlew := s.sinceSlew + 1 }

/-- KEAVAR_TIME_MESSAGE (R350, R351): link training takes the master's value; later the count is only slewed toward it. A
time master takes no messages. -/
def execKeavarTimeMessage (time : BitVec 64) (s : State) : Result :=
  let l := s.lighthouse
  match l.phase with
  | .bringUp => .next { s with lighthouse := { l with selfTest := { l.selfTest with masterTime := time } } }
  | .quarantine => .next s
  | .running =>
    if l.isMaster then .next s
    else .next { s with slew := (time - s.shore).toInt, sinceTime := 0, boundLost := false }

/-- The status report of the Lighthouse (R401). -/
def State.statusReport (s : State) : Reply :=
  let l := s.lighthouse
  .report 0 l.phase l.selfTest l.coreMap s.boundLost

/-- TIME_BOUND_LOSS (R350): a package that is not the master and has heard nothing for over a millisecond reports it. -/
def execTimeBoundLoss (s : State) : Result :=
  let l := s.lighthouse
  if l.phase = .running && !l.isMaster && !s.boundLost && decide (1000000 < s.sinceTime) then
    let s := { s with boundLost := true }
    .next (s.reply s.statusReport)
  else .next s

/-! The Ceide port (R396-R398) -/

/-- The host ranges that the Lighthouse holds (R397), as first address and length. -/
def State.hostRanges (s : State) : List (Nat × Nat) := s.parts.flatMap (·.hostRanges)

/-- Does a range lie wholly inside one host range (R397)? -/
def State.hosted (s : State) (pa n : Nat) : Bool :=
  s.hostRanges.any fun r => decide (r.1 ≤ pa ∧ pa + n ≤ r.1 + r.2)

/-- Is a packet accepted (R396, R397)? -/
def State.packetOk (s : State) (pa n : Nat) : Bool :=
  decide (pa % 8 = 0 ∧ n % 8 = 0 ∧ 8 ≤ n ∧ n ≤ 256) && packageOf pa == s.pkg && s.hosted pa n &&
  decide (localOf pa + n ≤ 2 ^ 40)

/-- A packet of the port: it is performed, refused with an error response, or does not arrive before the port is open or when
no lane is left (R396). -/
def State.packet (s : State) (pa n : Nat) (f : State → State) : Result :=
  if s.lighthouse.phase = .bringUp || s.lighthouse.selfTest.lanes = 0 then .next s
  else if s.packetOk pa n then .next (f s) else .next (s.reply .error)

/-- An agent outside has read bytes at their homes (R365, R398). -/
def State.readOut (s : State) (pa n : Nat) : State := (s.countHome pa n).seenByAll pa n

/-- CEIDE_READ (R396, R398). -/
def execCeideRead (addr : BitVec 52) (size : Nat) (s : State) : Result :=
  s.packet addr.toNat size fun s =>
    if s.badByte 0 .home addr.toNat size then s.reply .error
    else (s.readOut addr.toNat size).reply (.data (s.homeRead addr.toNat size))

/-- CEIDE_WRITE (R396, R398). -/
def execCeideWrite (addr : BitVec 52) (data : List (BitVec 8)) (s : State) : Result :=
  s.packet addr.toNat data.length fun s => (s.homeWrite addr.toNat data).reply .ack

/-- CEIDE_ATOMIC_ADD (R396, R398). -/
def execCeideAtomicAdd (addr : BitVec 52) (addend : BitVec 64) (s : State) : Result :=
  s.packet addr.toNat 8 fun s =>
    if s.badByte 0 .home addr.toNat 8 then s.reply .error
    else
      let old := leNat (s.homeRead addr.toNat 8)
      (s.homeWrite addr.toNat (leBytes 8 (old + addend.toNat))).reply (.old (BitVec.ofNat 64 old))

/-- CEIDE_LANE_FAILURE (R396): the port goes on with the lanes that remain, and the Lighthouse reports the loss. -/
def execCeideLaneFailure (lane : BitVec 2) (s : State) : Result :=
  let l := s.lighthouse
  if l.selfTest.lanes.getLsbD lane.toNat then
    let s := { s with lighthouse := { l with selfTest := { l.selfTest with
      lanes := l.selfTest.lanes &&& ~~~(1#4 <<< lane.toNat) } } }
    .next (s.reply s.statusReport)
  else .next s

/-! Keavar links (R400) -/

/-- Is a remote package's access to `n` bytes one that this package performs (R166, R300)? -/
def State.servesRemote (s : State) (pa n : Nat) : Bool :=
  packageOf pa == s.pkg && (List.range n).all (fun i => assigned (pa + i)) && !s.badByte 0 .home pa n

/-- One remote read-modify-write at its home (R172, R188); the old value that it sends counts (R365). -/
def State.remoteAtomic (s : State) (pa n : Nat) (f : Nat → Option Nat) : State :=
  if s.servesRemote pa n then
    let old := leNat (s.homeRead pa n)
    let s := match f old with
      | some v => s.homeWrite pa (leBytes n v)
      | none => s.readOut pa n
    (s.countDie (homeDie pa) 0x47 n).reply (.old (BitVec.ofNat 64 old))
  else s.reply .error

/-- KEAVAR_REMOTE_ACCESS (R400): another package's access at a home of this one, or its `xinv` at domain scope (R184); none arrives
where no port is up. -/
def execKeavarRemoteAccess (access : RemoteAccess) (s : State) : Result :=
  if s.lighthouse.phase ≠ .running || s.lighthouse.selfTest.ports = 0 then .next s
  else match access with
    | .load a n =>
      .next (if s.servesRemote a.toNat n then ((s.readOut a.toNat n).countDie (homeDie a.toNat) 0x47 n).reply (.data (s.homeRead a.toNat n)) else s.reply .error)
    | .store a bs =>
      .next (if packageOf a.toNat = s.pkg && (List.range bs.length).all (fun i => assigned (a.toNat + i)) then
        (s.homeWrite a.toNat bs).reply .ack else s.reply .error)
    | .atomic a n op b => .next (s.remoteAtomic a.toNat n fun old => some (amoOp op.toNat (8 * n) old (b.toNat % 2 ^ (8 * n))))
    | .cas a n e v =>
      .next (s.remoteAtomic a.toNat n fun old => if old = e.toNat % 2 ^ (8 * n) then some (v.toNat % 2 ^ (8 * n)) else none)
    | .sigadd a b => .next (s.remoteAtomic a.toNat 8 fun old => some ((old + b.toNat) % 2 ^ 64))
    | .xinv page => .next ((s.shootDown (upTo 256) (page.toNat % 2 ^ 55)).reply .ack)

/-- The physical addresses on other packages that an access of an address for the executing hart reaches (R300, R302): its page,
whatever the access is and with whatever privilege it is made, and the table entries that a walk reads for it, in the hart's
partition or in another that a launch record names (R276). -/
def State.remoteAt (s : State) (va : Word) : List Nat :=
  let at_ (part : Nat) : List Nat :=
    let a : Agent := { s.cur.agent s.cur.cw with sup := true, part := part }
    let pages := [Kind.ownRead, .ownWrite, .fetch].filterMap fun k => (s.peekXlate a k va).map fun p => p.1.pa
    let entries := [1, 2, 3].flatMap fun level => match s.entryAt a false va.toNat level with
      | some x => x.2.map (·.addr)
      | none => []
    pages ++ entries
  (((s.cur.part :: s.parts.map (·.id)).flatMap at_).filter s.isRemote).eraseDups

/-- A remote write of the hart has not been acknowledged in time (R400): it faults what waits for it. -/
def Hart.writeLost (w : Word × Bool) (h : Hart) : Hart :=
  { h with unacked := h.unacked.erase w, lostWrites := h.lostWrites ++ [w] }

/-- REMOTE_ACCESS_TIMEOUT (R400): the instruction concerned faults with cause 0x0D when the hart reaches it. A write that waits
for its acknowledgement needs no translation any more; which of the reads for the address is meant is drawn. -/
def execRemoteAccessTimeout (hart : Nat) (addr : BitVec 64) (s : State) : Result :=
  s.eventOn hart fun s =>
    if !s.cur.isResident then .next s
    else match s.cur.unacked.find? fun w => w.1 == addr with
    | some w => .next (s.onCur fun h => h.writeLost w)
    | none => match s.remoteAt addr with
      | [] => .next s
      | [pa] => .next (s.onCur fun h => { h with undelivered := pa :: h.undelivered })
      | pas => .next (s.draw.2.onCur fun h => { h with undelivered := pas.getD (s.draw.1 % pas.length) 0 :: h.undelivered })

/-! Management messages (R401, R429) -/

/-- MGMT_STATUS (R401). -/
def execMgmtStatus (s : State) : Result :=
  s.manage true fun s => s.reply s.statusReport

/-- Is a domain physical address in HBM of the domain, with `n` bytes after it? -/
def State.inHbm (s : State) (a n : Nat) : Bool :=
  s.lighthouse.domain.contains (packageOf a) && decide (a < 2 ^ 52 ∧ localOf a + n ≤ 2 ^ 40)

/-- Is a translation root within its field (R301)? -/
def rootOk (r : BitVec 64) : Bool := decide (r.toNat % 65536 = 0 ∧ r.toNat < 2 ^ 52)

/-- The partition of a create message whose items are there and within their limits (R401, R301, R391, R393, R397). -/
def State.requested (s : State) (q : PartitionRequest) : Option Partition := do
  let root ← q.root
  let queue ← q.faultQueue
  let save ← q.saveRegion
  let ranges := q.hostRanges.map fun r => (r.1.toNat, r.2.toNat)
  if (s.part? q.part.toNat).isNone && (!q.cores.isEmpty || !q.otherPackages.isEmpty) &&
      q.cores.all (fun c => decide (c < 256) && (s.partOfCore c).isNone && !s.moving.any fun m => m.1 == c) &&
      rootOk root && s.inHbm queue.toNat 64 && queue.toNat % 8 == 0 &&
      q.faultBase.toNat % 64 == 0 && decide (1 ≤ q.faultCap.toNat ∧ q.faultCap.toNat ≤ 65536) &&
      s.inHbm q.faultBase.toNat (64 * q.faultCap.toNat) &&
      save.toNat % 0x80000 == 0 && s.inHbm save.toNat (0x80000 * q.saveHarts) &&
      decide (s.hostRanges.length + ranges.length ≤ 16) then
    return { id := q.part.toNat, cores := q.cores.eraseDups, otherPackages := q.otherPackages, root := root.toNat,
             faultQueue := queue.toNat, saveBase := save.toNat, saveHarts := q.saveHarts, hostRanges := ranges }
  else none

/-- The translation caches forget a partition whose tables are set or go. -/
def State.forgetTables (s : State) (part : Nat) : State := { s with tlb := s.tlb.filter fun e => e.part != some part }

/-- MGMT_PARTITION_CREATE (R401, R391, R429). -/
def execMgmtPartitionCreate (request : PartitionRequest) (s : State) : Result :=
  s.manage false fun s =>
    match s.requested request with
    | none => s.reply (.status 0x02)
    | some p =>
      let s := s.homeWrite p.faultQueue (leBytes 8 request.faultBase.toNat ++ leBytes 4 request.faultCap.toNat ++ fill 4 0)
      (({ s with parts := s.parts ++ [p] }).forgetTables p.id).reply (.status 0)

/-- MGMT_PARTITION_DESTROY (R401). -/
def execMgmtPartitionDestroy (part : BitVec 16) (s : State) : Result :=
  s.manage false fun s =>
    if (s.part? part.toNat).isNone then s.reply (.status 0x02)
    else if s.partLives part.toNat then s.reply (.status 0x03)
    else (({ s with parts := s.parts.filter fun p => p.id != part.toNat }).forgetTables part.toNat).reply (.status 0)

/-- MGMT_ROOT_CHANGE (R301, R401). -/
def execMgmtRootChange (part : BitVec 16) (root : BitVec 64) (s : State) : Result :=
  s.manage false fun s =>
    if (s.part? part.toNat).isNone || !rootOk root then s.reply (.status 0x02)
    else if s.partLives part.toNat then s.reply (.status 0x03)
    else ((s.onPart part.toNat fun p => { p with root := root.toNat }).forgetTables part.toNat).reply (.status 0)

/-- The Lighthouse reads 64 bytes at their home (R401). -/
def lighthouseRead (pa : Nat) : M (List Byte) := do
  let s ← get
  need (!s.badByte 0 .home pa 64) 0x0D
  return s.homeRead pa 64

/-- The dispatcher's record, checked and enqueued or counted as failed (R430). -/
def startDispatcher (pa : Nat) : M Unit := do
  let s ← get
  need (decide (pa % 64 = 0) && s.hosted pa 64) 0x06
  let r := LaunchRec.ofBytes (← lighthouseRead pa)
  need ((s.part? r.part).isSome && r.done.toNat % 8 == 0) 0x06
  let a : Agent := { core := 0, part := r.part, launch := 0, sup := true, cw := 0 }
  let d ← xlateM a .write r.done
  let (q, sound) ← readHeader4 a r fun p => lighthouseRead p.pa
  let f := (← get).failureBits r true none sound
  if f = 0 then modify fun s => s.enqueue r q
  else modify fun s => s.homeWrite d.pa (leBytes 8 (counterValue f (leNat (s.homeRead d.pa 8))))

/-- MGMT_START_DISPATCHER (R430, R429). -/
def execMgmtStartDispatcher (addr : BitVec 52) (s : State) : Result :=
  s.manage false fun s =>
    match startDispatcher addr.toNat s with
    | .ok _ t => t.reply (.status 0)
    | .error _ _ => s.reply (.status 0x04)

/-- The event codes of a unit (R365). -/
def eventListed (onDie : Bool) (code : BitVec 8) : Bool :=
  if onDie then code == 0 || decide (0x41 ≤ code.toNat ∧ code.toNat ≤ 0x48) else decide (code.toNat ≤ 0x0D)

/-- MGMT_COUNTERS (R364, R366): configure one counter, or ask for snapshots. -/
def execMgmtCounters (request : CounterRequest) (s : State) : Result :=
  s.manage false fun s =>
    match request with
    | .configure onDie unit index event filt part =>
      if eventListed onDie event && decide (unit < (if onDie then 8 else 256) ∧ index < (if onDie then 8 else 16)) then
        let p : PerfCtr := { onDie := onDie, unit := unit, index := index, event := event, filt := filt, part := part }
        ({ s with perf := p :: s.perf.filter fun x =>
          !(x.onDie == onDie && x.unit == unit && x.index == index) }).reply (.status 0)
      else s.reply (.status 0x02)
    | .read buffer us signal =>
      if decide (1 ≤ us ∧ buffer.toNat % 8 = 0 ∧ signal.toNat % 8 = 0) && s.inHbm buffer.toNat (256 * 264) &&
          s.inHbm signal.toNat 8 then
        let q : SnapshotRequest :=
          { buffer := buffer.toNat, periodNs := 1000 * us, signal := signal.toNat, next := s.shore.toNat + 1000 * us }
        ({ s with snapshots := s.snapshots ++ [q] }).reply (.status 0)
      else s.reply (.status 0x02)

/-- A counter's word (R364). -/
def State.counterWord (s : State) (onDie : Bool) (unit index : Nat) : Word :=
  match s.perf.find? fun p => p.onDie == onDie && p.unit == unit && p.index == index with
  | none => 0
  | some p => BitVec.ofNat 64 (flag p.ovf * 2 ^ 63 + p.value.toNat)

/-- One snapshot record (R366). -/
def State.snapshotRecord (s : State) (at_ : Nat) (onDie : Bool) (unit : Nat) : State :=
  let ws := (upTo (if onDie then 8 else 16)).map (s.counterWord onDie unit)
  let words := [s.shore, BitVec.ofNat 64 (unit + 256 * flag onDie)] ++ ws ++ List.replicate (30 - ws.length) 0
  s.homeWrite at_ (wordsBytes words)

/-- The records of one request, then its signal word (R366). -/
def State.snapshot (s : State) (q : SnapshotRequest) : State :=
  let s := (upTo 264).foldl (fun (s : State) i =>
    s.snapshotRecord (q.buffer + 256 * i) (decide (256 ≤ i)) (if i < 256 then i else i - 256)) s
  s.homeWrite q.signal (leBytes 8 (leNat (s.homeRead q.signal 8) + 1))

/-- COUNTER_SNAPSHOT (R366): every request whose period is over. -/
def execCounterSnapshot (s : State) : Result :=
  let due (q : SnapshotRequest) : Bool := decide (q.next ≤ s.shore.toNat)
  let t := (s.snapshots.filter due).foldl State.snapshot s
  let again (q : SnapshotRequest) : SnapshotRequest := if due q then { q with next := q.next + q.periodNs } else q
  .next { t with snapshots := t.snapshots.map again }

/-- The digest and version of the running image (R405); with none running the manual gives no value, and they are free. -/
def State.runningImage (s : State) : (BitVec 512 × BitVec 32) × State :=
  match s.lighthouse.runningSlot.bind s.lighthouse.slot with
  | some i => ((i.digest, i.version), s)
  | none =>
    let (d, s) := (upTo 8).foldl (fun (p : Nat × State) _ => (p.1 * 2 ^ 64 + p.2.freeWord.1.toNat, p.2.freeWord.2)) (0, s)
    let (v, s) := s.freeWord
    ((BitVec.ofNat 512 d, v.setWidth 32), s)

/-- MGMT_ATTESTATION (R405). -/
def execMgmtAttestation (nonce : BitVec 256) (s : State) : Result :=
  s.manage true fun s =>
    let ((digest, version), s) := s.runningImage
    let l := s.lighthouse
    let body := leBytes 32 nonce.toNat ++ leBytes 64 digest.toNat ++ leBytes 64 l.configDigest.toNat ++
      leBytes 4 version.toNat ++ leBytes 4 l.rollback.toNat ++ leBytes 8 s.shore.toNat ++
      [BitVec.ofNat 8 (flag (l.phase == .quarantine)), l.package.setWidth 8] ++ fill 14 0
    s.reply (.attestation 0 body (Config.attestationSignature l.identityKey body))

/-- MGMT_FIRMWARE_UPDATE (R403): the slot that is not running; with none running, either. -/
def execMgmtFirmwareUpdate (image : FirmwareImage) (s : State) : Result :=
  s.manage true fun s =>
    let (n, s) := match s.lighthouse.runningSlot with
      | some n => (1 - n, s)
      | none => (s.draw.1 % 2, s.draw.2)
    let l := s.lighthouse
    ({ s with lighthouse := if n = 0 then { l with slot0 := some image } else { l with slot1 := some image } }).reply
      (.status 0)

end Sys2Proof.Machine
end

