-- ==== Sys2Proof/Machine/VCtl.lean ====
section
/-! DEFINITION. Vector control: lengths, grants, tags and random words (05_vector_registers.md, R98-R101; R58). -/

namespace Sys2Proof.Machine

/-- Is the hart asleep in an instruction that holds no lane group (R298, R387)? -/
def Wait.freesLanes : Wait → Bool
  | .vwait .. | .barrier _ | .qpush .. | .qpop .. | .tagAny .. | .tagAll _ | .vlds .. | .spawn .. | .tidewait .. | .wfi => true
  | _ => false

/-- Lane groups that the reservations of the other harts of the core leave (R286, R292): of those that hold some, neither asleep
without them (R298) nor past a `vrel` (R100). -/
def State.freeGroups (s : State) (h : Hart) : Nat :=
  8 - ((s.rest.filter fun g =>
      g.isResident && g.core == h.core && g.uid != h.uid && !g.wait.freesLanes && g.held != 0).map
    fun g => (s.recordOf g).lgmin).sum

/-- The grant the scheduler chooses for a hart (R98, R292, R96): lgmax, or what a pending reclamation leaves, never below
max(lgmin, 1). -/
def State.chosenGrant (s : State) (h : Hart) : Nat :=
  let r := s.recordOf h
  let g := s.reclaims.foldl (fun g q => if q.hart = h.uid && !q.victim then min g q.leave else g) r.lgmax
  max g (max r.lgmin 1)

/-- A register after the grant has become `g` groups: bits from 2,048 × g on are zero (R98). -/
def VReg.trim (g : Nat) (v : VReg) : VReg := { v with img := BitVec.ofNat 16384 (v.img.toNat % 2 ^ (2048 * g)) }

/-- `vsetvl` retires (R98). A reclamation it honours no longer runs to its deadline (R96); a victim leaves at this grant
point (R294). -/
def State.setvl (s : State) (d : BitVec 5) (request : Word) (t : Tag) : State :=
  let g := s.chosenGrant s.cur
  let top := g * 2048 / t.width
  let n := min request.toNat top
  let s := s.onCur fun h =>
    ({ h with
        held := g, vgrant := g, ltag := t, vlmax := top, vlen := n, v := h.v.map (VReg.trim g)
        vbad := h.vbad.filter fun p => decide (p.2 < 256 * g) }).setX d
      (BitVec.ofNat 64 n)
  let s := { s with reclaims := s.reclaims.map fun (r : Reclaim) =>
    if r.hart == s.cur.uid then { r with deadline := none, due := r.victim } else r }
  (s.countCur 0x03 1).retire

/-- `vsetvl` (R98). -/
def execVsetvl (d a : BitVec 5) (t : BitVec 4) (s : State) : Result :=
  if s.cur.status.matrix then .next (s.takeTrap { cause := 0x0A })
  else if !(s.pendingGroups s.cur.uid).isEmpty then .next s
  else if s.freeGroups s.cur = 0 then
    let cap := s.issue [s.x a]
    .next (s.onCur fun h => { h.hold cap with wait := .vsetvl d (cap.operands.headD 0) (Tag.ofCode t.toNat) })
  else .next (s.setvl d ((s.issue [s.x a]).operands.headD 0) (Tag.ofCode t.toNat))

/-- A `vsetvl` that waited for lanes retires once there are some (R98), unless the hart must leave first (R96). -/
def execVsetvlLaneWake (hart : Nat) (s : State) : Result :=
  s.eventOn hart fun s =>
    match s.cur.wait with
    | .vsetvl d request t =>
      if s.freeGroups s.cur = 0 || s.mustLeave s.cur then .next s else .next (s.setvl d request t)
    | _ => .next s

/-- `vcfg` (R99): legal on v0 to v23 in matrix mode (R142). -/
def execVcfg (d : BitVec 5) (t : BitVec 4) (s : State) : Result :=
  finish (do
    notLatches [d]
    let h ← curHart
    need h.granted 0x09
    settled [d]
    let tag := Tag.ofCode t.toNat
    if tag = .dead then modCur fun h => h.setV d {}
    else modCur fun h => { h with v := h.v.set d.toNat { h.getV d with tag := tag } }
    retireVector) s

/-- What `vrel` does to the vector state (R100, R228). -/
def Hart.release (h : Hart) : Hart :=
  { h with
    held := 0, vgrant := 0, vlmax := 0, vlen := 0, ltag := .dead
    v := Vector.replicate 32 {}
    m := (Vector.replicate 8 0).set 0 (BitVec.allOnes 2048)
    vbad := [], mbad := [], links := [] }

/-- `vrel` (R100). -/
def execVrel (s : State) : Result :=
  finish (do
    notMatrixNotReleased
    let s ← get
    if !(s.pendingGroups s.cur.uid).isEmpty then stall
    modCur Hart.release
    retireVector) s

/-- One round of Philox-4x32 (R58). -/
def philoxRound (c0 c1 c2 c3 k0 k1 : Nat) : Nat × Nat × Nat × Nat :=
  let p0 := 0xD2511F53 * c0
  let p1 := 0xCD9E8D57 * c2
  ((p1 / 2 ^ 32) ^^^ c1 ^^^ k0, p1 % 2 ^ 32, (p0 / 2 ^ 32) ^^^ c3 ^^^ k1, p0 % 2 ^ 32)

/-- The remaining rounds; the key is bumped between rounds (R58). -/
def philoxRounds : Nat → Nat × Nat × Nat × Nat → Nat → Nat → Nat
  | 0, c, _, _ => c.1
  | n + 1, (c0, c1, c2, c3), k0, k1 =>
    philoxRounds n (philoxRound c0 c1 c2 c3 k0 k1) ((k0 + 0x9E3779B9) % 2 ^ 32) ((k1 + 0xBB67AE85) % 2 ^ 32)

/-- Word 0 of Philox-4x32-10 for a counter and `rkey` (R58). -/
def philox (counter key : Word) : Nat :=
  philoxRounds 10 (counter.toNat % 2 ^ 32, counter.toNat / 2 ^ 32, 0, 0) (key.toNat % 2 ^ 32) (key.toNat / 2 ^ 32)

/-- `vrand` (R101, R58). -/
def execVrand (d b : BitVec 5) (m : BitVec 3) (s : State) : Result :=
  let cap := s.issue [] (s.x b)
  finish (restartable cap do
    vectorChecks [] true [.n32]
    settled [d]
    let h ← curHart
    let active := activeAt false h.vlen (h.getM m)
    soundBelow h.vlen (Hart.readsBad [] m false)
    writeVector d .n32 (perElement h.vlen active fun i => ⟨philox (cap.scalar + BitVec.ofNat 64 i) cap.rkey, 0⟩) 0) s

end Sys2Proof.Machine
end

