-- ==== Sys2Proof/Machine/VMask.lean ====
section
/-! DEFINITION. Mask instructions (05_vector_registers.md, R103). -/

namespace Sys2Proof.Machine

/-- The mask length of an instruction that reads no vector by element (R92). -/
def Hart.ml (h : Hart) : Nat := maskLen (h.ltag == .e2m1) h.vlen

/-- The checks of VMASK (R141, R100), and an error in a mask bit that is read (R389). -/
def maskChecks (masks : List (BitVec 3)) : M Unit := do
  notMatrixNotReleased
  let h ← curHart
  soundBelow h.ml fun h i => masks.any fun m => h.bitBad m i

/-- A mask instruction with a mask destination (R103). -/
def maskOp (d a b : BitVec 3) (f : Bool → Bool → Bool) (s : State) : Result :=
  finish (do
    maskChecks [a, b]
    modCur fun h => h.writeMask d h.ml fun i => some (f ((h.getM a).getLsbD i) ((h.getM b).getLsbD i))
    retireVector) s

/-- `mand` (R103). -/
def execMand (d a b : BitVec 3) (s : State) : Result := maskOp d a b (· && ·) s

/-- `mor` (R103). -/
def execMor (d a b : BitVec 3) (s : State) : Result := maskOp d a b (· || ·) s

/-- `mxor` (R103). -/
def execMxor (d a b : BitVec 3) (s : State) : Result := maskOp d a b (· != ·) s

/-- `mandn` (R103). -/
def execMandn (d a b : BitVec 3) (s : State) : Result := maskOp d a b (fun x y => x && !y) s

/-- `mnot` (R103). -/
def execMnot (d a : BitVec 3) (s : State) : Result := maskOp d a a (fun x _ => !x) s

/-- `mmv` (R103). -/
def execMmv (d a : BitVec 3) (s : State) : Result := maskOp d a a (fun x _ => x) s

/-- `mset` (R103). -/
def execMset (d : BitVec 3) (s : State) : Result := maskOp d 0 0 (fun _ _ => true) s

/-- `mclr` (R103). -/
def execMclr (d : BitVec 3) (s : State) : Result := maskOp d 0 0 (fun _ _ => false) s

/-- The bits of a mask below `ml`. -/
def Hart.maskBits (h : Hart) (a : BitVec 3) : Nat := (h.getM a).toNat % 2 ^ h.ml

/-- A mask instruction with a scalar destination (R103). -/
def maskToX (d : BitVec 5) (a : BitVec 3) (f : Nat → Nat → Word) (s : State) : Result :=
  finish (do
    maskChecks [a]
    modCur fun h => h.setX d (f h.ml (h.maskBits a))
    retireVector) s

/-- `mpopc` (R103). -/
def execMpopc (d : BitVec 5) (a : BitVec 3) (s : State) : Result :=
  maskToX d a (fun ml v => BitVec.ofNat 64 (popCount ml v)) s

/-- `mfirst` (R103). -/
def execMfirst (d : BitVec 5) (a : BitVec 3) (s : State) : Result :=
  maskToX d a (fun ml v => if v = 0 then BitVec.allOnes 64 else BitVec.ofNat 64 (lowestSet ml v)) s

/-- A mask instruction with a condition destination (R103). -/
def maskToC (d a : BitVec 3) (f : Nat → Nat → Bool) (s : State) : Result :=
  finish (do
    maskChecks [a]
    modCur fun h => h.setC d (f h.ml (h.maskBits a))
    retireVector) s

/-- `many` (R103). -/
def execMany (d a : BitVec 3) (s : State) : Result := maskToC d a (fun _ v => v != 0) s

/-- `mall` (R103): true when the mask length is 0. -/
def execMall (d a : BitVec 3) (s : State) : Result := maskToC d a (fun ml v => v == 2 ^ ml - 1) s

/-- `miota` (R103). -/
def execMiota (d : BitVec 5) (a : BitVec 3) (s : State) : Result :=
  finish (do
    vectorChecks [] true [.n32]
    settled [d]
    let h ← curHart
    soundBelow h.vlen fun h i => h.bitBad a i
    let v := (h.getM a).toNat
    writeVector d .n32 ((upTo h.vlen).map fun i => some ⟨popCount i (v % 2 ^ i), 0⟩) 0) s

/-- `mcomp` (R103): the current progress, whatever the mask length. -/
def execMcomp (d : BitVec 3) (s : State) : Result :=
  finish (do
    notMatrixNotReleased
    modCur fun h => h.setM d h.progress.vcomp
    retireVector) s

end Sys2Proof.Machine
end

