-- ==== Sys2Proof/Machine/Dispatch.lean ====
section
/-! DEFINITION. One arm for each row of the opcode table. -/

namespace Sys2Proof.Machine

/-- What an instruction or event does. -/
def exec (i : Instr) (s : State) : Host.Outcome State Fault Refusal :=
  match i with
  | .add a0 a1 a2 => Sys2Proof.Machine.execAdd a0 a1 a2 s
  | .sub a0 a1 a2 => Sys2Proof.Machine.execSub a0 a1 a2 s
  | .and a0 a1 a2 => Sys2Proof.Machine.execAnd a0 a1 a2 s
  | .or a0 a1 a2 => Sys2Proof.Machine.execOr a0 a1 a2 s
  | .xor a0 a1 a2 => Sys2Proof.Machine.execXor a0 a1 a2 s
  | .sll a0 a1 a2 => Sys2Proof.Machine.execSll a0 a1 a2 s
  | .srl a0 a1 a2 => Sys2Proof.Machine.execSrl a0 a1 a2 s
  | .sra a0 a1 a2 => Sys2Proof.Machine.execSra a0 a1 a2 s
  | .min a0 a1 a2 => Sys2Proof.Machine.execMin a0 a1 a2 s
  | .max a0 a1 a2 => Sys2Proof.Machine.execMax a0 a1 a2 s
  | .minu a0 a1 a2 => Sys2Proof.Machine.execMinu a0 a1 a2 s
  | .maxu a0 a1 a2 => Sys2Proof.Machine.execMaxu a0 a1 a2 s
  | .sel a0 a1 a2 a3 => Sys2Proof.Machine.execSel a0 a1 a2 a3 s
  | .mul a0 a1 a2 => Sys2Proof.Machine.execMul a0 a1 a2 s
  | .mulh a0 a1 a2 => Sys2Proof.Machine.execMulh a0 a1 a2 s
  | .mulhu a0 a1 a2 => Sys2Proof.Machine.execMulhu a0 a1 a2 s
  | .div a0 a1 a2 => Sys2Proof.Machine.execDiv a0 a1 a2 s
  | .divu a0 a1 a2 => Sys2Proof.Machine.execDivu a0 a1 a2 s
  | .rem a0 a1 a2 => Sys2Proof.Machine.execRem a0 a1 a2 s
  | .remu a0 a1 a2 => Sys2Proof.Machine.execRemu a0 a1 a2 s
  | .clz a0 a1 => Sys2Proof.Machine.execClz a0 a1 s
  | .ctz a0 a1 => Sys2Proof.Machine.execCtz a0 a1 s
  | .popc a0 a1 => Sys2Proof.Machine.execPopc a0 a1 s
  | .brev a0 a1 => Sys2Proof.Machine.execBrev a0 a1 s
  | .fadd a0 a1 a2 a3 => Sys2Proof.Machine.execFadd a0 a1 a2 a3 s
  | .fsub a0 a1 a2 a3 => Sys2Proof.Machine.execFsub a0 a1 a2 a3 s
  | .fmul a0 a1 a2 a3 => Sys2Proof.Machine.execFmul a0 a1 a2 a3 s
  | .fdiv a0 a1 a2 a3 => Sys2Proof.Machine.execFdiv a0 a1 a2 a3 s
  | .fsqrt a0 a1 a2 => Sys2Proof.Machine.execFsqrt a0 a1 a2 s
  | .fmin a0 a1 a2 a3 => Sys2Proof.Machine.execFmin a0 a1 a2 a3 s
  | .fmax a0 a1 a2 a3 => Sys2Proof.Machine.execFmax a0 a1 a2 a3 s
  | .fma a0 a1 a2 a3 => Sys2Proof.Machine.execFma a0 a1 a2 a3 s
  | .fcvtFi a0 a1 a2 a3 => Sys2Proof.Machine.execFcvtFi a0 a1 a2 a3 s
  | .fcvtFu a0 a1 a2 a3 => Sys2Proof.Machine.execFcvtFu a0 a1 a2 a3 s
  | .fcvtTi a0 a1 a2 a3 => Sys2Proof.Machine.execFcvtTi a0 a1 a2 a3 s
  | .fcvtTu a0 a1 a2 a3 => Sys2Proof.Machine.execFcvtTu a0 a1 a2 a3 s
  | .fcvtFx a0 a1 a2 a3 => Sys2Proof.Machine.execFcvtFx a0 a1 a2 a3 s
  | .fclass a0 a1 a2 => Sys2Proof.Machine.execFclass a0 a1 a2 s
  | .addi a0 a1 a2 => Sys2Proof.Machine.execAddi a0 a1 a2 s
  | .andi a0 a1 a2 => Sys2Proof.Machine.execAndi a0 a1 a2 s
  | .ori a0 a1 a2 => Sys2Proof.Machine.execOri a0 a1 a2 s
  | .xori a0 a1 a2 => Sys2Proof.Machine.execXori a0 a1 a2 s
  | .slli a0 a1 a2 => Sys2Proof.Machine.execSlli a0 a1 a2 s
  | .srli a0 a1 a2 => Sys2Proof.Machine.execSrli a0 a1 a2 s
  | .srai a0 a1 a2 => Sys2Proof.Machine.execSrai a0 a1 a2 s
  | .lui a0 a1 => Sys2Proof.Machine.execLui a0 a1 s
  | .aupc a0 a1 => Sys2Proof.Machine.execAupc a0 a1 s
  | .cmpEq a0 a1 a2 => Sys2Proof.Machine.execCmpEq a0 a1 a2 s
  | .cmpNe a0 a1 a2 => Sys2Proof.Machine.execCmpNe a0 a1 a2 s
  | .cmpLt a0 a1 a2 => Sys2Proof.Machine.execCmpLt a0 a1 a2 s
  | .cmpGe a0 a1 a2 => Sys2Proof.Machine.execCmpGe a0 a1 a2 s
  | .cmpLtu a0 a1 a2 => Sys2Proof.Machine.execCmpLtu a0 a1 a2 s
  | .cmpGeu a0 a1 a2 => Sys2Proof.Machine.execCmpGeu a0 a1 a2 s
  | .cmpFeq a0 a1 a2 a3 => Sys2Proof.Machine.execCmpFeq a0 a1 a2 a3 s
  | .cmpFlt a0 a1 a2 a3 => Sys2Proof.Machine.execCmpFlt a0 a1 a2 a3 s
  | .cmpFle a0 a1 a2 a3 => Sys2Proof.Machine.execCmpFle a0 a1 a2 a3 s
  | .cmpFun a0 a1 a2 a3 => Sys2Proof.Machine.execCmpFun a0 a1 a2 a3 s
  | .cmpiEq a0 a1 a2 => Sys2Proof.Machine.execCmpiEq a0 a1 a2 s
  | .cmpiNe a0 a1 a2 => Sys2Proof.Machine.execCmpiNe a0 a1 a2 s
  | .cmpiLt a0 a1 a2 => Sys2Proof.Machine.execCmpiLt a0 a1 a2 s
  | .cmpiGe a0 a1 a2 => Sys2Proof.Machine.execCmpiGe a0 a1 a2 s
  | .cmpiLtu a0 a1 a2 => Sys2Proof.Machine.execCmpiLtu a0 a1 a2 s
  | .cmpiGeu a0 a1 a2 => Sys2Proof.Machine.execCmpiGeu a0 a1 a2 s
  | .cand a0 a1 a2 => Sys2Proof.Machine.execCand a0 a1 a2 s
  | .cor a0 a1 a2 => Sys2Proof.Machine.execCor a0 a1 a2 s
  | .cxor a0 a1 a2 => Sys2Proof.Machine.execCxor a0 a1 a2 s
  | .candn a0 a1 a2 => Sys2Proof.Machine.execCandn a0 a1 a2 s
  | .cnot a0 a1 => Sys2Proof.Machine.execCnot a0 a1 s
  | .cset a0 => Sys2Proof.Machine.execCset a0 s
  | .cclr a0 => Sys2Proof.Machine.execCclr a0 s
  | .cmov a0 a1 => Sys2Proof.Machine.execCmov a0 a1 s
  | .bc a0 a1 => Sys2Proof.Machine.execBc a0 a1 s
  | .bnc a0 a1 => Sys2Proof.Machine.execBnc a0 a1 s
  | .jal a0 a1 => Sys2Proof.Machine.execJal a0 a1 s
  | .jalr a0 a1 a2 => Sys2Proof.Machine.execJalr a0 a1 a2 s
  | .ld a0 a1 a2 a3 => Sys2Proof.Machine.execLd a0 a1 a2 a3 s
  | .ldAcq a0 a1 a2 a3 a4 => Sys2Proof.Machine.execLdAcq a0 a1 a2 a3 a4 s
  | .ldSc a0 a1 a2 a3 a4 => Sys2Proof.Machine.execLdSc a0 a1 a2 a3 a4 s
  | .st a0 a1 a2 a3 => Sys2Proof.Machine.execSt a0 a1 a2 a3 s
  | .stRel a0 a1 a2 a3 a4 => Sys2Proof.Machine.execStRel a0 a1 a2 a3 a4 s
  | .stSc a0 a1 a2 a3 a4 => Sys2Proof.Machine.execStSc a0 a1 a2 a3 a4 s
  | .stSw a0 a1 a2 a3 => Sys2Proof.Machine.execStSw a0 a1 a2 a3 s
  | .amoadd a0 a1 a2 a3 a4 a5 => Sys2Proof.Machine.execAmoadd a0 a1 a2 a3 a4 a5 s
  | .amoand a0 a1 a2 a3 a4 a5 => Sys2Proof.Machine.execAmoand a0 a1 a2 a3 a4 a5 s
  | .amoor a0 a1 a2 a3 a4 a5 => Sys2Proof.Machine.execAmoor a0 a1 a2 a3 a4 a5 s
  | .amoxor a0 a1 a2 a3 a4 a5 => Sys2Proof.Machine.execAmoxor a0 a1 a2 a3 a4 a5 s
  | .amomin a0 a1 a2 a3 a4 a5 => Sys2Proof.Machine.execAmomin a0 a1 a2 a3 a4 a5 s
  | .amomax a0 a1 a2 a3 a4 a5 => Sys2Proof.Machine.execAmomax a0 a1 a2 a3 a4 a5 s
  | .amominu a0 a1 a2 a3 a4 a5 => Sys2Proof.Machine.execAmominu a0 a1 a2 a3 a4 a5 s
  | .amomaxu a0 a1 a2 a3 a4 a5 => Sys2Proof.Machine.execAmomaxu a0 a1 a2 a3 a4 a5 s
  | .amoswap a0 a1 a2 a3 a4 a5 => Sys2Proof.Machine.execAmoswap a0 a1 a2 a3 a4 a5 s
  | .cas a0 a1 a2 a3 a4 a5 => Sys2Proof.Machine.execCas a0 a1 a2 a3 a4 a5 s
  | .fenceRel a0 => Sys2Proof.Machine.execFenceRel a0 s
  | .fenceAcq a0 => Sys2Proof.Machine.execFenceAcq a0 s
  | .fenceAr a0 => Sys2Proof.Machine.execFenceAr a0 s
  | .fenceSv => Sys2Proof.Machine.execFenceSv s
  | .vadd a0 a1 a2 a3 a4 => Sys2Proof.Machine.execVadd a0 a1 a2 a3 a4 s
  | .vsub a0 a1 a2 a3 a4 => Sys2Proof.Machine.execVsub a0 a1 a2 a3 a4 s
  | .vrsub a0 a1 a2 a3 a4 => Sys2Proof.Machine.execVrsub a0 a1 a2 a3 a4 s
  | .vmul a0 a1 a2 a3 a4 => Sys2Proof.Machine.execVmul a0 a1 a2 a3 a4 s
  | .vmulh a0 a1 a2 a3 a4 => Sys2Proof.Machine.execVmulh a0 a1 a2 a3 a4 s
  | .vdiv a0 a1 a2 a3 a4 => Sys2Proof.Machine.execVdiv a0 a1 a2 a3 a4 s
  | .vrem a0 a1 a2 a3 a4 => Sys2Proof.Machine.execVrem a0 a1 a2 a3 a4 s
  | .vmin a0 a1 a2 a3 a4 => Sys2Proof.Machine.execVmin a0 a1 a2 a3 a4 s
  | .vmax a0 a1 a2 a3 a4 => Sys2Proof.Machine.execVmax a0 a1 a2 a3 a4 s
  | .vabs a0 a1 a2 => Sys2Proof.Machine.execVabs a0 a1 a2 s
  | .vneg a0 a1 a2 => Sys2Proof.Machine.execVneg a0 a1 a2 s
  | .vsadd a0 a1 a2 a3 a4 => Sys2Proof.Machine.execVsadd a0 a1 a2 a3 a4 s
  | .vssub a0 a1 a2 a3 a4 => Sys2Proof.Machine.execVssub a0 a1 a2 a3 a4 s
  | .vfma a0 a1 a2 a3 a4 => Sys2Proof.Machine.execVfma a0 a1 a2 a3 a4 s
  | .vfms a0 a1 a2 a3 a4 => Sys2Proof.Machine.execVfms a0 a1 a2 a3 a4 s
  | .vfnma a0 a1 a2 a3 a4 => Sys2Proof.Machine.execVfnma a0 a1 a2 a3 a4 s
  | .vfnms a0 a1 a2 a3 a4 => Sys2Proof.Machine.execVfnms a0 a1 a2 a3 a4 s
  | .vwmul a0 a1 a2 a3 a4 => Sys2Proof.Machine.execVwmul a0 a1 a2 a3 a4 s
  | .vand a0 a1 a2 a3 a4 => Sys2Proof.Machine.execVand a0 a1 a2 a3 a4 s
  | .vor a0 a1 a2 a3 a4 => Sys2Proof.Machine.execVor a0 a1 a2 a3 a4 s
  | .vxor a0 a1 a2 a3 a4 => Sys2Proof.Machine.execVxor a0 a1 a2 a3 a4 s
  | .vnot a0 a1 a2 => Sys2Proof.Machine.execVnot a0 a1 a2 s
  | .vsll a0 a1 a2 a3 a4 => Sys2Proof.Machine.execVsll a0 a1 a2 a3 a4 s
  | .vsrl a0 a1 a2 a3 a4 => Sys2Proof.Machine.execVsrl a0 a1 a2 a3 a4 s
  | .vsra a0 a1 a2 a3 a4 => Sys2Proof.Machine.execVsra a0 a1 a2 a3 a4 s
  | .vpopc a0 a1 a2 => Sys2Proof.Machine.execVpopc a0 a1 a2 s
  | .vclz a0 a1 a2 => Sys2Proof.Machine.execVclz a0 a1 a2 s
  | .vrecip a0 a1 a2 => Sys2Proof.Machine.execVrecip a0 a1 a2 s
  | .vrsqrt a0 a1 a2 => Sys2Proof.Machine.execVrsqrt a0 a1 a2 s
  | .vsqrt a0 a1 a2 => Sys2Proof.Machine.execVsqrt a0 a1 a2 s
  | .vexp2 a0 a1 a2 => Sys2Proof.Machine.execVexp2 a0 a1 a2 s
  | .vlog2 a0 a1 a2 => Sys2Proof.Machine.execVlog2 a0 a1 a2 s
  | .vtanh a0 a1 a2 => Sys2Proof.Machine.execVtanh a0 a1 a2 s
  | .vcmpEq a0 a1 a2 a3 a4 => Sys2Proof.Machine.execVcmpEq a0 a1 a2 a3 a4 s
  | .vcmpNe a0 a1 a2 a3 a4 => Sys2Proof.Machine.execVcmpNe a0 a1 a2 a3 a4 s
  | .vcmpLt a0 a1 a2 a3 a4 => Sys2Proof.Machine.execVcmpLt a0 a1 a2 a3 a4 s
  | .vcmpLe a0 a1 a2 a3 a4 => Sys2Proof.Machine.execVcmpLe a0 a1 a2 a3 a4 s
  | .vcmpGt a0 a1 a2 a3 a4 => Sys2Proof.Machine.execVcmpGt a0 a1 a2 a3 a4 s
  | .vcmpGe a0 a1 a2 a3 a4 => Sys2Proof.Machine.execVcmpGe a0 a1 a2 a3 a4 s
  | .vcmpUn a0 a1 a2 a3 a4 => Sys2Proof.Machine.execVcmpUn a0 a1 a2 a3 a4 s
  | .mand a0 a1 a2 => Sys2Proof.Machine.execMand a0 a1 a2 s
  | .mor a0 a1 a2 => Sys2Proof.Machine.execMor a0 a1 a2 s
  | .mxor a0 a1 a2 => Sys2Proof.Machine.execMxor a0 a1 a2 s
  | .mandn a0 a1 a2 => Sys2Proof.Machine.execMandn a0 a1 a2 s
  | .mnot a0 a1 => Sys2Proof.Machine.execMnot a0 a1 s
  | .mmv a0 a1 => Sys2Proof.Machine.execMmv a0 a1 s
  | .mset a0 => Sys2Proof.Machine.execMset a0 s
  | .mclr a0 => Sys2Proof.Machine.execMclr a0 s
  | .mpopc a0 a1 => Sys2Proof.Machine.execMpopc a0 a1 s
  | .mfirst a0 a1 => Sys2Proof.Machine.execMfirst a0 a1 s
  | .many a0 a1 => Sys2Proof.Machine.execMany a0 a1 s
  | .mall a0 a1 => Sys2Proof.Machine.execMall a0 a1 s
  | .miota a0 a1 => Sys2Proof.Machine.execMiota a0 a1 s
  | .mcomp a0 => Sys2Proof.Machine.execMcomp a0 s
  | .vcvt a0 a1 a2 a3 a4 => Sys2Proof.Machine.execVcvt a0 a1 a2 a3 a4 s
  | .vcvtSat a0 a1 a2 a3 a4 => Sys2Proof.Machine.execVcvtSat a0 a1 a2 a3 a4 s
  | .vcvtSr a0 a1 a2 a3 a4 => Sys2Proof.Machine.execVcvtSr a0 a1 a2 a3 a4 s
  | .vcvtSrSat a0 a1 a2 a3 a4 => Sys2Proof.Machine.execVcvtSrSat a0 a1 a2 a3 a4 s
  | .vredsum a0 a1 a2 => Sys2Proof.Machine.execVredsum a0 a1 a2 s
  | .vredmax a0 a1 a2 => Sys2Proof.Machine.execVredmax a0 a1 a2 s
  | .vredmin a0 a1 a2 => Sys2Proof.Machine.execVredmin a0 a1 a2 s
  | .vredand a0 a1 a2 => Sys2Proof.Machine.execVredand a0 a1 a2 s
  | .vredor a0 a1 a2 => Sys2Proof.Machine.execVredor a0 a1 a2 s
  | .vredxor a0 a1 a2 => Sys2Proof.Machine.execVredxor a0 a1 a2 s
  | .vscanSum a0 a1 a2 => Sys2Proof.Machine.execVscanSum a0 a1 a2 s
  | .vscanMax a0 a1 a2 => Sys2Proof.Machine.execVscanMax a0 a1 a2 s
  | .vslideup a0 a1 a2 a3 a4 => Sys2Proof.Machine.execVslideup a0 a1 a2 a3 a4 s
  | .vslidedn a0 a1 a2 a3 a4 => Sys2Proof.Machine.execVslidedn a0 a1 a2 a3 a4 s
  | .vperm a0 a1 a2 a3 => Sys2Proof.Machine.execVperm a0 a1 a2 a3 s
  | .vcompress a0 a1 a2 => Sys2Proof.Machine.execVcompress a0 a1 a2 s
  | .vexpand a0 a1 a2 => Sys2Proof.Machine.execVexpand a0 a1 a2 s
  | .vbcast a0 a1 a2 a3 a4 => Sys2Proof.Machine.execVbcast a0 a1 a2 a3 a4 s
  | .vmv a0 a1 a2 => Sys2Proof.Machine.execVmv a0 a1 a2 s
  | .viota a0 a1 a2 => Sys2Proof.Machine.execViota a0 a1 a2 s
  | .vmvx a0 a1 a2 a3 => Sys2Proof.Machine.execVmvx a0 a1 a2 a3 s
  | .vmvs a0 a1 a2 => Sys2Proof.Machine.execVmvs a0 a1 a2 s
  | .vnzb a0 a1 a2 => Sys2Proof.Machine.execVnzb a0 a1 a2 s
  | .vbpop a0 a1 a2 => Sys2Proof.Machine.execVbpop a0 a1 a2 s
  | .vrank a0 a1 a2 a3 => Sys2Proof.Machine.execVrank a0 a1 a2 a3 s
  | .vxsect a0 a1 a2 a3 => Sys2Proof.Machine.execVxsect a0 a1 a2 a3 s
  | .vsetvl a0 a1 a2 => Sys2Proof.Machine.execVsetvl a0 a1 a2 s
  | .vcfg a0 a1 => Sys2Proof.Machine.execVcfg a0 a1 s
  | .vrel => Sys2Proof.Machine.execVrel s
  | .vrand a0 a1 a2 => Sys2Proof.Machine.execVrand a0 a1 a2 s
  | .vld a0 a1 a2 a3 a4 a5 => Sys2Proof.Machine.execVld a0 a1 a2 a3 a4 a5 s
  | .vldS a0 a1 a2 a3 a4 a5 a6 => Sys2Proof.Machine.execVldS a0 a1 a2 a3 a4 a5 a6 s
  | .vst a0 a1 a2 a3 a4 => Sys2Proof.Machine.execVst a0 a1 a2 a3 a4 s
  | .vstS a0 a1 a2 a3 a4 a5 => Sys2Proof.Machine.execVstS a0 a1 a2 a3 a4 a5 s
  | .vldx a0 a1 a2 a3 a4 a5 a6 => Sys2Proof.Machine.execVldx a0 a1 a2 a3 a4 a5 a6 s
  | .vgll a0 a1 a2 a3 a4 a5 => Sys2Proof.Machine.execVgll a0 a1 a2 a3 a4 a5 s
  | .vstx a0 a1 a2 a3 a4 a5 => Sys2Proof.Machine.execVstx a0 a1 a2 a3 a4 a5 s
  | .vscc a0 a1 a2 a3 a4 a5 => Sys2Proof.Machine.execVscc a0 a1 a2 a3 a4 a5 s
  | .vamoAdd a0 a1 a2 a3 a4 a5 => Sys2Proof.Machine.execVamoAdd a0 a1 a2 a3 a4 a5 s
  | .vamoAnd a0 a1 a2 a3 a4 a5 => Sys2Proof.Machine.execVamoAnd a0 a1 a2 a3 a4 a5 s
  | .vamoOr a0 a1 a2 a3 a4 a5 => Sys2Proof.Machine.execVamoOr a0 a1 a2 a3 a4 a5 s
  | .vamoXor a0 a1 a2 a3 a4 a5 => Sys2Proof.Machine.execVamoXor a0 a1 a2 a3 a4 a5 s
  | .vamoMin a0 a1 a2 a3 a4 a5 => Sys2Proof.Machine.execVamoMin a0 a1 a2 a3 a4 a5 s
  | .vamoMax a0 a1 a2 a3 a4 a5 => Sys2Proof.Machine.execVamoMax a0 a1 a2 a3 a4 a5 s
  | .vamoSwap a0 a1 a2 a3 a4 a5 => Sys2Proof.Machine.execVamoSwap a0 a1 a2 a3 a4 a5 s
  | .vfas a0 a1 a2 a3 => Sys2Proof.Machine.execVfas a0 a1 a2 a3 s
  | .vwait a0 a1 a2 a3 a4 => Sys2Proof.Machine.execVwait a0 a1 a2 a3 a4 s
  | .vwaitEq a0 a1 a2 a3 a4 => Sys2Proof.Machine.execVwaitEq a0 a1 a2 a3 a4 s
  | .vwaitNe a0 a1 a2 a3 a4 => Sys2Proof.Machine.execVwaitNe a0 a1 a2 a3 a4 s
  | .vxlt a0 a1 a2 a3 a4 => Sys2Proof.Machine.execVxlt a0 a1 a2 a3 a4 s
  | .vxltW a0 a1 a2 a3 a4 => Sys2Proof.Machine.execVxltW a0 a1 a2 a3 a4 s
  | .vlin a0 a1 a2 a3 => Sys2Proof.Machine.execVlin a0 a1 a2 a3 s
  | .vlinB a0 a1 a2 a3 => Sys2Proof.Machine.execVlinB a0 a1 a2 a3 s
  | .menter a0 => Sys2Proof.Machine.execMenter a0 s
  | .mexit => Sys2Proof.Machine.execMexit s
  | .mzero a0 => Sys2Proof.Machine.execMzero a0 s
  | .mopa a0 a1 a2 a3 a4 a5 => Sys2Proof.Machine.execMopa a0 a1 a2 a3 a4 a5 s
  | .mopaRa a0 a1 a2 a3 a4 a5 => Sys2Proof.Machine.execMopaRa a0 a1 a2 a3 a4 a5 s
  | .mopaMx a0 a1 a2 a3 a4 => Sys2Proof.Machine.execMopaMx a0 a1 a2 a3 a4 s
  | .mopaMxRa a0 a1 a2 a3 a4 => Sys2Proof.Machine.execMopaMxRa a0 a1 a2 a3 a4 s
  | .mrow a0 a1 a2 a3 => Sys2Proof.Machine.execMrow a0 a1 a2 a3 s
  | .mcol a0 a1 a2 a3 => Sys2Proof.Machine.execMcol a0 a1 a2 a3 s
  | .mputr a0 a1 a2 a3 => Sys2Proof.Machine.execMputr a0 a1 a2 a3 s
  | .mputc a0 a1 a2 a3 => Sys2Proof.Machine.execMputc a0 a1 a2 a3 s
  | .mcvt a0 a1 a2 a3 a4 => Sys2Proof.Machine.execMcvt a0 a1 a2 a3 a4 s
  | .mld a0 a1 a2 a3 => Sys2Proof.Machine.execMld a0 a1 a2 a3 s
  | .mst a0 a1 a2 a3 => Sys2Proof.Machine.execMst a0 a1 a2 a3 s
  | .cpy a0 a1 a2 a3 a4 a5 => Sys2Proof.Machine.execCpy a0 a1 a2 a3 a4 a5 s
  | .cpyv a0 a1 a2 a3 a4 a5 => Sys2Proof.Machine.execCpyv a0 a1 a2 a3 a4 a5 s
  | .cpyc a0 a1 a2 a3 a4 a5 => Sys2Proof.Machine.execCpyc a0 a1 a2 a3 a4 a5 s
  | .cpycTb a0 a1 a2 a3 a4 a5 => Sys2Proof.Machine.execCpycTb a0 a1 a2 a3 a4 a5 s
  | .scfg a0 a1 a2 => Sys2Proof.Machine.execScfg a0 a1 a2 s
  | .vlds a0 a1 => Sys2Proof.Machine.execVlds a0 a1 s
  | .sadv a0 => Sys2Proof.Machine.execSadv a0 s
  | .sclose a0 => Sys2Proof.Machine.execSclose a0 s
  | .twany a0 a1 => Sys2Proof.Machine.execTwany a0 a1 s
  | .twall a0 => Sys2Proof.Machine.execTwall a0 s
  | .tfind a0 a1 => Sys2Proof.Machine.execTfind a0 a1 s
  | .tclr a0 => Sys2Proof.Machine.execTclr a0 s
  | .tstamp a0 a1 => Sys2Proof.Machine.execTstamp a0 a1 s
  | .qbind a0 a1 a2 => Sys2Proof.Machine.execQbind a0 a1 a2 s
  | .qpush a0 a1 => Sys2Proof.Machine.execQpush a0 a1 s
  | .qpop a0 a1 => Sys2Proof.Machine.execQpop a0 a1 s
  | .qstat a0 a1 => Sys2Proof.Machine.execQstat a0 a1 s
  | .barinit a0 a1 a2 => Sys2Proof.Machine.execBarinit a0 a1 a2 s
  | .barArrive a0 => Sys2Proof.Machine.execBarArrive a0 s
  | .barWait a0 => Sys2Proof.Machine.execBarWait a0 s
  | .barSync a0 => Sys2Proof.Machine.execBarSync a0 s
  | .barDrop a0 => Sys2Proof.Machine.execBarDrop a0 s
  | .sigadd a0 a1 a2 => Sys2Proof.Machine.execSigadd a0 a1 a2 s
  | .lsync => Sys2Proof.Machine.execLsync s
  | .loff => Sys2Proof.Machine.execLoff s
  | .lon => Sys2Proof.Machine.execLon s
  | .tide a0 a1 a2 a3 => Sys2Proof.Machine.execTide a0 a1 a2 a3 s
  | .tidewait a0 => Sys2Proof.Machine.execTidewait a0 s
  | .tideq a0 a1 => Sys2Proof.Machine.execTideq a0 a1 s
  | .mapget a0 a1 a2 => Sys2Proof.Machine.execMapget a0 a1 a2 s
  | .mapset a0 a1 a2 => Sys2Proof.Machine.execMapset a0 a1 a2 s
  | .mapverAcq a0 a1 => Sys2Proof.Machine.execMapverAcq a0 a1 s
  | .mapverRel a0 => Sys2Proof.Machine.execMapverRel a0 s
  | .mapverPub a0 a1 => Sys2Proof.Machine.execMapverPub a0 a1 s
  | .balloc a0 a1 => Sys2Proof.Machine.execBalloc a0 a1 s
  | .bfree a0 a1 => Sys2Proof.Machine.execBfree a0 a1 s
  | .swopen a0 a1 a2 => Sys2Proof.Machine.execSwopen a0 a1 a2 s
  | .swcommit a0 a1 a2 a3 => Sys2Proof.Machine.execSwcommit a0 a1 a2 a3 s
  | .swdrop a0 => Sys2Proof.Machine.execSwdrop a0 s
  | .swstat a0 a1 => Sys2Proof.Machine.execSwstat a0 a1 s
  | .lnset a0 a1 a2 => Sys2Proof.Machine.execLnset a0 a1 a2 s
  | .lnget a0 a1 a2 => Sys2Proof.Machine.execLnget a0 a1 a2 s
  | .launch a0 => Sys2Proof.Machine.execLaunch a0 s
  | .spawn a0 => Sys2Proof.Machine.execSpawn a0 s
  | .yield => Sys2Proof.Machine.execYield s
  | .exit => Sys2Proof.Machine.execExit s
  | .resume a0 => Sys2Proof.Machine.execResume a0 s
  | .crr a0 a1 => Sys2Proof.Machine.execCrr a0 a1 s
  | .crw a0 a1 => Sys2Proof.Machine.execCrw a0 a1 s
  | .crs a0 a1 => Sys2Proof.Machine.execCrs a0 a1 s
  | .crc a0 a1 => Sys2Proof.Machine.execCrc a0 a1 s
  | .pref a0 a1 => Sys2Proof.Machine.execPref a0 a1 s
  | .flush a0 a1 a2 => Sys2Proof.Machine.execFlush a0 a1 a2 s
  | .discard a0 a1 a2 => Sys2Proof.Machine.execDiscard a0 a1 a2 s
  | .inv a0 a1 => Sys2Proof.Machine.execInv a0 a1 s
  | .xinv a0 a1 => Sys2Proof.Machine.execXinv a0 a1 s
  | .trap a0 => Sys2Proof.Machine.execTrap a0 s
  | .tret => Sys2Proof.Machine.execTret s
  | .wfi => Sys2Proof.Machine.execWfi s
  | .halt => Sys2Proof.Machine.execHalt s
  | .faultPosting a0 => Sys2Proof.Machine.execFaultPosting a0 s
  | .faultPostedInterrupt a0 => Sys2Proof.Machine.execFaultPostedInterrupt a0 s
  | .barrierGroupWake a0 a1 a2 => Sys2Proof.Machine.execBarrierGroupWake a0 a1 a2 s
  | .tidewaitOnset a0 => Sys2Proof.Machine.execTidewaitOnset a0 s
  | .tideWindowStart a0 => Sys2Proof.Machine.execTideWindowStart a0 s
  | .tideWindowEnd a0 => Sys2Proof.Machine.execTideWindowEnd a0 s
  | .tideIntervalEnd a0 => Sys2Proof.Machine.execTideIntervalEnd a0 s
  | .leadIssue a0 => Sys2Proof.Machine.execLeadIssue a0 s
  | .copyComplete a0 => Sys2Proof.Machine.execCopyComplete a0 s
  | .copyPushWake a0 => Sys2Proof.Machine.execCopyPushWake a0 s
  | .tagWaitWake a0 => Sys2Proof.Machine.execTagWaitWake a0 s
  | .streamFetchLand a0 a1 => Sys2Proof.Machine.execStreamFetchLand a0 a1 s
  | .vldsWake a0 => Sys2Proof.Machine.execVldsWake a0 s
  | .swcommitPerform a0 => Sys2Proof.Machine.execSwcommitPerform a0 s
  | .vwaitWake a0 => Sys2Proof.Machine.execVwaitWake a0 s
  | .vwaitDeadline a0 => Sys2Proof.Machine.execVwaitDeadline a0 s
  | .queueWake a0 => Sys2Proof.Machine.execQueueWake a0 s
  | .spawnWake a0 => Sys2Proof.Machine.execSpawnWake a0 s
  | .wfiWake a0 => Sys2Proof.Machine.execWfiWake a0 s
  | .vsetvlLaneWake a0 => Sys2Proof.Machine.execVsetvlLaneWake a0 s
  | .placement a0 => Sys2Proof.Machine.execPlacement a0 s
  | .laneReclamation a0 a1 => Sys2Proof.Machine.execLaneReclamation a0 a1 s
  | .revokeDeadline a0 => Sys2Proof.Machine.execRevokeDeadline a0 s
  | .preemption a0 => Sys2Proof.Machine.execPreemption a0 s
  | .resumption a0 a1 => Sys2Proof.Machine.execResumption a0 a1 s
  | .agingPromotion a0 a1 a2 => Sys2Proof.Machine.execAgingPromotion a0 a1 a2 s
  | .partmvWrite a0 => Sys2Proof.Machine.execPartmvWrite a0 s
  | .partitionMoveComplete => Sys2Proof.Machine.execPartitionMoveComplete s
  | .powerGood => Sys2Proof.Machine.execPowerGood s
  | .keavarTimeMessage a0 => Sys2Proof.Machine.execKeavarTimeMessage a0 s
  | .timeBoundLoss => Sys2Proof.Machine.execTimeBoundLoss s
  | .remoteAccessTimeout a0 a1 => Sys2Proof.Machine.execRemoteAccessTimeout a0 a1 s
  | .ceideLaneFailure a0 => Sys2Proof.Machine.execCeideLaneFailure a0 s
  | .ceideRead a0 a1 => Sys2Proof.Machine.execCeideRead a0 a1 s
  | .ceideWrite a0 a1 => Sys2Proof.Machine.execCeideWrite a0 a1 s
  | .ceideAtomicAdd a0 a1 => Sys2Proof.Machine.execCeideAtomicAdd a0 a1 s
  | .mgmtStatus => Sys2Proof.Machine.execMgmtStatus s
  | .mgmtPartitionCreate a0 => Sys2Proof.Machine.execMgmtPartitionCreate a0 s
  | .mgmtPartitionDestroy a0 => Sys2Proof.Machine.execMgmtPartitionDestroy a0 s
  | .mgmtRootChange a0 a1 => Sys2Proof.Machine.execMgmtRootChange a0 a1 s
  | .mgmtStartDispatcher a0 => Sys2Proof.Machine.execMgmtStartDispatcher a0 s
  | .mgmtCounters a0 => Sys2Proof.Machine.execMgmtCounters a0 s
  | .counterSnapshot => Sys2Proof.Machine.execCounterSnapshot s
  | .mgmtTideTotals a0 => Sys2Proof.Machine.execMgmtTideTotals a0 s
  | .mgmtAttestation a0 => Sys2Proof.Machine.execMgmtAttestation a0 s
  | .mgmtFirmwareUpdate a0 => Sys2Proof.Machine.execMgmtFirmwareUpdate a0 s
  | .mgmtReset => Sys2Proof.Machine.execMgmtReset s
  | .notAnInstruction a0 => Sys2Proof.Machine.execNotAnInstruction a0 s
  | .fetchFault a0 a1 => Sys2Proof.Machine.execFetchFault a0 a1 s
  | .shoreTick => Sys2Proof.Machine.execShoreTick s
  | .keavarRemoteAccess a0 => Sys2Proof.Machine.execKeavarRemoteAccess a0 s

end Sys2Proof.Machine
end

