-- ==== Sys2Proof/Machine/Depends.lean ====
section
/-! DEFINITION. Address dependencies of vector reads that may be performed before an older scalar write (R190, R191): which registers
hold values that come from reads made since others may know of the write. -/

namespace Sys2Proof.Machine

/-! Registers by their bits in `EarlyStore.late` -/

/-- A scalar register. -/
def lateX (r : BitVec 5) : Nat := r.toNat

/-- A vector register. -/
def lateV (r : BitVec 5) : Nat := 32 + r.toNat

/-- A condition register. -/
def lateC (r : BitVec 3) : Nat := 64 + r.toNat

/-- A mask register. -/
def lateM (r : BitVec 3) : Nat := 72 + r.toNat

/-- What the results of an instruction are computed from: registers alone, or something that it reads elsewhere as well. -/
inductive Origin where
  | registers (from_ : List Nat)
  | elsewhere
  deriving DecidableEq, Repr

/-- The sources of a word of the majors VARITH to VSPARSE (R24): a register number counts for every kind of register that the field
may name; the old value of the destination is one where a mask or an accumulation keeps it. -/
def vectorSources (w : BitVec 32) : List Nat :=
  let major := (fld w 26 6).toNat
  let low (n : Nat) : BitVec 3 := fld w n 3
  let cross := decide (0x1B ≤ major)
  [lateV (fld w 14 5)] ++
  (if cross || fld w 24 2 == 0#2 then [lateV (fld w 9 5)] else []) ++
  (if cross || fld w 24 2 == 1#2 then [lateX (fld w 9 5)] else []) ++
  (if cross then [lateX (fld w 14 5), lateM (low 14), lateM (low 9)] else []) ++
  (if low 6 = 0 then [] else [lateM (low 6)]) ++
  (if low 6 = 0 && major != 0x17 then [] else [lateV (fld w 19 5), lateM (low 19)])

/-- What the results of an instruction are computed from (R190). -/
def origin (w : BitVec 32) (i : Instr) : Origin :=
  match leadExec i with
  | some e => .registers (e.x.map lateX ++ e.c.map lateC)
  | none =>
    match (fld w 26 6).toNat with
    | 0x03 =>
      .registers (([fld w 16 5, fld w 11 5] ++ if fld w 0 4 == 7#4 then [fld w 21 5] else [] : List (BitVec 5)).map lateX)
    | 0x0E | 0x0F | 0x10 => .registers []
    | 0x16 | 0x17 | 0x18 | 0x19 | 0x1A | 0x1B | 0x1C | 0x1D | 0x1E | 0x1F => .registers (vectorSources w)
    | _ => .elsewhere

/-- The registers that an instruction writes. -/
def lateDests (w : BitVec 32) (i : Instr) : List Nat :=
  let d := dests i
  let masks : List (BitVec 3) := match (fld w 26 6).toNat with
    | 0x1A | 0x1B => [fld w 19 3]
    | 0x28 => [fld w 6 3]
    | 0x24 | 0x26 | 0x27 => [fld w 8 3]
    | _ => []
  let high := if (fld w 26 6).toNat < 0x34 then [] else (leadHigh true w).getD []
  (d.x ++ high).map lateX ++ d.v.map lateV ++ d.c.map lateC ++
    (if d.x.isEmpty && d.c.isEmpty && d.v.isEmpty then masks.map lateM else [])

/-- The registers that give the addresses of a VLD, VLDX or MLS (R216, R154). -/
def addressRegisters (w : BitVec 32) : List Nat :=
  match (fld w 26 6).toNat with
  | 0x21 => [lateX (fld w 16 5), lateX (fld w 11 5)]
  | 0x23 => [lateX (fld w 16 5), lateV (fld w 11 5)]
  | 0x2C => [lateX (fld w 17 5), lateX (fld w 12 5)]
  | _ => []

/-- Registers that hold a constant: they come from no read. -/
def constantRegisters : List Nat := [lateX 0, lateC 0, lateM 0]

/-- What an instruction makes of an early write (R190): whether its own addresses come from a read made since others may know of the
write, and which registers do after it. -/
def EarlyStore.depends (w : BitVec 32) (i : Instr) (e : EarlyStore) : EarlyStore :=
  let comes := match origin w i with
    | .registers rs => rs.any e.late.getLsbD
    | .elsewhere => e.seen
  { e with
    barred := (addressRegisters w).any e.late.getLsbD
    late := (lateDests w i).foldl (fun m n =>
      if comes && !constantRegisters.contains n then m ||| 1#80 <<< n else m &&& ~~~(1#80 <<< n)) e.late }

/-- The hart in front is about to run the instruction of a word (R190). -/
def Hart.depends (w : BitVec 32) (i : Instr) (h : Hart) : Hart := { h with early := h.early.map (EarlyStore.depends w i) }

end Sys2Proof.Machine
end

