-- ==== Sys2Proof/Machine/Fetch.lean ====
section
/-! DEFINITION. Fetching an instruction (R22, R23), what a hart does next, and the order in which agents act
(notes/assumptions/6.md). -/

namespace Sys2Proof.Machine

/-- The word at the executing hart's program counter, read at its home (R22, R23), or the cause of a fetch fault; the
state holds the walk's updates (R308). -/
def State.fetch (s : State) : Except (BitVec 8) (BitVec 32) × State :=
  match s.xlate (s.cur.agent 0) .fetch s.cur.pc with
  | (.error c, s') => (.error c, s')
  | (.ok p, s') =>
    if s'.badByte s'.cur.core .home p.pa 4 || s'.cur.undelivers p.pa 4 then (.error 0x0D, s')
    else
      let (w, s') := s'.codeWord s'.cur.launch p.pa
      (.ok w, s')

/-- The row of the table that the executing hart's next step is: it leaves its core, takes the interrupt (R383), or fetches;
a sleeping or absent hart has none, nor has one that wrote a register of its partition in this cycle (R164). What the instruction's
addresses and results come from is noted for its vector reads (R190). -/
noncomputable def State.nextRow (s : State) : Option (Instr × State) :=
  if !s.cur.isResident || (s.cur.wait != .awake && s.cur.wait != .exit) then none
  else if s.mustLeave s.cur then some (.preemption s.cur.uid, s)
  else if s.cur.wait = .exit then some (.exit, s)
  else if s.cur.irq && s.cur.status.ie && !s.cur.midway then some (.faultPostedInterrupt s.cur.uid, s)
  else if s.wrote.contains s.cur.uid then none
  else
    match s.fetch with
    | (.error c, s') => some (.fetchFault c s.cur.pc, s')
    | (.ok w, s') =>
      match decode w with
      | .ok i => some (i, s'.onCur (Hart.depends w i))
      | .error _ => some (.notAnInstruction w, s')

/-- May the part report events of a code beside those that the model's own accesses count (R365)? -/
def leftToPart (onDie : Bool) (code : BitVec 8) : Bool :=
  if onDie then [0x41, 0x42, 0x43, 0x44, 0x46, 0x47].contains code.toNat else [0x09, 0x0B, 0x0D].contains code.toNat

/-- The spontaneous actions of the part that have no row (R20, R171, R175, R176, R199, R309, R389). DESIGN CHOICE
(notes/assumptions/18.md): an eviction drops dirty bytes in error; no instruction forced it, and nothing faults. -/
noncomputable def State.spontaneous (s : State) : Item → State
  | .cycle => s.nextCycle
  | .copyRead c n => s.copyAhead c n false
  | .copyPiece c n => s.copyAhead c n true
  | .evict cache pa =>
    match s.l1Find cache pa with
    | some x => (s.writeBackSector x).l1Drop cache pa
    | none => s
  | .cleanHome pa => s.cleanHome (sectorOf pa) 64
  | .dropVisitor pa => s.visitorDrop pa
  | .dropTlb n => { s with tlb := s.tlb.eraseIdx n }
  | .cutNext => { s.draw.2 with cut := some (s.draw.1 % 2048) }
  | .badMessage q => s.answered q fun s => s.reply (.status 0x01)
  | .upset pa => { s with poison := pa :: s.poison }
  | .upsetL1 cache pa =>
    match s.l1Find cache pa with
    | some x => s.l1Put { x with bad := x.bad ||| (byteMask (pa % 64) 1 &&& x.valid) }
    | none => s
  | .upsetRegister u v m t =>
    s.onHart u fun h => { h with
      vbad := v ++ h.vbad, mbad := (m.filter fun p => p.1 != 0) ++ h.mbad, tbad := t ++ h.tbad }
  | .counted onDie unit code n =>
    if !(leftToPart onDie code) then s
    else if onDie then s.countDie unit code n
    else s.countCore unit (((s.parts.find? fun p => p.cores.contains unit).map (·.id)).getD 0) code n
  | _ => s

/-- The wake events of a sleeping hart. -/
noncomputable def Hart.wakes (h : Hart) : List Instr :=
  match h.wait with
  | .awake => []
  | .vwait _ _ _ _ _ _ => [.vwaitWake h.uid, .vwaitDeadline h.uid]
  | .qpush _ _ | .qpop _ _ => [.queueWake h.uid]
  | .tagAny _ _ | .tagAll _ => [.tagWaitWake h.uid]
  | .push _ _ _ _ _ _ _ => [.copyPushWake h.uid]
  | .vlds _ _ => [.vldsWake h.uid]
  | .spawn _ _ => [.spawnWake h.uid]
  | .tidewait _ _ => [.tidewaitOnset h.uid]
  | .wfi => [.wfiWake h.uid]
  | .vsetvl _ _ _ => [.vsetvlLaneWake h.uid]
  | .barrier _ | .exit | .leaving _ _ => []

/-- What can act when the agenda is empty; one of them is drawn (R2, R3). An entry that is not enabled changes nothing. -/
noncomputable def State.moves (s : State) : List Item :=
  let residents := s.harts.filter Hart.isResident
  (residents.filter fun h => h.wait == .awake || h.wait == .exit).map (fun h => Item.hart h.uid) ++
  (residents.flatMap fun h => h.wakes.map Item.event) ++
  ((residents.filter s.mustLeave).map fun h => Item.event (.preemption h.uid)) ++
  (s.cmds.map fun c => match c.kind with
    | .commit _ _ => Item.event (.swcommitPerform c.uid)
    | _ => Item.event (.copyComplete c.uid)) ++
  (residents.flatMap fun h => ((upTo 4).filter fun n => h.slots.toList[n]?.any (·.cfg)).map fun n =>
    Item.event (.streamFetchLand h.uid (BitVec.ofNat 2 n))) ++
  ((residents.filter fun h => h.leadActive && !h.leadStopped).map fun h => Item.event (.leadIssue h.uid)) ++
  ((s.parts.filter fun p => !p.posting.isEmpty).map fun p => Item.event (.faultPosting p.id)) ++
  (if s.runq.isEmpty && s.resumeq.isEmpty && s.launches.all (fun l => l.spawn.isNone) then []
   else s.parts.flatMap fun p => p.cores.map fun c => Item.event (.placement c)) ++
  (s.resumeq.flatMap fun e => (e.harts.take 1).flatMap fun u =>
    match s.part? e.part with
    | some p => p.cores.map fun c => Item.event (.resumption u c)
    | none => []) ++
  ((s.reclaims.filter fun r => !r.victim).map fun r => Item.event (.revokeDeadline r.hart)) ++
  (s.launches.flatMap fun l => (upTo 16).flatMap fun k =>
    match l.bars.toList[k]? with
    | some b => b.insts.flatMap fun i => i.groups.map fun g =>
        Item.event (.barrierGroupWake l.uid (BitVec.ofNat 4 k) g.group)
    | none => []) ++
  ((residents.filter fun h => h.tide.decl.isSome).flatMap fun h =>
    [Item.event (.tideWindowStart h.uid), Item.event (.tideWindowEnd h.uid)]) ++
  (s.runq.map fun e => Item.event (.agingPromotion e.part e.cls false)) ++
  (s.resumeq.map fun e => Item.event (.agingPromotion e.part e.cls true)) ++
  (if s.reclaims.isEmpty then [] else [Item.cutNext]) ++
  (if s.moving.isSome then [Item.event .partitionMoveComplete] else []) ++
  (if s.snapshots.isEmpty then [] else [Item.event .counterSnapshot]) ++
  [Item.event .timeBoundLoss, Item.cycle]

end Sys2Proof.Machine
end

