-- ==== Sys2Proof/Machine/Load.lean ====
section
/-! DEFINITION. How `State.withFetchWord` loads a program from outside the machine
(notes/assumptions/12.md). -/

namespace Sys2Proof.Machine

/-- The partition of the load: core 0, tables from 0x10000, fault queue at 0x80000, save region at 0x100000. -/
def loadPart : Partition :=
  { id := 0, cores := upTo 256, root := 0x10000, faultQueue := 0x80000, saveBase := 0x100000, saveHarts := 16 }

/-- The launch of the load: one hart, user mode, one lane group reserved. -/
def loadRecord : LaunchRec :=
  { entry := 0x40000, nharts := 1, hpc := 1, lgmin := 0, lgmax := 8, lgw := 1, done := 0x50000, part := 0, rad := 16,
    tide := 16 }

/-- Page tables of the load: virtual page 4 is physical page 4 (code), 5 is page 5 (data), user, read, write and execute,
accessed and dirty. -/
def loadTables : List Host.Cell :=
  cellsOf false 0x10000 (leBytes 8 0x2001) ++ cellsOf false 0x20000 (leBytes 8 0x3001) ++
  cellsOf false (0x30000 + 8 * 4) (leBytes 8 0x406F) ++ cellsOf false (0x30000 + 8 * 5) (leBytes 8 0x5067)

/-- The hart of the load, on core 0. -/
def loadHart : Hart :=
  { uid := 1, launch := 1, place := .resident 0 0, handle := 0x100000, pc := 0x40000, held := 8, vgrant := 8,
    rad := 16 }

/-- The state with a word as the next instruction of the one hart of a program loaded from outside: bring-up is over, the
partition, its tables and the launch stand, and the agenda names the hart. -/
def State.load (s : State) (w : BitVec 32) : State :=
  { s with
    cur := loadHart, rest := []
    launches := [{ uid := 1, record := loadRecord, placed := 1 }]
    parts := [loadPart]
    lighthouse := { s.lighthouse with phase := .running, runningSlot := some 0 }
    hbm := cellsWrite false loadTables 0x40000 (leBytes 4 w.toNat)
    agenda := [.hart 1]
    nextUid := 2 }

end Sys2Proof.Machine
end

