-- ==== Sys2Proof/Machine/Step.lean ====
section
/-! DEFINITION. One step of the package. -/

namespace Sys2Proof.Machine

/-- The next step of the hart in front: the row that `State.nextRow` gives, run; nothing when it sleeps. -/
noncomputable def State.hartStep (s : State) : Host.Outcome State Fault Refusal :=
  match s.nextRow with
  | some (i, s') => exec i s'
  | none => .next s

/-- One item: an event, a hart's step, or an action of the part without a row. -/
noncomputable def State.runItem (s : State) : Item → Host.Outcome State Fault Refusal
  | .event i => exec i s
  | .hart u =>
    match s.focus u with
    | some s' => s'.hartStep
    | none => .fault .noSuchAgent
  | i => .next (s.spontaneous i)

/-- One step: the head of the agenda, or when it is empty one of the moves that the part can make, drawn. -/
noncomputable def step (s : State) : Host.Outcome State Fault Refusal :=
  match s.agenda with
  | i :: rest => State.runItem { s with agenda := rest } i
  | [] =>
    let (k, s') := s.draw
    s'.runItem (s.moves.getD (k % s.moves.length) .cycle)

/-- The state with a program loaded from outside whose next instruction is the given word (notes/assumptions/12.md). -/
def State.withFetchWord (s : State) (nbits w : Nat) : State := s.load (BitVec.ofNat 32 (w % 2 ^ nbits))

end Sys2Proof.Machine
end

