-- ==== Sys2Proof/Safety.lean ====
section
/-! DEFINITION. What counts as a safe state and a safe step, in the terms the statements use. -/

namespace Sys2Proof.Machine

/-- A step goes on: it ends neither in a fault nor in a refusal. -/
def Goes (o : Result) : Prop := ∃ t, o = .next t

/-! Completion and frame -/

/-- A hart without the notes of who may know of its stores, which any access may set (R195). -/
def Hart.unseen (h : Hart) : Hart := { h with early := h.early.map fun e => { e with seen := false } }

/-- A hart without what the completion of any instruction may change whatever the instruction is: the program counter, the
captured values, the sleep (R63, R201), the lead's own state, which a re-fork changes (R240), the remote writes that wait
for their acknowledgement (R400), and who may know of its stores. -/
def Hart.bare (h : Hart) : Hart :=
  { h.unseen with
    pc := 0, captured := [], resumed := false, wait := .awake, syncArrived := [], midway := false, refork := false, lead := {},
    leadStopped := false, divs := 0, unacked := [] }

/-- A state without what the completion of any instruction may change: that of the hart in front, who may know of a store, which
spawn queue areas a store has touched (R290), the performance counters (R365), and how many free choices have been made. -/
def State.bare (s : State) : State := { s with
  cur := s.cur.bare, rest := s.rest.map Hart.unseen, perf := [], spoiled := [], draws := 0 }

/-- Every byte of memory reads as before, for every core and every way of reading it (R189). -/
def State.sameMemory (s t : State) : Prop :=
  ∀ (core : Nat) (mode : ReadMode) (pa : Nat), t.readByte core mode pa = s.readByte core mode pa

/-- From `s` to `t` no byte has changed at its home or behind dirty bytes, and what a core finds in its L1 or behind it is one of
the values that it could find there before (R189, R190). -/
def State.freshens (s t : State) : Prop :=
  ∀ (core pa : Nat),
    t.readByte core .home pa = s.readByte core .home pa ∧ t.readByte core .fresh pa = s.readByte core .fresh pa ∧
    ∀ mode, ∃ old, t.readByte core mode pa = s.readByte core old pa ∧ (mode ≠ .home → old ≠ .home)

/-- The caches have room for what one instruction brings in: no line gives way to another (R16, R171). -/
structure State.Roomy (s : State) : Prop where
  l1 : s.l1.length + 5120 ≤ 6144
  slices : s.l2.length + s.visitors.length + 10240 ≤ sliceLines

/-- Nothing that the hart sent or sends to another package goes without its acknowledgement (R400). -/
structure Hart.Delivers (h : Hart) : Prop where
  writes : h.lostWrites = []
  accesses : h.undelivered = []

/-- The outcome is a next state in which the instruction has completed: control stands at `next`, the hart is awake, and all
else is as in `u`. -/
def CompletesAs (o : Result) (next : Word) (u : State) : Prop :=
  ∃ t, o = .next t ∧ t.cur.pc = next ∧ t.cur.wait = .awake ∧ t.bare = u.bare

/-- The outcome is a next state in which the instruction has completed with the hart `h` in front: nothing else has changed,
and every byte of memory reads as before. -/
def Completes (s : State) (o : Result) (next : Word) (h : Hart) : Prop :=
  ∃ t, o = .next t ∧ t.cur.pc = next ∧ t.cur.wait = .awake ∧ t.bare = { s with cur := h }.bare ∧ s.sameMemory t

/-- The outcome is a next state in which the hart in front sleeps on `w`, and nothing else has changed. -/
def Sleeps (s : State) (o : Result) (w : Wait) : Prop := o = .next (s.onCur fun h => { h with wait := w })

/-! Traps -/

/-- The outcome is the vectored entry of R381 for a hart in supervisor mode with a handler: the trap registers, the status,
the handler's address, the broken links; x, c, v and m registers and memory as before. -/
def Vectors (s : State) (o : Result) (cause : BitVec 8) (tval : Word) (tidx : BitVec 12) : Prop :=
  ∃ t, o = .next t ∧ t.cur.epc = s.cur.pc ∧ t.cur.tcause = cause ∧ t.cur.tval = tval ∧ t.cur.tidx = tidx ∧
    t.cur.status = { s.cur.status with pie := s.cur.status.ie, pprv := s.cur.status.sup, ie := false, sup := true } ∧
    t.cur.pc = s.cur.tvec &&& ~~~3 ∧ t.cur.links = [] ∧ t.cur.x = s.cur.x ∧ t.cur.c = s.cur.c ∧ t.cur.v = s.cur.v ∧
    t.cur.m = s.cur.m ∧ t.cur.tiles = s.cur.tiles ∧ t.cur.fflags = s.cur.fflags ∧ s.sameMemory t

/-- Does a trap of the hart vector (R381): supervisor mode and a handler? -/
abbrev Hart.handles (h : Hart) : Prop := h.status.sup = true ∧ h.tvec ≠ 0

/-! Vector operands and results -/

/-- The state in which no vector instruction meets a trap of its own or a wait: not in matrix mode (R108 step 1), lanes held
(R100), no register in error (R389), none that an engine has still to write (R263). -/
structure State.VectorReady (s : State) : Prop where
  noMatrix : s.cur.status.matrix = false
  lanes : s.cur.granted = true
  vectors : s.cur.vbad = []
  masks : s.cur.mbad = []
  tiles : s.cur.tbad = []
  written : s.pendingGroups s.cur.uid = []

/-- The modes that the instruction at the program counter runs with: those it captured when it restarts (R112). -/
def State.fmodeHere (s : State) : BitVec 6 := (s.issue []).fmode

/-- Its scalar operand, likewise (R112). -/
def State.scalarHere (s : State) (b : BitVec 5) : Word := (s.issue [] (s.x b)).scalar

/-- The capacity rule of R90 for a list of tags. -/
abbrev Hart.Fits (h : Hart) (ts : List Tag) : Prop := ∀ t ∈ ts, t.width * h.vlen ≤ 2048 * h.vgrant

/-- `r` is the 64-bit scalar `x` as an element of tag `t` (R109): its low bits for integers, itself for f64, the f32 value of R47
for f32, and that value converted for the smaller formats. -/
def Tag.Takes (t : Tag) (md : Mode) (x : Nat) (r : FRes) : Prop :=
  let single := if x / 2 ^ 32 = 2 ^ 32 - 1 then x % 2 ^ 32 else 0x7FC00000
  (t.isInt = true → r = ⟨x % 2 ^ t.width, 0⟩) ∧ (t = .f64 → r = ⟨x, 0⟩) ∧ (t = .f32 → r = ⟨single, 0⟩) ∧
  ∀ f ∈ [Fmt.f16, .bf16, .e4m3, .e5m2], t.fmt = some f → r = Fmt.f32.convert f md single

/-- A destination register after an instruction whose result has tag `t` (R89): element `i` is `f i` where there is a value;
the others keep when the tag keeps, and are zero in a new tag. -/
def VReg.After (v old : VReg) (t : Tag) (f : Nat → Option Nat) : Prop :=
  v.tag = t ∧ ∀ i, (i + 1) * t.width ≤ 16384 →
    v.elem i = match f i with
      | some x => x % 2 ^ t.width
      | none => if old.tag = t then old.elem i else 0

/-- A mask image after an instruction that writes bits below `n` (R103, R119): bit `i` is `f i` where there is a value, and
keeps otherwise. -/
def MaskAfter (new old : BitVec 2048) (n : Nat) (f : Nat → Option Bool) : Prop :=
  ∀ i, i < 2048 → new.getLsbD i = if i < n then (f i).getD (old.getLsbD i) else old.getLsbD i

/-- The flags that the results of elements below `n` raise together (R56). -/
def flagsOf (n : Nat) (rs : Nat → Option FRes) : BitVec 6 := orFlags ((List.range n).filterMap fun i => (rs i).map FRes.fl)

/-- A vector instruction has completed with a destination of tag `t`: element `i` below `n` is `rs i` where there is a result
(R89), the results' flags and `once` are raised (R56, R109), and nothing else has changed. -/
def VectorDone (s : State) (o : Result) (d : BitVec 5) (t : Tag) (n : Nat) (rs : Nat → Option FRes) (once : BitVec 6) : Prop :=
  ∃ v : VReg, v.After (s.cur.getV d) t (fun i => if i < n then (rs i).map FRes.val else none) ∧
    Completes s o (s.cur.pc + 4) { s.cur.setV d v with fflags := s.cur.fflags ||| (flagsOf n rs ||| once) }

/-- A vector instruction has completed with a mask destination: bits below `n` as `f` says, flags raised. -/
def MaskDone (s : State) (o : Result) (d : BitVec 3) (n : Nat) (f : Nat → Option Bool) (fl : BitVec 6) : Prop :=
  ∃ v : BitVec 2048, MaskAfter v (s.cur.getM d) n f ∧
    Completes s o (s.cur.pc + 4) { s.cur.setM d v with fflags := s.cur.fflags ||| fl }

/-- A per-element instruction has completed: its result has tag `t`, and active element `i` (R40, in pair mode R92) is `f` of
the elements `i` of va, of the b operand (R109) and of the old vd. An element `vl` that only an e2m1 source makes active raises its
flags, and is not written (R107, R56). -/
def ElementWise (s : State) (o : Result) (form : BitVec 2) (d a b : BitVec 5) (m : BitVec 3) (logic : Bool) (t : Tag)
    (f : Nat → Nat → Nat → FRes) : Prop :=
  let ta := (s.cur.getV a).tag
  let pair := ta == .e2m1 || t == .e2m1
  let n := destLen pair t s.cur.vlen
  let active := activeAt pair s.cur.vlen (s.cur.getM m)
  let bo := s.cur.bOperand (s.issue [] (s.x b)) form b ta logic
  let at_ := fun i => f ((s.cur.getV a).elem i) (bo.elem i) ((s.cur.getV d).elem i)
  VectorDone s o d t n (fun i => if active i then some (at_ i) else none)
    ((if (List.range n).any active then bo.fl else 0) ||| if active n then (at_ n).fl else 0)

/-! Floating values -/

/-- The formats of scalar and vector arithmetic (R44), e2m1 left out (R43). -/
def Fmt.arithmetic : List Fmt := [.f64, .f32, .bf16, .f16, .e5m2, .e4m3]

/-- The magnitude that exponent and fraction bits stand for (R44), as if no code were special. -/
def Fmt.magnitude (f : Fmt) (n : Nat) : Rat :=
  let fraction : Rat := ((n % 2 ^ f.fbits : Nat) : Rat) / 2 ^ f.fbits
  if n / 2 ^ f.fbits = 0 then fraction * 2 ^ (1 - (f.bias : Int))
  else (1 + fraction) * 2 ^ (((n / 2 ^ f.fbits : Nat) : Int) - f.bias)

/-- The pattern's bits below its sign. -/
def Fmt.mag (f : Fmt) (x : Nat) : Nat := x % 2 ^ (f.width - 1)

/-- The bit of a sign. -/
def Fmt.signBit (f : Fmt) (s : Bool) : Nat := if s then 2 ^ (f.width - 1) else 0

/-- The value of a finite pattern (R44). -/
def Fmt.value (f : Fmt) (x : Nat) : Rat := (if x.testBit (f.width - 1) then -1 else 1) * f.magnitude (f.mag x)

/-- Is the pattern finite (R44, R45)? -/
def Fmt.isFinite (f : Fmt) (x : Nat) : Bool := decide (f.mag x ≤ f.maxMag)

/-- Is the pattern a NaN (R45)? -/
def Fmt.isNanCode (f : Fmt) (x : Nat) : Bool :=
  match f.special with
  | .ieee | .e5m2 => decide (f.infMag < f.mag x)
  | .e4m3 => f.mag x == 0x7F
  | .e2m1 => false

/-- Is it a signalling one (R45)? -/
def Fmt.signals (f : Fmt) (x : Nat) : Bool := f.special == .ieee && f.isNanCode x && !x.testBit (f.fbits - 1)

/-- A NaN made quiet (R52, R45). -/
def Fmt.quieted (f : Fmt) (x : Nat) : Nat := if f.special = .ieee then x ||| 2 ^ (f.fbits - 1) else x

/-- The NaN result of an operation on patterns of the format (R52): the first NaN made quiet, or the default one; NV when one
signals. -/
def Fmt.nanFrom (f : Fmt) (md : Mode) (ops : List Nat) : FRes :=
  ⟨if md.dn then f.defaultNan else f.quieted ((ops.find? f.isNanCode).getD 0), if ops.any f.signals then flNV else 0⟩

/-- `r` is the result, with sign `s`, of rounding the exact magnitude that lies above the rationals `under` it and at or above
those `upto` it (R49, R50, R53). Between two neighbouring finite magnitudes it becomes the lower one, or the upper one where the
rounding mode says so, with NX unless it is the lower one. It is tiny when it stays below the least normal magnitude rounded with
unbounded exponent: UF when inexact, and zero with UF and NX under FTZ. Beyond the largest it overflows. -/
def Fmt.IsRounding (f : Fmt) (md : Mode) (s : Bool) (under upto : Rat → Prop) (r : FRes) : Prop :=
  ∀ t : Nat,
    let low := f.magnitude t
    let high := f.magnitude (t + 1)
    let middle := (low + high) / 2
    let leaves := fun (from_ half : Rat) (odd : Prop) => match md.rm with
      | .rne => under half ∨ upto half ∧ odd
      | .rna => upto half
      | .rtz => False
      | .rup => under from_ ∧ s = false
      | .rdn => under from_ ∧ s = true
    let up := leaves low middle (t % 2 = 1)
    let tiny := t < 2 ^ f.fbits ∧ ¬(t + 1 = 2 ^ f.fbits ∧ leaves middle ((middle + high) / 2) True)
    let flushed := md.ftz = true ∧ f.special = .ieee ∧ tiny ∧ under 0
    let toMax := md.sat = true ∨ f.special = .e2m1 ∨ md.rm = .rtz ∨ md.rm = .rup ∧ s = true ∨ md.rm = .rdn ∧ s = false
    (upto low → ¬ upto high → t < f.maxMag ∨ t = f.maxMag ∧ ¬ up →
      (flushed → r = ⟨f.signBit s, flUF ||| flNX⟩) ∧
      (¬ flushed → (up → r.val = f.signBit s + (t + 1)) ∧ (¬ up → r.val = f.signBit s + t) ∧ (¬ under low → r.fl = 0) ∧
        (under low → ¬ tiny → r.fl = flNX) ∧ (under low → tiny → r.fl = flUF ||| flNX))) ∧
    (upto (f.magnitude (f.maxMag + 1)) ∨ t = f.maxMag ∧ upto low ∧ ¬ upto high ∧ up →
      (toMax → r = ⟨f.signBit s + f.maxMag, flOF ||| flNX⟩) ∧
      (¬ toMax → r = ⟨f.signBit (s && !(f.special == .e4m3 && md.dn)) + (if f.special = .e4m3 then 0x7F else f.infMag),
        flOF ||| flNX⟩))

/-- `k` is the value `v` rounded to an integer (R49). -/
def Rm.RoundsInt (rm : Rm) (v : Rat) (k : Int) : Prop :=
  match rm with
  | .rne => |v - k| ≤ 1 / 2 ∧ (|v - k| = 1 / 2 → k % 2 = 0)
  | .rna => |v - k| ≤ 1 / 2 ∧ (|v - k| = 1 / 2 → |v| ≤ |(k : Rat)|)
  | .rtz => if 0 ≤ v then (k : Rat) ≤ v ∧ v < k + 1 else v ≤ k ∧ (k : Rat) < v + 1
  | .rup => v ≤ k ∧ (k : Rat) < v + 1
  | .rdn => (k : Rat) ≤ v ∧ v < k + 1

/-- The result is the one rounding of a nonzero exact value (R49). -/
def Fmt.Rounds (f : Fmt) (md : Mode) (o : FRes) (v : Rat) : Prop :=
  ∀ (s : Bool) (m : Nat) (e : Int), m ≠ 0 → v = (if s then -1 else 1) * ((m : Rat) * 2 ^ e) → o = f.round md s m e

/-! Memory -/

/-- The translation of an agent's access is served by the translation caches or by the tile-buffer window alone: whatever memory
holds, it gives `p` and changes nothing (R309, R169). -/
def State.ServesFor (s : State) (a : Agent) (k : Kind) (va : Word) (p : Phys) : Prop :=
  ∀ l2 hbm, State.xlate { s with l2 := l2, hbm := hbm } a k va = (.ok p, { s with l2 := l2, hbm := hbm })

/-- An access of the hart in front is so served. -/
abbrev State.Serves (s : State) (k : Kind) (va : Word) (p : Phys) : Prop := s.ServesFor (s.cur.agent s.cur.cw) k va p

/-- An access of the hart in front by its core's vector memory unit is so served. -/
abbrev State.ServesUnit (s : State) (k : Kind) (va : Word) (p : Phys) : Prop := s.ServesFor (s.cur.unitAgent s.cur.cw) k va p

/-- No byte is in error (R389), and no L1 or visitor line holds anything. -/
structure State.Quiet (s : State) : Prop where
  l1 : s.l1 = []
  visitors : s.visitors = []
  poison : s.poison = []

/-- No byte of memory or of an L1 is in error (R389). -/
structure State.Sound (s : State) : Prop where
  poison : s.poison = []
  sectors : ∀ x ∈ s.l1, x.bad = 0

/-- A sector stands at most once in an L1 (R171). -/
def State.Single (s : State) : Prop := s.l1.Pairwise fun x y => ¬(x.cache = y.cache ∧ x.addr = y.addr)

/-- The dirty bytes of a sector are valid, and it lies at an address of a sector (R171, R18). -/
def Sector.Tidy (x : Sector) : Prop := x.dirty &&& ~~~x.valid = 0 ∧ x.addr % 64 = 0

/-- The sectors of the L1s are tidy. -/
def State.Tidy (s : State) : Prop := ∀ x ∈ s.l1, x.Tidy

/-- Where no home slice lists a byte of a tile buffer, as every write leaves it (R166, R188). -/
def State.TilesUncached (s : State) : Prop := ∀ pa, isTile pa = true → cellGet s.l2 pa = none

/-- The form in which every step leaves memory: HBM and home slices canonical, each sector of an L1 once with its dirty bytes
valid, no byte of a tile buffer in a home slice. -/
structure State.Canonical (s : State) : Prop where
  wf : Memory.wf s = true
  single : s.Single
  tidy : s.Tidy
  tiles : s.TilesUncached

/-- A read has filled caches and done no more: no byte has changed where no line had to give way, and in any case the core
finds by its own dirty bytes and the homes what it found. -/
def State.onlyFills (s t : State) (core : Nat) : Prop :=
  (s.Tidy → s.Roomy → s.freshens t) ∧
  (s.Canonical → s.Sound → ∀ pa, t.readByte core .fresh pa = s.readByte core .fresh pa)

/-- What an acquire of core `core` at a scope makes of `s` (R172, R174, R176): no byte changes; at cluster scope or wider a plain
read finds what the core's own dirty bytes and the homes hold, and at domain scope no copy of another package's memory is left. -/
def State.acquires (s u : State) (core scope : Nat) : Prop :=
  u.l2 = s.l2 ∧ u.hbm = s.hbm ∧
  (s.Canonical → (∀ c, u.readByte core .fresh c = s.readByte core .fresh c) ∧
    ((if s.isFused core then 3 else 2) ≤ scope → ∀ c, s.isRemote c = false ∨ scope = 5 →
      u.readByte core .plain c = s.readByte core .fresh c)) ∧
  (scope = 5 → u.visitors = [])

/-- What a release of core `core` at a scope makes of `s` (R172, R174): every byte reads as before by the core's own dirty bytes and
the homes, and where the scope is wider than the harts that share the L1 each byte that was dirty there stands at its home. -/
def State.releasesTo (s u : State) (core scope : Nat) : Prop :=
  (s.Canonical → (∀ c, u.readByte core .fresh c = s.readByte core .fresh c) ∧
    (s.releases core scope = true → ∀ c x, s.l1Find (s.cacheOf core) c = some x → x.dirty.getLsbD (c % 64) = true →
      u.homeByte c = sectorByte x.data (c % 64))) ∧
  (s.releases core scope = false → s.sameMemory u)

/-- From `s` to `t` the bytes `bs` were stored at `pa`: read as `mode` says they are `bs`, and every other byte reads as before,
by dirty bytes of the core's own L1 and the homes (R193). -/
def Stores (s t : State) (core : Nat) (mode : ReadMode) (pa : Nat) (bs : List Byte) : Prop :=
  (∀ i, i < bs.length → t.readByte core mode (pa + i) = bs.getD i 0) ∧
  ∀ a, a < pa ∨ pa + bs.length ≤ a → t.readByte core .fresh a = s.readByte core .fresh a

/-- The program counter of a hart is word-aligned (R22, R63). -/
def Hart.aligned (h : Hart) : Prop := h.pc &&& 3 = 0

/-! Vector memory -/

/-- Is unit `u` of an access with tag `t` and mask `m` active (R217, R40)? -/
def Hart.activeUnit (h : Hart) (t : Tag) (m : BitVec 3) (u : Nat) : Bool :=
  decide (u < t.units h.vlen) && (h.getM m).getLsbD u

/-- The state in which a vector memory instruction, begun afresh, meets no trap, wait or interruption at its units below `n`
(R218, R219): unit `u` lies at `addr u`, which translates to `p u`; where the delay buffer offers a load its recorded frames, they
are those of the tables (R242). -/
structure State.AccessBelow (s : State) (n : Nat) (k : Kind) (t : Tag) (m : BitVec 3) (addr : Nat → Word) (p : Nat → Phys) :
    Prop where
  vectors : s.VectorReady
  quiet : s.Quiet
  wf : Memory.wf s = true
  delivers : s.cur.Delivers
  begins : s.cur.progress = {}
  uncut : s.cut = none
  early : s.cur.early = []
  live : t ≠ .dead
  fits : s.cur.Fits [t]
  aligned : ∀ u, s.cur.activeUnit t m u = true → (addr u).toNat % t.unitBytes = 0
  served : ∀ u, u < n → s.cur.activeUnit t m u = true → s.ServesUnit k (addr u) (p u)
  frames : k = .read → ∀ u, u < n → s.cur.activeUnit t m u = true →
    (p u).framed (s.cur.recordedPages t.unitBytes ((upTo (t.units s.cur.vlen)).map addr)) (addr u) = p u

/-- The same for all its units. -/
abbrev State.AccessReady (s : State) (k : Kind) (t : Tag) (m : BitVec 3) (addr : Nat → Word) (p : Nat → Phys) : Prop :=
  s.AccessBelow (t.units s.cur.vlen) k t m addr p

/-- A destination register after a load (R89, R222): the active units have the values `f`; the others keep when the tag
keeps, and are zero in a new tag. Without a unit it is as before. -/
def VReg.Loaded (v old : VReg) (t : Tag) (units : Nat) (active : Nat → Bool) (f : Nat → Nat) : Prop :=
  (units = 0 → v = old) ∧
  (units ≠ 0 → v.tag = t ∧ ∀ i, (i + 1) * (8 * t.unitBytes) ≤ 16384 →
    v.unit t i = if active i then f i else if old.tag = t then old.unit t i else 0)

/-- A vector load has completed under the length `vl`: each active unit `u` below `n` of vd holds the bytes at `p u`, every byte
of memory reads as before, and besides vd and the length only caches, links, tickets and the choices that the part made have
changed. -/
def LoadUpTo (s : State) (o : Result) (d : BitVec 5) (t : Tag) (m : BitVec 3) (p : Nat → Phys) (n vl : Nat) : Prop :=
  ∃ (u : State) (v : VReg), o = .next u ∧ u.cur.pc = s.cur.pc + 4 ∧ u.cur.wait = .awake ∧
    u.bare = { s with
      cur := { s.cur.setV d v with links := u.cur.links, vlen := vl }
      l1 := u.l1, l2 := u.l2, hbm := u.hbm, visitors := u.visitors, seq := u.seq, choices := u.choices, draws := u.draws }.bare ∧
    s.sameMemory u ∧
    v.Loaded (s.cur.getV d) t n (fun i => s.cur.activeUnit t m i && decide (i < n)) fun i => leNat (s.homeRead (p i).pa t.unitBytes)

/-- A vector load has completed with all its units. -/
def LoadDone (s : State) (o : Result) (d : BitVec 5) (t : Tag) (m : BitVec 3) (p : Nat → Phys) : Prop :=
  LoadUpTo s o d t m p (t.units s.cur.vlen) s.cur.vlen

/-- A hart without its link table, which writes of any hart may shorten (R228), and without who may know of its stores. -/
def Hart.unlinked (h : Hart) : Hart := { h.unseen with links := [] }

/-- From `s` to `u` an instruction has stored: besides memory, caches and the words that code may still be fetched as (R23)
only links, tickets and the choices that the part made have changed. -/
def StoreFrame (s u : State) (h : Hart) : Prop :=
  u.cur.pc = s.cur.pc + 4 ∧ u.cur.wait = .awake ∧
  u.bare = { s with
    cur := { h with links := u.cur.links }, rest := u.rest, l1 := u.l1, l2 := u.l2, hbm := u.hbm, visitors := u.visitors,
    recoded := u.recoded, seq := u.seq, choices := u.choices, draws := u.draws }.bare ∧
  u.rest.map Hart.unlinked = s.rest.map Hart.unlinked

/-- Where a store's units go: apart from each other, aligned in physical memory, tile buffers uncached. -/
structure State.Targets (s : State) (t : Tag) (m : BitVec 3) (p : Nat → Phys) : Prop where
  wf : Memory.wf s = true
  tiles : s.TilesUncached
  apart : ∀ i j, s.cur.activeUnit t m i = true → s.cur.activeUnit t m j = true → i ≠ j →
    (p i).pa + t.unitBytes ≤ (p j).pa ∨ (p j).pa + t.unitBytes ≤ (p i).pa
  aligned : ∀ i, s.cur.activeUnit t m i = true → (p i).pa % t.unitBytes = 0
  window : ∀ i, s.cur.activeUnit t m i = true → isTile (p i).pa = true → (p i).attr.mode .fresh = .home

/-- A vector store has completed: unit `u` of the source stands at `p u`, every other byte reads as before, by the core's own
dirty bytes and the homes. -/
def StoreDone (s : State) (o : Result) (src : VReg) (t : Tag) (m : BitVec 3) (p : Nat → Phys) : Prop :=
  ∃ u, o = .next u ∧ StoreFrame s u s.cur ∧
    (∀ i, s.cur.activeUnit t m i = true → ∀ j, j < t.unitBytes →
      u.readByte s.cur.core ((p i).attr.mode .fresh) ((p i).pa + j) = (leBytes t.unitBytes (src.unit t i)).getD j 0) ∧
    ∀ a, (∀ i, s.cur.activeUnit t m i = true → a < (p i).pa ∨ (p i).pa + t.unitBytes ≤ a) →
      u.readByte s.cur.core .fresh a = s.readByte s.cur.core .fresh a

/-- At their homes, the active units have the bytes that `new` gives, where it gives any, and every other byte is as before. -/
def HomesAfter (s u : State) (n : Nat) (active : Nat → Bool) (p : Nat → Phys) (new : Nat → Option Nat) : Prop :=
  (∀ i, active i = true → ∀ j, j < n →
    u.homeByte ((p i).pa + j) = match new i with
      | some v => (leBytes n v).getD j 0
      | none => s.homeByte ((p i).pa + j)) ∧
  ∀ a, (∀ i, active i = true → a < (p i).pa ∨ (p i).pa + n ≤ a) → u.homeByte a = s.homeByte a

/-- From `s` to `u` the listed bytes were written, each range at its physical address: every other byte at its home is as
before. -/
def Wrote (s u : State) (ws : List (Nat × List Byte)) : Prop :=
  (∀ w ∈ ws, ∀ j, j < w.2.length → u.homeByte (w.1 + j) = w.2.getD j 0) ∧
  ∀ a, (∀ w ∈ ws, a < w.1 ∨ w.1 + w.2.length ≤ a) → u.homeByte a = s.homeByte a

/-- Ranges of memory lie apart from each other. -/
abbrev Apart (rs : List (Nat × Nat)) : Prop := rs.Pairwise fun x y => x.1 + x.2 ≤ y.1 ∨ y.1 + y.2 ≤ x.1

/-- A physical place some bytes further on. -/
def Phys.plus (p : Phys) (o : Nat) : Phys := { p with pa := p.pa + o }

/-- `n` bytes at an address translate as one: they lie in one page, or in one KiB of the tile-buffer window (R169, R302). -/
abbrev OnePiece (va : Word) (n : Nat) : Prop :=
  let size := if inWindow va then 1024 else 65536
  va.toNat % size + n ≤ size

/-- `n` bytes at `va` translate as one, are served at `p`, in this package, and hold the number `v`. -/
def State.At (s : State) (k : Kind) (va : Word) (p : Phys) (n v : Nat) : Prop :=
  s.Serves k va p ∧ OnePiece va n ∧ s.isRemote p.pa = false ∧ leNat (s.homeRead p.pa n) = v

/-- A page of 64 KiB at `va` lies in this package at `p`, for accesses of a kind. -/
def State.PageAt (s : State) (k : Kind) (va : Word) (p : Phys) : Prop :=
  va.toNat % 65536 = 0 ∧ s.isRemote p.pa = false ∧ ∀ o, o < 65536 → s.Serves k (va + BitVec.ofNat 64 o) (p.plus o)

/-- The version or leaf pointer `k` of a page that lies at `p` (R318). -/
def State.pointer (s : State) (p : Phys) (k : Nat) : Nat := leNat (s.homeRead (p.pa + 8 * (8 + k)) 8)

/-- Nothing is cached, in error, early or unacknowledged, and memory is canonical: what the instructions on maps, pools and
windows meet on a machine at rest. -/
structure State.Rests (s : State) : Prop where
  quiet : s.Quiet
  early : s.cur.early = []
  sent : s.cur.unacked = []
  delivers : s.cur.Delivers
  wf : Memory.wf s = true
  tiles : s.TilesUncached

/-! Context maps and windows -/

/-- A sound map header stands in memory at its address, served at `p` (R316, R317). -/
structure State.HasHeader (s : State) (h : MapHeader) (p : Phys) : Prop where
  handle : isHeader h.addr = true
  sound : h.malformed = false
  small : h.geo.lgt < 2 ^ 8 ∧ h.geo.nplane < 2 ^ 8 ∧ h.geo.tstride < 2 ^ 16 ∧ h.length < 2 ^ 32 ∧ h.fork < 2 ^ 32 ∧ h.vnum < 2 ^ 32
  word0 : s.At .read h.addr p 8 (h.geo.lgt + h.geo.nplane * 2 ^ 8 + h.geo.tstride * 2 ^ 16 + h.length * 2 ^ 32)
  pstride : s.At .read (h.addr + 8) (p.plus 8) 8 h.geo.pstride
  top : s.At .read (h.addr + 16) (p.plus 16) 8 h.top.toNat
  parent : s.At .read (h.addr + 24) (p.plus 24) 8 h.parent.toNat
  word4 : s.At .read (h.addr + 32) (p.plus 32) 8 (h.fork + h.vnum * 2 ^ 32)
  vcur : s.At .read (h.addr + 40) (p.plus 40) 8 h.vcur.toNat
  rstate : s.At .read (h.addr + 48) (p.plus 48) 8 h.rstate.toNat
  pool : s.At .read (h.addr + 56) (p.plus 56) 8 h.pool.toNat

/-- A handle gives a view (R315, R321): a header's working top and length, or a version's page and recorded length. -/
def State.HasView (s : State) (handle : Word) (v : MapView) : Prop :=
  (∃ p, s.HasHeader v.hdr p) ∧
  ((handle = v.hdr.addr ∧ v.top = v.hdr.top ∧ v.length = v.hdr.length) ∨
   (isHeader handle = false ∧ isVersion handle = true ∧ v.top = handle - 1 ∧
     (∃ p w, s.At .read v.top p 8 w ∧ v.length = bits w 32 32) ∧ ∃ p, s.At .read (v.top + 0x28) p 8 v.hdr.addr.toNat))

/-- A position at or above the fork leads through a view to a valid entry of R319 that no window holds (R321). -/
def State.Mapped (s : State) (v : MapView) (pos e : Nat) : Prop :=
  let b := pos >>> v.hdr.geo.lgt
  v.hdr.fork ≤ pos ∧ pos < v.length ∧ b / 8192 < 8184 ∧
  ∃ p q t, s.At .read (v.top + BitVec.ofNat 64 (8 * (8 + b / 8192))) p 8 t ∧ bit t 0 = true ∧
    s.At .read (BitVec.ofNat 64 (t / 65536 * 65536 + 8 * (b % 8192))) q 8 e ∧ bit e 0 = true ∧ bit e 1 = false ∧
    entryMalformed e = false

/-- What a position resolves to in a plane (R321): the address in its block, or none beyond the length. -/
def State.Resolves (s : State) (v : MapView) (plane pos : Nat) (r : Option Word) : Prop :=
  (r = none ∧ v.hdr.fork ≤ pos ∧ v.length ≤ pos) ∨ ∃ e, s.Mapped v pos e ∧ r = some (v.hdr.geo.address e pos plane)

/-- A pool stands in memory, served at `p` (R329). -/
structure State.HasPool (s : State) (q : Pool) (p : Phys) : Prop where
  count : s.At .read q.addr p 8 q.count
  cap : s.At .read (q.addr + 8) (p.plus 8) 8 q.cap
  stack : s.At .read (q.addr + 16) (p.plus 16) 8 q.stack.toNat
  fits : q.count ≤ q.cap
  written : s.Serves .write q.addr p

/-- Where the parts of a commit lie (R345): map header, top page, window record, pool, free pool slot, tail pointer, tail
entry, and in each plane the draft token and the place it goes to. -/
structure CommitPlaces where
  header : Phys
  top : Phys
  record : Phys
  pool : Phys
  slot : Phys
  pointer : Phys
  entry : Phys
  draft : Nat → Phys
  tail : Nat → Phys

/-- The ranges of a commit of a map with geometry `g`, which lie apart. -/
def CommitPlaces.ranges (c : CommitPlaces) (g : Geometry) : List (Nat × Nat) :=
  [(c.header.pa, 64), (c.top.pa, 64), (c.record.pa, 0xE0), (c.pool.pa, 24), (c.slot.pa, 8), (c.pointer.pa, 8), (c.entry.pa, 8)] ++
  (upTo (g.nplane + 1)).flatMap fun l => [((c.draft l).pa, g.tstride), ((c.tail l).pa, g.tstride)]

/-- The window with record page `r` can commit its root node `n` to the never published map of header `h` (R345): one draft
block, entry `d`, from a pool `q` with room, and a mapped tail block, entry `e`. -/
structure State.Commits (s : State) (h : MapHeader) (r : Word) (n : Nat) (q : Pool) (c : CommitPlaces) (d t e : Nat) : Prop where
  header : s.HasHeader h c.header
  headerOwn : ∀ o, o < 64 → s.Serves .write (h.addr + BitVec.ofNat 64 o) (c.header.plus o)
  unpublished : h.vcur = 0
  top : ∀ o, o < 64 → s.Serves .write (h.top + BitVec.ofNat 64 o) (c.top.plus o) ∧
    s.Serves .read (h.top + BitVec.ofNat 64 o) (c.top.plus o)
  state : (s.homeByte (c.top.pa + 0x24)).getLsbD 0 = false
  page : r.toNat % 65536 = 0
  record : ∀ o, o < 0xE0 → s.Serves .ownWrite (r + BitVec.ofNat 64 o) (c.record.plus o) ∧
    s.Serves .ownRead (r + BitVec.ofNat 64 o) (c.record.plus o)
  map : leNat (s.homeRead c.record.pa 8) = h.addr.toNat
  blen : leNat (s.homeRead (c.record.pa + 8) 4) = h.length
  drafts : s.homeByte (c.record.pa + 0x19) = 1
  stateBase : leNat (s.homeRead (c.record.pa + 0x28) 8) = 0
  node : n < 64 ∧ (s.homeByte (c.record.pa + 0x40 + n)).toNat = 64 + n
  draft : leNat (s.homeRead (c.record.pa + 0x80) 8) = d ∧ bit d 0 = true ∧ entryMalformed d = false
  source : leNat (s.homeRead (c.record.pa + 0xA0) 8) = q.addr.toNat
  pool : s.HasPool q c.pool ∧ q.count < q.cap
  slot : s.Serves .write (q.slot q.count) c.slot ∧ OnePiece (q.slot q.count) 8
  tail : s.Mapped { top := h.top, length := h.length + 1, hdr := h } h.length e
  pointer : s.At .read (h.top + BitVec.ofNat 64 (8 * (8 + (h.length >>> h.geo.lgt) / 8192))) c.pointer 8 t
  entry : s.At .read (BitVec.ofNat 64 (t / 65536 * 65536 + 8 * ((h.length >>> h.geo.lgt) % 8192))) c.entry 8 e
  planes : ∀ l, l ≤ h.geo.nplane →
    s.Serves .ownRead (h.geo.address d 0 l) (c.draft l) ∧ OnePiece (h.geo.address d 0 l) h.geo.tstride ∧
    s.Serves .write (h.geo.address e h.length l) (c.tail l) ∧ OnePiece (h.geo.address e h.length l) h.geo.tstride
  apart : Apart (c.ranges h.geo)

/-- What a commit writes (R345): the tokens, the header and the record of the version, the block given back, the cleared
record. -/
def State.commitWrites (s : State) (h : MapHeader) (q : Pool) (c : CommitPlaces) (d : Nat) (k : BitVec 3) :
    List (Nat × List Byte) :=
  (upTo (h.geo.nplane + 1)).map (fun l => ((c.tail l).pa, s.homeRead (c.draft l).pa h.geo.tstride)) ++
  [(c.header.pa + 4, leBytes 4 (h.length + 1)), (c.header.pa + 0x24, leBytes 4 (h.vnum + 1)),
   (c.header.pa + 0x28, leBytes 8 (h.top + 1).toNat), (c.header.pa + 0x30, leBytes 8 h.rstate.toNat),
   (c.top.pa, leBytes 4 (h.vnum + 1)), (c.top.pa + 4, leBytes 4 (h.length + 1)), (c.top.pa + 8, leBytes 8 h.rstate.toNat),
   (c.top.pa + 0x10, List.replicate 20 0), (c.top.pa + 0x24, [1, k.setWidth 8]),
   (c.slot.pa, leBytes 8 (d / 65536 * 65536)), (c.pool.pa, leBytes 8 (q.count + 1)),
   (c.record.pa + 0x18, List.replicate 0xC8 0)]

/-! The copy engine -/

/-- The command that the hart gives the engine (R254, R255). -/
def Hart.command (h : Hart) (uid tag : Nat) (scope : BitVec 3) (ord : Bool) (cw : BitVec 5) (kind : CmdKind) : Cmd :=
  { uid := uid, core := h.core, hart := h.uid, tag := tag, scope := scope, ord := ord, sup := h.status.sup, cw := cw, kind := kind }

/-- The hart after a push (R261): the tag is busy without an error to report, under the command's scope, and its bit in
`tagmap` is clear. -/
def Hart.pushed (h : Hart) (g : BitVec 6) (scope : BitVec 3) : Hart :=
  { h with
    tags := h.tags.set g.toNat { h.tags[g.toNat] with busy := true, errpend := false, scope := scope }
    tagmap := h.tagmap &&& ~~~(1#64 <<< g.toNat) }

/-- The hart after a command completes without an error (R258). -/
def Hart.tagDone (h : Hart) (g : Nat) (now : BitVec 63) (cycle : Nat) : Hart :=
  { h with
    tags := h.tags.set (g % 64) { h.tags[g % 64] with busy := false, err := false, time := now, doneAt := some cycle }
    tagmap := h.tagmap ||| 1#64 <<< g }

/-- The hart after a command completes with an error (R259). -/
def Hart.tagFailed (h : Hart) (g : Nat) (now : BitVec 63) (cycle : Nat) (cause : BitVec 8) (addr : Word) : Hart :=
  { h with
    tags := h.tags.set (g % 64) { h.tags[g % 64] with
      busy := false, err := true, errpend := true, time := now, cause := cause, addr := addr, doneAt := some cycle }
    tagmap := h.tagmap ||| 1#64 <<< g }

/-! Matrix mode -/

/-- A hart in matrix mode whose matrix instructions meet no error and no wait (R141, R389, R263). -/
structure State.MatrixReady (s : State) : Prop where
  mode : s.cur.status.matrix = true
  vectors : s.cur.vbad = []
  masks : s.cur.mbad = []
  tiles : s.cur.tbad = []
  written : s.pendingGroups s.cur.uid = []

/-- One product sum of R61 on the word `acc`, the rows `x` and `y` and the scales. -/
def mopaResult (ta tb : Tag) (acc : Nat) (x y : List Nat) (sa sb : Option Int) : FRes :=
  match ta.fmt, tb.fmt with
  | some fa, some fb => mopaFloat acc fa fb x y (sa.bind fun p => sb.map fun q => p + q)
  | _, _ => mopaInt acc ta tb x y

/-- The units of a tile that a mask enables (R154, R155): 32 to each row. -/
def tileUnits (m : BitVec 2048) (u : Nat) : Bool := decide (u < 2048) && m.getLsbD (u / 32)

/-! Synchronisation and tasks -/

/-- The counts E, A, D and P of a barrier instance after the check of R357. -/
def BarInst.checked (x : BarInst) : BitVec 32 × BitVec 32 × BitVec 32 × BitVec 32 :=
  if x.e = 0 ∨ x.a < x.e then (x.e, x.a, x.d, x.p) else (x.e - x.d, 0, 0, x.p + 1)

/-- No other hart sleeps on a barrier slot. -/
def State.NoSleepers (s : State) (i : BitVec 4) : Prop := ∀ h ∈ s.rest, h.wait ≠ .barrier i

/-- A barrier instruction of the hart in front has acted: its instance has the counts `c`, its own state for the slot is `b`,
and only its barrier state and its launch have changed. -/
def BarrierActs (s u : State) (i : BitVec 4) (c : BitVec 32 × BitVec 32 × BitVec 32 × BitVec 32) (b : HartBar) : Prop :=
  let x := (u.barOf u.cur i).2
  (x.e, x.a, x.d, x.p) = c ∧ u.cur.bars[i.toNat] = b ∧
  u.bare = { s with cur := { s.cur with bars := u.cur.bars }, launches := u.launches }.bare

/-- A launch record of 64 bytes stands at `va`, with its completion counter at `q` (R276, R278). -/
structure State.HasRecord (s : State) (va : Word) (r : LaunchRec) (p q : Phys) : Prop where
  aligned : va.toNat % 64 = 0
  served : s.Serves .read va p
  here : s.isRemote p.pa = false
  bytes : r = LaunchRec.ofBytes (s.homeRead p.pa 64)
  counter : r.done.toNat % 8 = 0 ∧ s.Serves .write r.done q
  noQueue : r.spawnq = 0

/-- From `s` to `u` bytes have been written at their homes, and besides what follows from that only the named fields of `t` have
changed: links on the bytes break, home slices make room, and code may be fetched as it was (R228, R16, R23). -/
def State.homesWritten (s u t : State) : Prop :=
  u.bare = { t with
    cur := { t.cur with links := u.cur.links }, rest := u.rest, l1 := u.l1, l2 := u.l2, hbm := u.hbm, visitors := u.visitors,
    recoded := u.recoded, poison := u.poison, draws := u.draws }.bare ∧
  u.rest.map Hart.unlinked = s.rest.map Hart.unlinked

/-- What the part writes in the spawn queue area of the launch `l` with room for `n` records is served at `p`, whatever memory
and the launches are (R290). -/
def State.ServesArea (s : State) (l : Launch) (n : Nat) (p : Nat → Phys) : Prop :=
  ∀ (o : Nat) (t : State), o ∈ 0x0C :: (upTo n).map (fun k => 64 * (k + 1)) → t.tlb = s.tlb → t.lighthouse = s.lighthouse →
    t.xlate { core := s.cur.core, part := l.record.part, launch := l.uid, sup := true, cw := 0 } .ownWrite
      (l.record.spawnq + BitVec.ofNat 64 o) = (.ok (p o), t)

/-- No program has written the area of a spawn queue (R290). -/
def State.AreasKept (s : State) : Prop := ∀ l ∈ s.launches, ∀ q ∈ l.spawn,
  s.areaDisturbed q = false ∧ q.spoilt = false ∧ l.uid ∉ s.spoiled

/-- Only the hart in front, the caches and what is named have changed: the frame of the task instructions. -/
def TaskFrame (s u : State) : Prop :=
  u.cur.pc = s.cur.pc + 4 ∧ u.cur.wait = .awake ∧
  u.bare = { s with
    launches := u.launches, runq := u.runq, nextUid := u.nextUid, l1 := u.l1, visitors := u.visitors }.bare

end Sys2Proof.Machine
end

