-- ==== Sys2Proof/Certificates/Slice0/Obligations.lean ====
section
/-! DEFINITION. The statements for the provers. -/

open Sys2Proof Sys2Proof.Machine

/-! Encoding, the step and reset -/

/-- Decoding an encoded well-formed instruction gives it back (R21, R24-R29), with every operand at every value that its field
admits. -/
def Obligations.DecodeEncode : Prop :=
  ∀ (i : Instr) (w : BitVec 32), i.wellFormed = true → encode i = some w → decode w = .ok i

/-- A word has one meaning (R21, R28, R29): what the decoder accepts is a well-formed instruction whose word it is, and the
majors 0x00, 0x3D, 0x3E and 0x3F hold none. -/
def Obligations.EncodeDecode : Prop :=
  ∀ (w : BitVec 32) (i : Instr), decode w = .ok i →
    encode i = some w ∧ i.wellFormed = true ∧ w.toNat / 2 ^ 26 ∉ [0x00, 0x3D, 0x3E, 0x3F]

/-- Words of the manual's encodings, one of several families, decode to their instructions, and reserved ones to none. -/
def Obligations.DecodeWords : Prop :=
  decode 0x04A63800#32 = .ok (.add 5 6 7) ∧ decode 0xE4050000#32 = .ok (.launch 5) ∧ decode 0xE4060001#32 = .ok (.spawn 6) ∧
  decode 0xE8800100#32 = .ok (.crr 4 0x010) ∧ decode 0xF0000070#32 = .ok (.trap 7) ∧ decode 0xA9008300#32 = .ok (.mopa 4 0 8 3 0 0) ∧
  decode 0xD4A63800#32 = .ok (.mapget 5 6 7) ∧ decode 0xD8A90000#32 = .ok (.balloc 5 9) ∧
  ∀ w : BitVec 32, w.toNat / 2 ^ 26 ∈ [0x00, 0x3D, 0x3E, 0x3F] → ∀ i, decode w ≠ .ok i

/-- A step runs the decoded instruction (R22, R23, R29, R30): a hart that is awake, need not leave and takes no interrupt fetches
the word at its PC and executes the instruction that it decodes to, or takes the trap of a failed fetch or of a word that is none;
where code has not changed while launches lived the word is the one in memory, else one that stood there. Beside a scalar write
that vector reads may overtake it notes which registers hold later values (R190, R191; notes/assumptions/10.md). A hart that must
leave is pre-empted, one with an interrupt takes it, one that wrote a register of its partition in this cycle waits for the next
(R164, notes/assumptions/22.md), an event on the agenda is executed, and a sleeping hart does nothing. The agenda is the model's
(notes/assumptions/6.md). -/
def Obligations.StepRunsDecoded : Prop :=
  ∀ (s z t : State) (u : Nat) (rest : List Item) (i : Instr) (p : Phys) (c : BitVec 8),
    let code := t.codeWord t.cur.launch p.pa
    let issued := code.2.onCur (Hart.depends code.1 i)
    (s.agenda = .event i :: rest → step s = exec i { s with agenda := rest }) ∧
    (s.agenda = .hart u :: rest → State.focus { s with agenda := rest } u = some z → z.cur.isResident = true →
      (z.mustLeave z.cur = true → z.cur.wait = .awake ∨ z.cur.wait = .exit → step s = exec (.preemption z.cur.uid) z) ∧
      (z.mustLeave z.cur = false → z.cur.wait = .awake →
        ((z.cur.irq && z.cur.status.ie && !z.cur.midway) = true → step s = exec (.faultPostedInterrupt z.cur.uid) z) ∧
        ((z.cur.irq && z.cur.status.ie && !z.cur.midway) = false → z.wrote.contains z.cur.uid = true → step s = .next z) ∧
        ((z.cur.irq && z.cur.status.ie && !z.cur.midway) = false → z.wrote.contains z.cur.uid = false →
          (z.xlate (z.cur.agent 0) .fetch z.cur.pc = (.ok p, t) →
            (t.badByte t.cur.core .home p.pa 4 = false → t.cur.undelivers p.pa 4 = false →
              (decode code.1 = .ok i → step s = exec i issued) ∧
              ((∀ j, decode code.1 ≠ .ok j) → step s = exec (.notAnInstruction code.1) code.2)) ∧
            (t.badByte t.cur.core .home p.pa 4 = true ∨ t.cur.undelivers p.pa 4 = true → step s = exec (.fetchFault 0x0D z.cur.pc) t)) ∧
          (z.xlate (z.cur.agent 0) .fetch z.cur.pc = (.error c, t) → step s = exec (.fetchFault c z.cur.pc) t))) ∧
      (z.mustLeave z.cur = false → z.cur.wait = .exit → step s = exec .exit z) ∧
      (z.cur.wait ≠ .awake → z.cur.wait ≠ .exit → step s = .next z)) ∧
    code.1 ∈ t.codeWords t.cur.launch p.pa ∧
    (t.recoded = [] → code = (BitVec.ofNat 32 (leNat (t.homeRead p.pa 4)), t)) ∧
    issued = { code.2 with cur := { code.2.cur with early := issued.cur.early } } ∧ (t.cur.early = [] → issued = code.2)

/-- Every step keeps the form of memory (R166, R171, R188): the lists of HBM and of the home slices canonical, each
sector once in an L1 with its dirty bytes valid, and no byte of a tile buffer in a home slice. -/
def Obligations.StepsKeepMemoryCanonical : Prop := ∀ s t : State, s.Canonical → step s = .next t → t.Canonical

/-- The machine at reset (R63, R64, R86, R91, R93, R138, R157-R164, R226, R247, R257, R269, R350, R353): the reset values that the
manual gives, and memory in its canonical form; a partition is created with the reset values of its registers. The manual gives
`x10` to `x12` and `status` their values only as a hart is launched; that they are zero in the absent hart in front at reset is the
model's choice (notes/assumptions/1.md). -/
def Obligations.ResetState : Prop :=
  let s := State.reset
  let h := s.cur
  (∀ r, h.getX r = 0) ∧ (∀ r, h.getC r = (r == 0)) ∧ (∀ r, h.getM r = if r = 0 then BitVec.allOnes 2048 else 0) ∧
  (∀ r, h.getV r = { img := 0, tag := .dead }) ∧ (∀ r, h.getT r = { img := 0, tag := .dead }) ∧
  (∀ r ∈ [CtlReg.fmode, .fflags, .rkey, .vl, .vlmax, .vstart, .lstat, .cw, .tagmap, .status, .epc, .tcause, .tval, .tidx, .tvec,
    .shore, .partmv], s.ctlRead r = 0) ∧
  s.ctlRead .lslip = 4 ∧ s.ctlRead .lskew = 2 ∧ s.ctlRead .vbyp = 65536 ∧ h.links = [] ∧ h.tags = Vector.replicate 64 {} ∧
  h.slots = Vector.replicate 4 {} ∧ h.tide.decl = none ∧ h.irq = false ∧ s.queues = [] ∧ s.seq = 0 ∧ s.harts = [] ∧
  s.launches = [] ∧ s.parts = [] ∧ s.Canonical ∧
  ∀ (s : State) (q : PartitionRequest) (p : Partition), s.requested q = some p →
    p.floor = 2 ∧ p.ramp = 0 ∧ p.bxSpacing = 0 ∧ p.bxGroup = 63 ∧ p.agetime = 100000 ∧ p.revoke = 30000 ∧
    p.acting = p.toPartRegs

/-! Scalar registers -/

/-- XOP, the multiplications and the bit counts (R69, R70), CMP and CMPI on integers and CLOG (R79-R81): each instruction
completes in every state with its result in xd or its outcome in cd, nothing else changes. A count of zeros of zero is 64; the
immediate of a comparison is sign-extended, and for the unsigned comparisons read as unsigned. -/
def Obligations.AluResults : Prop :=
  (∀ (s : State) (d a b : BitVec 5) (c : BitVec 3),
     let done := fun (i : Instr) (v : Word) => Completes s (exec i s) (s.cur.pc + 4) (s.cur.setX d v)
     let x := s.x a
     let y := s.x b
     let k := y.toNat % 64
     done (.add d a b) (x + y) ∧ done (.sub d a b) (x - y) ∧ done (.and d a b) (x &&& y) ∧ done (.or d a b) (x ||| y) ∧
     done (.xor d a b) (x ^^^ y) ∧ done (.sll d a b) (x <<< k) ∧ done (.srl d a b) (x >>> k) ∧
     done (.sra d a b) (BitVec.ofInt 64 (x.toInt / 2 ^ k)) ∧
     done (.min d a b) (BitVec.ofInt 64 (min x.toInt y.toInt)) ∧ done (.max d a b) (BitVec.ofInt 64 (max x.toInt y.toInt)) ∧
     done (.minu d a b) (BitVec.ofNat 64 (min x.toNat y.toNat)) ∧
     done (.maxu d a b) (BitVec.ofNat 64 (max x.toNat y.toNat)) ∧
     done (.sel d a b c) (if s.c c then x else y) ∧ done (.mul d a b) (BitVec.ofNat 64 (x.toNat * y.toNat)) ∧
     done (.mulh d a b) (BitVec.ofInt 64 (x.toInt * y.toInt / 2 ^ 64)) ∧
     done (.mulhu d a b) (BitVec.ofNat 64 (x.toNat * y.toNat / 2 ^ 64))) ∧
  (∀ (s : State) (d a : BitVec 5),
     let done := fun (i : Instr) (v : Word) => Completes s (exec i s) (s.cur.pc + 4) (s.cur.setX d v)
     let x := s.x a
     (∃ n, n ≤ 64 ∧ done (.clz d a) (BitVec.ofNat 64 n) ∧ (∀ i, i < n → x.getLsbD (63 - i) = false) ∧
       (n < 64 → x.getLsbD (63 - n) = true)) ∧
     (∃ n, n ≤ 64 ∧ done (.ctz d a) (BitVec.ofNat 64 n) ∧ (∀ i, i < n → x.getLsbD i = false) ∧
       (n < 64 → x.getLsbD n = true)) ∧
     done (.popc d a) (BitVec.ofNat 64 ((List.range 64).filter fun i => x.getLsbD i).length) ∧
     ∃ r : Word, done (.brev d a) r ∧ ∀ i, i < 64 → r.getLsbD i = x.getLsbD (63 - i)) ∧
  (∀ (s : State) (d : BitVec 3) (a b : BitVec 5) (i : BitVec 14),
     let done := fun (j : Instr) (p : Prop) =>
       ∃ v : Bool, (v = true ↔ p) ∧ Completes s (exec j s) (s.cur.pc + 4) (s.cur.setC d v)
     let x := s.x a
     let y := s.x b
     let k : Word := BitVec.ofInt 64 i.toInt
     done (.cmpEq d a b) (x = y) ∧ done (.cmpNe d a b) (x ≠ y) ∧ done (.cmpLt d a b) (x.toInt < y.toInt) ∧
     done (.cmpGe d a b) (x.toInt ≥ y.toInt) ∧ done (.cmpLtu d a b) (x.toNat < y.toNat) ∧
     done (.cmpGeu d a b) (x.toNat ≥ y.toNat) ∧
     done (.cmpiEq d a i) (x.toInt = i.toInt) ∧ done (.cmpiNe d a i) (x.toInt ≠ i.toInt) ∧
     done (.cmpiLt d a i) (x.toInt < i.toInt) ∧ done (.cmpiGe d a i) (x.toInt ≥ i.toInt) ∧
     done (.cmpiLtu d a i) (x.toNat < k.toNat) ∧ done (.cmpiGeu d a i) (x.toNat ≥ k.toNat)) ∧
  ∀ (s : State) (d a b : BitVec 3),
    let done := fun (i : Instr) (v : Bool) => Completes s (exec i s) (s.cur.pc + 4) (s.cur.setC d v)
    done (.cand d a b) (s.c a && s.c b) ∧ done (.cor d a b) (s.c a || s.c b) ∧ done (.cxor d a b) (s.c a ^^ s.c b) ∧
    done (.candn d a b) (s.c a && !s.c b) ∧ done (.cnot d a) (!s.c a) ∧ done (.cset d) true ∧ done (.cclr d) false ∧
    done (.cmov d a) (s.c a)

/-- Divisions (R71): they complete in every state; an exact quotient that is finite and representable is truncated toward
zero, another saturates; dividend = divisor × quotient + remainder modulo 2^64, and the remainder is zero or has the sign of
the dividend. -/
def Obligations.DivisionResults : Prop :=
  ∀ (s : State) (d a b : BitVec 5),
    let done := fun (i : Instr) (v : Word) => Completes s (exec i s) (s.cur.pc + 4) (s.cur.setX d v)
    let x := s.x a
    let y := s.x b
    (∃ q r : Word, done (.div d a b) q ∧ done (.rem d a b) r ∧ x = y * q + r ∧
      (r = 0 ∨ (r.toInt < 0 ↔ x.toInt < 0)) ∧
      (y ≠ 0 → ¬(x.toInt = -2 ^ 63 ∧ y.toInt = -1) → q.toInt = x.toInt.tdiv y.toInt) ∧
      (x.toInt = -2 ^ 63 → y.toInt = -1 → q.toInt = 2 ^ 63 - 1) ∧
      (y = 0 → q.toInt = if 0 < x.toInt then 2 ^ 63 - 1 else if x.toInt < 0 then -2 ^ 63 else 0)) ∧
    ∃ q r : Word, done (.divu d a b) q ∧ done (.remu d a b) r ∧ x = y * q + r ∧
      (y ≠ 0 → q.toNat = x.toNat / y.toNat ∧ r.toNat < y.toNat) ∧
      (y = 0 → q = if x = 0 then 0 else BitVec.allOnes 64)

/-- ADDI, ANDI, ORI, XORI, SHI, LUI and AUPC (R72-R74): xd := xa op sext(imm16, 16); a right shift brings in zeros or signs; PC
is the address of the AUPC word itself. -/
def Obligations.ImmediateResults : Prop :=
  (∀ (s : State) (d a : BitVec 5) (i : BitVec 16),
     let done := fun (j : Instr) (v : Word) => Completes s (exec j s) (s.cur.pc + 4) (s.cur.setX d v)
     done (.addi d a i) (BitVec.ofInt 64 ((s.x a).toInt + i.toInt)) ∧
     done (.andi d a i) (s.x a &&& BitVec.ofInt 64 i.toInt) ∧ done (.ori d a i) (s.x a ||| BitVec.ofInt 64 i.toInt) ∧
     done (.xori d a i) (s.x a ^^^ BitVec.ofInt 64 i.toInt)) ∧
  ∀ (s : State) (d a : BitVec 5) (n : BitVec 6) (i : BitVec 21),
    let done := fun (j : Instr) (v : Word) => Completes s (exec j s) (s.cur.pc + 4) (s.cur.setX d v)
    done (.slli d a n) (BitVec.ofNat 64 ((s.x a).toNat * 2 ^ n.toNat)) ∧
    done (.srli d a n) (BitVec.ofNat 64 ((s.x a).toNat / 2 ^ n.toNat)) ∧
    done (.srai d a n) (BitVec.ofInt 64 ((s.x a).toInt / 2 ^ n.toNat)) ∧
    done (.lui d i) (BitVec.ofInt 64 (i.toInt * 65536)) ∧
    done (.aupc d i) (BitVec.ofInt 64 (s.cur.pc.toInt + i.toInt * 65536))

/-- The hard-wired registers (R25): x0 reads zero, c0 true and m0 all ones; a write of one of them is discarded, a write of
another is read back and leaves the others alone. -/
def Obligations.HardwiredRegisters : Prop :=
  ∀ (h : Hart) (v : Word) (c : Bool) (m : BitVec 2048),
    h.getX 0 = 0 ∧ h.getC 0 = true ∧ h.getM 0 = BitVec.allOnes 2048 ∧ h.setX 0 v = h ∧ h.setC 0 c = h ∧ h.setM 0 m = h ∧
    (∀ r q : BitVec 5, r ≠ 0 → (h.setX r v).getX q = if q = r then v else h.getX q) ∧
    (∀ r q : BitVec 3, r ≠ 0 → (h.setC r c).getC q = if q = r then c else h.getC q) ∧
    ∀ r q : BitVec 3, r ≠ 0 → (h.setM r m).getM q = if q = r then m else h.getM q

/-- BC, JAL and JALR (R82-R84): a branch is taken when the condition bit differs from sense, and writes no register; `bnc` on c0
never branches; a jump links PC + 4 in xd. The target of JALR is formed from the old xa, even when xd is xa; a misaligned one
traps with cause 0x03, with the target in `tval` and xd unchanged. -/
def Obligations.ControlTransfers : Prop :=
  (∀ (s : State) (c : BitVec 3) (o : BitVec 22),
     let target : Word := BitVec.ofInt 64 (s.cur.pc.toInt + o.toInt * 4)
     Completes s (exec (.bc c o) s) (if s.c c then target else s.cur.pc + 4) s.cur ∧
     Completes s (exec (.bnc c o) s) (if s.c c then s.cur.pc + 4 else target) s.cur ∧
     Completes s (exec (.bnc 0 o) s) (s.cur.pc + 4) s.cur) ∧
  (∀ (s : State) (d : BitVec 5) (o : BitVec 21),
     Completes s (exec (.jal d o) s) (BitVec.ofInt 64 (s.cur.pc.toInt + o.toInt * 4)) (s.cur.setX d (s.cur.pc + 4))) ∧
  ∀ (s : State) (d a : BitVec 5) (i : BitVec 16),
    let t : Word := BitVec.ofInt 64 ((s.x a).toInt + i.toInt)
    (t.toNat % 4 = 0 → Completes s (exec (.jalr d a i) s) t (s.cur.setX d (s.cur.pc + 4))) ∧
    (t.toNat % 4 ≠ 0 → exec (.jalr d a i) s = .next (s.takeTrap { cause := 0x03, tval := t }) ∧
      (s.cur.handles → Vectors s (exec (.jalr d a i) s) 0x03 t 0))

/-- FOP and the floating comparisons (R75-R79): each completes in every state; xd takes the boxed result, `fflags` its flags,
and a comparison writes cd. `FloatOperations` and `RoundingValues` state the values of the operations named here. An f32 operand
is the low half of a register whose high half is all ones, else the default NaN, and a result is boxed so (R47). A class word
(R78) gives the kind of value, the sign, and whether a normal magnitude is the least or the greatest. -/
def Obligations.ScalarFloatResults : Prop :=
  (∀ (s : State) (r : BitVec 5), s.fx 1 r = (s.x r).toNat ∧
    s.fx 0 r = if (s.x r).toNat / 2 ^ 32 = 2 ^ 32 - 1 then (s.x r).toNat % 2 ^ 32 else 0x7FC00000) ∧
  (∀ v, v < 2 ^ 32 → (box 0 v).toNat = 0xFFFFFFFF00000000 + v) ∧ (∀ v, v < 2 ^ 64 → (box 1 v).toNat = v) ∧
  (∀ (p : BitVec 1) (x : Nat),
    let f := fmtOfP p
    let w := classWord f x
    let n := f.mag x
    x < 2 ^ f.width → w < 64 ∧ (w / 8 % 2 = 1 ↔ x.testBit (f.width - 1) = true) ∧
      (w % 8 = if f.isNanCode x then (if f.signals x then 5 else 4) else if n = f.infMag then 3 else if n = 0 then 0
        else if n < 2 ^ f.fbits then 1 else 2) ∧
      w / 16 = if n = 2 ^ f.fbits then 1 else if n = f.maxMag then 2 else 0) ∧
  ∀ (s : State) (d a b : BitVec 5) (c : BitVec 3) (p : BitVec 1) (r : BitVec 3) (k : BitVec 2),
    let f := fmtOfP p
    let x := s.fx p a
    let y := s.fx p b
    let flags := fun (h : Hart) (fl : BitVec 6) => { h with fflags := s.cur.fflags ||| fl }
    let done := fun (i : Instr) (v : FRes) =>
      Completes s (exec i s) (s.cur.pc + 4) (flags (s.cur.setX d (box p v.val)) v.fl)
    let int := fun (i : Instr) (v : Int × BitVec 6) =>
      Completes s (exec i s) (s.cur.pc + 4) (flags (s.cur.setX d (BitVec.ofInt 64 v.1)) v.2)
    let cond := fun (i : Instr) (v nv : Bool) =>
      Completes s (exec i s) (s.cur.pc + 4) (flags (s.cur.setC c v) (if nv then flNV else 0))
    let cmp := s.fcmp k a b
    done (.fadd d a b p) (f.add s.mode x y) ∧ done (.fsub d a b p) (f.sub s.mode x y) ∧
    done (.fmul d a b p) (f.mul s.mode x y) ∧ done (.fdiv d a b p) (f.div s.mode x y) ∧
    done (.fsqrt d a p) (f.sqrt s.mode x) ∧ done (.fmin d a b p) (f.minmax s.mode false x y) ∧
    done (.fmax d a b p) (f.minmax s.mode true x y) ∧
    done (.fma d a b p) (f.fmaVals s.mode false false (f.read s.mode x) (f.read s.mode y) (f.read s.mode (s.fx p d))) ∧
    done (.fcvtFi d a r p) (f.ofInt (s.cvtMode r) (s.x a).toInt) ∧
    done (.fcvtFu d a r p) (f.ofInt (s.cvtMode r) (s.x a).toNat) ∧
    done (.fcvtFx d a r p) ((fmtOfP (~~~p)).convert f (s.cvtMode r) (s.fx (~~~p) a)) ∧
    int (.fcvtTi d a r p) (toIntSat (s.cvtMode r).rm (-2 ^ 63) (2 ^ 63 - 1) (f.read s.mode x)) ∧
    int (.fcvtTu d a r p) (toIntSat (s.cvtMode r).rm 0 (2 ^ 64 - 1) (f.read s.mode x)) ∧
    int (.fclass d a p) (classWord f x, 0) ∧
    cond (.cmpFeq c a b k) cmp.eq cmp.snan ∧ cond (.cmpFlt c a b k) cmp.lt cmp.un ∧
    cond (.cmpFle c a b k) (cmp.lt || cmp.eq) cmp.un ∧ cond (.cmpFun c a b k) cmp.un cmp.snan

/-- The operations on floating values (R49, R50, R52, R53, R54, R76, R77, R79, R121): operands are read under DAZ; sums,
differences, products, quotients, square roots, fused sums and conversions of finite operands are one rounding of the exact value
(`RoundingValues` says what that is), a zero with the sign of R49; a NaN operand gives the NaN of R52; the operations on
infinities give infinities, zeros and, where they are invalid, the default NaN with NV; a division by zero gives ∞ with DZ;
minimum and maximum drop one NaN, order −0 below +0 and return an operand; a comparison orders values; a conversion to an integer
rounds by the mode, with NX unless it is exact, clamps with NV, and gives 0 with NV for NaN; one into a format without infinities
follows R53. -/
def Obligations.FloatOperations : Prop :=
  Fmt.arithmetic.map Fmt.defaultNan = [0x7FF8000000000000, 0x7FC00000, 0x7FC0, 0x7E00, 0x7E, 0x7F] ∧
  (∀ f ∈ Fmt.arithmetic, ∀ (md : Mode) (x y z : Nat), x < 2 ^ f.width → y < 2 ^ f.width → z < 2 ^ f.width →
    let x' := f.daz md x
    let y' := f.daz md y
    let z' := f.daz md z
    let v := f.value x'
    let w := f.value y'
    let neg := fun (n : Nat) => n.testBit (f.width - 1)
    let sign := neg x ^^ neg y
    let zero := fun (a b : Bool) => (⟨f.signBit (if a = b then a else md.rm == .rdn), 0⟩ : FRes)
    let invalid : FRes := ⟨f.defaultNan, flNV⟩
    let inf := fun (s : Bool) => f.signBit s + f.infMag
    let sums := fun (a b c : Nat) => f.fmaVals md false false (f.read md a) (f.read md b) (f.read md c)
    (x' = if md.daz = true ∧ f.special = .ieee ∧ f.mag x < 2 ^ f.fbits then f.signBit (neg x) else x) ∧
    (f.isFinite x' = true → f.isFinite y' = true →
      f.Rounds md (f.add md x y) (v + w) ∧ f.Rounds md (f.sub md x y) (v - w) ∧ f.Rounds md (f.mul md x y) (v * w) ∧
      (v + w = 0 → f.add md x y = zero (neg x) (neg y)) ∧ (v - w = 0 → f.sub md x y = zero (neg x) (!neg y)) ∧
      (v * w = 0 → f.mul md x y = ⟨f.signBit sign, 0⟩) ∧
      (f.special = .ieee →
        (w ≠ 0 → f.IsRounding md sign (fun q => q * |w| < |v|) (fun q => q * |w| ≤ |v|) (f.div md x y)) ∧
        (w = 0 → f.div md x y = if v = 0 then invalid else ⟨inf sign, flDZ⟩) ∧
        (0 ≤ v → f.IsRounding md (neg x) (fun q => q * q < v) (fun q => q * q ≤ v) (f.sqrt md x)) ∧
        (v < 0 → f.sqrt md x = invalid)) ∧
      (f.isFinite z' = true → f.Rounds md (sums x y z) (v * w + f.value z') ∧
        (v * w + f.value z' = 0 → sums x y z = zero sign (neg z))) ∧
      (f.cmp md x y).un = false ∧ ((f.cmp md x y).lt = true ↔ v < w) ∧ ((f.cmp md x y).eq = true ↔ v = w) ∧
      f.minmax md false x y = ⟨if v < w ∨ v = w ∧ neg x = true then x' else y', 0⟩ ∧
      f.minmax md true x y = ⟨if w < v ∨ v = w ∧ neg x = false then x' else y', 0⟩) ∧
    ((f.cmp md x y).snan = (f.signals x || f.signals y)) ∧
    (f.isNanCode x = true ∨ f.isNanCode y = true →
      (∀ op ∈ [Fmt.add, Fmt.sub, Fmt.mul, Fmt.div], op f md x y = f.nanFrom md [x, y]) ∧
      sums x y z = f.nanFrom md [x, y, z] ∧
      (f.cmp md x y).un = true ∧ (f.cmp md x y).lt = false ∧ (f.cmp md x y).eq = false) ∧
    (f.isFinite x' = true → f.isFinite y' = true → f.isNanCode z = true → sums x y z = f.nanFrom md [z]) ∧
    (f.isNanCode x = true → f.sqrt md x = f.nanFrom md [x] ∧ ∀ most,
      (f.isNanCode y = true → f.minmax md most x y = f.nanFrom md [x, y]) ∧
      (f.isNanCode y = false → f.minmax md most x y = ⟨y', if f.signals x then flNV else 0⟩ ∧
        f.minmax md most y x = ⟨y', if f.signals x then flNV else 0⟩)) ∧
    (f.special ≠ .e4m3 → ∀ s : Bool,
      (f.isNanCode y = false →
        ((f.cmp md (inf s) y).un = false ∧ ((f.cmp md (inf s) y).lt = true ↔ s = true ∧ y ≠ inf true) ∧
          ((f.cmp md (inf s) y).eq = true ↔ y = inf s) ∧ ((f.cmp md y (inf s)).lt = true ↔ s = false ∧ y ≠ inf false)) ∧
        ∀ most, f.minmax md most (inf s) y = ⟨if s = most then y' else inf s, 0⟩ ∧
          f.minmax md most y (inf s) = ⟨if s = most then y' else inf s, 0⟩) ∧
      (f.isFinite y' = true → w = 0 → f.mul md (inf s) y = invalid ∧ f.mul md y (inf s) = invalid ∧ sums (inf s) y z = invalid ∧
        sums y (inf s) z = invalid) ∧
      f.add md (inf s) (inf !s) = invalid ∧ f.sub md (inf s) (inf s) = invalid ∧
      (f.isFinite y' = true → w ≠ 0 → sums (inf s) y (inf !(s ^^ neg y)) = invalid ∧ sums y (inf s) (inf !(s ^^ neg y)) = invalid) ∧
      (f.special = .ieee → (∀ u, f.div md (inf s) (inf u) = invalid) ∧ f.sqrt md (inf true) = invalid ∧
        (f.isFinite y' = true → f.div md y (inf s) = ⟨f.signBit (s ^^ neg y), 0⟩)) ∧
      (md.sat = false →
        f.add md (inf s) (inf s) = ⟨inf s, 0⟩ ∧ f.sub md (inf s) (inf !s) = ⟨inf s, 0⟩ ∧
        (∀ u, f.mul md (inf s) (inf u) = ⟨inf (s ^^ u), 0⟩) ∧
        (f.isFinite y' = true →
          f.add md (inf s) y = ⟨inf s, 0⟩ ∧ f.add md y (inf s) = ⟨inf s, 0⟩ ∧ f.sub md (inf s) y = ⟨inf s, 0⟩ ∧
          f.sub md y (inf s) = ⟨inf !s, 0⟩ ∧
          (w ≠ 0 → f.mul md (inf s) y = ⟨inf (s ^^ neg y), 0⟩ ∧ f.mul md y (inf s) = ⟨inf (s ^^ neg y), 0⟩ ∧
            (f.isFinite z' = true → sums (inf s) y z = ⟨inf (s ^^ neg y), 0⟩ ∧ sums y (inf s) z = ⟨inf (s ^^ neg y), 0⟩)) ∧
          (f.isFinite x' = true → sums x y (inf s) = ⟨inf s, 0⟩) ∧
          (f.special = .ieee → f.div md (inf s) y = ⟨inf (s ^^ neg y), 0⟩)) ∧
        (f.special = .ieee → f.sqrt md (inf false) = ⟨inf false, 0⟩))) ∧
    (∀ n : Int, f.Rounds md (f.ofInt md n) n) ∧ f.ofInt md 0 = ⟨0, 0⟩ ∧
    (∀ (lo hi : Int), lo < hi →
      (f.isFinite x' = true → ∃ k : Int, md.rm.RoundsInt v k ∧ toIntSat md.rm lo hi (f.read md x) =
        (max lo (min hi k), if lo ≤ k ∧ k ≤ hi then (if v = k then 0 else flNX) else flNV)) ∧
      (f.special ≠ .e4m3 → ∀ s, toIntSat md.rm lo hi (f.read md (inf s)) = (if s then lo else hi, flNV)) ∧
      (f.isNanCode x = true → toIntSat md.rm lo hi (f.read md x) = (0, flNV))) ∧
    ∀ g ∈ Fmt.e2m1 :: Fmt.arithmetic,
      (f.isFinite x' = true → g.Rounds md (f.convert g md x) v ∧ (v = 0 → f.convert g md x = ⟨g.signBit (neg x), 0⟩)) ∧
      (f.special ≠ .e4m3 → ∀ s : Bool, f.convert g md (inf s) =
        let toMax := md.sat || md.rm == .rtz || md.rm == .rup && s || md.rm == .rdn && !s
        match g.special with
        | .ieee | .e5m2 => ⟨g.signBit s + if md.sat then g.maxMag else g.infMag, 0⟩
        | .e4m3 => if toMax then ⟨g.signBit s + 0x7E, 0⟩ else ⟨g.signBit (s && !md.dn) + 0x7F, 0⟩
        | .e2m1 => ⟨g.signBit s + 7, 0⟩) ∧
      (f.isNanCode x = true →
        (f.convert g md x).fl = (if f.signals x || g == .e2m1 then flNV else 0) ∧
        (md.dn = true ∨ g = .e2m1 → (f.convert g md x).val = g.defaultNan) ∧
        (md.dn = false → g = .e4m3 → (f.convert g md x).val = g.signBit (neg x) + 0x7F) ∧
        (md.dn = false → g = f → (f.convert g md x).val = f.quieted x) ∧
        (md.dn = false → f.special = .ieee → g.special = .ieee →
          (f.convert g md x).val = g.signBit (neg x) + (g.infMag + (2 ^ (g.fbits - 1) |||
            f.mag x % 2 ^ f.fbits * 2 ^ g.fbits / 2 ^ f.fbits))))) ∧
  ∀ g ∈ Fmt.e2m1 :: Fmt.arithmetic, ∀ (md : Mode) (n : Nat), n < 16 →
    g.Rounds md (Fmt.e2m1.convert g md n) (Fmt.e2m1.value n) ∧
    (Fmt.e2m1.value n = 0 → Fmt.e2m1.convert g md n = ⟨g.signBit (n.testBit 3), 0⟩)

/-- Rounding into a format (R49, R50, R53): the rounding of an exact number is its rounding by `Fmt.IsRounding`, which says what it
becomes between two neighbouring magnitudes in each mode, when NX and UF are raised, what FTZ makes of a tiny result, and to what it
overflows, with OF and NX. -/
def Obligations.RoundingValues : Prop :=
  ∀ f ∈ Fmt.e2m1 :: Fmt.arithmetic, ∀ (md : Mode) (s : Bool) (m : Nat) (e : Int),
    f.IsRounding md s (fun q => q < (m : Rat) * 2 ^ e) (fun q => q ≤ (m : Rat) * 2 ^ e) (f.round md s m e)

/-! Scalar memory -/

/-- LD (R209, R187, R194, R195): an aligned access whose address translates, of bytes without error, completes with the bytes in
xd, sign- or zero-extended. A read of an uncached page goes to the home (R306), which the core's own dirty bytes of the sector have
reached (R190, notes/assumptions/10.md); one of another page fills caches and changes no byte of memory. `.acq` acquires: the hart
keeps only the older values that nobody else can know replaced (notes/assumptions/10.md), a plain read is a fresh one at cluster
scope or wider, and no copy of remote memory is left at domain scope. `.sc`, here with nothing cached, draws a ticket and reads at
the home. -/
def Obligations.LoadResults : Prop :=
  ∀ (s s' : State) (p : Phys) (d a : BitVec 5) (w k : BitVec 3) (i : BitVec 8),
    let n : Nat := 2 ^ (w.toNat % 4)
    let va : Word := s.x a + BitVec.ofInt 64 (i.toInt * n)
    let core := s'.cur.core
    let u := if p.attr = .uncached then s'.writeBackDrop core p.pa else s'
    let mode := p.attr.mode .plain
    let value := fun (bs : List Byte) =>
      if w.toNat < 4 then BitVec.ofInt 64 (signed (8 * n) (leNat bs)) else BitVec.ofNat 64 (leNat bs)
    let filled := u.afterRead core p.attr (u.served1 core mode p.pa n) true p.pa
    let read := (filled.onCur (Hart.settle p.pa n)).setX d (value (u.readBytes core mode p.pa n))
    let sent := (s.onCur fun h => { h with unacked := [] }).onCur Hart.released
    va.toNat % n = 0 →
      (s.xlate (s.cur.agent s.cur.cw) .read va = (.ok p, s') →
        u.badByte core mode p.pa n = false → u.cur.undelivers p.pa n = false →
          CompletesAs (exec (.ld d a w i) s) (s.cur.pc + 4) read ∧
          (∀ t, exec (.ld d a w i) s = .next t → u.onlyFills t core) ∧
          (s'.Canonical → s'.Sound → ∀ c, u.readByte core .fresh c = s'.readByte core .fresh c) ∧
          ∃ t, exec (.ldAcq d a w k i) s = .next t ∧ t.cur.pc = s.cur.pc + 4 ∧ t.cur.wait = .awake ∧ read.acquires t core k.toNat ∧
            t.bare = { read with
              cur := { read.cur with early := read.cur.early.filter fun e => !e.seen }, l1 := t.l1, visitors := t.visitors }.bare) ∧
      (sent.xlate (s.cur.agent s.cur.cw) .read va = (.ok p, s') → s.Quiet → s'.Quiet → s.cur.Delivers → ∃ e,
        CompletesAs (exec (.ldSc d a w k i) s) (s.cur.pc + 4)
          { s' with
            seq := s'.seq + 1
            cur := { s'.cur.setX d (value (s'.homeRead p.pa n)) with early := e } })

/-- ST (R210, R194, R195, R335): an aligned access whose address translates completes with the low bytes of xs at that address,
and every other byte reads as before; `.rel` and `.sc`, here with nothing cached, release before, every remote write acknowledged;
`.sw` needs a valid window in `cw`. The hart keeps its registers. -/
def Obligations.StoreResults : Prop :=
  ∀ (s s' : State) (p : Phys) (v a : BitVec 5) (w k : BitVec 3) (i : BitVec 8),
    let n : Nat := 2 ^ (w.toNat % 4)
    let va : Word := s.x a + BitVec.ofInt 64 (i.toInt * n)
    let bs := leBytes n (s.x v).toNat
    let stored := fun (o : Result) => ∃ t, o = .next t ∧ t.cur.pc = s.cur.pc + 4 ∧
      Stores s' t s'.cur.core (p.attr.mode .fresh) p.pa bs ∧
      t.cur.bare = { s'.cur with links := t.cur.links, early := t.cur.early }.bare
    va.toNat % n = 0 → p.pa % n = 0 → s'.Canonical → s'.Sound →
    (isTile p.pa = true → p.attr.mode .fresh = .home) →
      (s.xlate (s.cur.agent s.cur.cw) .write va = (.ok p, s') →
        stored (exec (.st v a w i) s) ∧
        (s'.Quiet → s'.cur.lostWrites = [] → stored (exec (.stRel v a w k i) s) ∧ stored (exec (.stSc v a w k i) s))) ∧
      (s.xlate (s.cur.agent s.cur.cw) .window va = (.ok p, s') → s.cur.cw.getLsbD 4 = true →
        stored (exec (.stSw v a w i) s))

/-- Scalar accesses that trap in supervisor mode (R209, R210, R213, R214): a misaligned address with cause 0x03, a failing
translation with its cause, `tval` the address in both; the destination register keeps its value. `ld.sc`, which releases before
it translates, here with nothing cached. `st.sw` without a valid window in `cw` traps with cause 0x07. -/
def Obligations.ScalarAccessTraps : Prop :=
  ∀ (s s' : State) (d a b : BitVec 5) (w o k : BitVec 3) (x : BitVec 1) (i : BitVec 8) (c : BitVec 8),
    let n : Nat := 2 ^ (w.toNat % 4)
    let va : Word := s.x a + BitVec.ofInt 64 (i.toInt * n)
    let m := 4 * (x.toNat + 1)
    let sent := (s.onCur fun h => { h with unacked := [] }).onCur Hart.released
    let loads := [Instr.ld d a w i, .ldAcq d a w k i]
    let stores := [Instr.st d a w i, .stRel d a w k i, .stSc d a w k i]
    let atomics := [Instr.amoadd d a b o k x, .amoand d a b o k x, .amoor d a b o k x, .amoxor d a b o k x,
      .amomin d a b o k x, .amomax d a b o k x, .amominu d a b o k x, .amomaxu d a b o k x, .amoswap d a b o k x,
      .cas d a b o k x]
    s.cur.handles →
      (va.toNat % n ≠ 0 → ∀ j ∈ loads ++ stores ++ [.ldSc d a w k i, .stSw d a w i], Vectors s (exec j s) 0x03 va 0) ∧
      ((s.x a).toNat % m ≠ 0 → ∀ j ∈ atomics, Vectors s (exec j s) 0x03 (s.x a) 0) ∧
      (va.toNat % n = 0 → s.cur.cw.getLsbD 4 = false → Vectors s (exec (.stSw d a w i) s) 0x07 va 0) ∧
      (c ≠ 0x0D →
        (va.toNat % n = 0 →
          (s.xlate (s.cur.agent s.cur.cw) .read va = (.error c, s') → s'.cur = s.cur →
            ∀ j ∈ loads, Vectors s' (exec j s) c va 0) ∧
          (sent.xlate (s.cur.agent s.cur.cw) .read va = (.error c, s') → s'.cur = sent.cur → s.Quiet → s.cur.lostWrites = [] →
            Vectors s' (exec (.ldSc d a w k i) s) c va 0) ∧
          (s.xlate (s.cur.agent s.cur.cw) .write va = (.error c, s') → s'.cur = s.cur →
            ∀ j ∈ stores, Vectors s' (exec j s) c va 0) ∧
          (s.xlate (s.cur.agent s.cur.cw) .window va = (.error c, s') → s'.cur = s.cur → s.cur.cw.getLsbD 4 = true →
            Vectors s' (exec (.stSw d a w i) s) c va 0)) ∧
        ((s.x a).toNat % m = 0 → s.xlate (s.cur.agent s.cur.cw) .atomic (s.x a) = (.error c, s') → s'.cur = s.cur →
          ∀ j ∈ atomics, Vectors s' (exec j s) c (s.x a) 0))

/-- AMO and CAS (R212-R214), with nothing cached and every remote access in time: an aligned address that translates completes
under every order. xd takes the old value, sign-extended; the operation's result stands at the address, for `cas` only when the
old value is the expected one; every other byte and register is as before. -/
def Obligations.AtomicResults : Prop :=
  ∀ (s s' : State) (p : Phys) (d a b : BitVec 5) (o k : BitVec 3) (x : BitVec 1),
    let n := 4 * (x.toNat + 1)
    let old := leNat (s'.homeRead p.pa n)
    let y := (s.x b).toNat % 2 ^ (8 * n)
    let signedOf := fun v => signed (8 * n) v
    let result := fun (i : Instr) (new : Option Nat) => ∃ t, exec i s = .next t ∧ t.cur.pc = s.cur.pc + 4 ∧
      (∀ j, j < n → t.homeByte (p.pa + j) = match new with
        | some v => (leBytes n v).getD j 0
        | none => s'.homeByte (p.pa + j)) ∧
      (∀ c, c < p.pa ∨ p.pa + n ≤ c → t.homeByte c = s'.homeByte c) ∧
      t.cur.bare = { s'.cur.setX d (BitVec.ofInt 64 (signedOf old)) with links := t.cur.links, early := t.cur.early }.bare ∧
      t.seq = s'.seq + (if o = 4 then 1 else 0)
    (s.x a).toNat % n = 0 → s.xlate (s.cur.agent s.cur.cw) .atomic (s.x a) = (.ok p, s') → p.pa % n = 0 →
    s'.Quiet → s'.cur.Delivers → Memory.wf s' = true → s'.TilesUncached →
      result (.amoadd d a b o k x) (some ((old + y) % 2 ^ (8 * n))) ∧ result (.amoand d a b o k x) (some (old &&& y)) ∧
      result (.amoor d a b o k x) (some (old ||| y)) ∧ result (.amoxor d a b o k x) (some (old ^^^ y)) ∧
      result (.amomin d a b o k x) (some (if signedOf old ≤ signedOf y then old else y)) ∧
      result (.amomax d a b o k x) (some (if signedOf old ≤ signedOf y then y else old)) ∧
      result (.amominu d a b o k x) (some (min old y)) ∧ result (.amomaxu d a b o k x) (some (max old y)) ∧
      result (.amoswap d a b o k x) (some y) ∧
      result (.cas d a b o k x) (if old = (s.x d).toNat % 2 ^ (8 * n) then some y else none)

/-- The fences and CACHE (R179-R184, R195, R196). Where the L1 holds no dirty byte in error and every remote write is acknowledged,
`fence.rel` brings the core's dirty bytes home where its scope is wider than the harts that share the L1; `fence.acq` makes plain
reads fresh ones at cluster scope or wider, leaves no copy of remote memory at domain scope, and keeps for vector reads only the
older values that nobody else can know replaced (notes/assumptions/10.md); `fence.ar` does both and, as `fence.sv` alone does once
every scalar remote write is acknowledged, removes the early vector reads of R191. `pref` fills caches and changes no byte. On a
range whose pages translate, `flush` sends the core's dirty bytes home and leaves every byte as it reads, `inv` also gives up the
core's copies, and `discard` gives up the dirty bytes of the sectors wholly inside. `xinv` is for supervisor mode: the translation
caches that its scope covers (notes/assumptions/20.md) forget the page. -/
def Obligations.FencesAndCaches : Prop :=
  (∀ (s : State) (k : BitVec 3),
     let core := s.cur.core
     let sendable := s.unsendable (s.cacheOf core) = [] ∧ s.cur.lostWrites = []
     let done := fun (i : Instr) (early : List EarlyStore) (effect : State → Prop) =>
       ∃ u, exec i s = .next u ∧ u.cur.pc = s.cur.pc + 4 ∧ u.cur.wait = .awake ∧ effect u ∧
         s.homesWritten u { s with cur := { s.cur with early := early } }
     (sendable → done (.fenceRel k) s.cur.early fun u => s.releasesTo u core k.toNat) ∧
     done (.fenceAcq k) (s.cur.early.filter fun e => !e.seen) (fun u => s.acquires u core k.toNat) ∧
     (sendable → done (.fenceAr k) [] fun u => s.releasesTo u core k.toNat ∧
       (s.Canonical → (if s.isFused core then 3 else 2) ≤ k.toNat → ∀ c, s.isRemote c = false ∨ k = 5 →
         u.readByte core .plain c = s.readByte core .fresh c) ∧ (k = 5 → u.visitors = [])) ∧
     ((∀ w ∈ s.cur.lostWrites, w.2 = false) → Completes s (exec .fenceSv s) (s.cur.pc + 4) { s.cur with early := [] })) ∧
  ∀ (s : State) (P : Nat → Phys) (a b : BitVec 5) (k : BitVec 3),
    let va := (s.x a).toNat
    let len := (s.x b).toNat
    let core := s.cur.core
    let pages := (pageStarts va len).map fun v => (v / 65536 * 65536, { P v with pa := (P v).pa - v % 65536 })
    let served := fun (kind : Kind) => len ≤ 0x1000000 ∧ ∀ v ∈ pageStarts va len,
      inWindow (BitVec.ofNat 64 v) = false ∧ s.Serves kind (BitVec.ofNat 64 v) (P v) ∧ (P v).pa % 65536 = v % 65536
    let done := fun (u : State) => u.cur.pc = s.cur.pc + 4 ∧ u.cur.wait = .awake ∧
      u.cur.bare = { s.cur with links := u.cur.links, early := u.cur.early }.bare ∧ u.launches = s.launches ∧ u.cmds = s.cmds
    (∃ u, exec (.pref a k) s = .next u ∧ u.cur.pc = s.cur.pc + 4 ∧ u.cur.wait = .awake ∧
      (s.poison = [] → StoreFrame s u s.cur) ∧ s.onlyFills u core ∧
      (s.Roomy → u.bare = { s with l1 := u.l1, visitors := u.visitors }.bare)) ∧
    (len = 0 → Completes s (exec (.flush a b k) s) (s.cur.pc + 4) s.cur ∧
      Completes s (exec (.discard a b k) s) (s.cur.pc + 4) s.cur ∧ Completes s (exec (.inv a b) s) (s.cur.pc + 4) s.cur) ∧
    (len ≠ 0 → s.Sound → s.Canonical →
      (served .read →
        (∃ u, exec (.flush a b k) s = .next u ∧ done u ∧
          (∀ c, u.readByte core .fresh c = s.readByte core .fresh c) ∧
          ∀ x ∈ rangeSectors va len false pages, ∀ i, i < 64 → u.homeByte (x.2 + i) = s.readByte core .fresh (x.2 + i)) ∧
        ∃ u, exec (.inv a b) s = .next u ∧ done u ∧
          (∀ c, u.readByte core .fresh c = s.readByte core .fresh c) ∧
          ∀ x ∈ rangeSectors va len false pages, u.l1Find (u.cacheOf core) x.2 = none) ∧
      (served .write →
        ∃ u, exec (.discard a b k) s = .next u ∧ done u ∧
          (∀ c, (∀ x ∈ rangeSectors va len true pages, c < x.2 ∨ x.2 + 64 ≤ c) →
            u.readByte core .fresh c = s.readByte core .fresh c) ∧
          ∀ x ∈ rangeSectors va len true pages, ∀ i, i < 64 → u.readByte core .fresh (x.2 + i) = u.homeByte (x.2 + i) ∧
            u.homeByte (x.2 + i) = if s.reachesHome k x.2 then (cellGet s.hbm (x.2 + i)).getD 0 else s.homeByte (x.2 + i))) ∧
    (s.cur.status.sup = true → ∃ u, exec (.xinv a k) s = .next u ∧ u.cur.pc = s.cur.pc + 4 ∧ u.cur.wait = .awake ∧
      u.cur.x = s.cur.x ∧ u.cur.v = s.cur.v ∧ u.cur.early = [] ∧
      (∀ e ∈ u.tlb, e ∈ s.tlb) ∧
      ∀ e ∈ s.tlb, e ∈ u.tlb ↔ ¬(e.home.covered (coveredCores core k) = true ∧ e.serves (va % 2 ^ 55) = true)) ∧
    (s.cur.status.sup = false → exec (.xinv a k) s = .next (s.takeTrap { cause := 0x11 }))

/-! Control registers and exceptions -/

/-- CR (R157-R159): where the privilege may read the register, `crr` completes with its value; for `shore` that is a value at most
2 from the package's count and not below one that a read has returned (R350, R352, log entry 36). Where it may write it and the
new value is permitted, `crw`, `crs` and `crc` complete with the register at xs, with bits set, and with bits cleared. A
register of the partition reads as it acts in this cycle, and a write, of any hart, starts from what was last written, be it in
this very cycle (R164; that reading is the model's, notes/assumptions/22.md). What a
write leaves in the hart's own registers (R48, R55, R59, R104, R157, R158, R162, R163): a read after it gives the written bits of
the register's fields, reserved bits read zero, `lstat` keeps its upper half and `status` its matrix bit, and `tvec` has its two
low bits zero. -/
def Obligations.ControlRegisterAccess : Prop :=
  (∀ (s : State) (d a : BitVec 5) (n : BitVec 12) (r : CtlReg), CtlReg.ofNumber n = some r →
     (r.access s.cur.status.sup ≠ .refused → r ≠ .shore →
       Completes s (exec (.crr d n) s) (s.cur.pc + 4) (s.cur.setX d (s.ctlRead r))) ∧
     (r = .shore → ∃ u, exec (.crr d n) s = .next u ∧ u.cur.pc = s.cur.pc + 4 ∧ u.cur.wait = .awake ∧
       u.bare = { s with
         cur := s.cur.setX d u.shoreSeen, shoreSeen := u.shoreSeen, choices := u.choices, draws := u.draws }.bare ∧
       s.sameMemory u ∧
       (let far := (u.shoreSeen - s.shore).toInt
        let seen := (s.shoreSeen - s.shore).toInt
        far ≤ 2 ∧ -2 ≤ far ∧ (-2 ≤ seen → seen ≤ 2 → seen ≤ far))) ∧
     (r.access s.cur.status.sup = .readWrite →
       let write := fun (i : Instr) (v : Word) =>
         r.forbids v = false → CompletesAs (exec i s) (s.cur.pc + 4) (s.ctlWrite r v)
       write (.crw a n) (s.x a) ∧ write (.crs a n) (s.ctlLatest r ||| s.x a) ∧ write (.crc a n) (s.ctlLatest r &&& ~~~s.x a))) ∧
  (∀ (s : State) (v : Word) (p : Partition) (r : CtlReg),
    (r ∉ [CtlReg.tidectl, .bxstag, .agetime, .revoke] → s.ctlLatest r = s.ctlRead r) ∧
    (s.part? s.cur.part = some p → (p.acting = p.toPartRegs → s.ctlLatest r = s.ctlRead r) ∧
      ∀ e ∈ [(CtlReg.tidectl, (0x73 : Word)), (.bxstag, 0x3FF003F), (.agetime, 0xFFFFFFFF), (.revoke, 0xFFFFFF)],
        let t := s.ctlWrite e.1 v
        t.ctlRead r = s.ctlRead r ∧ t.ctlLatest e.1 = v &&& e.2 ∧ t.cur = s.cur ∧ t.wrote = s.cur.uid :: s.wrote)) ∧
  ∀ (s : State) (v : Word),
    let after := fun (r : CtlReg) => (s.ctlWrite r v).ctlRead r
    after .fmode = v &&& 0x3F ∧ after .fflags = v &&& 0x3F ∧ after .rkey = v ∧ after .lslip = v &&& 0xF ∧
    after .lskew = v &&& 7 ∧ after .vbyp = v &&& 0xFFFFFF ∧ after .rad = v &&& 0x7F ∧ after .cw = v &&& 0x1F ∧
    after .lstat = (s.ctlRead .lstat &&& 0xFFFFFFFF00000000) ||| (v &&& 0xFFFFFFFF) ∧
    after .status = (s.ctlRead .status &&& 4) ||| (v &&& 0x33) ∧ after .epc = v ∧ after .tcause = v &&& 0xFF ∧
    after .tval = v ∧ after .tidx = v &&& 0xFFF ∧ after .tvec = v &&& ~~~3

/-- CR accesses and privileged instructions that trap (R30, R157, R158, R386, R387). In supervisor mode with a handler an unlisted
number traps with cause 0x01 and the word, a write of a register that is R only and a forbidden value with cause 0x01. In user
mode the trap registers, `tvec` and `partmv` can be neither read nor written, `status` and the partition's registers not written,
and `tret` and `wfi` not executed: the hart parks with the cause, or waits to park; its x registers keep (where the release and
the context save meet no error). -/
def Obligations.ControlRegisterTraps : Prop :=
  (∀ (s : State) (d a : BitVec 5) (n : BitVec 12), s.cur.handles →
     (CtlReg.ofNumber n = none → ∀ w, encode (.crr d n) = some w → Vectors s (exec (.crr d n) s) 0x01 (w.setWidth 64) 0) ∧
     (CtlReg.ofNumber n = none → ∀ w, encode (.crw a n) = some w → Vectors s (exec (.crw a n) s) 0x01 (w.setWidth 64) 0) ∧
     ∀ r, CtlReg.ofNumber n = some r →
       (r.access true = .readOnly →
         Vectors s (exec (.crw a n) s) 0x01 0 0 ∧ Vectors s (exec (.crs a n) s) 0x01 0 0 ∧
         Vectors s (exec (.crc a n) s) 0x01 0 0) ∧
       (r.access true = .readWrite → r.forbids (s.x a) = true → Vectors s (exec (.crw a n) s) 0x01 0 0)) ∧
  ∀ (s : State) (d a : BitVec 5) (n : BitVec 12) (r : CtlReg), s.cur.status.sup = false → s.leavingError = none →
    CtlReg.ofNumber n = some r →
    let parked := fun (i : Instr) (c : BitVec 8) => ∃ t, exec i s = .next t ∧ t.cur.tcause = c ∧ t.cur.epc = s.cur.pc ∧
      t.cur.x = s.cur.x ∧ t.cur.status = s.cur.status ∧ ((∃ b, t.cur.place = .parked b) ∨ ∃ x y, t.cur.wait = .leaving x y)
    (r ∈ [CtlReg.epc, .tcause, .tval, .tidx, .tvec, .partmv] → parked (.crr d n) 0x11 ∧ parked (.crw a n) 0x11) ∧
    (r ∈ [CtlReg.status, .tidectl, .bxstag, .agetime, .revoke] → parked (.crw a n) 0x01 ∧ parked (.crs a n) 0x01) ∧
    parked .tret 0x11 ∧ parked .wfi 0x11

/-- Taking an exception in supervisor mode with a handler (R381, R388): `trap` and `halt` aside, every trap whose cause is not
0x0D and that does not always park vectors: the trap registers, `status`, the PC at `tvec`, the broken links, and the
progress of an interrupted vector instruction into the held copy when that is empty. -/
def Obligations.TrapEntryVectors : Prop :=
  ∀ (s : State) (t : Trap), s.cur.handles → t.cause ≠ 0x0D → t.parks = false →
    Vectors s (.next (s.takeTrap t)) t.cause t.tval t.tidx ∧
    (s.takeTrap t).cur.heldProgress =
      (if s.cur.heldProgress.addr = none then s.cur.progress else s.cur.heldProgress) ∧
    (s.takeTrap t).cur.progress = (if s.cur.heldProgress.addr = none then {} else s.cur.progress) ∧
    (s.takeTrap t).rest = s.rest ∧ (s.takeTrap t).launches = s.launches ∧ (s.takeTrap t).parts = s.parts

/-- Parking (R381, R390, R392, R389): in user mode, without a handler, on a machine check or on `halt`, a hart without commands of
its own leaves its core: the trap registers are written, `status` and the x registers keep, no lane stays held, and its fault
record, with the cause, waits to be posted in its partition. Where the release or the context save meets an error, the trap
registers and the record give that error, of cause 0x0D, and `epc` is the address to resume at (notes/assumptions/18.md). -/
def Obligations.TrapEntryParks : Prop :=
  ∀ (s : State) (t : Trap) (p : Partition),
    (s.cur.status.sup = false ∨ s.cur.tvec = 0 ∨ t.cause = 0x0D ∨ t.parks = true) →
    s.pendingCmds s.cur.uid = false → s.part? s.cur.part = some p →
    let u := s.takeTrap t
    let resume := if t.after then s.cur.pc + 4 else s.cur.pc
    (∃ b, u.cur.place = .parked b) ∧ u.cur.status = s.cur.status ∧ u.cur.x = s.cur.x ∧ u.cur.held = 0 ∧ u.cur.pc = resume ∧
    (match s.leavingError with
     | none => u.cur.epc = s.cur.pc ∧ u.cur.tcause = t.cause ∧ u.cur.tval = t.tval ∧ u.cur.tidx = t.tidx
     | some a => u.cur.epc = resume ∧ u.cur.tcause = 0x0D ∧ u.cur.tval = a ∧ u.cur.tidx = 0) ∧
    ∃ q r, u.part? s.cur.part = some q ∧ q.posting = p.posting ++ [r] ∧ r.handle = s.cur.handle ∧ r.epc = u.cur.epc ∧
      r.cause = u.cur.tcause ∧ r.tval = u.cur.tval ∧ r.tidx = u.cur.tidx ∧ r.hid = s.cur.hid ∧ r.stamp = s.shore

/-- `trap` and `halt` (R385), words that are not instructions (R29, R30), fetches that fail (R22) and `tret` (R386, R388): each
trap has the cause and `tval` that its rule names; `halt` parks whatever the mode. `tret` with an aligned `epc` continues there
with `ie` and `sup` from `pie` and `pprv`, which keep; only `status` and the progress copies change; a misaligned `epc` traps
with cause 0x03. -/
def Obligations.SystemTraps : Prop :=
  (∀ (s : State) (i : BitVec 12) (w : BitVec 32) (c : BitVec 8) (a : Word),
     exec (.trap i) s = .next (s.takeTrap { cause := 0x10, tval := i.setWidth 64, after := true }) ∧
     (s.cur.handles → Vectors s (exec (.trap i) s) 0x10 (i.setWidth 64) 0) ∧
     exec .halt s = .next (s.takeTrap { cause := 0x10, tval := BitVec.allOnes 64, after := true, parks := true }) ∧
     (s.pendingCmds s.cur.uid = false → s.leavingError = none → ∃ t, exec .halt s = .next t ∧ (∃ b, t.cur.place = .parked b) ∧
       t.cur.tval = BitVec.allOnes 64) ∧
     (s.cur.handles → Vectors s (exec (.notAnInstruction w) s) 0x01 (w.setWidth 64) 0) ∧
     (s.cur.handles → c ≠ 0x0D → Vectors s (exec (.fetchFault c a) s) c a 0)) ∧
  ∀ s : State, s.cur.status.sup = true →
    (s.cur.epc.toNat % 4 = 0 → ∃ p q,
      Completes s (exec .tret s) s.cur.epc
        { s.cur with
          status := { s.cur.status with ie := s.cur.status.pie, sup := s.cur.status.pprv }
          progress := p, heldProgress := q } ∧
      (s.cur.progress.addr = none → s.cur.heldProgress.addr = some s.cur.epc → p = s.cur.heldProgress ∧ q = {}) ∧
      (s.cur.progress.addr = some s.cur.epc → p = s.cur.progress)) ∧
    (s.cur.epc.toNat % 4 ≠ 0 → s.cur.tvec ≠ 0 → Vectors s (exec .tret s) 0x03 s.cur.epc 0)

/-- `wfi`, the fault queue and its interrupt (R383, R387, R391, R392). With the bit pending `wfi` returns and leaves the bit;
without it the hart sleeps, and its wake returns once the bit is pending. A posting with room writes the oldest record at base +
64 × (tail mod cap), adds 1 to tail, and sets the bit of the harts in supervisor mode with a handler; without room nothing
changes. A hart with its bit pending and interrupts enabled enters its handler at an instruction boundary with cause 0x80, its
next instruction in `epc` and the tail in `tval`, and the bit cleared, whatever its mode (the model's reading of R383,
notes/assumptions/16.md). -/
def Obligations.Interrupts : Prop :=
  (∀ s : State, s.cur.place ≠ .absent →
     (s.cur.status.sup = true → s.cur.irq = true → Completes s (exec .wfi s) (s.cur.pc + 4) s.cur) ∧
     (s.cur.status.sup = true → s.cur.irq = false → Sleeps s (exec .wfi s) .wfi) ∧
     (s.cur.wait = .wfi → s.cur.irq = true → Completes s (exec (.wfiWake s.cur.uid) s) (s.cur.pc + 4) s.cur) ∧
     (s.cur.wait = .wfi → s.cur.irq = false → exec (.wfiWake s.cur.uid) s = .next s)) ∧
  (∀ (s : State) (p : Partition) (r : FaultRecord) (rest : List FaultRecord),
    s.part? p.id = some p → p.posting = r :: rest → Memory.wf s = true →
    let tail := s.queueField p 0x18 8
    let cap := s.queueField p 0x08 4
    let slot := s.queueField p 0 8 + 64 * (tail % cap)
    let room := wrap 64 ((tail : Int) - s.queueField p 0x10 8) < cap
    (room → touchesTile slot 64 = false → touchesTile (p.faultQueue + 0x18) 8 = false →
      Apart [(slot, 64), (p.faultQueue + 0x18, 8)] →
        ∃ t, exec (.faultPosting p.id) s = .next t ∧
          Wrote s t [(slot, r.bytes), (p.faultQueue + 0x18, leBytes 8 (tail + 1))] ∧ r.bytes.length = 64 ∧
          t.parts = s.parts.map (fun q => if q.id == p.id then { q with posting := rest } else q) ∧
          t.cur = { s.cur with links := t.cur.links, early := t.cur.early, irq := s.cur.irq || s.cur.heedsPosting p.id } ∧
          t.rest.map (·.irq) = s.rest.map fun h => h.irq || h.heedsPosting p.id) ∧
    (¬ room → exec (.faultPosting p.id) s = .next s)) ∧
  ∀ (s : State) (p : Partition), s.cur.isResident = true → s.cur.wait = .awake → s.cur.midway = false → s.cur.irq = true →
    s.cur.status.ie = true → s.part? s.cur.part = some p →
      Vectors s (exec (.faultPostedInterrupt s.cur.uid) s) 0x80 (BitVec.ofNat 64 (s.queueField p 0x18 8)) 0 ∧
      ∀ t, exec (.faultPostedInterrupt s.cur.uid) s = .next t → t.cur.irq = false

/-! Vector registers -/

/-- VARITH (R110, R113, R71, R54): with lanes held and outside matrix mode, each instruction completes on every tag and form it
accepts and within the capacity of R90; every active element is the operation of the elements, the rest of vd follows R89. On
integer elements of `w` bits these are sums, differences and products modulo 2^w, the upper half of the product, minimum and
maximum, division truncated toward zero, which for a zero divisor and for the least value over −1 gives what R71 gives, and
saturation with SX when it clamps; on floating elements they are the operations of the format, whose values `FloatOperations`
states. `vabs` and `vneg` work modulo 2^w on integers and on the sign bit alone in a format. The b operand is a register's elements,
or a scalar or an immediate converted to the tag (R109). -/
def Obligations.VectorArithmetic : Prop :=
  (∀ (s : State) (f : BitVec 2) (d a b : BitVec 5) (m : BitVec 3), s.VectorReady →
     let t := (s.cur.getV a).tag
     let md := Mode.ofFmode s.fmodeHere
     s.cur.Fits [t] →
       ((f = 0 → (s.cur.getV b).tag = t) →
         ∀ e ∈ [(Instr.vadd f d a b m, VOp.add), (.vsub f d a b m, .sub), (.vrsub f d a b m, .rsub), (.vmul f d a b m, .mul),
             (.vmulh f d a b m, .mulh), (.vdiv f d a b m, .div), (.vrem f d a b m, .rem), (.vmin f d a b m, .min),
             (.vmax f d a b m, .max), (.vsadd f d a b m, .sadd), (.vssub f d a b m, .ssub)],
           e.2.accepts t = true →
             ElementWise s (exec e.1 s) f d a b m false t fun x y _ => e.2.apply t md x y) ∧
       (t.isNumber = true →
         ElementWise s (exec (.vabs d a m) s) 0 d a a m false t (fun x _ _ => ⟨absElem t x, 0⟩) ∧
         ElementWise s (exec (.vneg d a m) s) 0 d a a m false t (fun x _ _ => ⟨negElem t x, 0⟩))) ∧
  (∀ (t : Tag) (md : Mode) (x y : Nat), t.isInt = true → x < 2 ^ t.width → y < 2 ^ t.width →
     let w := t.width
     let a := t.int x
     let b := t.int y
     VOp.add.apply t md x y = ⟨(x + y) % 2 ^ w, 0⟩ ∧ VOp.sub.apply t md x y = ⟨(x + (2 ^ w - y)) % 2 ^ w, 0⟩ ∧
     VOp.rsub.apply t md x y = ⟨(y + (2 ^ w - x)) % 2 ^ w, 0⟩ ∧ VOp.mul.apply t md x y = ⟨x * y % 2 ^ w, 0⟩ ∧
     t.int (VOp.min.apply t md x y).val = min a b ∧ t.int (VOp.max.apply t md x y).val = max a b ∧
     t.int (VOp.mulh.apply t md x y).val = a * b / (2 ^ w : Nat) ∧
     (b ≠ 0 → ¬(t.isSigned = true ∧ a = t.least ∧ b = -1) → t.int (VOp.div.apply t md x y).val = a.tdiv b) ∧
     (b ≠ 0 → ¬(t.isSigned = true ∧ a = t.least ∧ b = -1) → t.int (VOp.rem.apply t md x y).val = a.tmod b) ∧
     (b = 0 → (VOp.rem.apply t md x y).val = x ∧
       t.int (VOp.div.apply t md x y).val = if 0 < a then t.greatest else if a < 0 then t.least else 0) ∧
     (t.isSigned = true → a = t.least → b = -1 →
       t.int (VOp.div.apply t md x y).val = t.greatest ∧ t.int (VOp.rem.apply t md x y).val = -1) ∧
     (VOp.div.apply t md x y).fl = 0 ∧ (VOp.rem.apply t md x y).fl = 0 ∧ absElem t x < 2 ^ w ∧
     t.int (absElem t x) = (if t.isSigned = true ∧ a = t.least then a else |a|) ∧ negElem t x = (2 ^ w - x) % 2 ^ w ∧
     t.int (VOp.sadd.apply t md x y).val = max t.least (min t.greatest (a + b)) ∧
     ((VOp.sadd.apply t md x y).fl = flSX ↔ (a + b < t.least ∨ t.greatest < a + b)) ∧
     t.int (VOp.ssub.apply t md x y).val = max t.least (min t.greatest (a - b))) ∧
  (∀ (h : Hart) (cap : Captured) (b : BitVec 5) (t : Tag) (logic : Bool) (i : Nat),
    let bo := fun form => h.bOperand cap form b t logic
    let k := b.toInt
    let w := t.width
    let e := (bo 2).elem i
    ((bo 0).elem i = (h.getV b).elem i ∧ (bo 0).fl = 0 ∧ (bo 2).fl = 0) ∧
    (logic = true → (bo 1).elem i = cap.scalar.toNat % 2 ^ w ∧ (bo 1).fl = 0) ∧
    (logic = false → t.Takes (Mode.ofFmode cap.fmode) cap.scalar.toNat ⟨(bo 1).elem i, (bo 1).fl⟩) ∧
    (t.isInt = true ∨ logic = true → e < 2 ^ w ∧ ((e : Int) - k) % (2 ^ w : Nat) = 0) ∧
    ∀ f ∈ Fmt.arithmetic, t.fmt = some f → logic = false → (k = 0 → e = 0) ∧ f.isFinite e = true ∧
      f.value e = if f = .e5m2 ∧ |k| ∈ [9, 11, 13, 15] then (if k < 0 then -1 else 1) * (if |k| = 9 then 8 else if |k| = 15 then 16 else 12)
        else k) ∧
  ∀ (t : Tag) (f : Fmt) (md : Mode) (x y : Nat), t.fmt = some f →
    (x < 2 ^ t.width → absElem t x = f.mag x ∧ negElem t x = f.signBit (!x.testBit (f.width - 1)) + f.mag x) ∧
    VOp.add.apply t md x y = f.add md x y ∧ VOp.sub.apply t md x y = f.sub md x y ∧ VOp.mul.apply t md x y = f.mul md x y ∧
    (∀ g ∈ Fmt.arithmetic, f = g → x < 2 ^ t.width → y < 2 ^ t.width → md.sat = false → f.isFinite (f.daz md x) = true →
      f.isFinite (f.daz md y) = true → f.Rounds md (VOp.rsub.apply t md x y) (f.value (f.daz md y) - f.value (f.daz md x))) ∧
    VOp.min.apply t md x y = f.minmax md false x y ∧ VOp.max.apply t md x y = f.minmax md true x y

/-- VLOGIC, shifts and counts (R115): they complete under the same conditions; a shift takes the low log2(w) bits of b, and `vsra`
brings in bit w − 1 under every tag. -/
def Obligations.VectorLogic : Prop :=
  ∀ (s : State) (f : BitVec 2) (d a b : BitVec 5) (m : BitVec 3), s.VectorReady →
    let t := (s.cur.getV a).tag
    let w := t.width
    t ≠ .dead → s.cur.Fits [t] → (f = 0 → (s.cur.getV b).tag = t) →
      ElementWise s (exec (.vand f d a b m) s) f d a b m true t (fun x y _ => ⟨x &&& y, 0⟩) ∧
      ElementWise s (exec (.vor f d a b m) s) f d a b m true t (fun x y _ => ⟨x ||| y, 0⟩) ∧
      ElementWise s (exec (.vxor f d a b m) s) f d a b m true t (fun x y _ => ⟨x ^^^ y, 0⟩) ∧
      ElementWise s (exec (.vnot d a m) s) 0 d a a m false t (fun x _ _ => ⟨2 ^ w - 1 - x, 0⟩) ∧
      (t.isInt = true →
        ElementWise s (exec (.vsll f d a b m) s) f d a b m true t (fun x y _ => ⟨x * 2 ^ (y % w) % 2 ^ w, 0⟩) ∧
        ElementWise s (exec (.vsrl f d a b m) s) f d a b m true t (fun x y _ => ⟨x / 2 ^ (y % w), 0⟩) ∧
        ElementWise s (exec (.vsra f d a b m) s) f d a b m true t
          (fun x y _ => ⟨wrap w (signed w x / (2 ^ (y % w) : Nat)), 0⟩) ∧
        ElementWise s (exec (.vpopc d a m) s) 0 d a a m false t
          (fun x _ _ => ⟨((List.range w).filter x.testBit).length, 0⟩) ∧
        ElementWise s (exec (.vclz d a m) s) 0 d a a m false t (fun x _ _ => ⟨w - (if x = 0 then 0 else Nat.log2 x + 1), 0⟩))

/-- VFMA, `vwmul`, the function instructions and VCVT (R111, R114, R116, R117, R120-R122): they complete where the tags are those
of their rules; the addend of a VFMA is the old vd, whose tag is va's or its widened one. Every live source converts to every live
tag, under the rounding code or `fmode.rm`; the stochastic forms take their random bits from a register of n32 and convert to
floating tags. `vfma`, `vfms`, `vfnma` and `vfnms` give a × b + c, a × b − c, −(a × b) − c and −(a × b) + c, rounded once to the
format of vd, or exact modulo its width; `vwmul` the product in the wider tag. A conversion is that of the formats, whose values
`FloatOperations` states, or reduced or saturated (R54). Stochastic rounding takes the upper neighbour where the discarded part
and the random bits carry (R57). The functions of R116 give its special results and the exact results of R117; `vrecip` and
`vrsqrt` lie within the bound of R117 of the exact value, `vexp2`, `vlog2` and `vtanh` within it of the fixed-point value that the
model computes, in a 16-bit format rounded with RNE (notes/assumptions/13.md). That a `vtanh` of a magnitude of 20 or more, which is
±1, raises NX is the model's reading (notes/assumptions/13.md). -/
def Obligations.VectorFunctions : Prop :=
  (∀ (s : State) (f : BitVec 2) (d a b : BitVec 5) (m : BitVec 3), s.VectorReady →
     let t := (s.cur.getV a).tag
     let td := (s.cur.getV d).tag
     let md := Mode.ofFmode s.fmodeHere
     ((f = 0 → (s.cur.getV b).tag = t) →
       (t.isNumber = true → td = t ∨ t.widen = some td → s.cur.Fits [t, td] →
         ElementWise s (exec (.vfma f d a b m) s) f d a b m false td (fmaElem false false md t td) ∧
         ElementWise s (exec (.vfms f d a b m) s) f d a b m false td (fmaElem false true md t td) ∧
         ElementWise s (exec (.vfnma f d a b m) s) f d a b m false td (fmaElem true true md t td) ∧
         ElementWise s (exec (.vfnms f d a b m) s) f d a b m false td (fmaElem true false md t td)) ∧
       ∀ u, t.widen = some u → s.cur.Fits [t, u] →
         ElementWise s (exec (.vwmul f d a b m) s) f d a b m false u (fun x y _ => wideMulElem md t x y)) ∧
     ∀ g, t.isF = true → t.fmt = some g → s.cur.Fits [t] →
       ElementWise s (exec (.vsqrt d a m) s) 0 d a a m false t (fun x _ _ => g.sqrt md x) ∧
       ∀ e ∈ [(Instr.vrecip d a m, Fn.recip), (.vrsqrt d a m, .rsqrt), (.vexp2 d a m, .exp2), (.vlog2 d a m, .log2),
           (.vtanh d a m, .tanh)],
         ElementWise s (exec e.1 s) 0 d a a m false t fun x _ _ => g.func e.2 t.code s.fmodeHere x) ∧
  (∀ (s : State) (d a b : BitVec 5) (r m : BitVec 3) (u : BitVec 4), s.VectorReady →
     let t := (s.cur.getV a).tag
     let res := Tag.ofCode u.toNat
     let md := Mode.ofFmode s.fmodeHere
     t ≠ .dead → u ≠ 0 → s.cur.Fits [t, res] →
       ElementWise s (exec (.vcvt d a r m u) s) 0 d a a m false res
         (fun x _ _ => convertElem t res (vcvtMode s.fmodeHere r false) x) ∧
       ElementWise s (exec (.vcvtSat d a r m u) s) 0 d a a m false res
         (fun x _ _ => convertElem t res (vcvtMode s.fmodeHere r true) x) ∧
       ((s.cur.getV b).tag = .n32 → res.fmt.isSome = true → s.cur.Fits [.n32] →
         ElementWise s (exec (.vcvtSr d a b m u) s) 0 d a b m false res
           (fun x y _ => stochasticElem t res { md with sat := false } x y) ∧
         ElementWise s (exec (.vcvtSrSat d a b m u) s) 0 d a b m false res
           (fun x y _ => stochasticElem t res { md with sat := true } x y))) ∧
  (∀ (t u : Tag) (md : Mode) (negP negC : Bool) (x y z : Nat), x < 2 ^ t.width → y < 2 ^ t.width → z < 2 ^ u.width →
    t = u ∨ t.widen = some u →
    let r := fmaElem negP negC md t u x y z
    let plus := fun (neg : Bool) => (if neg then -1 else 1 : Int)
    (t.isInt = true →
      (r.fl = 0 ∧ r.val < 2 ^ u.width ∧
        ((r.val : Int) - (plus negP * (t.int x * t.int y) + plus negC * u.int z)) % (2 ^ u.width : Nat) = 0) ∧
      (t.widen = some u → (wideMulElem md t x y).fl = 0 ∧ u.int (wideMulElem md t x y).val = t.int x * t.int y)) ∧
    ∀ f g, t.isNumber = true → t.fmt = some f → u.fmt = some g →
      let x' := f.daz md x
      let y' := f.daz md y
      let z' := g.daz md z
      let sign := x.testBit (f.width - 1) ^^ y.testBit (f.width - 1)
      let signP := sign ^^ negP
      let signC := z.testBit (g.width - 1) ^^ negC
      (f.isFinite x' = true → f.isFinite y' = true →
        (let v := plus negP * (f.value x' * f.value y') + plus negC * g.value z'
         g.isFinite z' = true → g.Rounds md r v ∧
           (v = 0 → r = ⟨g.signBit (if signP = signC then signP else md.rm == .rdn), 0⟩)) ∧
        (t.widen = some u → g.Rounds md (wideMulElem md t x y) (f.value x' * f.value y') ∧
          (f.value x' * f.value y' = 0 → wideMulElem md t x y = ⟨g.signBit sign, 0⟩))) ∧
      (t = u → f.isNanCode x = true ∨ f.isNanCode y = true → r = f.nanFrom md [x, y, z]) ∧
      (t.widen = some u → md.dn = true → f.isNanCode x = true ∨ f.isNanCode y = true →
        r.val = g.defaultNan ∧ (wideMulElem md t x y).val = g.defaultNan)) ∧
  (∀ (t u : Tag) (md : Mode) (x : Nat), x < 2 ^ t.width →
    let r := convertElem t u md x
    (∀ f, t.fmt = some f →
      (∀ g, u.fmt = some g → u ≠ t → r = f.convert g md x) ∧ (u = t → r = f.convert f { md with sat := false } x) ∧
      (u.isInt = true → r.val < 2 ^ u.width ∧ (u.int r.val, r.fl) = toIntSat md.rm u.least u.greatest (f.read {} x))) ∧
    (t.isInt = true →
      (∀ g, u.fmt = some g → r = g.ofInt md (t.int x)) ∧
      (u.isInt = true → r.val < 2 ^ u.width ∧
        (md.sat = true → u.int r.val = max u.least (min u.greatest (t.int x)) ∧
          r.fl = if u.int r.val = t.int x then 0 else flSX) ∧
        (md.sat = false → r.fl = 0 ∧ ((r.val : Int) - t.int x) % (2 ^ u.width : Nat) = 0)))) ∧
  (∀ (t u : Tag) (g : Fmt) (md : Mode) (x rand k : Nat) (v : Rat) (s : Bool), u.fmt = some g → x < 2 ^ t.width → rand < 2 ^ 32 →
    (∀ f, t.fmt = some f → f.isFinite (f.daz md x) = true ∧ s = x.testBit (f.width - 1) ∧ v = |f.value (f.daz md x)|) →
    (t.isInt = true → s = decide (t.int x < 0) ∧ v = |(t.int x : Rat)|) → t ≠ .dead →
    let r := stochasticElem t u md x rand
    let low := g.magnitude k
    let high := g.magnitude (k + 1)
    let up := 2 ^ 32 ≤ ⌊(v - low) / (high - low) * 2 ^ 32⌋ + rand
    let toMax := md.sat = true ∨ g.special = .e2m1
    (low ≤ v → v < high → k < g.maxMag ∨ k = g.maxMag ∧ ¬ up →
      (md.ftz = true → g.special = .ieee → 2 ^ g.fbits ≤ k) →
      (up → r.val = g.signBit s + (k + 1)) ∧ (¬ up → r.val = g.signBit s + k) ∧ (r.fl.getLsbD 0 = true ↔ v ≠ low)) ∧
    (g.magnitude (g.maxMag + 1) ≤ v ∨ k = g.maxMag ∧ low ≤ v ∧ v < high ∧ up →
      (toMax → r = ⟨g.signBit s + g.maxMag, flOF ||| flNX⟩) ∧
      (¬ toMax → r = ⟨g.signBit (s && !(g.special == .e4m3 && md.dn)) + (if g.special = .e4m3 then 0x7F else g.infMag),
        flOF ||| flNX⟩))) ∧
  ∀ f ∈ [Fmt.f16, .bf16, .f32, .f64], ∀ (tag : Nat) (fm : BitVec 6) (x : Nat), x < 2 ^ f.width →
    let md := { Mode.ofFmode fm with rm := .rne }
    let x' := f.daz md x
    let v := f.value x'
    let neg := x.testBit (f.width - 1)
    let one := f.bias * 2 ^ f.fbits
    let inf := fun (s : Bool) => f.signBit s + f.infMag
    let invalid : FRes := ⟨f.defaultNan, flNV⟩
    let func := fun fn => f.func fn tag fm
    let all := [Fn.recip, .rsqrt, .exp2, .log2, .tanh]
    (f.isNanCode x = true → ∀ fn ∈ all, func fn x = f.nanFrom md [x]) ∧
    (v = 0 → f.isFinite x' = true → func .recip x = ⟨inf neg, flDZ⟩ ∧ func .rsqrt x = ⟨inf neg, flDZ⟩ ∧ func .exp2 x = ⟨one, 0⟩ ∧
      func .log2 x = ⟨inf true, flDZ⟩ ∧ func .tanh x = ⟨f.signBit neg, 0⟩) ∧
    (func .recip (inf neg) = ⟨f.signBit neg, 0⟩ ∧ func .rsqrt (inf false) = ⟨0, 0⟩ ∧ func .rsqrt (inf true) = invalid ∧
      func .exp2 (inf false) = ⟨inf false, 0⟩ ∧ func .exp2 (inf true) = ⟨0, 0⟩ ∧ func .log2 (inf false) = ⟨inf false, 0⟩ ∧
      func .log2 (inf true) = invalid ∧ func .tanh (inf neg) = ⟨f.signBit neg + one, 0⟩) ∧
    (f.isFinite x' = true → v < 0 → func .rsqrt x = invalid ∧ func .log2 x = invalid) ∧
    (md.ftz = false → ∀ fn ∈ [Fn.exp2, .log2, .tanh], ∀ (sgn : Bool) (n : Nat) (e : Int), f.read md x = .fin sgn n e → n ≠ 0 →
      (fn = .exp2 → (n : Rat) * 2 ^ e ≤ 1100) → (fn = .log2 → sgn = false) → (fn = .tanh → (n : Rat) * 2 ^ e < 20) →
      let c := fn.exact sgn n e
      let exact := (c.2.1 : Rat) * 2 ^ c.2.2.1
      let r := func fn x
      (f.width = 16 → r = f.round md c.1 c.2.1 c.2.2.1 c.2.2.2) ∧
      (f.width ≠ 16 → ∀ t, t < f.maxMag → f.magnitude t ≤ exact → exact < f.magnitude (t + 1) → f.isFinite r.val = true ∧
        |f.value r.val - (if c.1 then -exact else exact)| ≤ fn.bound f * (f.magnitude (t + 1) - f.magnitude t))) ∧
    (f.isFinite x' = true → 20 ≤ |v| → func .tanh x = ⟨f.signBit neg + one, flNX⟩) ∧
    (f.isFinite x' = true → md.ftz = false →
      (∀ n : Int, v = n → ∀ t, t ≤ f.maxMag → f.magnitude t = 2 ^ n → func .exp2 x = ⟨t, 0⟩) ∧
      (∀ n : Int, v = 2 ^ n → f.value (func .log2 x).val = n ∧ (func .log2 x).fl = 0 ∧ (n = 0 → func .log2 x = ⟨0, 0⟩)) ∧
      ∀ t, t < f.maxMag →
        let low := f.magnitude t
        let high := f.magnitude (t + 1)
        (v ≠ 0 → low * |v| ≤ 1 → 1 < high * |v| →
          let r := func .recip x
          let e := f.magnitude (f.mag r.val)
          r.val = f.signBit neg + f.mag r.val ∧ (low * |v| = 1 → r = ⟨f.signBit neg + t, 0⟩) ∧
          (f.width = 16 → f.IsRounding md neg (fun q => q * |v| < 1) (fun q => q * |v| ≤ 1) r) ∧
          (e - (high - low)) * |v| ≤ 1 ∧ 1 ≤ (e + (high - low)) * |v|) ∧
        (0 < v → low * low * v ≤ 1 → 1 < high * high * v →
          let r := func .rsqrt x
          let e := f.magnitude (f.mag r.val)
          r.val = f.mag r.val ∧ (low * low * v = 1 → r = ⟨t, 0⟩) ∧
          (f.width = 16 → f.IsRounding md false (fun q => q * q * v < 1) (fun q => q * q * v ≤ 1) r) ∧
          (e ≤ high - low ∨ (e - (high - low)) * (e - (high - low)) * v ≤ 1) ∧
          1 ≤ (e + (high - low)) * (e + (high - low)) * v))

/-- VCMP (R118, R119): each comparison completes; the mask bit of an active element is the outcome, the others keep. On
integers the outcome is that of the numbers, on floating elements that of the comparison of `FloatOperations`: with a NaN only
`.ne` and `.un` are true, and NV is raised for a signalling one, by the ordered conditions for any. -/
def Obligations.VectorCompares : Prop :=
  (∀ (s : State) (f : BitVec 2) (d : BitVec 3) (a b : BitVec 5) (m : BitVec 3), s.VectorReady →
     let t := (s.cur.getV a).tag
     let vl := s.cur.vlen
     let active := activeAt false vl (s.cur.getM m)
     let bo := s.cur.bOperand (s.issue [] (s.x b)) f b t false
     let one := fun (c : Cc) (i : Nat) => c.apply t (Mode.ofFmode s.fmodeHere) ((s.cur.getV a).elem i) (bo.elem i)
     s.cur.Fits [t] → (f = 0 → (s.cur.getV b).tag = t) →
       ∀ e ∈ [(Instr.vcmpEq f d a b m, Cc.eq), (.vcmpNe f d a b m, .ne), (.vcmpLt f d a b m, .lt), (.vcmpLe f d a b m, .le),
           (.vcmpGt f d a b m, .gt), (.vcmpGe f d a b m, .ge), (.vcmpUn f d a b m, .un)],
         (if e.2 = .un then t.isFloat else t.isNumber) = true →
           MaskDone s (exec e.1 s) d vl (fun i => if active i then some (one e.2 i).1 else none)
             (orFlags ((List.range vl).filterMap fun i => if active i then some (one e.2 i).2 else none) |||
               if (List.range vl).any active then bo.fl else 0)) ∧
  ∀ (t : Tag) (md : Mode) (x y : Nat),
    (t.isInt = true → Cc.eq.apply t md x y = (t.int x == t.int y, 0) ∧ Cc.ne.apply t md x y = (t.int x != t.int y, 0) ∧
      Cc.lt.apply t md x y = (decide (t.int x < t.int y), 0) ∧ Cc.le.apply t md x y = (decide (t.int x ≤ t.int y), 0) ∧
      Cc.gt.apply t md x y = (decide (t.int y < t.int x), 0) ∧ Cc.ge.apply t md x y = (decide (t.int y ≤ t.int x), 0)) ∧
    ∀ f, t.fmt = some f →
      let c := f.cmp md x y
      (Cc.eq.apply t md x y).1 = c.eq ∧ (Cc.ne.apply t md x y).1 = !c.eq ∧ (Cc.lt.apply t md x y).1 = c.lt ∧
      (Cc.le.apply t md x y).1 = (c.lt || c.eq) ∧ (c.un = false → (Cc.gt.apply t md x y).1 = !(c.lt || c.eq) ∧
        (Cc.ge.apply t md x y).1 = !c.lt) ∧ (Cc.un.apply t md x y).1 = c.un ∧
      (x < 2 ^ f.width → y < 2 ^ f.width →
        let nan := f.isNanCode x || f.isNanCode y
        c.un = nan ∧
        (∀ e ∈ [Cc.lt, .le, .gt, .ge], (nan = true → (e.apply t md x y).1 = false) ∧
          (e.apply t md x y).2 = if nan then flNV else 0) ∧
        (nan = true → (Cc.eq.apply t md x y).1 = false ∧ (Cc.ne.apply t md x y).1 = true) ∧
        ∀ e ∈ [Cc.eq, .ne, .un], (e.apply t md x y).2 = if f.signals x || f.signals y then flNV else 0)

/-- VMASK and the bitmap instructions (R92, R103, R134-R136): the mask operations on the bits below the mask length, their counts
and tests, `miota` and `mcomp`; nonzero elements into a mask, a pair to each bit of e2m1 elements, where the sign bit of a
floating element does not count (R51); set bits below an element, rank of a position, and the positions that two bitmaps share. -/
def Obligations.MaskResults : Prop :=
  (∀ (s : State) (d a b : BitVec 3) (x : BitVec 5), s.VectorReady →
     let n := s.cur.ml
     let p := fun i => (s.cur.getM a).getLsbD i
     let q := fun i => (s.cur.getM b).getLsbD i
     let bits := fun (i : Instr) (f : Nat → Bool) => MaskDone s (exec i s) d n (fun j => some (f j)) 0
     bits (.mand d a b) (fun i => p i && q i) ∧ bits (.mor d a b) (fun i => p i || q i) ∧
     bits (.mxor d a b) (fun i => p i ^^ q i) ∧ bits (.mandn d a b) (fun i => p i && !q i) ∧
     bits (.mnot d a) (fun i => !p i) ∧ bits (.mmv d a) p ∧ bits (.mset d) (fun _ => true) ∧
     bits (.mclr d) (fun _ => false) ∧
     Completes s (exec (.mcomp d) s) (s.cur.pc + 4) (s.cur.setM d s.cur.progress.vcomp) ∧
     (n ≤ 2048 →
       Completes s (exec (.mpopc x a) s) (s.cur.pc + 4) (s.cur.setX x (BitVec.ofNat 64 ((List.range n).filter p).length)) ∧
       Completes s (exec (.mfirst x a) s) (s.cur.pc + 4)
         (s.cur.setX x (match (List.range n).find? p with | some i => BitVec.ofNat 64 i | none => BitVec.allOnes 64)) ∧
       Completes s (exec (.many d a) s) (s.cur.pc + 4) (s.cur.setC d ((List.range n).any p)) ∧
       Completes s (exec (.mall d a) s) (s.cur.pc + 4) (s.cur.setC d ((List.range n).all p))) ∧
     (s.cur.Fits [.n32] →
       VectorDone s (exec (.miota x a) s) x .n32 s.cur.vlen (fun i => some ⟨((List.range i).filter p).length, 0⟩) 0)) ∧
  ∀ (s : State) (d a b : BitVec 5) (e m : BitVec 3), s.VectorReady →
    let va := s.cur.getV a
    let t := va.tag
    let vl := s.cur.vlen
    let active := activeAt false vl (s.cur.getM m)
    let count := fun k => ((List.range k).filter va.img.getLsbD).length
    let done := fun (i : Instr) (r : Nat → Nat) =>
      VectorDone s (exec i s) d .n32 vl (fun j => if active j then some ⟨r j, 0⟩ else none) 0
    ((∀ x, t.isInt = true → nonzero t x = decide (x ≠ 0)) ∧ ∀ f x, t.fmt = some f → nonzero t x = decide (f.mag x ≠ 0)) ∧
    (t = .e2m1 → s.cur.Fits [t] →
      MaskDone s (exec (.vnzb e a m) s) e ((vl + 1) / 2)
        (fun j => if (s.cur.getM m).getLsbD j then some (nonzero t (va.elem (2 * j)) || nonzero t (va.elem (2 * j + 1))) else none) 0) ∧
    (t ≠ .dead → t ≠ .e2m1 → s.cur.Fits [t] →
      MaskDone s (exec (.vnzb e a m) s) e vl
        (fun i => if (s.cur.getM m).getLsbD i then some (nonzero t (va.elem i)) else none) 0) ∧
    (t.isInt = true → s.cur.Fits [.n32] →
      (s.cur.Fits [t] → done (.vbpop d a m) (fun i => count (t.width * i))) ∧
      ((s.cur.getV b).tag = .n32 → done (.vrank d a b m) (fun i => count (min ((s.cur.getV b).elem i) 16384))) ∧
      ((s.cur.getV b).tag.isInt = true →
        let both := (List.range 16384).filter fun i => va.img.getLsbD i && (s.cur.getV b).img.getLsbD i
        done (.vxsect d a b m) (fun j => both.getD j 0xFFFFFFFF)))

/-- Reductions and scans (R60, R127-R130): they complete on the tags they accept, integer and floating; a reduction writes element
0, whatever `vl` is, a scan each active element with its step from the running value over the active elements below, and every
step's flags. On integers a reduction is the sum modulo 2^w, the greatest or least element, or the bitwise combination, with the
identity where no element is active. A floating reduction is the tree of R60: its leaves are the elements, −0 and ∓∞ where none is
active, and a node adds or chooses what its halves give; that DAZ, FTZ and R52 apply to the one element of a tree without a node
is the model's reading (notes/assumptions/23.md). A floating scan adds, or takes the greater of two
numbers; a NaN operand gives the NaN of R52, and the first active element of an e4m3 maximum is copied. -/
def Obligations.ReductionResults : Prop :=
  (∀ (s : State) (d a : BitVec 5) (m : BitVec 3), s.VectorReady →
     let t := (s.cur.getV a).tag
     let vl := s.cur.vlen
     let md := Mode.ofFmode s.fmodeHere
     let active := activeAt false vl (s.cur.getM m)
     let e := (s.cur.getV a).elem
     s.cur.Fits [t] →
       (∀ r ∈ [(Instr.vredsum d a m, Red.sum), (.vredmax d a m, .max), (.vredmin d a m, .min), (.vredand d a m, .and),
           (.vredor d a m, .or), (.vredxor d a m, .xor)], r.2.accepts t = true →
         VectorDone s (exec r.1 s) d t 1 (fun _ => some (r.2.reduce t md vl active e)) 0) ∧
       ∀ r ∈ [(Instr.vscanSum d a m, Red.sum), (.vscanMax d a m, .max)], r.2.accepts t = true →
         let next := fun (x y : Nat) => match t.fmt with
           | some f => r.2.scanStep f md x y
           | none => ⟨r.2.int t x y, 0⟩
         let start := match t.fmt with
           | some f => r.2.floatIdentity f
           | none => r.2.identity t
         let below := fun (i : Nat) => ((List.range i).filter active).foldl (fun x j => (next x (e j)).val) start
         VectorDone s (exec r.1 s) d t vl (fun i => if active i then some (next (below i) (e i)) else none) 0) ∧
  (∀ (t : Tag) (md : Mode) (vl : Nat) (active : Nat → Bool) (e : Nat → Nat), t.isInt = true → (∀ i, e i < 2 ^ t.width) →
     let js := (List.range vl).filter active
     (Red.sum.reduce t md vl active e).val = (js.map e).sum % 2 ^ t.width ∧
     (∀ j ∈ js, t.int (e j) ≤ t.int (Red.max.reduce t md vl active e).val ∧
       t.int (Red.min.reduce t md vl active e).val ≤ t.int (e j)) ∧
     (js ≠ [] → (∃ j ∈ js, (Red.max.reduce t md vl active e).val = e j) ∧ ∃ j ∈ js, (Red.min.reduce t md vl active e).val = e j) ∧
     (js = [] → t.int (Red.max.reduce t md vl active e).val = t.least ∧
       t.int (Red.min.reduce t md vl active e).val = t.greatest) ∧
     ∀ k, k < t.width →
       (Red.and.reduce t md vl active e).val.testBit k = js.all (fun j => (e j).testBit k) ∧
       (Red.or.reduce t md vl active e).val.testBit k = js.any (fun j => (e j).testBit k) ∧
       ((Red.xor.reduce t md vl active e).val.testBit k = true ↔ (js.filter fun j => (e j).testBit k).length % 2 = 1)) ∧
  (∀ (t : Tag) (x y : Nat), t.isInt = true → x < 2 ^ t.width → y < 2 ^ t.width →
     Red.sum.identity t = 0 ∧ Red.sum.int t x y = (x + y) % 2 ^ t.width ∧ t.int (Red.max.identity t) = t.least ∧
     t.int (Red.max.int t x y) = max (t.int x) (t.int y) ∧ Red.max.int t x y ∈ [x, y]) ∧
  ∀ (t : Tag) (f : Fmt) (md : Mode) (active : Nat → Bool) (e : Nat → Nat), t.isNumber = true → t.fmt = some f → md.sat = false →
    (∀ i, e i < 2 ^ t.width) →
    Red.sum.floatIdentity f = f.signBit true ∧
    (f.special ≠ .e4m3 → Red.max.floatIdentity f = f.signBit true + f.infMag ∧ Red.min.floatIdentity f = f.infMag) ∧
    (∀ (op : Red) (node : Nat → Nat → FRes),
      (op, node) ∈ [(Red.sum, f.add md), (.max, f.minmax md true), (.min, f.minmax md false)] → op = .sum ∨ f.special ≠ .e4m3 →
      let leaf := fun (j : Nat) => if active j then e j else op.floatIdentity f
      op.reduce t md 0 active e = ⟨leaf 0, 0⟩ ∧ (active 0 = false → op.reduce t md 1 active e = ⟨op.floatIdentity f, 0⟩) ∧
      (active 0 = true → op.reduce t md 1 active e =
        if op = .sum then f.convert f md (e 0) else if f.isNanCode (e 0) then f.nanFrom md [e 0] else ⟨f.daz md (e 0), 0⟩) ∧
      op.reduce t md 2 active e = node (leaf 0) (leaf 1) ∧
      ∀ k,
        (∀ vl, 2 ^ k < vl → vl ≤ 2 ^ (k + 1) → op.reduce t md vl active e = op.reduce t md (2 ^ (k + 1)) active e) ∧
        (1 ≤ k → let l := op.reduce t md (2 ^ k) active e
         let r := op.reduce t md (2 ^ k) (fun j => active (j + 2 ^ k)) fun j => e (j + 2 ^ k)
         op.reduce t md (2 ^ (k + 1)) active e = ⟨(node l.val r.val).val, l.fl ||| r.fl ||| (node l.val r.val).fl⟩)) ∧
    ∀ (x y : Nat), x < 2 ^ t.width → y < 2 ^ t.width →
      Red.sum.scanStep f md x y = f.add md x y ∧
      (f.isNanCode x = false → f.isNanCode y = false → Red.max.scanStep f md x y = f.minmax md true x y) ∧
      (f.isNanCode x = true ∨ f.isNanCode y = true →
        Red.max.scanStep f md x y = f.nanFrom md [x, y]) ∧
      (f.special = .e4m3 → Red.max.scanStep f md (Red.max.floatIdentity f) y = ⟨y, 0⟩)

/-- Permutations, moves and random words (R101, R131-R133): where va is live and its elements move whole, each instruction
completes with element `i` of vd as its rule says. `vmvx` extends an integer by its tag and boxes an f32 element; `vmvs` converts
its scalar as R109 does; `vrand` gives word 0 of Philox-4x32-10 for the counter xs + i (R58). -/
def Obligations.PermutationResults : Prop :=
  (∀ (t : Tag) (md : Mode) (x : Word) (v : Nat),
    t.Takes md x.toNat (scalarElem t false md x) ∧ (t = .e2m1 → scalarElem t false md x = ⟨x.toNat % 16, 0⟩) ∧
    (t.isInt = true → v < 2 ^ t.width → elemScalar t v = BitVec.ofInt 64 (t.int v)) ∧
    (t = .f32 → v < 2 ^ 32 → (elemScalar t v).toNat = 0xFFFFFFFF00000000 + v) ∧
    (t ∈ [Tag.f16, .bf16, .e4m3, .e5m2, .f64] → v < 2 ^ t.width → (elemScalar t v).toNat = v)) ∧
  (∀ (c r : Word),
    let key := fun (n : Nat) => ((r.toNat + n * 0x9E3779B9) % 2 ^ 32, (r.toNat / 2 ^ 32 + n * 0xBB67AE85) % 2 ^ 32)
    let round := fun (x : Nat × Nat × Nat × Nat) (n : Nat) =>
      let p := 0xD2511F53 * x.1
      let q := 0xCD9E8D57 * x.2.2.1
      (q / 2 ^ 32 ^^^ x.2.1 ^^^ (key n).1, q % 2 ^ 32, p / 2 ^ 32 ^^^ x.2.2.2 ^^^ (key n).2, p % 2 ^ 32)
    philox c r = ((List.range 10).foldl round (c.toNat % 2 ^ 32, c.toNat / 2 ^ 32, 0, 0)).1) ∧
  ∀ (s : State) (f : BitVec 2) (d a b : BitVec 5) (m : BitVec 3) (u : BitVec 4), s.VectorReady →
    let va := s.cur.getV a
    let t := va.tag
    let vl := s.cur.vlen
    let active := activeAt false vl (s.cur.getM m)
    let k := if f = 1 then (s.scalarHere b).toNat else b.toNat
    let done := fun (i : Instr) (r : Nat → Option Nat) =>
      VectorDone s (exec i s) d t vl (fun j => if active j then (r j).map fun v => ⟨v, 0⟩ else none) 0
    (t.movable = true → s.cur.Fits [t] →
      done (.vslideup f d a b m) (fun i => if k ≤ i then some (va.elem (i - k)) else none) ∧
      done (.vslidedn f d a b m) (fun i => some (if i + k < vl then va.elem (i + k) else 0)) ∧
      done (.vbcast f d a b m) (fun _ => some (if k < vl then va.elem k else 0)) ∧
      done (.vexpand d a m) (fun i => some (va.elem ((List.range i).filter (s.cur.getM m).getLsbD).length)) ∧
      ((s.cur.getV b).tag.isInt = true → s.cur.Fits [(s.cur.getV b).tag] →
        done (.vperm d a b m) (fun i =>
          let j := (s.cur.getV b).elem i
          some (if j < vl then va.elem j else 0))) ∧
      (let sel := (List.range vl).filter active
       VectorDone s (exec (.vcompress d a m) s) d t sel.length (fun i => (sel[i]?).map fun j => ⟨va.elem j, 0⟩) 0) ∧
      Completes s (exec (.vmvx f d a b) s) (s.cur.pc + 4)
        (s.cur.setX d (if k < vl then elemScalar t (va.elem k) else 0))) ∧
    (t ≠ .dead → s.cur.Fits [t] →
      let pair := t == .e2m1
      let on := activeAt pair vl (s.cur.getM m)
      VectorDone s (exec (.vmv d a m) s) d t (destLen pair t vl) (fun i => if on i then some ⟨va.elem i, 0⟩ else none) 0) ∧
    (let td := (s.cur.getV d).tag
     let pair := td == .e2m1
     let n := destLen pair td vl
     let on := activeAt pair vl (s.cur.getM m)
     let r := scalarElem td false (Mode.ofFmode s.fmodeHere) (s.scalarHere b)
     td ≠ .dead → s.cur.Fits [td] →
       VectorDone s (exec (.vmvs d b m) s) d td n (fun i => if on i then some ⟨r.val, 0⟩ else none)
         (if (List.range n).any on then r.fl else 0)) ∧
    (let tu := Tag.ofCode u.toNat
     tu.isInt = true → s.cur.Fits [tu] →
       VectorDone s (exec (.viota d u m) s) d tu vl (fun i => if active i then some ⟨i % 2 ^ tu.width, 0⟩ else none) 0) ∧
    (s.cur.Fits [.n32] →
      VectorDone s (exec (.vrand d b m) s) d .n32 vl
        (fun i => if active i then some ⟨philox (s.scalarHere b + BitVec.ofNat 64 i) (s.issue []).rkey, 0⟩ else none) 0)

/-- `vsetvl`, `vcfg` and `vrel` (R98-R100). Where the other harts' reservations leave lane groups `vsetvl` completes with the
grant h that the scheduler chose, between max(lgmin, 1) and lgmax: `vgrant`, `vl`, `vlmax` and xd as the rule says, and every
register zero from bit 2,048 × h on; without a group it sleeps with what it captured (R201), and its wake completes it in the same
way (which grant is chosen, and when it waits: the model's reading, notes/assumptions/17.md). A live tag of `vcfg` keeps the
image, a dead one clears the register; `vrel` gives up the lanes, the length, every vector register and m1 to m7. -/
def Obligations.VectorConfiguration : Prop :=
  (∀ (s : State) (d a : BitVec 5) (u : BitVec 4) (request : Word) (t : Tag),
     let g := s.chosenGrant s.cur
     let done := fun (o : Result) (t : Tag) (r : Word) =>
       let top := g * 2048 / t.width
       let n := min r.toNat top
       ∃ rs, CompletesAs o (s.cur.pc + 4)
         { s with
           reclaims := rs
           cur := ({ s.cur with
             held := g, vgrant := g, ltag := t, vlmax := top, vlen := n,
             v := s.cur.v.map fun (r : VReg) => { tag := r.tag, img := BitVec.ofNat 16384 (r.img.toNat % 2 ^ (2048 * g)) }
             vbad := s.cur.vbad.filter fun p => decide (p.2 < 256 * g) }).setX d
               (BitVec.ofNat 64 n) }
     (max (s.recordOf s.cur).lgmin 1 ≤ (s.recordOf s.cur).lgmax → max (s.recordOf s.cur).lgmin 1 ≤ g ∧ g ≤ (s.recordOf s.cur).lgmax) ∧
     let cap := s.issue [s.x a]
     (s.cur.status.matrix = false → s.pendingGroups s.cur.uid = [] → s.freeGroups s.cur ≠ 0 →
       done (exec (.vsetvl d a u) s) (Tag.ofCode u.toNat) (cap.operands.headD 0)) ∧
     (s.cur.status.matrix = false → s.pendingGroups s.cur.uid = [] → s.freeGroups s.cur = 0 →
       exec (.vsetvl d a u) s = .next (s.onCur fun h =>
         { h.hold cap with wait := .vsetvl d (cap.operands.headD 0) (Tag.ofCode u.toNat) })) ∧
     (s.cur.capturedHere = none → cap.operands = [s.x a]) ∧
     (s.cur.place ≠ .absent → s.cur.wait = .vsetvl d request t → s.freeGroups s.cur ≠ 0 → s.mustLeave s.cur = false →
       done (exec (.vsetvlLaneWake s.cur.uid) s) t request)) ∧
  ∀ (s : State) (d : BitVec 5) (u : BitVec 4), s.VectorReady →
    (u ≠ 0 → Completes s (exec (.vcfg d u) s) (s.cur.pc + 4)
      { s.cur with v := s.cur.v.set d.toNat { img := (s.cur.getV d).img, tag := Tag.ofCode u.toNat } }) ∧
    Completes s (exec (.vcfg d 0) s) (s.cur.pc + 4) (s.cur.setV d { img := 0, tag := .dead }) ∧
    ∃ h, Completes s (exec .vrel s) (s.cur.pc + 4) h ∧ h.held = 0 ∧ h.vgrant = 0 ∧ h.vlmax = 0 ∧ h.vlen = 0 ∧
      (∀ r, h.getV r = { img := 0, tag := .dead }) ∧ (∀ r, r ≠ 0 → h.getM r = 0) ∧ h.x = s.cur.x ∧ h.c = s.cur.c ∧
      h.status = s.cur.status ∧ h.tiles = s.cur.tiles ∧ h.fflags = s.cur.fflags

/-- Every instruction of VARITH, VFMA, VLOGIC, VFUNC, VCMP, VCVT, VRED, VPERM and VSPARSE that traps in supervisor mode with a
handler (R108, R110, R124, R127, R131, R134): in matrix mode with cause 0x0A, but for the moves of R124; without lane groups with
0x09; then with 0x02 on a dead source, on two sources of different tags, on a tag that the instruction does not take (e2m1 of R43
among them), and on a source that breaches the capacity rule (R90). Nothing else changes. -/
def Obligations.VectorTraps : Prop :=
  ∀ (s : State) (f : BitVec 2) (d a b : BitVec 5) (e m r : BitVec 3) (u : BitVec 4), s.cur.handles →
    let t := (s.cur.getV a).tag
    let tb := (s.cur.getV b).tag
    let td := (s.cur.getV d).tag
    let arith := [Instr.vadd f d a b m, .vsub f d a b m, .vrsub f d a b m, .vmul f d a b m, .vmin f d a b m, .vmax f d a b m]
    let arithInt := [Instr.vmulh f d a b m, .vdiv f d a b m, .vrem f d a b m, .vsadd f d a b m, .vssub f d a b m]
    let fused := [Instr.vfma f d a b m, .vfms f d a b m, .vfnma f d a b m, .vfnms f d a b m]
    let shifts := [Instr.vsll f d a b m, .vsrl f d a b m, .vsra f d a b m]
    let compares := [Instr.vcmpEq f e a b m, .vcmpNe f e a b m, .vcmpLt f e a b m, .vcmpLe f e a b m, .vcmpGt f e a b m,
      .vcmpGe f e a b m]
    let twos := arith ++ arithInt ++ fused ++ [.vwmul f d a b m] ++ [.vand f d a b m, .vor f d a b m, .vxor f d a b m] ++ shifts ++
      compares ++ [.vcmpUn f e a b m]
    let counts := [Instr.vpopc d a m, .vclz d a m]
    let functions := [Instr.vrecip d a m, .vrsqrt d a m, .vsqrt d a m, .vexp2 d a m, .vlog2 d a m, .vtanh d a m]
    let stochastic := [Instr.vcvtSr d a b m u, .vcvtSrSat d a b m u]
    let reductions := [Instr.vredsum d a m, .vredmax d a m, .vredmin d a m, .vscanSum d a m, .vscanMax d a m]
    let bits := [Instr.vredand d a m, .vredor d a m, .vredxor d a m]
    let permutations := [Instr.vslideup f d a b m, .vslidedn f d a b m, .vperm d a b m, .vcompress d a m, .vexpand d a m,
      .vbcast f d a b m]
    let bitmaps := [Instr.vrank d a b m, .vxsect d a b m]
    let moves := [Instr.vmv d a m, .vmvx f d a b]
    let whole := twos ++ [.vabs d a m, .vneg d a m, .vnot d a m] ++ counts ++ functions ++
      [.vcvt d a r m u, .vcvtSat d a r m u] ++ stochastic ++ reductions ++ bits ++ permutations ++ [.vnzb e a m, .vbpop d a m]
    let traps := fun (is : List Instr) (c : BitVec 8) => ∀ i ∈ is, Vectors s (exec i s) c 0 0
    (s.cur.status.matrix = true → traps (whole ++ bitmaps ++ [.viota d u m]) 0x0A) ∧
    (s.cur.status.matrix = false → s.cur.granted = false →
      traps (whole ++ bitmaps ++ moves ++ [.viota d u m, .vmvs d b m]) 0x09) ∧
    (s.cur.status.matrix = false → s.cur.granted = true →
      (t = .dead → traps (whole ++ bitmaps ++ moves) 0x02) ∧
      (td = .dead → traps [.vmvs d b m] 0x02) ∧
      (¬ s.cur.Fits [t] → traps (whole ++ moves) 0x02) ∧
      (f = 0 → tb ≠ t → traps twos 0x02) ∧
      (t = .e2m1 → traps (arith ++ fused ++ [.vabs d a m, .vneg d a m] ++ compares ++ [.vcmpUn f e a b m] ++ reductions ++
        permutations ++ [.vmvx f d a b]) 0x02) ∧
      (t.isInt = false → traps (arithInt ++ shifts ++ counts ++ bits ++ [.vbpop d a m] ++ bitmaps) 0x02) ∧
      (t.isInt = true → traps [.vcmpUn f e a b m] 0x02) ∧
      (t.isF = false → traps functions 0x02) ∧
      (t.widen = none → traps [.vwmul f d a b m] 0x02) ∧
      (td ≠ t → t.widen ≠ some td → traps fused 0x02) ∧
      (tb ≠ .n32 ∨ (Tag.ofCode u.toNat).isInt = true → traps stochastic 0x02) ∧
      (tb ≠ .n32 → traps [.vrank d a b m] 0x02) ∧
      (tb.isInt = false → traps [.vperm d a b m, .vxsect d a b m] 0x02) ∧
      ((Tag.ofCode u.toNat).isInt = false → traps [.viota d u m] 0x02))

/-! Vector memory -/

/-- VLD, VLDX and `vgll` (R217, R224, R225, R227): where every active unit is aligned and translates, the load completes under
every order; each active unit of vd takes the bytes at its address, and `vgll` links each active element. A `.ff` form stops at
the first active unit that fails in the probe or lies on a never-speculate page, where an active one lies below it: its element
becomes the length, only the units below are loaded, and nothing traps (R220). -/
def Obligations.VectorLoads : Prop :=
  ∀ (s : State) (p : Nat → Phys) (d a b : BitVec 5) (m k : BitVec 3) (o : BitVec 2) (ff : BitVec 1),
    let t := s.cur.ltag
    let unitStride := fun u => s.x a + BitVec.ofNat 64 (t.unitBytes * u)
    let strided := fun u => s.x a + s.x b * BitVec.ofNat 64 u
    let indexed := fun u => s.x a + (s.cur.getV b).offset u
    let runs := ff = 0 ∨ ∀ u, s.cur.activeUnit t m u = true → (p u).ns = false
    let stops := fun (i : Instr) (addr : Nat → Word) => ∀ n, s.AccessBelow n .read t m addr p → ff = 1 →
      (∀ u, u < n → s.cur.activeUnit t m u = true → (p u).ns = false) → s.cur.activeUnit t m n = true →
      (∃ u, u < n ∧ s.cur.activeUnit t m u = true) →
      (∃ c, s.xlate (s.cur.unitAgent s.cur.cw) .read (addr n) = (.error c, s)) ∨ (s.ServesUnit .read (addr n) (p n) ∧ (p n).ns = true) →
        LoadUpTo s (exec i s) d t m p n (if t = .e2m1 then 2 * n else n)
    (stops (.vld d a m k o ff) unitStride ∧ (t ≠ .e2m1 → stops (.vldS d a b m k o ff) strided) ∧
      (t ≠ .e2m1 → (s.cur.getV b).tag.isInt = true → s.cur.Fits [(s.cur.getV b).tag] → stops (.vldx d a b m k o ff) indexed)) ∧
    (s.AccessReady .read t m unitStride p → runs → LoadDone s (exec (.vld d a m k o ff) s) d t m p) ∧
    (t ≠ .e2m1 → s.AccessReady .read t m strided p → runs → LoadDone s (exec (.vldS d a b m k o ff) s) d t m p) ∧
    (t ≠ .e2m1 → (s.cur.getV b).tag.isInt = true → s.cur.Fits [(s.cur.getV b).tag] → s.AccessReady .read t m indexed p →
      (runs → LoadDone s (exec (.vldx d a b m k o ff) s) d t m p) ∧
      ((∀ u, s.cur.activeUnit t m u = true → inWindow (indexed u) = false) →
        LoadDone s (exec (.vgll d a b m k o) s) d t m p ∧
        ∀ r, exec (.vgll d a b m k o) s = .next r →
          ∀ u, s.cur.activeUnit t m u = true → r.cur.linked u (indexed u) t.unitBytes = true))

/-- VST and VSTX (R217, R224, R225, R335): where every active unit is aligned, translates and lies apart from the others, the
store completes under every order; `.sw`, order 11, needs a valid window in `cw`. -/
def Obligations.VectorStores : Prop :=
  ∀ (s : State) (p : Nat → Phys) (v a b : BitVec 5) (m k : BitVec 3) (o : BitVec 2),
    let src := s.cur.getV v
    let t := src.tag
    let unitStride := fun u => s.x a + BitVec.ofNat 64 (t.unitBytes * u)
    let strided := fun u => s.x a + s.x b * BitVec.ofNat 64 u
    let indexed := fun u => s.x a + (s.cur.getV b).offset u
    let kind : Kind := if o = 3 then .window else .write
    s.Targets t m p → (o = 3 → s.cur.cw.getLsbD 4 = true) →
      (s.AccessReady kind t m unitStride p → StoreDone s (exec (.vst v a m k o) s) src t m p) ∧
      (t ≠ .e2m1 → s.AccessReady kind t m strided p → StoreDone s (exec (.vstS v a b m k o) s) src t m p) ∧
      (t ≠ .e2m1 → (s.cur.getV b).tag.isInt = true → s.cur.Fits [(s.cur.getV b).tag] → s.AccessReady kind t m indexed p →
        StoreDone s (exec (.vstx v a b m k o) s) src t m p)

/-- VATOM and `vfas` (R230-R232): each active element exchanges its operation's result with memory and takes the old value; the
operations are those of the tag on the old value and the element: a sum, a bitwise combination, the smaller or greater, the element;
`vfas` gives every active element the running sum before it, and adds the whole sum to one word. -/
def Obligations.VectorAtomics : Prop :=
  ∀ (s : State) (p : Nat → Phys) (d a b : BitVec 5) (m k : BitVec 3) (o : BitVec 2),
    let idx := s.cur.getV b
    let md := Mode.ofFmode s.cur.fmode
    (∀ (t : Tag) (x y : Nat), x < 2 ^ t.width → y < 2 ^ t.width →
      VamoOp.swap.apply t md x y = ⟨y, 0⟩ ∧
      (t.isInt = true →
        VamoOp.add.apply t md x y = ⟨(x + y) % 2 ^ t.width, 0⟩ ∧ VamoOp.and.apply t md x y = ⟨x &&& y, 0⟩ ∧
        VamoOp.or.apply t md x y = ⟨x ||| y, 0⟩ ∧ VamoOp.xor.apply t md x y = ⟨x ^^^ y, 0⟩ ∧
        VamoOp.min.apply t md x y = ⟨if t.int x ≤ t.int y then x else y, 0⟩ ∧
        VamoOp.max.apply t md x y = ⟨if t.int x ≤ t.int y then y else x, 0⟩) ∧
      ∀ f, t.fmt = some f → VamoOp.add.apply t md x y = f.add md x y ∧
        VamoOp.min.apply t md x y = f.minmax md false x y ∧ VamoOp.max.apply t md x y = f.minmax md true x y) ∧
    (let src := s.cur.getV (b + 1)
     let t := src.tag
     let active := s.cur.activeUnit t m
     let old := fun i => leNat (s.homeRead (p i).pa t.unitBytes)
     s.AccessReady .atomic t m (fun i => s.x a + idx.offset i) p → s.Targets t m p → idx.tag.isInt = true →
       s.cur.Fits [idx.tag] →
       ∀ e ∈ [(Instr.vamoAdd d a b m k o, VamoOp.add), (.vamoAnd d a b m k o, .and), (.vamoOr d a b m k o, .or),
           (.vamoXor d a b m k o, .xor), (.vamoMin d a b m k o, .min), (.vamoMax d a b m k o, .max),
           (.vamoSwap d a b m k o, .swap)], e.2.accepts t = true →
         let r := fun i => e.2.apply t md (old i) (src.elem i)
         ∃ u v, exec e.1 s = .next u ∧ v.Loaded (s.cur.getV d) t (t.units s.cur.vlen) active old ∧
           StoreFrame s u { s.cur.setV d v with
             fflags := s.cur.fflags ||| orFlags (((List.range (t.units s.cur.vlen)).filter active).map fun i => (r i).fl) } ∧
           HomesAfter s u t.unitBytes active p fun i => some (r i).val) ∧
    (let t := idx.tag
     let n := t.unitBytes
     let us := (List.range s.cur.vlen).filter fun i => (s.cur.getM m).getLsbD i
     let old := leNat (s.homeRead (p 0).pa n)
     let sum := fun i => (old + ((us.filter fun j => decide (j < i)).map idx.elem).sum) % 2 ^ t.width
     s.VectorReady → s.Quiet → s.cur.Delivers → s.cur.progress = {} → s.cur.early = [] → Memory.wf s = true → s.TilesUncached → t.isInt = true →
       s.cur.Fits [t] → us ≠ [] → (s.x a).toNat % n = 0 → s.ServesUnit .atomic (s.x a) (p 0) →
         ∃ u v, exec (.vfas d a b m) s = .next u ∧ StoreFrame s u (s.cur.setV d v) ∧
           v.After (s.cur.getV d) t (fun i => if us.contains i then some (sum i) else none) ∧
           HomesAfter s u n (fun i => i == 0) p fun _ => some (sum s.cur.vlen))

/-- `vscc` (R228, R229): an active element that still holds its link stores, unless one before it on the same granule has; the
others store nothing. md takes the successes, inactive bits keep, and no link is left. Elements on different granules do not touch
each other's links here; two on one granule may have any two places in memory. -/
def Obligations.ScatterConditional : Prop :=
  ∀ (s : State) (p : Nat → Phys) (v a b : BitVec 5) (m k : BitVec 3) (o : BitVec 2),
    let src := s.cur.getV v
    let t := src.tag
    let addr := fun i => s.x a + (s.cur.getV b).offset i
    let active := s.cur.activeUnit t m
    let apart := fun i j => active i = true ∧ active j = true ∧ granuleOf (addr i) ≠ granuleOf (addr j)
    let holds := fun i => active i && s.cur.linked i (addr i) t.unitBytes
    let wins := fun i => holds i && !(List.range i).any fun j => holds j && granuleOf (addr j) == granuleOf (addr i)
    s.AccessReady .write t m addr p → s.TilesUncached → t ≠ .e2m1 → (s.cur.getV b).tag.isInt = true →
      s.cur.Fits [(s.cur.getV b).tag] → (∀ i, active i = true → inWindow (addr i) = false) →
      (∀ i, active i = true → (p i).pa % t.unitBytes = 0 ∧ (isTile (p i).pa = true → (p i).attr.mode .fresh = .home)) →
      (∀ i j, apart i j → (p i).pa / 8 ≠ (p j).pa / 8) →
      (∀ l ∈ s.cur.links, ∀ j, apart l.index j → l.home + 8 ≤ (p j).pa ∨ (p j).pa + t.unitBytes ≤ l.home) →
        ∃ u w, exec (.vscc v a b m k o) s = .next u ∧ u.cur.links = [] ∧ StoreFrame s u (s.cur.setM m w) ∧
          (∀ i, i < 2048 → w.getLsbD i = if active i then wins i else (s.cur.getM m).getLsbD i) ∧
          HomesAfter s u t.unitBytes wins p fun i => some (src.elem i)

/-- VWAIT (R233): with every watched word meeting its condition it returns and clears the active bits of md; past its deadline it
returns with the unmet elements there; else it sleeps with what it captured (R201, R234), and its wake and its deadline look
again. -/
def Obligations.FlagWaits : Prop :=
  ∀ (s : State) (p : Nat → Phys) (a x b : BitVec 5) (m k : BitVec 3) (deadline : Word),
    let va := s.cur.getV a
    let vb := s.cur.getV b
    let active := fun i => decide (i < s.cur.vlen) && (s.cur.getM m).getLsbD i
    let word := fun i => leNat (s.homeRead (p i).pa 8)
    let returns := fun (o : Result) (bit : Nat → Bool) =>
      MaskDone s o m s.cur.vlen (fun i => if active i then some (bit i) else none) 0
    let limit : Word := BitVec.ofNat 64 (min (s.shore.toNat + (s.x x).toNat) (2 ^ 64 - 1))
    s.VectorReady → s.Quiet → s.cur.Delivers → s.cur.early = [] → s.cur.Fits [va.tag, vb.tag] →
      (∀ i, active i = true → va.elem i % 8 = 0) →
      (∀ i, active i = true → s.ServesUnit .read (BitVec.ofNat 64 (va.elem i)) (p i)) →
      ∀ e ∈ [(Instr.vwait a x b m k, WaitCond.atLeast, fun i => decide (vb.elem i ≤ word i)),
          (.vwaitEq a x b m k, .eq, fun i => decide (word i = vb.elem i)),
          (.vwaitNe a x b m k, .ne, fun i => decide (word i ≠ vb.elem i))],
        let all := ∀ i, active i = true → e.2.2 i = true
        (s.cur.progress = {} → s.cur.capturedHere = none → va.tag ∈ [Tag.i64, .n64] → vb.tag ∈ [Tag.i64, .n64] →
          (all → returns (exec e.1 s) fun _ => false) ∧
          (¬ all → limit.toNat ≤ s.shore.toNat → returns (exec e.1 s) fun i => !e.2.2 i) ∧
          (¬ all → s.shore.toNat < limit.toNat → ∃ u, exec e.1 s = .next u ∧
            u.cur = { s.cur.hold (s.capture [limit]) with wait := .vwait e.2.1 a b m k limit } ∧ u.bare = s.bare ∧
            s.sameMemory u)) ∧
        (s.cur.place ≠ .absent → s.cur.wait = .vwait e.2.1 a b m k deadline →
          (s.issue [deadline]).operands = [deadline] → (s.issue [deadline]).cw = s.cur.cw →
          (all → returns (exec (.vwaitWake s.cur.uid) s) fun _ => false) ∧
          (¬ all → deadline.toNat ≤ s.shore.toNat → returns (exec (.vwaitDeadline s.cur.uid) s) fun i => !e.2.2 i))

/-! Context maps, pools and windows -/

/-- `mapget` and VXLT (R321, R323, R326) on a machine at rest: a position leads to its block entry, or to none beyond the
length. VXLT gives the addresses, and without `.ff` traps at the lowest position without one; with `.ff` it stops there. That
their reads of the map allocate in no cache is the model's reading (notes/assumptions/27.md). -/
def Obligations.MapTranslations : Prop :=
  ∀ (s : State) (v : MapView) (d a b : BitVec 5) (m : BitVec 3) (r : Nat → Option Word),
    s.Rests → s.HasView (s.x a) v →
    (∀ e, s.Mapped v (s.x b).toNat e → Completes s (exec (.mapget d a b) s) (s.cur.pc + 4) (s.cur.setX d (BitVec.ofNat 64 e))) ∧
    (v.hdr.fork ≤ (s.x b).toNat → v.length ≤ (s.x b).toNat →
      Completes s (exec (.mapget d a b) s) (s.cur.pc + 4) (s.cur.setX d 0)) ∧
    (let pos := (s.cur.getV b).elem
     let plane := (s.x (a + 1)).toNat
     let active := fun i => decide (i < s.cur.vlen) && (s.cur.getM m).getLsbD i
     let done := fun (o : Result) (n : Nat) (h : Hart) => ∃ w z,
       VReg.After w (s.cur.getV d) .n64 (fun i => if active i && decide (i < n) then (r i).map BitVec.toNat else none) ∧
       MaskAfter z (s.cur.getM m) s.cur.vlen (fun i => if active i then some (r i).isNone else none) ∧
       Completes s o (s.cur.pc + 4) { (h.setV d w).setM m z with vlen := n }
     s.VectorReady → (s.cur.getV b).tag.isInt = true → s.cur.Fits [(s.cur.getV b).tag, .n64] → plane ≤ v.hdr.geo.nplane →
       (∀ i, active i = true → s.Resolves v plane (pos i) (r i)) →
       ((∀ i, active i = true → r i ≠ none) →
         done (exec (.vxlt d a b m 0) s) s.cur.vlen s.cur ∧ done (exec (.vxlt d a b m 1) s) s.cur.vlen s.cur ∧
         (s.cur.cw.getLsbD 4 = true → s.holdsOpen s.cur.launch (s.cur.cw.toNat % 16) = true →
           done (exec (.vxltW d a b m 0) s) s.cur.vlen s.cur ∧ done (exec (.vxltW d a b m 1) s) s.cur.vlen s.cur)) ∧
       ∀ k, active k = true → r k = none → (∀ i, active i = true → r i = none → k ≤ i) →
         (s.cur.handles → Vectors s (exec (.vxlt d a b m 0) s) 0x08 (BitVec.ofNat 64 (pos k)) (BitVec.ofNat 12 k)) ∧
         ((∃ i, active i = true ∧ i < k) → done (exec (.vxlt d a b m 1) s) k s.cur))

/-- `mapset` and the versions of a map (R320, R326-R328), on a machine at rest. On a map whose working top page is its own the block
entry is written; the first publication writes the record and the header; taking and giving up the latest version counts its
references. On a map just published `mapset` first copies the top page, its fresh bits and record cleared, and copies the leaf page
or makes a new one, both pages from the pool. A later publication also links the version before it, and reclaims it where
nothing holds it: its page and the leaf pages that the new version does not use go to the pool in ascending order, or, if
the pool has no room for them, it is left pending. -/
def Obligations.MapUpdates : Prop :=
  ∀ (s : State) (h : MapHeader) (p q w1 w2 w3 w4 : Phys) (d a b c : BitVec 5) (k : BitVec 3) (st t n : Nat),
    let wrote := fun (o : Result) (g : Hart) (ws : List (Nat × List Byte)) => ∃ u, o = .next u ∧ StoreFrame s u g ∧ Wrote s u ws
    s.Rests → s.HasHeader h p →
    (let e := s.x b
     let i := (s.x a).toNat >>> h.geo.lgt
     let entry := BitVec.ofNat 64 (t / 65536 * 65536) + BitVec.ofNat 64 (8 * (i % 8192))
     s.x c = h.addr → h.vcur = 0 → bits e.toNat 1 15 = 0 → i / 8192 < 8184 →
       s.At .read (h.top + 0x24) w1 1 st → bit st 0 = false →
       s.At .read (h.top + BitVec.ofNat 64 (8 * (8 + i / 8192))) w2 8 t → bit t 0 = true → bit t 1 = true →
       s.Serves .write entry q → OnePiece entry 8 →
         wrote (exec (.mapset c a b) s) s.cur [(q.pa, leBytes 8 e.toNat)]) ∧
    (s.x a = h.addr → h.vcur = 0 → s.At .read (h.top + 0x24) (q.plus 0x24) 1 st → bit st 0 = false →
      (∀ o, o < 0x26 → s.Serves .write (h.top + BitVec.ofNat 64 o) (q.plus o) ∧ s.Serves .read (h.top + BitVec.ofNat 64 o) (q.plus o)) →
      (∀ o, o < 64 → s.Serves .write (h.addr + BitVec.ofNat 64 o) (p.plus o)) → Apart [(p.pa, 64), (q.pa, 64)] →
        wrote (exec (.mapverPub a k) s) s.cur
          [(q.pa, leBytes 4 (h.vnum + 1)), (q.pa + 4, leBytes 4 h.length), (q.pa + 8, leBytes 8 h.rstate.toNat),
           (q.pa + 0x10, leBytes 8 0), (q.pa + 0x18, leBytes 8 0), (q.pa + 0x20, leBytes 4 0),
           (q.pa + 0x24, [1, k.setWidth 8]), (p.pa + 0x28, leBytes 8 (h.top + 1).toNat), (p.pa + 0x24, leBytes 4 (h.vnum + 1))]) ∧
    (let page := h.vcur - 1
     h.vcur ≠ 0 → s.At .read (page + 0x20) q 4 n → s.Serves .write (page + 0x20) q →
       s.At .read (page + 0x10) w1 8 0 → s.At .read (page + 0x24) w2 1 st → bit st 2 = false →
       (∃ scope, s.At .read (page + 0x25) w3 1 scope) → Apart [(q.pa, 4), (w1.pa, 8)] → Apart [(q.pa, 4), (w2.pa, 1)] →
       (s.x a = h.addr → n ≠ 2 ^ 32 - 1 →
         wrote (exec (.mapverAcq d a) s) (s.cur.setX d h.vcur) [(q.pa, leBytes 4 (n + 1))]) ∧
       (s.x a = h.vcur → isVersion h.vcur = true → n ≠ 0 → (∃ w, s.At .read page w4 8 w) →
         (∃ w5, s.At .read (page + 0x28) w5 8 h.addr.toNat) →
         wrote (exec (.mapverRel a) s) s.cur [(q.pa, leBytes 4 (n - 1))])) ∧
    ∀ (pool : Pool) (pp top made leaf fresh : Phys) (r1 r2 : Word) (slots : Nat → Phys),
      let i := (s.x a).toNat >>> h.geo.lgt
      let page := h.vcur - 1
      let kept := [(p.pa, 64), (pp.pa, 24), (top.pa, 65536)]
      pool.addr = h.pool → s.HasPool pool pp → s.PageAt .read h.top top → s.PageAt .write h.top top →
      (∀ o, o < 64 → s.Serves .write (h.addr + BitVec.ofNat 64 o) (p.plus o)) →
      (let t := s.pointer top (i / 8192)
       let place := 8 * (8 + i / 8192)
       let entry := 8 * (i % 8192)
       s.x c = h.addr → h.vcur = h.top + 1 → bit (leNat (s.homeRead (top.pa + 0x24) 1)) 0 = true →
         bit (leNat (s.homeRead (top.pa + 0x24) 1)) 2 = false → leNat (s.homeRead (top.pa + 0x10) 8) = 0 →
         bits (s.x b).toNat 1 15 = 0 → i / 8192 < 8184 → 2 ≤ pool.count →
         s.At .read (pool.slot (pool.count - 1)) w1 8 r1.toNat → s.At .read (pool.slot (pool.count - 2)) w2 8 r2.toNat →
         s.PageAt .write r1 made → s.PageAt .read r1 made → s.PageAt .write r2 fresh →
         (bit t 0 = true → s.PageAt .read (BitVec.ofNat 64 (t / 65536 * 65536)) leaf) →
         Apart (kept ++ [(w1.pa, 8), (w2.pa, 8), (made.pa, 65536), (fresh.pa, 65536)]) →
         (bit t 0 = true → Apart [(leaf.pa, 65536), (p.pa, 64), (pp.pa, 24), (made.pa, 65536), (fresh.pa, 65536)]) →
           wrote (exec (.mapset c a b) s) s.cur
             [(pp.pa, leBytes 8 (pool.count - 2)), (p.pa + 0x10, leBytes 8 r1.toNat),
              (made.pa, (upTo 65536).map fun o =>
                if place ≤ o ∧ o < place + 8 then (leBytes 8 (r2.toNat + 3)).getD (o - place) 0
                else if o < 0x28 ∨ 0x30 ≤ o ∧ o < 0x40 then 0
                else if 0x40 ≤ o ∧ o % 8 = 0 then s.homeByte (top.pa + o) &&& 0xFD
                else s.homeByte (top.pa + o)),
              (fresh.pa, (upTo 65536).map fun o =>
                if entry ≤ o ∧ o < entry + 8 then (leBytes 8 (s.x b).toNat).getD (o - entry) 0
                else if bit t 0 = true then s.homeByte (leaf.pa + o) else 0)]) ∧
      ∀ (ver : Phys) (pages : List Nat),
        let version := fun (prev : Nat) => [(top.pa, leBytes 4 (h.vnum + 1)), (top.pa + 4, leBytes 4 h.length),
          (top.pa + 8, leBytes 8 h.rstate.toNat), (top.pa + 0x10, leBytes 8 prev), (top.pa + 0x18, leBytes 8 0),
          (top.pa + 0x20, leBytes 4 0), (top.pa + 0x24, [1, k.setWidth 8]), (p.pa + 0x28, leBytes 8 (h.top + 1).toNat),
          (p.pa + 0x24, leBytes 4 (h.vnum + 1)), (ver.pa + 0x18, leBytes 8 (h.top + 1).toNat)]
        let refs := leNat (s.homeRead (ver.pa + 0x20) 4)
        let state := fun (bit : Nat) => [(ver.pa + 0x24, [s.homeByte (ver.pa + 0x24) ||| BitVec.ofNat 8 bit])]
        let published := wrote (exec (.mapverPub a k) s) s.cur
        s.x a = h.addr → h.vcur ≠ 0 → bit (leNat (s.homeRead (top.pa + 0x24) 1)) 0 = false →
          s.PageAt .read page ver → s.PageAt .write page ver → leNat (s.homeRead (ver.pa + 0x10) 8) = 0 →
          (∀ n, n ∈ pages ↔ n = page.toNat ∨ ∃ j, j < 8184 ∧ bit (s.pointer ver j) 0 = true ∧
            s.pointer ver j / 65536 ≠ s.pointer top j / 65536 ∧ n = s.pointer ver j / 65536 * 65536) →
          pages.Pairwise (· < ·) →
          (∀ j, j < pages.length → s.Serves .write (pool.slot (pool.count + j)) (slots j) ∧ OnePiece (pool.slot (pool.count + j)) 8) →
          Apart (kept ++ (ver.pa, 65536) :: (upTo pages.length).map fun j => ((slots j).pa, 8)) →
            (refs ≠ 0 → published (version h.vcur.toNat ++ state 2)) ∧
            (refs = 0 → pool.cap < pool.count + pages.length → published (version h.vcur.toNat ++ state 6)) ∧
            (refs = 0 → pool.count + pages.length ≤ pool.cap →
              published (version 0 ++ state 2 ++ [(pp.pa, leBytes 8 (pool.count + pages.length))] ++
                (upTo pages.length).map fun j => ((slots j).pa, leBytes 8 (pages.getD j 0))))

/-- BLK (R330, R338) on a machine at rest: `balloc` takes the block on top of the stack, or gives 0; under a valid `cw` it also
records an arena block as a draft of the window; `bfree` pushes a block on a pool with room. -/
def Obligations.BlockPools : Prop :=
  ∀ (s : State) (q : Pool) (p t w0 w2 w3 w4 : Phys) (d a b : BitVec 5) (blk st : Nat),
    let wrote := fun (o : Result) (g : Hart) (ws : List (Nat × List Byte)) =>
      Apart (ws.map fun w => (w.1, w.2.length)) → ∃ u, o = .next u ∧ StoreFrame s u g ∧ Wrote s u ws
    s.Rests → s.HasPool q p →
    (s.x a = q.addr → q.count ≠ 0 → s.At .read (q.slot (q.count - 1)) t 8 blk →
      (s.cur.cw.getLsbD 4 = false →
        wrote (exec (.balloc d a) s) (s.cur.setX d (BitVec.ofNat 64 blk)) [(p.pa, leBytes 8 (q.count - 1))]) ∧
      ∀ r, let w := s.cur.cw.toNat % 16
        let draft := st / 256 % 256
        s.cur.cw.getLsbD 4 = true → s.recordPage s.cur.launch w = some r → s.At .ownRead (r + 0x18) w0 2 st →
          bit st 1 = false → draft < 4 → s.arenaPage (s.cur.agent s.cur.cw) (BitVec.ofNat 64 blk) w = true →
          s.Serves .ownWrite (r + BitVec.ofNat 64 (0x80 + 8 * draft)) w2 →
          s.Serves .ownWrite (r + BitVec.ofNat 64 (0xA0 + 8 * draft)) w3 → s.Serves .ownWrite (r + 0x19) w4 →
          r.toNat % 65536 = 0 →
            wrote (exec (.balloc d a) s) (s.cur.setX d (BitVec.ofNat 64 blk))
              [(p.pa, leBytes 8 (q.count - 1)), (w2.pa, leBytes 8 (blk / 65536 * 65536 + w * 4 + 3)),
               (w3.pa, leBytes 8 q.addr.toNat), (w4.pa, [BitVec.ofNat 8 (draft + 1)])]) ∧
    (s.x a = q.addr → q.count = 0 → s.cur.cw.getLsbD 4 = false →
      Completes s (exec (.balloc d a) s) (s.cur.pc + 4) (s.cur.setX d 0)) ∧
    (s.x b = q.addr → s.x a ≠ 0 → (s.x a).toNat % 65536 = 0 → q.count < q.cap → s.Serves .write (q.slot q.count) t →
      OnePiece (q.slot q.count) 8 →
        wrote (exec (.bfree a b) s) s.cur [(t.pa, leBytes 8 (s.x a).toNat), (p.pa, leBytes 8 (q.count + 1))])

/-- LINS and VLIN (R331-R333) on a machine at rest: `lnset` makes a node valid with its parent, `lnget` reads it, `vlin` finds the
keys among the ancestors of each query, and `vlin.b` the key positions of a branch without ancestors. That their reads of the map
and of the window's record allocate in no cache is the model's reading (notes/assumptions/27.md). -/
def Obligations.LineageMasks : Prop :=
  ∀ (s : State) (r : Word) (N : Nat → Nat) (P : Nat → Phys) (K : MapView) (V : Nat → MapView) (p w0 : Phys)
      (x d a b v : BitVec 5) (m : BitVec 3) (st : Nat),
    let isWindow := fun (xw : Word) => xw.toNat < 16 ∧ s.recordPage s.cur.launch xw.toNat = some r ∧
      ∀ n, n < 64 → s.At .ownRead (r + BitVec.ofNat 64 (0x40 + n)) (P n) 1 (N n)
    let valid := fun n => bit (N n) 6
    let bits_ := fun (o : Result) (f : Nat → Bool) =>
      MaskDone s o m s.cur.vlen (fun i => if (s.cur.getM m).getLsbD i then some (f i) else none) 0
    let q := (s.cur.getV a).elem
    let k := (s.cur.getV v).elem
    s.Rests →
    (isWindow (s.x x) → s.At .ownRead (r + 0x18) w0 1 st → bit st 1 = false → (s.x a).toNat < 64 → (s.x b).toNat < 64 →
      valid (s.x a).toNat = false → s.x b = s.x a ∨ valid (s.x b).toNat = true → s.Serves .ownWrite (r + 0x40 + s.x a) p →
      (isTile p.pa = true → p.attr.mode .fresh = .home) →
        ∃ u, exec (.lnset x a b) s = .next u ∧ u.cur.pc = s.cur.pc + 4 ∧ u.cur.wait = .awake ∧
          u.cur.bare = { s.cur with links := u.cur.links, early := u.cur.early }.bare ∧
          Stores s u s.cur.core (p.attr.mode .fresh) p.pa [BitVec.ofNat 8 (64 + (s.x b).toNat)]) ∧
    (isWindow (s.x a) →
      Completes s (exec (.lnget d a b) s) (s.cur.pc + 4) (s.cur.setX d
        (if (s.x b).toNat < 64 && valid (s.x b).toNat then BitVec.ofNat 64 (N (s.x b).toNat % 128) else 0))) ∧
    (s.VectorReady → (s.cur.getV a).tag.isInt = true → (s.cur.getV v).tag.isInt = true →
      s.cur.Fits [(s.cur.getV a).tag, (s.cur.getV v).tag] →
      (isWindow (s.x b) → ∃ f : Nat → Bool, bits_ (exec (.vlin v a b m) s) f ∧
        ∀ i, f i = true ↔ q i < 64 ∧ k i < 64 ∧ valid (q i) = true ∧
          ∃ n, n < 64 ∧ n.repeat (fun x => N x % 64) (q i) = k i) ∧
      (s.HasView (s.x b) K →
        (∀ i, i < s.cur.vlen → (s.cur.getM m).getLsbD i = true →
          s.HasView (BitVec.ofNat 64 (q i)) (V i) ∧ (V i).hdr.parent = 0) →
        bits_ (exec (.vlinB v a b m) s) fun i => (V i).hdr.addr == K.hdr.addr && decide (k i < (V i).length)))

/-- SWIN (R341-R346) on a machine at rest: `swopen` opens the window of an arena page on a header, `swstat` reports it (some
values of its fields where its record cannot be read, notes/assumptions/26.md), `swdrop` of a window without drafts clears and
closes it, `swcommit` seals it and gives the commit to the engine. The engine copies the tokens of a path, here its root alone
with the tail block mapped, publishes the map, gives the draft block back, clears the record and closes the window. The identity
that an owner field holds is a free value (notes/assumptions/15.md). -/
def Obligations.Windows : Prop :=
  ∀ (s : State) (h : MapHeader) (r : Word) (p q w0 w1 w2 : Phys) (d a b : BitVec 5) (g : BitVec 6) (k : BitVec 3)
      (w st blen : Nat) (N : Nat → Nat),
    let close := fun (t : State) => t.onLaunch s.cur.launch (Launch.setDir w none)
    let left := if s.cur.cw.toNat % 16 = w then s.cur.cw &&& 15 else s.cur.cw
    s.Rests →
    (s.HasHeader h p → s.x a = h.addr → s.x b = r → r.toNat % 65536 = 0 → q.arena = some w →
      s.recordPage s.cur.launch w = none →
      (∀ o, o < 0xE0 → s.Serves .ownWrite (r + BitVec.ofNat 64 o) (q.plus o) ∧ s.Serves .ownRead (r + BitVec.ofNat 64 o) (q.plus o)) →
      (∀ o, 0x18 ≤ o → o < 0xE0 → s.homeByte (q.pa + o) = 0) →
        ∃ u, exec (.swopen d a b) s = .next u ∧
          StoreFrame (s.onLaunch s.cur.launch (Launch.setDir w (some r))) u (s.cur.setX d (BitVec.ofNat 64 w)) ∧
          Wrote s u [(q.pa, leBytes 8 h.addr.toNat), (q.pa + 8, leBytes 4 h.length),
            (q.pa + 0x10, leBytes 8 (Config.launchIdentity s.cur.launch).toNat), (q.pa + 0x18, [1])]) ∧
    ((s.x a).toNat < 16 → s.recordPage s.cur.launch (s.x a).toNat = none →
      Completes s (exec (.swstat d a) s) (s.cur.pc + 4) (s.cur.setX d 0)) ∧
    (s.x a = BitVec.ofNat 64 w → w < 16 → s.recordPage s.cur.launch w = some r → r.toNat % 65536 = 0 →
      s.At .ownRead (r + 0x18) w0 2 st →
      (s.At .ownRead (r + 8) w1 4 blen → (∃ z, s.At .ownRead (r + 0x40) w2 64 z) →
        (∀ n, n < 64 → N n = (s.homeByte (w2.pa + n)).toNat) →
        Completes s (exec (.swstat d a) s) (s.cur.pc + 4) (s.cur.setX d (BitVec.ofNat 64
          (st % 4 + st / 256 % 8 * 4 + ((List.range 64).filter fun n => bit (N n) 6).length * 256 + blen * 2 ^ 32)))) ∧
      (bit st 1 = false →
        (st / 256 % 256 = 0 → s.Serves .ownWrite (r + 0x18) q →
          ∃ u, exec (.swdrop a) s = .next u ∧ StoreFrame (close s) u { s.cur with cw := left } ∧
            Wrote s u [(q.pa, List.replicate 0xC8 0)]) ∧
        ((s.x b).toNat < 64 → (s.cur.tag g.toNat).busy = false → s.fifoFull s.cur.core = false → s.cur.capturedHere = none →
          s.At .ownRead (r + 0x18) q 1 (st % 256) → s.Serves .ownWrite (r + 0x18) q →
          ∃ u, exec (.swcommit k a b g) s = .next u ∧ Wrote s u [(q.pa, [3])] ∧ u.cur.pc = s.cur.pc + 4 ∧
            u.cur.wait = .awake ∧ u.cur.cw = left ∧ u.cur.x = s.cur.x ∧ u.cur.v = s.cur.v ∧
            (u.cur.tag g.toNat).busy = true ∧ u.cur.tagmap = s.cur.tagmap &&& ~~~(1#64 <<< g.toNat) ∧
            u.cmds = s.cmds ++ [s.cur.command s.nextUid g.toNat k false s.cur.cw (.commit w (s.x b).toNat)]))) ∧
    ((s.x a).toNat < 16 → ∃ u v, exec (.swstat d a) s = .next u ∧ u.cur.pc = s.cur.pc + 4 ∧ u.cur.x = (s.cur.setX d v).x ∧
      v &&& 0xFFFF80E0 = 0) ∧
    ∀ (c : Cmd) (pool : Pool) (at_ : CommitPlaces) (node draft t e : Nat),
      s.cmds.find? (fun x => x.uid == c.uid) = some c → c.kind = .commit w node → s.mayComplete c = true → c.hart = s.cur.uid →
      c.core = s.cur.core → c.sup = s.cur.status.sup → c.cw = s.cur.cw → s.cur.place ≠ .absent →
      (∀ z f, s.cur.wait ≠ .leaving z f) → w < 16 → s.recordPage s.cur.launch w = some r →
      s.Commits h r node pool at_ draft t e →
        ∃ u, exec (.swcommitPerform c.uid) s = .next u ∧ u.recordPage s.cur.launch w = none ∧
          u.cmds = s.cmds.filter (fun x => x.uid != c.uid) ∧ u.cur.pc = s.cur.pc ∧ u.cur.wait = s.cur.wait ∧
          u.cur.bare = { s.cur.tagDone c.tag (s.shore.setWidth 63) s.cycle with links := u.cur.links }.bare ∧
          Wrote s u (s.commitWrites h pool at_ draft c.scope)

/-! Matrix mode -/

/-- MCTL, MMOV and MLS (R143-R145, R153-R155): `menter` binds tiles and sets `vl` from the operand tag, `mexit` gives them up,
`mzero` clears one; the moves write a row or a column of 64 elements, of which an index from 64 on reads zeros and writes
nothing; where the enabled rows translate, `mld` reads a tile's rows and `mst` writes them, 8 bytes a unit. -/
def Obligations.MatrixMoves : Prop :=
  (∀ (s : State) (t n : BitVec 4) (a b : BitVec 5) (m : BitVec 3) (code : BitVec 4),
     let tile := s.cur.getT t
     let k := (s.x b).toNat
     let on := fun j => (s.cur.getM m).getLsbD j
     (s.cur.status.matrix = false → s.cur.granted = true → n.toNat + 1 ≤ (s.recordOf s.cur).ntile →
       s.cur.ltag.isOperand = true → s.pendingGroups s.cur.uid = [] → ∃ h : Hart,
         Completes s (exec (.menter n) s) (s.cur.pc + 4) { s.cur with
           v := h.v, vbad := h.vbad, tiles := h.tiles, tbad := h.tbad, bound := n.toNat + 1
           vlen := 64 * s.cur.ltag.depth, vlmax := 64 * s.cur.ltag.depth, status := { s.cur.status with matrix := true } } ∧
         (∀ i : BitVec 4, h.getT i = { img := 0, tag := if i.toNat ≤ n.toNat then .f32 else .dead }) ∧
         ∀ r : BitVec 5, h.getV r = if 24 ≤ r.toNat then { img := 0, tag := .dead } else s.cur.getV r) ∧
     (s.cur.status.matrix = true →
       Completes s (exec .mexit s) (s.cur.pc + 4) { s.cur with
         tiles := Vector.replicate 16 { img := 0, tag := .dead }, tbad := [], bound := 0, vlen := 0, vlmax := 0, ltag := .dead
         status := { s.cur.status with matrix := false } } ∧
       (tile.tag ≠ .dead → Completes s (exec (.mzero t) s) (s.cur.pc + 4) (s.cur.setT t { img := 0, tag := .f32 }))) ∧
     (s.MatrixReady → a.toNat < 24 → tile.tag ≠ .dead →
       VectorDone s (exec (.mrow t a b m) s) a tile.tag.tag 64
         (fun j => if on j then some ⟨if k < 64 then tile.at_ k j else 0, 0⟩ else none) 0 ∧
       VectorDone s (exec (.mcol t a b m) s) a tile.tag.tag 64
         (fun j => if on j then some ⟨if k < 64 then tile.at_ j k else 0, 0⟩ else none) 0 ∧
       (let res := Tag.ofCode code.toNat
        let active := activeAt (res == .e2m1) 64 (s.cur.getM m)
        code ≠ 0 → 64 * res.width ≤ 2048 * s.cur.vgrant →
          VectorDone s (exec (.mcvt t a b code m) s) a res 64
            (fun j => if active j then
              some (if k < 64 then convertElem tile.tag.tag res (vcvtMode s.cur.fmode 0 false) (tile.at_ k j) else ⟨0, 0⟩)
             else none) 0) ∧
       ((s.cur.getV a).tag ∈ [Tag.f32, .i32, .n32] →
         let put := fun (o : Result) (hit : Nat → Nat → Option Nat) => ∃ w : Tile,
           (∀ i j, i < 64 → j < 64 → w.at_ i j = match hit i j with
             | some e => if on e then (s.cur.getV a).elem e else tile.at_ i j
             | none => tile.at_ i j) ∧
           w.tag = (if k < 64 then (if (s.cur.getV a).tag = .f32 then .f32 else .i32) else tile.tag) ∧
           Completes s o (s.cur.pc + 4) (s.cur.setT t w)
         put (exec (.mputr t a b m) s) (fun i j => if i = k then some j else none) ∧
         put (exec (.mputc t a b m) s) (fun i j => if j = k then some i else none)))) ∧
  ∀ (s : State) (t : BitVec 4) (a b : BitVec 5) (m : BitVec 3) (p : Nat → Phys),
    let tile := s.cur.getT t
    let active := tileUnits (s.cur.getM m)
    let addr := fun u => s.x a + BitVec.ofNat 64 (u / 32) * s.x b + BitVec.ofNat 64 (8 * (u % 32))
    s.MatrixReady → s.Rests → s.cur.progress = {} → s.cut = none → tile.tag ≠ .dead → (s.x a).toNat % 8 = 0 →
      (s.x b).toNat % 8 = 0 →
      ((∀ u, active u = true → s.ServesUnit .read (addr u) (p u)) →
        ∃ (r : State) (w : Tile), exec (.mld t a b m) s = .next r ∧ r.cur.pc = s.cur.pc + 4 ∧ r.cur.wait = .awake ∧
          s.sameMemory r ∧ w.tag = tile.tag ∧
          (∀ u, u < 2048 → bits w.img.toNat (64 * u) 64 =
            if active u then leNat (s.homeRead (p u).pa 8) else bits tile.img.toNat (64 * u) 64) ∧
          r.bare = { s with
            cur := s.cur.setT t w, l1 := r.l1, l2 := r.l2, hbm := r.hbm, visitors := r.visitors, choices := r.choices, draws := r.draws }.bare) ∧
      ((∀ u, active u = true → s.ServesUnit .write (addr u) (p u) ∧ (p u).pa % 8 = 0 ∧
          (isTile (p u).pa = true → (p u).attr.mode .fresh = .home)) →
        (∀ u v, active u = true → active v = true → u ≠ v → (p u).pa / 8 ≠ (p v).pa / 8) →
        ∃ r, exec (.mst t a b m) s = .next r ∧ StoreFrame s r s.cur ∧
          (∀ u, active u = true → ∀ j, j < 8 → r.readByte s.cur.core ((p u).attr.mode .fresh) ((p u).pa + j) =
            (leBytes 8 (bits tile.img.toNat (64 * u) 64)).getD j 0) ∧
          ∀ c, (∀ u, active u = true → c < (p u).pa ∨ (p u).pa + 8 ≤ c) →
            r.readByte s.cur.core .fresh c = s.readByte s.cur.core .fresh c)

/-- MOPA (R146-R152): when every check of R151 passes and the matrix unit issues it, repetition `k` adds the exact products of R61
to the elements of its tile that the mask enables and gives the tile its tag; after the last one the instruction completes,
else `vstart` names the next. One repetition a step is the model's choice (notes/assumptions/21.md). On integers an element is its
sum with the products modulo 2^32; on finite values it is the exact scaled sum rounded once to f32 with RNE, without UF; a NaN among
the element, the operands and the scales gives the default NaN. -/
def Obligations.MatrixProducts : Prop :=
  (∀ (s : State) (t : BitVec 4) (a b : BitVec 5) (rep : BitVec 4) (src : BitVec 2) (m : BitVec 3) (ops : List Word) (k : Nat),
     let pair := fun (r : BitVec 5) => [s.x r, s.x (r + 1)]
     let mk := s.cur.getM m
     let d := t + BitVec.ofNat 4 k
     let old := s.cur.getT d
     let runs := fun (i : Instr) (ra mx : Bool) =>
       let A := (mopaOperands a b src ra mx ops).1
       let B := (mopaOperands a b src ra mx ops).2
       let named := A.regs rep.toNat ++ B.regs rep.toNat
       let inside := fun (o : MopaOperand) => match o.src with
         | .inl _ => True
         | .inr x => x.base % 64 = 0 ∧ x.rowPitch % 4 = 0 ∧
           ∀ q r, q ≤ rep.toNat → r < 64 → x.row (o.at_ q) r + 4 ≤ (s.allocation s.cur).2
       let ta := s.cur.operandTag A k
       let tb := s.cur.operandTag B k
       let res := fun i j => mopaResult ta tb (old.at_ i j) (rowElems ta ((s.operandRows s.cur A k).1.getD i 0))
         (rowElems tb ((s.operandRows s.cur B k).1.getD j 0)) (s.cur.scaleOf A k i) (s.cur.scaleOf B k j)
       let on := fun i j => mk.getLsbD i && mk.getLsbD (64 + j)
       (∀ r ∈ named, r.toNat < 24) → t.toNat + rep.toNat < s.cur.bound → inside A → inside B →
       (∀ q, q ≤ rep.toNat → tagsMeet (s.cur.operandTag A q) (s.cur.operandTag B q) = true ∧
         (mx = true → (s.cur.operandTag A q).isScaled = true ∧ (s.cur.operandTag B q).isScaled = true ∧
           s.cur.scalesOk A rep.toNat = true ∧ s.cur.scalesOk B rep.toNat = true)) →
         ∃ (u : State) (w : Tile) (fl : BitVec 6), exec i s = .next u ∧
           (∀ i j, i < 64 → j < 64 → w.at_ i j = if on i j then (res i j).val % 2 ^ 32 else old.at_ i j) ∧
           w.tag = (if ta.isInt then .i32 else .f32) ∧
           (∀ n, fl.getLsbD n = true ↔ ∃ i j, i < 64 ∧ j < 64 ∧ on i j = true ∧ (res i j).fl.getLsbD n = true) ∧
           u.cur.bare = { s.cur.setT d w with
             fflags := s.cur.fflags ||| fl, tide := u.cur.tide, progress := u.cur.progress
             early := u.cur.early }.bare ∧
           s.sameMemory u ∧ u.rest.map Hart.unseen = s.rest.map Hart.unseen ∧ u.launches = s.launches ∧
           (k = rep.toNat → u.cur.pc = s.cur.pc + 4 ∧ u.cur.progress = {}) ∧
           (k < rep.toNat → u.cur.pc = s.cur.pc ∧ u.cur.progress.vstart = BitVec.ofNat 12 (k + 1) ∧
             u.cur.progress.addr = some s.cur.pc ∧ u.cur.progress.cap.operands = ops)
     s.MatrixReady → s.poison = [] → s.issued.contains s.cur.core = false → s.classify ≠ .held → k ≤ rep.toNat →
       ((s.cur.progress = {} ∧ k = 0 ∧
           ops = (if src.getLsbD 0 then pair a else []) ++ (if src.getLsbD 1 then pair b else [])) ∨
         (s.cur.progress.addr = some s.cur.pc ∧ s.cur.progress.vstart = BitVec.ofNat 12 k ∧
           ops = s.cur.progress.cap.operands)) →
       runs (.mopa t a b rep src m) false false ∧ runs (.mopaRa t a b rep src m) true false ∧
       (src = 0 → runs (.mopaMx t a b rep m) false true ∧ runs (.mopaMxRa t a b rep m) true true)) ∧
  (∀ (ta tb : Tag) (acc : Nat) (x y : List Nat) (sa sb : Option Int), ta.isInt = true → tb.isInt = true →
     let r := mopaResult ta tb acc x y sa sb
     r.fl = 0 ∧ r.val < 2 ^ 32 ∧
     ((r.val : Int) - (acc + ((x.zip y).map fun e => ta.int e.1 * tb.int e.2).sum)) % 2 ^ 32 = 0) ∧
  ∀ (ta tb : Tag) (fa fb : Fmt) (acc : Nat) (x y : List Nat), ta.fmt = some fa → tb.fmt = some fb → acc < 2 ^ 32 →
    x.length = y.length → (∀ e ∈ x, e < 2 ^ fa.width) → (∀ e ∈ y, e < 2 ^ fb.width) →
    (∀ (p q : Int) (sign : Bool) (m : Nat) (e : Int),
      Fmt.f32.isFinite acc = true → x.all fa.isFinite = true → y.all fb.isFinite = true → m ≠ 0 →
      Fmt.f32.value acc + 2 ^ (p + q) * ((x.zip y).map fun e => fa.value e.1 * fb.value e.2).sum =
        (if sign then -1 else 1) * ((m : Rat) * 2 ^ e) →
      let r := Fmt.f32.round {} sign m e
      mopaResult ta tb acc x y (some p) (some q) = ⟨r.val, r.fl &&& ~~~flUF⟩) ∧
    ∀ (sa sb : Option Int),
      (Fmt.f32.isNanCode acc = true ∨ x.any fa.isNanCode = true ∨ y.any fb.isNanCode = true ∨ sa = none ∨ sb = none) →
      (mopaResult ta tb acc x y sa sb).val = 0x7FC00000

/-! The copy engine, tags and streams -/

/-- CPY (R261-R265, R90, R142): with the tag free, room in the FIFO and the checks passed, a push gives the engine its command and
makes the tag busy; `cpyv` and `cpyc` also mark the registers to come. A busy tag or a full FIFO puts the hart to sleep with what it
has captured, before or after its checks, and so does a target of `cpyc` that stands inside an instruction or has the register
pending; its wake pushes once nothing is in the way, a `cpyc` after checks made afresh. That `cpyc` marks its register at the push,
its target awake between two instructions, is the model's reading (notes/assumptions/24.md). -/
def Obligations.CopyCommands : Prop :=
  ∀ (s : State) (d a b : BitVec 5) (n : BitVec 3) (g : BitVec 6) (o : BitVec 1) (k : BitVec 2),
    let sc := cpyScope k
    let given := fun (t : State) (kind : CmdKind) =>
      { t with
        cmds := s.cmds ++ [s.cur.command s.nextUid g.toNat sc (o == 1) s.cur.cw kind]
        nextUid := s.nextUid + 1 }
    let pushed := { s with cur := s.cur.pushed g sc }
    let reads := fun (va len : Nat) (kind : Kind) => len ≠ 0 → ∀ v ∈ pageStarts va len,
      inWindow (BitVec.ofNat 64 v) = false ∧ ∃ p, s.Serves kind (BitVec.ofNat 64 v) p
    let named := fun (rs : List Nat) => s.cur.granted = true ∧ s.pendingGroups s.cur.uid = [] ∧
      (s.cur.status.matrix = true → ∀ r ∈ rs, r < 24)
    let fits := fun (t : Tag) => t ≠ .dead ∧ (s.cur.status.matrix = false → s.cur.Fits [t])
    let ready := s.Quiet ∧ s.cur.Delivers ∧ s.fifoFull s.cur.core = false ∧ (s.cur.tag g.toNat).busy = false
    let asleep := fun (i : Instr) (xs : List Word) (kind : CmdKind) (checked : Bool) (vs : BitVec 5) (x : Word) =>
      exec i s = .next (s.onCur fun h => { h.hold (s.capture xs) with wait := .push g.toNat sc (o == 1) kind checked vs x })
    let busy := s.cur.capturedHere = none ∧ (s.cur.tag g.toNat).busy = true
    let full := s.cur.capturedHere = none ∧ (s.cur.tag g.toNat).busy = false ∧ s.fifoFull s.cur.core = true
    let pushes := fun (i : Instr) (kind : CmdKind) (t : State) =>
      s.cur.capturedHere = none → ready → CompletesAs (exec i s) (s.cur.pc + 4) (given t kind)
    let wakes := fun (kind : CmdKind) (checked : Bool) (vs : BitVec 5) (x : Word) (t : State) =>
      ∀ cap : Captured, s.cur.place ≠ .absent → ready → s.cur.wait = .push g.toNat sc (o == 1) kind checked vs x →
        s.cur.capturedHere = some cap → cap.cw = s.cur.cw →
        CompletesAs (exec (.copyPushWake s.cur.uid) s) (s.cur.pc + 4) (given t kind)
    (let kind := CmdKind.copy (s.x d) (s.x a) (s.x b).toNat
     let i := Instr.cpy d a b g o k
     (busy → asleep i [s.x d, s.x a, s.x b] kind false 0 0) ∧ wakes kind true 0 0 pushed ∧
     ((s.x b).toNat ≤ 0x1000000 → reads (s.x a).toNat (s.x b).toNat .read →
       reads (s.x d).toNat (s.x b).toNat (engineKind s.cur.cw) →
       pushes i kind pushed ∧ (full → asleep i [s.x d, s.x a, s.x b] kind true 0 0) ∧ wakes kind false 0 0 pushed)) ∧
    (let t := s.cur.ltag
     let kind := CmdKind.fill d.toNat (n.toNat + 1) (s.x a) t s.cur.vlen
     let i := Instr.cpyv d a n g o k
     d.toNat + n.toNat < 32 → (busy → asleep i [s.x a] kind false 0 0) ∧
     ∃ vs : Vector VReg 32,
       (∀ r : Fin 32, vs[r] = if d.toNat ≤ r.val ∧ r.val ≤ d.toNat + n.toNat then { img := 0, tag := t } else s.cur.v[r]) ∧
       let bad := s.cur.vbad.filter fun p => !(decide (d.toNat ≤ p.1) && decide (p.1 ≤ d.toNat + n.toNat))
       let marked := { s with cur := { s.cur.pushed g sc with v := vs, vbad := bad } }
       wakes kind true 0 0 marked ∧
       (named [d.toNat + n.toNat] → fits t → reads (s.x a).toNat ((n.toNat + 1) * fillBytes t s.cur.vlen) .read →
         pushes i kind marked ∧ (full → asleep i [s.x a] kind true 0 0) ∧ wakes kind false 0 0 marked)) ∧
    (∀ target, s.copyTarget (s.x a) d = some target → s.hart? target.uid = some target →
       let v := s.cur.getV b
       let kind := CmdKind.register target.uid d.toNat v.img v.tag s.cur.vlen ((s.cur.vbad.filter fun p => p.1 == b.toNat).map (·.2))
       let i := Instr.cpyc d a b g o k
       let marked := pushed.onHart target.uid fun h => h.setV d { img := 0, tag := v.tag }
       let stands := target.wait = .awake ∧ target.midway = false ∧ ∀ p ∈ s.pendingGroups target.uid, p.1 ≠ d.toNat
       (busy → asleep i [s.x a] kind false b (s.x a)) ∧
       (named [b.toNat, d.toNat] → fits v.tag →
         (full ∨ (s.cur.capturedHere = none ∧ (s.cur.tag g.toNat).busy = false ∧ ¬stands) → asleep i [s.x a] kind false b (s.x a)) ∧
         (stands → pushes i kind marked ∧ wakes kind false b (s.x a) marked))) ∧
    (let size := (s.allocation s.cur).2
     let kind := CmdKind.tileBuffer (s.x a).toNat (s.x d).toNat (s.x b).toNat
     let i := Instr.cpycTb d a b g o k
     let xs := [s.x d, s.x a, s.x b]
     (busy → asleep i xs kind false 0 (s.x a)) ∧ wakes kind true 0 (s.x a) pushed ∧
     ∀ l, s.launch? s.cur.launch = some l → (s.x a).toNat < 256 → l.allocs.any (fun c => c.core == (s.x a).toNat) = true →
       (s.x a).toNat ≠ s.cur.core → (s.x d).toNat + (s.x b).toNat ≤ size →
       pushes i kind pushed ∧ (full → asleep i xs kind true 0 (s.x a)) ∧ wakes kind false 0 (s.x a) pushed) ∧
    ∀ cap kind checked vs x, s.cur.place ≠ .absent → s.cur.wait = .push g.toNat sc (o == 1) kind checked vs x →
      s.cur.capturedHere = some cap → (s.cur.tag g.toNat).busy = true → kind = .copy (s.x d) (s.x a) (s.x b).toNat →
      ∃ t, exec (.copyPushWake s.cur.uid) s = .next t ∧ t.cur.wait = s.cur.wait ∧ t.cur.capturedHere = some cap ∧
        { t with cur := { t.cur with captured := [] } } = { s with cur := { s.cur with captured := [] } }

/-- COPY_COMPLETE (R258, R259, R262-R265): on a machine at rest a copy within a page on either side moves its bytes, a fill from
within a page gives the hart its registers, a `cpyc` gives the target its register, and a `cpyc.tb` writes the other core's
allocation; the command is gone, and its tag is free, stamped and noted in `tagmap`. A source that does not translate, or a
register in error, ends the command with its cause and address recorded and nothing written. A command that may not complete yet
changes nothing, and a number that names none is no event of the part (notes/assumptions/6.md). -/
def Obligations.CopiesComplete : Prop :=
  ∀ (s : State) (c : Cmd) (p q : Phys),
    let u := { s with cmds := s.cmds.filter fun x => x.uid != c.uid }
    let stamp := s.shore.setWidth 63
    let done := s.cur.tagDone c.tag stamp s.cycle
    let failed := fun (cause : BitVec 8) (va : Word) => { u with cur := s.cur.tagFailed c.tag stamp s.cycle cause va }
    let own := c.core = s.cur.core ∧ c.sup = s.cur.status.sup ∧ c.cw = s.cur.cw ∧ c.loaded = []
    (s.cmds.find? (fun x => x.uid == c.uid) = none → exec (.copyComplete c.uid) s = .fault .noSuchAgent) ∧
    (s.cmds.find? (fun x => x.uid == c.uid) = some c → s.mayComplete c = false → exec (.copyComplete c.uid) s = .next s) ∧
    (s.cmds.find? (fun x => x.uid == c.uid) = some c → s.mayComplete c = true → c.hart = s.cur.uid → s.cur.place ≠ .absent →
      (∀ r f, s.cur.wait ≠ .leaving r f) → c.pieces = [] →
      (∀ dst src len, c.kind = .copy dst src len → own → s.Rests → src.toNat % 65536 + len ≤ 65536 → dst.toNat % 65536 + len ≤ 65536 →
        (∀ i, i < len → s.Serves .read (src + BitVec.ofNat 64 i) (p.plus i) ∧
          s.Serves (engineKind s.cur.cw) (dst + BitVec.ofNat 64 i) (q.plus i)) → Apart [(p.pa, len), (q.pa, len)] →
        ∃ t, exec (.copyComplete c.uid) s = .next t ∧ Wrote s t [(q.pa, s.homeRead p.pa len)] ∧ t.cmds = u.cmds ∧
          t.cur.pc = s.cur.pc ∧ t.cur.bare = { done with links := t.cur.links }.bare) ∧
      (∀ vd n src tag vl, c.kind = .fill vd n src tag vl → own → s.Rests → vd + n ≤ 32 → tag.width * vl ≤ 16384 →
        (let len := fillBytes tag vl
         src.toNat % 65536 + n * len ≤ 65536 → (∀ i, i < n * len → s.Serves .read (src + BitVec.ofNat 64 i) (p.plus i)) →
         (∀ j, j < n → s.cur.getV (BitVec.ofNat 5 (vd + j)) = { img := 0, tag := tag }) →
         ∃ t, exec (.copyComplete c.uid) s = .next t ∧ Wrote s t [] ∧ t.cmds = u.cmds ∧ t.cur.pc = s.cur.pc ∧
           (∀ j, j < n → t.cur.getV (BitVec.ofNat 5 (vd + j)) =
             { img := BitVec.ofNat 16384 (leNat (s.homeRead (p.pa + j * len) len) % 2 ^ (tag.width * vl)), tag := tag }) ∧
           (∀ r : BitVec 5, r.toNat < vd ∨ vd + n ≤ r.toNat → t.cur.getV r = s.cur.getV r) ∧
           t.cur.bare = { done with v := t.cur.v, vbad := t.cur.vbad }.bare)) ∧
      (∀ core off len l x y, c.kind = .tileBuffer core off len → own → s.Rests → s.launch? s.cur.launch = some l →
        l.allocs.find? (fun z => z.core == c.core) = some x → l.allocs.find? (fun z => z.core == core) = some y →
        core < 256 → 1024 * y.base + off + len ≤ 0x180000 →
        (let from_ := tileAddr s.pkg c.core (1024 * x.base + off)
         let into := tileAddr s.pkg core (1024 * y.base + off)
         Apart [(from_, len), (into, len)] →
         ∃ t, exec (.copyComplete c.uid) s = .next t ∧ Wrote s t [(into, s.homeRead from_ len)] ∧ t.cmds = u.cmds ∧
           t.cur.pc = s.cur.pc ∧ t.cur.bare = { done with links := t.cur.links }.bare)) ∧
      (∀ dst src len cause, c.kind = .copy dst src len → own → len ≠ 0 →
        s.xlate (s.cur.agent s.cur.cw) .read src = (.error cause, s) → exec (.copyComplete c.uid) s = .next (failed cause src)) ∧
      ∀ target vd image tag vl bad g, c.kind = .register target vd image tag vl bad → s.hart? target = some g → target ≠ s.cur.uid →
        (∀ r f, g.wait ≠ .leaving r f) →
        ((∃ b ∈ bad, b < 64 ∧ b < fillBytes tag vl) → exec (.copyComplete c.uid) s = .next (failed 0x0D 0)) ∧
        (bad = [] → g.getV (BitVec.ofNat 5 vd) = { img := 0, tag := tag } → g.vbad = [] →
        ∃ t g', exec (.copyComplete c.uid) s = .next t ∧ t.cmds = u.cmds ∧ t.cur = done ∧
          t.hart? target = some g' ∧
          g' = g.setV (BitVec.ofNat 5 vd)
            { img := BitVec.ofNat 16384 (image.toNat % 2 ^ min (tag.width * vl) (2048 * g.vgrant)), tag := tag }))

/-- TAGW (R268, R257) on a machine at rest: `twany` gives the completed tags of its mask, `twall` waits for all of them, both
report the lowest error not yet reported, and sleep while nothing is to be said; `tfind`, `tclr` and `tstamp` act at once; `tclr`
leaves the bit of a tag that has completed in the same cycle (R258). -/
def Obligations.TagWaits : Prop :=
  ∀ (s : State) (d a : BitVec 5) (g : BitVec 6) (mask : Word),
    let m := s.x a
    let clean := fun (w : Word) => ∀ n, n < 64 → w.getLsbD n = true → (s.cur.tag n).errpend = false
    let idle := fun (w : Word) => ∀ n, n < 64 → w.getLsbD n = true → (s.cur.tag n).busy = false
    let reported := fun (o : Result) (w : Word) => ∀ n, n < 64 → w.getLsbD n = true → (s.cur.tag n).errpend = true →
      (∀ i, i < n → w.getLsbD i = true → (s.cur.tag i).errpend = false) → s.cur.handles → (s.cur.tag n).cause ≠ 0x0D →
      Vectors s o (s.cur.tag n).cause (s.cur.tag n).addr (BitVec.ofNat 12 n) ∧
      ∀ t, o = .next t → (t.cur.tag n).errpend = false
    let any := fun (o : Result) (w : Word) => (s.cur.tagmap &&& w ≠ 0 ∨ idle w) →
      (clean (s.cur.tagmap &&& w) → Completes s o (s.cur.pc + 4) (s.cur.setX d (s.cur.tagmap &&& w))) ∧
      reported o (s.cur.tagmap &&& w)
    let all := fun (o : Result) (w : Word) => idle w →
      (clean (s.cur.tagmap &&& w) → Completes s o (s.cur.pc + 4) s.cur) ∧ reported o (s.cur.tagmap &&& w)
    s.Rests →
      any (exec (.twany d a) s) m ∧ all (exec (.twall a) s) m ∧
      (s.cur.tagmap &&& m = 0 → ¬ idle m → Sleeps s (exec (.twany d a) s) (.tagAny d m)) ∧
      (¬ idle m → Sleeps s (exec (.twall a) s) (.tagAll m)) ∧
      (s.cur.place ≠ .absent →
        (s.cur.wait = .tagAny d mask → any (exec (.tagWaitWake s.cur.uid) s) mask) ∧
        (s.cur.wait = .tagAll mask → all (exec (.tagWaitWake s.cur.uid) s) mask)) ∧
      (s.cur.tagmap &&& m = 0 → Completes s (exec (.tfind d a) s) (s.cur.pc + 4) (s.cur.setX d (BitVec.allOnes 64))) ∧
      (∀ n, n < 64 → (s.cur.tagmap &&& m).getLsbD n = true → (∀ i, i < n → (s.cur.tagmap &&& m).getLsbD i = false) →
        (s.cur.tag n).errpend = false → Completes s (exec (.tfind d a) s) (s.cur.pc + 4) (s.cur.setX d (BitVec.ofNat 64 n))) ∧
      (∃ w : Word, (∀ n, n < 64 → w.getLsbD n = (s.cur.tagmap.getLsbD n &&
          !(m.getLsbD n && (s.cur.tag n).doneAt != some s.cycle))) ∧
        Completes s (exec (.tclr a) s) (s.cur.pc + 4) { s.cur with tagmap := w }) ∧
      Completes s (exec (.tstamp d g) s) (s.cur.pc + 4) (s.cur.setX d
        (BitVec.ofNat 64 ((if (s.cur.tag g.toNat).err then 2 ^ 63 else 0) + (s.cur.tag g.toNat).time.toNat)))

/-- Streams (R269-R274): `scfg` configures a slot from a sound descriptor, a fetch that is due lands in the strip buffer, `vlds`
reads the elements that are there, any value of the tag where the program has disturbed one, sets `vl`, and leaves no core an
older byte of them than it could find before, or it sleeps until one is there; `sadv` moves the cursor past them, and `sclose`
ends the stream; `sadv` on a closed slot traps with cause 0x0C. That a slot captures `cw` and the privilege at `scfg`,
that a fetch lands one element a step, and what counts as an undisturbed one, are the model's readings (notes/assumptions/25.md). -/
def Obligations.Streams : Prop :=
  ∀ (s : State) (d a : BitVec 5) (n : BitVec 2) (k : BitVec 3) (p : Phys) (w0 w1 w2 w3 : Nat),
    let q := s.cur.slot n
    let va := s.x a
    let tag := Tag.ofCode (w2 / 2 ^ 32 % 256)
    let sbuf := w2 / 2 ^ 48 % 2 ^ 16
    let width := q.tag.width / 8
    let place := fun i => tileAddr s.pkg s.cur.core ((s.allocation s.cur).1 + q.offset i)
    let len := min s.cur.vlen q.avail.toNat
    let stored := fun i => s.homeRead (place (q.cursor.toNat + i)) width
    let taken := fun (o : Result) => ∃ (u : State) (v : VReg) (f : Nat → Nat),
      v.After (s.cur.getV d) q.tag (fun i => if i < len then some (f i) else none) ∧ (∀ i, f i < 2 ^ q.tag.width) ∧
      (∀ i, i < len → s.undisturbed n q i (stored i) = true → f i = leNat (stored i)) ∧
      ((∀ i, i < len → s.undisturbed n q i (stored i) = true) → u.draws = s.draws) ∧
      o = .next u ∧ u.cur.pc = s.cur.pc + 4 ∧ u.cur.wait = .awake ∧ (s.Tidy → s.freshens u) ∧
      u.bare = { s with
        l1 := u.l1, visitors := u.visitors
        cur := { (s.cur.setV d v).setSlot n { q with last := BitVec.ofNat 32 len } with vlen := len, early := u.cur.early } }.bare
    let dry := q.avail = 0 ∧ q.cursor.toNat < q.length.toNat
    (s.Rests → va.toNat % 32 = 0 → s.At .read va p 8 w0 → s.At .read (va + 8) (p.plus 8) 8 w1 →
      s.At .read (va + 16) (p.plus 16) 8 w2 → s.At .read (va + 24) (p.plus 24) 8 w3 →
      1 ≤ w2 / 2 ^ 32 % 256 → w2 / 2 ^ 32 % 256 ≤ 14 → w2 / 2 ^ 41 % 2 ^ 7 = 0 → 1 ≤ sbuf → sbuf ≤ 1536 → w3 % 1024 = 0 →
      w3 < 2 ^ 32 → w0 % (tag.width / 8) = 0 → w1 % (tag.width / 8) = 0 → w3 + 1024 * sbuf ≤ (s.allocation s.cur).2 →
      ∃ t, exec (.scfg a k n) s = .next t ∧ t.cur.pc = s.cur.pc + 4 ∧ t.cur.wait = .awake ∧ s.sameMemory t ∧
        t.bare = { s with
          cur := s.cur.setSlot n
            { cfg := true, base := BitVec.ofNat 64 w0, stride := BitVec.ofNat 64 w1, length := BitVec.ofNat 32 w2, tag := tag,
              descending := w2.testBit 40, sbuf := BitVec.ofNat 16 sbuf, soff := BitVec.ofNat 32 w3, scope := k,
              cw := s.cur.cw, sup := s.cur.status.sup }
          l1 := t.l1, visitors := t.visitors }.bare) ∧
    (q.cfg = true → Completes s (exec (.sadv n) s) (s.cur.pc + 4)
      (s.cur.setSlot n { q with cursor := q.cursor + q.last, avail := q.avail - q.last, last := 0, landed := q.landed.drop q.last.toNat })) ∧
    (q.cfg = false → s.cur.handles → Vectors s (exec (.sadv n) s) 0x0C 0 0) ∧
    Completes s (exec (.sclose n) s) (s.cur.pc + 4)
      (if q.cfg then s.cur.setSlot n { q with cfg := false, avail := 0, landed := [] } else s.cur) ∧
    (s.cur.place ≠ .absent → s.cur.isResident = true → q.due = true → s.Rests → q.cw = s.cur.cw → q.sup = s.cur.status.sup →
      s.At .read (q.address (q.cursor.toNat + q.avail.toNat)) p width w0 →
      (∀ i, i < width → isTile (place (q.cursor.toNat + q.avail.toNat) + i) = true) →
      ∃ t, exec (.streamFetchLand s.cur.uid n) s = .next t ∧ t.cur.pc = s.cur.pc ∧ t.cur.x = s.cur.x ∧ t.cur.v = s.cur.v ∧
        Wrote s t [(place (q.cursor.toNat + q.avail.toNat), s.homeRead p.pa width)] ∧
        t.cur.slot n = { q with avail := q.avail + 1, landed := q.landed ++ [(w0, p.pa)] }) ∧
    (s.VectorReady → q.cfg = true → s.cur.Fits [q.tag] → s.poison = [] →
      (¬ dry → taken (exec (.vlds d n) s)) ∧
      (dry → q.fault = none →
        exec (.vlds d n) s = .next (s.onCur fun h => { h.hold (s.issue []) with wait := .vlds d n })) ∧
      (¬ dry → s.cur.place ≠ .absent → s.cur.wait = .vlds d n → taken (exec (.vldsWake s.cur.uid) s)))

/-! Queues, barriers, the lead and tides -/

/-- QUEUE (R249-R251) for a hart that need not leave its core, with nothing cached and no remote write lost: `qbind` binds a queue
to a pair on the core, `qpush` appends where there is room, `qpop` takes the oldest entry, a full or empty queue puts the hart to
sleep, the wake looks again, and `qstat` reads the queue's word; a hart that is not the queue's traps with cause 0x0B. -/
def Obligations.Queues : Prop :=
  ∀ (s : State) (d a b : BitVec 5) (q : BitVec 3) (x : QReg) (v : Word),
    let core := s.cur.core
    let p := (s.x a).toNat
    let c := (s.x b).toNat
    let bound := s.queue? core q = some x
    let becomes := fun (o : Result) (h : Hart) (y : QReg) => ∃ qs,
      CompletesAs o (s.cur.pc + 4) { s with cur := h, queues := qs } ∧
      (∃ u, o = .next u ∧ u.queue? core q = some y ∧ ∀ core' q', (core', q') ≠ (core, q) → u.queue? core' q' = s.queue? core' q')
    (p ≠ c → s.placedHere s.cur p = true → s.placedHere s.cur c = true → s.cur.index = p ∨ s.cur.index = c →
      (s.queue? core q = none → becomes (exec (.qbind a b q) s) s.cur
        { core := some core, q := q, launch := s.cur.launch, prod := p, cons := c }) ∧
      (bound → x.launch = s.cur.launch → x.prod = p → x.cons = c → Completes s (exec (.qbind a b q) s) (s.cur.pc + 4) s.cur) ∧
      (bound → x.launch = s.cur.launch → (x.prod, x.cons) ≠ (p, c) → x.prod = s.cur.index ∨ x.cons = s.cur.index →
        becomes (exec (.qbind a b q) s) s.cur
          { core := some core, q := q, launch := s.cur.launch, prod := p, cons := c })) ∧
    (s.Quiet → s.cur.early = [] → s.cur.lostWrites = [] → s.mustLeave s.cur = false → bound →
      (x.producedBy s.cur = true → x.data.length < 32 →
        becomes (exec (.qpush a q) s) s.cur { x with data := x.data ++ [s.x a] } ∧
        (s.cur.place ≠ .absent → s.cur.wait = .qpush q v →
          becomes (exec (.queueWake s.cur.uid) s) s.cur { x with data := x.data ++ [v] })) ∧
      (x.producedBy s.cur = true → 32 ≤ x.data.length → Sleeps s (exec (.qpush a q) s) (.qpush q (s.x a))) ∧
      (x.consumedBy s.cur = true → x.data = [] → Sleeps s (exec (.qpop d q) s) (.qpop q d)) ∧
      (∀ w rest, x.consumedBy s.cur = true → x.data = w :: rest →
        becomes (exec (.qpop d q) s) (s.cur.setX d w) { x with data := rest } ∧
        (s.cur.place ≠ .absent → s.cur.wait = .qpop q d →
          becomes (exec (.queueWake s.cur.uid) s) (s.cur.setX d w) { x with data := rest }))) ∧
    (s.cur.handles →
      (s.queue? core q = none ∨ bound ∧ x.producedBy s.cur = false → Vectors s (exec (.qpush a q) s) 0x0B 0 0) ∧
      (s.queue? core q = none ∨ bound ∧ x.consumedBy s.cur = false → Vectors s (exec (.qpop d q) s) 0x0B 0 0)) ∧
    (let stat := fun (n : Nat) => Completes s (exec (.qstat d q) s) (s.cur.pc + 4) (s.cur.setX d (BitVec.ofNat 64 n))
     (s.queue? core q = none → stat 0) ∧ (bound → x.launch ≠ s.cur.launch → stat 64) ∧
     (bound → x.launch = s.cur.launch →
       stat (x.data.length + 64 + (if x.prod = s.cur.index then 128 else 0) + if x.cons = s.cur.index then 256 else 0)))

/-- SYNC (R357, R358, R361, R363) for a hart whose launch lives, with nothing cached and no remote write lost: `barinit` sets an
instance up, where this cycle has neither arrival nor drop; an arrival counts, a drop leaves, where no arrival of this cycle was
before it; the one check, once the operations of the cycle are applied, ends the phase that is complete and lets its sleepers
return; a wait returns once its phase is over and sleeps before, a group's wake lets its sleepers return, and `sigadd` adds to a
word in one access. -/
def Obligations.Barriers : Prop :=
  ∀ (s : State) (l : Launch) (a b : BitVec 5) (k : BitVec 3) (i : BitVec 4) (p : Phys),
    let slot := (s.barOf s.cur i).1
    let x := (s.barOf s.cur i).2
    let h := s.cur.barState i x
    let after : HartBar := { h with phase := x.p, pending := true, member := true }
    let completes := fun (o : Result) (c : BitVec 32 × BitVec 32 × BitVec 32 × BitVec 32) (hb : HartBar) => ∃ u,
      o = .next u ∧ u.cur.pc = s.cur.pc + 4 ∧ u.cur.wait = .awake ∧ BarrierActs s u i c hb
    let canArrive := x.e ≠ 0 ∧ h.dropped = false ∧ ¬(h.pending = true ∧ h.phase = x.p)
    let counts := (x.e, x.a + 1, x.d, x.p)
    let dueAfter := fun (o : Result) => ∀ u, o = .next u → (u.barOf u.cur i).2.due.isSome = true
    let checked := s.checkInst s.cur.launch i x.key
    let syncing := s.cur.arrivedHere = some i
    let count := s.x a
    (s.launch? s.cur.launch = some l → s.cur.place ≠ .absent → s.Quiet → s.cur.early = [] → s.cur.lostWrites = [] →
      (k.toNat ≤ 4 → 1 ≤ count.toNat → count.toNat ≤ 2048 → k = slot.scope ∨ (∀ y ∈ slot.insts, y.key = x.key ∨ y.e = 0) →
        x.e = 0 ∨ (x.a = 0 ∧ x.d = 0) → x.arrivedAt ≠ some s.cycle → x.droppedAt ≠ some s.cycle → ∃ u, exec (.barinit k a i) s = .next u ∧ u.cur.pc = s.cur.pc + 4 ∧
          u.cur.wait = .awake ∧ BarrierActs s u i (count.setWidth 32, 0, 0, x.p) s.cur.bars[i.toNat] ∧
          (u.barOf u.cur i).1.scope = k ∧ (u.barOf u.cur i).2.init = x.init + 1) ∧
      (s.NoSleepers i → s.cur.wait = .awake →
        (canArrive → completes (exec (.barArrive i) s) counts after ∧ dueAfter (exec (.barArrive i) s) ∧
          (¬ syncing → ∃ u, exec (.barSync i) s = .next u ∧ u.cur.wait = .barrier i ∧ u.cur.arrivedHere = some i ∧
            u.cur.pc = s.cur.pc ∧ BarrierActs s u i counts after ∧ (u.barOf u.cur i).2.due.isSome = true)) ∧
        (x.e ≠ 0 → h.dropped = false → x.arrivedAt ≠ some s.cycle → completes (exec (.barDrop i) s)
          (if h.pending = true ∧ h.phase = x.p then (x.e, x.a, x.d + 1, x.p) else (x.e - 1, x.a, x.d, x.p))
          { h with dropped := true } ∧ dueAfter (exec (.barDrop i) s)) ∧
        (x.due.isSome = true → BarrierActs s checked i x.checked s.cur.bars[i.toNat] ∧ (checked.barOf checked.cur i).2.due = none)) ∧
      (s.launches = [l] → (∀ j : Fin 16, ∀ y ∈ (l.bar (BitVec.ofNat 4 j)).insts, y.due.isSome = true → BitVec.ofNat 4 j = i ∧ y = x) →
        slot.insts = [x] → x.due.isSome = true →
        s.nextCycle.launches = checked.launches ∧
        (s.nextCycle.cur :: s.nextCycle.rest).map (fun g => (g.uid, g.pc, g.wait, g.bars)) =
          (checked.cur :: checked.rest).map fun g => (g.uid, g.pc, g.wait, g.bars)) ∧
      (∀ g, s.cur.wait = .awake → x.due.isSome = true → x.e ≠ 0 → x.e ≤ x.a → slot.scope ≠ 4 →
        (∀ y ∈ slot.insts, y.groups = []) → s.rest = [g] → g.uid ≠ s.cur.uid → g.isResident = true →
        g.launch = s.cur.launch → g.wait = .barrier i → (s.barOf g i).2.key = x.key → (g.barState i x).phase = x.p →
        g.early = [] →
        ∃ g', checked.cur.uid = s.cur.uid ∧ checked.cur.pc = s.cur.pc ∧ checked.rest = [g'] ∧
          g'.uid = g.uid ∧ g'.wait = .awake ∧ g'.pc = g.pc + 4 ∧ g'.bars[i.toNat].pending = false) ∧
      (h.pending = false → Completes s (exec (.barWait i) s) (s.cur.pc + 4) s.cur) ∧
      (h.pending = true → h.phase ≠ x.p → Completes s (exec (.barWait i) s) (s.cur.pc + 4)
        { s.cur with bars := s.cur.bars.set i.toNat { h with pending := false } }) ∧
      (h.pending = true → h.phase = x.p →
        exec (.barWait i) s = .next (s.onCur fun c => { c with wait := .barrier i })) ∧
      (syncing → h.pending = true → h.phase ≠ x.p →
        Completes s (exec (.barSync i) s) (s.cur.pc + 4)
          { s.cur with bars := s.cur.bars.set i.toNat { h with pending := false } }) ∧
      (∀ z t y, s.cur.wait = .barrier i → (s.launch? s.cur.launch).map (fun l => (l.bar i).insts) = some [y] →
        y.groups = [{ phase := s.cur.bars[i.toNat].phase, size := z, group := s.cur.clusterNo / z, time := t
                      sleepers := [s.cur.uid] }] → t ≤ s.shore.toNat →
        ∃ u, exec (.barrierGroupWake s.cur.launch i (s.cur.clusterNo / z)) s = .next u ∧
          u.cur.pc = s.cur.pc + 4 ∧ u.cur.wait = .awake ∧ u.cur.bars[i.toNat].pending = false ∧
          (u.launch? s.cur.launch).map (fun l => (l.bar i).insts) = some [{ y with groups := [] }])) ∧
    (s.Rests → (s.x a).toNat % 8 = 0 → s.Serves .atomic (s.x a) p →
      ∃ u, exec (.sigadd a b k) s = .next u ∧ u.cur.pc = s.cur.pc + 4 ∧ u.cur.wait = .awake ∧
        u.cur.bare = { s.cur with links := u.cur.links, early := u.cur.early }.bare ∧
        Wrote s u [(p.pa, leBytes 8 ((leNat (s.homeRead p.pa 8) + (s.x b).toNat) % 2 ^ 64))])

/-- The lead (R17, R236, R245, R308): its step changes no register of its trailing hart and, as far as the hart finds bytes by its
own writes and the homes, no byte of memory; with room in the caches it only fills them. An instruction that it executes works on
its own copies; at code that it may not read, or on a page not yet accessed, it stops. `lsync` and `lon` restart it with the
hart's registers, `loff` ends it. -/
def Obligations.LeadHart : Prop :=
  ∀ (s : State) (d a b : BitVec 5) (x y : Word) (p : Phys),
    let l := s.cur.lead
    let w := (s.codeWord s.cur.launch p.pa).1
    let code := s.peekXlate (s.cur.agent 0) .fetch l.pc
    let restarted := fun (o : Result) => ∃ t, o = .next t ∧ t.cur.lead.pc = s.cur.pc + 4 ∧ t.cur.lead.x = s.cur.x ∧
      t.cur.lead.xValid = BitVec.allOnes 32 ∧ t.cur.lead.c = s.cur.c ∧ t.cur.lead.cValid = BitVec.allOnes 8 ∧
      t.cur.lead.vlTag = s.cur.ltag ∧ t.cur.lead.vlLen = some s.cur.vlen ∧ t.cur.lead.vlMax = some s.cur.vlmax ∧
      t.cur.lead.buffer = [] ∧ t.cur.leadStopped = false
    let runs := s.cur.isResident = true ∧ s.cur.leadActive = true ∧ s.cur.leadStopped = false ∧ l.buffer.length < 512 ∧
      l.pc &&& 3 = 0
    (s.cur.place ≠ .absent → (∀ n ∈ l.vlLen, n ≤ 2048) →
      ∃ t, exec (.leadIssue s.cur.uid) s = .next t ∧ t.cur.pc = s.cur.pc ∧ t.cur.wait = s.cur.wait ∧
        t.bare = { s with
          cur := { s.cur with links := t.cur.links }, rest := t.rest, l1 := t.l1, l2 := t.l2, hbm := t.hbm,
          visitors := t.visitors, tlb := t.tlb, recoded := t.recoded, poison := t.poison, choices := t.choices,
          draws := t.draws }.bare ∧
        t.rest.map Hart.unlinked = s.rest.map Hart.unlinked ∧ s.onlyFills t s.cur.core) ∧
    (runs → code = some (p, true) → s.badByte s.cur.core .home p.pa 4 = false → fld w 26 6 = 1 →
      decodeMajor01 w = .ok (.add d a b) → l.getX a = some x → l.getX b = some y → d ≠ 0 →
        ∃ t, exec (.leadIssue s.cur.uid) s = .next t ∧ t.cur.lead.getX d = some (x + y) ∧ t.cur.lead.pc = l.pc + 4) ∧
    (runs → code = none ∨ code = some (p, false) →
      ∃ t, exec (.leadIssue s.cur.uid) s = .next t ∧ t.cur.leadStopped = true ∧ t.cur.lead.pc = l.pc) ∧
    Completes s (exec .lsync s) (s.cur.pc + 4) s.cur ∧ (s.cur.leadActive = true → restarted (exec .lsync s)) ∧
    Completes s (exec .loff s) (s.cur.pc + 4) { s.cur with leadActive := false } ∧
    Completes s (exec .lon s) (s.cur.pc + 4) { s.cur with leadActive := true } ∧ restarted (exec .lon s)

/-- Tides (R368-R377): `tide` declares a window at the first slot of eight cycles, within 600 cycles of the request, that has room
for its intensity, and takes that much of its room; `tidewait` sleeps until the onset; `tideq` reads the accounts; windows begin
and end, an interval charges what was not used, and the totals of a partition are reported. That a declaration out of the order of
cores and slots within one cycle waits for the next, and how `unused` is charged once where a window ends inside an interval, are
the model's readings (notes/assumptions/22.md). -/
def Obligations.Tides : Prop :=
  ∀ (s : State) (d a b : BitVec 5) (n : BitVec 6) (x : Declaration) (core began : Nat) (part : BitVec 16) (q : Partition),
    let t := s.cur.tide
    let asked := min (s.x a).toNat 4194303
    let dur := min (s.x b).toNat 16777215
    let k := min n.toNat (s.recordOf s.cur).tide
    let full := ((s.part? s.cur.part).map (·.acting.ramp)).getD 0 == 1
    let o := if full then max asked 3000 else asked
    let die := s.cur.core / 32
    let sel := fun (v : BitVec 6) (w : Word) => Completes s (exec (.tideq d v) s) (s.cur.pc + 4) (s.cur.setX d w)
    (dur = 0 ∨ k = 0 → Completes s (exec (.tide d a b n) s) (s.cur.pc + 4)
      { s.cur.setX d (BitVec.ofNat 64 asked) with tide := { t with decl := none } }) ∧
    (dur ≠ 0 → k ≠ 0 → s.outOfTurn = true → exec (.tide d a b n) s = .next s) ∧
    (dur ≠ 0 → k ≠ 0 → s.outOfTurn = false → ∃ g rooms, o ≤ g ∧ g ≤ o + 600 ∧ (s.cycle + g) % 8 = 0 ∧
      (∀ m, m % 8 = 0 → s.cycle + o ≤ m → m < s.cycle + g → s.room die m < k) ∧
      ((k : Int) ≤ s.room die (s.cycle + g) ∨ s.cycle + o + 600 < s.cycle + g + 8) ∧
      (∀ die' m, s.cycle ≤ m → ({ s with rooms := rooms } : State).room die' m =
        s.room die' m - if die' = die ∧ m = s.cycle + g then (k : Int) else 0) ∧
      CompletesAs (exec (.tide d a b n) s) (s.cur.pc + 4)
        { s with
          rooms := rooms
          asked := (die, s.cur.seat) :: s.asked
          cur := { s.cur.setX d (BitVec.ofNat 64 g) with
            tide := { t with
              decl := some { issue := s.cycle, onset := g, duration := dur, intensity := k, fullReady := full, active := g == 0 }
              stagger := t.stagger + BitVec.ofNat 64 (g - asked)
              stamp := s.shore } } }) ∧
    ((t.decl = none ∨ t.decl = some x ∧ x.start ≤ s.cycle) →
      Completes s (exec (.tidewait d) s) (s.cur.pc + 4) (s.cur.setX d 0)) ∧
    (t.decl = some x → s.cycle < x.start → Sleeps s (exec (.tidewait d) s) (.tidewait d s.cycle)) ∧
    (s.cur.place ≠ .absent → s.cur.wait = .tidewait d began → t.decl = some x → x.start ≤ s.cycle →
      Completes s (exec (.tidewaitOnset s.cur.uid) s) (s.cur.pc + 4) (s.cur.setX d (BitVec.ofNat 64 (s.cycle - began)))) ∧
    sel 0 t.declared ∧ sel 1 t.undeclared ∧ sel 2 t.throttled ∧ sel 3 t.stagger ∧ sel 4 t.unused ∧ sel 6 t.stamp ∧
    (t.decl = none → sel 5 0) ∧
    (t.decl = some x → x.start - s.cycle < 2 ^ 32 → sel 5 (BitVec.ofNat 64 ((x.start - s.cycle) * 2 ^ 32 +
      (if x.active then 64 else 32) + x.intensity))) ∧
    (s.cur.place ≠ .absent → t.decl = some x →
      (x.start ≤ s.cycle → exec (.tideWindowStart s.cur.uid) s =
        .next (s.onCur fun h => { h with tide := { t with decl := some { x with active := true } } })) ∧
      (x.over ≤ s.cycle → ∃ u, exec (.tideWindowEnd s.cur.uid) s = .next u ∧ u.cur.tide.decl = none ∧
        u.cur.tide.unused = t.unused + BitVec.ofNat 64 (t.coverSum / 16 - t.covered - t.charged) ∧
        u.cur.x = s.cur.x ∧ u.cur.pc = s.cur.pc ∧ u.rest = s.rest)) ∧
    (s.cycle % 64 = 0 → ∃ u, exec (.tideIntervalEnd core) s = .next u ∧ u.freeCount core = 0 ∧
      (s.cur.isResident = true → s.cur.core = core →
        u.cur.tide.unused = t.unused + BitVec.ofNat 64 (t.coverSum / 16 - t.covered - t.charged) ∧
        u.cur.tide.burst = (t.burst && t.undeclaredNow) ∧ u.cur.tide.coverSum = 0 ∧ u.cur.tide.covered = 0) ∧
      u.cur.x = s.cur.x ∧ u.cur.pc = s.cur.pc) ∧
    (s.lighthouse.phase = .running → s.part? part.toNat = some q → exec (.mgmtTideTotals part) s = .next { s with
      replies := s.replies ++ [.totals 0 q.declared q.undeclared q.throttled q.stagger q.unused] })

/-! Tasks and the scheduler -/

/-- `launch` and `spawn` (R276-R281) on a machine at rest: a record without a failure bit is enqueued, on its run queue or on the
launch's spawn queue, in whose area the part writes what it likes, and one with failure bits is counted at its completion counter;
on a full spawn queue the hart sleeps. The failure bits are those of R276 (which others a record of an unknown partition sets is
the model's choice, notes/assumptions/29.md). That no program has written a spawn queue area is assumed for `spawn` (R290). -/
def Obligations.Launches : Prop :=
  ∀ (s : State) (a : BitVec 5) (r : LaunchRec) (p q : Phys) (l : Launch) (x : SpawnQueue) (area : Nat → Phys),
    let old := leNat (s.homeRead q.pa 8)
    let new : Launch := { uid := s.nextUid, record := r }
    let counts := fun (o : Result) (f : Nat) => ∃ u, o = .next u ∧ u.cur.pc = s.cur.pc + 4 ∧ u.cur.wait = .awake ∧
      u.cur.bare = { s.cur with links := u.cur.links }.bare ∧ u.runq = s.runq ∧ u.launches = s.launches ∧
      Wrote s u [(q.pa, leBytes 8 ((old % 2 ^ 32 + 1) % 2 ^ 32 + 2 ^ 32 * (old / 2 ^ 32 ||| f)))]
    let spawned := fun (o : Result) (r : LaunchRec) => ∃ u kept, o = .next u ∧ u.cur.pc = s.cur.pc + 4 ∧ u.cur.wait = .awake ∧
      s.homesWritten u { s with launches := u.launches, nextUid := s.nextUid + 1 } ∧
      (∀ c, (∀ k, k < x.capacity → c < (area (64 * (k + 1))).pa ∨ (area (64 * (k + 1))).pa + 64 ≤ c) →
        c < (area 0x0C).pa ∨ (area 0x0C).pa + 52 ≤ c → u.homeByte c = s.homeByte c) ∧
      u.launch? s.nextUid = some { new with record := r } ∧
      (u.launch? s.cur.launch).bind (·.spawn) = some { x with
        records := x.records ++ [s.nextUid], depthFirst := x.depthFirst || decide (x.high < x.records.length + 1), area := kept }
    (∀ (r : LaunchRec) (sup : Bool) (own : Option Nat) (header : Bool),
      let bit := (s.failureBits r sup own header).testBit
      let cores := fun (z : Partition) => z.cores.length + (z.otherPackages.map (·.2)).sum
      s.failureBits r sup own header < 256 ∧ (bit 0 = true ↔ 32 ≤ r.flags.toNat ∨ r.resv ≠ 0) ∧
      (bit 2 = true ↔ s.part? r.part = none ∨ ∃ o ∈ own, o ≠ r.part) ∧
      (bit 3 = true ↔ sup = false ∧ (r.flags.getLsbD 3 = true ∨ r.flags.getLsbD 4 = true)) ∧
      (bit 4 = true ↔ r.entry.toNat % 4 ≠ 0) ∧ (bit 6 = true ↔ header = false) ∧ (bit 7 = true ↔ r.spawnq.toNat % 64 ≠ 0) ∧
      ∀ z, s.part? r.part = some z →
        (bit 1 = false ↔
          1 ≤ r.nharts ∧ r.nharts ≤ 2048 * (z.otherPackages.length + if z.cores = [] then 0 else 1) ∧ 1 ≤ r.hpc ∧ r.hpc ≤ 8 ∧
          r.lgmin ≤ r.lgmax ∧ 1 ≤ r.lgmax ∧ r.lgmax ≤ 8 ∧ 1 ≤ r.lgw ∧ r.lgw ≤ 15 ∧ r.ntile ≤ 16 ∧ r.prio ≤ 7 ∧ r.tbuf ≤ 1536 ∧
          r.tide ≤ 16 ∧ 1 ≤ r.rad ∧ r.rad ≤ 64) ∧
        (bit 5 = true ↔ 16 < r.hpc * r.ntile ∨ 1536 < r.tbuf ∨ 8 < r.hpc * r.lgmin ∨
          r.flags.getLsbD 2 = true ∧ cores z < (r.nharts + r.hpc - 1) / r.hpc)) ∧
    (s.Rests →
      (s.HasRecord (s.x a) r p q →
        let bits := s.failureBits r s.cur.status.sup (if s.cur.status.sup then none else some s.cur.part) true
        (bits = 0 → ∃ u, exec (.launch a) s = .next u ∧ TaskFrame s u ∧ s.sameMemory u ∧ u.nextUid = s.nextUid + 1 ∧
          u.launches = s.launches ++ [new] ∧
          u.runq = s.runq ++ [{ part := r.part, cls := r.prio, launch := s.nextUid, since := s.shore }]) ∧
        (bits ≠ 0 → counts (exec (.launch a) s) bits)) ∧
      (s.launch? s.cur.launch = some l → l.spawn = some x → s.launch? s.nextUid = none → s.ServesArea l x.capacity area → s.AreasKept →
        (s.HasRecord (s.x a) r p q → s.cur.capturedHere = none →
          let bits := s.failureBits r s.cur.status.sup (some s.cur.part) true
          (bits = 0 → x.records.length < x.capacity → spawned (exec (.spawn a) s) r) ∧
          (bits = 0 → x.capacity ≤ x.records.length → ∃ u, exec (.spawn a) s = .next u ∧ u.cur.wait = .spawn r none ∧
            u.cur.pc = s.cur.pc ∧ u.cur.x = s.cur.x ∧ u.launches = s.launches ∧ s.sameMemory u) ∧
          (bits ≠ 0 → counts (exec (.spawn a) s) bits)) ∧
        (s.cur.place ≠ .absent → s.cur.wait = .spawn r none → x.records.length < x.capacity →
          spawned (exec (.spawnWake s.cur.uid) s) r)))

/-- `yield`, `exit` and `resume` (R282-R284): `yield` does nothing when no entry waits, else the hart leaves for its resume list;
`exit` frees the hart and counts it, and the last exit of a launch adds 1 to its completion counter, and
an exit that would meet an error in its release or its count traps before it changes anything; `resume` makes a parked
hart runnable. The privilege at which the counter is translated is the model's choice (notes/assumptions/29.md). -/
def Obligations.TaskControl : Prop :=
  ∀ (s : State) (a : BitVec 5) (l : Launch) (q : Phys) (h : Hart),
    let calm := s.pendingCmds s.cur.uid = false ∧ s.leavingError = none
    (s.noPreempt s.cur = true ∨ s.entryWaits = false → Completes s (exec .yield s) (s.cur.pc + 4) s.cur) ∧
    (s.noPreempt s.cur = false → s.entryWaits = true → calm → ∃ u, exec .yield s = .next u ∧ u.cur.place = .saved ∧
      u.cur.pc = s.cur.pc + 4 ∧ u.cur.x = s.cur.x ∧ u.cur.c = s.cur.c ∧ u.cur.v = s.cur.v ∧ u.cur.held = 0 ∧
      ∃ e ∈ u.resumeq, s.cur.uid ∈ e.harts ∧ e.part = s.cur.part) ∧
    (s.ownCmds s.cur.uid = true → exec .exit s = .next (s.onCur fun h => { h.hold (s.issue []) with wait := .exit })) ∧
    (∀ va, s.ownCmds s.cur.uid = false → s.lostCount.or s.releaseError = some va →
      exec .exit s = .next (s.takeTrap { cause := 0x0D, tval := va })) ∧
    (s.ownCmds s.cur.uid = false → s.queues = [] → s.launch? s.cur.launch = some l →
      (∀ i : Fin 16, s.cur.bars[i].member = false) → s.Rests → l.allocs = [] → l.stowed = [] →
      (l.exited + 1 < l.record.nharts → ∃ u, exec .exit s = .next u ∧ u.cur.place = .absent ∧
        u.launch? s.cur.launch = some { l with exited := l.exited + 1 } ∧
        (∀ c, u.homeByte c = s.homeByte c) ∧
        u.parts = s.parts.map fun p => if p.id == s.cur.part then p.addTide s.cur.tide.charge else p) ∧
      (l.exited + 1 = l.record.nharts → l.spawn = none → (∀ w : Fin 16, l.dir[w] = none) → l.record.done.toNat % 8 = 0 →
        (∀ m ∈ s.launches, m.uid = l.uid → m = l) →
        (∀ t : State, t.tlb = s.tlb → t.lighthouse = s.lighthouse →
          t.xlate { core := s.cur.core, part := l.record.part, launch := l.uid, sup := true, cw := 0 } .write l.record.done = (.ok q, t)) →
        ∃ u, exec .exit s = .next u ∧ u.cur.place = .absent ∧ u.launch? s.cur.launch = none ∧
          (let old := leNat (s.homeRead q.pa 8)
           Wrote s u [(q.pa, leBytes 8 ((old % 2 ^ 32 + 1) % 2 ^ 32 + 2 ^ 32 * (old / 2 ^ 32)))]))) ∧
    (s.cur.status.sup = true →
      s.rest.find? (fun g => g.place == .parked false && g.part == s.cur.part && g.handle == (s.x a).toNat) = some h →
      h.uid ≠ s.cur.uid →
      ∃ u, exec (.resume a) s = .next u ∧ u.cur.pc = s.cur.pc + 4 ∧ u.cur.wait = .awake ∧
        u.bare = { s with
          rest := u.rest, resumeq := u.resumeq, launches := u.launches, hbm := u.hbm, poison := u.poison }.bare ∧
        ((∀ k ∈ s.launches, k.allocs = []) → u.launches = s.launches ∧ u.hbm = s.hbm ∧ u.poison = s.poison) ∧ (∃ g ∈ u.rest, g = { h with place := .saved }) ∧
        ∃ e ∈ u.resumeq, h.uid ∈ e.harts ∧ e.part = h.part) ∧
    (s.cur.handles →
      s.rest.find? (fun g => g.place == .parked false && g.part == s.cur.part && g.handle == (s.x a).toNat) = none →
      Vectors s (exec (.resume a) s) 0x06 (s.x a) 0) ∧
    (s.cur.status.sup = false → exec (.resume a) s = .next (s.takeTrap { cause := 0x11 }))

/-- The scheduler (R65, R96, R165, R289, R294-R297, R393): a start gives a hart the start values of its record, a resumption the
registers of its save area; a hart that must leave is saved there; requests, promotions and moves of cores are noted.
That a refused write of `partmv` takes its fields, and that a partition's only core may not be moved to that partition itself, is
the model's reading (notes/assumptions/33.md), and so is that a request which leaves a hart what it holds has no deadline, and that
a second one replaces the first (notes/assumptions/17.md). -/
def Obligations.Scheduling : Prop :=
  ∀ (s : State) (p : Partition) (core : Nat) (e : Entry) (l : Launch) (x : RunEntry) (y : ResumeEntry) (h : Hart)
      (k i cls target : Nat) (leave : BitVec 4) (v : Word),
    let leaves := fun (o : Result) => ∃ u, o = .next u ∧ u.cur.place = .saved ∧ u.cur.pc = s.cur.pc ∧ u.cur.x = s.cur.x ∧
      u.cur.v = s.cur.v ∧ u.cur.m = s.cur.m ∧ u.cur.held = 0 ∧ u.cur.links = [] ∧ u.cur.tide.decl = none ∧
      (∃ z ∈ u.resumeq, s.cur.uid ∈ z.harts ∧ z.part = s.cur.part) ∧
      ∀ r : Fin 32, r.val ≠ 0 → leNat (u.homeRead (s.cur.handle + 8 * r.val) 8) = s.cur.x[r].toNat
    (s.AreasKept → s.lighthouse.phase = .running → s.partOfCore core = some p → (s.residents core []).length < 8 → s.launch? e.launch = some l →
      (e.source = .run x → s.nextEntry p.id core = some (e, [(core, (k, [i]))]) →
        ∃ u g, exec (.placement core) s = .next u ∧ g ∈ u.harts ∧ g.launch = l.uid ∧ g.index = i ∧ g.isResident = true ∧
          g.core = core ∧ g.pc = l.record.entry ∧ g.x[10] = l.record.args ∧ g.x[11] = BitVec.ofNat 64 i ∧
          g.x[12] = BitVec.ofNat 64 l.record.nharts ∧ (∀ r : Fin 32, r ∉ [10, 11, 12] → g.x[r] = 0) ∧
          g.status = { sup := l.record.flags.getLsbD 4 } ∧ g.vgrant = l.record.lgmax ∧ g.vlen = 0) ∧
      (e.source = .resume y → y.harts.contains h.uid = true → s.hart? h.uid = some h → p.id = h.part → l.record.tbuf = 0 →
        s.nextEntry p.id core = some (e, [(core, (k, [h.uid]))]) → s.areaError h = none → s.editError h = none →
        s.areaKept h = true →
        ∃ u g, exec (.resumption h.uid core) s = .next u ∧ g ∈ u.harts ∧ g.uid = h.uid ∧ g.isResident = true ∧ g.core = core ∧
          g.pc = s.areaWord h 0x100 ∧ ∀ r : Fin 32, r.val ≠ 0 → g.x[r] = s.areaWord h (8 * r.val))) ∧
    (s.cur.place ≠ .absent → leave.toNat < (s.recordOf s.cur).lgmax →
      exec (.laneReclamation s.cur.uid leave) s = .next { s with
        reclaims :=
          { hart := s.cur.uid, leave := leave.toNat, victim := false
            deadline := if s.cur.isResident = true ∧ leave.toNat < s.cur.held then
              some (s.cycle + ((s.part? s.cur.part).map fun p => p.acting.revoke.toNat).getD 0) else none
            need := ((s.heads s.cur.part).map s.demand).find? fun d => !d.isOf s.cur.uid } ::
          s.reclaims.filter fun r => r.victim || r.hart != s.cur.uid }) ∧
    (s.cur.isResident = true → s.mustLeave s.cur = true → s.cur.wait = .awake → s.pendingCmds s.cur.uid = false →
      s.cur.saveMeetsError = false → s.Rests → s.cur.handle % 0x80000 = 0 → isHbm s.cur.handle = true →
        leaves (exec (.preemption s.cur.uid) s) ∧ leaves (exec (.revokeDeadline s.cur.uid) s)) ∧
    (∀ part, s.part? part = some p → s.runq.find? (fun e => e.part == part && e.cls == cls) = some x → cls < 7 →
      p.acting.agetime ≠ 0 → p.acting.agetime.toNat ≤ (s.shore - x.since).toNat →
        ∃ u, exec (.agingPromotion part cls false) s = .next u ∧ { x with cls := cls + 1, since := s.shore } ∈ u.runq ∧
          u.cur = s.cur ∧ u.rest = s.rest ∧ u.resumeq = s.resumeq) ∧
    (let part := v.toNat / 65536 % 65536
     let c := v.toNat % 256
     let empties := ∃ q, s.parts.find? (fun p => p.cores.contains c) = some q ∧ s.partLives q.id = true ∧
       (∀ d ∈ q.cores, d = c) ∧ q.otherPackages = []
     let fields := { s with movePart := BitVec.ofNat 16 part, moveCore := BitVec.ofNat 8 c }
     ((s.moving ≠ none ∨ s.part? part = none ∨ empties) → exec (.partmvWrite v) s = .next { fields with moveErr := true }) ∧
     (s.moving = none → s.part? part ≠ none → ¬ empties → ∃ u, exec (.partmvWrite v) s = .next u ∧
       u.moving = some (c, part) ∧ u.moveErr = false ∧ (∀ q ∈ u.parts, c ∉ q.cores) ∧
       (∀ g ∈ s.harts, g.isResident = true → g.core = c → s.mustLeave g = false → ∃ r ∈ u.reclaims, r.hart = g.uid ∧ r.victim = true) ∧
       u.cur = s.cur ∧ u.rest = s.rest)) ∧
    (s.moving = some (core, target) → (∀ g ∈ s.harts, g.isResident = true → g.core ≠ core) →
      exec .partitionMoveComplete s = .next { s with
        moving := none
        parts := s.parts.map fun q => if q.id == target then { q with cores := q.cores ++ [core] } else q })

/-! The world outside -/

/-- Bring-up and shore time (R350, R351, R401-R404): power good and a reset leave no memory, partition or hart, and end in the
running phase when a firmware slot qualifies, self-test passes and memory can be zeroed, else in quarantine, with 32 sound built
cores of each die in use; the time is set from the master by the first bring-up that joins
other packages, and not after one that let harts run; shore time advances by at most 2 and never
goes back; a package that is not the time master is slewed toward it, and reports when it has heard nothing. The loss of a lane
is reported.
The model's choices and readings: that every cache and translation cache is then empty (notes/assumptions/2.md), that the cycle
count is 0 at power good (notes/assumptions/4.md), that a reset keeps shore time, the tickets and the cycle count
(notes/assumptions/35.md), and how time messages, the slew and the lost bound act (notes/assumptions/36.md). -/
def Obligations.BringUp : Prop :=
  ∀ (s : State) (time : Word) (lane : BitVec 2),
    let l := s.lighthouse
    let cold := fun (u : State) => u.hbm = [] ∧ u.l2 = [] ∧ u.l1 = [] ∧ u.tlb = [] ∧ u.parts = [] ∧ u.launches = [] ∧
      u.runq = [] ∧ u.harts = [] ∧ u.cmds = [] ∧ u.queues = [] ∧ u.lighthouse.slot0 = l.slot0 ∧ u.lighthouse.slot1 = l.slot1 ∧
      (∀ n, l.select = some n → u.lighthouse.runningSlot = some n ∧
        (u.lighthouse.phase = if l.selfTest.fails || l.selfTest.unzeroed != 0 then .quarantine else .running) ∧
        (l.selfTest.fails = false → ∀ i : Fin 8, ∃ m, u.lighthouse.coreMap[i.val]? = some m ∧ m.length = 32 ∧
          ∀ c ∈ m, l.selfTest.failingCores[i].getLsbD c = false)) ∧
      (l.select = none → u.lighthouse.phase = .quarantine ∧ u.lighthouse.runningSlot = none)
    (∃ u, exec .powerGood s = .next u ∧ cold u ∧ u.cycle = 0 ∧ u.seq = 0 ∧ (l.select = none ∨ l.joined = [l.package.toNat] → u.shore = 0) ∧
      (l.select ≠ none → 1 < l.joined.length → (∃ n ∈ l.joined, n < l.package.toNat) → u.shore = l.selfTest.masterTime)) ∧
    (l.phase ≠ .bringUp → ∃ u, exec .mgmtReset s = .next u ∧ cold u ∧ u.cycle = s.cycle ∧ u.seq = s.seq ∧
      u.replies = s.replies ++ [.status 0] ∧
      (s.timeFixed = true ∨ l.select = none ∨ l.joined = [l.package.toNat] → u.shore = s.shore) ∧
      (s.timeFixed = false → l.select ≠ none → 1 < l.joined.length → (∃ n ∈ l.joined, n < l.package.toNat) →
        u.shore = l.selfTest.masterTime ∧ u.timeFixed = true)) ∧
    (l.phase = .bringUp → exec .mgmtReset s = .next s ∧
      exec (.keavarTimeMessage time) s = .next { s with lighthouse := { l with selfTest := { l.selfTest with masterTime := time } } }) ∧
    (∃ u n, exec .shoreTick s = .next u ∧ n ≤ 2 ∧ u.shore = s.shore + BitVec.ofNat 64 n ∧ u.slew = s.slew - ((n : Int) - 1) ∧
      (n ≠ 1 → s.slew ≠ 0 ∧ 1023 ≤ s.sinceSlew ∧ u.sinceSlew = 0) ∧ (n = 1 → u.sinceSlew = s.sinceSlew + 1) ∧
      u.cur = s.cur ∧ u.rest = s.rest ∧ u.hbm = s.hbm ∧ u.l2 = s.l2) ∧
    (l.phase = .running → l.isMaster = false →
      exec (.keavarTimeMessage time) s = .next { s with slew := (time - s.shore).toInt, sinceTime := 0, boundLost := false } ∧
      (s.boundLost = false → 1000000 < s.sinceTime → exec .timeBoundLoss s = .next { s with
        boundLost := true, replies := s.replies ++ [.report 0 .running l.selfTest l.coreMap true] })) ∧
    (l.phase = .running → l.isMaster = true → exec (.keavarTimeMessage time) s = .next s ∧ exec .timeBoundLoss s = .next s) ∧
    (∃ u, exec (.ceideLaneFailure lane) s = .next u ∧
      (∀ n : BitVec 2, u.lighthouse.selfTest.lanes.getLsbD n.toNat = (l.selfTest.lanes.getLsbD n.toNat && n != lane)) ∧
      u.replies = (if l.selfTest.lanes.getLsbD lane.toNat then
        s.replies ++ [.report 0 l.phase u.lighthouse.selfTest l.coreMap s.boundLost] else s.replies) ∧
      u.cur = s.cur ∧ u.rest = s.rest ∧ u.hbm = s.hbm ∧ u.l2 = s.l2)

/-- The Ceide port and the Keavar links (R396-R400): an accepted packet reads, writes or adds at the homes and is answered, one
outside every host range gets an error and changes nothing, and without a lane none arrives; another package's access is performed
at its home; where no port is up none arrives; a remote access that times out faults the load that makes it, or the release or
fence that waits for the write, with cause 0x0D (`fence.sv` for a scalar one). How a range is written down, and which of the
accesses for an address is meant, is the model's choice (notes/assumptions/35.md). -/
def Obligations.Ports : Prop :=
  ∀ (s : State) (addr : BitVec 52) (n : Nat) (data : List Byte) (w v : Word) (op : BitVec 4),
    let pa := addr.toNat
    let answers := fun (o : Result) (r : Reply) (ws : List (Nat × List Byte)) => ∃ u, o = .next u ∧
      u.replies = s.replies ++ [r] ∧ Wrote s u ws ∧ u.cur.bare = { s.cur with links := u.cur.links }.bare ∧ u.cur.pc = s.cur.pc ∧
      u.parts = s.parts
    let old := fun (n : Nat) => leNat (s.homeRead pa n)
    s.poison = [] → Memory.wf s = true → s.TilesUncached →
      (s.lighthouse.selfTest.lanes = 0 → ∀ i ∈ [Instr.ceideRead addr n, .ceideWrite addr data, .ceideAtomicAdd addr w],
        exec i s = .next s) ∧
      (s.lighthouse.phase ≠ .bringUp → s.lighthouse.selfTest.lanes ≠ 0 →
        (s.packetOk pa n = true → answers (exec (.ceideRead addr n) s) (.data (s.homeRead pa n)) []) ∧
        (s.packetOk pa data.length = true → answers (exec (.ceideWrite addr data) s) .ack [(pa, data)]) ∧
        (s.packetOk pa 8 = true → answers (exec (.ceideAtomicAdd addr w) s) (.old (BitVec.ofNat 64 (old 8)))
          [(pa, leBytes 8 (old 8 + w.toNat))]) ∧
        (s.hosted pa n = false → answers (exec (.ceideRead addr n) s) .error []) ∧
        (s.hosted pa data.length = false → answers (exec (.ceideWrite addr data) s) .error []) ∧
        (s.hosted pa 8 = false → answers (exec (.ceideAtomicAdd addr w) s) .error [])) ∧
      (s.lighthouse.phase = .running → s.lighthouse.selfTest.ports = 0 → ∀ access, exec (.keavarRemoteAccess access) s = .next s) ∧
      (s.lighthouse.phase = .running → s.lighthouse.selfTest.ports ≠ 0 → packageOf pa = s.pkg →
        ((∀ i, i < n → assigned (pa + i) = true) →
          answers (exec (.keavarRemoteAccess (.load addr n)) s) (.data (s.homeRead pa n)) [] ∧
          answers (exec (.keavarRemoteAccess (.atomic addr n op w)) s) (.old (BitVec.ofNat 64 (old n)))
            [(pa, leBytes n (amoOp op.toNat (8 * n) (old n) (w.toNat % 2 ^ (8 * n))))] ∧
          answers (exec (.keavarRemoteAccess (.cas addr n v w)) s) (.old (BitVec.ofNat 64 (old n)))
            (if old n = v.toNat % 2 ^ (8 * n) then [(pa, leBytes n (w.toNat % 2 ^ (8 * n)))] else [])) ∧
        ((∀ i, i < data.length → assigned (pa + i) = true) →
          answers (exec (.keavarRemoteAccess (.store addr data)) s) .ack [(pa, data)]) ∧
        ((∀ i, i < 8 → assigned (pa + i) = true) →
          answers (exec (.keavarRemoteAccess (.sigadd addr w)) s) (.old (BitVec.ofNat 64 (old 8)))
            [(pa, leBytes 8 ((old 8 + w.toNat) % 2 ^ 64))])) ∧
      (s.lighthouse.phase = .running → s.lighthouse.selfTest.ports ≠ 0 → ∃ u, exec (.keavarRemoteAccess (.xinv v)) s = .next u ∧
        u.replies = s.replies ++ [.ack] ∧ (∀ e ∈ u.tlb, e ∈ s.tlb) ∧ (s.l1 = [] → ∀ c, u.homeByte c = s.homeByte c) ∧
        u.cur.bare = { s.cur with links := u.cur.links }.bare ∧ u.parts = s.parts) ∧
      (∀ va : Word, s.cur.isResident = true →
        let times := exec (.remoteAccessTimeout s.cur.uid va) s
        let lost := fun (z : Nat) => { s.cur with undelivered := z :: s.cur.undelivered }
        (∀ written, s.cur.unacked.find? (fun x => x.1 == va) = some written → times = .next { s with cur := { s.cur with
          unacked := s.cur.unacked.erase written, lostWrites := s.cur.lostWrites ++ [written] } }) ∧
        (s.cur.unacked.find? (fun x => x.1 == va) = none →
          (∀ z, s.remoteAt va = [z] → times = .next { s with cur := lost z }) ∧
          ∀ k ∈ [Kind.ownRead, .ownWrite, .fetch], ∀ (p : Phys) (z : Bool),
            s.peekXlate { s.cur.agent s.cur.cw with sup := true } k va = some (p, z) → s.isRemote p.pa = true →
            p.pa ∈ s.remoteAt va ∧ ∃ a ∈ s.remoteAt va, s.isRemote a = true ∧ ∃ choices draws,
              times = .next { s with cur := lost a, choices := choices, draws := draws })) ∧
      (∀ (s' : State) (p : Phys) (d a : BitVec 5) (w : BitVec 3) (i : BitVec 8),
        let size := 2 ^ (w.toNat % 4)
        let va := s.x a + BitVec.ofInt 64 (i.toInt * size)
        va.toNat % size = 0 → s.xlate (s.cur.agent s.cur.cw) .read va = (.ok p, s') →
        (p.attr = .uncached → s'.l1 = []) → (∃ z ∈ s'.cur.undelivered, p.pa ≤ z ∧ z < p.pa + size) →
          exec (.ld d a w i) s = .next (s'.takeTrap { cause := 0x0D, tval := va })) ∧
      ∀ (va : Word) (kept rest : List (Word × Bool)) (scalar : Bool) (k : BitVec 3),
        let trapped := ({ s with cur := { s.cur with lostWrites := kept ++ rest } } : State).takeTrap { cause := 0x0D, tval := va }
        s.cur.lostWrites = kept ++ (va, scalar) :: rest →
          (kept = [] → exec (.fenceRel k) s = .next trapped ∧ exec (.fenceAr k) s = .next trapped) ∧
          (scalar = true → (∀ x ∈ kept, x.2 = false) → exec .fenceSv s = .next trapped)

/-- Management messages (R301, R364, R366, R401, R403, R405, R429, R430): the status report, partitions created, destroyed and given
a root, the dispatcher enqueued or counted as failed, counters and snapshots, attestation and firmware, each with its reply;
before the port is open none arrives, and in quarantine only those that R429 marks are accepted. Partly the model's
choice are what makes a create message one to refuse, the fields of the report, the limits of a snapshot request and its first
period, the slot that a firmware update takes when none runs (notes/assumptions/35.md, 14.md), and that creating, destroying and
giving a root drops the partition's entries of the translation caches (notes/assumptions/20.md). -/
def Obligations.Management : Prop :=
  ∀ (s s' : State) (request : PartitionRequest) (p : Partition) (part : BitVec 16) (root : Word) (addr : BitVec 52)
      (counter : CounterRequest) (nonce : BitVec 256) (image running : FirmwareImage) (d : Phys) (z : SnapshotRequest),
    let l := s.lighthouse
    let answered := fun (t : State) (r : Reply) => { t with replies := t.replies ++ [r] }
    let refused := fun (i : Instr) (code : BitVec 8) => exec i s = .next (answered s (.status code))
    let inRunning := [Instr.mgmtPartitionCreate request, .mgmtPartitionDestroy part, .mgmtRootChange part root,
      .mgmtStartDispatcher addr, .mgmtCounters counter, .mgmtTideTotals part]
    let report := fun (digest : BitVec 512) (version : BitVec 32) =>
      let body := leBytes 32 nonce.toNat ++ leBytes 64 digest.toNat ++ leBytes 64 l.configDigest.toNat ++
        leBytes 4 version.toNat ++ leBytes 4 l.rollback.toNat ++ leBytes 8 s.shore.toNat ++
        [if l.phase = .quarantine then 1 else 0, l.package.setWidth 8] ++ List.replicate 14 0
      Reply.attestation 0 body (Config.attestationSignature l.identityKey body)
    let tables := fun (id : Nat) => s.tlb.filter fun e => e.part != some id
    (l.phase = .bringUp → ∀ i ∈ inRunning ++ [.mgmtStatus, .mgmtAttestation nonce, .mgmtFirmwareUpdate image], exec i s = .next s) ∧
    (l.phase = .quarantine → ∀ i ∈ inRunning, refused i 0x05) ∧
    (l.phase ≠ .bringUp →
      exec .mgmtStatus s = .next (answered s (.report 0 l.phase l.selfTest l.coreMap s.boundLost)) ∧
      (l.runningSlot.bind l.slot = some running →
        exec (.mgmtAttestation nonce) s = .next (answered s (report running.digest running.version))) ∧
      (l.runningSlot.bind l.slot = none → ∃ digest version,
        exec (.mgmtAttestation nonce) s = .next (answered { s with draws := s.draws + 9 } (report digest version))) ∧
      (l.runningSlot = some 0 → exec (.mgmtFirmwareUpdate image) s =
        .next (answered { s with lighthouse := { l with slot1 := some image } } (.status 0))) ∧
      (l.runningSlot = some 1 → exec (.mgmtFirmwareUpdate image) s =
        .next (answered { s with lighthouse := { l with slot0 := some image } } (.status 0))) ∧
      (l.runningSlot = none → ∃ choices draws, ∃ after ∈ [{ l with slot0 := some image }, { l with slot1 := some image }],
        exec (.mgmtFirmwareUpdate image) s =
          .next (answered { s with lighthouse := after, choices := choices, draws := draws } (.status 0)))) ∧
    (l.phase = .running →
      (s.requested request = none → refused (.mgmtPartitionCreate request) 0x02) ∧
      (s.requested request = some p → Memory.wf s = true → s.TilesUncached → ∃ u,
        exec (.mgmtPartitionCreate request) s = .next u ∧
        Wrote s u [(p.faultQueue, leBytes 8 request.faultBase.toNat ++ leBytes 4 request.faultCap.toNat ++ [0, 0, 0, 0])] ∧
        s.homesWritten u (answered { s with parts := s.parts ++ [p], tlb := tables p.id } (.status 0))) ∧
      (s.part? part.toNat = none → refused (.mgmtPartitionDestroy part) 0x02 ∧ refused (.mgmtRootChange part root) 0x02) ∧
      (rootOk root = false → refused (.mgmtRootChange part root) 0x02) ∧
      (s.part? part.toNat ≠ none → s.partLives part.toNat = true → refused (.mgmtPartitionDestroy part) 0x03 ∧
        (rootOk root = true → refused (.mgmtRootChange part root) 0x03)) ∧
      (s.part? part.toNat ≠ none → s.partLives part.toNat = false →
        exec (.mgmtPartitionDestroy part) s = .next (answered { s with
          parts := s.parts.filter fun q => q.id != part.toNat, tlb := tables part.toNat } (.status 0)) ∧
        (rootOk root = true → exec (.mgmtRootChange part root) s = .next (answered { s with
          parts := s.parts.map fun (q : Partition) => if q.id == part.toNat then { q with root := root.toNat } else q
          tlb := tables part.toNat } (.status 0)))) ∧
      (let r := LaunchRec.ofBytes (s.homeRead addr.toNat 64)
       let here := addr.toNat % 64 = 0 ∧ s.hosted addr.toNat 64 = true ∧ s.poison = []
       let a : Agent := { core := 0, part := r.part, launch := 0, sup := true, cw := 0 }
       (addr.toNat % 64 ≠ 0 ∨ s.hosted addr.toNat 64 = false → refused (.mgmtStartDispatcher addr) 0x04) ∧
       (here → s.part? r.part = none ∨ r.done.toNat % 8 ≠ 0 → refused (.mgmtStartDispatcher addr) 0x04) ∧
       (here → (∃ c t, s.xlate a .write r.done = (.error c, t)) → refused (.mgmtStartDispatcher addr) 0x04) ∧
       (here → s.part? r.part ≠ none → r.done.toNat % 8 = 0 → s.xlate a .write r.done = (.ok d, s') → r.spawnq = 0 →
         let bits := s'.failureBits r true none true
         let old := leNat (s'.homeRead d.pa 8)
         (bits = 0 → exec (.mgmtStartDispatcher addr) s = .next (answered { s' with
           launches := s'.launches ++ [{ uid := s'.nextUid, record := r }]
           runq := s'.runq ++ [{ part := r.part, cls := r.prio, launch := s'.nextUid, since := s'.shore }]
           nextUid := s'.nextUid + 1 } (.status 0))) ∧
         (bits ≠ 0 → Memory.wf s' = true → s'.TilesUncached → d.pa % 8 = 0 → ∃ u,
           exec (.mgmtStartDispatcher addr) s = .next u ∧ s'.homesWritten u (answered s' (.status 0)) ∧
           Wrote s' u [(d.pa, leBytes 8 ((old % 2 ^ 32 + 1) % 2 ^ 32 + 2 ^ 32 * (old / 2 ^ 32 ||| bits)))]))) ∧
      (∀ onDie unit index event filt owner, counter = .configure onDie unit index event filt owner →
        let listed := eventListed onDie event = true ∧ unit < (if onDie then 8 else 256) ∧ index < (if onDie then 8 else 16)
        (listed → exec (.mgmtCounters counter) s = .next (answered { s with
          perf := { onDie := onDie, unit := unit, index := index, event := event, filt := filt, part := owner } ::
            s.perf.filter fun x => !(x.onDie == onDie && x.unit == unit && x.index == index) } (.status 0))) ∧
        (¬ listed → refused (.mgmtCounters counter) 0x02)) ∧
      (∀ buffer us signal, counter = .read buffer us signal →
        let sound := 1 ≤ us ∧ buffer.toNat % 8 = 0 ∧ signal.toNat % 8 = 0 ∧ s.inHbm buffer.toNat (256 * 264) = true ∧
          s.inHbm signal.toNat 8 = true
        (sound → exec (.mgmtCounters counter) s = .next (answered { s with
          snapshots := s.snapshots ++ [{ buffer := buffer.toNat, periodNs := 1000 * us, signal := signal.toNat,
                                         next := s.shore.toNat + 1000 * us }] } (.status 0))) ∧
        (¬ sound → refused (.mgmtCounters counter) 0x02))) ∧
    ((∀ q ∈ s.snapshots, s.shore.toNat < q.next) → exec .counterSnapshot s = .next s) ∧
    (s.snapshots = [z] → z.next ≤ s.shore.toNat → Memory.wf s = true → touchesTile z.buffer (256 * 264) = false →
      touchesTile z.signal 8 = false → Apart [(z.buffer, 256 * 264), (z.signal, 8)] → ∃ u, exec .counterSnapshot s = .next u ∧
        s.homesWritten u { s with snapshots := [{ z with next := z.next + z.periodNs }] } ∧
        Wrote s u ((upTo 264).map (fun i =>
            let onDie := decide (256 ≤ i)
            let unit := if onDie then i - 256 else i
            let words := (upTo (if onDie then 8 else 16)).map (s.counterWord onDie unit)
            (z.buffer + 256 * i, wordsBytes ([s.shore, BitVec.ofNat 64 (unit + if onDie then 256 else 0)] ++ words ++
              List.replicate (30 - words.length) 0))) ++
          [(z.signal, leBytes 8 (leNat (s.homeRead z.signal 8) + 1))]))
end

