-- ==== Sys2Proof/Laws/State.lean ====
section
/-! SUPPORT. What each update of a hart or of the state leaves alone, field by field. -/

namespace Sys2Proof.Machine

variable (s : State) (h : Hart)

/-! `Hart.setX` -/

@[simp] theorem Hart.setX_uid (r : BitVec 5) (v : Word) : (h.setX r v).uid = h.uid := by unfold Hart.setX; split <;> rfl
@[simp] theorem Hart.setX_launch (r : BitVec 5) (v : Word) : (h.setX r v).launch = h.launch := by unfold Hart.setX; split <;> rfl
@[simp] theorem Hart.setX_part (r : BitVec 5) (v : Word) : (h.setX r v).part = h.part := by unfold Hart.setX; split <;> rfl
@[simp] theorem Hart.setX_index (r : BitVec 5) (v : Word) : (h.setX r v).index = h.index := by unfold Hart.setX; split <;> rfl
@[simp] theorem Hart.setX_group (r : BitVec 5) (v : Word) : (h.setX r v).group = h.group := by unfold Hart.setX; split <;> rfl
@[simp] theorem Hart.setX_cls (r : BitVec 5) (v : Word) : (h.setX r v).cls = h.cls := by unfold Hart.setX; split <;> rfl
@[simp] theorem Hart.setX_place (r : BitVec 5) (v : Word) : (h.setX r v).place = h.place := by unfold Hart.setX; split <;> rfl
@[simp] theorem Hart.setX_placedAt (r : BitVec 5) (v : Word) : (h.setX r v).placedAt = h.placedAt := by unfold Hart.setX; split <;> rfl
@[simp] theorem Hart.setX_handle (r : BitVec 5) (v : Word) : (h.setX r v).handle = h.handle := by unfold Hart.setX; split <;> rfl
@[simp] theorem Hart.setX_areaCells (r : BitVec 5) (v : Word) : (h.setX r v).areaCells = h.areaCells := by unfold Hart.setX; split <;> rfl
@[simp] theorem Hart.setX_c (r : BitVec 5) (v : Word) : (h.setX r v).c = h.c := by unfold Hart.setX; split <;> rfl
@[simp] theorem Hart.setX_pc (r : BitVec 5) (v : Word) : (h.setX r v).pc = h.pc := by unfold Hart.setX; split <;> rfl
@[simp] theorem Hart.setX_v (r : BitVec 5) (v : Word) : (h.setX r v).v = h.v := by unfold Hart.setX; split <;> rfl
@[simp] theorem Hart.setX_m (r : BitVec 5) (v : Word) : (h.setX r v).m = h.m := by unfold Hart.setX; split <;> rfl
@[simp] theorem Hart.setX_vbad (r : BitVec 5) (v : Word) : (h.setX r v).vbad = h.vbad := by unfold Hart.setX; split <;> rfl
@[simp] theorem Hart.setX_mbad (r : BitVec 5) (v : Word) : (h.setX r v).mbad = h.mbad := by unfold Hart.setX; split <;> rfl
@[simp] theorem Hart.setX_tbad (r : BitVec 5) (v : Word) : (h.setX r v).tbad = h.tbad := by unfold Hart.setX; split <;> rfl
@[simp] theorem Hart.setX_ltag (r : BitVec 5) (v : Word) : (h.setX r v).ltag = h.ltag := by unfold Hart.setX; split <;> rfl
@[simp] theorem Hart.setX_vlen (r : BitVec 5) (v : Word) : (h.setX r v).vlen = h.vlen := by unfold Hart.setX; split <;> rfl
@[simp] theorem Hart.setX_vlmax (r : BitVec 5) (v : Word) : (h.setX r v).vlmax = h.vlmax := by unfold Hart.setX; split <;> rfl
@[simp] theorem Hart.setX_vgrant (r : BitVec 5) (v : Word) : (h.setX r v).vgrant = h.vgrant := by unfold Hart.setX; split <;> rfl
@[simp] theorem Hart.setX_held (r : BitVec 5) (v : Word) : (h.setX r v).held = h.held := by unfold Hart.setX; split <;> rfl
@[simp] theorem Hart.setX_progress (r : BitVec 5) (v : Word) : (h.setX r v).progress = h.progress := by unfold Hart.setX; split <;> rfl
@[simp] theorem Hart.setX_heldProgress (r : BitVec 5) (v : Word) : (h.setX r v).heldProgress = h.heldProgress := by unfold Hart.setX; split <;> rfl
@[simp] theorem Hart.setX_captured (r : BitVec 5) (v : Word) : (h.setX r v).captured = h.captured := by unfold Hart.setX; split <;> rfl
@[simp] theorem Hart.setX_resumed (r : BitVec 5) (v : Word) : (h.setX r v).resumed = h.resumed := by unfold Hart.setX; split <;> rfl
@[simp] theorem Hart.setX_fmode (r : BitVec 5) (v : Word) : (h.setX r v).fmode = h.fmode := by unfold Hart.setX; split <;> rfl
@[simp] theorem Hart.setX_fflags (r : BitVec 5) (v : Word) : (h.setX r v).fflags = h.fflags := by unfold Hart.setX; split <;> rfl
@[simp] theorem Hart.setX_rkey (r : BitVec 5) (v : Word) : (h.setX r v).rkey = h.rkey := by unfold Hart.setX; split <;> rfl
@[simp] theorem Hart.setX_lslip (r : BitVec 5) (v : Word) : (h.setX r v).lslip = h.lslip := by unfold Hart.setX; split <;> rfl
@[simp] theorem Hart.setX_lskew (r : BitVec 5) (v : Word) : (h.setX r v).lskew = h.lskew := by unfold Hart.setX; split <;> rfl
@[simp] theorem Hart.setX_vbyp (r : BitVec 5) (v : Word) : (h.setX r v).vbyp = h.vbyp := by unfold Hart.setX; split <;> rfl
@[simp] theorem Hart.setX_rad (r : BitVec 5) (v : Word) : (h.setX r v).rad = h.rad := by unfold Hart.setX; split <;> rfl
@[simp] theorem Hart.setX_leadActive (r : BitVec 5) (v : Word) : (h.setX r v).leadActive = h.leadActive := by unfold Hart.setX; split <;> rfl
@[simp] theorem Hart.setX_leadStopped (r : BitVec 5) (v : Word) : (h.setX r v).leadStopped = h.leadStopped := by unfold Hart.setX; split <;> rfl
@[simp] theorem Hart.setX_divs (r : BitVec 5) (v : Word) : (h.setX r v).divs = h.divs := by unfold Hart.setX; split <;> rfl
@[simp] theorem Hart.setX_cw (r : BitVec 5) (v : Word) : (h.setX r v).cw = h.cw := by unfold Hart.setX; split <;> rfl
@[simp] theorem Hart.setX_tagmap (r : BitVec 5) (v : Word) : (h.setX r v).tagmap = h.tagmap := by unfold Hart.setX; split <;> rfl
@[simp] theorem Hart.setX_hid (r : BitVec 5) (v : Word) : (h.setX r v).hid = h.hid := by unfold Hart.setX; split <;> rfl
@[simp] theorem Hart.setX_status (r : BitVec 5) (v : Word) : (h.setX r v).status = h.status := by unfold Hart.setX; split <;> rfl
@[simp] theorem Hart.setX_epc (r : BitVec 5) (v : Word) : (h.setX r v).epc = h.epc := by unfold Hart.setX; split <;> rfl
@[simp] theorem Hart.setX_tcause (r : BitVec 5) (v : Word) : (h.setX r v).tcause = h.tcause := by unfold Hart.setX; split <;> rfl
@[simp] theorem Hart.setX_tval (r : BitVec 5) (v : Word) : (h.setX r v).tval = h.tval := by unfold Hart.setX; split <;> rfl
@[simp] theorem Hart.setX_tidx (r : BitVec 5) (v : Word) : (h.setX r v).tidx = h.tidx := by unfold Hart.setX; split <;> rfl
@[simp] theorem Hart.setX_tvec (r : BitVec 5) (v : Word) : (h.setX r v).tvec = h.tvec := by unfold Hart.setX; split <;> rfl
@[simp] theorem Hart.setX_tiles (r : BitVec 5) (v : Word) : (h.setX r v).tiles = h.tiles := by unfold Hart.setX; split <;> rfl
@[simp] theorem Hart.setX_bound (r : BitVec 5) (v : Word) : (h.setX r v).bound = h.bound := by unfold Hart.setX; split <;> rfl
@[simp] theorem Hart.setX_links (r : BitVec 5) (v : Word) : (h.setX r v).links = h.links := by unfold Hart.setX; split <;> rfl
@[simp] theorem Hart.setX_tags (r : BitVec 5) (v : Word) : (h.setX r v).tags = h.tags := by unfold Hart.setX; split <;> rfl
@[simp] theorem Hart.setX_slots (r : BitVec 5) (v : Word) : (h.setX r v).slots = h.slots := by unfold Hart.setX; split <;> rfl
@[simp] theorem Hart.setX_bars (r : BitVec 5) (v : Word) : (h.setX r v).bars = h.bars := by unfold Hart.setX; split <;> rfl
@[simp] theorem Hart.setX_syncArrived (r : BitVec 5) (v : Word) : (h.setX r v).syncArrived = h.syncArrived := by unfold Hart.setX; split <;> rfl
@[simp] theorem Hart.setX_midway (r : BitVec 5) (v : Word) : (h.setX r v).midway = h.midway := by unfold Hart.setX; split <;> rfl
@[simp] theorem Hart.setX_tide (r : BitVec 5) (v : Word) : (h.setX r v).tide = h.tide := by unfold Hart.setX; split <;> rfl
@[simp] theorem Hart.setX_irq (r : BitVec 5) (v : Word) : (h.setX r v).irq = h.irq := by unfold Hart.setX; split <;> rfl
@[simp] theorem Hart.setX_wait (r : BitVec 5) (v : Word) : (h.setX r v).wait = h.wait := by unfold Hart.setX; split <;> rfl
@[simp] theorem Hart.setX_shoreSaved (r : BitVec 5) (v : Word) : (h.setX r v).shoreSaved = h.shoreSaved := by unfold Hart.setX; split <;> rfl
@[simp] theorem Hart.setX_refork (r : BitVec 5) (v : Word) : (h.setX r v).refork = h.refork := by unfold Hart.setX; split <;> rfl
@[simp] theorem Hart.setX_lead (r : BitVec 5) (v : Word) : (h.setX r v).lead = h.lead := by unfold Hart.setX; split <;> rfl
@[simp] theorem Hart.setX_early (r : BitVec 5) (v : Word) : (h.setX r v).early = h.early := by unfold Hart.setX; split <;> rfl
@[simp] theorem Hart.setX_unacked (r : BitVec 5) (v : Word) : (h.setX r v).unacked = h.unacked := by unfold Hart.setX; split <;> rfl
@[simp] theorem Hart.setX_lostWrites (r : BitVec 5) (v : Word) : (h.setX r v).lostWrites = h.lostWrites := by unfold Hart.setX; split <;> rfl
@[simp] theorem Hart.setX_undelivered (r : BitVec 5) (v : Word) : (h.setX r v).undelivered = h.undelivered := by unfold Hart.setX; split <;> rfl

/-! `Hart.setC` -/

@[simp] theorem Hart.setC_uid (r : BitVec 3) (v : Bool) : (h.setC r v).uid = h.uid := by unfold Hart.setC; split <;> rfl
@[simp] theorem Hart.setC_launch (r : BitVec 3) (v : Bool) : (h.setC r v).launch = h.launch := by unfold Hart.setC; split <;> rfl
@[simp] theorem Hart.setC_part (r : BitVec 3) (v : Bool) : (h.setC r v).part = h.part := by unfold Hart.setC; split <;> rfl
@[simp] theorem Hart.setC_index (r : BitVec 3) (v : Bool) : (h.setC r v).index = h.index := by unfold Hart.setC; split <;> rfl
@[simp] theorem Hart.setC_group (r : BitVec 3) (v : Bool) : (h.setC r v).group = h.group := by unfold Hart.setC; split <;> rfl
@[simp] theorem Hart.setC_cls (r : BitVec 3) (v : Bool) : (h.setC r v).cls = h.cls := by unfold Hart.setC; split <;> rfl
@[simp] theorem Hart.setC_place (r : BitVec 3) (v : Bool) : (h.setC r v).place = h.place := by unfold Hart.setC; split <;> rfl
@[simp] theorem Hart.setC_placedAt (r : BitVec 3) (v : Bool) : (h.setC r v).placedAt = h.placedAt := by unfold Hart.setC; split <;> rfl
@[simp] theorem Hart.setC_handle (r : BitVec 3) (v : Bool) : (h.setC r v).handle = h.handle := by unfold Hart.setC; split <;> rfl
@[simp] theorem Hart.setC_areaCells (r : BitVec 3) (v : Bool) : (h.setC r v).areaCells = h.areaCells := by unfold Hart.setC; split <;> rfl
@[simp] theorem Hart.setC_x (r : BitVec 3) (v : Bool) : (h.setC r v).x = h.x := by unfold Hart.setC; split <;> rfl
@[simp] theorem Hart.setC_pc (r : BitVec 3) (v : Bool) : (h.setC r v).pc = h.pc := by unfold Hart.setC; split <;> rfl
@[simp] theorem Hart.setC_v (r : BitVec 3) (v : Bool) : (h.setC r v).v = h.v := by unfold Hart.setC; split <;> rfl
@[simp] theorem Hart.setC_m (r : BitVec 3) (v : Bool) : (h.setC r v).m = h.m := by unfold Hart.setC; split <;> rfl
@[simp] theorem Hart.setC_vbad (r : BitVec 3) (v : Bool) : (h.setC r v).vbad = h.vbad := by unfold Hart.setC; split <;> rfl
@[simp] theorem Hart.setC_mbad (r : BitVec 3) (v : Bool) : (h.setC r v).mbad = h.mbad := by unfold Hart.setC; split <;> rfl
@[simp] theorem Hart.setC_tbad (r : BitVec 3) (v : Bool) : (h.setC r v).tbad = h.tbad := by unfold Hart.setC; split <;> rfl
@[simp] theorem Hart.setC_ltag (r : BitVec 3) (v : Bool) : (h.setC r v).ltag = h.ltag := by unfold Hart.setC; split <;> rfl
@[simp] theorem Hart.setC_vlen (r : BitVec 3) (v : Bool) : (h.setC r v).vlen = h.vlen := by unfold Hart.setC; split <;> rfl
@[simp] theorem Hart.setC_vlmax (r : BitVec 3) (v : Bool) : (h.setC r v).vlmax = h.vlmax := by unfold Hart.setC; split <;> rfl
@[simp] theorem Hart.setC_vgrant (r : BitVec 3) (v : Bool) : (h.setC r v).vgrant = h.vgrant := by unfold Hart.setC; split <;> rfl
@[simp] theorem Hart.setC_held (r : BitVec 3) (v : Bool) : (h.setC r v).held = h.held := by unfold Hart.setC; split <;> rfl
@[simp] theorem Hart.setC_progress (r : BitVec 3) (v : Bool) : (h.setC r v).progress = h.progress := by unfold Hart.setC; split <;> rfl
@[simp] theorem Hart.setC_heldProgress (r : BitVec 3) (v : Bool) : (h.setC r v).heldProgress = h.heldProgress := by unfold Hart.setC; split <;> rfl
@[simp] theorem Hart.setC_captured (r : BitVec 3) (v : Bool) : (h.setC r v).captured = h.captured := by unfold Hart.setC; split <;> rfl
@[simp] theorem Hart.setC_resumed (r : BitVec 3) (v : Bool) : (h.setC r v).resumed = h.resumed := by unfold Hart.setC; split <;> rfl
@[simp] theorem Hart.setC_fmode (r : BitVec 3) (v : Bool) : (h.setC r v).fmode = h.fmode := by unfold Hart.setC; split <;> rfl
@[simp] theorem Hart.setC_fflags (r : BitVec 3) (v : Bool) : (h.setC r v).fflags = h.fflags := by unfold Hart.setC; split <;> rfl
@[simp] theorem Hart.setC_rkey (r : BitVec 3) (v : Bool) : (h.setC r v).rkey = h.rkey := by unfold Hart.setC; split <;> rfl
@[simp] theorem Hart.setC_lslip (r : BitVec 3) (v : Bool) : (h.setC r v).lslip = h.lslip := by unfold Hart.setC; split <;> rfl
@[simp] theorem Hart.setC_lskew (r : BitVec 3) (v : Bool) : (h.setC r v).lskew = h.lskew := by unfold Hart.setC; split <;> rfl
@[simp] theorem Hart.setC_vbyp (r : BitVec 3) (v : Bool) : (h.setC r v).vbyp = h.vbyp := by unfold Hart.setC; split <;> rfl
@[simp] theorem Hart.setC_rad (r : BitVec 3) (v : Bool) : (h.setC r v).rad = h.rad := by unfold Hart.setC; split <;> rfl
@[simp] theorem Hart.setC_leadActive (r : BitVec 3) (v : Bool) : (h.setC r v).leadActive = h.leadActive := by unfold Hart.setC; split <;> rfl
@[simp] theorem Hart.setC_leadStopped (r : BitVec 3) (v : Bool) : (h.setC r v).leadStopped = h.leadStopped := by unfold Hart.setC; split <;> rfl
@[simp] theorem Hart.setC_divs (r : BitVec 3) (v : Bool) : (h.setC r v).divs = h.divs := by unfold Hart.setC; split <;> rfl
@[simp] theorem Hart.setC_cw (r : BitVec 3) (v : Bool) : (h.setC r v).cw = h.cw := by unfold Hart.setC; split <;> rfl
@[simp] theorem Hart.setC_tagmap (r : BitVec 3) (v : Bool) : (h.setC r v).tagmap = h.tagmap := by unfold Hart.setC; split <;> rfl
@[simp] theorem Hart.setC_hid (r : BitVec 3) (v : Bool) : (h.setC r v).hid = h.hid := by unfold Hart.setC; split <;> rfl
@[simp] theorem Hart.setC_status (r : BitVec 3) (v : Bool) : (h.setC r v).status = h.status := by unfold Hart.setC; split <;> rfl
@[simp] theorem Hart.setC_epc (r : BitVec 3) (v : Bool) : (h.setC r v).epc = h.epc := by unfold Hart.setC; split <;> rfl
@[simp] theorem Hart.setC_tcause (r : BitVec 3) (v : Bool) : (h.setC r v).tcause = h.tcause := by unfold Hart.setC; split <;> rfl
@[simp] theorem Hart.setC_tval (r : BitVec 3) (v : Bool) : (h.setC r v).tval = h.tval := by unfold Hart.setC; split <;> rfl
@[simp] theorem Hart.setC_tidx (r : BitVec 3) (v : Bool) : (h.setC r v).tidx = h.tidx := by unfold Hart.setC; split <;> rfl
@[simp] theorem Hart.setC_tvec (r : BitVec 3) (v : Bool) : (h.setC r v).tvec = h.tvec := by unfold Hart.setC; split <;> rfl
@[simp] theorem Hart.setC_tiles (r : BitVec 3) (v : Bool) : (h.setC r v).tiles = h.tiles := by unfold Hart.setC; split <;> rfl
@[simp] theorem Hart.setC_bound (r : BitVec 3) (v : Bool) : (h.setC r v).bound = h.bound := by unfold Hart.setC; split <;> rfl
@[simp] theorem Hart.setC_links (r : BitVec 3) (v : Bool) : (h.setC r v).links = h.links := by unfold Hart.setC; split <;> rfl
@[simp] theorem Hart.setC_tags (r : BitVec 3) (v : Bool) : (h.setC r v).tags = h.tags := by unfold Hart.setC; split <;> rfl
@[simp] theorem Hart.setC_slots (r : BitVec 3) (v : Bool) : (h.setC r v).slots = h.slots := by unfold Hart.setC; split <;> rfl
@[simp] theorem Hart.setC_bars (r : BitVec 3) (v : Bool) : (h.setC r v).bars = h.bars := by unfold Hart.setC; split <;> rfl
@[simp] theorem Hart.setC_syncArrived (r : BitVec 3) (v : Bool) : (h.setC r v).syncArrived = h.syncArrived := by unfold Hart.setC; split <;> rfl
@[simp] theorem Hart.setC_midway (r : BitVec 3) (v : Bool) : (h.setC r v).midway = h.midway := by unfold Hart.setC; split <;> rfl
@[simp] theorem Hart.setC_tide (r : BitVec 3) (v : Bool) : (h.setC r v).tide = h.tide := by unfold Hart.setC; split <;> rfl
@[simp] theorem Hart.setC_irq (r : BitVec 3) (v : Bool) : (h.setC r v).irq = h.irq := by unfold Hart.setC; split <;> rfl
@[simp] theorem Hart.setC_wait (r : BitVec 3) (v : Bool) : (h.setC r v).wait = h.wait := by unfold Hart.setC; split <;> rfl
@[simp] theorem Hart.setC_shoreSaved (r : BitVec 3) (v : Bool) : (h.setC r v).shoreSaved = h.shoreSaved := by unfold Hart.setC; split <;> rfl
@[simp] theorem Hart.setC_refork (r : BitVec 3) (v : Bool) : (h.setC r v).refork = h.refork := by unfold Hart.setC; split <;> rfl
@[simp] theorem Hart.setC_lead (r : BitVec 3) (v : Bool) : (h.setC r v).lead = h.lead := by unfold Hart.setC; split <;> rfl
@[simp] theorem Hart.setC_early (r : BitVec 3) (v : Bool) : (h.setC r v).early = h.early := by unfold Hart.setC; split <;> rfl
@[simp] theorem Hart.setC_unacked (r : BitVec 3) (v : Bool) : (h.setC r v).unacked = h.unacked := by unfold Hart.setC; split <;> rfl
@[simp] theorem Hart.setC_lostWrites (r : BitVec 3) (v : Bool) : (h.setC r v).lostWrites = h.lostWrites := by unfold Hart.setC; split <;> rfl
@[simp] theorem Hart.setC_undelivered (r : BitVec 3) (v : Bool) : (h.setC r v).undelivered = h.undelivered := by unfold Hart.setC; split <;> rfl

/-! `Hart.setM` -/

@[simp] theorem Hart.setM_uid (r : BitVec 3) (v : BitVec 2048) : (h.setM r v).uid = h.uid := by unfold Hart.setM; split <;> rfl
@[simp] theorem Hart.setM_launch (r : BitVec 3) (v : BitVec 2048) : (h.setM r v).launch = h.launch := by unfold Hart.setM; split <;> rfl
@[simp] theorem Hart.setM_part (r : BitVec 3) (v : BitVec 2048) : (h.setM r v).part = h.part := by unfold Hart.setM; split <;> rfl
@[simp] theorem Hart.setM_index (r : BitVec 3) (v : BitVec 2048) : (h.setM r v).index = h.index := by unfold Hart.setM; split <;> rfl
@[simp] theorem Hart.setM_group (r : BitVec 3) (v : BitVec 2048) : (h.setM r v).group = h.group := by unfold Hart.setM; split <;> rfl
@[simp] theorem Hart.setM_cls (r : BitVec 3) (v : BitVec 2048) : (h.setM r v).cls = h.cls := by unfold Hart.setM; split <;> rfl
@[simp] theorem Hart.setM_place (r : BitVec 3) (v : BitVec 2048) : (h.setM r v).place = h.place := by unfold Hart.setM; split <;> rfl
@[simp] theorem Hart.setM_placedAt (r : BitVec 3) (v : BitVec 2048) : (h.setM r v).placedAt = h.placedAt := by unfold Hart.setM; split <;> rfl
@[simp] theorem Hart.setM_handle (r : BitVec 3) (v : BitVec 2048) : (h.setM r v).handle = h.handle := by unfold Hart.setM; split <;> rfl
@[simp] theorem Hart.setM_areaCells (r : BitVec 3) (v : BitVec 2048) : (h.setM r v).areaCells = h.areaCells := by unfold Hart.setM; split <;> rfl
@[simp] theorem Hart.setM_x (r : BitVec 3) (v : BitVec 2048) : (h.setM r v).x = h.x := by unfold Hart.setM; split <;> rfl
@[simp] theorem Hart.setM_c (r : BitVec 3) (v : BitVec 2048) : (h.setM r v).c = h.c := by unfold Hart.setM; split <;> rfl
@[simp] theorem Hart.setM_pc (r : BitVec 3) (v : BitVec 2048) : (h.setM r v).pc = h.pc := by unfold Hart.setM; split <;> rfl
@[simp] theorem Hart.setM_v (r : BitVec 3) (v : BitVec 2048) : (h.setM r v).v = h.v := by unfold Hart.setM; split <;> rfl
@[simp] theorem Hart.setM_vbad (r : BitVec 3) (v : BitVec 2048) : (h.setM r v).vbad = h.vbad := by unfold Hart.setM; split <;> rfl
@[simp] theorem Hart.setM_tbad (r : BitVec 3) (v : BitVec 2048) : (h.setM r v).tbad = h.tbad := by unfold Hart.setM; split <;> rfl
@[simp] theorem Hart.setM_ltag (r : BitVec 3) (v : BitVec 2048) : (h.setM r v).ltag = h.ltag := by unfold Hart.setM; split <;> rfl
@[simp] theorem Hart.setM_vlen (r : BitVec 3) (v : BitVec 2048) : (h.setM r v).vlen = h.vlen := by unfold Hart.setM; split <;> rfl
@[simp] theorem Hart.setM_vlmax (r : BitVec 3) (v : BitVec 2048) : (h.setM r v).vlmax = h.vlmax := by unfold Hart.setM; split <;> rfl
@[simp] theorem Hart.setM_vgrant (r : BitVec 3) (v : BitVec 2048) : (h.setM r v).vgrant = h.vgrant := by unfold Hart.setM; split <;> rfl
@[simp] theorem Hart.setM_held (r : BitVec 3) (v : BitVec 2048) : (h.setM r v).held = h.held := by unfold Hart.setM; split <;> rfl
@[simp] theorem Hart.setM_progress (r : BitVec 3) (v : BitVec 2048) : (h.setM r v).progress = h.progress := by unfold Hart.setM; split <;> rfl
@[simp] theorem Hart.setM_heldProgress (r : BitVec 3) (v : BitVec 2048) : (h.setM r v).heldProgress = h.heldProgress := by unfold Hart.setM; split <;> rfl
@[simp] theorem Hart.setM_captured (r : BitVec 3) (v : BitVec 2048) : (h.setM r v).captured = h.captured := by unfold Hart.setM; split <;> rfl
@[simp] theorem Hart.setM_resumed (r : BitVec 3) (v : BitVec 2048) : (h.setM r v).resumed = h.resumed := by unfold Hart.setM; split <;> rfl
@[simp] theorem Hart.setM_fmode (r : BitVec 3) (v : BitVec 2048) : (h.setM r v).fmode = h.fmode := by unfold Hart.setM; split <;> rfl
@[simp] theorem Hart.setM_fflags (r : BitVec 3) (v : BitVec 2048) : (h.setM r v).fflags = h.fflags := by unfold Hart.setM; split <;> rfl
@[simp] theorem Hart.setM_rkey (r : BitVec 3) (v : BitVec 2048) : (h.setM r v).rkey = h.rkey := by unfold Hart.setM; split <;> rfl
@[simp] theorem Hart.setM_lslip (r : BitVec 3) (v : BitVec 2048) : (h.setM r v).lslip = h.lslip := by unfold Hart.setM; split <;> rfl
@[simp] theorem Hart.setM_lskew (r : BitVec 3) (v : BitVec 2048) : (h.setM r v).lskew = h.lskew := by unfold Hart.setM; split <;> rfl
@[simp] theorem Hart.setM_vbyp (r : BitVec 3) (v : BitVec 2048) : (h.setM r v).vbyp = h.vbyp := by unfold Hart.setM; split <;> rfl
@[simp] theorem Hart.setM_rad (r : BitVec 3) (v : BitVec 2048) : (h.setM r v).rad = h.rad := by unfold Hart.setM; split <;> rfl
@[simp] theorem Hart.setM_leadActive (r : BitVec 3) (v : BitVec 2048) : (h.setM r v).leadActive = h.leadActive := by unfold Hart.setM; split <;> rfl
@[simp] theorem Hart.setM_leadStopped (r : BitVec 3) (v : BitVec 2048) : (h.setM r v).leadStopped = h.leadStopped := by unfold Hart.setM; split <;> rfl
@[simp] theorem Hart.setM_divs (r : BitVec 3) (v : BitVec 2048) : (h.setM r v).divs = h.divs := by unfold Hart.setM; split <;> rfl
@[simp] theorem Hart.setM_cw (r : BitVec 3) (v : BitVec 2048) : (h.setM r v).cw = h.cw := by unfold Hart.setM; split <;> rfl
@[simp] theorem Hart.setM_tagmap (r : BitVec 3) (v : BitVec 2048) : (h.setM r v).tagmap = h.tagmap := by unfold Hart.setM; split <;> rfl
@[simp] theorem Hart.setM_hid (r : BitVec 3) (v : BitVec 2048) : (h.setM r v).hid = h.hid := by unfold Hart.setM; split <;> rfl
@[simp] theorem Hart.setM_status (r : BitVec 3) (v : BitVec 2048) : (h.setM r v).status = h.status := by unfold Hart.setM; split <;> rfl
@[simp] theorem Hart.setM_epc (r : BitVec 3) (v : BitVec 2048) : (h.setM r v).epc = h.epc := by unfold Hart.setM; split <;> rfl
@[simp] theorem Hart.setM_tcause (r : BitVec 3) (v : BitVec 2048) : (h.setM r v).tcause = h.tcause := by unfold Hart.setM; split <;> rfl
@[simp] theorem Hart.setM_tval (r : BitVec 3) (v : BitVec 2048) : (h.setM r v).tval = h.tval := by unfold Hart.setM; split <;> rfl
@[simp] theorem Hart.setM_tidx (r : BitVec 3) (v : BitVec 2048) : (h.setM r v).tidx = h.tidx := by unfold Hart.setM; split <;> rfl
@[simp] theorem Hart.setM_tvec (r : BitVec 3) (v : BitVec 2048) : (h.setM r v).tvec = h.tvec := by unfold Hart.setM; split <;> rfl
@[simp] theorem Hart.setM_tiles (r : BitVec 3) (v : BitVec 2048) : (h.setM r v).tiles = h.tiles := by unfold Hart.setM; split <;> rfl
@[simp] theorem Hart.setM_bound (r : BitVec 3) (v : BitVec 2048) : (h.setM r v).bound = h.bound := by unfold Hart.setM; split <;> rfl
@[simp] theorem Hart.setM_links (r : BitVec 3) (v : BitVec 2048) : (h.setM r v).links = h.links := by unfold Hart.setM; split <;> rfl
@[simp] theorem Hart.setM_tags (r : BitVec 3) (v : BitVec 2048) : (h.setM r v).tags = h.tags := by unfold Hart.setM; split <;> rfl
@[simp] theorem Hart.setM_slots (r : BitVec 3) (v : BitVec 2048) : (h.setM r v).slots = h.slots := by unfold Hart.setM; split <;> rfl
@[simp] theorem Hart.setM_bars (r : BitVec 3) (v : BitVec 2048) : (h.setM r v).bars = h.bars := by unfold Hart.setM; split <;> rfl
@[simp] theorem Hart.setM_syncArrived (r : BitVec 3) (v : BitVec 2048) : (h.setM r v).syncArrived = h.syncArrived := by unfold Hart.setM; split <;> rfl
@[simp] theorem Hart.setM_midway (r : BitVec 3) (v : BitVec 2048) : (h.setM r v).midway = h.midway := by unfold Hart.setM; split <;> rfl
@[simp] theorem Hart.setM_tide (r : BitVec 3) (v : BitVec 2048) : (h.setM r v).tide = h.tide := by unfold Hart.setM; split <;> rfl
@[simp] theorem Hart.setM_irq (r : BitVec 3) (v : BitVec 2048) : (h.setM r v).irq = h.irq := by unfold Hart.setM; split <;> rfl
@[simp] theorem Hart.setM_wait (r : BitVec 3) (v : BitVec 2048) : (h.setM r v).wait = h.wait := by unfold Hart.setM; split <;> rfl
@[simp] theorem Hart.setM_shoreSaved (r : BitVec 3) (v : BitVec 2048) : (h.setM r v).shoreSaved = h.shoreSaved := by unfold Hart.setM; split <;> rfl
@[simp] theorem Hart.setM_refork (r : BitVec 3) (v : BitVec 2048) : (h.setM r v).refork = h.refork := by unfold Hart.setM; split <;> rfl
@[simp] theorem Hart.setM_lead (r : BitVec 3) (v : BitVec 2048) : (h.setM r v).lead = h.lead := by unfold Hart.setM; split <;> rfl
@[simp] theorem Hart.setM_early (r : BitVec 3) (v : BitVec 2048) : (h.setM r v).early = h.early := by unfold Hart.setM; split <;> rfl
@[simp] theorem Hart.setM_unacked (r : BitVec 3) (v : BitVec 2048) : (h.setM r v).unacked = h.unacked := by unfold Hart.setM; split <;> rfl
@[simp] theorem Hart.setM_lostWrites (r : BitVec 3) (v : BitVec 2048) : (h.setM r v).lostWrites = h.lostWrites := by unfold Hart.setM; split <;> rfl
@[simp] theorem Hart.setM_undelivered (r : BitVec 3) (v : BitVec 2048) : (h.setM r v).undelivered = h.undelivered := by unfold Hart.setM; split <;> rfl

/-! `Hart.setV` -/

@[simp] theorem Hart.setV_uid (r : BitVec 5) (v : VReg) : (h.setV r v).uid = h.uid := rfl
@[simp] theorem Hart.setV_launch (r : BitVec 5) (v : VReg) : (h.setV r v).launch = h.launch := rfl
@[simp] theorem Hart.setV_part (r : BitVec 5) (v : VReg) : (h.setV r v).part = h.part := rfl
@[simp] theorem Hart.setV_index (r : BitVec 5) (v : VReg) : (h.setV r v).index = h.index := rfl
@[simp] theorem Hart.setV_group (r : BitVec 5) (v : VReg) : (h.setV r v).group = h.group := rfl
@[simp] theorem Hart.setV_cls (r : BitVec 5) (v : VReg) : (h.setV r v).cls = h.cls := rfl
@[simp] theorem Hart.setV_place (r : BitVec 5) (v : VReg) : (h.setV r v).place = h.place := rfl
@[simp] theorem Hart.setV_placedAt (r : BitVec 5) (v : VReg) : (h.setV r v).placedAt = h.placedAt := rfl
@[simp] theorem Hart.setV_handle (r : BitVec 5) (v : VReg) : (h.setV r v).handle = h.handle := rfl
@[simp] theorem Hart.setV_areaCells (r : BitVec 5) (v : VReg) : (h.setV r v).areaCells = h.areaCells := rfl
@[simp] theorem Hart.setV_x (r : BitVec 5) (v : VReg) : (h.setV r v).x = h.x := rfl
@[simp] theorem Hart.setV_c (r : BitVec 5) (v : VReg) : (h.setV r v).c = h.c := rfl
@[simp] theorem Hart.setV_pc (r : BitVec 5) (v : VReg) : (h.setV r v).pc = h.pc := rfl
@[simp] theorem Hart.setV_m (r : BitVec 5) (v : VReg) : (h.setV r v).m = h.m := rfl
@[simp] theorem Hart.setV_mbad (r : BitVec 5) (v : VReg) : (h.setV r v).mbad = h.mbad := rfl
@[simp] theorem Hart.setV_tbad (r : BitVec 5) (v : VReg) : (h.setV r v).tbad = h.tbad := rfl
@[simp] theorem Hart.setV_ltag (r : BitVec 5) (v : VReg) : (h.setV r v).ltag = h.ltag := rfl
@[simp] theorem Hart.setV_vlen (r : BitVec 5) (v : VReg) : (h.setV r v).vlen = h.vlen := rfl
@[simp] theorem Hart.setV_vlmax (r : BitVec 5) (v : VReg) : (h.setV r v).vlmax = h.vlmax := rfl
@[simp] theorem Hart.setV_vgrant (r : BitVec 5) (v : VReg) : (h.setV r v).vgrant = h.vgrant := rfl
@[simp] theorem Hart.setV_held (r : BitVec 5) (v : VReg) : (h.setV r v).held = h.held := rfl
@[simp] theorem Hart.setV_progress (r : BitVec 5) (v : VReg) : (h.setV r v).progress = h.progress := rfl
@[simp] theorem Hart.setV_heldProgress (r : BitVec 5) (v : VReg) : (h.setV r v).heldProgress = h.heldProgress := rfl
@[simp] theorem Hart.setV_captured (r : BitVec 5) (v : VReg) : (h.setV r v).captured = h.captured := rfl
@[simp] theorem Hart.setV_resumed (r : BitVec 5) (v : VReg) : (h.setV r v).resumed = h.resumed := rfl
@[simp] theorem Hart.setV_fmode (r : BitVec 5) (v : VReg) : (h.setV r v).fmode = h.fmode := rfl
@[simp] theorem Hart.setV_fflags (r : BitVec 5) (v : VReg) : (h.setV r v).fflags = h.fflags := rfl
@[simp] theorem Hart.setV_rkey (r : BitVec 5) (v : VReg) : (h.setV r v).rkey = h.rkey := rfl
@[simp] theorem Hart.setV_lslip (r : BitVec 5) (v : VReg) : (h.setV r v).lslip = h.lslip := rfl
@[simp] theorem Hart.setV_lskew (r : BitVec 5) (v : VReg) : (h.setV r v).lskew = h.lskew := rfl
@[simp] theorem Hart.setV_vbyp (r : BitVec 5) (v : VReg) : (h.setV r v).vbyp = h.vbyp := rfl
@[simp] theorem Hart.setV_rad (r : BitVec 5) (v : VReg) : (h.setV r v).rad = h.rad := rfl
@[simp] theorem Hart.setV_leadActive (r : BitVec 5) (v : VReg) : (h.setV r v).leadActive = h.leadActive := rfl
@[simp] theorem Hart.setV_leadStopped (r : BitVec 5) (v : VReg) : (h.setV r v).leadStopped = h.leadStopped := rfl
@[simp] theorem Hart.setV_divs (r : BitVec 5) (v : VReg) : (h.setV r v).divs = h.divs := rfl
@[simp] theorem Hart.setV_cw (r : BitVec 5) (v : VReg) : (h.setV r v).cw = h.cw := rfl
@[simp] theorem Hart.setV_tagmap (r : BitVec 5) (v : VReg) : (h.setV r v).tagmap = h.tagmap := rfl
@[simp] theorem Hart.setV_hid (r : BitVec 5) (v : VReg) : (h.setV r v).hid = h.hid := rfl
@[simp] theorem Hart.setV_status (r : BitVec 5) (v : VReg) : (h.setV r v).status = h.status := rfl
@[simp] theorem Hart.setV_epc (r : BitVec 5) (v : VReg) : (h.setV r v).epc = h.epc := rfl
@[simp] theorem Hart.setV_tcause (r : BitVec 5) (v : VReg) : (h.setV r v).tcause = h.tcause := rfl
@[simp] theorem Hart.setV_tval (r : BitVec 5) (v : VReg) : (h.setV r v).tval = h.tval := rfl
@[simp] theorem Hart.setV_tidx (r : BitVec 5) (v : VReg) : (h.setV r v).tidx = h.tidx := rfl
@[simp] theorem Hart.setV_tvec (r : BitVec 5) (v : VReg) : (h.setV r v).tvec = h.tvec := rfl
@[simp] theorem Hart.setV_tiles (r : BitVec 5) (v : VReg) : (h.setV r v).tiles = h.tiles := rfl
@[simp] theorem Hart.setV_bound (r : BitVec 5) (v : VReg) : (h.setV r v).bound = h.bound := rfl
@[simp] theorem Hart.setV_links (r : BitVec 5) (v : VReg) : (h.setV r v).links = h.links := rfl
@[simp] theorem Hart.setV_tags (r : BitVec 5) (v : VReg) : (h.setV r v).tags = h.tags := rfl
@[simp] theorem Hart.setV_slots (r : BitVec 5) (v : VReg) : (h.setV r v).slots = h.slots := rfl
@[simp] theorem Hart.setV_bars (r : BitVec 5) (v : VReg) : (h.setV r v).bars = h.bars := rfl
@[simp] theorem Hart.setV_syncArrived (r : BitVec 5) (v : VReg) : (h.setV r v).syncArrived = h.syncArrived := rfl
@[simp] theorem Hart.setV_midway (r : BitVec 5) (v : VReg) : (h.setV r v).midway = h.midway := rfl
@[simp] theorem Hart.setV_tide (r : BitVec 5) (v : VReg) : (h.setV r v).tide = h.tide := rfl
@[simp] theorem Hart.setV_irq (r : BitVec 5) (v : VReg) : (h.setV r v).irq = h.irq := rfl
@[simp] theorem Hart.setV_wait (r : BitVec 5) (v : VReg) : (h.setV r v).wait = h.wait := rfl
@[simp] theorem Hart.setV_shoreSaved (r : BitVec 5) (v : VReg) : (h.setV r v).shoreSaved = h.shoreSaved := rfl
@[simp] theorem Hart.setV_refork (r : BitVec 5) (v : VReg) : (h.setV r v).refork = h.refork := rfl
@[simp] theorem Hart.setV_lead (r : BitVec 5) (v : VReg) : (h.setV r v).lead = h.lead := rfl
@[simp] theorem Hart.setV_early (r : BitVec 5) (v : VReg) : (h.setV r v).early = h.early := rfl
@[simp] theorem Hart.setV_unacked (r : BitVec 5) (v : VReg) : (h.setV r v).unacked = h.unacked := rfl
@[simp] theorem Hart.setV_lostWrites (r : BitVec 5) (v : VReg) : (h.setV r v).lostWrites = h.lostWrites := rfl
@[simp] theorem Hart.setV_undelivered (r : BitVec 5) (v : VReg) : (h.setV r v).undelivered = h.undelivered := rfl

/-! `Hart.setT` -/

@[simp] theorem Hart.setT_uid (r : BitVec 4) (v : Tile) : (h.setT r v).uid = h.uid := rfl
@[simp] theorem Hart.setT_launch (r : BitVec 4) (v : Tile) : (h.setT r v).launch = h.launch := rfl
@[simp] theorem Hart.setT_part (r : BitVec 4) (v : Tile) : (h.setT r v).part = h.part := rfl
@[simp] theorem Hart.setT_index (r : BitVec 4) (v : Tile) : (h.setT r v).index = h.index := rfl
@[simp] theorem Hart.setT_group (r : BitVec 4) (v : Tile) : (h.setT r v).group = h.group := rfl
@[simp] theorem Hart.setT_cls (r : BitVec 4) (v : Tile) : (h.setT r v).cls = h.cls := rfl
@[simp] theorem Hart.setT_place (r : BitVec 4) (v : Tile) : (h.setT r v).place = h.place := rfl
@[simp] theorem Hart.setT_placedAt (r : BitVec 4) (v : Tile) : (h.setT r v).placedAt = h.placedAt := rfl
@[simp] theorem Hart.setT_handle (r : BitVec 4) (v : Tile) : (h.setT r v).handle = h.handle := rfl
@[simp] theorem Hart.setT_areaCells (r : BitVec 4) (v : Tile) : (h.setT r v).areaCells = h.areaCells := rfl
@[simp] theorem Hart.setT_x (r : BitVec 4) (v : Tile) : (h.setT r v).x = h.x := rfl
@[simp] theorem Hart.setT_c (r : BitVec 4) (v : Tile) : (h.setT r v).c = h.c := rfl
@[simp] theorem Hart.setT_pc (r : BitVec 4) (v : Tile) : (h.setT r v).pc = h.pc := rfl
@[simp] theorem Hart.setT_v (r : BitVec 4) (v : Tile) : (h.setT r v).v = h.v := rfl
@[simp] theorem Hart.setT_m (r : BitVec 4) (v : Tile) : (h.setT r v).m = h.m := rfl
@[simp] theorem Hart.setT_vbad (r : BitVec 4) (v : Tile) : (h.setT r v).vbad = h.vbad := rfl
@[simp] theorem Hart.setT_mbad (r : BitVec 4) (v : Tile) : (h.setT r v).mbad = h.mbad := rfl
@[simp] theorem Hart.setT_ltag (r : BitVec 4) (v : Tile) : (h.setT r v).ltag = h.ltag := rfl
@[simp] theorem Hart.setT_vlen (r : BitVec 4) (v : Tile) : (h.setT r v).vlen = h.vlen := rfl
@[simp] theorem Hart.setT_vlmax (r : BitVec 4) (v : Tile) : (h.setT r v).vlmax = h.vlmax := rfl
@[simp] theorem Hart.setT_vgrant (r : BitVec 4) (v : Tile) : (h.setT r v).vgrant = h.vgrant := rfl
@[simp] theorem Hart.setT_held (r : BitVec 4) (v : Tile) : (h.setT r v).held = h.held := rfl
@[simp] theorem Hart.setT_progress (r : BitVec 4) (v : Tile) : (h.setT r v).progress = h.progress := rfl
@[simp] theorem Hart.setT_heldProgress (r : BitVec 4) (v : Tile) : (h.setT r v).heldProgress = h.heldProgress := rfl
@[simp] theorem Hart.setT_captured (r : BitVec 4) (v : Tile) : (h.setT r v).captured = h.captured := rfl
@[simp] theorem Hart.setT_resumed (r : BitVec 4) (v : Tile) : (h.setT r v).resumed = h.resumed := rfl
@[simp] theorem Hart.setT_fmode (r : BitVec 4) (v : Tile) : (h.setT r v).fmode = h.fmode := rfl
@[simp] theorem Hart.setT_fflags (r : BitVec 4) (v : Tile) : (h.setT r v).fflags = h.fflags := rfl
@[simp] theorem Hart.setT_rkey (r : BitVec 4) (v : Tile) : (h.setT r v).rkey = h.rkey := rfl
@[simp] theorem Hart.setT_lslip (r : BitVec 4) (v : Tile) : (h.setT r v).lslip = h.lslip := rfl
@[simp] theorem Hart.setT_lskew (r : BitVec 4) (v : Tile) : (h.setT r v).lskew = h.lskew := rfl
@[simp] theorem Hart.setT_vbyp (r : BitVec 4) (v : Tile) : (h.setT r v).vbyp = h.vbyp := rfl
@[simp] theorem Hart.setT_rad (r : BitVec 4) (v : Tile) : (h.setT r v).rad = h.rad := rfl
@[simp] theorem Hart.setT_leadActive (r : BitVec 4) (v : Tile) : (h.setT r v).leadActive = h.leadActive := rfl
@[simp] theorem Hart.setT_leadStopped (r : BitVec 4) (v : Tile) : (h.setT r v).leadStopped = h.leadStopped := rfl
@[simp] theorem Hart.setT_divs (r : BitVec 4) (v : Tile) : (h.setT r v).divs = h.divs := rfl
@[simp] theorem Hart.setT_cw (r : BitVec 4) (v : Tile) : (h.setT r v).cw = h.cw := rfl
@[simp] theorem Hart.setT_tagmap (r : BitVec 4) (v : Tile) : (h.setT r v).tagmap = h.tagmap := rfl
@[simp] theorem Hart.setT_hid (r : BitVec 4) (v : Tile) : (h.setT r v).hid = h.hid := rfl
@[simp] theorem Hart.setT_status (r : BitVec 4) (v : Tile) : (h.setT r v).status = h.status := rfl
@[simp] theorem Hart.setT_epc (r : BitVec 4) (v : Tile) : (h.setT r v).epc = h.epc := rfl
@[simp] theorem Hart.setT_tcause (r : BitVec 4) (v : Tile) : (h.setT r v).tcause = h.tcause := rfl
@[simp] theorem Hart.setT_tval (r : BitVec 4) (v : Tile) : (h.setT r v).tval = h.tval := rfl
@[simp] theorem Hart.setT_tidx (r : BitVec 4) (v : Tile) : (h.setT r v).tidx = h.tidx := rfl
@[simp] theorem Hart.setT_tvec (r : BitVec 4) (v : Tile) : (h.setT r v).tvec = h.tvec := rfl
@[simp] theorem Hart.setT_bound (r : BitVec 4) (v : Tile) : (h.setT r v).bound = h.bound := rfl
@[simp] theorem Hart.setT_links (r : BitVec 4) (v : Tile) : (h.setT r v).links = h.links := rfl
@[simp] theorem Hart.setT_tags (r : BitVec 4) (v : Tile) : (h.setT r v).tags = h.tags := rfl
@[simp] theorem Hart.setT_slots (r : BitVec 4) (v : Tile) : (h.setT r v).slots = h.slots := rfl
@[simp] theorem Hart.setT_bars (r : BitVec 4) (v : Tile) : (h.setT r v).bars = h.bars := rfl
@[simp] theorem Hart.setT_syncArrived (r : BitVec 4) (v : Tile) : (h.setT r v).syncArrived = h.syncArrived := rfl
@[simp] theorem Hart.setT_midway (r : BitVec 4) (v : Tile) : (h.setT r v).midway = h.midway := rfl
@[simp] theorem Hart.setT_tide (r : BitVec 4) (v : Tile) : (h.setT r v).tide = h.tide := rfl
@[simp] theorem Hart.setT_irq (r : BitVec 4) (v : Tile) : (h.setT r v).irq = h.irq := rfl
@[simp] theorem Hart.setT_wait (r : BitVec 4) (v : Tile) : (h.setT r v).wait = h.wait := rfl
@[simp] theorem Hart.setT_shoreSaved (r : BitVec 4) (v : Tile) : (h.setT r v).shoreSaved = h.shoreSaved := rfl
@[simp] theorem Hart.setT_refork (r : BitVec 4) (v : Tile) : (h.setT r v).refork = h.refork := rfl
@[simp] theorem Hart.setT_lead (r : BitVec 4) (v : Tile) : (h.setT r v).lead = h.lead := rfl
@[simp] theorem Hart.setT_early (r : BitVec 4) (v : Tile) : (h.setT r v).early = h.early := rfl
@[simp] theorem Hart.setT_unacked (r : BitVec 4) (v : Tile) : (h.setT r v).unacked = h.unacked := rfl
@[simp] theorem Hart.setT_lostWrites (r : BitVec 4) (v : Tile) : (h.setT r v).lostWrites = h.lostWrites := rfl
@[simp] theorem Hart.setT_undelivered (r : BitVec 4) (v : Tile) : (h.setT r v).undelivered = h.undelivered := rfl

/-! `State.setX` -/

@[simp] theorem State.setX_rest (r : BitVec 5) (v : Word) : (s.setX r v).rest = s.rest := rfl
@[simp] theorem State.setX_launches (r : BitVec 5) (v : Word) : (s.setX r v).launches = s.launches := rfl
@[simp] theorem State.setX_parts (r : BitVec 5) (v : Word) : (s.setX r v).parts = s.parts := rfl
@[simp] theorem State.setX_runq (r : BitVec 5) (v : Word) : (s.setX r v).runq = s.runq := rfl
@[simp] theorem State.setX_resumeq (r : BitVec 5) (v : Word) : (s.setX r v).resumeq = s.resumeq := rfl
@[simp] theorem State.setX_reclaims (r : BitVec 5) (v : Word) : (s.setX r v).reclaims = s.reclaims := rfl
@[simp] theorem State.setX_reserved (r : BitVec 5) (v : Word) : (s.setX r v).reserved = s.reserved := rfl
@[simp] theorem State.setX_spawnTurn (r : BitVec 5) (v : Word) : (s.setX r v).spawnTurn = s.spawnTurn := rfl
@[simp] theorem State.setX_cmds (r : BitVec 5) (v : Word) : (s.setX r v).cmds = s.cmds := rfl
@[simp] theorem State.setX_queues (r : BitVec 5) (v : Word) : (s.setX r v).queues = s.queues := rfl
@[simp] theorem State.setX_l1 (r : BitVec 5) (v : Word) : (s.setX r v).l1 = s.l1 := rfl
@[simp] theorem State.setX_fused (r : BitVec 5) (v : Word) : (s.setX r v).fused = s.fused := rfl
@[simp] theorem State.setX_l2 (r : BitVec 5) (v : Word) : (s.setX r v).l2 = s.l2 := rfl
@[simp] theorem State.setX_visitors (r : BitVec 5) (v : Word) : (s.setX r v).visitors = s.visitors := rfl
@[simp] theorem State.setX_tlb (r : BitVec 5) (v : Word) : (s.setX r v).tlb = s.tlb := rfl
@[simp] theorem State.setX_hbm (r : BitVec 5) (v : Word) : (s.setX r v).hbm = s.hbm := rfl
@[simp] theorem State.setX_poison (r : BitVec 5) (v : Word) : (s.setX r v).poison = s.poison := rfl
@[simp] theorem State.setX_recoded (r : BitVec 5) (v : Word) : (s.setX r v).recoded = s.recoded := rfl
@[simp] theorem State.setX_spoiled (r : BitVec 5) (v : Word) : (s.setX r v).spoiled = s.spoiled := rfl
@[simp] theorem State.setX_shore (r : BitVec 5) (v : Word) : (s.setX r v).shore = s.shore := rfl
@[simp] theorem State.setX_timeFixed (r : BitVec 5) (v : Word) : (s.setX r v).timeFixed = s.timeFixed := rfl
@[simp] theorem State.setX_shoreSeen (r : BitVec 5) (v : Word) : (s.setX r v).shoreSeen = s.shoreSeen := rfl
@[simp] theorem State.setX_sinceSlew (r : BitVec 5) (v : Word) : (s.setX r v).sinceSlew = s.sinceSlew := rfl
@[simp] theorem State.setX_sinceTime (r : BitVec 5) (v : Word) : (s.setX r v).sinceTime = s.sinceTime := rfl
@[simp] theorem State.setX_slew (r : BitVec 5) (v : Word) : (s.setX r v).slew = s.slew := rfl
@[simp] theorem State.setX_boundLost (r : BitVec 5) (v : Word) : (s.setX r v).boundLost = s.boundLost := rfl
@[simp] theorem State.setX_cycle (r : BitVec 5) (v : Word) : (s.setX r v).cycle = s.cycle := rfl
@[simp] theorem State.setX_seq (r : BitVec 5) (v : Word) : (s.setX r v).seq = s.seq := rfl
@[simp] theorem State.setX_moving (r : BitVec 5) (v : Word) : (s.setX r v).moving = s.moving := rfl
@[simp] theorem State.setX_moveErr (r : BitVec 5) (v : Word) : (s.setX r v).moveErr = s.moveErr := rfl
@[simp] theorem State.setX_movePart (r : BitVec 5) (v : Word) : (s.setX r v).movePart = s.movePart := rfl
@[simp] theorem State.setX_moveCore (r : BitVec 5) (v : Word) : (s.setX r v).moveCore = s.moveCore := rfl
@[simp] theorem State.setX_rooms (r : BitVec 5) (v : Word) : (s.setX r v).rooms = s.rooms := rfl
@[simp] theorem State.setX_freeReps (r : BitVec 5) (v : Word) : (s.setX r v).freeReps = s.freeReps := rfl
@[simp] theorem State.setX_issued (r : BitVec 5) (v : Word) : (s.setX r v).issued = s.issued := rfl
@[simp] theorem State.setX_asked (r : BitVec 5) (v : Word) : (s.setX r v).asked = s.asked := rfl
@[simp] theorem State.setX_wrote (r : BitVec 5) (v : Word) : (s.setX r v).wrote = s.wrote := rfl
@[simp] theorem State.setX_perf (r : BitVec 5) (v : Word) : (s.setX r v).perf = s.perf := rfl
@[simp] theorem State.setX_snapshots (r : BitVec 5) (v : Word) : (s.setX r v).snapshots = s.snapshots := rfl
@[simp] theorem State.setX_replies (r : BitVec 5) (v : Word) : (s.setX r v).replies = s.replies := rfl
@[simp] theorem State.setX_lighthouse (r : BitVec 5) (v : Word) : (s.setX r v).lighthouse = s.lighthouse := rfl
@[simp] theorem State.setX_agenda (r : BitVec 5) (v : Word) : (s.setX r v).agenda = s.agenda := rfl
@[simp] theorem State.setX_choices (r : BitVec 5) (v : Word) : (s.setX r v).choices = s.choices := rfl
@[simp] theorem State.setX_draws (r : BitVec 5) (v : Word) : (s.setX r v).draws = s.draws := rfl
@[simp] theorem State.setX_cut (r : BitVec 5) (v : Word) : (s.setX r v).cut = s.cut := rfl
@[simp] theorem State.setX_nextUid (r : BitVec 5) (v : Word) : (s.setX r v).nextUid = s.nextUid := rfl

/-! `State.setC` -/

@[simp] theorem State.setC_rest (r : BitVec 3) (v : Bool) : (s.setC r v).rest = s.rest := rfl
@[simp] theorem State.setC_launches (r : BitVec 3) (v : Bool) : (s.setC r v).launches = s.launches := rfl
@[simp] theorem State.setC_parts (r : BitVec 3) (v : Bool) : (s.setC r v).parts = s.parts := rfl
@[simp] theorem State.setC_runq (r : BitVec 3) (v : Bool) : (s.setC r v).runq = s.runq := rfl
@[simp] theorem State.setC_resumeq (r : BitVec 3) (v : Bool) : (s.setC r v).resumeq = s.resumeq := rfl
@[simp] theorem State.setC_reclaims (r : BitVec 3) (v : Bool) : (s.setC r v).reclaims = s.reclaims := rfl
@[simp] theorem State.setC_reserved (r : BitVec 3) (v : Bool) : (s.setC r v).reserved = s.reserved := rfl
@[simp] theorem State.setC_spawnTurn (r : BitVec 3) (v : Bool) : (s.setC r v).spawnTurn = s.spawnTurn := rfl
@[simp] theorem State.setC_cmds (r : BitVec 3) (v : Bool) : (s.setC r v).cmds = s.cmds := rfl
@[simp] theorem State.setC_queues (r : BitVec 3) (v : Bool) : (s.setC r v).queues = s.queues := rfl
@[simp] theorem State.setC_l1 (r : BitVec 3) (v : Bool) : (s.setC r v).l1 = s.l1 := rfl
@[simp] theorem State.setC_fused (r : BitVec 3) (v : Bool) : (s.setC r v).fused = s.fused := rfl
@[simp] theorem State.setC_l2 (r : BitVec 3) (v : Bool) : (s.setC r v).l2 = s.l2 := rfl
@[simp] theorem State.setC_visitors (r : BitVec 3) (v : Bool) : (s.setC r v).visitors = s.visitors := rfl
@[simp] theorem State.setC_tlb (r : BitVec 3) (v : Bool) : (s.setC r v).tlb = s.tlb := rfl
@[simp] theorem State.setC_hbm (r : BitVec 3) (v : Bool) : (s.setC r v).hbm = s.hbm := rfl
@[simp] theorem State.setC_poison (r : BitVec 3) (v : Bool) : (s.setC r v).poison = s.poison := rfl
@[simp] theorem State.setC_recoded (r : BitVec 3) (v : Bool) : (s.setC r v).recoded = s.recoded := rfl
@[simp] theorem State.setC_spoiled (r : BitVec 3) (v : Bool) : (s.setC r v).spoiled = s.spoiled := rfl
@[simp] theorem State.setC_shore (r : BitVec 3) (v : Bool) : (s.setC r v).shore = s.shore := rfl
@[simp] theorem State.setC_timeFixed (r : BitVec 3) (v : Bool) : (s.setC r v).timeFixed = s.timeFixed := rfl
@[simp] theorem State.setC_shoreSeen (r : BitVec 3) (v : Bool) : (s.setC r v).shoreSeen = s.shoreSeen := rfl
@[simp] theorem State.setC_sinceSlew (r : BitVec 3) (v : Bool) : (s.setC r v).sinceSlew = s.sinceSlew := rfl
@[simp] theorem State.setC_sinceTime (r : BitVec 3) (v : Bool) : (s.setC r v).sinceTime = s.sinceTime := rfl
@[simp] theorem State.setC_slew (r : BitVec 3) (v : Bool) : (s.setC r v).slew = s.slew := rfl
@[simp] theorem State.setC_boundLost (r : BitVec 3) (v : Bool) : (s.setC r v).boundLost = s.boundLost := rfl
@[simp] theorem State.setC_cycle (r : BitVec 3) (v : Bool) : (s.setC r v).cycle = s.cycle := rfl
@[simp] theorem State.setC_seq (r : BitVec 3) (v : Bool) : (s.setC r v).seq = s.seq := rfl
@[simp] theorem State.setC_moving (r : BitVec 3) (v : Bool) : (s.setC r v).moving = s.moving := rfl
@[simp] theorem State.setC_moveErr (r : BitVec 3) (v : Bool) : (s.setC r v).moveErr = s.moveErr := rfl
@[simp] theorem State.setC_movePart (r : BitVec 3) (v : Bool) : (s.setC r v).movePart = s.movePart := rfl
@[simp] theorem State.setC_moveCore (r : BitVec 3) (v : Bool) : (s.setC r v).moveCore = s.moveCore := rfl
@[simp] theorem State.setC_rooms (r : BitVec 3) (v : Bool) : (s.setC r v).rooms = s.rooms := rfl
@[simp] theorem State.setC_freeReps (r : BitVec 3) (v : Bool) : (s.setC r v).freeReps = s.freeReps := rfl
@[simp] theorem State.setC_issued (r : BitVec 3) (v : Bool) : (s.setC r v).issued = s.issued := rfl
@[simp] theorem State.setC_asked (r : BitVec 3) (v : Bool) : (s.setC r v).asked = s.asked := rfl
@[simp] theorem State.setC_wrote (r : BitVec 3) (v : Bool) : (s.setC r v).wrote = s.wrote := rfl
@[simp] theorem State.setC_perf (r : BitVec 3) (v : Bool) : (s.setC r v).perf = s.perf := rfl
@[simp] theorem State.setC_snapshots (r : BitVec 3) (v : Bool) : (s.setC r v).snapshots = s.snapshots := rfl
@[simp] theorem State.setC_replies (r : BitVec 3) (v : Bool) : (s.setC r v).replies = s.replies := rfl
@[simp] theorem State.setC_lighthouse (r : BitVec 3) (v : Bool) : (s.setC r v).lighthouse = s.lighthouse := rfl
@[simp] theorem State.setC_agenda (r : BitVec 3) (v : Bool) : (s.setC r v).agenda = s.agenda := rfl
@[simp] theorem State.setC_choices (r : BitVec 3) (v : Bool) : (s.setC r v).choices = s.choices := rfl
@[simp] theorem State.setC_draws (r : BitVec 3) (v : Bool) : (s.setC r v).draws = s.draws := rfl
@[simp] theorem State.setC_cut (r : BitVec 3) (v : Bool) : (s.setC r v).cut = s.cut := rfl
@[simp] theorem State.setC_nextUid (r : BitVec 3) (v : Bool) : (s.setC r v).nextUid = s.nextUid := rfl

/-! `State.onCur` -/

@[simp] theorem State.onCur_rest (f : Hart → Hart) : (s.onCur f).rest = s.rest := rfl
@[simp] theorem State.onCur_launches (f : Hart → Hart) : (s.onCur f).launches = s.launches := rfl
@[simp] theorem State.onCur_parts (f : Hart → Hart) : (s.onCur f).parts = s.parts := rfl
@[simp] theorem State.onCur_runq (f : Hart → Hart) : (s.onCur f).runq = s.runq := rfl
@[simp] theorem State.onCur_resumeq (f : Hart → Hart) : (s.onCur f).resumeq = s.resumeq := rfl
@[simp] theorem State.onCur_reclaims (f : Hart → Hart) : (s.onCur f).reclaims = s.reclaims := rfl
@[simp] theorem State.onCur_reserved (f : Hart → Hart) : (s.onCur f).reserved = s.reserved := rfl
@[simp] theorem State.onCur_spawnTurn (f : Hart → Hart) : (s.onCur f).spawnTurn = s.spawnTurn := rfl
@[simp] theorem State.onCur_cmds (f : Hart → Hart) : (s.onCur f).cmds = s.cmds := rfl
@[simp] theorem State.onCur_queues (f : Hart → Hart) : (s.onCur f).queues = s.queues := rfl
@[simp] theorem State.onCur_l1 (f : Hart → Hart) : (s.onCur f).l1 = s.l1 := rfl
@[simp] theorem State.onCur_fused (f : Hart → Hart) : (s.onCur f).fused = s.fused := rfl
@[simp] theorem State.onCur_l2 (f : Hart → Hart) : (s.onCur f).l2 = s.l2 := rfl
@[simp] theorem State.onCur_visitors (f : Hart → Hart) : (s.onCur f).visitors = s.visitors := rfl
@[simp] theorem State.onCur_tlb (f : Hart → Hart) : (s.onCur f).tlb = s.tlb := rfl
@[simp] theorem State.onCur_hbm (f : Hart → Hart) : (s.onCur f).hbm = s.hbm := rfl
@[simp] theorem State.onCur_poison (f : Hart → Hart) : (s.onCur f).poison = s.poison := rfl
@[simp] theorem State.onCur_recoded (f : Hart → Hart) : (s.onCur f).recoded = s.recoded := rfl
@[simp] theorem State.onCur_spoiled (f : Hart → Hart) : (s.onCur f).spoiled = s.spoiled := rfl
@[simp] theorem State.onCur_shore (f : Hart → Hart) : (s.onCur f).shore = s.shore := rfl
@[simp] theorem State.onCur_timeFixed (f : Hart → Hart) : (s.onCur f).timeFixed = s.timeFixed := rfl
@[simp] theorem State.onCur_shoreSeen (f : Hart → Hart) : (s.onCur f).shoreSeen = s.shoreSeen := rfl
@[simp] theorem State.onCur_sinceSlew (f : Hart → Hart) : (s.onCur f).sinceSlew = s.sinceSlew := rfl
@[simp] theorem State.onCur_sinceTime (f : Hart → Hart) : (s.onCur f).sinceTime = s.sinceTime := rfl
@[simp] theorem State.onCur_slew (f : Hart → Hart) : (s.onCur f).slew = s.slew := rfl
@[simp] theorem State.onCur_boundLost (f : Hart → Hart) : (s.onCur f).boundLost = s.boundLost := rfl
@[simp] theorem State.onCur_cycle (f : Hart → Hart) : (s.onCur f).cycle = s.cycle := rfl
@[simp] theorem State.onCur_seq (f : Hart → Hart) : (s.onCur f).seq = s.seq := rfl
@[simp] theorem State.onCur_moving (f : Hart → Hart) : (s.onCur f).moving = s.moving := rfl
@[simp] theorem State.onCur_moveErr (f : Hart → Hart) : (s.onCur f).moveErr = s.moveErr := rfl
@[simp] theorem State.onCur_movePart (f : Hart → Hart) : (s.onCur f).movePart = s.movePart := rfl
@[simp] theorem State.onCur_moveCore (f : Hart → Hart) : (s.onCur f).moveCore = s.moveCore := rfl
@[simp] theorem State.onCur_rooms (f : Hart → Hart) : (s.onCur f).rooms = s.rooms := rfl
@[simp] theorem State.onCur_freeReps (f : Hart → Hart) : (s.onCur f).freeReps = s.freeReps := rfl
@[simp] theorem State.onCur_issued (f : Hart → Hart) : (s.onCur f).issued = s.issued := rfl
@[simp] theorem State.onCur_asked (f : Hart → Hart) : (s.onCur f).asked = s.asked := rfl
@[simp] theorem State.onCur_wrote (f : Hart → Hart) : (s.onCur f).wrote = s.wrote := rfl
@[simp] theorem State.onCur_perf (f : Hart → Hart) : (s.onCur f).perf = s.perf := rfl
@[simp] theorem State.onCur_snapshots (f : Hart → Hart) : (s.onCur f).snapshots = s.snapshots := rfl
@[simp] theorem State.onCur_replies (f : Hart → Hart) : (s.onCur f).replies = s.replies := rfl
@[simp] theorem State.onCur_lighthouse (f : Hart → Hart) : (s.onCur f).lighthouse = s.lighthouse := rfl
@[simp] theorem State.onCur_agenda (f : Hart → Hart) : (s.onCur f).agenda = s.agenda := rfl
@[simp] theorem State.onCur_choices (f : Hart → Hart) : (s.onCur f).choices = s.choices := rfl
@[simp] theorem State.onCur_draws (f : Hart → Hart) : (s.onCur f).draws = s.draws := rfl
@[simp] theorem State.onCur_cut (f : Hart → Hart) : (s.onCur f).cut = s.cut := rfl
@[simp] theorem State.onCur_nextUid (f : Hart → Hart) : (s.onCur f).nextUid = s.nextUid := rfl

/-! `State.raise` -/

@[simp] theorem State.raise_rest (fl : BitVec 6) : (s.raise fl).rest = s.rest := rfl
@[simp] theorem State.raise_launches (fl : BitVec 6) : (s.raise fl).launches = s.launches := rfl
@[simp] theorem State.raise_parts (fl : BitVec 6) : (s.raise fl).parts = s.parts := rfl
@[simp] theorem State.raise_runq (fl : BitVec 6) : (s.raise fl).runq = s.runq := rfl
@[simp] theorem State.raise_resumeq (fl : BitVec 6) : (s.raise fl).resumeq = s.resumeq := rfl
@[simp] theorem State.raise_reclaims (fl : BitVec 6) : (s.raise fl).reclaims = s.reclaims := rfl
@[simp] theorem State.raise_reserved (fl : BitVec 6) : (s.raise fl).reserved = s.reserved := rfl
@[simp] theorem State.raise_spawnTurn (fl : BitVec 6) : (s.raise fl).spawnTurn = s.spawnTurn := rfl
@[simp] theorem State.raise_cmds (fl : BitVec 6) : (s.raise fl).cmds = s.cmds := rfl
@[simp] theorem State.raise_queues (fl : BitVec 6) : (s.raise fl).queues = s.queues := rfl
@[simp] theorem State.raise_l1 (fl : BitVec 6) : (s.raise fl).l1 = s.l1 := rfl
@[simp] theorem State.raise_fused (fl : BitVec 6) : (s.raise fl).fused = s.fused := rfl
@[simp] theorem State.raise_l2 (fl : BitVec 6) : (s.raise fl).l2 = s.l2 := rfl
@[simp] theorem State.raise_visitors (fl : BitVec 6) : (s.raise fl).visitors = s.visitors := rfl
@[simp] theorem State.raise_tlb (fl : BitVec 6) : (s.raise fl).tlb = s.tlb := rfl
@[simp] theorem State.raise_hbm (fl : BitVec 6) : (s.raise fl).hbm = s.hbm := rfl
@[simp] theorem State.raise_poison (fl : BitVec 6) : (s.raise fl).poison = s.poison := rfl
@[simp] theorem State.raise_recoded (fl : BitVec 6) : (s.raise fl).recoded = s.recoded := rfl
@[simp] theorem State.raise_spoiled (fl : BitVec 6) : (s.raise fl).spoiled = s.spoiled := rfl
@[simp] theorem State.raise_shore (fl : BitVec 6) : (s.raise fl).shore = s.shore := rfl
@[simp] theorem State.raise_timeFixed (fl : BitVec 6) : (s.raise fl).timeFixed = s.timeFixed := rfl
@[simp] theorem State.raise_shoreSeen (fl : BitVec 6) : (s.raise fl).shoreSeen = s.shoreSeen := rfl
@[simp] theorem State.raise_sinceSlew (fl : BitVec 6) : (s.raise fl).sinceSlew = s.sinceSlew := rfl
@[simp] theorem State.raise_sinceTime (fl : BitVec 6) : (s.raise fl).sinceTime = s.sinceTime := rfl
@[simp] theorem State.raise_slew (fl : BitVec 6) : (s.raise fl).slew = s.slew := rfl
@[simp] theorem State.raise_boundLost (fl : BitVec 6) : (s.raise fl).boundLost = s.boundLost := rfl
@[simp] theorem State.raise_cycle (fl : BitVec 6) : (s.raise fl).cycle = s.cycle := rfl
@[simp] theorem State.raise_seq (fl : BitVec 6) : (s.raise fl).seq = s.seq := rfl
@[simp] theorem State.raise_moving (fl : BitVec 6) : (s.raise fl).moving = s.moving := rfl
@[simp] theorem State.raise_moveErr (fl : BitVec 6) : (s.raise fl).moveErr = s.moveErr := rfl
@[simp] theorem State.raise_movePart (fl : BitVec 6) : (s.raise fl).movePart = s.movePart := rfl
@[simp] theorem State.raise_moveCore (fl : BitVec 6) : (s.raise fl).moveCore = s.moveCore := rfl
@[simp] theorem State.raise_rooms (fl : BitVec 6) : (s.raise fl).rooms = s.rooms := rfl
@[simp] theorem State.raise_freeReps (fl : BitVec 6) : (s.raise fl).freeReps = s.freeReps := rfl
@[simp] theorem State.raise_issued (fl : BitVec 6) : (s.raise fl).issued = s.issued := rfl
@[simp] theorem State.raise_asked (fl : BitVec 6) : (s.raise fl).asked = s.asked := rfl
@[simp] theorem State.raise_wrote (fl : BitVec 6) : (s.raise fl).wrote = s.wrote := rfl
@[simp] theorem State.raise_perf (fl : BitVec 6) : (s.raise fl).perf = s.perf := rfl
@[simp] theorem State.raise_snapshots (fl : BitVec 6) : (s.raise fl).snapshots = s.snapshots := rfl
@[simp] theorem State.raise_replies (fl : BitVec 6) : (s.raise fl).replies = s.replies := rfl
@[simp] theorem State.raise_lighthouse (fl : BitVec 6) : (s.raise fl).lighthouse = s.lighthouse := rfl
@[simp] theorem State.raise_agenda (fl : BitVec 6) : (s.raise fl).agenda = s.agenda := rfl
@[simp] theorem State.raise_choices (fl : BitVec 6) : (s.raise fl).choices = s.choices := rfl
@[simp] theorem State.raise_draws (fl : BitVec 6) : (s.raise fl).draws = s.draws := rfl
@[simp] theorem State.raise_cut (fl : BitVec 6) : (s.raise fl).cut = s.cut := rfl
@[simp] theorem State.raise_nextUid (fl : BitVec 6) : (s.raise fl).nextUid = s.nextUid := rfl

/-! `State.countCore` -/

@[simp] theorem State.countCore_cur (core part : Nat) (code : BitVec 8) (w : Nat) : (s.countCore core part code w).cur = s.cur := rfl
@[simp] theorem State.countCore_rest (core part : Nat) (code : BitVec 8) (w : Nat) : (s.countCore core part code w).rest = s.rest := rfl
@[simp] theorem State.countCore_launches (core part : Nat) (code : BitVec 8) (w : Nat) : (s.countCore core part code w).launches = s.launches := rfl
@[simp] theorem State.countCore_parts (core part : Nat) (code : BitVec 8) (w : Nat) : (s.countCore core part code w).parts = s.parts := rfl
@[simp] theorem State.countCore_runq (core part : Nat) (code : BitVec 8) (w : Nat) : (s.countCore core part code w).runq = s.runq := rfl
@[simp] theorem State.countCore_resumeq (core part : Nat) (code : BitVec 8) (w : Nat) : (s.countCore core part code w).resumeq = s.resumeq := rfl
@[simp] theorem State.countCore_reclaims (core part : Nat) (code : BitVec 8) (w : Nat) : (s.countCore core part code w).reclaims = s.reclaims := rfl
@[simp] theorem State.countCore_reserved (core part : Nat) (code : BitVec 8) (w : Nat) : (s.countCore core part code w).reserved = s.reserved := rfl
@[simp] theorem State.countCore_spawnTurn (core part : Nat) (code : BitVec 8) (w : Nat) : (s.countCore core part code w).spawnTurn = s.spawnTurn := rfl
@[simp] theorem State.countCore_cmds (core part : Nat) (code : BitVec 8) (w : Nat) : (s.countCore core part code w).cmds = s.cmds := rfl
@[simp] theorem State.countCore_queues (core part : Nat) (code : BitVec 8) (w : Nat) : (s.countCore core part code w).queues = s.queues := rfl
@[simp] theorem State.countCore_l1 (core part : Nat) (code : BitVec 8) (w : Nat) : (s.countCore core part code w).l1 = s.l1 := rfl
@[simp] theorem State.countCore_fused (core part : Nat) (code : BitVec 8) (w : Nat) : (s.countCore core part code w).fused = s.fused := rfl
@[simp] theorem State.countCore_l2 (core part : Nat) (code : BitVec 8) (w : Nat) : (s.countCore core part code w).l2 = s.l2 := rfl
@[simp] theorem State.countCore_visitors (core part : Nat) (code : BitVec 8) (w : Nat) : (s.countCore core part code w).visitors = s.visitors := rfl
@[simp] theorem State.countCore_tlb (core part : Nat) (code : BitVec 8) (w : Nat) : (s.countCore core part code w).tlb = s.tlb := rfl
@[simp] theorem State.countCore_hbm (core part : Nat) (code : BitVec 8) (w : Nat) : (s.countCore core part code w).hbm = s.hbm := rfl
@[simp] theorem State.countCore_poison (core part : Nat) (code : BitVec 8) (w : Nat) : (s.countCore core part code w).poison = s.poison := rfl
@[simp] theorem State.countCore_recoded (core part : Nat) (code : BitVec 8) (w : Nat) : (s.countCore core part code w).recoded = s.recoded := rfl
@[simp] theorem State.countCore_spoiled (core part : Nat) (code : BitVec 8) (w : Nat) : (s.countCore core part code w).spoiled = s.spoiled := rfl
@[simp] theorem State.countCore_shore (core part : Nat) (code : BitVec 8) (w : Nat) : (s.countCore core part code w).shore = s.shore := rfl
@[simp] theorem State.countCore_timeFixed (core part : Nat) (code : BitVec 8) (w : Nat) : (s.countCore core part code w).timeFixed = s.timeFixed := rfl
@[simp] theorem State.countCore_shoreSeen (core part : Nat) (code : BitVec 8) (w : Nat) : (s.countCore core part code w).shoreSeen = s.shoreSeen := rfl
@[simp] theorem State.countCore_sinceSlew (core part : Nat) (code : BitVec 8) (w : Nat) : (s.countCore core part code w).sinceSlew = s.sinceSlew := rfl
@[simp] theorem State.countCore_sinceTime (core part : Nat) (code : BitVec 8) (w : Nat) : (s.countCore core part code w).sinceTime = s.sinceTime := rfl
@[simp] theorem State.countCore_slew (core part : Nat) (code : BitVec 8) (w : Nat) : (s.countCore core part code w).slew = s.slew := rfl
@[simp] theorem State.countCore_boundLost (core part : Nat) (code : BitVec 8) (w : Nat) : (s.countCore core part code w).boundLost = s.boundLost := rfl
@[simp] theorem State.countCore_cycle (core part : Nat) (code : BitVec 8) (w : Nat) : (s.countCore core part code w).cycle = s.cycle := rfl
@[simp] theorem State.countCore_seq (core part : Nat) (code : BitVec 8) (w : Nat) : (s.countCore core part code w).seq = s.seq := rfl
@[simp] theorem State.countCore_moving (core part : Nat) (code : BitVec 8) (w : Nat) : (s.countCore core part code w).moving = s.moving := rfl
@[simp] theorem State.countCore_moveErr (core part : Nat) (code : BitVec 8) (w : Nat) : (s.countCore core part code w).moveErr = s.moveErr := rfl
@[simp] theorem State.countCore_movePart (core part : Nat) (code : BitVec 8) (w : Nat) : (s.countCore core part code w).movePart = s.movePart := rfl
@[simp] theorem State.countCore_moveCore (core part : Nat) (code : BitVec 8) (w : Nat) : (s.countCore core part code w).moveCore = s.moveCore := rfl
@[simp] theorem State.countCore_rooms (core part : Nat) (code : BitVec 8) (w : Nat) : (s.countCore core part code w).rooms = s.rooms := rfl
@[simp] theorem State.countCore_freeReps (core part : Nat) (code : BitVec 8) (w : Nat) : (s.countCore core part code w).freeReps = s.freeReps := rfl
@[simp] theorem State.countCore_issued (core part : Nat) (code : BitVec 8) (w : Nat) : (s.countCore core part code w).issued = s.issued := rfl
@[simp] theorem State.countCore_asked (core part : Nat) (code : BitVec 8) (w : Nat) : (s.countCore core part code w).asked = s.asked := rfl
@[simp] theorem State.countCore_wrote (core part : Nat) (code : BitVec 8) (w : Nat) : (s.countCore core part code w).wrote = s.wrote := rfl
@[simp] theorem State.countCore_snapshots (core part : Nat) (code : BitVec 8) (w : Nat) : (s.countCore core part code w).snapshots = s.snapshots := rfl
@[simp] theorem State.countCore_replies (core part : Nat) (code : BitVec 8) (w : Nat) : (s.countCore core part code w).replies = s.replies := rfl
@[simp] theorem State.countCore_lighthouse (core part : Nat) (code : BitVec 8) (w : Nat) : (s.countCore core part code w).lighthouse = s.lighthouse := rfl
@[simp] theorem State.countCore_agenda (core part : Nat) (code : BitVec 8) (w : Nat) : (s.countCore core part code w).agenda = s.agenda := rfl
@[simp] theorem State.countCore_choices (core part : Nat) (code : BitVec 8) (w : Nat) : (s.countCore core part code w).choices = s.choices := rfl
@[simp] theorem State.countCore_draws (core part : Nat) (code : BitVec 8) (w : Nat) : (s.countCore core part code w).draws = s.draws := rfl
@[simp] theorem State.countCore_cut (core part : Nat) (code : BitVec 8) (w : Nat) : (s.countCore core part code w).cut = s.cut := rfl
@[simp] theorem State.countCore_nextUid (core part : Nat) (code : BitVec 8) (w : Nat) : (s.countCore core part code w).nextUid = s.nextUid := rfl

/-! `State.countCur` -/

@[simp] theorem State.countCur_cur (code : BitVec 8) (w : Nat) : (s.countCur code w).cur = s.cur := rfl
@[simp] theorem State.countCur_rest (code : BitVec 8) (w : Nat) : (s.countCur code w).rest = s.rest := rfl
@[simp] theorem State.countCur_launches (code : BitVec 8) (w : Nat) : (s.countCur code w).launches = s.launches := rfl
@[simp] theorem State.countCur_parts (code : BitVec 8) (w : Nat) : (s.countCur code w).parts = s.parts := rfl
@[simp] theorem State.countCur_runq (code : BitVec 8) (w : Nat) : (s.countCur code w).runq = s.runq := rfl
@[simp] theorem State.countCur_resumeq (code : BitVec 8) (w : Nat) : (s.countCur code w).resumeq = s.resumeq := rfl
@[simp] theorem State.countCur_reclaims (code : BitVec 8) (w : Nat) : (s.countCur code w).reclaims = s.reclaims := rfl
@[simp] theorem State.countCur_reserved (code : BitVec 8) (w : Nat) : (s.countCur code w).reserved = s.reserved := rfl
@[simp] theorem State.countCur_spawnTurn (code : BitVec 8) (w : Nat) : (s.countCur code w).spawnTurn = s.spawnTurn := rfl
@[simp] theorem State.countCur_cmds (code : BitVec 8) (w : Nat) : (s.countCur code w).cmds = s.cmds := rfl
@[simp] theorem State.countCur_queues (code : BitVec 8) (w : Nat) : (s.countCur code w).queues = s.queues := rfl
@[simp] theorem State.countCur_l1 (code : BitVec 8) (w : Nat) : (s.countCur code w).l1 = s.l1 := rfl
@[simp] theorem State.countCur_fused (code : BitVec 8) (w : Nat) : (s.countCur code w).fused = s.fused := rfl
@[simp] theorem State.countCur_l2 (code : BitVec 8) (w : Nat) : (s.countCur code w).l2 = s.l2 := rfl
@[simp] theorem State.countCur_visitors (code : BitVec 8) (w : Nat) : (s.countCur code w).visitors = s.visitors := rfl
@[simp] theorem State.countCur_tlb (code : BitVec 8) (w : Nat) : (s.countCur code w).tlb = s.tlb := rfl
@[simp] theorem State.countCur_hbm (code : BitVec 8) (w : Nat) : (s.countCur code w).hbm = s.hbm := rfl
@[simp] theorem State.countCur_poison (code : BitVec 8) (w : Nat) : (s.countCur code w).poison = s.poison := rfl
@[simp] theorem State.countCur_recoded (code : BitVec 8) (w : Nat) : (s.countCur code w).recoded = s.recoded := rfl
@[simp] theorem State.countCur_spoiled (code : BitVec 8) (w : Nat) : (s.countCur code w).spoiled = s.spoiled := rfl
@[simp] theorem State.countCur_shore (code : BitVec 8) (w : Nat) : (s.countCur code w).shore = s.shore := rfl
@[simp] theorem State.countCur_timeFixed (code : BitVec 8) (w : Nat) : (s.countCur code w).timeFixed = s.timeFixed := rfl
@[simp] theorem State.countCur_shoreSeen (code : BitVec 8) (w : Nat) : (s.countCur code w).shoreSeen = s.shoreSeen := rfl
@[simp] theorem State.countCur_sinceSlew (code : BitVec 8) (w : Nat) : (s.countCur code w).sinceSlew = s.sinceSlew := rfl
@[simp] theorem State.countCur_sinceTime (code : BitVec 8) (w : Nat) : (s.countCur code w).sinceTime = s.sinceTime := rfl
@[simp] theorem State.countCur_slew (code : BitVec 8) (w : Nat) : (s.countCur code w).slew = s.slew := rfl
@[simp] theorem State.countCur_boundLost (code : BitVec 8) (w : Nat) : (s.countCur code w).boundLost = s.boundLost := rfl
@[simp] theorem State.countCur_cycle (code : BitVec 8) (w : Nat) : (s.countCur code w).cycle = s.cycle := rfl
@[simp] theorem State.countCur_seq (code : BitVec 8) (w : Nat) : (s.countCur code w).seq = s.seq := rfl
@[simp] theorem State.countCur_moving (code : BitVec 8) (w : Nat) : (s.countCur code w).moving = s.moving := rfl
@[simp] theorem State.countCur_moveErr (code : BitVec 8) (w : Nat) : (s.countCur code w).moveErr = s.moveErr := rfl
@[simp] theorem State.countCur_movePart (code : BitVec 8) (w : Nat) : (s.countCur code w).movePart = s.movePart := rfl
@[simp] theorem State.countCur_moveCore (code : BitVec 8) (w : Nat) : (s.countCur code w).moveCore = s.moveCore := rfl
@[simp] theorem State.countCur_rooms (code : BitVec 8) (w : Nat) : (s.countCur code w).rooms = s.rooms := rfl
@[simp] theorem State.countCur_freeReps (code : BitVec 8) (w : Nat) : (s.countCur code w).freeReps = s.freeReps := rfl
@[simp] theorem State.countCur_issued (code : BitVec 8) (w : Nat) : (s.countCur code w).issued = s.issued := rfl
@[simp] theorem State.countCur_asked (code : BitVec 8) (w : Nat) : (s.countCur code w).asked = s.asked := rfl
@[simp] theorem State.countCur_wrote (code : BitVec 8) (w : Nat) : (s.countCur code w).wrote = s.wrote := rfl
@[simp] theorem State.countCur_snapshots (code : BitVec 8) (w : Nat) : (s.countCur code w).snapshots = s.snapshots := rfl
@[simp] theorem State.countCur_replies (code : BitVec 8) (w : Nat) : (s.countCur code w).replies = s.replies := rfl
@[simp] theorem State.countCur_lighthouse (code : BitVec 8) (w : Nat) : (s.countCur code w).lighthouse = s.lighthouse := rfl
@[simp] theorem State.countCur_agenda (code : BitVec 8) (w : Nat) : (s.countCur code w).agenda = s.agenda := rfl
@[simp] theorem State.countCur_choices (code : BitVec 8) (w : Nat) : (s.countCur code w).choices = s.choices := rfl
@[simp] theorem State.countCur_draws (code : BitVec 8) (w : Nat) : (s.countCur code w).draws = s.draws := rfl
@[simp] theorem State.countCur_cut (code : BitVec 8) (w : Nat) : (s.countCur code w).cut = s.cut := rfl
@[simp] theorem State.countCur_nextUid (code : BitVec 8) (w : Nat) : (s.countCur code w).nextUid = s.nextUid := rfl

/-! `State.mapHarts` -/

@[simp] theorem State.mapHarts_launches (f : Hart → Hart) : (s.mapHarts f).launches = s.launches := rfl
@[simp] theorem State.mapHarts_parts (f : Hart → Hart) : (s.mapHarts f).parts = s.parts := rfl
@[simp] theorem State.mapHarts_runq (f : Hart → Hart) : (s.mapHarts f).runq = s.runq := rfl
@[simp] theorem State.mapHarts_resumeq (f : Hart → Hart) : (s.mapHarts f).resumeq = s.resumeq := rfl
@[simp] theorem State.mapHarts_reclaims (f : Hart → Hart) : (s.mapHarts f).reclaims = s.reclaims := rfl
@[simp] theorem State.mapHarts_reserved (f : Hart → Hart) : (s.mapHarts f).reserved = s.reserved := rfl
@[simp] theorem State.mapHarts_spawnTurn (f : Hart → Hart) : (s.mapHarts f).spawnTurn = s.spawnTurn := rfl
@[simp] theorem State.mapHarts_cmds (f : Hart → Hart) : (s.mapHarts f).cmds = s.cmds := rfl
@[simp] theorem State.mapHarts_queues (f : Hart → Hart) : (s.mapHarts f).queues = s.queues := rfl
@[simp] theorem State.mapHarts_l1 (f : Hart → Hart) : (s.mapHarts f).l1 = s.l1 := rfl
@[simp] theorem State.mapHarts_fused (f : Hart → Hart) : (s.mapHarts f).fused = s.fused := rfl
@[simp] theorem State.mapHarts_l2 (f : Hart → Hart) : (s.mapHarts f).l2 = s.l2 := rfl
@[simp] theorem State.mapHarts_visitors (f : Hart → Hart) : (s.mapHarts f).visitors = s.visitors := rfl
@[simp] theorem State.mapHarts_tlb (f : Hart → Hart) : (s.mapHarts f).tlb = s.tlb := rfl
@[simp] theorem State.mapHarts_hbm (f : Hart → Hart) : (s.mapHarts f).hbm = s.hbm := rfl
@[simp] theorem State.mapHarts_poison (f : Hart → Hart) : (s.mapHarts f).poison = s.poison := rfl
@[simp] theorem State.mapHarts_recoded (f : Hart → Hart) : (s.mapHarts f).recoded = s.recoded := rfl
@[simp] theorem State.mapHarts_spoiled (f : Hart → Hart) : (s.mapHarts f).spoiled = s.spoiled := rfl
@[simp] theorem State.mapHarts_shore (f : Hart → Hart) : (s.mapHarts f).shore = s.shore := rfl
@[simp] theorem State.mapHarts_timeFixed (f : Hart → Hart) : (s.mapHarts f).timeFixed = s.timeFixed := rfl
@[simp] theorem State.mapHarts_shoreSeen (f : Hart → Hart) : (s.mapHarts f).shoreSeen = s.shoreSeen := rfl
@[simp] theorem State.mapHarts_sinceSlew (f : Hart → Hart) : (s.mapHarts f).sinceSlew = s.sinceSlew := rfl
@[simp] theorem State.mapHarts_sinceTime (f : Hart → Hart) : (s.mapHarts f).sinceTime = s.sinceTime := rfl
@[simp] theorem State.mapHarts_slew (f : Hart → Hart) : (s.mapHarts f).slew = s.slew := rfl
@[simp] theorem State.mapHarts_boundLost (f : Hart → Hart) : (s.mapHarts f).boundLost = s.boundLost := rfl
@[simp] theorem State.mapHarts_cycle (f : Hart → Hart) : (s.mapHarts f).cycle = s.cycle := rfl
@[simp] theorem State.mapHarts_seq (f : Hart → Hart) : (s.mapHarts f).seq = s.seq := rfl
@[simp] theorem State.mapHarts_moving (f : Hart → Hart) : (s.mapHarts f).moving = s.moving := rfl
@[simp] theorem State.mapHarts_moveErr (f : Hart → Hart) : (s.mapHarts f).moveErr = s.moveErr := rfl
@[simp] theorem State.mapHarts_movePart (f : Hart → Hart) : (s.mapHarts f).movePart = s.movePart := rfl
@[simp] theorem State.mapHarts_moveCore (f : Hart → Hart) : (s.mapHarts f).moveCore = s.moveCore := rfl
@[simp] theorem State.mapHarts_rooms (f : Hart → Hart) : (s.mapHarts f).rooms = s.rooms := rfl
@[simp] theorem State.mapHarts_freeReps (f : Hart → Hart) : (s.mapHarts f).freeReps = s.freeReps := rfl
@[simp] theorem State.mapHarts_issued (f : Hart → Hart) : (s.mapHarts f).issued = s.issued := rfl
@[simp] theorem State.mapHarts_asked (f : Hart → Hart) : (s.mapHarts f).asked = s.asked := rfl
@[simp] theorem State.mapHarts_wrote (f : Hart → Hart) : (s.mapHarts f).wrote = s.wrote := rfl
@[simp] theorem State.mapHarts_perf (f : Hart → Hart) : (s.mapHarts f).perf = s.perf := rfl
@[simp] theorem State.mapHarts_snapshots (f : Hart → Hart) : (s.mapHarts f).snapshots = s.snapshots := rfl
@[simp] theorem State.mapHarts_replies (f : Hart → Hart) : (s.mapHarts f).replies = s.replies := rfl
@[simp] theorem State.mapHarts_lighthouse (f : Hart → Hart) : (s.mapHarts f).lighthouse = s.lighthouse := rfl
@[simp] theorem State.mapHarts_agenda (f : Hart → Hart) : (s.mapHarts f).agenda = s.agenda := rfl
@[simp] theorem State.mapHarts_choices (f : Hart → Hart) : (s.mapHarts f).choices = s.choices := rfl
@[simp] theorem State.mapHarts_draws (f : Hart → Hart) : (s.mapHarts f).draws = s.draws := rfl
@[simp] theorem State.mapHarts_cut (f : Hart → Hart) : (s.mapHarts f).cut = s.cut := rfl
@[simp] theorem State.mapHarts_nextUid (f : Hart → Hart) : (s.mapHarts f).nextUid = s.nextUid := rfl

/-! `State.retireTo` -/

@[simp] theorem State.retireTo_rest (next : Word) : (s.retireTo next).rest = s.rest := by unfold State.retireTo; split <;> rfl
@[simp] theorem State.retireTo_launches (next : Word) : (s.retireTo next).launches = s.launches := by unfold State.retireTo; split <;> rfl
@[simp] theorem State.retireTo_parts (next : Word) : (s.retireTo next).parts = s.parts := by unfold State.retireTo; split <;> rfl
@[simp] theorem State.retireTo_runq (next : Word) : (s.retireTo next).runq = s.runq := by unfold State.retireTo; split <;> rfl
@[simp] theorem State.retireTo_resumeq (next : Word) : (s.retireTo next).resumeq = s.resumeq := by unfold State.retireTo; split <;> rfl
@[simp] theorem State.retireTo_reclaims (next : Word) : (s.retireTo next).reclaims = s.reclaims := by unfold State.retireTo; split <;> rfl
@[simp] theorem State.retireTo_reserved (next : Word) : (s.retireTo next).reserved = s.reserved := by unfold State.retireTo; split <;> rfl
@[simp] theorem State.retireTo_spawnTurn (next : Word) : (s.retireTo next).spawnTurn = s.spawnTurn := by unfold State.retireTo; split <;> rfl
@[simp] theorem State.retireTo_cmds (next : Word) : (s.retireTo next).cmds = s.cmds := by unfold State.retireTo; split <;> rfl
@[simp] theorem State.retireTo_queues (next : Word) : (s.retireTo next).queues = s.queues := by unfold State.retireTo; split <;> rfl
@[simp] theorem State.retireTo_l1 (next : Word) : (s.retireTo next).l1 = s.l1 := by unfold State.retireTo; split <;> rfl
@[simp] theorem State.retireTo_fused (next : Word) : (s.retireTo next).fused = s.fused := by unfold State.retireTo; split <;> rfl
@[simp] theorem State.retireTo_l2 (next : Word) : (s.retireTo next).l2 = s.l2 := by unfold State.retireTo; split <;> rfl
@[simp] theorem State.retireTo_visitors (next : Word) : (s.retireTo next).visitors = s.visitors := by unfold State.retireTo; split <;> rfl
@[simp] theorem State.retireTo_tlb (next : Word) : (s.retireTo next).tlb = s.tlb := by unfold State.retireTo; split <;> rfl
@[simp] theorem State.retireTo_hbm (next : Word) : (s.retireTo next).hbm = s.hbm := by unfold State.retireTo; split <;> rfl
@[simp] theorem State.retireTo_poison (next : Word) : (s.retireTo next).poison = s.poison := by unfold State.retireTo; split <;> rfl
@[simp] theorem State.retireTo_recoded (next : Word) : (s.retireTo next).recoded = s.recoded := by unfold State.retireTo; split <;> rfl
@[simp] theorem State.retireTo_spoiled (next : Word) : (s.retireTo next).spoiled = s.spoiled := by unfold State.retireTo; split <;> rfl
@[simp] theorem State.retireTo_shore (next : Word) : (s.retireTo next).shore = s.shore := by unfold State.retireTo; split <;> rfl
@[simp] theorem State.retireTo_timeFixed (next : Word) : (s.retireTo next).timeFixed = s.timeFixed := by unfold State.retireTo; split <;> rfl
@[simp] theorem State.retireTo_shoreSeen (next : Word) : (s.retireTo next).shoreSeen = s.shoreSeen := by unfold State.retireTo; split <;> rfl
@[simp] theorem State.retireTo_sinceSlew (next : Word) : (s.retireTo next).sinceSlew = s.sinceSlew := by unfold State.retireTo; split <;> rfl
@[simp] theorem State.retireTo_sinceTime (next : Word) : (s.retireTo next).sinceTime = s.sinceTime := by unfold State.retireTo; split <;> rfl
@[simp] theorem State.retireTo_slew (next : Word) : (s.retireTo next).slew = s.slew := by unfold State.retireTo; split <;> rfl
@[simp] theorem State.retireTo_boundLost (next : Word) : (s.retireTo next).boundLost = s.boundLost := by unfold State.retireTo; split <;> rfl
@[simp] theorem State.retireTo_cycle (next : Word) : (s.retireTo next).cycle = s.cycle := by unfold State.retireTo; split <;> rfl
@[simp] theorem State.retireTo_seq (next : Word) : (s.retireTo next).seq = s.seq := by unfold State.retireTo; split <;> rfl
@[simp] theorem State.retireTo_moving (next : Word) : (s.retireTo next).moving = s.moving := by unfold State.retireTo; split <;> rfl
@[simp] theorem State.retireTo_moveErr (next : Word) : (s.retireTo next).moveErr = s.moveErr := by unfold State.retireTo; split <;> rfl
@[simp] theorem State.retireTo_movePart (next : Word) : (s.retireTo next).movePart = s.movePart := by unfold State.retireTo; split <;> rfl
@[simp] theorem State.retireTo_moveCore (next : Word) : (s.retireTo next).moveCore = s.moveCore := by unfold State.retireTo; split <;> rfl
@[simp] theorem State.retireTo_rooms (next : Word) : (s.retireTo next).rooms = s.rooms := by unfold State.retireTo; split <;> rfl
@[simp] theorem State.retireTo_freeReps (next : Word) : (s.retireTo next).freeReps = s.freeReps := by unfold State.retireTo; split <;> rfl
@[simp] theorem State.retireTo_issued (next : Word) : (s.retireTo next).issued = s.issued := by unfold State.retireTo; split <;> rfl
@[simp] theorem State.retireTo_asked (next : Word) : (s.retireTo next).asked = s.asked := by unfold State.retireTo; split <;> rfl
@[simp] theorem State.retireTo_wrote (next : Word) : (s.retireTo next).wrote = s.wrote := by unfold State.retireTo; split <;> rfl
@[simp] theorem State.retireTo_snapshots (next : Word) : (s.retireTo next).snapshots = s.snapshots := by unfold State.retireTo; split <;> rfl
@[simp] theorem State.retireTo_replies (next : Word) : (s.retireTo next).replies = s.replies := by unfold State.retireTo; split <;> rfl
@[simp] theorem State.retireTo_lighthouse (next : Word) : (s.retireTo next).lighthouse = s.lighthouse := by unfold State.retireTo; split <;> rfl
@[simp] theorem State.retireTo_agenda (next : Word) : (s.retireTo next).agenda = s.agenda := by unfold State.retireTo; split <;> rfl
@[simp] theorem State.retireTo_choices (next : Word) : (s.retireTo next).choices = s.choices := by unfold State.retireTo; split <;> rfl
@[simp] theorem State.retireTo_draws (next : Word) : (s.retireTo next).draws = s.draws := by unfold State.retireTo; split <;> rfl
@[simp] theorem State.retireTo_cut (next : Word) : (s.retireTo next).cut = s.cut := by unfold State.retireTo; split <;> rfl
@[simp] theorem State.retireTo_nextUid (next : Word) : (s.retireTo next).nextUid = s.nextUid := by unfold State.retireTo; split <;> rfl

/-! `State.retire` -/

@[simp] theorem State.retire_rest : (s.retire).rest = s.rest := by unfold State.retire; simp
@[simp] theorem State.retire_launches : (s.retire).launches = s.launches := by unfold State.retire; simp
@[simp] theorem State.retire_parts : (s.retire).parts = s.parts := by unfold State.retire; simp
@[simp] theorem State.retire_runq : (s.retire).runq = s.runq := by unfold State.retire; simp
@[simp] theorem State.retire_resumeq : (s.retire).resumeq = s.resumeq := by unfold State.retire; simp
@[simp] theorem State.retire_reclaims : (s.retire).reclaims = s.reclaims := by unfold State.retire; simp
@[simp] theorem State.retire_reserved : (s.retire).reserved = s.reserved := by unfold State.retire; simp
@[simp] theorem State.retire_spawnTurn : (s.retire).spawnTurn = s.spawnTurn := by unfold State.retire; simp
@[simp] theorem State.retire_cmds : (s.retire).cmds = s.cmds := by unfold State.retire; simp
@[simp] theorem State.retire_queues : (s.retire).queues = s.queues := by unfold State.retire; simp
@[simp] theorem State.retire_l1 : (s.retire).l1 = s.l1 := by unfold State.retire; simp
@[simp] theorem State.retire_fused : (s.retire).fused = s.fused := by unfold State.retire; simp
@[simp] theorem State.retire_l2 : (s.retire).l2 = s.l2 := by unfold State.retire; simp
@[simp] theorem State.retire_visitors : (s.retire).visitors = s.visitors := by unfold State.retire; simp
@[simp] theorem State.retire_tlb : (s.retire).tlb = s.tlb := by unfold State.retire; simp
@[simp] theorem State.retire_hbm : (s.retire).hbm = s.hbm := by unfold State.retire; simp
@[simp] theorem State.retire_poison : (s.retire).poison = s.poison := by unfold State.retire; simp
@[simp] theorem State.retire_recoded : (s.retire).recoded = s.recoded := by unfold State.retire; simp
@[simp] theorem State.retire_spoiled : (s.retire).spoiled = s.spoiled := by unfold State.retire; simp
@[simp] theorem State.retire_shore : (s.retire).shore = s.shore := by unfold State.retire; simp
@[simp] theorem State.retire_timeFixed : (s.retire).timeFixed = s.timeFixed := by unfold State.retire; simp
@[simp] theorem State.retire_shoreSeen : (s.retire).shoreSeen = s.shoreSeen := by unfold State.retire; simp
@[simp] theorem State.retire_sinceSlew : (s.retire).sinceSlew = s.sinceSlew := by unfold State.retire; simp
@[simp] theorem State.retire_sinceTime : (s.retire).sinceTime = s.sinceTime := by unfold State.retire; simp
@[simp] theorem State.retire_slew : (s.retire).slew = s.slew := by unfold State.retire; simp
@[simp] theorem State.retire_boundLost : (s.retire).boundLost = s.boundLost := by unfold State.retire; simp
@[simp] theorem State.retire_cycle : (s.retire).cycle = s.cycle := by unfold State.retire; simp
@[simp] theorem State.retire_seq : (s.retire).seq = s.seq := by unfold State.retire; simp
@[simp] theorem State.retire_moving : (s.retire).moving = s.moving := by unfold State.retire; simp
@[simp] theorem State.retire_moveErr : (s.retire).moveErr = s.moveErr := by unfold State.retire; simp
@[simp] theorem State.retire_movePart : (s.retire).movePart = s.movePart := by unfold State.retire; simp
@[simp] theorem State.retire_moveCore : (s.retire).moveCore = s.moveCore := by unfold State.retire; simp
@[simp] theorem State.retire_rooms : (s.retire).rooms = s.rooms := by unfold State.retire; simp
@[simp] theorem State.retire_freeReps : (s.retire).freeReps = s.freeReps := by unfold State.retire; simp
@[simp] theorem State.retire_issued : (s.retire).issued = s.issued := by unfold State.retire; simp
@[simp] theorem State.retire_asked : (s.retire).asked = s.asked := by unfold State.retire; simp
@[simp] theorem State.retire_wrote : (s.retire).wrote = s.wrote := by unfold State.retire; simp
@[simp] theorem State.retire_snapshots : (s.retire).snapshots = s.snapshots := by unfold State.retire; simp
@[simp] theorem State.retire_replies : (s.retire).replies = s.replies := by unfold State.retire; simp
@[simp] theorem State.retire_lighthouse : (s.retire).lighthouse = s.lighthouse := by unfold State.retire; simp
@[simp] theorem State.retire_agenda : (s.retire).agenda = s.agenda := by unfold State.retire; simp
@[simp] theorem State.retire_choices : (s.retire).choices = s.choices := by unfold State.retire; simp
@[simp] theorem State.retire_draws : (s.retire).draws = s.draws := by unfold State.retire; simp
@[simp] theorem State.retire_cut : (s.retire).cut = s.cut := by unfold State.retire; simp
@[simp] theorem State.retire_nextUid : (s.retire).nextUid = s.nextUid := by unfold State.retire; simp

/-! The hart in front after an update -/

@[simp] theorem State.setX_cur (r : BitVec 5) (v : Word) : (s.setX r v).cur = s.cur.setX r v := rfl
@[simp] theorem State.setC_cur (r : BitVec 3) (v : Bool) : (s.setC r v).cur = s.cur.setC r v := rfl
@[simp] theorem State.onCur_cur (f : Hart → Hart) : (s.onCur f).cur = f s.cur := rfl
@[simp] theorem State.raise_cur (fl : BitVec 6) : (s.raise fl).cur = { s.cur with fflags := s.cur.fflags ||| fl } := rfl
@[simp] theorem State.mapHarts_cur (f : Hart → Hart) : (s.mapHarts f).cur = f s.cur := rfl

/-! The hart in front after completion -/

@[simp] theorem State.retireTo_cur_uid (next : Word) : (s.retireTo next).cur.uid = s.cur.uid := by
  unfold State.retireTo; split <;> simp [*, Hart.reforkLead]
@[simp] theorem State.retire_cur_uid : s.retire.cur.uid = s.cur.uid := by unfold State.retire; simp
@[simp] theorem State.retireTo_cur_launch (next : Word) : (s.retireTo next).cur.launch = s.cur.launch := by
  unfold State.retireTo; split <;> simp [*, Hart.reforkLead]
@[simp] theorem State.retire_cur_launch : s.retire.cur.launch = s.cur.launch := by unfold State.retire; simp
@[simp] theorem State.retireTo_cur_part (next : Word) : (s.retireTo next).cur.part = s.cur.part := by
  unfold State.retireTo; split <;> simp [*, Hart.reforkLead]
@[simp] theorem State.retire_cur_part : s.retire.cur.part = s.cur.part := by unfold State.retire; simp
@[simp] theorem State.retireTo_cur_index (next : Word) : (s.retireTo next).cur.index = s.cur.index := by
  unfold State.retireTo; split <;> simp [*, Hart.reforkLead]
@[simp] theorem State.retire_cur_index : s.retire.cur.index = s.cur.index := by unfold State.retire; simp
@[simp] theorem State.retireTo_cur_group (next : Word) : (s.retireTo next).cur.group = s.cur.group := by
  unfold State.retireTo; split <;> simp [*, Hart.reforkLead]
@[simp] theorem State.retire_cur_group : s.retire.cur.group = s.cur.group := by unfold State.retire; simp
@[simp] theorem State.retireTo_cur_cls (next : Word) : (s.retireTo next).cur.cls = s.cur.cls := by
  unfold State.retireTo; split <;> simp [*, Hart.reforkLead]
@[simp] theorem State.retire_cur_cls : s.retire.cur.cls = s.cur.cls := by unfold State.retire; simp
@[simp] theorem State.retireTo_cur_place (next : Word) : (s.retireTo next).cur.place = s.cur.place := by
  unfold State.retireTo; split <;> simp [*, Hart.reforkLead]
@[simp] theorem State.retire_cur_place : s.retire.cur.place = s.cur.place := by unfold State.retire; simp
@[simp] theorem State.retireTo_cur_placedAt (next : Word) : (s.retireTo next).cur.placedAt = s.cur.placedAt := by
  unfold State.retireTo; split <;> simp [*, Hart.reforkLead]
@[simp] theorem State.retire_cur_placedAt : s.retire.cur.placedAt = s.cur.placedAt := by unfold State.retire; simp
@[simp] theorem State.retireTo_cur_handle (next : Word) : (s.retireTo next).cur.handle = s.cur.handle := by
  unfold State.retireTo; split <;> simp [*, Hart.reforkLead]
@[simp] theorem State.retire_cur_handle : s.retire.cur.handle = s.cur.handle := by unfold State.retire; simp
@[simp] theorem State.retireTo_cur_areaCells (next : Word) : (s.retireTo next).cur.areaCells = s.cur.areaCells := by
  unfold State.retireTo; split <;> simp [*, Hart.reforkLead]
@[simp] theorem State.retire_cur_areaCells : s.retire.cur.areaCells = s.cur.areaCells := by unfold State.retire; simp
@[simp] theorem State.retireTo_cur_x (next : Word) : (s.retireTo next).cur.x = s.cur.x := by
  unfold State.retireTo; split <;> simp [*, Hart.reforkLead]
@[simp] theorem State.retire_cur_x : s.retire.cur.x = s.cur.x := by unfold State.retire; simp
@[simp] theorem State.retireTo_cur_c (next : Word) : (s.retireTo next).cur.c = s.cur.c := by
  unfold State.retireTo; split <;> simp [*, Hart.reforkLead]
@[simp] theorem State.retire_cur_c : s.retire.cur.c = s.cur.c := by unfold State.retire; simp
@[simp] theorem State.retireTo_cur_v (next : Word) : (s.retireTo next).cur.v = s.cur.v := by
  unfold State.retireTo; split <;> simp [*, Hart.reforkLead]
@[simp] theorem State.retire_cur_v : s.retire.cur.v = s.cur.v := by unfold State.retire; simp
@[simp] theorem State.retireTo_cur_m (next : Word) : (s.retireTo next).cur.m = s.cur.m := by
  unfold State.retireTo; split <;> simp [*, Hart.reforkLead]
@[simp] theorem State.retire_cur_m : s.retire.cur.m = s.cur.m := by unfold State.retire; simp
@[simp] theorem State.retireTo_cur_vbad (next : Word) : (s.retireTo next).cur.vbad = s.cur.vbad := by
  unfold State.retireTo; split <;> simp [*, Hart.reforkLead]
@[simp] theorem State.retire_cur_vbad : s.retire.cur.vbad = s.cur.vbad := by unfold State.retire; simp
@[simp] theorem State.retireTo_cur_mbad (next : Word) : (s.retireTo next).cur.mbad = s.cur.mbad := by
  unfold State.retireTo; split <;> simp [*, Hart.reforkLead]
@[simp] theorem State.retire_cur_mbad : s.retire.cur.mbad = s.cur.mbad := by unfold State.retire; simp
@[simp] theorem State.retireTo_cur_tbad (next : Word) : (s.retireTo next).cur.tbad = s.cur.tbad := by
  unfold State.retireTo; split <;> simp [*, Hart.reforkLead]
@[simp] theorem State.retire_cur_tbad : s.retire.cur.tbad = s.cur.tbad := by unfold State.retire; simp
@[simp] theorem State.retireTo_cur_ltag (next : Word) : (s.retireTo next).cur.ltag = s.cur.ltag := by
  unfold State.retireTo; split <;> simp [*, Hart.reforkLead]
@[simp] theorem State.retire_cur_ltag : s.retire.cur.ltag = s.cur.ltag := by unfold State.retire; simp
@[simp] theorem State.retireTo_cur_vlen (next : Word) : (s.retireTo next).cur.vlen = s.cur.vlen := by
  unfold State.retireTo; split <;> simp [*, Hart.reforkLead]
@[simp] theorem State.retire_cur_vlen : s.retire.cur.vlen = s.cur.vlen := by unfold State.retire; simp
@[simp] theorem State.retireTo_cur_vlmax (next : Word) : (s.retireTo next).cur.vlmax = s.cur.vlmax := by
  unfold State.retireTo; split <;> simp [*, Hart.reforkLead]
@[simp] theorem State.retire_cur_vlmax : s.retire.cur.vlmax = s.cur.vlmax := by unfold State.retire; simp
@[simp] theorem State.retireTo_cur_vgrant (next : Word) : (s.retireTo next).cur.vgrant = s.cur.vgrant := by
  unfold State.retireTo; split <;> simp [*, Hart.reforkLead]
@[simp] theorem State.retire_cur_vgrant : s.retire.cur.vgrant = s.cur.vgrant := by unfold State.retire; simp
@[simp] theorem State.retireTo_cur_held (next : Word) : (s.retireTo next).cur.held = s.cur.held := by
  unfold State.retireTo; split <;> simp [*, Hart.reforkLead]
@[simp] theorem State.retire_cur_held : s.retire.cur.held = s.cur.held := by unfold State.retire; simp
@[simp] theorem State.retireTo_cur_progress (next : Word) : (s.retireTo next).cur.progress = s.cur.progress := by
  unfold State.retireTo; split <;> simp [*, Hart.reforkLead]
@[simp] theorem State.retire_cur_progress : s.retire.cur.progress = s.cur.progress := by unfold State.retire; simp
@[simp] theorem State.retireTo_cur_heldProgress (next : Word) : (s.retireTo next).cur.heldProgress = s.cur.heldProgress := by
  unfold State.retireTo; split <;> simp [*, Hart.reforkLead]
@[simp] theorem State.retire_cur_heldProgress : s.retire.cur.heldProgress = s.cur.heldProgress := by unfold State.retire; simp
@[simp] theorem State.retireTo_cur_fmode (next : Word) : (s.retireTo next).cur.fmode = s.cur.fmode := by
  unfold State.retireTo; split <;> simp [*, Hart.reforkLead]
@[simp] theorem State.retire_cur_fmode : s.retire.cur.fmode = s.cur.fmode := by unfold State.retire; simp
@[simp] theorem State.retireTo_cur_fflags (next : Word) : (s.retireTo next).cur.fflags = s.cur.fflags := by
  unfold State.retireTo; split <;> simp [*, Hart.reforkLead]
@[simp] theorem State.retire_cur_fflags : s.retire.cur.fflags = s.cur.fflags := by unfold State.retire; simp
@[simp] theorem State.retireTo_cur_rkey (next : Word) : (s.retireTo next).cur.rkey = s.cur.rkey := by
  unfold State.retireTo; split <;> simp [*, Hart.reforkLead]
@[simp] theorem State.retire_cur_rkey : s.retire.cur.rkey = s.cur.rkey := by unfold State.retire; simp
@[simp] theorem State.retireTo_cur_lslip (next : Word) : (s.retireTo next).cur.lslip = s.cur.lslip := by
  unfold State.retireTo; split <;> simp [*, Hart.reforkLead]
@[simp] theorem State.retire_cur_lslip : s.retire.cur.lslip = s.cur.lslip := by unfold State.retire; simp
@[simp] theorem State.retireTo_cur_lskew (next : Word) : (s.retireTo next).cur.lskew = s.cur.lskew := by
  unfold State.retireTo; split <;> simp [*, Hart.reforkLead]
@[simp] theorem State.retire_cur_lskew : s.retire.cur.lskew = s.cur.lskew := by unfold State.retire; simp
@[simp] theorem State.retireTo_cur_vbyp (next : Word) : (s.retireTo next).cur.vbyp = s.cur.vbyp := by
  unfold State.retireTo; split <;> simp [*, Hart.reforkLead]
@[simp] theorem State.retire_cur_vbyp : s.retire.cur.vbyp = s.cur.vbyp := by unfold State.retire; simp
@[simp] theorem State.retireTo_cur_rad (next : Word) : (s.retireTo next).cur.rad = s.cur.rad := by
  unfold State.retireTo; split <;> simp [*, Hart.reforkLead]
@[simp] theorem State.retire_cur_rad : s.retire.cur.rad = s.cur.rad := by unfold State.retire; simp
@[simp] theorem State.retireTo_cur_leadActive (next : Word) : (s.retireTo next).cur.leadActive = s.cur.leadActive := by
  unfold State.retireTo; split <;> simp [*, Hart.reforkLead]
@[simp] theorem State.retire_cur_leadActive : s.retire.cur.leadActive = s.cur.leadActive := by unfold State.retire; simp
@[simp] theorem State.retireTo_cur_cw (next : Word) : (s.retireTo next).cur.cw = s.cur.cw := by
  unfold State.retireTo; split <;> simp [*, Hart.reforkLead]
@[simp] theorem State.retire_cur_cw : s.retire.cur.cw = s.cur.cw := by unfold State.retire; simp
@[simp] theorem State.retireTo_cur_tagmap (next : Word) : (s.retireTo next).cur.tagmap = s.cur.tagmap := by
  unfold State.retireTo; split <;> simp [*, Hart.reforkLead]
@[simp] theorem State.retire_cur_tagmap : s.retire.cur.tagmap = s.cur.tagmap := by unfold State.retire; simp
@[simp] theorem State.retireTo_cur_hid (next : Word) : (s.retireTo next).cur.hid = s.cur.hid := by
  unfold State.retireTo; split <;> simp [*, Hart.reforkLead]
@[simp] theorem State.retire_cur_hid : s.retire.cur.hid = s.cur.hid := by unfold State.retire; simp
@[simp] theorem State.retireTo_cur_status (next : Word) : (s.retireTo next).cur.status = s.cur.status := by
  unfold State.retireTo; split <;> simp [*, Hart.reforkLead]
@[simp] theorem State.retire_cur_status : s.retire.cur.status = s.cur.status := by unfold State.retire; simp
@[simp] theorem State.retireTo_cur_epc (next : Word) : (s.retireTo next).cur.epc = s.cur.epc := by
  unfold State.retireTo; split <;> simp [*, Hart.reforkLead]
@[simp] theorem State.retire_cur_epc : s.retire.cur.epc = s.cur.epc := by unfold State.retire; simp
@[simp] theorem State.retireTo_cur_tcause (next : Word) : (s.retireTo next).cur.tcause = s.cur.tcause := by
  unfold State.retireTo; split <;> simp [*, Hart.reforkLead]
@[simp] theorem State.retire_cur_tcause : s.retire.cur.tcause = s.cur.tcause := by unfold State.retire; simp
@[simp] theorem State.retireTo_cur_tval (next : Word) : (s.retireTo next).cur.tval = s.cur.tval := by
  unfold State.retireTo; split <;> simp [*, Hart.reforkLead]
@[simp] theorem State.retire_cur_tval : s.retire.cur.tval = s.cur.tval := by unfold State.retire; simp
@[simp] theorem State.retireTo_cur_tidx (next : Word) : (s.retireTo next).cur.tidx = s.cur.tidx := by
  unfold State.retireTo; split <;> simp [*, Hart.reforkLead]
@[simp] theorem State.retire_cur_tidx : s.retire.cur.tidx = s.cur.tidx := by unfold State.retire; simp
@[simp] theorem State.retireTo_cur_tvec (next : Word) : (s.retireTo next).cur.tvec = s.cur.tvec := by
  unfold State.retireTo; split <;> simp [*, Hart.reforkLead]
@[simp] theorem State.retire_cur_tvec : s.retire.cur.tvec = s.cur.tvec := by unfold State.retire; simp
@[simp] theorem State.retireTo_cur_tiles (next : Word) : (s.retireTo next).cur.tiles = s.cur.tiles := by
  unfold State.retireTo; split <;> simp [*, Hart.reforkLead]
@[simp] theorem State.retire_cur_tiles : s.retire.cur.tiles = s.cur.tiles := by unfold State.retire; simp
@[simp] theorem State.retireTo_cur_bound (next : Word) : (s.retireTo next).cur.bound = s.cur.bound := by
  unfold State.retireTo; split <;> simp [*, Hart.reforkLead]
@[simp] theorem State.retire_cur_bound : s.retire.cur.bound = s.cur.bound := by unfold State.retire; simp
@[simp] theorem State.retireTo_cur_links (next : Word) : (s.retireTo next).cur.links = s.cur.links := by
  unfold State.retireTo; split <;> simp [*, Hart.reforkLead]
@[simp] theorem State.retire_cur_links : s.retire.cur.links = s.cur.links := by unfold State.retire; simp
@[simp] theorem State.retireTo_cur_tags (next : Word) : (s.retireTo next).cur.tags = s.cur.tags := by
  unfold State.retireTo; split <;> simp [*, Hart.reforkLead]
@[simp] theorem State.retire_cur_tags : s.retire.cur.tags = s.cur.tags := by unfold State.retire; simp
@[simp] theorem State.retireTo_cur_slots (next : Word) : (s.retireTo next).cur.slots = s.cur.slots := by
  unfold State.retireTo; split <;> simp [*, Hart.reforkLead]
@[simp] theorem State.retire_cur_slots : s.retire.cur.slots = s.cur.slots := by unfold State.retire; simp
@[simp] theorem State.retireTo_cur_bars (next : Word) : (s.retireTo next).cur.bars = s.cur.bars := by
  unfold State.retireTo; split <;> simp [*, Hart.reforkLead]
@[simp] theorem State.retire_cur_bars : s.retire.cur.bars = s.cur.bars := by unfold State.retire; simp
@[simp] theorem State.retireTo_cur_tide (next : Word) : (s.retireTo next).cur.tide = s.cur.tide := by
  unfold State.retireTo; split <;> simp [*, Hart.reforkLead]
@[simp] theorem State.retire_cur_tide : s.retire.cur.tide = s.cur.tide := by unfold State.retire; simp
@[simp] theorem State.retireTo_cur_irq (next : Word) : (s.retireTo next).cur.irq = s.cur.irq := by
  unfold State.retireTo; split <;> simp [*, Hart.reforkLead]
@[simp] theorem State.retire_cur_irq : s.retire.cur.irq = s.cur.irq := by unfold State.retire; simp
@[simp] theorem State.retireTo_cur_shoreSaved (next : Word) : (s.retireTo next).cur.shoreSaved = s.cur.shoreSaved := by
  unfold State.retireTo; split <;> simp [*, Hart.reforkLead]
@[simp] theorem State.retire_cur_shoreSaved : s.retire.cur.shoreSaved = s.cur.shoreSaved := by unfold State.retire; simp
@[simp] theorem State.retireTo_cur_early (next : Word) : (s.retireTo next).cur.early = s.cur.early := by
  unfold State.retireTo; split <;> simp [*, Hart.reforkLead]
@[simp] theorem State.retire_cur_early : s.retire.cur.early = s.cur.early := by unfold State.retire; simp
@[simp] theorem State.retireTo_cur_unacked (next : Word) : (s.retireTo next).cur.unacked = s.cur.unacked := by
  unfold State.retireTo; split <;> simp [*, Hart.reforkLead]
@[simp] theorem State.retire_cur_unacked : s.retire.cur.unacked = s.cur.unacked := by unfold State.retire; simp
@[simp] theorem State.retireTo_cur_lostWrites (next : Word) : (s.retireTo next).cur.lostWrites = s.cur.lostWrites := by
  unfold State.retireTo; split <;> simp [*, Hart.reforkLead]
@[simp] theorem State.retire_cur_lostWrites : s.retire.cur.lostWrites = s.cur.lostWrites := by unfold State.retire; simp
@[simp] theorem State.retireTo_cur_undelivered (next : Word) : (s.retireTo next).cur.undelivered = s.cur.undelivered := by
  unfold State.retireTo; split <;> simp [*, Hart.reforkLead]
@[simp] theorem State.retire_cur_undelivered : s.retire.cur.undelivered = s.cur.undelivered := by unfold State.retire; simp
@[simp] theorem State.retireTo_cur_pc (next : Word) : (s.retireTo next).cur.pc = next := by
  unfold State.retireTo; split <;> simp [*, Hart.reforkLead]
@[simp] theorem State.retire_cur_pc : s.retire.cur.pc = s.cur.pc + 4 := by unfold State.retire; simp
@[simp] theorem State.retireTo_cur_captured (next : Word) : (s.retireTo next).cur.captured = s.cur.captured.filter fun c => c.pc != s.cur.pc := by
  unfold State.retireTo; split <;> simp [*, Hart.reforkLead]
@[simp] theorem State.retire_cur_captured : s.retire.cur.captured = s.cur.captured.filter fun c => c.pc != s.cur.pc := by unfold State.retire; simp
@[simp] theorem State.retireTo_cur_resumed (next : Word) : (s.retireTo next).cur.resumed = false := by
  unfold State.retireTo; split <;> simp [*, Hart.reforkLead]
@[simp] theorem State.retire_cur_resumed : s.retire.cur.resumed = false := by unfold State.retire; simp
@[simp] theorem State.retireTo_cur_wait (next : Word) : (s.retireTo next).cur.wait = .awake := by
  unfold State.retireTo; split <;> simp [*, Hart.reforkLead]
@[simp] theorem State.retire_cur_wait : s.retire.cur.wait = .awake := by unfold State.retire; simp
@[simp] theorem State.retireTo_cur_syncArrived (next : Word) : (s.retireTo next).cur.syncArrived = s.cur.syncArrived.filter fun a => a.1 != s.cur.pc := by
  unfold State.retireTo; split <;> simp [*, Hart.reforkLead]
@[simp] theorem State.retire_cur_syncArrived : s.retire.cur.syncArrived = s.cur.syncArrived.filter fun a => a.1 != s.cur.pc := by unfold State.retire; simp
@[simp] theorem State.retireTo_cur_midway (next : Word) : (s.retireTo next).cur.midway = false := by
  unfold State.retireTo; split <;> simp [*, Hart.reforkLead]
@[simp] theorem State.retire_cur_midway : s.retire.cur.midway = false := by unfold State.retire; simp
@[simp] theorem State.retireTo_cur_refork (next : Word) : (s.retireTo next).cur.refork = false := by
  unfold State.retireTo; split <;> simp [*, Hart.reforkLead]
@[simp] theorem State.retire_cur_refork : s.retire.cur.refork = false := by unfold State.retire; simp

end Sys2Proof.Machine
end

