-- ==== Sys2Proof/Laws/Memory.lean ====
section
/-! SUPPORT. The sorted lists of bytes that stand for memory: what a write, a drop and a read do, and that every memory
operation keeps the canonical form `Memory.wf`. -/

namespace Sys2Proof.Machine

open Host (Cell)

/-- `rising` as the library's pairwise order. -/
theorem rising_iff (m : List Cell) : rising m = true ↔ m.Pairwise (·.1 < ·.1) := by
  induction m with
  | nil => simp [rising]
  | cons c cs ih =>
    cases cs with
    | nil => simp [rising]
    | cons d ds =>
      rw [rising, Bool.and_eq_true, ih, decide_eq_true_eq]
      constructor
      · rintro ⟨h1, h2⟩
        refine List.Pairwise.cons ?_ h2
        intro e he
        rcases List.mem_cons.1 he with rfl | he
        · exact h1
        · exact Nat.lt_trans h1 ((List.pairwise_cons.1 h2).1 e he)
      · intro h
        exact ⟨(List.pairwise_cons.1 h).1 d (by simp), (List.pairwise_cons.1 h).2⟩

/-- The cells written for bytes at `a` lie at `a` to `a + n - 1`, rising. -/
theorem cellsOf_bounds (dense : Bool) (bs : List Byte) : ∀ a, ∀ c ∈ cellsOf dense a bs, a ≤ c.1 ∧ c.1 < a + bs.length := by
  induction bs with
  | nil => simp [cellsOf]
  | cons b bs ih =>
    intro a c hc
    unfold cellsOf at hc
    simp only [List.length_cons]
    split at hc
    · rcases List.mem_cons.1 hc with rfl | hc
      · simp
      · have := ih _ c hc; omega
    · have := ih _ c hc; omega

theorem cellsOf_rising (dense : Bool) (bs : List Byte) : ∀ a, (cellsOf dense a bs).Pairwise (·.1 < ·.1) := by
  induction bs with
  | nil => simp [cellsOf]
  | cons b bs ih =>
    intro a
    unfold cellsOf
    split
    · exact List.Pairwise.cons (fun c hc => (cellsOf_bounds dense bs (a + 1) c hc).1) (ih _)
    · exact ih _

/-- Sparse cells list no byte that reads as the default. -/
theorem cellsOf_sparse (bs : List Byte) : ∀ a, ∀ c ∈ cellsOf false a bs, c.2 ≠ 0 := by
  induction bs with
  | nil => simp [cellsOf]
  | cons b bs ih =>
    intro a c hc
    unfold cellsOf at hc
    split at hc
    · rename_i hb
      rcases List.mem_cons.1 hc with rfl | hc
      · simpa using hb
      · exact ih _ c hc
    · exact ih _ c hc

theorem mem_takeWhile_lt {m : List Cell} {a : Nat} : ∀ c ∈ m.takeWhile (·.1 < a), c.1 < a := by
  intro c hc
  simpa using List.mem_takeWhile_imp hc

theorem mem_dropWhile_le {m : List Cell} {a : Nat} (h : m.Pairwise (·.1 < ·.1)) :
    ∀ c ∈ m.dropWhile (·.1 < a), a ≤ c.1 := by
  induction m with
  | nil => simp
  | cons d ds ih =>
    intro c hc
    rw [List.dropWhile_cons] at hc
    split at hc
    · exact ih (List.pairwise_cons.1 h).2 c hc
    · rename_i hd
      simp at hd
      rcases List.mem_cons.1 hc with rfl | hc
      · exact hd
      · exact Nat.le_of_lt (Nat.lt_of_le_of_lt hd ((List.pairwise_cons.1 h).1 c hc))

theorem cellsWrite_pairwise (dense : Bool) {m : List Cell} (a : Nat) (bs : List Byte) (h : m.Pairwise (·.1 < ·.1)) :
    (cellsWrite dense m a bs).Pairwise (·.1 < ·.1) := by
  unfold cellsWrite
  refine List.pairwise_append.2 ⟨List.pairwise_append.2 ⟨?_, cellsOf_rising _ _ _, ?_⟩, ?_, ?_⟩
  · exact h.sublist (List.takeWhile_sublist _)
  · intro c hc d hd
    exact Nat.lt_of_lt_of_le (mem_takeWhile_lt c hc) (cellsOf_bounds _ _ _ d hd).1
  · exact h.sublist (List.dropWhile_sublist _)
  · intro c hc d hd
    have hd := mem_dropWhile_le h d hd
    rcases List.mem_append.1 hc with hc | hc
    · have := mem_takeWhile_lt c hc; omega
    · have := (cellsOf_bounds _ _ _ c hc).2; omega

theorem cellsDrop_pairwise {m : List Cell} (a n : Nat) (h : m.Pairwise (·.1 < ·.1)) :
    (cellsDrop m a n).Pairwise (·.1 < ·.1) := by
  unfold cellsDrop
  refine List.pairwise_append.2 ⟨h.sublist (List.takeWhile_sublist _), h.sublist (List.dropWhile_sublist _), ?_⟩
  intro c hc d hd
  have := mem_takeWhile_lt c hc
  have := mem_dropWhile_le h d hd
  omega

/-- Writing keeps the addresses rising. -/
theorem cellsWrite_rising (dense : Bool) {m : List Cell} (a : Nat) (bs : List Byte) (h : rising m = true) :
    rising (cellsWrite dense m a bs) = true :=
  (rising_iff _).2 (cellsWrite_pairwise dense a bs ((rising_iff _).1 h))

/-- Dropping keeps the addresses rising. -/
theorem cellsDrop_rising {m : List Cell} (a n : Nat) (h : rising m = true) : rising (cellsDrop m a n) = true :=
  (rising_iff _).2 (cellsDrop_pairwise a n ((rising_iff _).1 h))

/-- A sparse write lists no byte that reads as the default. -/
theorem cellsWrite_sparse {m : List Cell} (a : Nat) (bs : List Byte) (h : m.all (·.2 != 0) = true) :
    (cellsWrite false m a bs).all (·.2 != 0) = true := by
  simp only [List.all_eq_true, bne_iff_ne] at *
  intro c hc
  unfold cellsWrite at hc
  rcases List.mem_append.1 hc with hc | hc
  · rcases List.mem_append.1 hc with hc | hc
    · exact h c ((List.takeWhile_sublist _).subset hc)
    · exact cellsOf_sparse bs a c hc
  · exact h c ((List.dropWhile_sublist _).subset hc)

/-! Reading what was written -/

theorem cellGet_append (l r : List Cell) (a : Nat) : cellGet (l ++ r) a = (cellGet l a).or (cellGet r a) := by
  induction l with
  | nil => simp [cellGet]
  | cons c cs ih =>
    simp only [List.cons_append, cellGet]
    split <;> simp [ih]

theorem cellGet_none {m : List Cell} {a : Nat} (h : ∀ c ∈ m, c.1 ≠ a) : cellGet m a = none := by
  induction m with
  | nil => rfl
  | cons c cs ih =>
    rw [cellGet, if_neg (h c (by simp))]
    exact ih fun d hd => h d (by simp [hd])

theorem cellGet_cellsOf (dense : Bool) (bs : List Byte) : ∀ a i, i < bs.length →
    (cellGet (cellsOf dense a bs) (a + i)).getD 0 = bs.getD i 0 ∧
      (dense = true → cellGet (cellsOf dense a bs) (a + i) = some (bs.getD i 0)) := by
  induction bs with
  | nil => simp
  | cons b bs ih =>
    intro a i hi
    unfold cellsOf
    cases i with
    | zero =>
      split
      · simp [cellGet]
      · rename_i hb
        have hz : cellGet (cellsOf dense (a + 1) bs) (a + 0) = none :=
          cellGet_none fun c hc => by have := (cellsOf_bounds _ _ _ c hc).1; omega
        simp at hb
        rw [hz]
        simp [hb]
    | succ i =>
      have e : a + (i + 1) = a + 1 + i := by omega
      have := ih (a + 1) i (by simpa using hi)
      split
      · rw [cellGet, if_neg (by simp), e]
        simpa using this
      · rw [e]; simpa using this

/-- The two ends of a rising list around a stretch of addresses say nothing about that stretch. -/
theorem cellGet_ends {m : List Cell} (h : m.Pairwise (·.1 < ·.1)) (a n b : Nat) (hb : b < a ∨ a + n ≤ b) :
    (cellGet (m.takeWhile (·.1 < a)) b).or (cellGet (m.dropWhile (·.1 < a + n)) b) = cellGet m b := by
  have hsplit (k : Nat) : cellGet m b = (cellGet (m.takeWhile (·.1 < k)) b).or (cellGet (m.dropWhile (·.1 < k)) b) := by
    rw [← cellGet_append, List.takeWhile_append_dropWhile]
  rcases hb with hb | hb
  · have h1 : cellGet (m.dropWhile (·.1 < a + n)) b = none :=
      cellGet_none fun c hc => by have := mem_dropWhile_le h c hc; omega
    have h2 : cellGet (m.dropWhile (·.1 < a)) b = none :=
      cellGet_none fun c hc => by have := mem_dropWhile_le h c hc; omega
    rw [h1, hsplit a, h2]
  · have h1 : cellGet (m.takeWhile (·.1 < a)) b = none :=
      cellGet_none fun c hc => by have := mem_takeWhile_lt c hc; omega
    have h2 : cellGet (m.takeWhile (·.1 < a + n)) b = none :=
      cellGet_none fun c hc => by have := mem_takeWhile_lt c hc; omega
    rw [h1, hsplit (a + n), h2]

/-- A write leaves every other address alone. -/
theorem cellGet_cellsWrite_other (dense : Bool) {m : List Cell} (h : rising m = true) (a : Nat) (bs : List Byte) {b : Nat}
    (hb : b < a ∨ a + bs.length ≤ b) : cellGet (cellsWrite dense m a bs) b = cellGet m b := by
  have hn : cellGet (cellsOf dense a bs) b = none :=
    cellGet_none fun c hc => by have := cellsOf_bounds _ _ _ c hc; omega
  rw [cellsWrite, cellGet_append, cellGet_append, hn, Option.or_none]
  exact cellGet_ends ((rising_iff _).1 h) a bs.length b hb

/-- A write gives the bytes written. -/
theorem cellGet_cellsWrite_same (dense : Bool) {m : List Cell} (h : rising m = true) (a : Nat) (bs : List Byte) {i : Nat}
    (hi : i < bs.length) : (cellGet (cellsWrite dense m a bs) (a + i)).getD 0 = bs.getD i 0 ∧
      (dense = true → cellGet (cellsWrite dense m a bs) (a + i) = some (bs.getD i 0)) := by
  have hm := (rising_iff _).1 h
  have h1 : cellGet (m.takeWhile (·.1 < a)) (a + i) = none :=
    cellGet_none fun c hc => by have := mem_takeWhile_lt c hc; omega
  have h2 : cellGet (m.dropWhile (·.1 < a + bs.length)) (a + i) = none :=
    cellGet_none fun c hc => by have := mem_dropWhile_le hm c hc; omega
  rw [cellsWrite, cellGet_append, cellGet_append, h1, h2]
  simpa using cellGet_cellsOf dense bs a i hi

/-- A drop leaves every other address alone. -/
theorem cellGet_cellsDrop_other {m : List Cell} (h : rising m = true) (a n : Nat) {b : Nat} (hb : b < a ∨ a + n ≤ b) :
    cellGet (cellsDrop m a n) b = cellGet m b := by
  rw [cellsDrop, cellGet_append]
  exact cellGet_ends ((rising_iff _).1 h) a n b hb

/-- A drop leaves nothing at its addresses. -/
theorem cellGet_cellsDrop_same {m : List Cell} (h : rising m = true) (a n : Nat) {b : Nat} (hb : a ≤ b ∧ b < a + n) :
    cellGet (cellsDrop m a n) b = none := by
  have hm := (rising_iff _).1 h
  refine cellGet_none fun c hc => ?_
  rcases List.mem_append.1 hc with hc | hc
  · have := mem_takeWhile_lt c hc; omega
  · have := mem_dropWhile_le hm c hc; omega

/-! The canonical form -/

theorem Memory.wf_iff (s : State) :
    Memory.wf s = true ↔ rising s.hbm = true ∧ s.hbm.all (·.2 != 0) = true ∧ rising s.l2 = true := by
  simp only [Memory.wf, Bool.and_eq_true]; tauto

/-- The canonical form looks at HBM and the home slices alone. -/
theorem Memory.wf_congr {s t : State} (h : t.hbm = s.hbm) (g : t.l2 = s.l2) : Memory.wf t = Memory.wf s := by
  unfold Memory.wf; rw [h, g]

theorem Memory.wf_reset : Memory.wf State.reset = true := rfl

/-- Cleaning a home slice keeps the canonical form. -/
theorem cleanHome_wf {s : State} (h : Memory.wf s = true) (pa n : Nat) : Memory.wf (s.cleanHome pa n) = true := by
  obtain ⟨h1, h2, h3⟩ := (Memory.wf_iff s).1 h
  rw [Memory.wf_iff]
  have key : ∀ (cs m : List Cell), rising m = true → m.all (·.2 != 0) = true →
      rising (cs.foldl (fun m c => cellsWrite false m c.1 [c.2]) m) = true ∧
        (cs.foldl (fun m c => cellsWrite false m c.1 [c.2]) m).all (·.2 != 0) = true := by
    intro cs
    induction cs with
    | nil => exact fun m a b => ⟨a, b⟩
    | cons c cs ih => exact fun m a b => ih _ (cellsWrite_rising _ _ _ a) (cellsWrite_sparse _ _ b)
  exact ⟨(key _ _ h1 h2).1, (key _ _ h1 h2).2, cellsDrop_rising _ _ h3⟩

/-- Steps that each keep the canonical form keep it together. -/
theorem foldl_wf {α : Type} (f : State → α → State) (hf : ∀ s a, Memory.wf s = true → Memory.wf (f s a) = true) :
    ∀ (l : List α) (s : State), Memory.wf s = true → Memory.wf (l.foldl f s) = true := by
  intro l
  induction l with
  | nil => exact fun _ h => h
  | cons a l ih => exact fun s h => ih _ (hf s a h)

/-! What the counters see changes nothing else -/

/-- Steps that change performance counters and draws alone do so together. -/
theorem foldl_counts {α : Type} (f : State → α → State)
    (hf : ∀ s a, ∃ p d, f s a = { s with perf := p, draws := d }) (l : List α) (s : State) :
    ∃ p d, l.foldl f s = { s with perf := p, draws := d } := by
  induction l generalizing s with
  | nil => exact ⟨s.perf, s.draws, rfl⟩
  | cons a l ih =>
    obtain ⟨p, d, e⟩ := hf s a
    obtain ⟨q, c, g⟩ := ih (f s a)
    exact ⟨q, c, by rw [List.foldl_cons, g, e]⟩

theorem countHome_counts (s : State) (pa n : Nat) : ∃ p d, s.countHome pa n = { s with perf := p, draws := d } := by
  unfold State.countHome
  split
  · exact ⟨s.perf, s.draws, rfl⟩
  · exact foldl_counts _ (fun s i => ⟨_, _, rfl⟩) _ s

theorem countSent_counts (s : State) (core pa n : Nat) (w : Bool) :
    ∃ p d, s.countSent core pa n w = { s with perf := p, draws := d } := by
  unfold State.countSent State.countDie
  split_ifs <;> exact ⟨_, s.draws, rfl⟩

theorem countSent_wf (s : State) (core pa n : Nat) (w : Bool) : Memory.wf (s.countSent core pa n w) = Memory.wf s := by
  obtain ⟨p, d, e⟩ := countSent_counts s core pa n w
  rw [e]
  rfl

/-- An access at the home is counted. -/
theorem countHomeSent_counts (s : State) (core pa n m : Nat) (w : Bool) :
    ∃ p d, (s.countHome pa n).countSent core pa m w = { s with perf := p, draws := d } := by
  obtain ⟨p, d, e⟩ := countHome_counts s pa n
  rw [e]
  exact countSent_counts _ core pa m w

theorem countRead_counts (s : State) (core part : Nat) (attr : Attr) (served : ReadMode) (pa n : Nat) :
    ∃ p d, s.countRead core part attr served pa n = { s with perf := p, draws := d } := by
  unfold State.countRead State.countCore
  split_ifs
  · exact ⟨_, s.draws, rfl⟩
  · exact countHomeSent_counts s core pa n n false
  · exact countHomeSent_counts _ core pa n n false

theorem countWalk_counts (s : State) (a : Agent) (met : List Met) :
    ∃ p d, s.countWalk a met = { s with perf := p, draws := d } := by
  unfold State.countWalk State.countDie
  split
  · exact ⟨s.perf, s.draws, rfl⟩
  · exact foldl_counts _ (fun s m => countHomeSent_counts s a.core m.addr 8 8 false) met _

/-! Writes at the home -/

/-- A line that leaves a slice keeps the canonical form. -/
theorem giveLine_wf {s : State} (h : Memory.wf s = true) (lines : List Nat) : Memory.wf (s.giveLine lines) = true := by
  unfold State.giveLine
  dsimp only
  split
  · exact h
  · exact cleanHome_wf h _ _

/-- Making room in a slice keeps the canonical form. -/
theorem homeRoom_wf {s : State} (h : Memory.wf s = true) (pa : Nat) : Memory.wf (s.homeRoom pa) = true := by
  unfold State.homeRoom
  dsimp only
  split_ifs
  · exact h
  · exact h
  · exact giveLine_wf h _

theorem homeTrim_wf {s : State} (h : Memory.wf s = true) (pa : Nat) : Memory.wf (s.homeTrim pa) = true := by
  unfold State.homeTrim
  dsimp only
  split_ifs
  · exact h
  · exact h
  · exact giveLine_wf h _

theorem trimHome_wf {s : State} (h : Memory.wf s = true) (pa n : Nat) : Memory.wf (s.trimHome pa n) = true := by
  unfold State.trimHome
  split
  · exact h
  · exact foldl_wf _ (fun _ _ h => homeTrim_wf h _) _ _ h

/-- Bytes that reach their home keep the canonical form. -/
theorem homePut_wf {s : State} (h : Memory.wf s = true) (pa : Nat) (bs : List Byte) (pick : Hart → Bool) :
    Memory.wf (s.homePut pa bs pick) = true := by
  obtain ⟨h1, h2, h3⟩ := (Memory.wf_iff s).1 h
  have key : Memory.wf (if touchesTile pa bs.length then { s with hbm := cellsWrite false s.hbm pa bs }
      else { s with l2 := cellsWrite true s.l2 pa bs }.trimHome pa bs.length) = true := by
    split
    · exact (Memory.wf_iff _).2 ⟨cellsWrite_rising _ _ _ h1, cellsWrite_sparse _ _ h2, h3⟩
    · exact trimHome_wf (s := { s with l2 := cellsWrite true s.l2 pa bs })
        ((Memory.wf_iff _).2 ⟨h1, h2, cellsWrite_rising _ _ _ h3⟩) _ _
  exact (Memory.wf_congr rfl rfl).trans key

/-- A write at the home keeps the canonical form. -/
theorem homeWrite_wf {s : State} (h : Memory.wf s = true) (pa : Nat) (bs : List Byte) :
    Memory.wf (s.homeWrite pa bs) = true := by
  obtain ⟨p, d, e⟩ := countHome_counts s pa bs.length
  unfold State.homeWrite
  rw [e]
  exact (Memory.wf_congr rfl rfl).trans (homePut_wf (s := { s with perf := p, draws := d }) h pa bs fun _ => true)

/-- Dropping a home slice's dirty bytes keeps the canonical form. -/
theorem discardHome_wf {s : State} (h : Memory.wf s = true) (pa n : Nat) : Memory.wf (s.discardHome pa n) = true := by
  obtain ⟨h1, h2, h3⟩ := (Memory.wf_iff s).1 h
  exact (Memory.wf_iff _).2 ⟨h1, h2, cellsDrop_rising _ _ h3⟩

theorem l1Put_wf (s : State) (x : Sector) : Memory.wf (s.l1Put x) = Memory.wf s := rfl
theorem l1Drop_wf (s : State) (c pa : Nat) : Memory.wf (s.l1Drop c pa) = Memory.wf s := rfl
theorem visitorDrop_wf (s : State) (pa : Nat) : Memory.wf (s.visitorDrop pa) = Memory.wf s := rfl
theorem dropClean_wf (s : State) (c : Nat) : Memory.wf (s.dropClean c) = Memory.wf s := rfl

theorem writeBackSector_wf {s : State} (h : Memory.wf s = true) (x : Sector) :
    Memory.wf (s.writeBackSector x) = true := by
  unfold State.writeBackSector
  dsimp only
  rw [l1Put_wf, Memory.wf_congr rfl rfl]
  refine foldl_wf _ (fun s i h => homePut_wf h _ _ _) _ _ ?_
  split
  · exact h
  · obtain ⟨p, d, e⟩ := countHomeSent_counts s (if 256 ≤ x.cache then 4 * (x.cache - 256) else x.cache) x.addr 64
      ((upTo 64).filter fun i => x.dirty.getLsbD i && !x.bad.getLsbD i).length true
    rw [e]
    exact h

/-- An eviction from an L1 keeps the canonical form. -/
theorem l1Evict_wf {s : State} (h : Memory.wf s = true) (cache : Nat) (keep : Option Nat) :
    Memory.wf (s.l1Evict cache keep) = true := foldl_wf _ (fun _ x h => writeBackSector_wf h x) _ _ h

/-- Making room in an L1 keeps the canonical form. -/
theorem l1Trim_wf {s : State} (h : Memory.wf s = true) (cache more : Nat) (keep : Option Nat) :
    Memory.wf (s.l1Trim cache more keep) = true := by
  unfold State.l1Trim
  split
  · exact h
  · exact foldl_wf _ (fun _ _ h => l1Evict_wf h cache keep) _ _ h

theorem l1Room_wf {s : State} (h : Memory.wf s = true) (cache pa : Nat) : Memory.wf (s.l1Room cache pa) = true :=
  l1Trim_wf h ..

theorem l1Write_wf {s : State} (h : Memory.wf s = true) (c pa : Nat) (bs : List Byte) :
    Memory.wf (s.l1Write c pa bs) = true := (l1Put_wf _ _).trans (l1Room_wf h c pa)

theorem writeBackDrop_wf {s : State} (h : Memory.wf s = true) (core pa : Nat) :
    Memory.wf (s.writeBackDrop core pa) = true := by
  unfold State.writeBackDrop
  split
  · rw [l1Drop_wf]; exact writeBackSector_wf h _
  · exact h

theorem writeBackAll_wf {s : State} (h : Memory.wf s = true) (cache : Nat) :
    Memory.wf (s.writeBackAll cache) = true :=
  foldl_wf _ (fun _ x h => writeBackSector_wf h x) _ _ h

theorem releaseBy_wf {s : State} (h : Memory.wf s = true) (core scope : Nat) :
    Memory.wf (s.releaseBy core scope) = true := by
  unfold State.releaseBy
  split
  · exact writeBackAll_wf h _
  · exact h

theorem acquireBy_wf {s : State} (h : Memory.wf s = true) (core scope : Nat) :
    Memory.wf (s.acquireBy core scope) = true := by
  have e : Memory.wf (s.acquireBy core scope) = Memory.wf s := by
    refine Memory.wf_congr ?_ ?_ <;>
    · unfold State.acquireBy
      dsimp only
      split_ifs <;> rfl
  rw [e]; exact h

theorem visitorFill_wf {s : State} (h : Memory.wf s = true) (pa : Nat) : Memory.wf (s.visitorFill pa) = true := by
  refine foldl_wf _ (fun s a h => ?_) _ _ h
  split
  · exact h
  · exact homeRoom_wf h a

theorem fillSector_wf {s : State} (h : Memory.wf s = true) (cache pa : Nat) :
    Memory.wf (s.fillSector cache pa) = true := by
  unfold State.fillSector
  dsimp only
  split
  · exact h
  · rw [l1Put_wf]; exact l1Room_wf h _ _

theorem forgetClean_wf {s : State} (h : Memory.wf s = true) (core pa : Nat) (deep : Bool) :
    Memory.wf (s.forgetClean core pa deep) = true := by
  have e : Memory.wf (s.forgetClean core pa deep) = Memory.wf s := by
    unfold State.forgetClean
    dsimp only
    cases deep <;> split <;> rfl
  rw [e]; exact h

theorem fillLine_wf {s : State} (h : Memory.wf s = true) (core pa : Nat) : Memory.wf (s.fillLine core pa) = true := by
  unfold State.fillLine
  refine fillSector_wf (fillSector_wf ?_ _ _) _ _
  split
  · exact visitorFill_wf h _
  · exact h

theorem storeHome_wf {s : State} (h : Memory.wf s = true) (core : Nat) (attr : Attr) (pa : Nat) (bs : List Byte) :
    Memory.wf (s.storeHome core attr pa bs) = true := by
  unfold State.storeHome
  rw [countSent_wf]
  split
  · exact homeWrite_wf h _ _
  · refine homeWrite_wf ?_ _ _
    rw [visitorDrop_wf]; exact writeBackDrop_wf h _ _

theorem afterLoad_wf {s : State} (h : Memory.wf s = true) (core : Nat) (attr : Attr) (alloc : Bool) (pa : Nat) :
    Memory.wf (s.afterLoad core attr alloc pa) = true := by
  unfold State.afterLoad
  split
  · exact h
  · split
    · split
      · exact fillLine_wf h _ _
      · split
        · exact visitorFill_wf h _
        · exact h
    · split
      · exact visitorFill_wf h _
      · exact h
    · exact h

theorem afterRead_wf {s : State} (h : Memory.wf s = true) (core : Nat) (attr : Attr) (served : ReadMode) (alloc : Bool)
    (pa : Nat) : Memory.wf (s.afterRead core attr served alloc pa) = true := by
  unfold State.afterRead
  split
  · exact h
  · cases served
    · exact afterLoad_wf h _ _ _ _
    · exact afterLoad_wf (forgetClean_wf h _ _ _) _ _ _ _
    · exact forgetClean_wf h _ _ _
    · exact forgetClean_wf h _ _ _

theorem countWalk_wf (s : State) (a : Agent) (met : List Met) : Memory.wf (s.countWalk a met) = Memory.wf s := by
  obtain ⟨p, d, e⟩ := countWalk_counts s a met
  rw [e]
  rfl

/-- Translation keeps the canonical form: its accessed and dirty updates are writes at the home (R308). -/
theorem xlate_wf {s : State} (h : Memory.wf s = true) (a : Agent) (k : Kind) (va : Word) :
    Memory.wf (s.xlate a k va).2 = true := by
  have hfill (s : State) (va : Nat) (met : List Met) : Memory.wf (s.tlbFill a va met) = Memory.wf s := rfl
  have hspend (met : List Met) : Memory.wf (s.spend (met.any Met.inRun)) = true := by unfold State.spend; split <;> exact h
  have htouch (va : Nat) (m : Met) (met : List Met) : Memory.wf (s.touch a k va m met) = true := by
    have h := hspend met
    unfold State.touch State.update
    rw [countWalk_wf]
    dsimp only
    split
    · split
      · exact h
      · rw [hfill]; exact h
    · rw [hfill]; exact homeWrite_wf h _ _
  have hfresh (va : Nat) : Memory.wf (s.xlateFresh a k va).2 = true := by
    unfold State.xlateFresh
    split
    · exact h
    · split
      · exact h
      · split
        · rw [countWalk_wf, hfill]; exact hspend _
        · exact htouch _ _ _
  unfold State.xlate
  dsimp only
  split
  · exact h
  · split
    · exact h
    · split
      · exact h
      · unfold State.xlatePage
        split
        · exact hfresh _
        · split
          · exact htouch _ _ _
          · exact hfresh _

/-- A save area's writes keep the canonical form. -/
theorem writeSaveArea_wf {s : State} (h : Memory.wf s = true) : Memory.wf s.writeSaveArea = true := by
  have hw := foldl_wf (fun (s : State) (p : Nat × List Byte) => s.homeWrite (s.cur.handle + p.1) p.2)
    (fun _ _ h => homeWrite_wf h _ _) (s.saveArea s.cur) s h
  unfold State.writeSaveArea
  dsimp only
  generalize List.foldl _ s _ = u at hw ⊢
  exact hw

/-! Reads at the home -/

/-- The cells of a stretch of addresses. -/
theorem cellGet_cellsIn {m : List Cell} (h : rising m = true) (a n b : Nat) :
    cellGet (cellsIn m a n) b = if a ≤ b ∧ b < a + n then cellGet m b else none := by
  have hm := (rising_iff _).1 h
  have hd : (m.dropWhile (·.1 < a)).Pairwise (·.1 < ·.1) := hm.sublist (List.dropWhile_sublist _)
  unfold cellsIn
  split
  · rename_i hb
    have h1 : cellGet m b = cellGet (m.dropWhile (·.1 < a)) b := by
      conv_lhs => rw [← List.takeWhile_append_dropWhile (p := fun c : Cell => decide (c.1 < a)) (l := m)]
      rw [cellGet_append, cellGet_none (m := m.takeWhile _), Option.none_or]
      intro c hc
      have := mem_takeWhile_lt c hc; omega
    rw [h1]
    conv_rhs => rw [← List.takeWhile_append_dropWhile (p := fun c : Cell => decide (c.1 < a + n)) (l := m.dropWhile (·.1 < a))]
    rw [cellGet_append, cellGet_none (m := (m.dropWhile (·.1 < a)).dropWhile _), Option.or_none]
    intro c hc
    have := mem_dropWhile_le hd c hc; omega
  · rename_i hb
    refine cellGet_none fun c hc => ?_
    have h1 := mem_takeWhile_lt c hc
    have h2 := mem_dropWhile_le hm c ((List.takeWhile_sublist _).subset hc)
    omega

/-- Cells written one by one into a list are read back there, and leave the rest alone. -/
theorem cellGet_cleaned (b : Nat) : ∀ (cs m : List Cell), cs.Pairwise (·.1 < ·.1) → rising m = true →
    (cellGet (cs.foldl (fun m c => cellsWrite false m c.1 [c.2]) m) b).getD 0 =
      (cellGet cs b).getD ((cellGet m b).getD 0) := by
  intro cs
  induction cs with
  | nil => exact fun m _ _ => rfl
  | cons c cs ih =>
    intro m hc hm
    obtain ⟨h1, h2⟩ := List.pairwise_cons.1 hc
    rw [List.foldl_cons, ih _ h2 (cellsWrite_rising _ _ _ hm), cellGet]
    by_cases e : c.1 = b
    · subst e
      rw [if_pos rfl, cellGet_none (m := cs) fun d hd => by have := h1 d hd; omega]
      simpa using (cellGet_cellsWrite_same false hm c.1 [c.2] (i := 0) (by simp)).1
    · rw [if_neg e, cellGet_cellsWrite_other false hm c.1 [c.2] (by simp; omega)]

/-- A byte at its home is the same after its slice has written dirty bytes to HBM (R181). -/
theorem homeByte_cleanHome {s : State} (h : Memory.wf s = true) (pa n b : Nat) :
    (s.cleanHome pa n).homeByte b = s.homeByte b := by
  obtain ⟨h1, -, h3⟩ := (Memory.wf_iff s).1 h
  have hin : (cellsIn s.l2 pa n).Pairwise (·.1 < ·.1) :=
    ((rising_iff _).1 h3).sublist ((List.takeWhile_sublist _).trans (List.dropWhile_sublist _))
  show (cellGet (cellsDrop s.l2 pa n) b).getD ((cellGet (List.foldl _ s.hbm _) b).getD 0) = _
  rw [cellGet_cleaned b _ _ hin h1, cellGet_cellsIn h3]
  unfold State.homeByte
  by_cases hb : pa ≤ b ∧ b < pa + n
  · rw [cellGet_cellsDrop_same h3 pa n hb, if_pos hb]
    rfl
  · rw [cellGet_cellsDrop_other h3 pa n (by omega), if_neg hb]
    rfl

/-- A line that leaves a slice changes no byte at its home. -/
theorem homeByte_giveLine {s : State} (h : Memory.wf s = true) (lines : List Nat) (b : Nat) :
    (s.giveLine lines).homeByte b = s.homeByte b := by
  unfold State.giveLine
  dsimp only
  split
  · rfl
  · exact homeByte_cleanHome h _ _ b

/-- Making room in a slice changes no byte at its home. -/
theorem homeByte_homeRoom {s : State} (h : Memory.wf s = true) (pa b : Nat) : (s.homeRoom pa).homeByte b = s.homeByte b := by
  unfold State.homeRoom
  dsimp only
  split_ifs
  · rfl
  · rfl
  · exact homeByte_giveLine h _ b

theorem homeByte_homeTrim {s : State} (h : Memory.wf s = true) (pa b : Nat) : (s.homeTrim pa).homeByte b = s.homeByte b := by
  unfold State.homeTrim
  dsimp only
  split_ifs
  · rfl
  · rfl
  · exact homeByte_giveLine h _ b

theorem homeByte_trimHome {s : State} (h : Memory.wf s = true) (pa n b : Nat) :
    (s.trimHome pa n).homeByte b = s.homeByte b := by
  have key : ∀ (is : List Nat) (s : State), Memory.wf s = true →
      (is.foldl (fun s i => s.homeTrim (pa / 128 * 128 + 128 * i)) s).homeByte b = s.homeByte b := by
    intro is
    induction is with
    | nil => exact fun _ _ => rfl
    | cons i is ih => exact fun s h => (ih _ (homeTrim_wf h _)).trans (homeByte_homeTrim h _ b)
  unfold State.trimHome
  split
  · rfl
  · exact key _ _ h

/-- What a byte at its home is after bytes have reached theirs: one of them, or as before; a home slice lists no byte of a tile
buffer. -/
theorem homeByte_homePut {s : State} (h : Memory.wf s = true) (pa : Nat) (bs : List Byte) (pick : Hart → Bool) :
    (∀ b, b < pa ∨ pa + bs.length ≤ b → (s.homePut pa bs pick).homeByte b = s.homeByte b) ∧
    ∀ i, i < bs.length → (touchesTile pa bs.length = true → cellGet s.l2 (pa + i) = none) →
      (s.homePut pa bs pick).homeByte (pa + i) = bs.getD i 0 := by
  obtain ⟨h1, h2, h3⟩ := (Memory.wf_iff s).1 h
  have hput (b : Nat) : (s.homePut pa bs pick).homeByte b = State.homeByte (if touchesTile pa bs.length then
      { s with hbm := cellsWrite false s.hbm pa bs }
      else { s with l2 := cellsWrite true s.l2 pa bs }.trimHome pa bs.length) b := rfl
  by_cases ht : touchesTile pa bs.length = true
  · refine ⟨fun b hb => ?_, fun i hi hl => ?_⟩
    · rw [hput, if_pos ht]
      show (cellGet s.l2 b).getD ((cellGet (cellsWrite false s.hbm pa bs) b).getD 0) = _
      rw [cellGet_cellsWrite_other false h1 pa bs hb]
      rfl
    · rw [hput, if_pos ht]
      show (cellGet s.l2 (pa + i)).getD ((cellGet (cellsWrite false s.hbm pa bs) (pa + i)).getD 0) = _
      rw [hl ht]
      exact (cellGet_cellsWrite_same false h1 pa bs hi).1
  · have hw : Memory.wf { s with l2 := cellsWrite true s.l2 pa bs } = true :=
      (Memory.wf_iff _).2 ⟨h1, h2, cellsWrite_rising _ _ _ h3⟩
    refine ⟨fun b hb => ?_, fun i hi _ => ?_⟩
    · rw [hput, if_neg ht, homeByte_trimHome hw]
      show (cellGet (cellsWrite true s.l2 pa bs) b).getD ((cellGet s.hbm b).getD 0) = _
      rw [cellGet_cellsWrite_other true h3 pa bs hb]
      rfl
    · rw [hput, if_neg ht, homeByte_trimHome hw]
      show (cellGet (cellsWrite true s.l2 pa bs) (pa + i)).getD ((cellGet s.hbm (pa + i)).getD 0) = _
      rw [(cellGet_cellsWrite_same true h3 pa bs hi).2 rfl]
      rfl

/-- A write at the home leaves every other byte alone there. -/
theorem homeByte_homeWrite_other {s : State} (h : Memory.wf s = true) (pa : Nat) (bs : List Byte) {b : Nat}
    (hb : b < pa ∨ pa + bs.length ≤ b) : (s.homeWrite pa bs).homeByte b = s.homeByte b := by
  obtain ⟨p, d, e⟩ := countHome_counts s pa bs.length
  unfold State.homeWrite
  rw [e]
  exact (homeByte_homePut (s := { s with perf := p, draws := d }) h pa bs fun _ => true).1 b hb

/-- A write at the home is read back there. -/
theorem homeByte_homeWrite_same {s : State} (h : Memory.wf s = true) (pa : Nat) (bs : List Byte) {i : Nat}
    (hi : i < bs.length) (ht : touchesTile pa bs.length = true → cellGet s.l2 (pa + i) = none) :
    (s.homeWrite pa bs).homeByte (pa + i) = bs.getD i 0 := by
  obtain ⟨p, d, e⟩ := countHome_counts s pa bs.length
  unfold State.homeWrite
  rw [e]
  exact (homeByte_homePut (s := { s with perf := p, draws := d }) h pa bs fun _ => true).2 i hi ht

end Sys2Proof.Machine
end

