-- ==== Sys2Proof/Laws/Regs.lean ====
section
/-! SUPPORT. Registers: a read after a write, and the hard-wired registers (R25). -/

namespace Sys2Proof.Machine

@[simp] theorem Hart.getX_zero (h : Hart) : h.getX 0 = 0 := rfl
@[simp] theorem Hart.setX_zero (h : Hart) (v : Word) : h.setX 0 v = h := rfl
@[simp] theorem Hart.getC_zero (h : Hart) : h.getC 0 = true := rfl
@[simp] theorem Hart.setC_zero (h : Hart) (v : Bool) : h.setC 0 v = h := rfl
@[simp] theorem Hart.getM_zero (h : Hart) : h.getM 0 = BitVec.allOnes 2048 := rfl
@[simp] theorem Hart.setM_zero (h : Hart) (v : BitVec 2048) : h.setM 0 v = h := rfl

theorem Hart.getX_setX_same (h : Hart) {r : BitVec 5} (hr : r ≠ 0) (v : Word) : (h.setX r v).getX r = v := by
  unfold Hart.getX Hart.setX
  rw [if_neg hr, if_neg hr]
  simp

theorem Hart.getX_setX_other (h : Hart) {r q : BitVec 5} (hq : q ≠ r) (v : Word) : (h.setX r v).getX q = h.getX q := by
  unfold Hart.getX Hart.setX
  split
  · rfl
  · split
    · rfl
    · have : r.toNat ≠ q.toNat := fun e => hq (BitVec.eq_of_toNat_eq e.symm)
      simp [this]

theorem Hart.getM_setM_same (h : Hart) {r : BitVec 3} (hr : r ≠ 0) (v : BitVec 2048) : (h.setM r v).getM r = v := by
  unfold Hart.getM Hart.setM
  rw [if_neg hr, if_neg hr]
  simp

theorem Hart.getM_setM_other (h : Hart) {r q : BitVec 3} (hq : q ≠ r) (v : BitVec 2048) :
    (h.setM r v).getM q = h.getM q := by
  unfold Hart.getM Hart.setM
  split
  · rfl
  · split
    · rfl
    · have : r.toNat ≠ q.toNat := fun e => hq (BitVec.eq_of_toNat_eq e.symm)
      simp [this]

@[simp] theorem Hart.getV_setV_same (h : Hart) (r : BitVec 5) (v : VReg) : (h.setV r v).getV r = v := by
  simp [Hart.getV, Hart.setV]

theorem Hart.getV_setV_other (h : Hart) {r q : BitVec 5} (hq : q ≠ r) (v : VReg) : (h.setV r v).getV q = h.getV q := by
  have : r.toNat ≠ q.toNat := fun e => hq (BitVec.eq_of_toNat_eq e.symm)
  simp [Hart.getV, Hart.setV, this]

@[simp] theorem Hart.getT_setT_same (h : Hart) (r : BitVec 4) (t : Tile) : (h.setT r t).getT r = t := by
  simp [Hart.getT, Hart.setT]

theorem Hart.getT_setT_other (h : Hart) {r q : BitVec 4} (hq : q ≠ r) (t : Tile) : (h.setT r t).getT q = h.getT q := by
  have : r.toNat ≠ q.toNat := fun e => hq (BitVec.eq_of_toNat_eq e.symm)
  simp [Hart.getT, Hart.setT, this]

/-- Bit `q` of a byte after bit `r` was set or cleared. -/
theorem bit_of_update (c : BitVec 8) (q r : BitVec 3) (v : Bool) :
    (if v then c ||| 1#8 <<< r.toNat else c &&& ~~~(1#8 <<< r.toNat)).getLsbD q.toNat =
      if q = r then v else c.getLsbD q.toNat := by
  have hr := r.isLt
  have hq := q.isLt
  have e : (1#8 <<< r.toNat).getLsbD q.toNat = decide (q = r) := by
    rw [BitVec.getLsbD_shiftLeft, BitVec.getLsbD_one]
    by_cases h : q = r
    · subst h
      simp
      omega
    · have : q.toNat ≠ r.toNat := fun e => h (BitVec.eq_of_toNat_eq e)
      simp [h]; omega
  cases v with
  | false => rw [if_neg (by simp), BitVec.getLsbD_and, BitVec.getLsbD_not, e]; by_cases h : q = r <;> simp [h]; omega
  | true => rw [if_pos rfl, BitVec.getLsbD_or, e]; by_cases h : q = r <;> simp [h]

theorem Hart.getC_setC_same (h : Hart) {r : BitVec 3} (hr : r ≠ 0) (v : Bool) : (h.setC r v).getC r = v := by
  have h0 : (r == 0) = false := by simpa using hr
  unfold Hart.getC Hart.setC
  rw [if_neg hr, h0, bit_of_update]
  simp

theorem Hart.getC_setC_other (h : Hart) {r q : BitVec 3} (hq : q ≠ r) (v : Bool) : (h.setC r v).getC q = h.getC q := by
  unfold Hart.setC
  split
  · rfl
  · unfold Hart.getC
    rw [bit_of_update, if_neg hq]

@[simp] theorem State.retire_x (s : State) (r : BitVec 5) : s.retire.x r = s.x r := by simp [State.x, Hart.getX]
@[simp] theorem State.retire_c (s : State) (r : BitVec 3) : s.retire.c r = s.c r := by simp [State.c, Hart.getC]

end Sys2Proof.Machine
end

