-- ==== Sys2Proof/Laws/Ops.lean ====
section
/-! SUPPORT. The shared operations: what completion, a trap and `finish` do, and how a property of states passes through the
steps of a computation. -/

namespace Sys2Proof.Machine

/-! Completion -/

/-- Completion moves the program counter on by one word (R63). -/
theorem State.retire_pc (s : State) : s.retire.cur.pc = s.cur.pc + 4 := by simp

/-- Completion reads and writes no memory. -/
@[simp] theorem retire_readByte (s : State) (core : Nat) (mode : ReadMode) (pa : Nat) :
    s.retire.readByte core mode pa = s.readByte core mode pa := by
  have e : ∀ pa, s.retire.homeByte pa = s.homeByte pa := fun pa => by simp [State.homeByte]
  have v : ∀ pa, s.retire.visitorFind pa = s.visitorFind pa := fun pa => by simp [State.visitorFind]
  have l : ∀ c pa, s.retire.l1Find c pa = s.l1Find c pa := fun c pa => by simp [State.l1Find]
  have r : ∀ pa, s.retire.isRemote pa = s.isRemote pa := fun pa => by simp [State.isRemote, State.pkg]
  have c : s.retire.cacheOf core = s.cacheOf core := by simp [State.cacheOf]
  cases mode <;> simp [State.readByte, State.behindL1, e, v, l, r, c]

/-! Traps -/

/-- A trap that vectors (R381): the trap registers, the status, the handler's address and the broken links. -/
theorem takeTrap_vectors {s : State} {t : Trap} (h : s.cur.parksOn t = false) :
    s.takeTrap t = s.onCur fun h => ((h.trapRegisters t).giveUp t.keeps).vectorEntry := by
  simp [State.takeTrap, h, State.onCur]

/-- A trap that parks (R381, R390): the hart leaves its core with a fault record. -/
theorem takeTrap_parks {s : State} {t : Trap} (h : s.cur.parksOn t = true) :
    s.takeTrap t =
      (s.onCur fun h => (h.trapRegisters t).giveUp t.keeps).beginLeave
        (if t.after then s.cur.pc + 4 else s.cur.pc) (some (s.faultRecord (s.cur.trapRegisters t) t.cause false)) := by
  rw [State.takeTrap, if_pos h]
  rfl

/-! Computations -/

/-- `finish` of a computation that ends well. -/
theorem finish_ok {m : M Unit} {s t : State} (h : m s = .ok () t) : finish m s = .next t := by
  simp [finish, h]

/-- `finish` of a computation that traps. -/
theorem finish_trap {m : M Unit} {s t : State} {c : Trap} (h : m s = .error c t) (hs : c.stalls = false) :
    finish m s = .next (t.takeTrap c) := by
  simp [finish, h, hs]

/-- Whatever the computation does, `finish` answers a next state. -/
theorem finish_next (m : M Unit) (s : State) : ∃ t, finish m s = .next t := by
  unfold finish
  split
  · exact ⟨_, rfl⟩
  · split <;> exact ⟨_, rfl⟩

/-- The computation leads from states with a property to states with it, whether it ends well or traps. -/
def Keeps {α : Type} (P : State → Prop) (m : M α) : Prop :=
  ∀ s, P s → match m s with
    | .ok _ t => P t
    | .error _ t => P t

theorem Keeps.pure {α : Type} {P : State → Prop} (a : α) : Keeps P (Pure.pure a : M α) := fun _ h => h

theorem Keeps.get {P : State → Prop} : Keeps P (MonadState.get : M State) := fun _ h => h

theorem Keeps.throw {α : Type} {P : State → Prop} (t : Trap) : Keeps P (MonadExcept.throw t : M α) := fun _ h => h

theorem Keeps.modify {P : State → Prop} {f : State → State} (hf : ∀ s, P s → P (f s)) :
    Keeps P (modify f : M Unit) := fun s h => hf s h

theorem Keeps.bind {α β : Type} {P : State → Prop} {m : M α} {f : α → M β} (hm : Keeps P m) (hf : ∀ a, Keeps P (f a)) :
    Keeps P (m >>= f) := by
  intro s h
  have := hm s h
  show match EStateM.bind m f s with
    | .ok _ t => P t
    | .error _ t => P t
  unfold EStateM.bind
  cases e : m s with
  | ok a t => rw [e] at this; exact hf a t this
  | error c t => rw [e] at this; exact this

/-- A step of a computation that sees the state it starts from. -/
theorem Keeps.bind_get {β : Type} {P : State → Prop} {f : State → M β}
    (hf : ∀ s, P s → match f s s with | .ok _ t => P t | .error _ t => P t) : Keeps P (MonadState.get >>= f) :=
  fun s h => hf s h

theorem Keeps.need {P : State → Prop} (ok : Bool) (c : BitVec 8) (v : Word) (i : Nat) : Keeps P (need ok c v i) := by
  unfold Machine.need
  split
  · exact Keeps.pure ()
  · exact Keeps.throw _

theorem Keeps.trap {α : Type} {P : State → Prop} (c : BitVec 8) (v : Word) (i : Nat) : Keeps P (trap c v i : M α) :=
  Keeps.throw _

theorem Keeps.curHart {P : State → Prop} : Keeps P curHart := fun _ h => h

theorem Keeps.modCur {P : State → Prop} {f : Hart → Hart} (hf : ∀ s, P s → P (s.onCur f)) : Keeps P (modCur f) :=
  Keeps.modify hf

/-- From a computation to the meaning that finishes it. -/
theorem Keeps.finish {P : State → Prop} {m : M Unit} (hm : Keeps P m) (ht : ∀ s t, P s → P (s.takeTrap t)) {s t : State}
    (h : P s) (e : finish m s = .next t) : P t := by
  have := hm s h
  unfold Machine.finish at e
  cases r : m s with
  | ok a u => rw [r] at this e; cases e; exact this
  | error c u =>
    rw [r] at this e
    dsimp only at e
    split at e
    · cases e; exact h
    · cases e; exact ht u c this

/-! The canonical form of memory through the shared operations -/

theorem retireTo_wf (s : State) (next : Word) : Memory.wf (s.retireTo next) = Memory.wf s := Memory.wf_congr (by simp) (by simp)
theorem retire_wf (s : State) : Memory.wf s.retire = Memory.wf s := Memory.wf_congr (by simp) (by simp)

theorem onCur_wf (s : State) (f : Hart → Hart) : Memory.wf (s.onCur f) = Memory.wf s := rfl

/-- Bytes taken out of HBM leave the canonical form. -/
theorem dropped_wf {s t : State} (h : Memory.wf s = true) (a n : Nat) (h1 : t.hbm = cellsDrop s.hbm a n) (h2 : t.l2 = s.l2) :
    Memory.wf t = true := by
  obtain ⟨r, z, l⟩ := (Memory.wf_iff s).1 h
  rw [Memory.wf_iff, h1, h2]
  refine ⟨cellsDrop_rising a n r, ?_, l⟩
  simp only [List.all_eq_true] at z ⊢
  intro c hc
  rcases List.mem_append.1 hc with hc | hc
  · exact z c ((List.takeWhile_sublist _).subset hc)
  · exact z c ((List.dropWhile_sublist _).subset hc)

/-- An allocation that leaves its tile buffer keeps the canonical form (R168). -/
theorem stow_wf {s : State} (h : Memory.wf s = true) (l : Launch) (core first : Nat) (groups : List Nat) :
    Memory.wf (s.stow l core first groups) = true := by
  unfold State.stow
  dsimp only
  split
  · exact h
  · exact dropped_wf h _ _ rfl rfl

theorem leaveBuffer_wf {s : State} (h : Memory.wf s = true) (launch group : Nat) :
    Memory.wf (s.leaveBuffer launch group) = true := by
  unfold State.leaveBuffer
  split
  · exact foldl_wf _ (fun _ _ h => by dsimp only; split <;> [exact h; exact stow_wf h _ _ _ _]) _ _ h
  · exact h

/-- The barrier instances that a hart takes along are no memory (R360). -/
theorem takeBars_wf (s : State) (g : Hart) : Memory.wf (s.takeBars g) = Memory.wf s := by
  unfold State.takeBars
  dsimp only
  split <;> rfl

theorem giveBack_wf (s : State) : Memory.wf s.giveBack = Memory.wf s := takeBars_wf _ _

theorem vacate_wf {s : State} (h : Memory.wf s = true) (r : Option FaultRecord) : Memory.wf (s.vacate r) = true := by
  have hg := (giveBack_wf s).trans h
  unfold State.vacate
  dsimp only
  generalize s.giveBack = u at hg ⊢
  cases r with
  | none => refine leaveBuffer_wf ?_ _ _; exact hg
  | some r => refine leaveBuffer_wf ?_ _ _; exact hg

/-- A context save keeps the canonical form (R393). -/
theorem saveContext_wf {s : State} (h : Memory.wf s = true) (resume : Word) : Memory.wf (s.saveContext resume) = true :=
  writeSaveArea_wf ((onCur_wf _ _).trans (releaseBy_wf h s.cur.core (s.partScope s.cur.part)))

/-- A hart that leaves its core keeps the canonical form: it releases and writes its save area (R295, R390). -/
theorem leaveCore_wf {s : State} (h : Memory.wf s = true) (resume : Word) (r : Option FaultRecord) :
    Memory.wf (s.leaveCore resume r) = true := by
  unfold State.leaveCore
  split
  · exact vacate_wf (saveContext_wf h resume) _
  · exact vacate_wf (saveContext_wf ((onCur_wf _ _).trans h) resume) _

theorem beginLeave_wf {s : State} (h : Memory.wf s = true) (resume : Word) (r : Option FaultRecord) :
    Memory.wf (s.beginLeave resume r) = true := by
  rw [← onCur_wf s Hart.stopLead] at h
  rw [State.beginLeave]
  split
  · exact h
  · exact leaveCore_wf h resume r

/-- Taking an exception keeps the canonical form. -/
theorem takeTrap_wf {s : State} (h : Memory.wf s = true) (t : Trap) : Memory.wf (s.takeTrap t) = true := by
  cases e : s.cur.parksOn t with
  | true => rw [takeTrap_parks e]; exact beginLeave_wf ((onCur_wf _ _).trans h) _ _
  | false => rw [takeTrap_vectors e]; exact h

end Sys2Proof.Machine
end

