-- ==== Sys2Proof/Laws/Canonical.lean ====
section
/-! SUPPORT. The operations over memory keep its form (`State.Canonical`). -/

namespace Sys2Proof.Machine

open Host (Cell)

/-- The form looks at HBM, the home slices and the L1s alone. -/
theorem State.Canonical.congr {s t : State} (h : s.Canonical) (h1 : t.hbm = s.hbm) (h2 : t.l2 = s.l2) (h3 : t.l1 = s.l1) :
    t.Canonical :=
  ⟨by rw [Memory.wf_congr h1 h2]; exact h.wf, by unfold State.Single; rw [h3]; exact h.single,
    by unfold State.Tidy; rw [h3]; exact h.tidy,
    by unfold State.TilesUncached; rw [h2]; exact h.tiles⟩

/-- An address in an aligned block of at most half a MiB shares its block's kind. -/
theorem isTile_block {n pa j : Nat} (hn : n ∣ 0x80000) (hp : pa % n = 0) (hj : j < n) : isTile (pa + j) = isTile pa := by
  obtain ⟨k, hk⟩ := hn
  have e : (pa + j) / n = pa / n := by
    rw [← Nat.div_add_mod pa n, hp, Nat.add_zero, Nat.mul_add_div (by omega), Nat.div_eq_of_lt hj, Nat.add_zero,
      Nat.mul_div_cancel_left _ (by omega)]
  have f : (pa + j) / 0x80000 = pa / 0x80000 := by rw [hk, ← Nat.div_div_eq_div_mul, ← Nat.div_div_eq_div_mul, e]
  unfold isTile localOf
  simp only
  congr 1
  apply propext
  omega

/-- Bytes of an aligned block touch a tile buffer when the block lies in one. -/
theorem touchesTile_block {n pa : Nat} (hn : n ∣ 0x80000) (h0 : 0 < n) (hp : pa % n = 0) : touchesTile pa n = isTile pa := by
  unfold touchesTile
  rw [Bool.eq_iff_iff, List.any_eq_true]
  constructor
  · rintro ⟨j, hj, ht⟩
    rwa [isTile_block hn hp (List.mem_range.1 hj)] at ht
  · intro ht
    exact ⟨0, List.mem_range.2 h0, by simpa using ht⟩

theorem cellGet_dropped {m : List Cell} (h : rising m = true) (a n b : Nat) (hb : cellGet m b = none) :
    cellGet (cellsDrop m a n) b = none := by
  by_cases hn : a ≤ b ∧ b < a + n
  · exact cellGet_cellsDrop_same h a n hn
  · rw [cellGet_cellsDrop_other h a n (by omega), hb]

theorem cleanHome_canonical {s : State} (h : s.Canonical) (pa n : Nat) : (s.cleanHome pa n).Canonical :=
  ⟨cleanHome_wf h.wf pa n, h.single, h.tidy,
    fun b hb => cellGet_dropped ((Memory.wf_iff s).1 h.wf).2.2 pa n b (h.tiles b hb)⟩

theorem discardHome_canonical {s : State} (h : s.Canonical) (pa n : Nat) : (s.discardHome pa n).Canonical :=
  ⟨discardHome_wf h.wf pa n, h.single, h.tidy,
    fun b hb => cellGet_dropped ((Memory.wf_iff s).1 h.wf).2.2 pa n b (h.tiles b hb)⟩

/-- Steps that each keep the form keep it together. -/
theorem foldl_canonical {α : Type} (f : State → α → State) (l : List α)
    (hf : ∀ s, s.Canonical → ∀ a ∈ l, (f s a).Canonical) (s : State) (h : s.Canonical) : (l.foldl f s).Canonical := by
  induction l generalizing s with
  | nil => exact h
  | cons a l ih =>
    exact ih (fun s hs b hb => hf s hs b (List.mem_cons_of_mem _ hb)) _ (hf s h a List.mem_cons_self)

/-- A line that leaves a slice keeps the form. -/
theorem giveLine_canonical {s : State} (h : s.Canonical) (lines : List Nat) : (s.giveLine lines).Canonical := by
  unfold State.giveLine
  dsimp only
  split
  · exact h.congr rfl rfl rfl
  · refine cleanHome_canonical ?_ _ _
    exact h.congr rfl rfl rfl

/-- Making room in a slice keeps the form. -/
theorem homeRoom_canonical {s : State} (h : s.Canonical) (pa : Nat) : (s.homeRoom pa).Canonical := by
  unfold State.homeRoom
  dsimp only
  split_ifs
  · exact h
  · exact h
  · exact giveLine_canonical h _

theorem homeTrim_canonical {s : State} (h : s.Canonical) (pa : Nat) : (s.homeTrim pa).Canonical := by
  unfold State.homeTrim
  dsimp only
  split_ifs
  · exact h
  · exact h
  · exact giveLine_canonical h _

theorem trimHome_canonical {s : State} (h : s.Canonical) (pa n : Nat) : (s.trimHome pa n).Canonical := by
  unfold State.trimHome
  split
  · exact h
  · exact foldl_canonical _ _ (fun _ h _ _ => homeTrim_canonical h _) _ h

/-- Bytes that reach their home keep the form. -/
theorem homePut_canonical {s : State} (h : s.Canonical) (pa : Nat) (bs : List Byte) (pick : Hart → Bool) :
    (s.homePut pa bs pick).Canonical := by
  obtain ⟨h1, h2, h3⟩ := (Memory.wf_iff s).1 h.wf
  have key : State.Canonical (if touchesTile pa bs.length then { s with hbm := cellsWrite false s.hbm pa bs }
      else { s with l2 := cellsWrite true s.l2 pa bs }.trimHome pa bs.length) := by
    split
    · exact ⟨(Memory.wf_iff _).2 ⟨cellsWrite_rising _ _ _ h1, cellsWrite_sparse _ _ h2, h3⟩, h.single, h.tidy, h.tiles⟩
    · rename_i ht
      have hw : Memory.wf { s with l2 := cellsWrite true s.l2 pa bs } = true :=
        (Memory.wf_iff _).2 ⟨h1, h2, cellsWrite_rising _ _ _ h3⟩
      refine trimHome_canonical ⟨hw, h.single, h.tidy, fun b hb => ?_⟩ _ _
      show cellGet (cellsWrite true s.l2 pa bs) b = none
      rw [cellGet_cellsWrite_other true h3 pa bs, h.tiles b hb]
      by_contra hc
      apply ht
      unfold touchesTile
      rw [List.any_eq_true]
      exact ⟨b - pa, List.mem_range.2 (by omega), by rw [show pa + (b - pa) = b by omega]; exact hb⟩
  exact key.congr rfl rfl rfl

/-- Counting keeps the form. -/
theorem counted_canonical {s t : State} (h : s.Canonical) (e : ∃ p d, t = { s with perf := p, draws := d }) : t.Canonical := by
  obtain ⟨p, d, rfl⟩ := e
  exact h.congr rfl rfl rfl

/-- A write at the home keeps the form. -/
theorem homeWrite_canonical {s : State} (h : s.Canonical) (pa : Nat) (bs : List Byte) : (s.homeWrite pa bs).Canonical :=
  (homePut_canonical (counted_canonical h (countHome_counts s pa bs.length)) pa bs fun _ => true).congr rfl rfl rfl

/-- A tidy sector may be put into an L1. -/
theorem l1Put_canonical {s : State} (h : s.Canonical) {x : Sector} (hx : x.Tidy) :
    (s.l1Put x).Canonical := by
  refine ⟨h.wf, ?_, ?_, h.tiles⟩
  · have hs := h.single.sublist (List.filter_sublist (p := fun y => !(y.cache == x.cache && y.addr == x.addr)) (l := s.l1))
    unfold State.l1Put State.Single
    dsimp only
    split
    · exact hs
    · refine List.Pairwise.cons (fun y hy e => ?_) hs
      have := (List.mem_filter.1 hy).2
      simp [e.1, e.2] at this
  intro y hy
  unfold State.l1Put at hy
  dsimp only at hy
  split at hy
  · exact h.tidy y (List.mem_filter.1 hy).1
  · rcases List.mem_cons.1 hy with rfl | hy
    · exact hx
    · exact h.tidy y (List.mem_filter.1 hy).1

theorem l1Find_mem {s : State} {c pa : Nat} {x : Sector} (h : s.l1Find c pa = some x) : x ∈ s.l1 := List.mem_of_find?_eq_some h

/-- What stands in an L1 for a write or a fill is tidy. -/
theorem l1Get_tidy {s : State} (h : s.Tidy) (c pa : Nat) : (s.l1Get c pa).Tidy := by
  unfold State.l1Get
  cases e : s.l1Find c pa with
  | none => exact ⟨by simp, by simp [sectorOf]⟩
  | some x => exact h x (l1Find_mem e)

theorem tidy_or {d v m : BitVec 64} (h : d &&& ~~~v = 0) : (d ||| m) &&& ~~~(v ||| m) = 0 := by
  apply BitVec.eq_of_getLsbD_eq
  intro i hi
  have := congrArg (fun z => z.getLsbD i) h
  simp only [BitVec.getLsbD_and, BitVec.getLsbD_not, BitVec.getLsbD_or, hi, decide_true, Bool.true_and] at this ⊢
  revert this
  cases d.getLsbD i <;> cases v.getLsbD i <;> cases m.getLsbD i <;> simp

theorem tidy_grow {d v m : BitVec 64} (h : d &&& ~~~v = 0) : d &&& ~~~(v ||| m) = 0 := by
  apply BitVec.eq_of_getLsbD_eq
  intro i hi
  have := congrArg (fun z => z.getLsbD i) h
  simp only [BitVec.getLsbD_and, BitVec.getLsbD_not, BitVec.getLsbD_or, hi, decide_true, Bool.true_and] at this ⊢
  revert this
  cases d.getLsbD i <;> cases v.getLsbD i <;> cases m.getLsbD i <;> simp

theorem tidy_less {d v m : BitVec 64} (h : d &&& ~~~v = 0) : (d &&& m) &&& ~~~v = 0 := by
  rw [BitVec.and_assoc, BitVec.and_comm m, ← BitVec.and_assoc, h]
  simp

/-- Sectors may leave an L1. -/
theorem filtered_canonical {s : State} (h : s.Canonical) (p : Sector → Bool) :
    State.Canonical { s with l1 := s.l1.filter p } :=
  ⟨h.wf, h.single.sublist List.filter_sublist, fun y hy => h.tidy y (List.mem_filter.1 hy).1, h.tiles⟩

theorem l1Drop_canonical {s : State} (h : s.Canonical) (c pa : Nat) : (s.l1Drop c pa).Canonical := filtered_canonical h _

theorem visitorDrop_canonical {s : State} (h : s.Canonical) (pa : Nat) : (s.visitorDrop pa).Canonical := h.congr rfl rfl rfl

theorem dropClean_canonical {s : State} (h : s.Canonical) (c : Nat) : (s.dropClean c).Canonical := by
  refine ⟨h.wf, ?_, ?_, h.tiles⟩
  · refine List.Pairwise.filterMap _ (fun x y hxy x' hx y' hy => ?_) h.single
    have key : ∀ z z' : Sector, (if z.cache == c then (if z.dirty = 0 then none
        else some { z with valid := z.dirty, bad := z.bad &&& z.dirty }) else some z) = some z' →
        z'.cache = z.cache ∧ z'.addr = z.addr := by
      intro z z' e
      split at e
      · split at e
        · cases e
        · cases e; exact ⟨rfl, rfl⟩
      · cases e; exact ⟨rfl, rfl⟩
    rw [(key x x' hx).1, (key x x' hx).2, (key y y' hy).1, (key y y' hy).2]
    exact hxy
  · intro y hy
    obtain ⟨x, hx, e⟩ := List.mem_filterMap.1 hy
    split at e
    · split at e
      · cases e
      · cases e
        exact ⟨by simp, (h.tidy _ hx).2⟩
    · injection e with e
      exact e ▸ h.tidy _ hx

/-- A tidy sector is written back. -/
theorem writeBackSector_canonical {s : State} (h : s.Canonical) {x : Sector} (hx : x.Tidy) :
    (s.writeBackSector x).Canonical := by
  have hc : State.Canonical (if ((upTo 64).filter fun i => x.dirty.getLsbD i && !x.bad.getLsbD i).isEmpty then s
      else (s.countHome x.addr 64).countSent (if 256 ≤ x.cache then 4 * (x.cache - 256) else x.cache) x.addr
        ((upTo 64).filter fun i => x.dirty.getLsbD i && !x.bad.getLsbD i).length true) := by
    split
    · exact h
    · exact counted_canonical h (countHomeSent_counts ..)
  unfold State.writeBackSector
  dsimp only
  have hf := foldl_canonical (fun (t : State) (i : Nat) => t.homePut (x.addr + i) [sectorByte x.data i] fun h => s.cacheOf h.core != x.cache)
    ((upTo 64).filter fun i => x.dirty.getLsbD i && !x.bad.getLsbD i) (fun s h i _ => homePut_canonical h _ _ _) _ hc
  generalize List.foldl _ _ _ = u at hf ⊢
  exact l1Put_canonical (s := { u with recoded := s.recode u x.addr 64 }) (x := { x with dirty := x.dirty &&& x.bad }) (hf.congr rfl rfl rfl)
    ⟨tidy_less hx.1, hx.2⟩

/-- An eviction from an L1 keeps the form. -/
theorem l1Evict_canonical {s : State} (h : s.Canonical) (cache : Nat) (keep : Option Nat) :
    (s.l1Evict cache keep).Canonical := by
  unfold State.l1Evict
  refine filtered_canonical (foldl_canonical State.writeBackSector _ (fun _ ht x hx => ?_) { s with draws := s.draws + 1 }
    (h.congr rfl rfl rfl)) _
  exact writeBackSector_canonical ht (h.tidy x (List.mem_filter.1 (List.mem_filter.1 hx).1).1)

/-- Making room in an L1 keeps the form. -/
theorem l1Trim_canonical {s : State} (h : s.Canonical) (cache more : Nat) (keep : Option Nat) :
    (s.l1Trim cache more keep).Canonical := by
  unfold State.l1Trim
  split
  · exact h
  · exact foldl_canonical _ _ (fun _ ht _ _ => l1Evict_canonical ht cache keep) _ h

theorem l1Room_canonical {s : State} (h : s.Canonical) (cache pa : Nat) : (s.l1Room cache pa).Canonical :=
  l1Trim_canonical h ..

theorem l1Write_canonical {s : State} (h : s.Canonical) (c pa : Nat) (bs : List Byte) : (s.l1Write c pa bs).Canonical :=
  l1Put_canonical (l1Room_canonical h c pa)
    ⟨tidy_or (l1Get_tidy (l1Room_canonical h c pa).tidy c pa).1, (l1Get_tidy (l1Room_canonical h c pa).tidy c pa).2⟩

theorem writeBackDrop_canonical {s : State} (h : s.Canonical) (core pa : Nat) : (s.writeBackDrop core pa).Canonical := by
  unfold State.writeBackDrop
  split
  · rename_i e
    exact l1Drop_canonical (writeBackSector_canonical h (h.tidy _ (l1Find_mem e))) _ _
  · exact h

theorem writeBackAll_canonical {s : State} (h : s.Canonical) (cache : Nat) : (s.writeBackAll cache).Canonical :=
  foldl_canonical _ _ (fun _ ht x hx => writeBackSector_canonical ht (h.tidy x (List.mem_filter.1 hx).1)) _ h

theorem releaseBy_canonical {s : State} (h : s.Canonical) (core scope : Nat) : (s.releaseBy core scope).Canonical := by
  unfold State.releaseBy
  split
  · exact writeBackAll_canonical h _
  · exact h

theorem acquireBy_canonical {s : State} (h : s.Canonical) (core scope : Nat) : (s.acquireBy core scope).Canonical := by
  have key : (if (if s.isFused core then 3 else 2) ≤ scope then s.dropClean (s.cacheOf core) else s).Canonical := by
    split_ifs <;> first | exact dropClean_canonical h _ | exact h
  unfold State.acquireBy
  dsimp only
  split
  · exact key.congr rfl rfl rfl
  · exact key

theorem visitorFill_canonical {s : State} (h : s.Canonical) (pa : Nat) : (s.visitorFill pa).Canonical := by
  refine foldl_canonical _ _ (fun s h a _ => ?_) _ h
  split
  · exact h
  · exact (homeRoom_canonical h a).congr rfl rfl rfl

/-- What each step of a fold keeps, the fold keeps. -/
theorem foldl_kept {α β : Type} (f : α → β → α) (P : α → Prop) (hf : ∀ y i, P y → P (f y i)) :
    ∀ (is : List β) (y : α), P y → P (is.foldl f y) := by
  intro is
  induction is with
  | nil => exact fun _ h => h
  | cons i is ih => exact fun y h => ih _ (hf y i h)

/-- A byte that is not dirty may lose its validity. -/
theorem tidy_clear {d v : BitVec 64} {i : Nat} (h : d &&& ~~~v = 0) (hi : d.getLsbD i = false) :
    d &&& ~~~(v &&& ~~~byteMask i 1) = 0 := by
  apply BitVec.eq_of_getLsbD_eq
  intro j hj
  have := congrArg (fun z => z.getLsbD j) h
  have hm : (byteMask i 1).getLsbD j = decide (i = j) := by
    rw [byteMask, BitVec.getLsbD_ofNat, show (2 ^ 1 - 1) <<< i = 2 ^ i by simp [Nat.shiftLeft_eq], Nat.testBit_two_pow]
    simp [hj]
  simp only [BitVec.getLsbD_and, BitVec.getLsbD_not, hj, decide_true, Bool.true_and, hm] at this ⊢
  revert this
  by_cases e : i = j
  · subst e; simp [hi]
  · cases d.getLsbD j <;> cases v.getLsbD j <;> simp [e]

theorem fillSector_canonical {s : State} (h : s.Canonical) (cache pa : Nat) : (s.fillSector cache pa).Canonical := by
  unfold State.fillSector
  dsimp only
  split
  · exact h
  · have hr := l1Room_canonical h cache pa
    refine l1Put_canonical hr (And.right (foldl_kept _ (fun y : Sector => y.dirty = ((s.l1Room cache pa).l1Get cache pa).dirty ∧
      y.Tidy) (fun y i hy => ?_) _ _ ⟨rfl, l1Get_tidy hr.tidy cache pa⟩))
    split_ifs with hd
    · exact hy
    · exact ⟨hy.1, tidy_clear hy.2.1 (by rw [hy.1]; simpa using hd), hy.2.2⟩
    · exact ⟨hy.1, tidy_grow hy.2.1, hy.2.2⟩

theorem forgetClean_canonical {s : State} (h : s.Canonical) (core pa : Nat) (deep : Bool) :
    (s.forgetClean core pa deep).Canonical := by
  have hd : (if deep then s.visitorDrop pa else s).Canonical := by
    cases deep
    · exact h
    · exact visitorDrop_canonical h pa
  unfold State.forgetClean
  dsimp only
  split
  · rename_i e
    exact l1Put_canonical hd ⟨by simp, (hd.tidy _ (l1Find_mem e)).2⟩
  · exact hd

theorem fillLine_canonical {s : State} (h : s.Canonical) (core pa : Nat) : (s.fillLine core pa).Canonical := by
  unfold State.fillLine
  refine fillSector_canonical (fillSector_canonical ?_ _ _) _ _
  split
  · exact visitorFill_canonical h _
  · exact h

theorem storeHome_canonical {s : State} (h : s.Canonical) (core : Nat) (attr : Attr) (pa : Nat) (bs : List Byte) :
    (s.storeHome core attr pa bs).Canonical := by
  refine counted_canonical ?_ (countSent_counts ..)
  split
  · exact homeWrite_canonical h _ _
  · exact homeWrite_canonical (visitorDrop_canonical (writeBackDrop_canonical h _ _) _) _ _

theorem afterLoad_canonical {s : State} (h : s.Canonical) (core : Nat) (attr : Attr) (alloc : Bool) (pa : Nat) :
    (s.afterLoad core attr alloc pa).Canonical := by
  unfold State.afterLoad
  split
  · exact h
  · split
    · split
      · exact fillLine_canonical h _ _
      · split
        · exact visitorFill_canonical h _
        · exact h
    · split
      · exact visitorFill_canonical h _
      · exact h
    · exact h

theorem afterRead_canonical {s : State} (h : s.Canonical) (core : Nat) (attr : Attr) (served : ReadMode) (alloc : Bool)
    (pa : Nat) : (s.afterRead core attr served alloc pa).Canonical := by
  unfold State.afterRead
  split
  · exact h
  · cases served
    · exact afterLoad_canonical h _ _ _ _
    · exact afterLoad_canonical (forgetClean_canonical h _ _ _) _ _ _ _
    · exact forgetClean_canonical h _ _ _
    · exact forgetClean_canonical h _ _ _

/-- Counting keeps the form. -/
theorem countWalk_canonical {s : State} (h : s.Canonical) (a : Agent) (met : List Met) : (s.countWalk a met).Canonical :=
  counted_canonical h (countWalk_counts ..)

/-- Translation keeps the form: its accessed and dirty updates are writes at the home (R308). -/
theorem xlate_canonical {s : State} (h : s.Canonical) (a : Agent) (k : Kind) (va : Word) : (s.xlate a k va).2.Canonical := by
  have hspend (met : List Met) : (s.spend (met.any Met.inRun)).Canonical := by
    unfold State.spend
    split
    · exact h.congr rfl rfl rfl
    · exact h
  have hfill {s : State} (h : s.Canonical) (va : Nat) (met : List Met) : (s.tlbFill a va met).Canonical := h.congr rfl rfl rfl
  have htouch (va : Nat) (m : Met) (met : List Met) : (s.touch a k va m met).Canonical := by
    have h := hspend met
    unfold State.touch
    refine countWalk_canonical ?_ _ _
    unfold State.update
    dsimp only
    split
    · split
      · exact h
      · exact hfill h _ _
    · exact hfill (homeWrite_canonical h _ _) _ _
  have hfresh (va : Nat) : (s.xlateFresh a k va).2.Canonical := by
    unfold State.xlateFresh
    split
    · exact h.congr rfl rfl rfl
    split
    · exact h.congr rfl rfl rfl
    · split
      · exact countWalk_canonical (hfill (hspend _) _ _) _ _
      · exact htouch _ _ _
  unfold State.xlate
  dsimp only
  split
  · exact h
  · split
    · exact h
    · split
      · exact h
      · unfold State.xlatePage
        split
        · exact hfresh _
        · split
          · exact htouch _ _ _
          · exact hfresh _

theorem writeSaveArea_canonical {s : State} (h : s.Canonical) : s.writeSaveArea.Canonical := by
  have hw := foldl_canonical (fun (s : State) (p : Nat × List Byte) => s.homeWrite (s.cur.handle + p.1) p.2) (s.saveArea s.cur)
    (fun _ h _ _ => homeWrite_canonical h _ _) s h
  unfold State.writeSaveArea
  dsimp only
  generalize List.foldl _ s _ = u at hw ⊢
  exact hw.congr rfl rfl rfl

theorem retireTo_canonical {s : State} (h : s.Canonical) (next : Word) : (s.retireTo next).Canonical :=
  h.congr (by simp) (by simp) (by simp)

theorem reset_canonical : State.reset.Canonical := ⟨rfl, List.Pairwise.nil, (fun _ h => nomatch h), fun _ _ => rfl⟩

theorem onCur_canonical {s : State} (h : s.Canonical) (f : Hart → Hart) : (s.onCur f).Canonical := h.congr rfl rfl rfl

/-- An allocation that leaves its tile buffer keeps the form (R168). -/
theorem stow_canonical {s : State} (h : s.Canonical) (l : Launch) (core first : Nat) (groups : List Nat) :
    (s.stow l core first groups).Canonical := by
  refine ⟨stow_wf h.wf l core first groups, ?_, ?_, ?_⟩ <;> unfold State.stow <;> dsimp only <;> split
  · exact h.single
  · exact h.single
  · exact h.tidy
  · exact h.tidy
  · exact h.tiles
  · exact h.tiles

theorem leaveBuffer_canonical {s : State} (h : s.Canonical) (launch group : Nat) : (s.leaveBuffer launch group).Canonical := by
  unfold State.leaveBuffer
  split
  · exact foldl_canonical _ _ (fun _ h _ _ => by dsimp only; split <;> [exact h; exact stow_canonical h _ _ _ _]) _ h
  · exact h

theorem giveBack_canonical {s : State} (h : s.Canonical) : s.giveBack.Canonical := by
  unfold State.giveBack State.takeBars
  dsimp only
  split <;> exact h.congr rfl rfl rfl

theorem vacate_canonical {s : State} (h : s.Canonical) (r : Option FaultRecord) : (s.vacate r).Canonical := by
  have hg := giveBack_canonical h
  unfold State.vacate
  dsimp only
  generalize s.giveBack = u at hg ⊢
  cases r with
  | none => refine leaveBuffer_canonical ?_ _ _; exact hg.congr rfl rfl rfl
  | some r => refine leaveBuffer_canonical ?_ _ _; exact hg.congr rfl rfl rfl

/-- A hart that leaves its core keeps the form: it releases and writes its save area (R295, R390). -/
theorem leaveCore_canonical {s : State} (h : s.Canonical) (resume : Word) (r : Option FaultRecord) :
    (s.leaveCore resume r).Canonical := by
  have hsave {s : State} (h : s.Canonical) : (s.saveContext resume).Canonical :=
    writeSaveArea_canonical (onCur_canonical (releaseBy_canonical h _ _) _)
  unfold State.leaveCore
  split
  · exact vacate_canonical (hsave h) _
  · exact vacate_canonical (hsave (onCur_canonical h _)) _

theorem beginLeave_canonical {s : State} (h : s.Canonical) (resume : Word) (r : Option FaultRecord) :
    (s.beginLeave resume r).Canonical := by
  have hs := onCur_canonical h Hart.stopLead
  rw [State.beginLeave]
  split
  · exact onCur_canonical hs _
  · exact leaveCore_canonical hs _ _

/-- Taking an exception keeps the form. -/
theorem takeTrap_canonical {s : State} (h : s.Canonical) (t : Trap) : (s.takeTrap t).Canonical := by
  cases e : s.cur.parksOn t with
  | true => rw [takeTrap_parks e]; exact beginLeave_canonical (onCur_canonical h _) _ _
  | false => rw [takeTrap_vectors e]; exact onCur_canonical h _

end Sys2Proof.Machine
end

