-- ==== Sys2Proof/Laws/Completes.lean ====
section
/-! SUPPORT. Completion in the terms of the statements: what `retire` makes of a state, seen through `Completes`. -/

namespace Sys2Proof.Machine

/-- Reads of memory look at the caches, the home slices, HBM and the package's number alone. -/
theorem sameMemory_of {s t : State} (h1 : t.l1 = s.l1) (h2 : t.l2 = s.l2) (h3 : t.hbm = s.hbm)
    (h4 : t.visitors = s.visitors) (h5 : t.fused = s.fused) (h6 : t.lighthouse = s.lighthouse) : s.sameMemory t := by
  intro core mode pa
  have e : ∀ pa, t.homeByte pa = s.homeByte pa := fun pa => by simp [State.homeByte, h2, h3]
  have v : ∀ pa, t.visitorFind pa = s.visitorFind pa := fun pa => by simp [State.visitorFind, h4]
  have l : ∀ c pa, t.l1Find c pa = s.l1Find c pa := fun c pa => by simp [State.l1Find, h1]
  have r : ∀ pa, t.isRemote pa = s.isRemote pa := fun pa => by simp [State.isRemote, State.pkg, h6]
  have c : t.cacheOf core = s.cacheOf core := by simp [State.cacheOf, h5]
  cases mode <;> simp [State.readByte, State.behindL1, e, v, l, r, c]

/-- Completion changes nothing but what `bare` leaves out. -/
@[simp] theorem retireTo_bare (s : State) (next : Word) : (s.retireTo next).bare = s.bare := by
  unfold State.retireTo
  dsimp only
  split <;> rfl

@[simp] theorem retire_bare (s : State) : s.retire.bare = s.bare := retireTo_bare s _

/-- A meaning that changes the hart in front and completes. -/
theorem completes_retireTo (s : State) (h : Hart) (next : Word) :
    Completes s (.next (({ s with cur := h } : State).retireTo next)) next h :=
  ⟨_, rfl, by simp, by simp, by simp, sameMemory_of (by simp) (by simp) (by simp) (by simp) (by simp) (by simp)⟩

/-- A meaning that changes the hart in front and completes with the next instruction. -/
theorem completes_retire (s : State) (h : Hart) :
    Completes s (.next (({ s with cur := h } : State).retire)) (h.pc + 4) h :=
  completes_retireTo s h _

/-- A meaning that brings about `u` and completes. -/
theorem completesAs_retire (u : State) : CompletesAs (.next u.retire) (u.cur.pc + 4) u :=
  ⟨_, rfl, by simp, by simp, by simp⟩

/-- Completion with the same hart, but for what `bare` leaves out. -/
theorem Completes.congr {s : State} {o : Result} {next : Word} {h g : Hart} (c : Completes s o next h)
    (e : h.bare = g.bare) : Completes s o next g := by
  obtain ⟨t, h1, h2, h3, h4, h5⟩ := c
  refine ⟨t, h1, h2, h3, h4.trans ?_, h5⟩
  simp only [State.bare, e]

end Sys2Proof.Machine
end

