-- ==== Sys2Proof/Laws/Decode.lean ====
section
/-! SUPPORT. Reading fields out of a word that is written field by field. -/

namespace Sys2Proof

/-- A field that lies in the lower part. -/
theorem extract_low {v w : Nat} (x : BitVec v) (y : BitVec w) (lo len : Nat) (h : lo + len ≤ w) :
    (x ++ y).extractLsb' lo len = y.extractLsb' lo len := by
  ext i hi
  simp only [BitVec.getElem_extractLsb', BitVec.getLsbD_append]
  rw [if_pos (by omega)]

/-- A field that lies in the upper part. -/
theorem extract_high {v w : Nat} (x : BitVec v) (y : BitVec w) (lo len : Nat) (h : w ≤ lo) :
    (x ++ y).extractLsb' lo len = x.extractLsb' (lo - w) len := by
  ext i hi
  simp only [BitVec.getElem_extractLsb', BitVec.getLsbD_append]
  rw [if_neg (by omega)]
  congr 1
  omega

/-- A field that is everything. -/
theorem extract_all {v : Nat} (x : BitVec v) : x.extractLsb' 0 v = x := by simp

/-- A field that is a part laid out on its own. -/
theorem extract_mid {u v w : Nat} (x : BitVec u) (y : BitVec v) (z : BitVec w) :
    (x ++ y ++ z).extractLsb' w v = y := by
  rw [extract_high _ _ _ _ (le_refl w), Nat.sub_self, extract_low _ _ _ _ (by omega), extract_all]

end Sys2Proof
end

