-- ==== Sys2Proof/Laws/Vector.lean ====
section
/-! SUPPORT. Elements of a register after a write (R89), and the completion of vector instructions. -/

namespace Sys2Proof.Machine

/-- Bits of a packed list of elements. -/
theorem packElems_testBit (w : Nat) : ∀ (es : List Nat) (i k : Nat), k < w →
    (packElems w es).testBit (w * i + k) = (es.getD i 0).testBit k := by
  intro es
  induction es with
  | nil => simp [packElems]
  | cons e es ih =>
    intro i k hk
    have hlt : e % 2 ^ w < 2 ^ w := Nat.mod_lt _ (Nat.two_pow_pos w)
    rw [packElems, Nat.shiftLeft_eq, Nat.mul_comm, Nat.add_comm, Nat.testBit_two_pow_mul_add _ hlt]
    cases i with
    | zero => simp [hk, Nat.testBit_mod_two_pow]
    | succ i =>
      have h1 : ¬ w * (i + 1) + k < w := by rw [Nat.mul_succ]; omega
      have h2 : w * (i + 1) + k - w = w * i + k := by rw [Nat.mul_succ]; omega
      rw [if_neg h1, h2, ih i k hk]
      simp

/-- Bits after the low `n` bits of a number were replaced. -/
theorem insertBits_testBit (old n low k : Nat) :
    (insertBits old 0 n low).testBit k = if k < n then low.testBit k else old.testBit k := by
  have h0 : insertBits old 0 n low = 2 ^ n * (old >>> n) + low % 2 ^ n := by
    simp [insertBits, Nat.shiftLeft_eq, Nat.mod_one]; ring
  rw [h0, Nat.testBit_two_pow_mul_add _ (Nat.mod_lt _ (Nat.two_pow_pos n))]
  split
  · rename_i h; simp [Nat.testBit_mod_two_pow, h]
  · rename_i h
    rw [Nat.testBit_shiftRight]
    congr 1; omega

/-- Bits of an element of an image. -/
theorem elemOf_testBit (img w i k : Nat) : (elemOf img w i).testBit k = (decide (k < w) && img.testBit (w * i + k)) := by
  simp [elemOf, bits, Nat.testBit_mod_two_pow, Nat.testBit_shiftRight]

/-- An element index and a bit in it name the bit's element. -/
theorem mul_add_lt {w i k n : Nat} (hk : k < w) : w * i + k < w * n ↔ i < n := by
  constructor
  · intro h
    by_contra hn
    have : w * n ≤ w * i := Nat.mul_le_mul_left w (by omega)
    omega
  · intro h
    have : w * (i + 1) ≤ w * n := Nat.mul_le_mul_left w h
    rw [Nat.mul_succ] at this
    omega

/-- The elements of a destination after an instruction (R89). -/
theorem VReg.write_elem (v : VReg) (t : Tag) (es : List (Option Nat)) (i : Nat) (hi : (i + 1) * t.width ≤ 16384) :
    (v.write t es).elem i =
      match (es[i]?).join with
      | some x => x % 2 ^ t.width
      | none => if v.tag = t then v.elem i else 0 := by
  by_cases hw : t.width = 0
  · have hz : ∀ img, elemOf img t.width i = 0 := fun img => by simp [elemOf, bits, hw, Nat.mod_one]
    rw [show (v.write t es).elem i = elemOf _ t.width i from rfl, hz]
    have hv : v.tag = t → v.elem i = 0 := fun e => by
      show elemOf _ v.tag.width i = 0
      rw [e]; exact hz _
    cases (es[i]?).join with
    | some x => simp [hw, Nat.mod_one]
    | none =>
      by_cases e : v.tag = t
      · simp [e, hv e]
      · simp [e]
  · have hw' : 0 < t.width := Nat.pos_of_ne_zero hw
    apply Nat.eq_of_testBit_eq
    intro k
    have hl : ∀ k, k < t.width → t.width * i + k < 16384 := fun k hk => by
      have : (i + 1) * t.width = t.width * i + t.width := by ring
      omega
    have hbase : ∀ k, k < t.width → (v.base t).testBit (t.width * i + k) =
        (if v.tag = t then v.elem i else 0).testBit k := fun k hk => by
      unfold VReg.base
      by_cases e : v.tag = t
      · rw [if_pos e, if_pos e]
        show _ = (elemOf v.img.toNat v.tag.width i).testBit k
        rw [e, elemOf_testBit]; simp [hk]
      · rw [if_neg e, if_neg e]; simp
    show (elemOf (v.write t es).img.toNat t.width i).testBit k = _
    rw [elemOf_testBit]
    by_cases hk : k < t.width
    · have hval : (v.write t es).img.toNat.testBit (t.width * i + k) =
          if i < es.length then
            ((es.zipIdx.map fun (e : Option Nat × Nat) => e.1.getD (elemOf (v.base t) t.width e.2)).getD i 0).testBit k
          else (v.base t).testBit (t.width * i + k) := by
        show (BitVec.ofNat 16384 _).toNat.testBit _ = _
        rw [BitVec.toNat_ofNat, Nat.testBit_mod_two_pow, insertBits_testBit]
        simp only [hl k hk, decide_true, Bool.true_and, mul_add_lt hk]
        split
        · rw [packElems_testBit _ _ i k hk]
        · rfl
      simp only [hk, decide_true, Bool.true_and, hval]
      by_cases hlen : i < es.length
      · rw [if_pos hlen]
        have hz : (es.zipIdx.map fun (e : Option Nat × Nat) => e.1.getD (elemOf (v.base t) t.width e.2)).getD i 0 =
            (es[i]).getD (elemOf (v.base t) t.width i) := by
          simp [List.getD, hlen]
        rw [hz, List.getElem?_eq_getElem hlen]
        cases es[i] with
        | some x => simp [Nat.testBit_mod_two_pow, hk]
        | none =>
          show (elemOf (v.base t) t.width i).testBit k = _
          rw [elemOf_testBit]
          simp only [hk, decide_true, Bool.true_and]
          exact hbase k hk
      · rw [if_neg hlen, List.getElem?_eq_none (by omega)]
        exact hbase k hk
    · have : ∀ x, x < 2 ^ t.width → x.testBit k = false := fun x hx =>
        Nat.testBit_lt_two_pow (Nat.lt_of_lt_of_le hx (Nat.pow_le_pow_right (by omega) (by omega)))
      simp only [hk, decide_false, Bool.false_and]
      cases (es[i]?).join with
      | some x => exact (this _ (Nat.mod_lt _ (Nat.two_pow_pos _))).symm
      | none =>
        symm
        apply this
        by_cases e : v.tag = t
        · rw [if_pos e]
          show elemOf _ v.tag.width i < _
          rw [e]; exact Nat.mod_lt _ (Nat.two_pow_pos _)
        · rw [if_neg e]; exact Nat.two_pow_pos _

/-- A destination written with a list of results is as R89 says. -/
theorem VReg.write_after (v : VReg) (t : Tag) (es : List (Option Nat)) :
    (v.write t es).After v t (fun i => (es[i]?).join) :=
  ⟨rfl, fun i hi => VReg.write_elem v t es i hi⟩

end Sys2Proof.Machine
end

