-- ==== Sys2Proof/Laws/Elements.lean ====
section
/-! SUPPORT. The shared write of vector results, in the terms of the statements. -/

namespace Sys2Proof.Machine

/-- The values of a list of results given element by element. -/
theorem values_join (n : Nat) (g : Nat → Option FRes) (i : Nat) :
    ((((upTo n).map g).map fun r => r.map FRes.val)[i]?).join = if i < n then (g i).map FRes.val else none := by
  by_cases h : i < n <;> simp [upTo, h]

/-- Without an error in any register a write of elements is a write of the register (R389). -/
theorem Hart.writeV_sound {h : Hart} (hv : h.vbad = []) (d : BitVec 5) (t : Tag) (es : List (Option Nat)) :
    h.writeV d t es = h.setV d ((h.getV d).write t es) := by
  unfold Hart.writeV Hart.setV
  simp [hv]

/-- What `writeVector` can do where no register is in error: it completes, with the results in the elements below `n`, their
flags raised, and `once` too where there is a result. -/
theorem writeVector_done (s : State) (hv : s.cur.vbad = []) (d : BitVec 5) (t : Tag) (n : Nat) (g : Nat → Option FRes) (once : BitVec 6) :
    VectorDone s (finish (writeVector d t ((upTo n).map g) once) s) d t n g
      (if (upTo n).any (fun i => (g i).isSome) then once else 0) := by
  refine ⟨(s.cur.getV d).write t (((upTo n).map g).map fun r => r.map FRes.val), ?_, ?_⟩
  · simpa only [values_join] using VReg.write_after (s.cur.getV d) t (((upTo n).map g).map fun r => r.map FRes.val)
  · have e : writeVector d t ((upTo n).map g) once s = .ok () ((({ s with
        cur := { s.cur.setV d ((s.cur.getV d).write t (((upTo n).map g).map fun r => r.map FRes.val)) with
          fflags := s.cur.fflags ||| (flagsOf n g ||| if (upTo n).any (fun i => (g i).isSome) then once else 0) } } :
        State).countCur 0x03 1).retire) := by
      unfold writeVector retireVector retireM modCur
      simp only [bind, EStateM.bind, modify, modifyGet, MonadStateOf.modifyGet, EStateM.modifyGet, State.onCur, State.raise]
      have : resultFlags ((upTo n).map g) = flagsOf n g := by
        simp [resultFlags, flagsOf, upTo, List.filterMap_map]
      simp only [this, List.any_map, Function.comp_def, Hart.writeV_sound hv]
      rfl
    rw [finish_ok e]
    refine ⟨_, rfl, ?_, ?_, ?_, ?_⟩
    · simp only [State.retire_pc, State.countCur_cur]; rfl
    · simp
    · rw [retire_bare]; rfl
    · exact sameMemory_of (by simp) (by simp) (by simp) (by simp) (by simp) (by simp)

end Sys2Proof.Machine
end

