-- ==== Sys2Proof/Laws/PerInstr.lean ====
section
/-! SUPPORT. What holds of every instruction as syntax, one lemma per constructor. -/

namespace Sys2Proof.Laws.HasWord

/-- An instruction has a word exactly when it is an encoded one; an event has none. -/
def Statement (i : Instr) : Prop := (encode i).isSome = i.isWord

theorem add a b c : Statement (.add a b c) := rfl
theorem sub a b c : Statement (.sub a b c) := rfl
theorem and a b c : Statement (.and a b c) := rfl
theorem or a b c : Statement (.or a b c) := rfl
theorem xor a b c : Statement (.xor a b c) := rfl
theorem sll a b c : Statement (.sll a b c) := rfl
theorem srl a b c : Statement (.srl a b c) := rfl
theorem sra a b c : Statement (.sra a b c) := rfl
theorem min a b c : Statement (.min a b c) := rfl
theorem max a b c : Statement (.max a b c) := rfl
theorem minu a b c : Statement (.minu a b c) := rfl
theorem maxu a b c : Statement (.maxu a b c) := rfl
theorem sel a b c d : Statement (.sel a b c d) := rfl
theorem mul a b c : Statement (.mul a b c) := rfl
theorem mulh a b c : Statement (.mulh a b c) := rfl
theorem mulhu a b c : Statement (.mulhu a b c) := rfl
theorem div a b c : Statement (.div a b c) := rfl
theorem divu a b c : Statement (.divu a b c) := rfl
theorem rem a b c : Statement (.rem a b c) := rfl
theorem remu a b c : Statement (.remu a b c) := rfl
theorem clz a b : Statement (.clz a b) := rfl
theorem ctz a b : Statement (.ctz a b) := rfl
theorem popc a b : Statement (.popc a b) := rfl
theorem brev a b : Statement (.brev a b) := rfl
theorem fadd a b c d : Statement (.fadd a b c d) := rfl
theorem fsub a b c d : Statement (.fsub a b c d) := rfl
theorem fmul a b c d : Statement (.fmul a b c d) := rfl
theorem fdiv a b c d : Statement (.fdiv a b c d) := rfl
theorem fsqrt a b c : Statement (.fsqrt a b c) := rfl
theorem fmin a b c d : Statement (.fmin a b c d) := rfl
theorem fmax a b c d : Statement (.fmax a b c d) := rfl
theorem fma a b c d : Statement (.fma a b c d) := rfl
theorem fcvtFi a b c d : Statement (.fcvtFi a b c d) := rfl
theorem fcvtFu a b c d : Statement (.fcvtFu a b c d) := rfl
theorem fcvtTi a b c d : Statement (.fcvtTi a b c d) := rfl
theorem fcvtTu a b c d : Statement (.fcvtTu a b c d) := rfl
theorem fcvtFx a b c d : Statement (.fcvtFx a b c d) := rfl
theorem fclass a b c : Statement (.fclass a b c) := rfl
theorem addi a b c : Statement (.addi a b c) := rfl
theorem andi a b c : Statement (.andi a b c) := rfl
theorem ori a b c : Statement (.ori a b c) := rfl
theorem xori a b c : Statement (.xori a b c) := rfl
theorem slli a b c : Statement (.slli a b c) := rfl
theorem srli a b c : Statement (.srli a b c) := rfl
theorem srai a b c : Statement (.srai a b c) := rfl
theorem lui a b : Statement (.lui a b) := rfl
theorem aupc a b : Statement (.aupc a b) := rfl
theorem cmpEq a b c : Statement (.cmpEq a b c) := rfl
theorem cmpNe a b c : Statement (.cmpNe a b c) := rfl
theorem cmpLt a b c : Statement (.cmpLt a b c) := rfl
theorem cmpGe a b c : Statement (.cmpGe a b c) := rfl
theorem cmpLtu a b c : Statement (.cmpLtu a b c) := rfl
theorem cmpGeu a b c : Statement (.cmpGeu a b c) := rfl
theorem cmpFeq a b c d : Statement (.cmpFeq a b c d) := rfl
theorem cmpFlt a b c d : Statement (.cmpFlt a b c d) := rfl
theorem cmpFle a b c d : Statement (.cmpFle a b c d) := rfl
theorem cmpFun a b c d : Statement (.cmpFun a b c d) := rfl
theorem cmpiEq a b c : Statement (.cmpiEq a b c) := rfl
theorem cmpiNe a b c : Statement (.cmpiNe a b c) := rfl
theorem cmpiLt a b c : Statement (.cmpiLt a b c) := rfl
theorem cmpiGe a b c : Statement (.cmpiGe a b c) := rfl
theorem cmpiLtu a b c : Statement (.cmpiLtu a b c) := rfl
theorem cmpiGeu a b c : Statement (.cmpiGeu a b c) := rfl
theorem cand a b c : Statement (.cand a b c) := rfl
theorem cor a b c : Statement (.cor a b c) := rfl
theorem cxor a b c : Statement (.cxor a b c) := rfl
theorem candn a b c : Statement (.candn a b c) := rfl
theorem cnot a b : Statement (.cnot a b) := rfl
theorem cset a : Statement (.cset a) := rfl
theorem cclr a : Statement (.cclr a) := rfl
theorem cmov a b : Statement (.cmov a b) := rfl
theorem bc a b : Statement (.bc a b) := rfl
theorem bnc a b : Statement (.bnc a b) := rfl
theorem jal a b : Statement (.jal a b) := rfl
theorem jalr a b c : Statement (.jalr a b c) := rfl
theorem ld a b c d : Statement (.ld a b c d) := rfl
theorem ldAcq a b c d e : Statement (.ldAcq a b c d e) := rfl
theorem ldSc a b c d e : Statement (.ldSc a b c d e) := rfl
theorem st a b c d : Statement (.st a b c d) := rfl
theorem stRel a b c d e : Statement (.stRel a b c d e) := rfl
theorem stSc a b c d e : Statement (.stSc a b c d e) := rfl
theorem stSw a b c d : Statement (.stSw a b c d) := rfl
theorem amoadd a b c d e f : Statement (.amoadd a b c d e f) := rfl
theorem amoand a b c d e f : Statement (.amoand a b c d e f) := rfl
theorem amoor a b c d e f : Statement (.amoor a b c d e f) := rfl
theorem amoxor a b c d e f : Statement (.amoxor a b c d e f) := rfl
theorem amomin a b c d e f : Statement (.amomin a b c d e f) := rfl
theorem amomax a b c d e f : Statement (.amomax a b c d e f) := rfl
theorem amominu a b c d e f : Statement (.amominu a b c d e f) := rfl
theorem amomaxu a b c d e f : Statement (.amomaxu a b c d e f) := rfl
theorem amoswap a b c d e f : Statement (.amoswap a b c d e f) := rfl
theorem cas a b c d e f : Statement (.cas a b c d e f) := rfl
theorem fenceRel a : Statement (.fenceRel a) := rfl
theorem fenceAcq a : Statement (.fenceAcq a) := rfl
theorem fenceAr a : Statement (.fenceAr a) := rfl
theorem fenceSv : Statement (.fenceSv) := rfl
theorem vadd a b c d e : Statement (.vadd a b c d e) := rfl
theorem vsub a b c d e : Statement (.vsub a b c d e) := rfl
theorem vrsub a b c d e : Statement (.vrsub a b c d e) := rfl
theorem vmul a b c d e : Statement (.vmul a b c d e) := rfl
theorem vmulh a b c d e : Statement (.vmulh a b c d e) := rfl
theorem vdiv a b c d e : Statement (.vdiv a b c d e) := rfl
theorem vrem a b c d e : Statement (.vrem a b c d e) := rfl
theorem vmin a b c d e : Statement (.vmin a b c d e) := rfl
theorem vmax a b c d e : Statement (.vmax a b c d e) := rfl
theorem vabs a b c : Statement (.vabs a b c) := rfl
theorem vneg a b c : Statement (.vneg a b c) := rfl
theorem vsadd a b c d e : Statement (.vsadd a b c d e) := rfl
theorem vssub a b c d e : Statement (.vssub a b c d e) := rfl
theorem vfma a b c d e : Statement (.vfma a b c d e) := rfl
theorem vfms a b c d e : Statement (.vfms a b c d e) := rfl
theorem vfnma a b c d e : Statement (.vfnma a b c d e) := rfl
theorem vfnms a b c d e : Statement (.vfnms a b c d e) := rfl
theorem vwmul a b c d e : Statement (.vwmul a b c d e) := rfl
theorem vand a b c d e : Statement (.vand a b c d e) := rfl
theorem vor a b c d e : Statement (.vor a b c d e) := rfl
theorem vxor a b c d e : Statement (.vxor a b c d e) := rfl
theorem vnot a b c : Statement (.vnot a b c) := rfl
theorem vsll a b c d e : Statement (.vsll a b c d e) := rfl
theorem vsrl a b c d e : Statement (.vsrl a b c d e) := rfl
theorem vsra a b c d e : Statement (.vsra a b c d e) := rfl
theorem vpopc a b c : Statement (.vpopc a b c) := rfl
theorem vclz a b c : Statement (.vclz a b c) := rfl
theorem vrecip a b c : Statement (.vrecip a b c) := rfl
theorem vrsqrt a b c : Statement (.vrsqrt a b c) := rfl
theorem vsqrt a b c : Statement (.vsqrt a b c) := rfl
theorem vexp2 a b c : Statement (.vexp2 a b c) := rfl
theorem vlog2 a b c : Statement (.vlog2 a b c) := rfl
theorem vtanh a b c : Statement (.vtanh a b c) := rfl
theorem vcmpEq a b c d e : Statement (.vcmpEq a b c d e) := rfl
theorem vcmpNe a b c d e : Statement (.vcmpNe a b c d e) := rfl
theorem vcmpLt a b c d e : Statement (.vcmpLt a b c d e) := rfl
theorem vcmpLe a b c d e : Statement (.vcmpLe a b c d e) := rfl
theorem vcmpGt a b c d e : Statement (.vcmpGt a b c d e) := rfl
theorem vcmpGe a b c d e : Statement (.vcmpGe a b c d e) := rfl
theorem vcmpUn a b c d e : Statement (.vcmpUn a b c d e) := rfl
theorem mand a b c : Statement (.mand a b c) := rfl
theorem mor a b c : Statement (.mor a b c) := rfl
theorem mxor a b c : Statement (.mxor a b c) := rfl
theorem mandn a b c : Statement (.mandn a b c) := rfl
theorem mnot a b : Statement (.mnot a b) := rfl
theorem mmv a b : Statement (.mmv a b) := rfl
theorem mset a : Statement (.mset a) := rfl
theorem mclr a : Statement (.mclr a) := rfl
theorem mpopc a b : Statement (.mpopc a b) := rfl
theorem mfirst a b : Statement (.mfirst a b) := rfl
theorem many a b : Statement (.many a b) := rfl
theorem mall a b : Statement (.mall a b) := rfl
theorem miota a b : Statement (.miota a b) := rfl
theorem mcomp a : Statement (.mcomp a) := rfl
theorem vcvt a b c d e : Statement (.vcvt a b c d e) := rfl
theorem vcvtSat a b c d e : Statement (.vcvtSat a b c d e) := rfl
theorem vcvtSr a b c d e : Statement (.vcvtSr a b c d e) := rfl
theorem vcvtSrSat a b c d e : Statement (.vcvtSrSat a b c d e) := rfl
theorem vredsum a b c : Statement (.vredsum a b c) := rfl
theorem vredmax a b c : Statement (.vredmax a b c) := rfl
theorem vredmin a b c : Statement (.vredmin a b c) := rfl
theorem vredand a b c : Statement (.vredand a b c) := rfl
theorem vredor a b c : Statement (.vredor a b c) := rfl
theorem vredxor a b c : Statement (.vredxor a b c) := rfl
theorem vscanSum a b c : Statement (.vscanSum a b c) := rfl
theorem vscanMax a b c : Statement (.vscanMax a b c) := rfl
theorem vslideup a b c d e : Statement (.vslideup a b c d e) := rfl
theorem vslidedn a b c d e : Statement (.vslidedn a b c d e) := rfl
theorem vperm a b c d : Statement (.vperm a b c d) := rfl
theorem vcompress a b c : Statement (.vcompress a b c) := rfl
theorem vexpand a b c : Statement (.vexpand a b c) := rfl
theorem vbcast a b c d e : Statement (.vbcast a b c d e) := rfl
theorem vmv a b c : Statement (.vmv a b c) := rfl
theorem viota a b c : Statement (.viota a b c) := rfl
theorem vmvx a b c d : Statement (.vmvx a b c d) := rfl
theorem vmvs a b c : Statement (.vmvs a b c) := rfl
theorem vnzb a b c : Statement (.vnzb a b c) := rfl
theorem vbpop a b c : Statement (.vbpop a b c) := rfl
theorem vrank a b c d : Statement (.vrank a b c d) := rfl
theorem vxsect a b c d : Statement (.vxsect a b c d) := rfl
theorem vsetvl a b c : Statement (.vsetvl a b c) := rfl
theorem vcfg a b : Statement (.vcfg a b) := rfl
theorem vrel : Statement (.vrel) := rfl
theorem vrand a b c : Statement (.vrand a b c) := rfl
theorem vld a b c d e f : Statement (.vld a b c d e f) := rfl
theorem vldS a b c d e f g : Statement (.vldS a b c d e f g) := rfl
theorem vst a b c d e : Statement (.vst a b c d e) := rfl
theorem vstS a b c d e f : Statement (.vstS a b c d e f) := rfl
theorem vldx a b c d e f g : Statement (.vldx a b c d e f g) := rfl
theorem vgll a b c d e f : Statement (.vgll a b c d e f) := rfl
theorem vstx a b c d e f : Statement (.vstx a b c d e f) := rfl
theorem vscc a b c d e f : Statement (.vscc a b c d e f) := rfl
theorem vamoAdd a b c d e f : Statement (.vamoAdd a b c d e f) := rfl
theorem vamoAnd a b c d e f : Statement (.vamoAnd a b c d e f) := rfl
theorem vamoOr a b c d e f : Statement (.vamoOr a b c d e f) := rfl
theorem vamoXor a b c d e f : Statement (.vamoXor a b c d e f) := rfl
theorem vamoMin a b c d e f : Statement (.vamoMin a b c d e f) := rfl
theorem vamoMax a b c d e f : Statement (.vamoMax a b c d e f) := rfl
theorem vamoSwap a b c d e f : Statement (.vamoSwap a b c d e f) := rfl
theorem vfas a b c d : Statement (.vfas a b c d) := rfl
theorem vwait a b c d e : Statement (.vwait a b c d e) := rfl
theorem vwaitEq a b c d e : Statement (.vwaitEq a b c d e) := rfl
theorem vwaitNe a b c d e : Statement (.vwaitNe a b c d e) := rfl
theorem vxlt a b c d e : Statement (.vxlt a b c d e) := rfl
theorem vxltW a b c d e : Statement (.vxltW a b c d e) := rfl
theorem vlin a b c d : Statement (.vlin a b c d) := rfl
theorem vlinB a b c d : Statement (.vlinB a b c d) := rfl
theorem menter a : Statement (.menter a) := rfl
theorem mexit : Statement (.mexit) := rfl
theorem mzero a : Statement (.mzero a) := rfl
theorem mopa a b c d e f : Statement (.mopa a b c d e f) := rfl
theorem mopaRa a b c d e f : Statement (.mopaRa a b c d e f) := rfl
theorem mopaMx a b c d e : Statement (.mopaMx a b c d e) := rfl
theorem mopaMxRa a b c d e : Statement (.mopaMxRa a b c d e) := rfl
theorem mrow a b c d : Statement (.mrow a b c d) := rfl
theorem mcol a b c d : Statement (.mcol a b c d) := rfl
theorem mputr a b c d : Statement (.mputr a b c d) := rfl
theorem mputc a b c d : Statement (.mputc a b c d) := rfl
theorem mcvt a b c d e : Statement (.mcvt a b c d e) := rfl
theorem mld a b c d : Statement (.mld a b c d) := rfl
theorem mst a b c d : Statement (.mst a b c d) := rfl
theorem cpy a b c d e f : Statement (.cpy a b c d e f) := rfl
theorem cpyv a b c d e f : Statement (.cpyv a b c d e f) := rfl
theorem cpyc a b c d e f : Statement (.cpyc a b c d e f) := rfl
theorem cpycTb a b c d e f : Statement (.cpycTb a b c d e f) := rfl
theorem scfg a b c : Statement (.scfg a b c) := rfl
theorem vlds a b : Statement (.vlds a b) := rfl
theorem sadv a : Statement (.sadv a) := rfl
theorem sclose a : Statement (.sclose a) := rfl
theorem twany a b : Statement (.twany a b) := rfl
theorem twall a : Statement (.twall a) := rfl
theorem tfind a b : Statement (.tfind a b) := rfl
theorem tclr a : Statement (.tclr a) := rfl
theorem tstamp a b : Statement (.tstamp a b) := rfl
theorem qbind a b c : Statement (.qbind a b c) := rfl
theorem qpush a b : Statement (.qpush a b) := rfl
theorem qpop a b : Statement (.qpop a b) := rfl
theorem qstat a b : Statement (.qstat a b) := rfl
theorem barinit a b c : Statement (.barinit a b c) := rfl
theorem barArrive a : Statement (.barArrive a) := rfl
theorem barWait a : Statement (.barWait a) := rfl
theorem barSync a : Statement (.barSync a) := rfl
theorem barDrop a : Statement (.barDrop a) := rfl
theorem sigadd a b c : Statement (.sigadd a b c) := rfl
theorem lsync : Statement (.lsync) := rfl
theorem loff : Statement (.loff) := rfl
theorem lon : Statement (.lon) := rfl
theorem tide a b c d : Statement (.tide a b c d) := rfl
theorem tidewait a : Statement (.tidewait a) := rfl
theorem tideq a b : Statement (.tideq a b) := rfl
theorem mapget a b c : Statement (.mapget a b c) := rfl
theorem mapset a b c : Statement (.mapset a b c) := rfl
theorem mapverAcq a b : Statement (.mapverAcq a b) := rfl
theorem mapverRel a : Statement (.mapverRel a) := rfl
theorem mapverPub a b : Statement (.mapverPub a b) := rfl
theorem balloc a b : Statement (.balloc a b) := rfl
theorem bfree a b : Statement (.bfree a b) := rfl
theorem swopen a b c : Statement (.swopen a b c) := rfl
theorem swcommit a b c d : Statement (.swcommit a b c d) := rfl
theorem swdrop a : Statement (.swdrop a) := rfl
theorem swstat a b : Statement (.swstat a b) := rfl
theorem lnset a b c : Statement (.lnset a b c) := rfl
theorem lnget a b c : Statement (.lnget a b c) := rfl
theorem launch a : Statement (.launch a) := rfl
theorem spawn a : Statement (.spawn a) := rfl
theorem yield : Statement (.yield) := rfl
theorem exit : Statement (.exit) := rfl
theorem resume a : Statement (.resume a) := rfl
theorem crr a b : Statement (.crr a b) := rfl
theorem crw a b : Statement (.crw a b) := rfl
theorem crs a b : Statement (.crs a b) := rfl
theorem crc a b : Statement (.crc a b) := rfl
theorem pref a b : Statement (.pref a b) := rfl
theorem flush a b c : Statement (.flush a b c) := rfl
theorem discard a b c : Statement (.discard a b c) := rfl
theorem inv a b : Statement (.inv a b) := rfl
theorem xinv a b : Statement (.xinv a b) := rfl
theorem trap a : Statement (.trap a) := rfl
theorem tret : Statement (.tret) := rfl
theorem wfi : Statement (.wfi) := rfl
theorem halt : Statement (.halt) := rfl
theorem faultPosting a : Statement (.faultPosting a) := rfl
theorem faultPostedInterrupt a : Statement (.faultPostedInterrupt a) := rfl
theorem barrierGroupWake a b c : Statement (.barrierGroupWake a b c) := rfl
theorem tidewaitOnset a : Statement (.tidewaitOnset a) := rfl
theorem tideWindowStart a : Statement (.tideWindowStart a) := rfl
theorem tideWindowEnd a : Statement (.tideWindowEnd a) := rfl
theorem tideIntervalEnd a : Statement (.tideIntervalEnd a) := rfl
theorem leadIssue a : Statement (.leadIssue a) := rfl
theorem copyComplete a : Statement (.copyComplete a) := rfl
theorem copyPushWake a : Statement (.copyPushWake a) := rfl
theorem tagWaitWake a : Statement (.tagWaitWake a) := rfl
theorem streamFetchLand a b : Statement (.streamFetchLand a b) := rfl
theorem vldsWake a : Statement (.vldsWake a) := rfl
theorem swcommitPerform a : Statement (.swcommitPerform a) := rfl
theorem vwaitWake a : Statement (.vwaitWake a) := rfl
theorem vwaitDeadline a : Statement (.vwaitDeadline a) := rfl
theorem queueWake a : Statement (.queueWake a) := rfl
theorem spawnWake a : Statement (.spawnWake a) := rfl
theorem wfiWake a : Statement (.wfiWake a) := rfl
theorem vsetvlLaneWake a : Statement (.vsetvlLaneWake a) := rfl
theorem placement a : Statement (.placement a) := rfl
theorem laneReclamation a b : Statement (.laneReclamation a b) := rfl
theorem revokeDeadline a : Statement (.revokeDeadline a) := rfl
theorem preemption a : Statement (.preemption a) := rfl
theorem resumption a b : Statement (.resumption a b) := rfl
theorem agingPromotion a b c : Statement (.agingPromotion a b c) := rfl
theorem partmvWrite a : Statement (.partmvWrite a) := rfl
theorem partitionMoveComplete : Statement (.partitionMoveComplete) := rfl
theorem powerGood : Statement (.powerGood) := rfl
theorem keavarTimeMessage a : Statement (.keavarTimeMessage a) := rfl
theorem timeBoundLoss : Statement (.timeBoundLoss) := rfl
theorem remoteAccessTimeout a b : Statement (.remoteAccessTimeout a b) := rfl
theorem ceideLaneFailure a : Statement (.ceideLaneFailure a) := rfl
theorem ceideRead a b : Statement (.ceideRead a b) := rfl
theorem ceideWrite a b : Statement (.ceideWrite a b) := rfl
theorem ceideAtomicAdd a b : Statement (.ceideAtomicAdd a b) := rfl
theorem mgmtStatus : Statement (.mgmtStatus) := rfl
theorem mgmtPartitionCreate a : Statement (.mgmtPartitionCreate a) := rfl
theorem mgmtPartitionDestroy a : Statement (.mgmtPartitionDestroy a) := rfl
theorem mgmtRootChange a b : Statement (.mgmtRootChange a b) := rfl
theorem mgmtStartDispatcher a : Statement (.mgmtStartDispatcher a) := rfl
theorem mgmtCounters a : Statement (.mgmtCounters a) := rfl
theorem counterSnapshot : Statement (.counterSnapshot) := rfl
theorem mgmtTideTotals a : Statement (.mgmtTideTotals a) := rfl
theorem mgmtAttestation a : Statement (.mgmtAttestation a) := rfl
theorem mgmtFirmwareUpdate a : Statement (.mgmtFirmwareUpdate a) := rfl
theorem mgmtReset : Statement (.mgmtReset) := rfl
theorem notAnInstruction a : Statement (.notAnInstruction a) := rfl
theorem fetchFault a b : Statement (.fetchFault a b) := rfl
theorem shoreTick : Statement (.shoreTick) := rfl
theorem keavarRemoteAccess a : Statement (.keavarRemoteAccess a) := rfl

end Sys2Proof.Laws.HasWord
end

