-- ==== Sys2Proof/Laws/Serves.lean ====
section
/-! SUPPORT. When the translation caches or the tile-buffer window alone serve an access. -/

namespace Sys2Proof.Machine

/-- Where the translation caches or the tile-buffer window alone put an agent's access. -/
def State.cachedFor (s : State) (a : Agent) (k : Kind) (va : Word) : Option Phys :=
  let v := va.toNat
  if 2 ^ 55 ≤ v then none
  else if 0x7E000000000000 ≤ v then
    match s.xlateWindow a k (v - 0x7E000000000000) with
    | .ok p => some p
    | .error _ => none
  else if 2 ^ 54 ≤ v && !a.sup then none
  else match s.tlbFind a 3 v with
    | none => none
    | some e =>
      let m : Met := { level := 3, entry := e.entry.toNat, addr := e.addr }
      if entryKind s.lighthouse.domain 3 m.entry = .page && (s.entryCause a k m v).isNone && k.updated m.entry == m.entry then
        some (m.phys v)
      else none

/-- Such an access is served whatever memory holds. -/
theorem serves_for {s : State} {a : Agent} {k : Kind} {va : Word} {p : Phys} (h : s.cachedFor a k va = some p) :
    s.ServesFor a k va p := by
  intro l2 hbm
  unfold State.cachedFor at h
  unfold State.xlate
  dsimp only at h ⊢
  split at h
  · cases h
  · rename_i h1
    rw [if_neg h1]
    split at h
    · rename_i h2
      rw [if_pos h2]
      split at h
      · rename_i q e
        cases h
        have : State.xlateWindow { s with l2 := l2, hbm := hbm } a k (va.toNat - 0x7E000000000000) = .ok p := e
        rw [this]
      · cases h
    · rename_i h2
      rw [if_neg h2]
      split at h
      · cases h
      · rename_i h3
        rw [if_neg h3]
        split at h
        · cases h
        · rename_i e he
          split at h
          · rename_i hc
            cases h
            simp only [Bool.and_eq_true, decide_eq_true_eq, beq_iff_eq] at hc
            obtain ⟨⟨hk, hn⟩, hu⟩ := hc
            have hf : State.tlbFind { s with l2 := l2, hbm := hbm } a 3 va.toNat = some e := he
            have hw : State.walk { s with l2 := l2, hbm := hbm } a true va.toNat =
                some ({ level := 3, entry := e.entry.toNat, addr := e.addr }, []) := by
              unfold State.walk State.entryAt
              simp only [if_true, hf]
              rw [if_pos hk]
            unfold State.xlatePage
            rw [hw]
            have hn' : (State.entryCause { s with l2 := l2, hbm := hbm } a k
                { level := 3, entry := e.entry.toNat, addr := e.addr } va.toNat).isNone = true := hn
            simp only [hn', State.current, hu, beq_self_eq_true, Bool.true_or, Bool.and_true, if_true, State.touch, State.update,
              State.spend, State.lostEntry, List.any_nil, Bool.and_false, Bool.not_false, Bool.false_eq_true, if_false,
              List.isEmpty_nil, State.countWalk]
          · cases h

/-- Where they put an access of the hart in front, and of its core's vector memory unit. -/
abbrev State.cachedAt (s : State) (k : Kind) (va : Word) : Option Phys := s.cachedFor (s.cur.agent s.cur.cw) k va
abbrev State.unitCachedAt (s : State) (k : Kind) (va : Word) : Option Phys := s.cachedFor (s.cur.unitAgent s.cur.cw) k va

theorem serves_cached {s : State} {k : Kind} {va : Word} {p : Phys} (h : s.cachedAt k va = some p) : s.Serves k va p :=
  serves_for h

theorem unit_cached {s : State} {k : Kind} {va : Word} {p : Phys} (h : s.unitCachedAt k va = some p) : s.ServesUnit k va p :=
  serves_for h

/-- An access that is served changes nothing. -/
theorem xlate_served {s : State} {k : Kind} {va : Word} {p : Phys} (h : s.Serves k va p) :
    s.xlate (s.cur.agent s.cur.cw) k va = (.ok p, s) := h s.l2 s.hbm

/-- Bytes at an address that the caches serve. -/
theorem at_cached {s : State} {k : Kind} {va : Word} {p : Phys} {n v : Nat} (h : s.cachedAt k va = some p)
    (hr : OnePiece va n ∧ s.isRemote p.pa = false ∧ leNat (s.homeRead p.pa n) = v) : s.At k va p n v :=
  ⟨serves_cached h, hr.1, hr.2.1, hr.2.2⟩

/-- An active unit is one of the access. -/
theorem active_lt {h : Hart} {t : Tag} {m : BitVec 3} {u : Nat} (hu : h.activeUnit t m u = true) : u < t.units h.vlen := by
  unfold Hart.activeUnit at hu
  simp only [Bool.and_eq_true, decide_eq_true_eq] at hu
  exact hu.1

/-- What holds of every unit of an access holds of the active ones. -/
theorem units_all {h : Hart} {t : Tag} {m : BitVec 3} {P : Nat → Prop} (hp : ∀ u, u < t.units h.vlen → P u) :
    ∀ u, h.activeUnit t m u = true → P u := fun u hu => hp u (active_lt hu)

/-- No home slice lists a byte of a tile buffer when no listed address is one. -/
theorem tiles_of {s : State} (h : (s.l2.all fun c => !isTile c.1) = true) : s.TilesUncached := by
  intro pa hp
  refine cellGet_none fun c hc e => ?_
  have := List.all_eq_true.1 h c hc
  rw [e, hp] at this
  cases this

/-- A machine at rest. -/
theorem rests_of {s : State} (h : s.l1 = [] ∧ s.visitors = [] ∧ s.poison = [] ∧ s.cur.early = [] ∧ s.cur.unacked = [] ∧
    s.cur.lostWrites = [] ∧ s.cur.undelivered = [] ∧ Memory.wf s = true ∧ (s.l2.all fun c => !isTile c.1) = true) : s.Rests :=
  let ⟨l1, visitors, poison, early, sent, lost, undelivered, wf, tiles⟩ := h
  ⟨⟨l1, visitors, poison⟩, early, sent, ⟨lost, undelivered⟩, wf, tiles_of tiles⟩

/-- A state in which vector instructions are ready. -/
theorem ready_of {s : State} (h : s.cur.status.matrix = false ∧ s.cur.granted = true ∧ s.cur.vbad = [] ∧ s.cur.mbad = [] ∧
    s.cur.tbad = [] ∧ s.pendingGroups s.cur.uid = []) : s.VectorReady :=
  let ⟨a, b, c, d, e, f⟩ := h
  ⟨a, b, c, d, e, f⟩

/-- Does a cached entry of a page outside every arena serve an access in any state with these caches and this domain? -/
def State.serves (s : State) (a : Agent) (k : Kind) (va : Word) (e : TlbEntry) : Bool :=
  let v := va.toNat
  let m : Met := { level := 3, entry := e.entry.toNat, addr := e.addr }
  decide (v < 2 ^ 54) && (s.tlbFind a 3 v == some e) && (entryKind s.lighthouse.domain 3 m.entry == .page) && s.permitted k m v &&
    m.arena.isNone && k != .window && k.updated m.entry == m.entry

/-- Then it is served in each of them, whatever memory and the launches are. -/
theorem xlate_everywhere {s t : State} {a : Agent} {k : Kind} {va : Word} {e : TlbEntry} (h : s.serves a k va e = true)
    (ht : t.tlb = s.tlb) (hl : t.lighthouse = s.lighthouse) :
    t.xlate a k va = (.ok (Met.phys { level := 3, entry := e.entry.toNat, addr := e.addr } va.toNat), t) := by
  unfold State.serves at h
  simp only [Bool.and_eq_true, decide_eq_true_eq, beq_iff_eq, bne_iff_ne, Option.isNone_iff_eq_none] at h
  obtain ⟨⟨⟨⟨⟨⟨hv, hf⟩, hk⟩, hp⟩, ha⟩, hw⟩, hu⟩ := h
  have hf' : t.tlbFind a 3 va.toNat = some e := by
    unfold State.tlbFind; rw [ht]; exact hf
  have hwalk : t.walk a true va.toNat = some ({ level := 3, entry := e.entry.toNat, addr := e.addr }, []) := by
    unfold State.walk State.entryAt
    simp only [if_true, hf']
    rw [hl, if_pos hk]
  have hc : t.entryCause a k { level := 3, entry := e.entry.toNat, addr := e.addr } va.toNat = none := by
    have hp' : t.permitted k { level := 3, entry := e.entry.toNat, addr := e.addr } va.toNat = true := by
      unfold State.permitted at hp ⊢; rw [hl]; exact hp
    have hok : t.windowOk a k { level := 3, entry := e.entry.toNat, addr := e.addr } = true := by
      unfold State.windowOk
      rw [ha]
      cases k <;> first | rfl | exact absurd rfl hw
    unfold State.entryCause
    rw [hp', hok]; rfl
  unfold State.xlate State.xlatePage
  simp only [tileWindow]
  rw [hwalk, if_neg (by omega), if_neg (by omega), if_neg (by simp only [Bool.and_eq_true, decide_eq_true_eq]; omega)]
  simp only [hc, State.current, hu, beq_self_eq_true, Bool.true_or, Option.isNone_none, Bool.and_true, if_true, State.touch, State.update,
    State.spend, State.lostEntry, List.any_nil, Bool.and_false, Bool.not_false, Bool.false_eq_true, if_false, List.isEmpty_nil,
    State.countWalk]

/-- The physical address of a byte of a page in HBM lies in HBM, in the same package, and in no tile buffer. -/
theorem page_bytes {f o : Nat} (ho : o < 65536) (hf : isHbm (f * 65536) = true) :
    isHbm (f * 65536 + o) = true ∧ packageOf (f * 65536 + o) = packageOf (f * 65536) ∧ isTile (f * 65536 + o) = false ∧
      isTile (f * 65536) = false := by
  obtain ⟨q, r, hr, e⟩ : ∃ q r, r < 2 ^ 30 ∧ f = 2 ^ 30 * q + r := ⟨f / 2 ^ 30, f % 2 ^ 30, Nat.mod_lt _ (by decide), by
    rw [Nat.div_add_mod]⟩
  have local_ : ∀ o, o < 65536 → localOf (f * 65536 + o) = r * 65536 + o := fun o ho => by
    unfold localOf
    rw [e, show (2 ^ 30 * q + r) * 65536 + o = 2 ^ 46 * q + (r * 65536 + o) by omega, Nat.mul_add_mod, Nat.mod_eq_of_lt (by omega)]
  have package : ∀ o, o < 65536 → packageOf (f * 65536 + o) = q % 64 := fun o ho => by
    unfold packageOf
    rw [e, show (2 ^ 30 * q + r) * 65536 + o = 2 ^ 46 * q + (r * 65536 + o) by omega, Nat.mul_add_div (by decide),
      Nat.div_eq_of_lt (by omega), Nat.add_zero]
  have p0 : packageOf (f * 65536) = q % 64 := by simpa only [Nat.add_zero] using package 0 (by decide)
  have l0 : localOf (f * 65536) = r * 65536 := by simpa only [Nat.add_zero] using local_ 0 (by decide)
  have h : r * 65536 < 2 ^ 40 := by
    unfold isHbm at hf
    rw [l0] at hf
    exact of_decide_eq_true hf
  have top : r * 65536 + o < 2 ^ 40 :=
    calc r * 65536 + o < r * 65536 + 65536 := Nat.add_lt_add_left ho _
      _ = (r + 1) * 65536 := by rw [Nat.add_mul, Nat.one_mul]
      _ ≤ 2 ^ 24 * 65536 := Nat.mul_le_mul_right _ (Nat.lt_of_mul_lt_mul_right (a := 65536) h)
  have noTile : ∀ x, x < 2 ^ 40 → decide (0x200000000000 ≤ x ∧ x < 0x200000000000 + 256 * 0x200000 ∧ x % 0x200000 < 0x180000) = false :=
    fun x hx => decide_eq_false_iff_not.2 fun c => Nat.lt_irrefl _ (Nat.lt_of_lt_of_le hx (Nat.le_trans (by decide) c.1))
  refine ⟨?_, by rw [package o ho, p0], ?_, ?_⟩
  · unfold isHbm
    rw [local_ o ho]
    exact decide_eq_true_eq.mpr top
  · unfold isTile
    rw [local_ o ho]
    exact noTile _ top
  · unfold isTile
    rw [l0]
    exact noTile _ h

/-- An entry that serves the start of a page in HBM serves all of it. -/
theorem serves_page {s : State} {a : Agent} {k : Kind} {va : Word} {e : TlbEntry} {o : Nat} (ho : o < 65536) (hb : va.toNat % 65536 = 0)
    (hf : isHbm (bits e.entry.toNat 12 36 * 65536) = true) (h : s.serves a k va e = true) :
    s.serves a k (va + BitVec.ofNat 64 o) e = true ∧ (va + BitVec.ofNat 64 o).toNat = va.toNat + o := by
  unfold State.serves at h ⊢
  simp only [Bool.and_eq_true, decide_eq_true_eq, beq_iff_eq, bne_iff_ne, Option.isNone_iff_eq_none] at h ⊢
  obtain ⟨⟨⟨⟨⟨⟨hv, hf'⟩, hk⟩, hp⟩, ha⟩, hw⟩, hu⟩ := h
  have hva : (va + BitVec.ofNat 64 o).toNat = va.toNat + o := by
    rw [BitVec.toNat_add, BitVec.toNat_ofNat]; omega
  have hi : (va.toNat + o) >>> levelShift 3 = va.toNat >>> levelShift 3 := by
    show (va.toNat + o) >>> 16 = va.toNat >>> 16
    rw [Nat.shiftRight_eq_div_pow, Nat.shiftRight_eq_div_pow]; omega
  obtain ⟨p1, p2, p3, p4⟩ := page_bytes ho hf
  have m0 : Met.pa { level := 3, entry := e.entry.toNat, addr := e.addr } va.toNat = bits e.entry.toNat 12 36 * 65536 := by
    show bits e.entry.toNat 12 36 * 65536 + va.toNat % 65536 = _
    omega
  have m1 : Met.pa { level := 3, entry := e.entry.toNat, addr := e.addr } (va.toNat + o) = bits e.entry.toNat 12 36 * 65536 + o := by
    show bits e.entry.toNat 12 36 * 65536 + (va.toNat + o) % 65536 = _
    omega
  rw [hva]
  refine ⟨⟨⟨⟨⟨⟨⟨by omega, ?_⟩, hk⟩, ?_⟩, ha⟩, hw⟩, hu⟩, rfl⟩
  · unfold State.tlbFind at hf' ⊢; rw [hi]; exact hf'
  · unfold State.permitted at hp ⊢
    simp only [m0, m1, p2, p3, p4, assigned, p1, hf, Bool.not_false, Bool.true_or, Bool.and_true] at hp ⊢
    exact hp

/-- A page of HBM whose entry is cached. -/
theorem page_at {s : State} {k : Kind} {va : Word} {e : TlbEntry} {p : Phys}
    (h : s.serves (s.cur.agent s.cur.cw) k va e = true ∧ va.toNat % 65536 = 0 ∧ isHbm (bits e.entry.toNat 12 36 * 65536) = true ∧
      Met.phys { level := 3, entry := e.entry.toNat, addr := e.addr } va.toNat = p ∧ s.isRemote p.pa = false) : s.PageAt k va p := by
  obtain ⟨h, hb, hf, hp, hr⟩ := h
  refine ⟨hb, hr, fun o ho l2 hbm => ?_⟩
  obtain ⟨hs, ha⟩ := serves_page ho hb hf h
  rw [xlate_everywhere (t := { s with l2 := l2, hbm := hbm }) hs rfl rfl, ha, ← hp]
  have : Met.phys { level := 3, entry := e.entry.toNat, addr := e.addr } (va.toNat + o) =
      (Met.phys { level := 3, entry := e.entry.toNat, addr := e.addr } va.toNat).plus o := by
    have w : Met.pa { level := 3, entry := e.entry.toNat, addr := e.addr } (va.toNat + o) =
        Met.pa { level := 3, entry := e.entry.toNat, addr := e.addr } va.toNat + o := by
      show bits e.entry.toNat 12 36 * 65536 + (va.toNat + o) % 65536 = bits e.entry.toNat 12 36 * 65536 + va.toNat % 65536 + o
      omega
    unfold Met.phys Phys.plus
    rw [w]
  rw [this]

end Sys2Proof.Machine
end

