-- ==== Sys2Proof/Tests/Slice0.lean ====
section
/-! SUPPORT. Tests. Expected values are the manual's worked examples and tables; the witnesses show that the hypotheses of the
statements are met. -/

namespace Sys2Proof.Tests

open Sys2Proof Sys2Proof.Machine

set_option Elab.async false

/-! Well-formedness: each check refuses a term -/

theorem test_wf_scope : (Instr.fenceRel 6).wellFormed = false ∧ (Instr.fenceRel 5).wellFormed = true := by decide
theorem test_wf_width : (Instr.ld 1 2 7 0).wellFormed = false ∧ (Instr.st 1 2 4 0).wellFormed = false := by decide
theorem test_wf_order : (Instr.cas 1 2 3 5 0 0).wellFormed = false ∧ (Instr.amoadd 1 2 3 0 1 0).wellFormed = false := by decide
theorem test_wf_form : (Instr.vadd 3 1 2 3 0).wellFormed = false := by decide
theorem test_wf_index : (Instr.vslideup 0 1 2 3 0).wellFormed = false ∧ (Instr.vbcast 2 1 2 31 0).wellFormed = false := by decide
theorem test_wf_round : (Instr.vcvt 6 10 5 0 13).wellFormed = false ∧ (Instr.fcvtFi 1 2 6 0).wellFormed = false := by decide
theorem test_wf_kind : (Instr.cmpFeq 1 2 3 0).wellFormed = false := by decide
theorem test_wf_tag : (Instr.vsetvl 1 2 0).wellFormed = false := by decide
theorem test_wf_vector_order :
    (Instr.vld 1 2 0 0 3 0).wellFormed = false ∧ (Instr.vst 1 2 0 1 3).wellFormed = false ∧
    (Instr.vst 1 2 0 0 3).wellFormed = true := by decide
theorem test_wf_pair : (Instr.vamoAdd 1 2 31 0 0 0).wellFormed = false ∧ (Instr.vxlt 1 31 2 0 0).wellFormed = false := by decide
theorem test_wf_groups :
    (Instr.mopa 15 0 8 1 0 0).wellFormed = false ∧ (Instr.mopa 0 31 8 0 1 0).wellFormed = false ∧
    (Instr.mopaMx 0 0 31 0 0).wellFormed = false ∧ (Instr.cpyv 31 1 1 0 0 0).wellFormed = false := by decide
theorem test_wf_numbers :
    (Instr.tide 1 2 3 17).wellFormed = false ∧ (Instr.tideq 1 7).wellFormed = false ∧
    (Instr.crr 1 0x000).wellFormed = false := by decide

/-! Decoding: the words of the manual's examples -/

/-- Does each word decode to its instruction? -/
noncomputable def reads (ws : List (BitVec 32 × Instr)) : Bool :=
  ws.all fun p => match decode p.1 with
    | .ok i => i == p.2
    | .error _ => false

/-- Is no word an instruction? -/
noncomputable def rejects (ws : List (BitVec 32)) : Bool :=
  ws.all fun w => match decode w with
    | .ok _ => false
    | .error _ => true

theorem test_decode_scalar : reads [(0x10A0FFFE, .addi 5 0 0xFFFE), (0x24C0007E, .lui 6 0x7E), (0x39C00000, .bnc 3 0),
    (0x3FFFFFFB, .jal 31 0x1FFFFB), (0x04A53000, .add 5 5 6), (0x04E84A0C, .sel 7 8 9 2), (0x20A50083, .srai 5 5 3),
    (0x0C853010, .fadd 4 5 6 1), (0x2D214C00, .cmpLtu 2 5 6), (0x401F0000, .jalr 0 31 0), (0x0A258006, .remu 17 5 16),
    (0x3091800B, .cmpiLt 1 6 11)] = true := by decide +kernel
theorem test_decode_scalar_rejects : rejects [0x20A500C3, 0x0C853110, 0x2D214C80, 0, 0xFFFFFFFF] = true := by decide +kernel
theorem test_decode_memory : reads [(0x46866000, .ld 20 6 3 0), (0x46877100, .ldAcq 20 7 3 4 0), (0x48A77100, .stRel 5 7 3 4 0),
    (0x452240FE, .ld 9 2 2 0xFE), (0x4CE94190, .amoadd 7 9 8 1 4 1), (0x50E94010, .cas 7 9 8 0 0 1), (0x54000042, .fenceAr 4),
    (0x54000003, .fenceSv), (0x84260000, .vld 1 6 0 0 0 0), (0x8C651104, .vldx 3 5 2 1 0 0 1), (0x8C651001, .vgll 3 5 2 0 0 0),
    (0x88264089, .vstS 1 6 8 0 4 1), (0x90851201, .vscc 4 5 2 2 0 0), (0x94853000, .vamoAdd 4 5 6 0 0 0), (0x95054807, .vfas 8 5 9 0),
    (0x984E1980, .vwait 2 14 3 1 4)] = true := by decide +kernel
theorem test_decode_vector : reads [(0x80291600, .vsetvl 5 4 11), (0x80480001, .vcfg 9 0), (0x80000002, .vrel), (0x81181043, .vrand 3 8 1),
    (0x6C388008, .mpopc 7 2), (0x6C08C00A, .many 1 3), (0x58190A00, .vadd 0 3 4 5 0), (0x5A39FA8B, .vsadd 2 7 7 29 2),
    (0x5D405200, .vfma 1 8 1 9 0), (0x64298040, .vrecip 5 6 1), (0x6A188002, .vcmpLt 2 3 2 0 0), (0x7032841D, .vcvtSat 6 10 2 0 13),
    (0x70214C2A, .vcvtSr 4 5 6 0 10), (0x62188604, .vsll 2 3 2 3 0), (0x7410C000, .vredsum 2 3 0), (0x74214048, .vscanSum 4 5 1),
    (0x7A31C601, .vslidedn 2 6 7 3 0), (0x7948C808, .vmvx 1 9 3 4), (0x78280607, .viota 5 3 0), (0x7C1A0000, .vnzb 3 8 0),
    (0x7C504403, .vxsect 10 1 2 0)] = true := by decide +kernel
theorem test_decode_vector_rejects : rejects [0x5B190A00, 0x70328A1D] = true := by decide +kernel
theorem test_decode_matrix : reads [(0xA4C00000, .menter 3), (0xA4000001, .mexit), (0xA4800002, .mzero 2), (0xA9008300, .mopa 4 0 8 3 0 0),
    (0xA8002002, .mopaMx 0 0 2 0 0), (0xA84C4140, .mopa 1 6 4 1 1 0), (0xAC8A9000, .mrow 2 5 9 0), (0xAC0C3A04, .mcvt 0 6 3 10 0),
    (0xB0D4B000, .mld 3 10 11 0), (0xB0D8B001, .mst 3 12 11 0)] = true := by decide +kernel
theorem test_decode_engine : reads [(0xB5264028, .cpy 9 6 8 1 0 2), (0xB5864058, .cpy 12 6 8 2 1 2), (0xB50408A9, .cpyv 8 4 1 5 0 2),
    (0xB47418EA, .cpyc 3 20 3 7 0 2), (0xB8070220, .scfg 7 4 1), (0xB8800021, .vlds 4 1), (0xB8000022, .sadv 1), (0xB8000023, .sclose 1),
    (0xBCA60000, .twany 5 6), (0xBC060001, .twall 6), (0xBCA60002, .tfind 5 6), (0xBC060003, .tclr 6), (0xBD200044, .tstamp 9 2)] =
    true := by decide +kernel
theorem test_decode_maps : reads [(0x9C861300, .vxlt 4 6 2 3 0), (0x9C861305, .vxltW 4 6 2 3 1), (0xA120D280, .vlin 4 3 9 2),
    (0xA120D281, .vlinB 4 3 9 2), (0xD4CA0002, .mapverAcq 6 10), (0xD4060003, .mapverRel 6), (0xD8A90000, .balloc 5 9),
    (0xDC8A4000, .swopen 4 10 8), (0xDC84D861, .swcommit 4 4 27 3), (0xE0853000, .lnset 4 5 6), (0xE384C801, .lnget 28 4 25)] =
    true := by decide +kernel
theorem test_decode_system : reads [(0xE8800100, .crr 4 0x010), (0xE8050011, .crw 5 1), (0xE8061002, .crs 6 0x100), (0xE8070023, .crc 7 2),
    (0xEC080020, .pref 8 1), (0xEC053081, .flush 5 6 4), (0xEC053082, .discard 5 6 4), (0xEC053003, .inv 5 6), (0xEC090084, .xinv 9 4),
    (0xC80D2880, .sigadd 13 5 4), (0xC4250000, .barinit 1 5 0), (0xC4000003, .barSync 0), (0xD0A84880, .tide 5 8 9 4),
    (0xD0000001, .tidewait 0), (0xF0000001, .tret), (0xF0000002, .wfi), (0xF0000003, .halt), (0xF0000070, .trap 7),
    (0xE4050000, .launch 5), (0xE4060001, .spawn 6), (0xE4000002, .yield), (0xE4070004, .resume 7), (0xCC000000, .lsync)] =
    true := by decide +kernel
theorem test_decode_system_rejects : rejects [0xEC053085, 0xEC0530C1, 0xEC053083, 0xE4000005, 0xE4050003, 0xDC040004, 0xDCC42861,
    0xD0A00003, 0xD0A63A20, 0xF0000004, 0xF0000071] = true := by decide +kernel

/-! A small world: one hart in supervisor mode on core 0, with pages 4 (code), 5 and 6 (data) and 7 (window 2) in its translation
cache -/

def xs (l : List (Nat × Word)) : Vector Word 32 := Vector.ofFn fun i => (l.lookup i.val).getD 0
def vs (l : List (Nat × VReg)) : Vector VReg 32 := Vector.ofFn fun i => (l.lookup i.val).getD {}
def page (n : Nat) (e : Word) : TlbEntry :=
  { home := .core 0, part := some 0, level := 3, index := n, entry := e, addr := 0x30000 + 8 * n }
def at5 (o : Nat) : Phys := { pa := 0x50000 + o, attr := .cached }
def at6 (o : Nat) : Phys := { pa := 0x60000 + o, attr := .cached }
def at7 (o : Nat) : Phys := { pa := 0x70000 + o, attr := .cached, arena := some 2 }

def wHart : Hart :=
  { uid := 1, launch := 1, place := .resident 0 0, handle := 0x100000, pc := 0x40000, held := 8, vgrant := 8, ltag := .i32, vlen := 2
    status := { sup := true }, tvec := 0x1000
    x := xs [(1, 0x50000), (2, 8), (3, 0x50100), (4, 1), (5, 0x70000), (6, 0x8000000000000000), (7, 0xFFFFFFFFFFFFFFFF), (8, 3), (9, 16), (10, 32), (11, 2), (12, 0xA0001), (13, 0x50040), (14, 0xD0001), (15, 0x50200),
      (16, 0x50240), (17, 0xE0000), (18, 3), (19, 0x100), (21, 0x80000000), (22, 1), (23, 0x50400), (24, 0x50440), (25, 0x100000)]
    v := vs [(1, { img := 0x800000004, tag := .i32 }), (2, { img := 5, tag := .n32 }), (3, { img := 0x3F800000, tag := .f32 }),
      (4, { img := BitVec.ofNat 16384 (0x50008 * 2 ^ 64 + 0x50000), tag := .n64 }), (5, { img := 0, tag := .n64 }), (6, { img := BitVec.ofNat 16384 (31 * 2 ^ 32 + 16), tag := .n32 }),
      (7, { img := BitVec.ofNat 16384 (32 * 2 ^ 32 + 16), tag := .n32 }),
      (8, { img := BitVec.ofNat 16384 (0x50000 * 2 ^ 64 + 0x50000), tag := .n64 })] }

def world : State :=
  { cur := wHart
    launches := [{ uid := 1, record := { loadRecord with tbuf := 4, ntile := 16 }, placed := 1, dir := (Vector.replicate 16 none).set 2 (some 0x60000),
                   allocs := [{ group := 0, core := 0, base := 0 }] }]
    parts := [loadPart], lighthouse := { phase := .running, runningSlot := some 0 }, nextUid := 2
    tlb := [page 4 0x406F, page 5 0x5067, page 6 0x6067, page 7 0x0002000000007867] }

/-- The world with its hart changed. -/
def worldWith (f : Hart → Hart) : State := world.onCur f

/-- Home bytes: address, size and value of each piece. -/
def store (ws : List (Nat × Nat × Nat)) : List Host.Cell := ws.foldl (fun m w => cellsWrite true m w.1 (leBytes w.2.1 w.2.2)) []

theorem world_ready : world.VectorReady := ready_of (by decide +kernel)
theorem world_quiet : world.Quiet := ⟨rfl, rfl, rfl⟩
theorem world_sound : world.Sound := ⟨rfl, (fun _ h => nomatch h)⟩
theorem world_tidy : world.Tidy := fun _ h => nomatch h
theorem world_tiles : world.TilesUncached := fun _ _ => rfl
theorem world_canonical : world.Canonical := ⟨by decide +kernel, List.Pairwise.nil, world_tidy, world_tiles⟩
theorem world_delivers : world.cur.Delivers := ⟨rfl, rfl⟩
theorem world_rests : world.Rests := rests_of (by decide +kernel)
theorem world_handles : world.cur.handles := by decide +kernel

/-! Encoding, the step and reset -/

theorem wit_DecodeEncode : (Instr.add 31 31 31).wellFormed = true ∧ encode (.add 31 31 31) = some 0x07FFF800 := by decide
theorem wit_EncodeDecode : decode 0xF0000070 = .ok (.trap 7) := by decide +kernel
theorem wit_DecodeWords : (0xF4000000#32).toNat / 2 ^ 26 ∈ [0x00, 0x3D, 0x3E, 0x3F] := by decide

/-- The world with a word at the program counter and the hart on the agenda. -/
def fetching (w : Nat) : State := { world with agenda := [.hart 1], l2 := cellsOf true 0x40000 (leBytes 4 w) }

theorem wit_StepRunsDecoded :
    (∀ j, decode ((fetching 0).codeWord 1 0x40000).1 ≠ .ok j) ∧
    (let s := { fetching 0x10A0FFFE with agenda := [] }
     s.focus 1 = some s ∧ s.mustLeave s.cur = false ∧ (s.cur.irq && s.cur.status.ie && !s.cur.midway) = false ∧
     s.xlate (s.cur.agent 0) .fetch s.cur.pc = (.ok { pa := 0x40000, attr := .cached }, s) ∧ s.recoded = [] ∧
     s.wrote.contains s.cur.uid = false ∧ s.cur.undelivers 0x40000 4 = false ∧
     decode (s.codeWord 1 0x40000).1 = .ok (.addi 5 0 0xFFFE)) ∧
    { world with wrote := [1] }.wrote.contains 1 = true ∧
    (worldWith fun h => { h with undelivered := [0x40000] }).cur.undelivers 0x40000 4 = true ∧
    { world with poison := [0x40003] }.badByte 0 .home 0x40000 4 = true ∧
    (let s := worldWith fun h => { h with pc := 0x90000 }
     s.xlate (s.cur.agent 0) .fetch s.cur.pc = (.error 0x04, s)) ∧
    (worldWith fun h => { h with wait := .wfi }).cur.wait ≠ .awake := by
  refine ⟨fun j => ?_, by decide +kernel⟩
  have e : decode ((fetching 0).codeWord 1 0x40000).1 = .error .illegalMajor := by decide +kernel
  rw [e]
  exact fun h => nomatch h

theorem wit_StepsKeepMemoryCanonical : State.reset.Canonical ∧ ∃ t, step State.reset = .next t :=
  ⟨⟨rfl, List.Pairwise.nil, (fun _ h => nomatch h), fun _ _ => rfl⟩, ⟨_, rfl⟩⟩

/-- A partition request within its limits. -/
def request : PartitionRequest :=
  { part := 1, cores := [0], root := some 0x10000, faultQueue := some 0x80000, faultBase := 0x90000, faultCap := 16,
    saveRegion := some 0x100000, saveHarts := 16, otherPackages := [], hostRanges := [] }

theorem wit_ResetState : ∃ p, State.requested { world with parts := [] } request = some p :=
  Option.isSome_iff_exists.1 (by decide +kernel)

/-! Scalar registers -/

theorem wit_DivisionResults :
    world.x 2 ≠ 0 ∧ world.x 0 = 0 ∧ (world.x 6).toInt = -2 ^ 63 ∧ (world.x 7).toInt = -1 ∧ world.x 6 ≠ 0 := by decide +kernel
theorem wit_HardwiredRegisters : (1 : BitVec 5) ≠ 0 ∧ (7 : BitVec 3) ≠ 0 := by decide
theorem wit_ControlTransfers : ((world.x 1).toInt + (4 : BitVec 16).toInt).toNat % 4 = 0 ∧
    (BitVec.ofInt 64 ((world.x 1).toInt + (0xFFFF : BitVec 16).toInt)).toNat % 4 ≠ 0 ∧ world.cur.handles := by decide +kernel

/-- A magnitude between the bounds of the class word, and the values of a box. -/
theorem wit_ScalarFloatResults : 0xFFFFFFFF < 2 ^ 32 ∧ 2 ^ 64 - 1 < 2 ^ 64 ∧ 0x7F800000 < 2 ^ (fmtOfP 0).width ∧
    (fmtOfP 0).infMag = 0x7F800000 ∧ (fmtOfP 0).isNanCode 0x7F800001 = true := by decide +kernel

/-- Finite, infinite, invalid and subnormal operands: 1, 0, −1, 2, the NaN 7FC00001, a signalling one, and the least subnormal. -/
theorem wit_FloatOperations : Fmt.f32 ∈ Fmt.arithmetic ∧ 0xFFC00001 < 2 ^ Fmt.f32.width ∧ ({} : Mode).sat = false ∧
    [0x3F800000, 0, 0xBF800000, 0x40000000].all Fmt.f32.isFinite = true ∧ Fmt.f32.value 0x3F800000 = 1 ∧ Fmt.f32.value 0 = 0 ∧
    Fmt.f32.value 0xBF800000 = -1 ∧ Fmt.f32.value 0x40000000 = (if false then -1 else 1) * (((1 : Nat) : Rat) * 2 ^ (1 : Int)) ∧
    Fmt.f32.isNanCode 0x7FC00001 = true ∧ Fmt.f32.signals 0x7F800001 = true ∧ Fmt.f32.isNanCode 0x3F800000 = false ∧
    Fmt.f32.special = .ieee ∧ (1 : Rat) * 1 = 1 ∧ (-8 : Int) < 7 ∧ Fmt.f32.value 0x3F800000 ≠ 0 ∧ (0 : Rat) ≤ Fmt.f32.value 0x3F800000 ∧ Fmt.f32.value 0xBF800000 < 0 ∧
    Fmt.e4m3 ∈ Fmt.e2m1 :: Fmt.arithmetic ∧ 15 < 16 ∧ Fmt.e2m1.value 8 = 0 ∧ ({} : Mode).dn = false ∧ Fmt.f32.mag 1 < 2 ^ Fmt.f32.fbits ∧ ({ dn := true } : Mode).dn = true := by
  decide +kernel

/-- A value between two neighbours, one at the largest magnitude, one beyond it, and a subnormal under FTZ. -/
theorem wit_RoundingValues : Fmt.f16 ∈ Fmt.e2m1 :: Fmt.arithmetic ∧
    (let v : Rat := ((2049 : Nat) : Rat) * 2 ^ (-11 : Int)
     0x3C00 < Fmt.f16.maxMag ∧ Fmt.f16.magnitude 0x3C00 ≤ v ∧ v < Fmt.f16.magnitude 0x3C01) ∧
    (let v : Rat := ((65519 : Nat) : Rat) * 2 ^ (0 : Int)
     Fmt.f16.maxMag = 0x7BFF ∧ Fmt.f16.magnitude 0x7BFF ≤ v ∧ v < Fmt.f16.magnitude 0x7C00 ∧
     ¬ (Fmt.f16.magnitude 0x7BFF + Fmt.f16.magnitude 0x7C00) / 2 ≤ v) ∧
    Fmt.f16.magnitude (Fmt.f16.maxMag + 1) ≤ ((65536 : Nat) : Rat) * 2 ^ (0 : Int) ∧
    0 < ((1 : Nat) : Rat) * 2 ^ (-24 : Int) ∧ ((1 : Nat) : Rat) * 2 ^ (-24 : Int) ≤ Fmt.f16.magnitude (2 ^ Fmt.f16.fbits - 1) ∧
    Fmt.f16.special = .ieee := by decide +kernel

/-! Scalar memory -/

/-- The world with its page 5 uncached and a byte of it dirty in the L1. -/
def uncached : State :=
  { world with
    tlb := [page 4 0x406F, page 5 0x5267]
    l1 := [{ cache := 0, addr := 0x50000, data := 7, valid := 1, dirty := 1 }] }

theorem wit_LoadResults :
    uncached.xlate (wHart.agent 0) .read 0x50008 = (.ok { at5 8 with attr := .uncached }, uncached) ∧
    (uncached.writeBackDrop 0 0x50008).badByte 0 .home 0x50008 8 = false ∧ uncached.cur.undelivers 0x50008 8 = false ∧
    world.xlate (wHart.agent 0) .read 0x50008 = (.ok (at5 8), world) ∧ world.Quiet ∧ world.cur.Delivers ∧ world.Canonical ∧ world.Sound ∧
    ((world.onCur fun h => { h with unacked := [] }).onCur Hart.released).xlate (wHart.agent 0) .read 0x50008 = (.ok (at5 8), world) ∧
    (world.x 1 + BitVec.ofInt 64 ((1 : BitVec 8).toInt * 8)).toNat % 8 = 0 ∧ world.badByte 0 .plain 0x50008 8 = false ∧
    world.cur.undelivers 0x50008 8 = false :=
  ⟨xlate_served (serves_cached (by decide +kernel)), by decide +kernel, by decide +kernel, xlate_served (serves_cached (by decide +kernel)), world_quiet, world_delivers, world_canonical, world_sound, xlate_served (serves_cached (by decide +kernel)),
    by decide +kernel⟩

/-- The world with window 2 in `cw`. -/
def windowed : State := worldWith fun h => { h with cw := 0x12 }

theorem wit_StoreResults :
    world.Canonical ∧ world.Sound ∧ world.Quiet ∧ world.xlate (wHart.agent 0) .write 0x50000 = (.ok (at5 0), world) ∧
    windowed.xlate (windowed.cur.agent 0x12) .window 0x70000 = (.ok (at7 0), windowed) ∧ world.cur.lostWrites = [] ∧
    (world.x 1).toNat % 8 = 0 ∧ (at5 0).pa % 8 = 0 ∧ (isTile (at5 0).pa = true → (at5 0).attr.mode .fresh = .home) ∧
    windowed.cur.cw.getLsbD 4 = true :=
  ⟨world_canonical, world_sound, world_quiet, xlate_served (serves_cached (by decide +kernel)),
    xlate_served (serves_cached (by decide +kernel)), rfl, by decide +kernel⟩

theorem wit_ScalarAccessTraps : world.cur.handles ∧
    (world.x 8 + BitVec.ofInt 64 ((0 : BitVec 8).toInt * 8)).toNat % 8 ≠ 0 ∧ (world.x 8).toNat % 4 ≠ 0 ∧
    (world.x 0 + BitVec.ofInt 64 ((0 : BitVec 8).toInt * 8)).toNat % 8 = 0 ∧
    world.xlate (wHart.agent 0) .read 0 = (.error 0x04, world) ∧ world.xlate (wHart.agent 0) .write 0 = (.error 0x05, world) ∧
    (let sent := (world.onCur fun h => { h with unacked := [] }).onCur Hart.released
     sent.xlate (wHart.agent 0) .read 0 = (.error 0x04, sent)) ∧ world.cur.lostWrites = [] ∧
    windowed.xlate (windowed.cur.agent 0x12) .window 0 = (.error 0x05, windowed) ∧ windowed.cur.cw.getLsbD 4 = true ∧
    world.xlate (wHart.agent 0) .atomic 0 = (.error 0x05, world) ∧ (world.x 0).toNat % 8 = 0 ∧
    world.cur.cw.getLsbD 4 = false ∧ world.l1 = [] := by decide +kernel

theorem wit_AtomicResults : world.Quiet ∧ world.cur.Delivers ∧ world.TilesUncached ∧
    world.xlate (wHart.agent 0) .atomic 0x50000 = (.ok (at5 0), world) ∧
    (world.x 1).toNat % 8 = 0 ∧ (at5 0).pa % 8 = 0 ∧ Memory.wf world = true :=
  ⟨world_quiet, world_delivers, world_tiles, xlate_served (serves_cached (by decide +kernel)), by decide +kernel⟩

theorem wit_FencesAndCaches :
    (∀ v ∈ pageStarts 0x50000 8, inWindow (BitVec.ofNat 64 v) = false ∧ world.Serves .read (BitVec.ofNat 64 v) (at5 0) ∧
      world.Serves .write (BitVec.ofNat 64 v) (at5 0) ∧ (at5 0).pa % 65536 = v % 65536) ∧
    (worldWith fun h => { h with lostWrites := [(0x90000, false)] }).cur.lostWrites.all (fun w => !w.2) = true ∧
    world.poison = [] ∧ world.Roomy ∧ world.isFused 0 = false ∧ world.isRemote 0x50000 = false ∧
    world.Sound ∧ world.Canonical ∧ world.unsendable (world.cacheOf 0) = [] ∧ world.cur.lostWrites = [] ∧ world.x 0 = 0 ∧
    world.x 2 ≠ 0 ∧ (world.x 2).toNat ≤ 0x1000000 ∧ world.cur.status.sup = true ∧
    (worldWith fun h => { h with status := {} }).cur.status.sup = false := by
  refine ⟨fun v hv => ?_, by decide +kernel, rfl, ⟨by decide, by decide⟩, by decide +kernel, by decide +kernel, world_sound, world_canonical,
    by decide +kernel⟩
  have e : v = 0x50000 := by
    have : pageStarts 0x50000 8 = [0x50000] := by decide +kernel
    simpa [this] using hv
  subst e
  exact ⟨by decide +kernel, serves_cached (by decide +kernel), serves_cached (by decide +kernel), by decide⟩

/-! Control registers and exceptions -/

theorem wit_ControlRegisterAccess : CtlReg.ofNumber 0x123 = some .partmv ∧ CtlReg.partmv.access true = .readWrite ∧
    CtlReg.fmode.forbids 4 = false ∧ CtlReg.ofNumber 0x041 = some .shore ∧
    CtlReg.fmode ∉ [CtlReg.tidectl, .bxstag, .agetime, .revoke] ∧ world.part? world.cur.part = some loadPart ∧
    loadPart.acting = loadPart.toPartRegs ∧
    (-2 ≤ (world.shoreSeen - world.shore).toInt ∧ (world.shoreSeen - world.shore).toInt ≤ 2) := by decide +kernel
theorem wit_ControlRegisterTraps : (∃ w, encode (.crr 1 0x000) = some w) ∧ (∃ w, encode (.crw 1 0xFFF) = some w) ∧
    world.cur.handles ∧ CtlReg.ofNumber 0x000 = none ∧ CtlReg.ofNumber 0x010 = some .vl ∧ CtlReg.vl.access true = .readOnly ∧
    CtlReg.fmode.forbids 5 = true ∧ CtlReg.fmode.access true = .readWrite ∧
    (let s := worldWith fun h => { h with status := {} }
     s.cur.status.sup = false ∧ s.leavingError = none) ∧
    CtlReg.ofNumber 0x101 = some .epc ∧ CtlReg.ofNumber 0x100 = some .status :=
  ⟨⟨_, rfl⟩, ⟨_, rfl⟩, by decide +kernel⟩
theorem wit_TrapEntryVectors : world.cur.handles ∧ ({ cause := 0x80 } : Trap).cause ≠ 0x0D ∧ ({ cause := 0x80 } : Trap).parks = false := by
  decide +kernel
theorem wit_TrapEntryParks : (worldWith fun h => { h with tvec := 0 }).cur.tvec = 0 ∧ world.pendingCmds 1 = false ∧
    world.part? 0 = some loadPart := by decide +kernel
theorem wit_SystemTraps : world.cur.handles ∧ world.pendingCmds 1 = false ∧ world.leavingError = none ∧ world.cur.status.sup = true ∧
    world.cur.epc.toNat % 4 = 0 ∧ (worldWith fun h => { h with epc := 0xFFFFFFFFFFFFFFFF }).cur.epc.toNat % 4 ≠ 0 ∧
    (worldWith fun h => { h with heldProgress := { addr := some 0 } }).cur.heldProgress.addr = some 0 ∧
    (worldWith fun h => { h with progress := { addr := some 0 } }).cur.progress.addr = some 0 := by decide +kernel

/-- A partition whose fault queue, with room for two records, has one to post. -/
def posting : State :=
  { worldWith fun h => { h with irq := true, status := { sup := true, ie := true } } with
    parts := [{ loadPart with posting := [world.faultRecord wHart 0x10 false] }]
    l2 := cellsOf true 0x80000 (leBytes 8 0x90000 ++ leBytes 8 2 ++ leBytes 8 0xFFFFFFFFFFFFFFFF ++ leBytes 8 0) }

theorem wit_Interrupts :
    (∃ p r, posting.part? p.id = some p ∧ p.posting = [r] ∧
      (let tail := posting.queueField p 0x18 8
       let slot := posting.queueField p 0 8 + 64 * (tail % posting.queueField p 0x08 4)
       wrap 64 ((tail : Int) - posting.queueField p 0x10 8) < posting.queueField p 0x08 4 ∧ touchesTile slot 64 = false ∧
       touchesTile (p.faultQueue + 0x18) 8 = false ∧ Apart [(slot, 64), (p.faultQueue + 0x18, 8)])) ∧
    Memory.wf posting = true ∧ world.cur.place ≠ .absent ∧ world.cur.status.sup = true ∧ posting.cur.irq = true ∧
    world.cur.irq = false ∧ (worldWith fun h => { h with wait := .wfi, irq := true }).cur.wait = .wfi ∧
    posting.cur.isResident = true ∧ posting.cur.wait = .awake ∧ posting.cur.midway = false ∧ posting.cur.status.ie = true ∧
    posting.part? posting.cur.part ≠ none :=
  ⟨⟨{ loadPart with posting := [world.faultRecord wHart 0x10 false] }, _, by decide +kernel, rfl, by decide +kernel⟩,
    by decide +kernel⟩

/-! Vector registers -/

theorem wit_VectorArithmetic : world.VectorReady ∧ (world.cur.getV 1).tag = .i32 ∧ world.cur.Fits [.i32] ∧
    VOp.add.accepts .i32 = true ∧ Tag.isNumber .i32 = true ∧ Tag.isInt .i32 = true ∧ 2 ^ 32 - 1 < 2 ^ Tag.width .i32 ∧
    Tag.int .i32 0 = 0 ∧ Tag.int .i32 (2 ^ 31) = Tag.least .i32 ∧ Tag.int .i32 (2 ^ 32 - 1) = -1 ∧
    Tag.fmt .f32 = some .f32 ∧ Fmt.f32 ∈ Fmt.arithmetic ∧ Fmt.f32.isFinite 0x3F800000 = true ∧ 0x3F800000 < 2 ^ Tag.width .f32 ∧
    Fmt.e5m2 ∈ Fmt.arithmetic ∧ Tag.fmt .e5m2 = some .e5m2 ∧ (31 : BitVec 5).toInt = -1 ∧ (0 : BitVec 5).toInt = 0 ∧
    Tag.isSigned .i32 = true ∧ ({} : Mode).sat = false ∧ Fmt.f32.isFinite (Fmt.f32.daz {} 0x3F800000) = true :=
  ⟨world_ready, by decide +kernel⟩
theorem wit_VectorLogic : world.VectorReady ∧ (world.cur.getV 3).tag ≠ .dead ∧ world.cur.Fits [.f32] ∧ Tag.isInt .n32 = true :=
  ⟨world_ready, by decide +kernel, by decide +kernel, by decide⟩
theorem wit_VectorFunctions : world.VectorReady ∧ world.cur.Fits [.f32, .f64] ∧ Tag.isNumber .f32 = true ∧
    Tag.widen .f16 = some .f32 ∧ Tag.isF .f32 = true ∧ (∃ g, Tag.fmt .f32 = some g) ∧ (world.cur.getV 2).tag = .n32 ∧
    Tag.fmt (Tag.ofCode 9) ≠ none ∧ world.cur.Fits [.f32, Tag.ofCode 15] ∧ Tag.isInt .i16 = true ∧ Tag.fmt .f16 ≠ none ∧
    Tag.f16 ≠ .f32 :=
  ⟨world_ready, by decide +kernel, by decide, by decide, by decide, ⟨_, rfl⟩, by decide +kernel⟩

/-- A value at, between and beyond the neighbours of a stochastic rounding into f16, and one that its random bits carry over the
greatest. -/
theorem wit_StochasticRounding : Tag.fmt .f16 = some .f16 ∧ 0x3F800000 < 2 ^ Tag.width .f32 ∧ 2 ^ 32 - 1 < 2 ^ 32 ∧
    Fmt.f32.isFinite (Fmt.f32.daz {} 0x3F801000) = true ∧ Fmt.f32.value (Fmt.f32.daz {} 0x3F801000) = ((2049 : Nat) : Rat) * 2 ^ (-11 : Int) ∧
    Fmt.f16.magnitude 0x3C00 ≤ ((2049 : Nat) : Rat) * 2 ^ (-11 : Int) ∧ ((2049 : Nat) : Rat) * 2 ^ (-11 : Int) < Fmt.f16.magnitude 0x3C01 ∧
    0x3C00 < Fmt.f16.maxMag ∧ 2 ^ Fmt.f16.fbits ≤ 0x3C00 ∧ Fmt.f16.magnitude (Fmt.f16.maxMag + 1) ≤ (65536 : Rat) ∧
    Fmt.f16.magnitude Fmt.f16.maxMag ≤ (65519 : Rat) ∧ (65519 : Rat) < Fmt.f16.magnitude (Fmt.f16.maxMag + 1) ∧
    (2 : Int) ^ 32 ≤ ⌊((65519 : Rat) - Fmt.f16.magnitude Fmt.f16.maxMag) /
      (Fmt.f16.magnitude (Fmt.f16.maxMag + 1) - Fmt.f16.magnitude Fmt.f16.maxMag) * 2 ^ 32⌋ + ((2 ^ 32 - 1 : Nat) : Int) ∧
    (Tag.int .i32 5 : Rat) = 5 ∧ ¬ Tag.int .i32 5 < 0 ∧ Tag.f32 ≠ .dead := by decide +kernel

/-- The operands of R116 and R117: 1, −1, 0, 32, an infinity, a NaN, a value between neighbours of its reciprocal, and 1/2 for an inexact power. -/
theorem wit_FunctionUnit : Fmt.f32 ∈ [Fmt.f16, .bf16, .f32, .f64] ∧ Fmt.f32.isNanCode 0x7FC00001 = true ∧
    Fmt.f32.value (Fmt.f32.daz {} 0) = 0 ∧ Fmt.f32.isFinite (Fmt.f32.daz {} 0x3F800000) = true ∧
    Fmt.f32.value (Fmt.f32.daz {} 0xBF800000) < 0 ∧ (20 : Rat) ≤ |Fmt.f32.value (Fmt.f32.daz {} 0x42000000)| ∧
    Fmt.f32.value (Fmt.f32.daz {} 0x3F800000) = ((1 : Int) : Rat) ∧ 0x40000000 ≤ Fmt.f32.maxMag ∧
    Fmt.f32.magnitude 0x40000000 = 2 ^ (1 : Int) ∧ Fmt.f32.value (Fmt.f32.daz {} 0x3F800000) = 2 ^ (0 : Int) ∧
    ({} : Mode).ftz = false ∧ Fmt.f32.read {} 0x3F000000 = .fin false 0x800000 (-24) ∧ ((0x800000 : Nat) : Rat) * 2 ^ (-24 : Int) ≤ 1100 ∧
    (let c := Fn.exp2.exact false 0x800000 (-24)
     Fmt.f32.magnitude 0x3FB504F3 ≤ (c.2.1 : Rat) * 2 ^ c.2.2.1 ∧ (c.2.1 : Rat) * 2 ^ c.2.2.1 < Fmt.f32.magnitude 0x3FB504F4) ∧
    Fmt.f32.width ≠ 16 ∧ ((0x800000 : Nat) : Rat) * 2 ^ (-24 : Int) < 20 ∧
    (let v := Fmt.f16.value (Fmt.f16.daz {} 0x4200)
     Fmt.f16 ∈ [Fmt.f16, .bf16, .f32, .f64] ∧ Fmt.f16.width = 16 ∧ v = 3 ∧ 0x3555 < Fmt.f16.maxMag ∧
     Fmt.f16.magnitude 0x3555 * |v| ≤ 1 ∧ 1 < Fmt.f16.magnitude 0x3556 * |v| ∧
     Fmt.f16.magnitude 0x389E * Fmt.f16.magnitude 0x389E * v ≤ 1 ∧ 1 < Fmt.f16.magnitude 0x389F * Fmt.f16.magnitude 0x389F * v) := by
  decide +kernel
theorem wit_VectorCompares : world.VectorReady ∧ world.cur.Fits [.f32] ∧ Tag.isFloat .f32 = true ∧ Tag.isNumber .i32 = true ∧
    Tag.isInt .i32 = true ∧ Tag.fmt .f32 = some .f32 ∧ (Fmt.f32.cmp {} 0x3F800000 0).un = false ∧
    0x7FC00001 < 2 ^ Fmt.f32.width ∧ (Fmt.f32.isNanCode 0x7FC00001 || Fmt.f32.isNanCode 0) = true :=
  ⟨world_ready, by decide +kernel⟩
theorem wit_MaskResults : world.VectorReady ∧ world.cur.ml ≤ 2048 ∧ world.cur.Fits [.n32] ∧ world.cur.Fits [.i32] ∧
    (world.cur.getV 1).tag = .i32 ∧ (world.cur.getV 2).tag = .n32 ∧
    (let s := worldWith fun h => { h with v := h.v.set 1 { tag := .e2m1 } }
     s.VectorReady ∧ (s.cur.getV 1).tag = .e2m1 ∧ s.cur.Fits [.e2m1]) :=
  ⟨world_ready, by decide +kernel, by decide +kernel, by decide +kernel, by decide +kernel, by decide +kernel,
    ready_of (by decide +kernel), by decide +kernel, by decide +kernel⟩
theorem wit_ReductionResults : world.VectorReady ∧ world.cur.Fits [.f32] ∧ Red.sum.accepts .f32 = true ∧ Tag.isInt .i32 = true ∧
    (List.range 2).filter (fun _ => false) = [] ∧ (List.range 2).filter (fun _ => true) ≠ [] ∧
    Red.max.accepts .e4m3 = true ∧ Tag.fmt .e4m3 = some .e4m3 ∧ Fmt.f32.special ≠ .e4m3 ∧ Fmt.e4m3.special = .e4m3 ∧
    Fmt.f32.isNanCode 0x7FC00000 = true ∧ Fmt.f32.isNanCode 0 = false ∧ 2 ^ 0 < 2 ∧ 1 ≤ 1 ∧ Tag.isNumber .f32 = true ∧ ({} : Mode).sat = false ∧ ∀ _ : Nat, 2 ^ 32 - 1 < 2 ^ Tag.width .i32 :=
  ⟨world_ready, by decide +kernel, by decide, by decide, by decide, by decide, by decide, by decide, by decide, by decide,
    by decide +kernel, by decide +kernel, by decide, by decide, by decide, by decide, fun _ => by decide⟩
theorem wit_PermutationResults : world.VectorReady ∧ Tag.movable (world.cur.getV 3).tag = true ∧ world.cur.Fits [.f32] ∧
    (world.cur.getV 1).tag.isInt = true ∧ Tag.isInt (Tag.ofCode 8) = true ∧ world.cur.Fits [Tag.ofCode 8] ∧ world.cur.Fits [.n32] ∧
    Tag.f16 ∈ [Tag.f16, .bf16, .e4m3, .e5m2, .f64] ∧ 0xFFFF < 2 ^ Tag.width .f16 ∧ 0xFFFFFFFF < 2 ^ Tag.width .i32 :=
  ⟨world_ready, by decide +kernel, by decide +kernel, by decide +kernel, by decide, by decide +kernel, by decide +kernel,
    by decide, by decide, by decide⟩
theorem wit_VectorConfiguration : world.VectorReady ∧ max (world.recordOf wHart).lgmin 1 ≤ (world.recordOf wHart).lgmax ∧
    world.cur.status.matrix = false ∧ world.pendingGroups 1 = [] ∧ world.freeGroups wHart ≠ 0 ∧ world.cur.capturedHere = none ∧
    State.freeGroups { world with
      rest := [{ wHart with uid := 2, launch := 2 }]
      launches := [{ uid := 2, record := { loadRecord with lgmin := 8 } }] } wHart = 0 ∧
    (let s := worldWith fun h => { h with wait := .vsetvl 1 4 .i32 }
     s.cur.place ≠ .absent ∧ s.freeGroups s.cur ≠ 0 ∧ s.mustLeave s.cur = false) :=
  ⟨world_ready, by decide +kernel⟩
theorem wit_VectorTraps : world.cur.handles ∧ (worldWith fun h => { h with status := { sup := true, matrix := true } }).cur.status.matrix = true ∧
    (worldWith fun h => { h with vgrant := 0 }).cur.granted = false ∧ world.cur.granted = true ∧ (world.cur.getV 0).tag = .dead ∧
    ¬ (worldWith fun h => { h with vlen := 16384 }).cur.Fits [(world.cur.getV 1).tag] ∧
    (world.cur.getV 2).tag ≠ (world.cur.getV 1).tag ∧
    (worldWith fun h => { h with v := h.v.set 1 { tag := .e2m1 } }).cur.getV 1 = { tag := .e2m1 } ∧ (world.cur.getV 3).tag.isInt = false ∧
    (world.cur.getV 1).tag.isF = false ∧ (world.cur.getV 1).tag.isInt = true ∧ (world.cur.getV 4).tag.widen = none ∧
    (world.cur.getV 1).tag.widen ≠ some (world.cur.getV 3).tag ∧ (world.cur.getV 3).tag ≠ .n32 ∧ (Tag.ofCode 1).isInt = true ∧
    (Tag.ofCode 9).isInt = false := by decide +kernel

/-! Vector memory -/

/-- An access of the world that its translation cache serves. -/
theorem world_access {k : Kind} {t : Tag} {addr : Nat → Word} {p : Nat → Phys} (hl : t ≠ .dead) (hf : world.cur.Fits [t])
    (ha : ∀ u, u < t.units 2 → (addr u).toNat % t.unitBytes = 0) (hs : ∀ u, u < t.units 2 → world.unitCachedAt k (addr u) = some (p u)) :
    world.AccessReady k t 0 addr p :=
  ⟨world_ready, world_quiet, rfl, world_delivers, rfl, rfl, rfl, hl, hf, units_all ha, fun u hu _ => unit_cached (hs u hu),
    fun _ _ _ _ => rfl⟩

/-- Where a store of the world goes. -/
theorem world_targets {t : Tag} {p : Nat → Phys}
    (h1 : ∀ i, i < t.units 2 → ∀ j, j < t.units 2 → i ≠ j → (p i).pa + t.unitBytes ≤ (p j).pa ∨ (p j).pa + t.unitBytes ≤ (p i).pa)
    (h2 : ∀ i, i < t.units 2 → (p i).pa % t.unitBytes = 0 ∧ (isTile (p i).pa = true → (p i).attr.mode .fresh = .home)) :
    world.Targets t 0 p :=
  ⟨by decide +kernel, world_tiles, fun i j hi hj => h1 i (active_lt hi) j (active_lt hj),
    units_all fun u hu => (h2 u hu).1, units_all fun u hu => (h2 u hu).2⟩

/-- The world whose accesses begin at the last word of page 5, with page 6 absent, or a never-speculate page. -/
def stopping (ns : Bool) : State :=
  { worldWith fun h => { h with
      x := xs [(1, 0x5FFFC), (2, 4)], v := h.v.set 9 { img := BitVec.ofNat 16384 (4 * 2 ^ 64), tag := .n64 } } with
    tlb := [page 4 0x406F, page 5 0x5067] ++ if ns then [page 6 0x6277] else [] }

theorem stopping_below {ns : Bool} {addr : Nat → Word} (h : addr 0 = 0x5FFFC)
    (ha : ∀ u, u < 2 → (addr u).toNat % 4 = 0) : (stopping ns).AccessBelow 1 .read .i32 0 addr fun _ => at5 0xFFFC :=
  ⟨by cases ns <;> exact ready_of (by decide +kernel), ⟨rfl, rfl, rfl⟩, rfl, ⟨rfl, rfl⟩, rfl, rfl, rfl, by decide,
    by cases ns <;> decide +kernel, units_all (fun u hu => ha u hu),
    fun u hu _ => by
      cases Nat.lt_one_iff.1 hu
      rw [h]
      exact unit_cached (by cases ns <;> decide +kernel),
    fun _ _ _ _ => rfl⟩

theorem wit_VectorLoadStops :
    (∀ ns, (stopping ns).AccessBelow 1 .read .i32 0 (fun u => (stopping ns).x 1 + BitVec.ofNat 64 (4 * u)) (fun _ => at5 0xFFFC) ∧
      (stopping ns).AccessBelow 1 .read .i32 0 (fun u => (stopping ns).x 1 + (stopping ns).x 2 * BitVec.ofNat 64 u) (fun _ => at5 0xFFFC) ∧
      (stopping ns).AccessBelow 1 .read .i32 0 (fun u => (stopping ns).x 1 + ((stopping ns).cur.getV 9).offset u) (fun _ => at5 0xFFFC) ∧
      (stopping ns).cur.activeUnit .i32 0 1 = true ∧ (stopping ns).cur.activeUnit .i32 0 0 = true ∧ (at5 0xFFFC).ns = false ∧
      ((stopping ns).cur.getV 9).tag.isInt = true ∧ (stopping ns).cur.Fits [.n64]) ∧
    (stopping false).xlate (wHart.unitAgent 0) .read 0x60000 = (.error 0x04, stopping false) ∧
    (stopping true).ServesUnit .read 0x60000 { at6 0 with attr := .uncached, ns := true } :=
  ⟨fun ns => by
    cases ns <;> exact ⟨stopping_below (by decide +kernel) (by decide +kernel), stopping_below (by decide +kernel) (by decide +kernel),
      stopping_below (by decide +kernel) (by decide +kernel), by decide +kernel⟩,
    by decide +kernel, unit_cached (by decide +kernel)⟩

theorem wit_VectorLoads :
    world.AccessReady .read .i32 0 (fun u => world.x 1 + BitVec.ofNat 64 (4 * u)) (fun u => at5 (4 * u)) ∧
    world.AccessReady .read .i32 0 (fun u => world.x 1 + world.x 2 * BitVec.ofNat 64 u) (fun u => at5 (8 * u)) ∧
    world.AccessReady .read .i32 0 (fun u => world.x 1 + (world.cur.getV 1).offset u) (fun u => at5 (4 + 4 * u)) ∧
    (∀ u, at5 u = at5 u ∧ (at5 u).ns = false) ∧ world.cur.ltag = .i32 ∧ (world.cur.getV 1).tag.isInt = true ∧
    ∀ u, world.cur.activeUnit .i32 0 u = true → inWindow (world.x 1 + (world.cur.getV 1).offset u) = false :=
  ⟨world_access (by decide) (by decide +kernel) (by decide +kernel) (by decide +kernel),
    world_access (by decide) (by decide +kernel) (by decide +kernel) (by decide +kernel),
    world_access (by decide) (by decide +kernel) (by decide +kernel) (by decide +kernel),
    fun _ => ⟨rfl, rfl⟩, rfl, by decide +kernel, units_all (by decide +kernel)⟩

theorem wit_VectorStores :
    world.Targets .i32 0 (fun u => at5 (4 * u)) ∧ world.Targets .i32 0 (fun u => at5 (8 * u)) ∧
    world.Targets .i32 0 (fun u => at5 (4 + 4 * u)) ∧
    world.AccessReady .write .i32 0 (fun u => world.x 1 + BitVec.ofNat 64 (4 * u)) (fun u => at5 (4 * u)) ∧
    world.AccessReady .write .i32 0 (fun u => world.x 1 + world.x 2 * BitVec.ofNat 64 u) (fun u => at5 (8 * u)) ∧
    world.AccessReady .write .i32 0 (fun u => world.x 1 + (world.cur.getV 1).offset u) (fun u => at5 (4 + 4 * u)) ∧
    windowed.cur.cw.getLsbD 4 = true ∧ windowed.Serves .window (windowed.x 5) (at7 0) :=
  ⟨world_targets (by decide +kernel) (by decide +kernel), world_targets (by decide +kernel) (by decide +kernel),
    world_targets (by decide +kernel) (by decide +kernel),
    world_access (by decide) (by decide +kernel) (by decide +kernel) (by decide +kernel),
    world_access (by decide) (by decide +kernel) (by decide +kernel) (by decide +kernel),
    world_access (by decide) (by decide +kernel) (by decide +kernel) (by decide +kernel), by decide,
    serves_cached (by decide +kernel)⟩

theorem wit_VectorAtomics :
    world.AccessReady .atomic .n32 0 (fun i => world.x 1 + (world.cur.getV 1).offset i) (fun u => at5 (4 + 4 * u)) ∧
    world.Targets .n32 0 (fun u => at5 (4 + 4 * u)) ∧ (world.cur.getV (1 + 1)).tag = .n32 ∧ (world.cur.getV 1).tag.isInt = true ∧
    world.cur.Fits [.i32] ∧ VamoOp.add.accepts .n32 = true ∧
    (List.range 2).filter (fun i => (world.cur.getM 0).getLsbD i) ≠ [] ∧ 0xFFFFFFFF < 2 ^ Tag.width .n32 ∧ Tag.isInt .n32 = true ∧
    Tag.fmt .f32 = some .f32 ∧ world.ServesUnit .atomic (world.x 1) (at5 0) :=
  ⟨world_access (by decide) (by decide +kernel) (by decide +kernel) (by decide +kernel),
    world_targets (by decide +kernel) (by decide +kernel), by decide +kernel, by decide +kernel, by decide +kernel, by decide,
    by decide +kernel, by decide, by decide, by decide, unit_cached (by decide +kernel)⟩

/-- The world with both elements of v1 at one address, each with its link. -/
def linked : State := worldWith fun h => { h with
  links := [{ index := 0, granule := granuleOf 0x50004, size := 2, home := 0x50000 },
    { index := 1, granule := granuleOf 0x50004, size := 2, home := 0x50000 }]
  v := h.v.set 1 { img := 0x400000004, tag := .i32 } }

/-- Two elements at one address, the links of both whole; and two on different granules. -/
theorem wit_ScatterConditional :
    linked.AccessReady .write .n32 0 (fun i => linked.x 1 + (linked.cur.getV 1).offset i) (fun _ => at5 4) ∧
    world.AccessReady .write .n32 0 (fun i => world.x 1 + (world.cur.getV 1).offset i) (fun u => at5 (4 + 4 * u)) ∧
    linked.TilesUncached ∧ (linked.cur.getV 2).tag = .n32 ∧ (linked.cur.getV 1).tag.isInt = true ∧
    (∀ i, linked.cur.activeUnit .n32 0 i = true → inWindow (linked.x 1 + (linked.cur.getV 1).offset i) = false) ∧
    (∀ i, linked.cur.activeUnit .n32 0 i = true → granuleOf (linked.x 1 + (linked.cur.getV 1).offset i) = granuleOf 0x50004 ∧
      linked.cur.linked i (linked.x 1 + (linked.cur.getV 1).offset i) 4 = true) ∧
    (at5 4).pa % 4 = 0 ∧ isTile (at5 4).pa = false ∧
    (∀ i, i < 2 → ∀ j, j < 2 → i ≠ j → granuleOf (world.x 1 + (world.cur.getV 1).offset i) ≠ granuleOf (world.x 1 + (world.cur.getV 1).offset j) ∧
      (at5 (4 + 4 * i)).pa / 8 ≠ (at5 (4 + 4 * j)).pa / 8) ∧
    (0x50000 + 8 ≤ (at5 (4 + 4 * 1)).pa) :=
  ⟨⟨ready_of (by decide +kernel), ⟨rfl, rfl, rfl⟩, rfl, ⟨rfl, rfl⟩, rfl, rfl, rfl, by decide, by decide +kernel,
      units_all (by decide +kernel),
      fun u hu _ => unit_cached ((show ∀ u, u < 2 → linked.unitCachedAt .write (linked.x 1 + (linked.cur.getV 1).offset u) = some (at5 4) by
        decide +kernel) u hu), fun h => nomatch h⟩,
    world_access (by decide) (by decide +kernel) (by decide +kernel) (by decide +kernel),
    fun _ _ => rfl, by decide +kernel, by decide +kernel, units_all (by decide +kernel), units_all (by decide +kernel),
    by decide +kernel, by decide +kernel, by decide +kernel, by decide +kernel⟩

theorem wit_FlagWaits :
    (∀ i, i < 2 → world.ServesUnit .read (BitVec.ofNat 64 ((world.cur.getV 4).elem i)) (at5 (8 * i))) ∧
    world.VectorReady ∧ world.Quiet ∧ world.cur.Delivers ∧ world.cur.early = [] ∧ world.cur.Fits [.n64, .n64] ∧
    (∀ i, i < 2 → (world.cur.getV 4).elem i % 8 = 0) ∧
    (∀ i, i < 2 → (world.cur.getV 5).elem i ≤ leNat (world.homeRead (0x50000 + 8 * i) 8)) ∧
    (¬ ∀ i, i < 2 → leNat (world.homeRead (0x50000 + 8 * i) 8) ≠ (world.cur.getV 5).elem i) ∧
    min (world.shore.toNat + (world.x 0).toNat) (2 ^ 64 - 1) ≤ world.shore.toNat ∧
    world.shore.toNat < min (world.shore.toNat + (world.x 2).toNat) (2 ^ 64 - 1) ∧ world.cur.capturedHere = none ∧
    (let s := worldWith fun h => { h with wait := .vwait .ne 4 5 0 1 0 }
     s.cur.place ≠ .absent ∧ (s.issue [0]).operands = [0] ∧ (s.issue [0]).cw = s.cur.cw) :=
  ⟨fun i hi => unit_cached ((show ∀ i, i < 2 → world.unitCachedAt .read (BitVec.ofNat 64 ((world.cur.getV 4).elem i)) = some (at5 (8 * i)) by
      decide +kernel) i hi),
    world_ready, world_quiet, world_delivers, rfl, by decide +kernel⟩

/-! Context maps, pools and windows -/

/-- The world with a map at 0x50000 and one with a version at 0x50040, a pool at 0x50200, and windows 2 (with a draft) and 3 open. -/
def maps : State :=
  { world with
    launches := [{ uid := 1, record := loadRecord, placed := 1
                   dir := ((Vector.replicate 16 none).set 2 (some 0x70000)).set 3 (some 0xF0000) }]
    tlb := world.tlb ++ [page 8 0x8067, page 9 0x9067, page 11 0xB067, page 12 0xC067, page 13 0xD067, page 14 0x000200000000E867,
      page 15 0x000300000000F867]
    l2 := store [
      (0x50000, 8, 4 + 8 * 2 ^ 8 + 16 * 2 ^ 16 + 32 * 2 ^ 32), (0x50010, 8, 0x60000), (0x50038, 8, 0x50200),
      (0x50040, 8, 4 + 8 * 2 ^ 8 + 16 * 2 ^ 16 + 32 * 2 ^ 32), (0x50050, 8, 0x60000), (0x50060, 8, 2 ^ 32), (0x50068, 8, 0xD0001),
      (0x50200, 8, 2), (0x50208, 8, 4), (0x50210, 8, 0x50300), (0x50308, 8, 0x70000),
      (0x60040, 8, 0x80003), (0x70000, 8, 0x50000), (0x70008, 4, 32), (0x70018, 2, 0x101), (0x70040, 1, 0x40), (0x70080, 8, 0xB000B),
      (0x700A0, 8, 0x50200), (0x80008, 8, 0x90001), (0x80010, 8, 0xC0001),
      (0xD0000, 8, 1 + 32 * 2 ^ 32), (0xD0020, 4, 1), (0xD0024, 2, 0x401), (0xD0028, 8, 0x50040), (0xF0018, 1, 1)] }

theorem maps_rests : maps.Rests := rests_of (by decide +kernel)
theorem maps_ready : maps.VectorReady := ready_of (by decide +kernel)

def header : MapHeader :=
  { addr := 0x50000, geo := { lgt := 4, nplane := 8, tstride := 16, pstride := 0 }, length := 32, top := 0x60000, parent := 0, fork := 0,
    vnum := 0, vcur := 0, rstate := 0, pool := 0x50200 }
def versioned : MapHeader := { header with addr := 0x50040, vnum := 1, vcur := 0xD0001, pool := 0 }
def view : MapView := { top := 0x60000, length := 32, hdr := header }

theorem has_header : maps.HasHeader header (at5 0) := by
  constructor <;> first | decide | exact at_cached (by decide +kernel) (by decide +kernel)
theorem has_versioned : maps.HasHeader versioned (at5 0x40) := by
  constructor <;> first | decide | exact at_cached (by decide +kernel) (by decide +kernel)
theorem has_view : maps.HasView 0x50000 view := ⟨⟨_, has_header⟩, .inl ⟨rfl, rfl, rfl⟩⟩

def at8 (o : Nat) : Phys := { pa := 0x80000 + o, attr := .cached }
def atD (o : Nat) : Phys := { pa := 0xD0000 + o, attr := .cached }
def atE (o : Nat) : Phys := { pa := 0xE0000 + o, attr := .cached, arena := some 2 }
def atF (o : Nat) : Phys := { pa := 0xF0000 + o, attr := .cached, arena := some 3 }

/-- Positions 16 to 31 of the map lie in the block at 0x90000. -/
theorem mapped (pos : Nat) (h1 : 16 ≤ pos) (h2 : pos < 32) : maps.Mapped view pos 0x90001 := by
  have e : pos >>> 4 = 1 := by rw [Nat.shiftRight_eq_div_pow]; omega
  refine ⟨Nat.zero_le _, h2, ?_, at6 0x40, at8 8, 0x80003, ?_, by decide, ?_, by decide, by decide, by decide⟩
  · show pos >>> 4 / 8192 < 8184
    rw [e]; decide
  · show maps.At .read (view.top + BitVec.ofNat 64 (8 * (8 + pos >>> 4 / 8192))) _ 8 _
    rw [e]; exact at_cached (by decide +kernel) (by decide +kernel)
  · show maps.At .read (BitVec.ofNat 64 (0x80003 / 65536 * 65536 + 8 * (pos >>> 4 % 8192))) _ 8 _
    rw [e]; exact at_cached (by decide +kernel) (by decide +kernel)

theorem wit_MapTranslations :
    maps.Rests ∧ maps.HasView (maps.x 1) view ∧ maps.Mapped view (maps.x 9).toNat 0x90001 ∧ view.length ≤ (maps.x 10).toNat ∧
    maps.VectorReady ∧ (maps.cur.getV 6).tag.isInt = true ∧ maps.cur.Fits [.n32, .n64] ∧ (maps.x 2).toNat ≤ view.hdr.geo.nplane ∧
    (∀ i, i < 2 → maps.Resolves view 8 ((maps.cur.getV 6).elem i) (some (header.geo.address 0x90001 ((maps.cur.getV 6).elem i) 8))) ∧
    (∀ i, i < 2 → maps.Resolves view 8 ((maps.cur.getV 7).elem i)
      (if i = 0 then some (header.geo.address 0x90001 16 8) else none)) ∧
    (maps.onCur fun h => { h with cw := 0x12 }).holdsOpen 1 2 = true ∧ maps.cur.handles := by
  refine ⟨maps_rests, has_view, mapped _ (by decide +kernel) (by decide +kernel), by decide +kernel, maps_ready, by decide +kernel,
    by decide +kernel, by decide +kernel, fun i hi => ?_, fun i hi => ?_, by decide +kernel, by decide +kernel⟩
  · have e : ∀ i, i < 2 → 16 ≤ (maps.cur.getV 6).elem i ∧ (maps.cur.getV 6).elem i < 32 := by decide +kernel
    exact .inr ⟨_, mapped _ (e i hi).1 (e i hi).2, rfl⟩
  · have e : ∀ i, i < 2 → (maps.cur.getV 7).elem i = if i = 0 then 16 else 32 := by decide +kernel
    rw [e i hi]
    split
    · exact .inr ⟨_, mapped 16 (by decide) (by decide), rfl⟩
    · exact .inl ⟨rfl, by decide, by decide⟩

theorem wit_MapUpdates :
    maps.Rests ∧ maps.HasHeader header (at5 0) ∧ maps.HasHeader versioned (at5 0x40) ∧
    (∀ o, o < 0x26 → maps.Serves .write (header.top + BitVec.ofNat 64 o) ((at6 0).plus o) ∧
      maps.Serves .read (header.top + BitVec.ofNat 64 o) ((at6 0).plus o)) ∧
    (∀ o, o < 64 → maps.Serves .write (header.addr + BitVec.ofNat 64 o) ((at5 0).plus o)) ∧
    maps.x 1 = header.addr ∧ header.vcur = 0 ∧ bits (maps.x 12).toNat 1 15 = 0 ∧ (maps.x 9).toNat >>> 4 / 8192 < 8184 ∧
    maps.At .read (header.top + 0x24) (at6 0x24) 1 0 ∧
    maps.At .read (header.top + BitVec.ofNat 64 (8 * (8 + (maps.x 9).toNat >>> 4 / 8192))) (at6 0x40) 8 0x80003 ∧
    maps.Serves .write 0x80008 (at8 8) ∧ OnePiece 0x80008 8 ∧ Apart [((at5 0).pa, 64), ((at6 0).pa, 64)] ∧
    maps.x 13 = versioned.addr ∧ maps.x 14 = versioned.vcur ∧ isVersion versioned.vcur = true ∧
    maps.At .read (versioned.vcur - 1 + 0x20) (atD 0x20) 4 1 ∧ maps.Serves .write (versioned.vcur - 1 + 0x20) (atD 0x20) ∧
    maps.At .read (versioned.vcur - 1 + 0x10) (atD 0x10) 8 0 ∧ maps.At .read (versioned.vcur - 1 + 0x24) (atD 0x24) 1 1 ∧
    maps.At .read (versioned.vcur - 1 + 0x25) (atD 0x25) 1 4 ∧ Apart [((atD 0x20).pa, 4), ((atD 0x10).pa, 8)] ∧
    Apart [((atD 0x20).pa, 4), ((atD 0x24).pa, 1)] ∧ maps.At .read (versioned.vcur - 1) (atD 0) 8 (1 + 32 * 2 ^ 32) ∧
    maps.At .read (versioned.vcur - 1 + 0x28) (atD 0x28) 8 versioned.addr.toNat := by
  have h1 : ∀ o, o < 0x26 → maps.cachedAt .write (header.top + BitVec.ofNat 64 o) = some ((at6 0).plus o) ∧
      maps.cachedAt .read (header.top + BitVec.ofNat 64 o) = some ((at6 0).plus o) := by decide +kernel
  have h2 : ∀ o, o < 64 → maps.cachedAt .write (header.addr + BitVec.ofNat 64 o) = some ((at5 0).plus o) := by decide +kernel
  exact ⟨maps_rests, has_header, has_versioned, fun o ho => ⟨serves_cached (h1 o ho).1, serves_cached (h1 o ho).2⟩,
    fun o ho => serves_cached (h2 o ho), by
      and_intros <;> first | decide +kernel | exact serves_cached (by decide +kernel)⟩

/-- A map just published, its working top page the version's: pool and top page in memory, a leaf page at 0xB0000 that is not
fresh, and two free pages, 0x80000 on top. -/
def published : State :=
  { maps with
    l2 := store [
      (0x50000, 8, 4 + 8 * 2 ^ 8 + 16 * 2 ^ 16 + 32 * 2 ^ 32), (0x50010, 8, 0x60000), (0x50020, 8, 2 ^ 32), (0x50028, 8, 0x60001),
      (0x50038, 8, 0x50200), (0x50200, 8, 2), (0x50208, 8, 4), (0x50210, 8, 0x50300), (0x50300, 8, 0x90000), (0x50308, 8, 0x80000),
      (0x60000, 8, 1 + 32 * 2 ^ 32), (0x60024, 1, 1), (0x60040, 8, 0xB0001)] }

/-- A map with a version at 0x80000, held so many times, whose leaf page at 0xB0000 the working top page no longer uses, and a pool
with one free block and room for `cap`. -/
def superseding (refs cap : Nat) : State :=
  { maps with
    l2 := store [
      (0x50000, 8, 4 + 8 * 2 ^ 8 + 16 * 2 ^ 16 + 32 * 2 ^ 32), (0x50010, 8, 0x60000), (0x50020, 8, 2 ^ 32), (0x50028, 8, 0x80001),
      (0x50038, 8, 0x50200), (0x50200, 8, 1), (0x50208, 8, cap), (0x50210, 8, 0x50300), (0x60040, 8, 0x90003),
      (0x80000, 8, 1 + 32 * 2 ^ 32), (0x80020, 4, refs), (0x80024, 1, 1), (0x80040, 8, 0xB0001)] }

def publishedHeader : MapHeader := { header with vnum := 1, vcur := 0x60001 }
def supersedingHeader : MapHeader := { header with vnum := 1, vcur := 0x80001 }
def publishedPool : Pool := { addr := 0x50200, count := 2, cap := 4, stack := 0x50300, here := true }
def supersedingPool (cap : Nat) : Pool := { addr := 0x50200, count := 1, cap := cap, stack := 0x50300, here := true }

theorem wit_MapCopies :
    published.Rests ∧ published.HasHeader publishedHeader (at5 0) ∧ published.HasPool publishedPool (at5 0x200) ∧
    (∀ k ∈ [Kind.read, .write], published.PageAt k 0x60000 (at6 0) ∧ published.PageAt k 0x80000 (at8 0)) ∧
    published.PageAt .write 0x90000 { pa := 0x90000, attr := .cached } ∧
    published.PageAt .read (BitVec.ofNat 64 (0xB0001 / 65536 * 65536)) { pa := 0xB0000, attr := .cached } ∧
    (∀ o, o < 64 → published.Serves .write (publishedHeader.addr + BitVec.ofNat 64 o) ((at5 0).plus o)) ∧
    published.pointer (at6 0) 0 = 0xB0001 ∧ bit (leNat (published.homeRead 0x60024 1)) 0 = true ∧
    bit (leNat (published.homeRead 0x60024 1)) 2 = false ∧ leNat (published.homeRead 0x60010 8) = 0 ∧
    published.At .read (publishedPool.slot 1) (at5 0x308) 8 0x80000 ∧ published.At .read (publishedPool.slot 0) (at5 0x300) 8 0x90000 ∧
    publishedHeader.vcur = publishedHeader.top + 1 ∧ published.x 1 = publishedHeader.addr ∧ (published.x 9).toNat >>> 4 / 8192 = 0 ∧
    Apart [((at5 0).pa, 64), ((at5 0x200).pa, 24), ((at6 0).pa, 65536), ((at5 0x308).pa, 8), ((at5 0x300).pa, 8), (0x80000, 65536),
      (0x90000, 65536)] ∧
    Apart [(0xB0000, 65536), ((at5 0).pa, 64), ((at5 0x200).pa, 24), (0x80000, 65536), (0x90000, 65536)] := by
  have h : ∀ o, o < 64 → published.cachedAt .write (publishedHeader.addr + BitVec.ofNat 64 o) = some ((at5 0).plus o) := by decide +kernel
  refine ⟨rests_of (by decide +kernel), ?_, ?_, fun k hk => ?_, ?_, ?_, fun o ho => serves_cached (h o ho), ?_⟩
  · constructor <;> first | decide | exact at_cached (by decide +kernel) (by decide +kernel)
  · constructor <;> first | decide | exact serves_cached (by decide +kernel) | exact at_cached (by decide +kernel) (by decide +kernel)
  · simp only [List.mem_cons, List.not_mem_nil, or_false] at hk
    rcases hk with rfl | rfl <;>
      exact ⟨page_at (e := page 6 0x6067) (by decide +kernel), page_at (e := page 8 0x8067) (by decide +kernel)⟩
  · exact page_at (e := page 9 0x9067) (by decide +kernel)
  · exact page_at (e := page 11 0xB067) (by decide +kernel)
  · and_intros <;> first | decide +kernel | exact serves_cached (by decide +kernel)

/-- Where memory lists nothing above its first pointer, every other pointer of the version is 0. -/
theorem superseding_pointer {s : State}
    (hl : (s.l2.all fun c => decide (c.1 < 0x80048) || decide (0x90000 ≤ c.1)) = true) (hh : s.hbm = []) {j : Nat} (h0 : j ≠ 0)
    (hj : j < 8184) : s.pointer (at8 0) j = 0 := by
  have z : ∀ i, i < 8 → s.homeByte (0x80000 + 8 * (8 + j) + i) = 0 := fun i hi => by
    have n : cellGet s.l2 (0x80000 + 8 * (8 + j) + i) = none := cellGet_none fun c hc e => by
      have := List.all_eq_true.1 hl c hc
      simp only [Bool.or_eq_true, decide_eq_true_eq] at this
      omega
    unfold State.homeByte
    rw [n, hh]; rfl
  show leNat ((upTo 8).map fun i => s.homeByte (0x80000 + 0 + 8 * (8 + j) + i)) = 0
  have z0 : s.homeByte (0x80000 + 8 * (8 + j)) = 0 := z 0 (by decide)
  simp [upTo, List.range_succ, leNat, z, z0]

/-- What its reclamation frees. -/
theorem superseding_pages {refs cap : Nat}
    (p0 : (superseding refs cap).pointer (at8 0) 0 = 0xB0001 ∧ (superseding refs cap).pointer (at6 0) 0 = 0x90003)
    (hl : ((superseding refs cap).l2.all fun c => decide (c.1 < 0x80048) || decide (0x90000 ≤ c.1)) = true) (n : Nat) :
    n ∈ [0x80000, 0xB0000] ↔ n = (supersedingHeader.vcur - 1).toNat ∨ ∃ j, j < 8184 ∧
      bit ((superseding refs cap).pointer (at8 0) j) 0 = true ∧
      (superseding refs cap).pointer (at8 0) j / 65536 ≠ (superseding refs cap).pointer (at6 0) j / 65536 ∧
      n = (superseding refs cap).pointer (at8 0) j / 65536 * 65536 := by
  constructor
  · intro h
    simp only [List.mem_cons, List.not_mem_nil, or_false] at h
    rcases h with rfl | rfl
    · exact .inl (by decide)
    · exact .inr ⟨0, by decide, by rw [p0.1]; decide, by rw [p0.1, p0.2]; decide, by rw [p0.1]⟩
  · rintro (rfl | ⟨j, hj, hb, -, rfl⟩)
    · decide
    · cases Nat.eq_zero_or_pos j with
      | inl h => rw [h, p0.1]; decide
      | inr h => rw [superseding_pointer hl rfl (by omega) hj] at hb; exact absurd hb (by decide)

theorem wit_MapReclaims : ∀ x ∈ [(0, 4), (0, 2), (1, 4)], let s := superseding x.1 x.2
    s.Rests ∧ s.HasHeader supersedingHeader (at5 0) ∧ s.HasPool (supersedingPool x.2) (at5 0x200) ∧
    (∀ k ∈ [Kind.read, .write], s.PageAt k 0x60000 (at6 0) ∧ s.PageAt k 0x80000 (at8 0)) ∧
    (∀ n, n ∈ [0x80000, 0xB0000] ↔ n = (supersedingHeader.vcur - 1).toNat ∨ ∃ j, j < 8184 ∧ bit (s.pointer (at8 0) j) 0 = true ∧
      s.pointer (at8 0) j / 65536 ≠ s.pointer (at6 0) j / 65536 ∧ n = s.pointer (at8 0) j / 65536 * 65536) ∧
    leNat (s.homeRead 0x80020 4) = x.1 ∧ leNat (s.homeRead 0x80010 8) = 0 ∧ bit (leNat (s.homeRead 0x60024 1)) 0 = false ∧
    s.x 1 = supersedingHeader.addr ∧ supersedingHeader.vcur ≠ 0 ∧ [0x80000, 0xB0000].Pairwise (· < ·) ∧
    (∀ j, j < 2 → s.Serves .write ((supersedingPool x.2).slot (1 + j)) (at5 (0x308 + 8 * j)) ∧ OnePiece ((supersedingPool x.2).slot (1 + j)) 8) ∧
    Apart [((at5 0).pa, 64), ((at5 0x200).pa, 24), ((at6 0).pa, 65536), ((at8 0).pa, 65536), ((at5 0x308).pa, 8), ((at5 0x310).pa, 8)] := by
  intro x hx
  simp only [List.mem_cons, List.not_mem_nil, or_false] at hx
  rcases hx with rfl | rfl | rfl
  all_goals
    refine ⟨rests_of (by decide +kernel), ?_, ?_, fun k hk => ?_, fun n => ?_, by decide +kernel, by decide +kernel, by decide +kernel,
      by decide +kernel, by decide, by decide, fun j hj => ?_, by decide⟩
    · constructor <;> first | decide | exact at_cached (by decide +kernel) (by decide +kernel)
    · constructor <;> first | decide | exact serves_cached (by decide +kernel) | exact at_cached (by decide +kernel) (by decide +kernel)
    · simp only [List.mem_cons, List.not_mem_nil, or_false] at hk
      rcases hk with rfl | rfl <;>
        exact ⟨page_at (e := page 6 0x6067) (by decide +kernel), page_at (e := page 8 0x8067) (by decide +kernel)⟩
    · exact superseding_pages (by decide +kernel) (by decide +kernel) n
    · interval_cases j <;> exact ⟨serves_cached (by decide +kernel), by decide +kernel⟩

def pool : Pool := { addr := 0x50200, count := 2, cap := 4, stack := 0x50300, here := true }
def emptyPool : Pool := { addr := 0x50240, count := 0, cap := 0, stack := 0, here := true }

theorem has_pool : maps.HasPool pool (at5 0x200) := by
  constructor <;> first | decide | exact serves_cached (by decide +kernel) | exact at_cached (by decide +kernel) (by decide +kernel)
theorem has_emptyPool : maps.HasPool emptyPool (at5 0x240) := by
  constructor <;> first | decide | exact serves_cached (by decide +kernel) | exact at_cached (by decide +kernel) (by decide +kernel)

theorem wit_BlockPools :
    maps.Rests ∧ maps.HasPool pool (at5 0x200) ∧ maps.HasPool emptyPool (at5 0x240) ∧ maps.x 15 = pool.addr ∧
    maps.At .read (pool.slot (pool.count - 1)) (at5 0x308) 8 0x70000 ∧ maps.cur.cw.getLsbD 4 = false ∧
    maps.recordPage 1 2 = some 0x70000 ∧ maps.At .ownRead (0x70000 + 0x18) (at7 0x18) 2 0x101 ∧
    (let s := maps.onCur fun h => { h with cw := 0x12 }
     s.cur.cw.getLsbD 4 = true ∧ s.cur.cw.toNat % 16 = 2 ∧ s.arenaPage (s.cur.agent s.cur.cw) 0x70000 2 = true) ∧
    maps.Serves .ownWrite 0x70088 (at7 0x88) ∧ maps.Serves .ownWrite 0x700A8 (at7 0xA8) ∧ maps.Serves .ownWrite 0x70019 (at7 0x19) ∧
    Apart [((at5 0x200).pa, 8), ((at7 0x88).pa, 8), ((at7 0xA8).pa, 8), ((at7 0x19).pa, 1)] ∧
    maps.x 16 = emptyPool.addr ∧ (maps.x 17).toNat % 65536 = 0 ∧ maps.x 17 ≠ 0 ∧ pool.count < pool.cap ∧
    maps.Serves .write (pool.slot pool.count) (at5 0x310) ∧ OnePiece (pool.slot pool.count) 8 ∧
    Apart [((at5 0x310).pa, 8), ((at5 0x200).pa, 8)] := by
  refine ⟨maps_rests, has_pool, has_emptyPool, ?_⟩
  and_intros <;> first | decide +kernel | exact serves_cached (by decide +kernel)

theorem wit_LineageMasks :
    (∀ n, n < 64 → maps.At .ownRead (0x70000 + BitVec.ofNat 64 (0x40 + n)) (at7 (0x40 + n)) 1 (if n = 0 then 0x40 else 0)) ∧
    maps.HasView 0x50000 view ∧ view.hdr.parent = 0 ∧ maps.VectorReady ∧ maps.Rests ∧
    (maps.x 11).toNat < 16 ∧ maps.recordPage 1 (maps.x 11).toNat = some 0x70000 ∧
    maps.At .ownRead (0x70000 + 0x18) (at7 0x18) 1 1 ∧ (maps.x 2).toNat < 64 ∧ (maps.x 0).toNat < 64 ∧
    maps.Serves .ownWrite (0x70000 + 0x40 + maps.x 2) (at7 0x48) ∧ (isTile (at7 0x48).pa = true → (at7 0x48).attr.mode .fresh = .home) ∧
    (maps.cur.getV 6).tag.isInt = true ∧ maps.cur.Fits [.n32, .n64] ∧
    (∀ i, i < 2 → BitVec.ofNat 64 ((maps.cur.getV 8).elem i) = 0x50000) := by
  have h : ∀ n, n < 64 → maps.cachedAt .ownRead (0x70000 + BitVec.ofNat 64 (0x40 + n)) = some (at7 (0x40 + n)) ∧
      (OnePiece (0x70000 + BitVec.ofNat 64 (0x40 + n)) 1 ∧ maps.isRemote (at7 (0x40 + n)).pa = false ∧
        leNat (maps.homeRead (at7 (0x40 + n)).pa 1) = if n = 0 then 0x40 else 0) := by decide +kernel
  refine ⟨fun n hn => at_cached (h n hn).1 (h n hn).2, has_view, rfl, maps_ready, maps_rests, ?_⟩
  and_intros <;> first | decide +kernel | exact serves_cached (by decide +kernel)

/-- The commit of node 0 of window 2. -/
def commit : Cmd := wHart.command 2 0 4 false 0x12 (.commit 2 0)

/-- The maps, the first one of a single plane, with the commit in the engine. -/
def committing : State :=
  { maps with
    cur := { wHart with cw := 0x12 }, cmds := [commit]
    l2 := cellsWrite true maps.l2 0x50001 [0] }

def small : MapHeader := { header with geo := { lgt := 4, nplane := 0, tstride := 16, pstride := 0 } }
def places : CommitPlaces :=
  { header := at5 0, top := at6 0, record := at7 0, pool := at5 0x200, slot := at5 0x310, pointer := at6 0x40, entry := at8 0x10
    draft := fun _ => { pa := 0xB0000, attr := .cached }, tail := fun _ => { pa := 0xC0000, attr := .cached } }

theorem small_header : committing.HasHeader small (at5 0) := by
  constructor <;> first | decide | exact at_cached (by decide +kernel) (by decide +kernel)
theorem small_pool : committing.HasPool pool (at5 0x200) := by
  constructor <;> first | decide | exact serves_cached (by decide +kernel) | exact at_cached (by decide +kernel) (by decide +kernel)

theorem commits : committing.Commits small 0x70000 0 pool places 0xB000B 0x80003 0xC0001 := by
  have h1 : ∀ o, o < 64 → committing.cachedAt .write (small.addr + BitVec.ofNat 64 o) = some ((at5 0).plus o) := by decide +kernel
  have h2 : ∀ o, o < 64 → committing.cachedAt .write (small.top + BitVec.ofNat 64 o) = some ((at6 0).plus o) ∧
      committing.cachedAt .read (small.top + BitVec.ofNat 64 o) = some ((at6 0).plus o) := by decide +kernel
  have h3 : ∀ o, o < 0xE0 → committing.cachedAt .ownWrite (0x70000 + BitVec.ofNat 64 o) = some ((at7 0).plus o) ∧
      committing.cachedAt .ownRead (0x70000 + BitVec.ofNat 64 o) = some ((at7 0).plus o) := by decide +kernel
  have h4 : ∀ l, l ≤ 0 → committing.cachedAt .ownRead (small.geo.address 0xB000B 0 l) = some (places.draft l) ∧
      committing.cachedAt .write (small.geo.address 0xC0001 small.length l) = some (places.tail l) ∧
      OnePiece (small.geo.address 0xB000B 0 l) 16 ∧ OnePiece (small.geo.address 0xC0001 small.length l) 16 := by decide +kernel
  constructor
  case header => exact small_header
  case pool => exact ⟨small_pool, by decide⟩
  case headerOwn => exact fun o ho => serves_cached (h1 o ho)
  case top => exact fun o ho => ⟨serves_cached (h2 o ho).1, serves_cached (h2 o ho).2⟩
  case record => exact fun o ho => ⟨serves_cached (h3 o ho).1, serves_cached (h3 o ho).2⟩
  case planes => exact fun l hl => ⟨serves_cached (h4 l hl).1, (h4 l hl).2.2.1, serves_cached (h4 l hl).2.1, (h4 l hl).2.2.2⟩
  case slot => exact ⟨serves_cached (by decide +kernel), by decide⟩
  case tail => exact ⟨Nat.zero_le _, by decide, by decide, at6 0x40, at8 0x10, 0x80003,
    at_cached (by decide +kernel) (by decide +kernel), by decide, at_cached (by decide +kernel) (by decide +kernel), by decide⟩
  all_goals first | exact at_cached (by decide +kernel) (by decide +kernel) | decide +kernel

theorem wit_Windows :
    (∀ o, o < 0xE0 → maps.Serves .ownWrite (0xE0000 + BitVec.ofNat 64 o) ((atE 0).plus o) ∧
      maps.Serves .ownRead (0xE0000 + BitVec.ofNat 64 o) ((atE 0).plus o)) ∧
    maps.Rests ∧ maps.HasHeader header (at5 0) ∧ committing.Commits small 0x70000 0 pool places 0xB000B 0x80003 0xC0001 ∧
    maps.x 1 = header.addr ∧ (maps.x 17).toNat % 65536 = 0 ∧ (atE 0).arena = some 2 ∧
    State.recordPage { maps with launches := [{ uid := 1, record := loadRecord }] } 1 2 = none ∧
    (∀ o, o < 0xE0 → maps.homeByte ((atE 0).pa + o) = 0) ∧ maps.recordPage 1 (maps.x 2).toNat = none ∧ maps.x 18 = BitVec.ofNat 64 3 ∧
    maps.recordPage 1 3 = some 0xF0000 ∧ maps.At .ownRead (0xF0000 + 0x18) (atF 0x18) 2 1 ∧ maps.At .ownRead (0xF0000 + 8) (atF 8) 4 0 ∧
    maps.At .ownRead (0xF0000 + 0x40) (atF 0x40) 64 0 ∧ maps.Serves .ownWrite (0xF0000 + 0x18) (atF 0x18) ∧ (maps.x 2).toNat < 64 ∧
    (maps.cur.tag 63).busy = false ∧ maps.fifoFull 0 = false ∧ maps.cur.capturedHere = none ∧
    maps.At .ownRead (0xF0000 + 0x18) (atF 0x18) 1 1 ∧
    (let s := committing
     s.cmds.find? (fun x => x.uid == commit.uid) = some commit ∧ s.mayComplete commit = true ∧ commit.hart = s.cur.uid ∧
     commit.core = s.cur.core ∧ commit.sup = s.cur.status.sup ∧ commit.cw = s.cur.cw ∧ s.cur.place ≠ .absent ∧
     s.cur.wait = .awake ∧ s.recordPage s.cur.launch 2 = some 0x70000) ∧ (maps.x 2).toNat < 16 := by
  have h : ∀ o, o < 0xE0 → maps.cachedAt .ownWrite (0xE0000 + BitVec.ofNat 64 o) = some ((atE 0).plus o) ∧
      maps.cachedAt .ownRead (0xE0000 + BitVec.ofNat 64 o) = some ((atE 0).plus o) := by decide +kernel
  refine ⟨fun o ho => ⟨serves_cached (h o ho).1, serves_cached (h o ho).2⟩, maps_rests, has_header, commits, ?_⟩
  and_intros <;> first | decide +kernel | exact serves_cached (by decide +kernel)


/-! Matrix mode -/

/-- The world in matrix mode, all tiles bound: operands of tag e4m3 in v9 and v11, scales in v10 and v12, tile-buffer descriptors of
zeros. -/
def tiled : State := worldWith fun h => { h with
  status := { sup := true, matrix := true }, ltag := .e4m3, bound := 16, tiles := h.tiles.set 0 { img := 0, tag := .f32 }
  m := h.m.set 1 3
  v := (((h.v.set 9 { img := 0x38, tag := .e4m3 }).set 10 { img := 0, tag := .n8 }).set 11 { img := 0, tag := .e4m3 }).set 12
    { img := 0, tag := .n8 } }

theorem tiled_ready : tiled.MatrixReady := ⟨by decide +kernel, rfl, rfl, rfl, by decide +kernel⟩

theorem wit_MatrixMoves :
    tiled.MatrixReady ∧ tiled.Rests ∧
    (∀ u, tileUnits (tiled.cur.getM 1) u = true →
      tiled.ServesUnit .read (tiled.x 1 + BitVec.ofNat 64 (u / 32) * tiled.x 19 + BitVec.ofNat 64 (8 * (u % 32))) (at5 (8 * u)) ∧
      tiled.ServesUnit .write (tiled.x 1 + BitVec.ofNat 64 (u / 32) * tiled.x 19 + BitVec.ofNat 64 (8 * (u % 32))) (at5 (8 * u)) ∧
      isTile (at5 (8 * u)).pa = false) ∧
    (∀ u, (at5 (8 * u)).pa % 8 = 0) ∧ (∀ u v, u ≠ v → (at5 (8 * u)).pa / 8 ≠ (at5 (8 * v)).pa / 8) ∧
    (let s := worldWith fun h => { h with ltag := .e4m3 }
     s.cur.status.matrix = false ∧ s.cur.granted = true ∧ (15 : BitVec 4).toNat + 1 ≤ (s.recordOf s.cur).ntile ∧
     s.cur.ltag.isOperand = true ∧ s.pendingGroups s.cur.uid = []) ∧
    tiled.cur.status.matrix = true ∧ (tiled.cur.getT 0).tag ≠ .dead ∧ 64 * (Tag.ofCode 12).width ≤ 2048 * tiled.cur.vgrant ∧
    (tiled.cur.getV 3).tag ∈ [Tag.f32, .i32, .n32] ∧ tiled.cur.progress = {} ∧ tiled.cut = none ∧ (tiled.x 1).toNat % 8 = 0 ∧
    (tiled.x 19).toNat % 8 = 0 := by
  have few : ∀ u, tileUnits (tiled.cur.getM 1) u = true → u < 64 := fun u hu => by
    unfold tileUnits at hu
    simp only [Bool.and_eq_true, decide_eq_true_eq] at hu
    have e : tiled.cur.getM 1 = 3 := by decide +kernel
    rw [e] at hu
    have h3 : ∀ k, k < 64 → (3 : BitVec 2048).getLsbD k = true → k < 2 := by decide +kernel
    have := h3 (u / 32) (by omega) hu.2
    omega
  have h : ∀ u, u < 64 →
      tiled.unitCachedAt .read (tiled.x 1 + BitVec.ofNat 64 (u / 32) * tiled.x 19 + BitVec.ofNat 64 (8 * (u % 32))) = some (at5 (8 * u)) ∧
      tiled.unitCachedAt .write (tiled.x 1 + BitVec.ofNat 64 (u / 32) * tiled.x 19 + BitVec.ofNat 64 (8 * (u % 32))) = some (at5 (8 * u)) ∧
      isTile (at5 (8 * u)).pa = false := by decide +kernel
  refine ⟨tiled_ready, rests_of (by decide +kernel),
    fun u hu => ⟨unit_cached (h u (few u hu)).1, unit_cached (h u (few u hu)).2.1, (h u (few u hu)).2.2⟩, fun u => ?_,
    fun u v huv => ?_, by decide +kernel⟩
  · show (0x50000 + 8 * u) % 8 = 0
    omega
  · show (0x50000 + 8 * u) / 8 ≠ (0x50000 + 8 * v) / 8
    omega

theorem wit_MatrixProducts :
    (let o := mopaOperands 26 28 3 false false [0, 0, 0, 0]
     (∃ d, o.1.src = .inr d ∧ d.base % 64 = 0 ∧ d.rowPitch % 4 = 0 ∧ ∀ q, q ≤ 15 → ∀ r, r < 64 →
       d.row (o.1.at_ q) r + 4 ≤ (tiled.allocation tiled.cur).2) ∧
     ∀ q, q ≤ 15 → tagsMeet (tiled.cur.operandTag o.1 q) (tiled.cur.operandTag o.2 q) = true) ∧
    tiled.MatrixReady ∧ tiled.poison = [] ∧ tiled.issued.contains tiled.cur.core = false ∧ tiled.classify ≠ .held ∧
    (let o := mopaOperands 9 11 0 true true []
     (∀ r ∈ o.1.regs 0 ++ o.2.regs 0, r.toNat < 24) ∧ tagsMeet (tiled.cur.operandTag o.1 0) (tiled.cur.operandTag o.2 0) = true ∧
     (tiled.cur.operandTag o.1 0).isScaled = true ∧ (tiled.cur.operandTag o.2 0).isScaled = true ∧
     tiled.cur.scalesOk o.1 0 = true ∧ tiled.cur.scalesOk o.2 0 = true) ∧
    (0 : BitVec 4).toNat + (15 : BitVec 4).toNat < tiled.cur.bound ∧ Tag.isInt .i8 = true ∧ Tag.fmt .f32 = some .f32 ∧
    [0x3F800000].all Fmt.f32.isFinite = true ∧ Fmt.f32.isNanCode 0x7FC00000 = true ∧ 0x3F800000 < 2 ^ Fmt.f32.width ∧
    Fmt.f32.value 0 + 2 ^ ((0 : Int) + 0) * (([0x3F800000].zip [0x3F800000]).map fun e => Fmt.f32.value e.1 * Fmt.f32.value e.2).sum =
      (if false then -1 else 1) * (((1 : Nat) : Rat) * 2 ^ (0 : Int)) :=
  ⟨⟨⟨_, rfl, by decide +kernel⟩, by decide +kernel⟩, tiled_ready, rfl, by decide +kernel⟩

/-! The copy engine and streams -/

def other : Hart := { uid := 2, launch := 1, index := 1, place := .resident 0 1, held := 0 }

/-- The world with a second hart of the launch on the core and an allocation on core 1. -/
def pair : State :=
  { world with
    rest := [other]
    launches := world.launches.map fun l => { l with allocs := l.allocs ++ [{ group := 1, core := 1, base := 0 }] } }

/-- A copy of 8 bytes, and a register for the other hart, in the engine. -/
def copying : Cmd := wHart.command 5 0 1 false 0 (.copy 0x50100 0x50000 8)
def sending : Cmd := wHart.command 6 63 1 true 0 (.register 2 5 0x3F800000 .f32 2 [])

/-- One page at a page start. -/
theorem one_page {va len a : Nat} {P : Nat → Prop} (h : pageStarts va len = [a]) (hp : P a) : ∀ v ∈ pageStarts va len, P v := by
  intro v hv
  rw [h, List.mem_singleton] at hv
  rw [hv]; exact hp

theorem wit_CopyCommands :
    (∀ v ∈ pageStarts (pair.x 1).toNat (pair.x 2).toNat, inWindow (BitVec.ofNat 64 v) = false ∧
      ∃ p, pair.Serves .read (BitVec.ofNat 64 v) p) ∧
    (∀ v ∈ pageStarts (pair.x 3).toNat (pair.x 2).toNat, inWindow (BitVec.ofNat 64 v) = false ∧
      ∃ p, pair.Serves (engineKind pair.cur.cw) (BitVec.ofNat 64 v) p) ∧
    (∀ v ∈ pageStarts (pair.x 1).toNat (8 * fillBytes pair.cur.ltag pair.cur.vlen), inWindow (BitVec.ofNat 64 v) = false ∧
      ∃ p, pair.Serves .read (BitVec.ofNat 64 v) p) ∧
    (∃ l, pair.launch? 1 = some l ∧ l.allocs.any (fun c => c.core == (pair.x 4).toNat) = true) ∧
    (∃ (s : State) (cap : Captured), s.Quiet ∧ s.cur.Delivers ∧ s.cur.place ≠ .absent ∧ s.fifoFull s.cur.core = false ∧
      (s.cur.tag 63).busy = false ∧ s.cur.wait = .push 63 1 true (.copy 0 0 8) true 0 0 ∧ s.cur.capturedHere = some cap ∧
      cap.cw = s.cur.cw) ∧
    pair.Quiet ∧ pair.cur.Delivers ∧ pair.VectorReady ∧ pair.cur.capturedHere = none ∧ pair.fifoFull 0 = false ∧
    (pair.cur.tag 63).busy = false ∧ (pair.x 2).toNat ≤ 0x1000000 ∧ pair.cur.ltag ≠ .dead ∧ pair.cur.Fits [pair.cur.ltag] ∧
    (24 : BitVec 5).toNat + (7 : BitVec 3).toNat < 32 ∧ pair.copyTarget (pair.x 19) 5 = some other ∧ pair.hart? 2 = some other ∧
    other.wait = .awake ∧ other.midway = false ∧ pair.cur.place ≠ .absent ∧ (pair.cur.getV 3).tag ≠ .dead ∧
    (pair.x 4).toNat ≠ pair.cur.core ∧ (pair.x 0).toNat + (pair.x 2).toNat ≤ (pair.allocation pair.cur).2 ∧
    (let h := { pair.cur with tags := pair.cur.tags.set 63 { busy := true } }
     h.capturedHere = none ∧ (h.tag 63).busy = true) ∧
    (let s := { pair with cmds := List.replicate 68 copying }
     s.fifoFull 0 = true ∧ (s.cur.tag 63).busy = false) ∧
    (let s := pair.onCur fun h => { h with
       wait := .push 63 1 true (.copy (h.getX 3) (h.getX 1) (h.getX 2).toNat) false 0 0
       tags := h.tags.set 63 { busy := true }, captured := [{ pc := 0x40000 }], resumed := true }
     s.cur.wait = .push 63 1 true (.copy (s.x 3) (s.x 1) (s.x 2).toNat) false 0 0 ∧ s.cur.capturedHere = some { pc := 0x40000 } ∧
     (s.cur.tag 63).busy = true) ∧
    pair.cur.granted = true ∧ (∀ p ∈ pair.pendingGroups other.uid, p.1 ≠ 5) ∧
    (let t := { other with midway := true }
     t.midway = true ∧ State.copyTarget { pair with rest := [t] } (pair.x 19) 5 = some t) := by
  have hs : ∃ p, pair.Serves .read 0x50000 p := ⟨at5 0, serves_cached (by decide +kernel)⟩
  refine ⟨one_page (a := 0x50000) (by decide +kernel) ⟨by decide +kernel, hs⟩,
    one_page (a := 0x50100) (by decide +kernel) ⟨by decide +kernel, at5 0x100, serves_cached (by decide +kernel)⟩,
    one_page (a := 0x50000) (by decide +kernel) ⟨by decide +kernel, hs⟩, ⟨_, rfl, by decide +kernel⟩,
    ⟨worldWith fun h => { h with wait := .push 63 1 true (.copy 0 0 8) true 0 0, captured := [{ pc := 0x40000 }], resumed := true }, { pc := 0x40000 },
      ⟨rfl, rfl, rfl⟩, ⟨rfl, rfl⟩, by decide +kernel⟩, ⟨rfl, rfl, rfl⟩, ⟨rfl, rfl⟩, ready_of (by decide +kernel), by decide +kernel⟩

/-- A fill of two registers, a copy into core 1's allocation, a copy from an address without a page, and a register in error. -/
def filling : Cmd := wHart.command 5 0 1 false 0 (.fill 5 2 0x50000 .i32 2)
def buffering : Cmd := wHart.command 5 0 1 false 0 (.tileBuffer 1 64 8)
def failing : Cmd := wHart.command 5 0 1 false 0 (.copy 0x50100 0x90000 8)
def damaged : Cmd := wHart.command 5 0 1 false 0 (.register 2 5 0 .f32 2 [7])

/-- The other hart while it waits for its register, of tag f32. -/
def receiving : Hart := other.setV 5 { img := 0, tag := .f32 }

theorem wit_CopiesComplete :
    let s := { pair with cmds := [copying] }
    let t := { pair with cmds := [sending], rest := [receiving] }
    s.Rests ∧
    (∀ i, i < 8 → s.Serves .read (0x50000 + BitVec.ofNat 64 i) ((at5 0).plus i) ∧
      s.Serves .write (0x50100 + BitVec.ofNat 64 i) ((at5 0x100).plus i)) ∧
    s.cmds.find? (fun x => x.uid == 7) = none ∧ s.cmds.find? (fun x => x.uid == copying.uid) = some copying ∧
    s.mayComplete copying = true ∧ copying.hart = s.cur.uid ∧ s.cur.place ≠ .absent ∧ s.cur.wait = .awake ∧
    copying.core = s.cur.core ∧ copying.sup = s.cur.status.sup ∧ copying.cw = s.cur.cw ∧ copying.pieces = [] ∧ copying.loaded = [] ∧
    Apart [((at5 0).pa, 8), ((at5 0x100).pa, 8)] ∧
    t.cmds.find? (fun x => x.uid == sending.uid) = some sending ∧ t.mayComplete sending = true ∧ t.hart? 2 = some receiving ∧
    receiving.wait = .awake ∧ receiving.getV 5 = { img := 0, tag := .f32 } ∧ receiving.vbad = [] ∧
    State.mayComplete { pair with cmds := [copying, sending] } sending = false ∧
    (let u := pair.onCur fun h => (h.setV 5 { img := 0, tag := .i32 }).setV 6 { img := 0, tag := .i32 }
     (∀ j, j < 2 → u.cur.getV (BitVec.ofNat 5 (5 + j)) = { img := 0, tag := .i32 }) ∧ u.Rests ∧
     (∀ i, i < 2 * fillBytes .i32 2 → u.Serves .read (0x50000 + BitVec.ofNat 64 i) ((at5 0).plus i)) ∧
     5 + 2 ≤ 32 ∧ Tag.width .i32 * 2 ≤ 16384 ∧ State.mayComplete { u with cmds := [filling] } filling = true) ∧
    (∃ l, pair.launch? 1 = some l ∧ l.allocs.find? (fun z => z.core == 0) = some { group := 0, core := 0, base := 0 } ∧
      l.allocs.find? (fun z => z.core == 1) = some { group := 1, core := 1, base := 0 }) ∧
    Apart [(tileAddr 0 0 64, 8), (tileAddr 0 1 64, 8)] ∧
    (∀ c ∈ [buffering, failing, damaged], State.mayComplete { pair with cmds := [c] } c = true) ∧
    pair.xlate (wHart.agent 0) .read 0x90000 = (.error 0x04, pair) ∧ 7 < 64 ∧ 7 < fillBytes .f32 2 := by
  have f : ∀ i, i < 16 → State.cachedAt (pair.onCur fun h => (h.setV 5 { img := 0, tag := .i32 }).setV 6 { img := 0, tag := .i32 }) .read
      (0x50000 + BitVec.ofNat 64 i) = some ((at5 0).plus i) := by decide +kernel
  have h : ∀ i, i < 8 → State.cachedAt { pair with cmds := [copying] } .read (0x50000 + BitVec.ofNat 64 i) = some ((at5 0).plus i) ∧
      State.cachedAt { pair with cmds := [copying] } .write (0x50100 + BitVec.ofNat 64 i) = some ((at5 0x100).plus i) := by decide +kernel
  refine ⟨rests_of (by decide +kernel), fun i hi => ⟨serves_cached (h i hi).1, serves_cached (h i hi).2⟩, ?_⟩
  refine ⟨by decide +kernel, by decide +kernel, by decide +kernel, by decide +kernel, by decide +kernel, by decide +kernel,
    by decide +kernel, by decide +kernel, by decide +kernel, by decide +kernel, by decide +kernel, by decide +kernel,
    by decide +kernel, by decide +kernel, by decide +kernel, by decide +kernel, by decide +kernel, by decide +kernel, by decide +kernel,
    ⟨by decide +kernel, rests_of (by decide +kernel), fun i hi => serves_cached (f i hi), by decide +kernel⟩,
    ⟨_, rfl, by decide +kernel, by decide +kernel⟩, by decide +kernel⟩

/-- Tag 63 has failed, tag 0 is busy. -/
def tagging : State := worldWith fun h => { h with
  tags := (h.tags.set 63 { errpend := true, err := true, cause := 0x04, addr := 0x90000 }).set 0 { busy := true }
  tagmap := 0x8000000000000000 }

theorem wit_TagWaits :
    tagging.Rests ∧ tagging.cur.tagmap &&& tagging.x 6 ≠ 0 ∧ (tagging.cur.tag 63).errpend = true ∧
    (∀ i, i < 63 → (tagging.x 6).getLsbD i = true → (tagging.cur.tag i).errpend = false) ∧ tagging.cur.handles ∧
    (tagging.cur.tag 63).cause ≠ 0x0D ∧ (tagging.x 4).getLsbD 0 = true ∧ (tagging.cur.tag 0).busy = true ∧
    tagging.cur.tagmap &&& tagging.x 4 = 0 ∧ (∀ n, n < 64 → (tagging.x 6).getLsbD n = true → (tagging.cur.tag n).busy = false) ∧
    (∀ n, n < 64 → (tagging.cur.tagmap &&& tagging.x 4).getLsbD n = true → (tagging.cur.tag n).errpend = false) ∧
    (worldWith fun h => { h with wait := .tagAny 1 1 }).cur.place ≠ .absent ∧
    (worldWith fun h => { h with tagmap := 1 }).cur.tagmap.getLsbD 0 = true ∧
    (tagging.cur.tag 63).doneAt ≠ some tagging.cycle ∧ (world.cur.tagDone 3 0 world.cycle).tags[3].doneAt = some world.cycle := by
  exact ⟨rests_of (by decide +kernel), by decide +kernel⟩

/-- A descriptor at 0x50400 (16 elements of f32 from 0x50000, one KiB of strip buffer), and slot 0 configured by it, slot 1 with an
element there, slot 2 dry. -/
def streaming : State :=
  let q : StreamSlot := { cfg := true, base := 0x50000, stride := 4, length := 16, tag := .f32, sbuf := 1, sup := true }
  { worldWith fun h => { h with slots := ((h.slots.set 0 q).set 1 { q with avail := 1, landed := [(0, 0x50000)], soff := 1024 }).set 2 { q with soff := 2048 } } with
    l2 := store [(0x50400, 8, 0x50000), (0x50408, 8, 4), (0x50410, 8, 16 + 11 * 2 ^ 32 + 2 ^ 48)] }

theorem wit_Streams :
    streaming.Rests ∧ streaming.VectorReady ∧ streaming.At .read 0x50400 (at5 0x400) 8 0x50000 ∧
    streaming.At .read 0x50408 (at5 0x408) 8 4 ∧ streaming.At .read 0x50410 (at5 0x410) 8 (16 + 11 * 2 ^ 32 + 2 ^ 48) ∧
    streaming.At .read 0x50418 (at5 0x418) 8 0 ∧ streaming.At .read ((streaming.cur.slot 0).address 0) (at5 0) 4 0 ∧
    (streaming.x 23).toNat % 32 = 0 ∧ 0 + 1024 * 1 ≤ (streaming.allocation streaming.cur).2 ∧
    (streaming.cur.slot 0).cfg = true ∧ (streaming.cur.slot 3).cfg = false ∧ streaming.cur.handles ∧ streaming.cur.isResident = true ∧
    (streaming.cur.slot 0).due = true ∧ (streaming.cur.slot 0).cw = streaming.cur.cw ∧ (streaming.cur.slot 0).sup = true ∧
    (∀ i, i < 4 → isTile (tileAddr streaming.pkg 0 ((streaming.allocation streaming.cur).1 + (streaming.cur.slot 0).offset 0) + i) = true) ∧
    streaming.cur.Fits [.f32] ∧ streaming.poison = [] ∧ (streaming.cur.slot 1).avail ≠ 0 ∧
    streaming.undisturbed 1 (streaming.cur.slot 1) 0 (streaming.homeRead (tileAddr 0 0 1024) 4) = true ∧
    (streaming.cur.slot 2).avail = 0 ∧ (streaming.cur.slot 2).fault = none := by
  refine ⟨rests_of (by decide +kernel), ready_of (by decide +kernel), ?_⟩
  and_intros <;> first | decide +kernel | exact serves_cached (by decide +kernel)

/-! Queues, barriers, the lead and tides -/

/-- The pair with a queue register 3 that the hart in front produces, or consumes. -/
def queueing (front : Bool) (data : List Word) : State :=
  { pair with queues := [{ core := some 0, q := 3, data := data, launch := 1, prod := if front then 0 else 1, cons := if front then 1 else 0 }] }

theorem wit_Queues :
    (∃ x, (queueing true (List.replicate 31 5)).queue? 0 3 = some x ∧ x.launch = 1 ∧ x.prod = 0 ∧ x.cons = 1 ∧
      x.producedBy wHart = true ∧ x.consumedBy wHart = false ∧ x.data.length < 32) ∧
    (∃ x, (queueing true (List.replicate 32 5)).queue? 0 3 = some x ∧ x.producedBy wHart = true ∧ 32 ≤ x.data.length) ∧
    (∃ x, (queueing false []).queue? 0 3 = some x ∧ x.consumedBy wHart = true ∧ x.producedBy wHart = false ∧ x.data = [] ∧
      (x.prod, x.cons) ≠ (0, 1)) ∧
    (∃ x, (queueing false [5]).queue? 0 3 = some x ∧ x.data = 5 :: []) ∧
    (∃ x : QReg, x.launch = 2 ∧ State.queue? { pair with queues := [{ x with core := some 0, q := 3 }] } 0 3 =
      some { x with core := some 0, q := 3 }) ∧
    (queueing true []).Quiet ∧
    (let s := queueing true []
     s.cur.early = [] ∧ s.cur.lostWrites = [] ∧ s.mustLeave s.cur = false ∧ s.cur.place ≠ .absent) ∧
    pair.placedHere pair.cur (pair.x 0).toNat = true ∧ pair.placedHere pair.cur (pair.x 4).toNat = true ∧ pair.x 0 ≠ pair.x 4 ∧
    pair.cur.index = (pair.x 0).toNat ∧ pair.queue? 0 3 = none ∧ pair.cur.handles :=
  ⟨⟨_, rfl, by decide +kernel⟩, ⟨_, rfl, by decide +kernel⟩, ⟨_, rfl, by decide +kernel⟩, ⟨_, rfl, rfl⟩,
    ⟨{ core := none, q := 0, launch := 2, prod := 0, cons := 1 }, rfl, rfl⟩, ⟨rfl, rfl, rfl⟩, by decide +kernel⟩

/-- The world with an instance of slot 0 (package scope is 4) and the hart's own state for it. -/
def barred (scope : BitVec 3) (x : BarInst) (b : HartBar) : State :=
  { worldWith fun h => { h with bars := h.bars.set 0 b } with
    launches := world.launches.map fun l => { l with bars := l.bars.set 0 { scope := scope, insts := [x] } } }

def inst (e a : BitVec 32) : BarInst := { key := 2 ^ 17, e := e, a := a, init := 1 }
def sleeper : Hart := { other with bars := (Vector.replicate 16 {}).set 0 { init := 1, pending := true, member := true }, wait := .barrier 0 }

/-- Instance of an ended phase whose group of one cluster wakes at time 5. -/
def ended : BarInst := { inst 2 0 with p := 1, groups := [{ phase := 0, size := 1, group := 0, time := 5, sleepers := [1] }] }
def lapsing : State :=
  { (barred 1 ended { init := 1, pending := true, member := true }).onCur fun h =>
      { h with wait := .barrier 0, syncArrived := [(0x40000, 0)], resumed := true } with
    shore := 5 }

theorem wit_Barriers :
    (∃ l, world.launch? 1 = some l) ∧ world.Quiet ∧ world.Rests ∧ world.NoSleepers 0 ∧ lapsing.NoSleepers 0 ∧
    world.Serves .atomic (world.x 1) (at5 0) ∧
    (let x := { inst 1 1 with due := some (0, 0) }
     let s := barred 1 x { init := 1 }
     ∃ l, s.launches = [l] ∧ s.launch? s.cur.launch = some l ∧ (s.barOf s.cur 0).1.insts = [x] ∧ x.due.isSome = true ∧
       (∀ y ∈ (s.barOf s.cur 0).1.insts, y.groups = []) ∧
       ∀ j : Fin 16, ∀ y ∈ (l.bar (BitVec.ofNat 4 j)).insts, y.due.isSome = true → BitVec.ofNat 4 j = (0 : BitVec 4) ∧ y = x) ∧
    world.cur.place ≠ .absent ∧ world.cur.early = [] ∧ world.cur.lostWrites = [] ∧
    (4 : BitVec 3).toNat ≤ 4 ∧ 1 ≤ (world.x 4).toNat ∧ (world.x 19).toNat ≤ 2048 ∧
    (let x := (world.barOf wHart 15).2
     (world.barOf wHart 15).1.insts = [] ∧ x.e = 0 ∧ x.arrivedAt ≠ some world.cycle ∧ x.droppedAt ≠ some world.cycle) ∧ world.cur.wait = .awake ∧
    (let s := barred 1 (inst 2 1) { init := 1 }
     let h := s.cur.barState 0 (inst 2 1)
     (s.barOf s.cur 0).2 = inst 2 1 ∧ (inst 2 1).e ≠ 0 ∧ h.dropped = false ∧ h.pending = false ∧
     (inst 2 1).arrivedAt ≠ some s.cycle ∧ s.cur.arrivedHere ≠ some 0) ∧
    (let x := { inst 2 2 with due := some (0, 0) }
     let s := { barred 1 x { init := 1 } with rest := [sleeper] }
     (s.barOf s.cur 0).2 = x ∧ x.e ≠ 0 ∧ x.e ≤ x.a ∧ (s.barOf s.cur 0).1.scope ≠ 4 ∧ sleeper.uid ≠ s.cur.uid ∧
     sleeper.isResident = true ∧ sleeper.launch = s.cur.launch ∧ sleeper.wait = .barrier 0 ∧ (s.barOf sleeper 0).2.key = x.key ∧
     (sleeper.barState 0 x).phase = x.p ∧ sleeper.early = []) ∧
    (let s := lapsing
     let h := s.cur.barState 0 ended
     (s.barOf s.cur 0).2 = ended ∧ h.pending = true ∧ h.phase ≠ ended.p ∧ s.cur.isResident = true ∧
     (s.launch? 1).map (fun l => (l.bar 0).insts) = some [ended] ∧
     ended.groups = [{ phase := s.cur.bars[(0 : BitVec 4).toNat].phase, size := 1, group := s.cur.clusterNo / 1, time := 5, sleepers := [s.cur.uid] }] ∧ 5 ≤ s.shore.toNat ∧
     s.cur.arrivedHere = some 0) ∧
    ((barred 1 (inst 2 1) { init := 1, pending := true }).cur.barState 0 (inst 2 1)).phase = (inst 2 1).p ∧
    (world.x 1).toNat % 8 = 0 :=
  ⟨⟨_, rfl⟩, world_quiet, world_rests, (fun _ h => nomatch h), (fun _ h => nomatch h), serves_cached (by decide +kernel),
    ⟨_, rfl, by decide +kernel, by decide +kernel, by decide, by decide +kernel, by decide +kernel⟩, by decide +kernel⟩

theorem wit_LeadHart :
    let s := { fetching 0x04A63800 with cur := { wHart with
      leadActive := true, lead := { pc := 0x40000, xValid := BitVec.allOnes 32 } } }
    let w := (s.codeWord s.cur.launch 0x40000).1
    s.cur.place ≠ .absent ∧ s.cur.lead.vlLen = none ∧ s.cur.isResident = true ∧ s.cur.leadActive = true ∧ s.cur.leadStopped = false ∧
    s.cur.lead.buffer.length < 512 ∧ s.cur.lead.pc &&& 3 = 0 ∧
    s.peekXlate (s.cur.agent 0) .fetch s.cur.lead.pc = some ({ pa := 0x40000, attr := .cached }, true) ∧
    s.badByte 0 .home 0x40000 4 = false ∧ fld w 26 6 = 1 ∧ decodeMajor01 w = .ok (.add 5 6 7) ∧
    s.cur.lead.getX 6 = some 0 ∧ s.cur.lead.getX 7 = some 0 ∧ (5 : BitVec 5) ≠ 0 ∧
    s.peekXlate (s.cur.agent 0) .fetch 0x90000 = none := by decide +kernel

/-- A declaration that begins at cycle 80. -/
def declared (on : Bool) : Declaration := { issue := 0, onset := 80, duration := 16, intensity := 4, fullReady := false, active := on }

theorem wit_Tides :
    (let dur := min (world.x 2).toNat 16777215
     let k := min (4 : BitVec 6).toNat (world.recordOf wHart).tide
     dur ≠ 0 ∧ k ≠ 0 ∧ world.outOfTurn = false ∧ ({ world with asked := [(0, 255)] } : State).outOfTurn = true ∧ min (4 : BitVec 6).toNat (world.recordOf wHart).tide ≤ 16) ∧
    min (world.x 0).toNat 16777215 = 0 ∧ world.cur.tide.decl = none ∧
    (let s := fun c => { worldWith fun h => { h with tide := { h.tide with decl := some (declared false) }, wait := .tidewait 1 0 } with cycle := c }
     (s 0).cycle < (declared false).start ∧ (declared false).start ≤ (s 80).cycle ∧ (s 80).cur.place ≠ .absent ∧
     (s 80).cur.wait = .tidewait 1 0 ∧ (declared false).start - (s 0).cycle < 2 ^ 32 ∧ (declared false).over ≤ (s 1000).cycle ∧
     (s 128).cycle % 64 = 0 ∧ (s 128).cur.isResident = true) ∧ world.lighthouse.phase = .running ∧ world.part? 0 = some loadPart := by
  decide +kernel

/-! Tasks and the scheduler -/

/-- A launch record of two harts at 0x50400, and one of none at 0x50440; both count at 0x50500. -/
def launching : State :=
  { world with l2 := store [
      (0x50400, 8, 0x40000), (0x50410, 8, 2 + 0x01080001 * 2 ^ 32), (0x50420, 8, 0x50500), (0x50428, 8, 16 * 2 ^ 32),
      (0x50460, 8, 0x50500), (0x50468, 8, 16 * 2 ^ 32)] }

def goodRec : LaunchRec := LaunchRec.ofBytes (launching.homeRead 0x50400 64)
def badRec : LaunchRec := LaunchRec.ofBytes (launching.homeRead 0x50440 64)

/-- The launches with a spawn queue of one record at 0x50600, empty or full. -/
def spawning (full : Bool) : State :=
  { launching with launches := world.launches.map fun l =>
      { l with
        record := { l.record with spawnq := 0x50600 }
        spawn := some { capacity := 1, high := 1, low := 0, records := if full then [9] else [] } } }

theorem launching_rests : launching.Rests := rests_of (by decide +kernel)

/-- A record that the caches serve. -/
theorem record_of {s : State} {va : Word} {r : LaunchRec} {p q : Phys}
    (h : va.toNat % 64 = 0 ∧ s.cachedAt .read va = some p ∧ s.isRemote p.pa = false ∧ r = LaunchRec.ofBytes (s.homeRead p.pa 64) ∧
      r.done.toNat % 8 = 0 ∧ s.cachedAt .write r.done = some q ∧ r.spawnq = 0) : s.HasRecord va r p q :=
  let ⟨a, served, here, bytes, b, counter, q⟩ := h
  ⟨a, serves_cached served, here, bytes, ⟨b, serves_cached counter⟩, q⟩

/-- The spawn queue area lies in page 5. -/
theorem area_served {b : Bool} {l : Launch} (h : (spawning b).launch? 1 = some l) :
    (spawning b).ServesArea l 1 fun o => at5 (0x600 + o) := by
  have e : ∀ o ∈ 0x0C :: (upTo 1).map (fun k => 64 * (k + 1)),
      (spawning b).serves { core := 0, part := l.record.part, launch := l.uid, sup := true, cw := 0 } .ownWrite
        (l.record.spawnq + BitVec.ofNat 64 o) (page 5 0x5067) = true ∧
      Met.phys { level := 3, entry := 0x5067, addr := 0x30028 } (l.record.spawnq + BitVec.ofNat 64 o).toNat = at5 (0x600 + o) := by
    cases b <;> cases h <;> decide +kernel
  exact fun o t ho ht hl => (xlate_everywhere (e o ho).1 ht hl).trans (congrArg (fun p => (Except.ok p, t)) (e o ho).2)

theorem wit_Launches :
    launching.Rests ∧ (∀ b, (spawning b).Rests) ∧ launching.HasRecord (launching.x 23) goodRec (at5 0x400) (at5 0x500) ∧
    launching.HasRecord (launching.x 24) badRec (at5 0x440) (at5 0x500) ∧
    (∀ b, (spawning b).HasRecord ((spawning b).x 23) goodRec (at5 0x400) (at5 0x500)) ∧
    (∀ b, (spawning b).HasRecord ((spawning b).x 24) badRec (at5 0x440) (at5 0x500)) ∧
    (∀ b, ∃ l, (spawning b).launch? 1 = some l ∧ (spawning b).ServesArea l 1 fun o => at5 (0x600 + o)) ∧
    launching.part? goodRec.part = some loadPart ∧ launching.failureBits goodRec true none true = 0 ∧ launching.failureBits badRec true none true ≠ 0 ∧
    (∀ b, (spawning b).failureBits goodRec true (some 0) true = 0 ∧ (spawning b).failureBits badRec true (some 0) true ≠ 0 ∧
      (spawning b).launch? (spawning b).nextUid = none ∧ (spawning b).cur.capturedHere = none) ∧
    ((spawning true).launch? 1).bind (·.spawn) = some { capacity := 1, high := 1, low := 0, records := [9] } ∧
    ((spawning false).launch? 1).bind (·.spawn) = some { capacity := 1, high := 1, low := 0 } ∧
    ((spawning false).onCur fun h => { h with wait := .spawn goodRec none }).cur.place ≠ .absent ∧ ∀ b, (spawning b).AreasKept := by
  refine ⟨launching_rests, fun b => ?_, record_of (by decide +kernel), record_of (by decide +kernel), fun b => ?_, fun b => ?_,
    fun b => ?_, by decide +kernel, by decide +kernel, by decide +kernel, by decide +kernel, by decide +kernel, by decide +kernel,
    by decide +kernel, fun b => ?_⟩
  · cases b <;> exact rests_of (by decide +kernel)
  · cases b <;> exact record_of (by decide +kernel)
  · cases b <;> exact record_of (by decide +kernel)
  · cases b <;> exact ⟨_, rfl, area_served rfl⟩
  · intro l hl q hq
    cases b <;> cases List.mem_singleton.1 hl <;> cases hq <;> exact ⟨rfl, rfl, List.not_mem_nil⟩

/-- A state with the world's translation cache counts an exit at 0x50000. -/
theorem counts_there {t : State} (ht : t.tlb = world.tlb) (hl : t.lighthouse = world.lighthouse) :
    t.xlate { core := 0, part := 0, launch := 1, sup := true, cw := 0 } .write 0x50000 = (.ok (at5 0), t) :=
  (xlate_everywhere (e := page 5 0x5067) (by decide +kernel) ht hl).trans (congrArg (fun p => (Except.ok p, t)) (by decide))

/-- The world with a run-queue entry, of class 1, of a launch that has not started. -/
def waiting : State :=
  { world with
    launches := world.launches ++ [{ uid := 2, record := { loadRecord with prio := 1, args := 7 } }]
    runq := [{ part := 0, cls := 1, launch := 2, since := 0 }] }

def finished (n : Nat) : Launch := { uid := 1, record := { loadRecord with nharts := n }, placed := 1 }

theorem wit_TaskControl :
    world.Rests ∧
    (∀ t : State, t.tlb = world.tlb → t.lighthouse = world.lighthouse →
      t.xlate { core := 0, part := 0, launch := 1, sup := true, cw := 0 } .write (finished 1).record.done = (.ok (at5 0), t)) ∧
    (∀ n, State.launch? { world with launches := [finished n] } 1 = some (finished n) ∧ (finished n).allocs = [] ∧
      (finished n).stowed = [] ∧ (finished n).spawn = none ∧ ∀ m ∈ [finished n], m.uid = (finished n).uid → m = finished n) ∧
    world.entryWaits = false ∧ waiting.noPreempt waiting.cur = false ∧ waiting.entryWaits = true ∧ waiting.pendingCmds 1 = false ∧
    waiting.leavingError = none ∧ State.ownCmds { world with cmds := [copying] } 1 = true ∧ world.ownCmds 1 = false ∧
    world.queues = [] ∧ (∀ i : Fin 16, world.cur.bars[i].member = false) ∧
    (finished 2).exited + 1 < (finished 2).record.nharts ∧ (finished 1).exited + 1 = (finished 1).record.nharts ∧
    (∀ w : Fin 16, (finished 1).dir[w] = none) ∧ (finished 1).record.done.toNat % 8 = 0 ∧
    (let parked := { other with place := .parked false, handle := 0x100000 }
     parked.uid ≠ world.cur.uid ∧
     [parked].find? (fun g => g.place == .parked false && g.part == 0 && g.handle == (world.x 25).toNat) = some parked) ∧
    (let s := worldWith fun h => { h with lostWrites := [(0x90000, true)] }
     s.lostCount.or s.releaseError = some 0x90000 ∧ s.ownCmds 1 = false) ∧
    world.cur.status.sup = true ∧ world.cur.handles :=
  ⟨world_rests, fun _ => counts_there, fun _ => ⟨rfl, rfl, rfl, rfl, fun _ h _ => List.mem_singleton.1 h⟩, by decide +kernel⟩

/-- A hart of the world's launch that has left its core, on the resume list of class 0. -/
def savedHart : Hart := { other with place := .saved, handle := 0x100000 }
def returning : State :=
  { world with
    rest := [savedHart], launches := [{ uid := 1, record := loadRecord, placed := 1 }]
    cur := { wHart with launch := 3, uid := 7 }
    resumeq := [{ part := 0, cls := 0, harts := [2], since := 0 }]
    l2 := store [(0x100160, 8, 1)] }

/-- No launch has a spawn queue. -/
theorem areas_kept {s : State} (h : s.launches.all (fun l => l.spawn.isNone) = true) : s.AreasKept := fun l hl q hq => by
  have := List.all_eq_true.1 h l hl
  rw [Option.mem_def.1 hq] at this
  cases this

theorem wit_Scheduling :
    (∃ l e x k, waiting.nextEntry 0 5 = some (e, [(5, (k, [0]))]) ∧ e.source = .run x ∧ waiting.launch? e.launch = some l) ∧
    (∃ l e y k, returning.nextEntry 0 5 = some (e, [(5, (k, [2]))]) ∧ e.source = .resume y ∧ y.harts.contains 2 = true ∧
      returning.launch? e.launch = some l ∧ l.record.tbuf = 0) ∧
    (∃ p x, waiting.part? 0 = some p ∧ waiting.runq.find? (fun e => e.part == 0 && e.cls == 1) = some x ∧ p.agetime ≠ 0 ∧
      p.agetime.toNat ≤ ((100000 : Word) - x.since).toNat) ∧
    (let s := { world with parts := [{ loadPart with cores := [5] }] }
     ∃ q, s.parts.find? (fun p => p.cores.contains 5) = some q ∧ s.partLives q.id = true ∧ (∀ d ∈ q.cores, d = 5) ∧ q.otherPackages = []) ∧
    world.Rests ∧ waiting.AreasKept ∧ returning.AreasKept ∧
    waiting.lighthouse.phase = .running ∧ waiting.partOfCore 5 = some loadPart ∧ (waiting.residents 5 []).length < 8 ∧
    returning.hart? 2 = some savedHart ∧ savedHart.part = loadPart.id ∧ returning.areaError savedHart = none ∧
    returning.editError savedHart = none ∧ returning.areaKept savedHart = true ∧ world.cur.isResident = true ∧
    (7 : BitVec 4).toNat < (world.recordOf wHart).lgmax ∧
    (let s := { world with reclaims := [{ hart := 1, leave := 0, victim := true, due := true }] }
     s.mustLeave s.cur = true ∧ s.cur.wait = .awake ∧ s.pendingCmds 1 = false ∧ s.cur.saveMeetsError = false ∧
     s.cur.handle % 0x80000 = 0 ∧ isHbm s.cur.handle = true) ∧
    (let s := { world with parts := [loadPart, { loadPart with id := 1, cores := [] }] }
     s.moving = none ∧ s.part? 1 ≠ none ∧ s.part? 0xFFFF = none ∧ s.parts.find? (fun p => p.cores.contains 5) = some loadPart ∧
     ¬ ∀ d ∈ loadPart.cores, d = 5) ∧
    (let s := { world with moving := some (5, 0) }
     ∀ g ∈ s.harts, g.isResident = true → g.core ≠ 5) :=
  ⟨⟨_, _, _, _, rfl, rfl, rfl⟩, ⟨_, _, _, _, rfl, rfl, rfl, rfl, rfl⟩, ⟨_, _, rfl, rfl, by decide⟩, ⟨_, rfl, by decide +kernel⟩,
    world_rests, areas_kept (by decide +kernel), areas_kept (by decide +kernel), by decide +kernel⟩

/-! The world outside -/

theorem wit_BringUp :
    (∀ i : FirmwareImage, Config.imageVerifies 0 i.signature i.version i.digest = true → Lighthouse.select { slot0 := some i } = some 0) ∧
    Lighthouse.select { slot0 := none } = none ∧ ({} : Lighthouse).joined = [({} : Lighthouse).package.toNat] ∧
    (let l : Lighthouse := { package := 5, selfTest := { met := [(0, 3)] } }
     1 < l.joined.length ∧ ∃ n ∈ l.joined, n < l.package.toNat) ∧
    ({} : SelfTest).fails = false ∧ State.reset.lighthouse.phase = .bringUp ∧ world.lighthouse.phase ≠ .bringUp ∧
    (let l : Lighthouse := { world.lighthouse with domain := [0, 5], package := 5 }
     l.phase = .running ∧ l.isMaster = false) ∧ world.lighthouse.isMaster = true ∧
    (let s := { world with sinceTime := 1000001 }
     s.boundLost = false ∧ 1000000 < s.sinceTime) ∧
    ({} : SelfTest).lanes.getLsbD 3 = true := by
  refine ⟨fun i h => ?_, by decide +kernel⟩
  have q : Lighthouse.qualifies { slot0 := some i } i = true := by
    unfold Lighthouse.qualifies
    rw [h]; rfl
  unfold Lighthouse.select
  simp only [Option.filter, q, if_true]

/-- The world with a host range of 4 KiB at 0x60000, and a page of package 5. -/
def ported : State :=
  { world with
    parts := [{ loadPart with hostRanges := [(0x60000, 0x1000)] }], lighthouse := { world.lighthouse with domain := [0, 5] }
    tlb := world.tlb ++ [page 9 (0x9027 + 5 * 2 ^ 42)] }

def far : Phys := { pa := 0x90000 + 5 * 2 ^ 46, attr := .cached }

/-- A read of the remote page comes too late. -/
def late : State := { ported with cur := { wHart with undelivered := [far.pa] } }

theorem late_xlate : late.xlate (wHart.agent 0) .read 0x90000 = (.ok far, late) := by
  have h : ported.serves (wHart.agent 0) .read 0x90000 (page 9 (0x9027 + 5 * 2 ^ 42)) = true := by decide +kernel
  have e : Met.phys { level := 3, entry := (page 9 (0x9027 + 5 * 2 ^ 42)).entry.toNat, addr := (page 9 (0x9027 + 5 * 2 ^ 42)).addr }
      (0x90000 : Word).toNat = far := by decide +kernel
  rw [xlate_everywhere (t := late) h rfl rfl, e]

theorem wit_Ports :
    late.xlate (wHart.agent 0) .read 0x90000 = (.ok far, late) ∧ ported.isRemote far.pa = true ∧
    ported.peekXlate { ported.cur.agent ported.cur.cw with sup := true } .ownRead 0x90000 = some (far, true) ∧
    ported.TilesUncached ∧ ported.poison = [] ∧ Memory.wf ported = true ∧ ported.lighthouse.phase ≠ .bringUp ∧
    ported.lighthouse.selfTest.lanes ≠ 0 ∧ ported.packetOk 0x60000 8 = true ∧ ported.packetOk 0x60F00 256 = true ∧
    ported.hosted 0x60FF8 16 = false ∧ ported.hosted 0x5FFF8 8 = false ∧ ported.lighthouse.phase = .running ∧
    packageOf 0x60000 = ported.pkg ∧ (∀ i, i < 8 → assigned (0x60000 + i) = true) ∧ ported.cur.isResident = true ∧
    ported.lighthouse.selfTest.ports ≠ 0 ∧
    (let l : Lighthouse := { selfTest := { lanes := 0, ports := 0 } }
     l.selfTest.lanes = 0 ∧ l.selfTest.ports = 0) ∧
    ({ wHart with unacked := [(0x90000, true)] } : Hart).unacked.find? (fun x => x.1 == 0x90000) = some (0x90000, true) ∧
    ported.cur.unacked.find? (fun x => x.1 == 0x90000) = none ∧ ported.remoteAt 0x90000 = [0x90000 + 5 * 2 ^ 46] ∧
    (worldWith fun h => { h with lostWrites := [(0x50000, false), (0x90000, true)] }).cur.lostWrites =
      [(0x50000, false)] ++ (0x90000, true) :: [] ∧ [((0x50000 : Word), false)].all (fun x => !x.2) = true :=
  ⟨late_xlate, by decide +kernel, by decide +kernel, tiles_of (by decide +kernel), by decide +kernel⟩

/-- The ported world with a launch record for the dispatcher at 0x60000. -/
def dispatching : State :=
  { ported with l2 := store [(0x60000, 8, 0x40000), (0x60010, 8, 2 + 0x01080001 * 2 ^ 32), (0x60020, 8, 0x50500), (0x60028, 8, 16 * 2 ^ 32)] }

theorem wit_Management :
    (∃ p, State.requested { world with parts := [] } request = some p) ∧
    (let r := LaunchRec.ofBytes (dispatching.homeRead 0x60000 64)
     dispatching.xlate { core := 0, part := r.part, launch := 0, sup := true, cw := 0 } .write r.done = (.ok (at5 0x500), dispatching) ∧
     r.done.toNat % 8 = 0 ∧ r.spawnq = 0 ∧ dispatching.part? r.part ≠ none ∧ dispatching.failureBits r true none true = 0 ∧
     dispatching.failureBits { r with nharts := 0 } true none true ≠ 0) ∧
    dispatching.TilesUncached ∧
    State.reset.lighthouse.phase = .bringUp ∧ ({ phase := .quarantine } : Lighthouse).phase = .quarantine ∧ world.lighthouse.phase = .running ∧
    world.lighthouse.runningSlot = some 0 ∧ world.lighthouse.runningSlot.bind world.lighthouse.slot ≠ none ∧
    ({ phase := .quarantine } : Lighthouse).runningSlot = none ∧ world.requested { request with root := none } = none ∧
    world.part? 7 = none ∧ world.part? 0 ≠ none ∧ world.partLives 0 = true ∧ State.partLives { world with launches := [] } 0 = false ∧
    rootOk 0x10000 = true ∧ rootOk 0x10001 = false ∧ 0x60000 % 64 = 0 ∧ dispatching.hosted 0x60000 64 = true ∧ dispatching.poison = [] ∧
    dispatching.hosted 0x61000 64 = false ∧ eventListed false 0x0D = true ∧ eventListed true 0x48 = true ∧
    eventListed false 0x0E = false ∧ world.inHbm 0x80000 (256 * 264) = true ∧ world.inHbm 0x50000 8 = true ∧
    Memory.wf world = true ∧ Memory.wf dispatching = true ∧ (at5 0x500).pa % 8 = 0 ∧
    touchesTile 0x80000 (256 * 264) = false ∧ touchesTile 0x50000 8 = false ∧ Apart [(0x80000, 256 * 264), (0x50000, 8)] ∧
    world.shore.toNat < 1000 ∧ 0 ≤ world.shore.toNat :=
  ⟨Option.isSome_iff_exists.1 (by decide +kernel),
    ⟨xlate_everywhere (e := page 5 0x5067) (s := dispatching) (by decide +kernel) rfl rfl, by decide +kernel⟩,
    tiles_of (by decide +kernel), by decide +kernel⟩

/-! The first instruction after the load: `addi x5, x0, -2` -/

theorem test_step_runs_the_word :
    (match step (State.reset.withFetchWord 32 0x10A0FFFE) with
     | .next t => t.cur.getX 5 == 0xFFFFFFFFFFFFFFFE && t.cur.pc == 0x40004
     | _ => false) = true := by decide +kernel

end Sys2Proof.Tests
end

section
/-! Library facts and one-line facts about home bytes that the refutation of O53 uses. -/

namespace Sys2Proof.Machine

/-- Without duplicates there is none to erase. -/
theorem eraseDups_of_nodup : ∀ {l : List Nat}, l.Nodup → l.eraseDups = l
  | [], _ => rfl
  | a :: l, h => by
    obtain ⟨ha, hl⟩ := List.nodup_cons.1 h
    have apart : (l.filter fun b => !b == a) = l :=
      List.filter_eq_self.2 fun b hb => by simpa using fun e : b = a => ha (e ▸ hb)
    rw [List.eraseDups_cons, apart, eraseDups_of_nodup hl]

/-- Dense cells are as many as the bytes that they list. -/
theorem cellsOf_length (bs : List Byte) : ∀ a, (cellsOf true a bs).length = bs.length := by
  induction bs with
  | nil => exact fun _ => rfl
  | cons b bs ih => exact fun a => congrArg Nat.succ (ih (a + 1))

/-- An address of HBM on this package, as all below 1 TiB are. -/
theorem low_address {pa : Nat} (h : pa < 2 ^ 40) : packageOf pa = 0 ∧ isTile pa = false ∧ assigned pa = true := by
  have local_ : localOf pa = pa := Nat.mod_eq_of_lt (by omega)
  refine ⟨?_, ?_, ?_⟩
  · unfold packageOf
    rw [Nat.div_eq_of_lt (by omega)]
  · unfold isTile
    rw [local_]
    exact decide_eq_false (by omega)
  · unfold assigned isHbm
    rw [local_, decide_eq_true h, Bool.true_or]

/-! What changes no byte at its home -/

@[simp] theorem homeByte_countCur (s : State) (code : BitVec 8) (w b : Nat) : (s.countCur code w).homeByte b = s.homeByte b := rfl

@[simp] theorem homeByte_onLead (s : State) (f : Lead → Lead) (b : Nat) : (s.onLead f).homeByte b = s.homeByte b := rfl

@[simp] theorem homeByte_track (s : State) (sig : Option (Nat × List Word)) (addrs : List Word) (b : Nat) :
    (s.track sig addrs).homeByte b = s.homeByte b := rfl

@[simp] theorem homeByte_leadNext (s : State) (b : Nat) : s.leadNext.homeByte b = s.homeByte b := rfl

end Sys2Proof.Machine
end

section
/-! Eviction from an L1 (R171): when every line of an L1 leaves, a dirty byte among them reaches its home. -/

namespace Sys2Proof.Machine

/-- The one dirty sector: byte 0 of memory is 1 there. -/
def markedSector : Sector := { cache := 0, addr := 0, data := 1, valid := 1, dirty := 1 }

/-- A sector of L1 0 of which nothing is in error: the marked one, or a clean one, which takes the marked one's place only once
byte 0 is 1 at its home. -/
def Sector.Drains (x : Sector) (home : Byte) : Prop :=
  x.cache = 0 ∧ x.bad = 0 ∧ (x = markedSector ∨ x.dirty = 0 ∧ (x.addr = 0 → home = 1))

/-- The marked byte is on its way: its sector still stands in the L1, or it has reached its home. -/
structure State.Draining (s : State) : Prop where
  wf : Memory.wf s = true
  sectors : ∀ x ∈ s.l1, x.Drains (s.homeByte 0)
  marked : markedSector ∈ s.l1 ∨ s.homeByte 0 = 1

theorem homeTrim_l1 (s : State) (pa : Nat) : (s.homeTrim pa).l1 = s.l1 := by
  unfold State.homeTrim State.giveLine State.cleanHome
  dsimp only
  split_ifs <;> rfl

/-- Bytes that reach their home leave the L1s alone. -/
theorem homePut_l1 (s : State) (pa : Nat) (bs : List Byte) (pick : Hart → Bool) : (s.homePut pa bs pick).l1 = s.l1 := by
  have trim (u : State) (n : Nat) : (u.trimHome pa n).l1 = u.l1 := by
    unfold State.trimHome
    split
    · rfl
    · exact foldl_kept _ (fun t : State => t.l1 = u.l1) (fun t i h => (homeTrim_l1 t _).trans h) _ u rfl
  show State.l1 (if touchesTile pa bs.length then { s with hbm := cellsWrite false s.hbm pa bs }
    else { s with l2 := cellsWrite true s.l2 pa bs }.trimHome pa bs.length) = s.l1
  split
  · rfl
  · exact trim _ _

/-- Of the L1s a write-back changes the sector itself alone. -/
theorem writeBackSector_l1 (s : State) (x : Sector) :
    (s.writeBackSector x).l1 = (s.l1Put { x with dirty := x.dirty &&& x.bad }).l1 := by
  unfold State.writeBackSector
  dsimp only
  have sent (t : State) (ht : t.l1 = s.l1) (l : List Nat) (pick : Hart → Bool) :
      (l.foldl (fun t i => t.homePut (x.addr + i) [sectorByte x.data i] pick) t).l1 = s.l1 :=
    foldl_kept _ (fun t : State => t.l1 = s.l1) (fun t i h => (homePut_l1 t _ _ _).trans h) _ t ht
  unfold State.l1Put
  dsimp only
  rw [sent]
  split
  · rfl
  · obtain ⟨p, d, e⟩ := countHomeSent_counts s (if 256 ≤ x.cache then 4 * (x.cache - 256) else x.cache) x.addr 64
      ((upTo 64).filter fun i => x.dirty.getLsbD i && !x.bad.getLsbD i).length true
    rw [e]

theorem mem_l1Put {s : State} {x y : Sector} (h : y ∈ (s.l1Put x).l1) : y = x ∨ y ∈ s.l1 := by
  unfold State.l1Put at h
  dsimp only at h
  split at h
  · exact .inr (List.mem_filter.1 h).1
  · exact (List.mem_cons.1 h).imp id fun h => (List.mem_filter.1 h).1

/-- A sector stays in its L1 when one at another address is put there. -/
theorem mem_l1Put_of_ne {s : State} {x y : Sector} (h : y ∈ s.l1) (hne : y.addr ≠ x.addr) : y ∈ (s.l1Put x).l1 := by
  have kept : y ∈ s.l1.filter fun y => !(y.cache == x.cache && y.addr == x.addr) := by
    simp [List.mem_filter, h, hne]
  unfold State.l1Put
  dsimp only
  split
  · exact kept
  · exact List.mem_cons_of_mem _ kept

/-- A clean sector sends nothing home. -/
theorem homeByte_writeBackSector_clean (s : State) {x : Sector} (h : x.dirty = 0) (b : Nat) :
    (s.writeBackSector x).homeByte b = s.homeByte b := by
  have none_ : ((upTo 64).filter fun i => x.dirty.getLsbD i && !x.bad.getLsbD i) = [] := by simp [h]
  unfold State.writeBackSector
  simp only [none_, List.foldl_nil, List.isEmpty_nil, if_true]
  rfl

/-- The marked sector sends its byte home. -/
theorem homeByte_writeBackSector_marked {s : State} (h : Memory.wf s = true) :
    (s.writeBackSector markedSector).homeByte 0 = 1 := by
  obtain ⟨p, d, e⟩ := countHomeSent_counts s 0 0 64 1 true
  have one : ((upTo 64).filter fun i => markedSector.dirty.getLsbD i && !markedSector.bad.getLsbD i) = [0] := by decide
  unfold State.writeBackSector
  simp only [one, List.foldl_cons, List.foldl_nil, List.isEmpty_cons, List.length_singleton, Bool.false_eq_true, if_false]
  have put := (homeByte_homePut (s := { s with perf := p, draws := d }) h 0 [sectorByte 1 0]
    (fun g => s.cacheOf g.core != 0)).2 0 (by decide) (fun tile => absurd tile (by decide))
  rw [← e] at put
  exact put.trans (by simp [sectorByte])

/-- Writing back one sector keeps the marked byte on its way, and sends it when it is the marked one. -/
theorem State.Draining.writeBackSector {s : State} (h : s.Draining) {x : Sector} (hx : x.Drains (s.homeByte 0)) :
    (s.writeBackSector x).Draining ∧ (s.homeByte 0 = 1 ∨ x = markedSector → (s.writeBackSector x).homeByte 0 = 1) := by
  obtain ⟨cache, bad, kind⟩ := hx
  have sent : s.homeByte 0 = 1 ∨ x = markedSector → (s.writeBackSector x).homeByte 0 = 1 := by
    intro c
    by_cases e : x = markedSector
    · exact e ▸ homeByte_writeBackSector_marked h.wf
    · rw [homeByte_writeBackSector_clean s (kind.resolve_left e).1]
      exact c.resolve_right e
  have cleaned : x.dirty &&& x.bad = 0 := by simp [bad]
  have atZero : x.addr = 0 → (s.writeBackSector x).homeByte 0 = 1 := fun a =>
    sent (kind.symm.imp (fun k => k.2 a) id)
  refine ⟨⟨writeBackSector_wf h.wf x, fun y hy => ?_, ?_⟩, sent⟩
  · rw [writeBackSector_l1] at hy
    rcases mem_l1Put hy with rfl | hy
    · exact ⟨cache, bad, .inr ⟨cleaned, atZero⟩⟩
    · obtain ⟨c, b, k⟩ := h.sectors y hy
      exact ⟨c, b, k.imp id fun k => ⟨k.1, fun a => sent (.inl (k.2 a))⟩⟩
  · by_cases a : x.addr = 0
    · exact .inr (atZero a)
    · rw [writeBackSector_l1]
      exact h.marked.imp (fun m => mem_l1Put_of_ne m (Ne.symm a)) fun m => sent (.inl m)

/-- Writing back several sectors keeps the marked byte on its way, sends it when the marked one is among them, and leaves no sector
at a new address. -/
theorem State.Draining.writeBackSectors {P : Nat → Prop} :
    ∀ (xs : List Sector) {s : State}, s.Draining → (∀ x ∈ xs, x.Drains (s.homeByte 0) ∧ P x.addr) → (∀ y ∈ s.l1, P y.addr) →
      (xs.foldl State.writeBackSector s).Draining ∧ (∀ y ∈ (xs.foldl State.writeBackSector s).l1, P y.addr) ∧
        (s.homeByte 0 = 1 ∨ markedSector ∈ xs → (xs.foldl State.writeBackSector s).homeByte 0 = 1)
  | [], _, h, _, hp => ⟨h, hp, fun c => c.resolve_right (by simp)⟩
  | x :: xs, s, h, hx, hp => by
    obtain ⟨hd, sent⟩ := h.writeBackSector (hx x (by simp)).1
    have hp' : ∀ y ∈ (s.writeBackSector x).l1, P y.addr := fun y hy => by
      rw [writeBackSector_l1] at hy
      rcases mem_l1Put hy with rfl | hy
      · exact (hx x (by simp)).2
      · exact hp y hy
    have hx' : ∀ y ∈ xs, y.Drains ((s.writeBackSector x).homeByte 0) ∧ P y.addr := fun y hy => by
      obtain ⟨⟨c, b, k⟩, q⟩ := hx y (by simp [hy])
      exact ⟨⟨c, b, k.imp id fun k => ⟨k.1, fun a => sent (.inl (k.2 a))⟩⟩, q⟩
    obtain ⟨d, p, g⟩ := State.Draining.writeBackSectors xs hd hx' hp'
    refine ⟨d, p, fun c => g ?_⟩
    rcases c with c | c
    · exact .inl (sent (.inl c))
    · rcases List.mem_cons.1 c with e | c
      · exact .inl (sent (.inr e.symm))
      · exact .inr c

/-- The lines that may stand in the L1s, none of them the one to keep. -/
def State.Lines (s : State) (keep : Nat) (lines : List Nat) : Prop :=
  (∀ x ∈ s.l1, x.addr / 128 ∈ lines) ∧ keep ∉ lines

/-- The line that an eviction takes out of those of an L1 (R171). -/
def evictedLine (mine : List Sector) (keep : Option Nat) (pick : Nat) : Nat :=
  let lines := ((mine.map fun x => x.addr / 128).eraseDups).filter fun n => keep != some n
  let free := lines.filter fun n => mine.all fun x => x.addr / 128 != n || x.dirty &&& x.bad == 0
  free.getD (pick % Nat.max 1 free.length) (lines.headD 0)

/-- An eviction is the write-back of one line's sectors, which then leave. -/
theorem l1Evict_eq (s : State) (cache : Nat) (keep : Option Nat) :
    s.l1Evict cache keep =
      let n := evictedLine (s.l1Of cache) keep (Config.choice s.draws)
      let t := ((s.l1Of cache).filter fun x => x.addr / 128 == n).foldl State.writeBackSector { s with draws := s.draws + 1 }
      { t with l1 := t.l1.filter fun x => !(x.cache == cache && x.addr / 128 == n) } := rfl

/-- Where nothing is in error, an L1 that holds anything gives up a line that it holds. -/
theorem evictedLine_mem {mine : List Sector} (hm : mine ≠ []) (hb : ∀ x ∈ mine, x.bad = 0) {keep : Nat}
    (hk : ∀ x ∈ mine, x.addr / 128 ≠ keep) (pick : Nat) : ∃ x ∈ mine, x.addr / 128 = evictedLine mine (some keep) pick := by
  unfold evictedLine
  dsimp only
  generalize hl : List.filter (fun n => some keep != some n) _ = lines
  have all : (lines.filter fun n => mine.all fun x => x.addr / 128 != n || x.dirty &&& x.bad == 0) = lines :=
    List.filter_eq_self.2 fun n _ => List.all_eq_true.2 fun x hx => by simp [hb x hx]
  obtain ⟨x, hx⟩ := List.exists_mem_of_ne_nil _ hm
  have some_ : x.addr / 128 ∈ lines := by
    rw [← hl]
    refine List.mem_filter.2 ⟨List.mem_eraseDups.2 (List.mem_map_of_mem hx), ?_⟩
    simpa using fun e : keep = _ => hk x hx e.symm
  have lt : pick % Nat.max 1 lines.length < lines.length := by
    have pos : 0 < lines.length := List.length_pos_of_mem some_
    rw [show Nat.max 1 lines.length = lines.length from Nat.max_eq_right pos]
    exact Nat.mod_lt _ pos
  have held : ∀ n ∈ lines, ∃ x ∈ mine, x.addr / 128 = n := fun n hn => by
    rw [← hl] at hn
    exact List.mem_map.1 (List.mem_eraseDups.1 (List.mem_filter.1 hn).1)
  rw [all, List.getD_eq_getElem _ _ lt]
  exact held _ (List.getElem_mem lt)

/-- An eviction keeps the marked byte on its way and takes one line out. -/
theorem State.Draining.l1Evict {s : State} (h : s.Draining) {keep : Nat} {lines : List Nat} (hl : s.Lines keep lines) :
    (s.l1Evict 0 (some keep)).Draining ∧
      ∃ lines', (s.l1Evict 0 (some keep)).Lines keep lines' ∧ lines'.length ≤ lines.length - 1 := by
  have mine : s.l1Of 0 = s.l1 := List.filter_eq_self.2 fun x hx => by simp [(h.sectors x hx).1]
  rw [l1Evict_eq, mine]
  dsimp only
  generalize hn : evictedLine s.l1 (some keep) (Config.choice s.draws) = n
  have hs : State.Draining { s with draws := s.draws + 1 } := ⟨h.wf, h.sectors, h.marked⟩
  obtain ⟨d, from_, sent⟩ := hs.writeBackSectors (P := fun a => ∃ x ∈ s.l1, x.addr = a) (s.l1.filter fun x => x.addr / 128 == n)
    (fun x hx => ⟨h.sectors x (List.mem_filter.1 hx).1, x, (List.mem_filter.1 hx).1, rfl⟩) (fun y hy => ⟨y, hy, rfl⟩)
  generalize List.foldl State.writeBackSector _ _ = t at d from_ sent ⊢
  have out {y : Sector} : y ∈ (t.l1.filter fun x => !(x.cache == 0 && x.addr / 128 == n)) ↔ y ∈ t.l1 ∧ y.addr / 128 ≠ n := by
    rw [List.mem_filter]
    exact and_congr_right fun hy => by simp [(d.sectors y hy).1]
  have left : ∀ y ∈ t.l1, y.addr / 128 ∈ lines := fun y hy => by
    obtain ⟨x, hx, e⟩ := from_ y hy
    exact e ▸ hl.1 x hx
  refine ⟨⟨d.wf, fun y hy => d.sectors y (out.1 hy).1, ?_⟩, ?_⟩
  · by_cases e : n = 0
    · refine .inr (sent (h.marked.symm.imp id fun m => List.mem_filter.2 ⟨m, ?_⟩))
      simp [e, markedSector]
    · exact d.marked.imp (fun m => out.2 ⟨m, Ne.symm e⟩) id
  · by_cases hm : s.l1 = []
    · refine ⟨[], ⟨fun y hy => ?_, List.not_mem_nil⟩, Nat.zero_le _⟩
      obtain ⟨x, hx, -⟩ := from_ y (out.1 hy).1
      rw [hm] at hx
      cases hx
    · obtain ⟨x, hx, e⟩ := evictedLine_mem hm (fun x hx => (h.sectors x hx).2.1) (keep := keep)
        (fun x hx e => hl.2 (e ▸ hl.1 x hx)) (Config.choice s.draws)
      rw [hn] at e
      exact ⟨lines.erase n, ⟨fun y hy => (List.mem_erase_of_ne (out.1 hy).2).2 (left y (out.1 hy).1),
        fun k => hl.2 (List.mem_of_mem_erase k)⟩, (List.length_erase_of_mem (e ▸ hl.1 x hx)).le⟩

/-- As many evictions as there are lines empty the L1, so that the marked byte is at its home. -/
theorem State.Draining.evictions {keep : Nat} : ∀ (is : List Nat) {s : State} {lines : List Nat}, s.Draining →
    s.Lines keep lines → lines.length ≤ is.length →
    let t := is.foldl (fun s _ => s.l1Evict 0 (some keep)) s
    t.l1 = [] ∧ t.homeByte 0 = 1
  | [], s, lines, h, hl, hn => by
    have none_ : s.l1 = [] := List.eq_nil_iff_forall_not_mem.2 fun x hx => by
      have := hl.1 x hx
      rw [List.length_eq_zero_iff.1 (Nat.le_zero.1 hn)] at this
      cases this
    exact ⟨none_, h.marked.resolve_left (by simp [none_])⟩
  | _ :: is, s, lines, h, hl, hn => by
    obtain ⟨d, lines', hl', fewer⟩ := h.l1Evict hl
    exact State.Draining.evictions is d hl' (by rw [List.length_cons] at hn; omega)

/-- Room in a full L1 that is left no line of its own: the marked byte goes home. -/
theorem State.Draining.l1Room {s : State} (h : s.Draining) {pa : Nat} (full : s.l1.length = 5120) (spilt : s.l1Lines 0 = 0)
    (new : ∀ x ∈ s.l1, x.addr / 128 ≠ pa / 128) : (s.l1Room 0 pa).l1 = [] ∧ (s.l1Room 0 pa).homeByte 0 = 1 := by
  have mine : s.l1Of 0 = s.l1 := List.filter_eq_self.2 fun x hx => by simp [(h.sectors x hx).1]
  have absent : (s.l1.any fun x => x.addr / 128 == pa / 128) = false :=
    List.any_eq_false.2 fun x hx => by simp [new x hx]
  unfold State.l1Room State.l1Trim
  rw [mine, absent, full, spilt]
  refine State.Draining.evictions (lines := (s.l1.map fun x => x.addr / 128).eraseDups) _ h ⟨fun x hx => ?_, fun k => ?_⟩ ?_
  · exact List.mem_eraseDups.2 (List.mem_map_of_mem hx)
  · obtain ⟨x, hx, e⟩ := List.mem_map.1 (List.mem_eraseDups.1 k)
    exact new x hx e
  · simp [upTo]

/-! Filling with room -/

/-- A sector with one more byte that came from behind it (R187). -/
def Sector.take (y : Sector) (i : Nat) (b : Byte) : Sector :=
  { y with
    data := BitVec.ofNat 512 (insertBits y.data.toNat (8 * i) 8 b.toNat)
    valid := y.valid ||| byteMask i 1
    bad := y.bad &&& ~~~byteMask i 1 }

/-- A sector that an L1 lacks, before its bytes come (R171). -/
def Sector.blank (cache pa : Nat) : Sector := { cache := cache, addr := sectorOf pa, data := 0, valid := 0, dirty := 0 }

theorem l1Get_absent {s : State} {cache pa : Nat} (absent : ∀ x ∈ s.l1, x.addr ≠ sectorOf pa) :
    s.l1Get cache pa = Sector.blank cache pa := by
  have find : s.l1Find cache pa = none := List.find?_eq_none.2 fun x hx => by simp [absent x hx]
  unfold State.l1Get
  rw [find]
  rfl

/-- A blank sector is not full. -/
theorem Sector.blank_valid (cache pa : Nat) : ¬(Sector.blank cache pa).valid = BitVec.allOnes 64 := by
  show ¬(0 : BitVec 64) = BitVec.allOnes 64
  decide

/-- What a fill brings in for a sector that the L1 lacks, where no byte is in error. -/
def State.filled (s : State) (cache pa : Nat) : Sector :=
  (upTo 64).foldl (fun y i => y.take i (s.behindL1 (sectorOf pa + i)))
    (Sector.blank cache pa)

/-- It is a clean sector with valid bytes. -/
theorem filled_clean (s : State) (cache pa : Nat) :
    let x := s.filled cache pa
    x.cache = cache ∧ x.addr = sectorOf pa ∧ x.dirty = 0 ∧ x.bad = 0 ∧ x.valid ≠ 0 := by
  have kept (is : List Nat) (x : Sector) (hx : x.cache = cache ∧ x.addr = sectorOf pa ∧ x.dirty = 0 ∧ x.bad = 0) :=
    foldl_kept (fun (y : Sector) i => y.take i (s.behindL1 (sectorOf pa + i)))
      (fun y => y.cache = cache ∧ y.addr = sectorOf pa ∧ y.dirty = 0 ∧ y.bad = 0)
      (fun y i h => ⟨h.1, h.2.1, h.2.2.1, by simp [Sector.take, h.2.2.2]⟩) is x hx
  unfold State.filled
  dsimp only
  rw [show upTo 64 = upTo 63 ++ [63] from rfl, List.foldl_append]
  generalize hy : List.foldl _ _ (upTo 63) = y
  have hy := hy ▸ kept (upTo 63) _ ⟨rfl, rfl, rfl, rfl⟩
  obtain ⟨c, a, d, b⟩ := kept [63] y hy
  refine ⟨c, a, d, b, fun e => ?_⟩
  have bit := congrArg (fun v : BitVec 64 => v.getLsbD 63) e
  simp only [Sector.take, List.foldl_cons, List.foldl_nil, BitVec.getLsbD_or,
    show (byteMask 63 1).getLsbD 63 = true by decide, Bool.or_true] at bit
  exact absurd bit (by decide)

/-- An L1 of few sectors has room. -/
theorem l1Room_of_room {s : State} {cache : Nat} (room : (s.l1Of cache).length + 1 ≤ 5120) (pa : Nat) : s.l1Room cache pa = s :=
  if_pos (by split <;> omega)

/-- With room for it, it joins the sectors of the L1. -/
theorem fillSector_absent {s : State} {cache pa : Nat} (absent : ∀ x ∈ s.l1, x.addr ≠ sectorOf pa)
    (room : (s.l1Of cache).length + 1 ≤ 5120) (sound : s.poison = []) :
    s.fillSector cache pa = { s with l1 := s.filled cache pa :: s.l1 } := by
  have others : (s.l1.filter fun y => !(y.cache == cache && y.addr == sectorOf pa)) = s.l1 :=
    List.filter_eq_self.2 fun x hx => by simp [absent x hx]
  obtain ⟨c, a, -, -, v⟩ := filled_clean s cache pa
  have put : s.l1Put (s.filled cache pa) = { s with l1 := s.filled cache pa :: s.l1 } := by
    unfold State.l1Put
    dsimp only
    rw [c, a, others, if_neg v]
  refine Eq.trans ?_ put
  unfold State.fillSector
  dsimp only
  rw [l1Room_of_room room, l1Get_absent absent, if_neg (Sector.blank_valid cache pa), sound]
  refine congrArg s.l1Put (congrArg (fun f => List.foldl f _ _) (funext fun y => funext fun i => ?_))
  simp [Sector.take, Sector.blank]

/-- A fill with room sends nothing home. -/
theorem homeByte_fillSector_room {s : State} {cache pa : Nat} (room : (s.l1Of cache).length + 1 ≤ 5120) (b : Nat) :
    (s.fillSector cache pa).homeByte b = s.homeByte b := by
  unfold State.fillSector
  dsimp only
  rw [l1Room_of_room room]
  split <;> rfl

/-- A fill of a full L1 that is left no line of its own sends the marked byte home. -/
theorem State.Draining.fillLine {s : State} (h : s.Draining) {pa : Nat} (full : s.l1.length = 5120) (spilt : s.l1Lines 0 = 0)
    (new : ∀ x ∈ s.l1, x.addr / 128 ≠ pa / 128) (near : s.isRemote pa = false) (core : s.cacheOf 0 = 0) :
    (s.fillLine 0 pa).homeByte 0 = 1 := by
  obtain ⟨empty, home⟩ := h.l1Room (pa := pa / 128 * 128) full spilt (by simpa using new)
  have absent : ∀ x ∈ s.l1, x.addr ≠ sectorOf (pa / 128 * 128) := fun x hx e => by
    have := new x hx
    rw [e] at this
    unfold sectorOf at this
    omega
  obtain ⟨x, first⟩ : ∃ x, s.fillSector 0 (pa / 128 * 128) = (s.l1Room 0 (pa / 128 * 128)).l1Put x := by
    unfold State.fillSector
    rw [l1Get_absent absent, if_neg (Sector.blank_valid _ _)]
    exact ⟨_, rfl⟩
  have one : (((s.l1Room 0 (pa / 128 * 128)).l1Put x).l1Of 0).length ≤ 1 := by
    refine (List.length_filter_le _ _).trans ?_
    unfold State.l1Put
    rw [empty]
    dsimp only
    split <;> simp
  unfold State.fillLine
  rw [near, if_neg Bool.false_ne_true]
  dsimp only
  rw [core, first, homeByte_fillSector_room (by omega)]
  exact home

end Sys2Proof.Machine
end

section
/-! The machine of the refutation: a lead at a gather, with 1,024 sectors in its L1 and no line of it left by the spill region. -/

namespace Sys2Proof.Machine

/-- An L1 that holds 1,024 sectors: the marked one and clean ones after it. -/
def crowdedSectors : List Sector :=
  markedSector :: (upTo 1023).map fun i => { cache := 0, addr := 64 * (i + 1), data := 0, valid := 1, dirty := 0 }

/-- Byte `k` of an index array whose 32-bit element `i` is `128 * i`. -/
def indexByte (k : Nat) : Byte := BitVec.ofNat 8 (128 * (k / 4) / 256 ^ (k % 4))

/-- The cached entry of page 3. -/
def streamingEntry : TlbEntry := { home := .core 0, part := none, level := 3, index := 3, entry := 0x312B, addr := 0 }

/-- The cached entry of the block. -/
def blockEntry : TlbEntry := { home := .core 0, part := none, level := 2, index := 0, entry := 0x2B, addr := 0 }

/-- The shadow of an index register that holds 2,048 elements of the array at 0x2FFFC. -/
def gatheringShadow : Shadow := { base := 0x2FFFC, tag := .n32, len := 2048, steps := [] }

/-- The word of `vldx v1, x1, v2`. -/
def gatherWord : BitVec 32 := 0x8C211000

/-- The bytes in the home slices: the instruction and the index array. -/
def gatheringCells : List Host.Cell :=
  cellsOf true 0x20000 (leBytes 4 gatherWord.toNat) ++ cellsOf true 0x2FFFC ((upTo 8192).map indexByte)

/-- A lead at `vldx v1, x1, v2`: 2,048 elements, base 0x100000, and the index array in the shadow of v2. -/
def gatheringLead : Lead :=
  { pc := 0x20000, x := Vector.replicate 32 0x100000, xValid := BitVec.allOnes 32, vlTag := .n32, vlLen := some 2048
    shadows := Vector.replicate 32 (some gatheringShadow) }

/-- Its trailing hart has bound so many slices of vector registers that their spill region takes the whole L1 (R88), and lets a
gather of 2,048 lines allocate (R173). -/
def gatheringHart : Hart :=
  { place := .resident 0 0, vgrant := 144, v := Vector.replicate 32 { tag := .n32 }, vbyp := 0x40000, leadActive := true
    lead := gatheringLead }

/-- The machine with the given sectors in L1 0. Virtual is physical: page 3, which holds the array but its first element, is a
streaming one, and all else is one cached block. -/
def gathering (l1 : List Sector) : State :=
  { cur := gatheringHart, l1 := l1, l2 := gatheringCells, tlb := [streamingEntry, blockEntry] }

/-- Where an address below 512 MiB lies. -/
def gatheringPhys (va : Nat) : Phys := { pa := va, attr := if va / 65536 = 3 then .streaming else .cached }

variable (L : List Sector)

theorem gathering_wf : Memory.wf (gathering L) = true := by
  refine (Memory.wf_iff _).2 ⟨rfl, rfl, (rising_iff _).2 (List.pairwise_append.2 ⟨cellsOf_rising .., cellsOf_rising .., ?_⟩)⟩
  intro c hc d hd
  have := (cellsOf_bounds _ _ _ c hc).2
  have := (cellsOf_bounds _ _ _ d hd).1
  have : (leBytes 4 gatherWord.toNat).length = 4 := rfl
  omega

/-- Below the instruction every byte is 0 at its home. -/
theorem gathering_home_zero : (gathering L).homeByte 0 = 0 := by
  have none_ : cellGet (gathering L).l2 0 = none := cellGet_none fun c hc => by
    rcases List.mem_append.1 hc with hc | hc <;>
    · have := (cellsOf_bounds _ _ _ c hc).1
      omega
  unfold State.homeByte
  rw [none_]
  rfl

theorem gathering_home_index {k : Nat} (hk : k < 8192) : (gathering L).homeByte (0x2FFFC + k) = indexByte k := by
  have code : cellGet (cellsOf true 0x20000 (leBytes 4 gatherWord.toNat)) (0x2FFFC + k) = none := cellGet_none fun c hc => by
    have := (cellsOf_bounds _ _ _ c hc).2
    have : (leBytes 4 gatherWord.toNat).length = 4 := rfl
    omega
  have bytes := (cellGet_cellsOf true ((upTo 8192).map indexByte) 0x2FFFC k (by simpa [upTo] using hk)).2 rfl
  unfold State.homeByte
  rw [show (gathering L).l2 = gatheringCells from rfl, gatheringCells, cellGet_append, code, Option.none_or, bytes]
  simp [upTo, hk]

/-- Element `i` of the index array. -/
theorem gathering_home_element {i : Nat} (hi : i < 2048) : leNat ((gathering L).homeRead (0x2FFFC + 4 * i) 4) = 128 * i := by
  have byte (j : Nat) (hj : j < 4) : (gathering L).homeByte (0x2FFFC + 4 * i + j) = BitVec.ofNat 8 (128 * i / 256 ^ j) := by
    rw [Nat.add_assoc, gathering_home_index L (by omega)]
    unfold indexByte
    rw [show (4 * i + j) / 4 = i by omega, show (4 * i + j) % 4 = j by omega]
  unfold State.homeRead
  rw [show upTo 4 = [0, 1, 2, 3] from rfl]
  simp only [List.map_cons, List.map_nil, leNat, byte _ (show 0 < 4 by decide), byte _ (show 1 < 4 by decide),
    byte _ (show 2 < 4 by decide), byte _ (show 3 < 4 by decide), BitVec.toNat_ofNat]
  omega

theorem gathering_tlbFind_page (va : Nat) :
    (gathering L).tlbFind (gatheringHart.agent 0) 3 va = if va / 65536 = 3 then some streamingEntry else none := by
  have shift : va >>> levelShift 3 = va / 65536 := Nat.shiftRight_eq_div_pow va 16
  unfold State.tlbFind
  rw [shift]
  by_cases h : va / 65536 = 3
  · rw [h]; rfl
  · have h' : (3 == va / 65536) = false := by simpa using Ne.symm h
    simp [h, h', gathering, streamingEntry, blockEntry, Agent.homes, gatheringHart, Hart.agent, Hart.core]

theorem gathering_tlbFind_block {va : Nat} (h : va < 2 ^ 29) :
    (gathering L).tlbFind (gatheringHart.agent 0) 2 va = some blockEntry := by
  have shift : va >>> levelShift 2 = 0 := by
    rw [show levelShift 2 = 29 from rfl, Nat.shiftRight_eq_div_pow, Nat.div_eq_of_lt h]
  unfold State.tlbFind
  rw [shift]
  rfl

/-- The entry that serves an address. -/
def gatheringMet (va : Nat) : Met :=
  if va / 65536 = 3 then { level := 3, entry := 0x312B, addr := 0 } else { level := 2, entry := 0x2B, addr := 0 }

theorem gatheringMet_cases (va : Nat) : gatheringMet va = { level := 3, entry := 0x312B, addr := 0 } ∨
    gatheringMet va = { level := 2, entry := 0x2B, addr := 0 } :=
  ite_eq_or_eq ..

/-- A walk meets the cached entries alone. -/
theorem gathering_walk {va : Nat} (h : va < 2 ^ 29) :
    (gathering L).walk (gatheringHart.agent 0) true va = some (gatheringMet va, []) := by
  have page : (gathering L).tlbFind (gatheringHart.agent 0) (2 + 1) va = _ := gathering_tlbFind_page L va
  have block : (gathering L).tlbFind (gatheringHart.agent 0) (1 + 1) va = _ := gathering_tlbFind_block L h
  unfold State.walk State.entryAt State.entryAt gatheringMet
  simp only [if_true, page, block]
  by_cases h3 : va / 65536 = 3
  · simp only [if_pos h3]
    rfl
  · simp only [if_neg h3]
    rfl

/-- The entry puts an address below 512 MiB where it says. -/
theorem gatheringMet_phys {va : Nat} (h : va < 2 ^ 29) : (gatheringMet va).phys va = gatheringPhys va := by
  unfold gatheringMet gatheringPhys Met.phys Met.pa
  split
  · have pa : bits 0x312B 12 36 * 65536 + va % 2 ^ levelShift 3 = va := by
      rw [show bits 0x312B 12 36 = 3 from rfl, show levelShift 3 = 16 from rfl]
      omega
    simp only [pa]
    rfl
  · have pa : bits 0x2B 12 36 * 65536 + va % 2 ^ levelShift 2 = va := by
      rw [show bits 0x2B 12 36 = 0 from rfl, show levelShift 2 = 29 from rfl]
      omega
    simp only [pa]
    rfl

theorem gathering_entryCause {k : Kind} (hk : k = .read ∨ k = .fetch) {va : Nat} (h : va < 2 ^ 29) :
    (gathering L).entryCause (gatheringHart.agent 0) k (gatheringMet va) va = none := by
  have pa : (gatheringMet va).pa va = va := congrArg Phys.pa (gatheringMet_phys h)
  obtain ⟨package, tile, hbm⟩ := low_address (pa := va) (by omega)
  have permitted : (gathering L).permitted k (gatheringMet va) va = true := by
    unfold State.permitted
    dsimp only
    rw [pa, package, tile, hbm]
    rcases gatheringMet_cases va with e | e <;> rw [e] <;> rcases hk with rfl | rfl <;> rfl
  have window : (gathering L).windowOk (gatheringHart.agent 0) k (gatheringMet va) = true := by
    rcases gatheringMet_cases va with e | e <;> rw [e] <;> rcases hk with rfl | rfl <;> rfl
  unfold State.entryCause
  rw [permitted, window]
  rfl

theorem gathering_peek {k : Kind} (hk : k = .read ∨ k = .fetch) {va : Word} (h : va.toNat < 2 ^ 29) :
    (gathering L).peekXlate (gatheringHart.agent 0) k va = some (gatheringPhys va.toNat, true) := by
  have accessed : bit (gatheringMet va.toNat).entry 5 = true := by
    rcases gatheringMet_cases va.toNat with e | e <;> rw [e] <;> rfl
  unfold State.peekXlate
  dsimp only
  rw [if_neg (by omega), if_neg (by unfold tileWindow; omega),
    if_neg (by rw [decide_eq_false (by omega)]; exact Bool.false_ne_true), gathering_walk L h]
  simp only [gathering_entryCause L hk h, State.lostEntry, List.any_nil, Bool.and_false, accessed, gatheringMet_phys h]
  rfl

theorem gathering_leadXlate {va : Word} (h : va.toNat < 2 ^ 29) : (gathering L).leadXlate va = some (gatheringPhys va.toNat) := by
  unfold State.leadXlate
  rw [show (gathering L).cur.agent (gathering L).cur.cw = gatheringHart.agent 0 from rfl, gathering_peek L (.inl rfl) h]
  rfl

/-- The lead's use of a page changes nothing: the caches hold it. -/
theorem gathering_leadPage {va : Word} (h : va.toNat < 2 ^ 29) : (gathering L).leadPage va = gathering L := by
  have accessed : Kind.read.updated (gatheringMet va.toNat).entry = (gatheringMet va.toNat).entry := by
    rcases gatheringMet_cases va.toNat with e | e <;> rw [e] <;> rfl
  unfold State.leadPage State.xlate State.xlatePage
  dsimp only
  rw [show (gathering L).cur.agent (gathering L).cur.cw = gatheringHart.agent 0 from rfl, if_neg (by omega),
    if_neg (by unfold tileWindow; omega), if_neg (by rw [decide_eq_false (by omega)]; exact Bool.false_ne_true), gathering_walk L h]
  simp only [gathering_entryCause L (.inl rfl) h, State.current, accessed, beq_self_eq_true, Bool.true_or, Option.isNone_none,
    Bool.and_true, if_true, State.touch, State.update, State.spend, State.lostEntry, List.any_nil, Bool.and_false, Bool.not_false,
    Bool.false_eq_true, if_false, List.isEmpty_nil, State.countWalk]

end Sys2Proof.Machine
end

section
/-! What the gather of this lead brings into the L1, line by line. -/

namespace Sys2Proof.Machine

/-- The sectors of L1 0 on the way: `n` of them, all below an address, the marked one among them, the others clean. -/
structure Crowd (bound n : Nat) (L : List Sector) : Prop where
  length : L.length = n
  drains : ∀ x ∈ L, x.Drains 0
  below : ∀ x ∈ L, x.addr < bound
  marked : markedSector ∈ L

theorem Crowd.mono {bound bound' n : Nat} {L : List Sector} (h : Crowd bound n L) (hb : bound ≤ bound') : Crowd bound' n L :=
  ⟨h.length, h.drains, fun x hx => (h.below x hx).trans_le hb, h.marked⟩

theorem crowded_crowd : Crowd 0x10000 1024 crowdedSectors := by
  refine ⟨by simp [crowdedSectors, upTo], fun x hx => ?_, fun x hx => ?_, List.mem_cons_self⟩ <;>
    rcases List.mem_cons.1 hx with rfl | hx
  · exact ⟨rfl, rfl, .inl rfl⟩
  · obtain ⟨i, -, rfl⟩ := List.mem_map.1 hx
    exact ⟨rfl, rfl, .inr ⟨rfl, fun e => absurd e (by simp)⟩⟩
  · decide
  · obtain ⟨i, hi, rfl⟩ := List.mem_map.1 hx
    have := List.mem_range.1 hi
    show 64 * (i + 1) < 0x10000
    omega

/-- The marked byte of such a machine is on its way. -/
theorem Crowd.draining {bound n : Nat} {L : List Sector} (h : Crowd bound n L) : (gathering L).Draining :=
  ⟨gathering_wf L, by rw [gathering_home_zero]; exact h.drains, .inl h.marked⟩

/-- Nothing below 1 TiB is another package's. -/
theorem gathering_near (L : List Sector) {pa : Nat} (low : pa < 2 ^ 40) : (gathering L).isRemote pa = false := by
  unfold State.isRemote
  rw [(low_address low).1]
  rfl

/-- The spill region leaves the L1 no line (R88). -/
theorem gathering_l1Lines (L : List Sector) : (gathering L).l1Lines 0 = 0 := by
  have slices : gatheringHart.slices = 4608 := by decide +kernel
  have harts : (((gathering L).cur :: (gathering L).rest).filter fun h => h.isResident && h.core == 0) = [gatheringHart] := rfl
  unfold State.l1Lines State.spillLines
  rw [if_neg (by decide), harts, List.map_singleton, slices, List.sum_singleton]

/-- A filled sector joins the crowd. -/
theorem Crowd.fillSector {bound n pa : Nat} {L : List Sector} (h : Crowd bound n L) (hb : bound ≤ pa) (hp : pa % 64 = 0)
    (room : n + 1 ≤ 5120) : ∃ L', (gathering L).fillSector 0 pa = gathering L' ∧ Crowd (pa + 64) (n + 1) L' := by
  have sector : sectorOf pa = pa := by unfold sectorOf; omega
  have held : ((gathering L).l1Of 0).length ≤ n := h.length ▸ List.length_filter_le _ _
  obtain ⟨cache, addr, dirty, bad, -⟩ := filled_clean (gathering L) 0 pa
  refine ⟨(gathering L).filled 0 pa :: L, fillSector_absent (fun x hx => ?_) (by omega) rfl, by simp [h.length], fun x hx => ?_,
    fun x hx => ?_, List.mem_cons_of_mem _ h.marked⟩
  · have := h.below x hx
    omega
  · rcases List.mem_cons.1 hx with rfl | hx
    · have : markedSector.addr < bound := h.below _ h.marked
      exact ⟨cache, bad, .inr ⟨dirty, fun e => by omega⟩⟩
    · exact h.drains x hx
  · rcases List.mem_cons.1 hx with rfl | hx
    · omega
    · have := h.below x hx
      omega

/-- Both sectors of a filled line do. -/
theorem Crowd.fillLine {bound n pa : Nat} {L : List Sector} (h : Crowd bound n L) (hb : bound ≤ pa / 128 * 128)
    (room : n + 2 ≤ 5120) (low : pa < 2 ^ 29) :
    ∃ L', (gathering L).fillLine 0 pa = gathering L' ∧ Crowd (pa / 128 * 128 + 128) (n + 2) L' := by
  obtain ⟨L₁, e₁, h₁⟩ := h.fillSector hb (by omega) (by omega)
  obtain ⟨L₂, e₂, h₂⟩ := h₁.fillSector (pa := pa / 128 * 128 + 64) le_rfl (by omega) (by omega)
  refine ⟨L₂, ?_, h₂⟩
  unfold State.fillLine
  rw [gathering_near L (by omega), if_neg Bool.false_ne_true]
  exact (congrArg (fun s : State => s.fillSector 0 (pa / 128 * 128 + 64)) e₁).trans e₂

/-- A read through the block fills its line. -/
theorem gathering_afterLoad_block (L : List Sector) {pa : Nat} (low : pa < 2 ^ 29) (page : pa / 65536 ≠ 3) :
    (gathering L).afterLoad 0 (gatheringPhys pa).attr true pa = (gathering L).fillLine 0 pa := by
  unfold State.afterLoad gatheringPhys
  rw [(low_address (by omega)).2.1, if_neg page]
  rfl

/-- A read through the streaming page fills nothing (R306). -/
theorem gathering_afterLoad_page (L : List Sector) {pa : Nat} (low : pa < 2 ^ 29) (page : pa / 65536 = 3) :
    (gathering L).afterLoad 0 (gatheringPhys pa).attr true pa = gathering L := by
  unfold State.afterLoad gatheringPhys
  rw [(low_address (by omega)).2.1, gathering_near L (by omega), if_pos page]
  rfl

/-- What a lead reads where the L1 holds nothing stands at the home. -/
theorem Crowd.leadRead {bound n : Nat} {L : List Sector} (h : Crowd bound n L) {va : Word} (low : va.toNat < 2 ^ 29)
    (hb : bound ≤ va.toNat / 64 * 64) (page : va.toNat % 65536 + 4 ≤ 65536) :
    (gathering L).leadRead va 4 = some (leNat ((gathering L).homeRead va.toNat 4),
      (gathering L).afterLoad 0 (gatheringPhys va.toNat).attr true va.toNat) := by
  have find (i : Nat) : (gathering L).l1Find 0 (va.toNat + i) = none := List.find?_eq_none.2 fun x hx => by
    have := h.below x hx
    simp only [sectorOf, Bool.and_eq_true, beq_iff_eq, not_and]
    omega
  have mode : (gatheringPhys va.toNat).attr.mode .plain = .plain := by
    unfold gatheringPhys
    dsimp only
    split <;> rfl
  have served : (gathering L).served1 0 .plain va.toNat 4 = .behind := by
    have lacks : (gathering L).l1Holds 0 va.toNat 4 = false := by
      unfold State.l1Holds
      rw [show (gathering L).cacheOf 0 = 0 from rfl, show upTo 4 = [0, 1, 2, 3] from rfl]
      simp [find]
    unfold State.served1
    rw [lacks]
    rfl
  have sound : (gathering L).badByte 0 .plain va.toNat 4 = false := by
    have clean : ((gathering L).l1.any fun x => x.cache == 0 && x.bad != 0 &&
      (upTo 64).any fun i => x.bad.getLsbD i && decide (va.toNat ≤ x.addr + i) && decide (x.addr + i < va.toNat + 4) &&
        (ReadMode.behind == .plain || x.dirty.getLsbD i)) = false :=
      List.any_eq_false.2 fun x hx => by simp [(h.drains x hx).2.1]
    unfold State.badByte
    rw [served]
    exact (congrArg (ReadMode.behind != .home && ·) clean)
  have bytes : (gathering L).readBytes 0 .plain va.toNat 4 = (gathering L).homeRead va.toNat 4 := by
    unfold State.readBytes State.homeRead
    rw [served]
    refine List.map_congr_left fun i hi => ?_
    have := List.mem_range.1 hi
    unfold State.readByte State.behindL1
    rw [show (gathering L).cacheOf 0 = 0 from rfl]
    simp only [find, gathering_near L (show va.toNat + i < 2 ^ 40 by omega), Bool.false_eq_true, if_false]
  unfold State.leadRead
  dsimp only
  rw [show min 4 (65536 - va.toNat % 65536) = 4 by omega]
  unfold State.leadPiece
  rw [gathering_leadXlate L low]
  dsimp only
  rw [show (gathering L).cur.core = 0 from rfl, mode, show (gatheringPhys va.toNat).pa = va.toNat from rfl, sound, bytes,
    gathering_leadPage L low]
  rfl

theorem element_address {i : Nat} (hi : i < 2048) : (0x2FFFC + BitVec.ofNat 64 (4 * i) : Word).toNat = 0x2FFFC + 4 * i := by
  rw [BitVec.toNat_add, BitVec.toNat_ofNat]
  show (0x2FFFC + 4 * i % 2 ^ 64) % 2 ^ 64 = _
  omega

/-- The lead reads the first element of the index array through a cached page, whose line joins the crowd. -/
theorem crowded_first_element : ∃ L, leadReadOr 0x2FFFC 4 (gathering crowdedSectors) = (some 0, gathering L) ∧
    Crowd 0x30000 1026 L := by
  obtain ⟨L, e, h⟩ := crowded_crowd.fillLine (pa := 0x2FFFC) (by decide) (by decide) (by decide)
  have read := crowded_crowd.leadRead (va := 0x2FFFC) (by decide) (by decide) (by decide)
  have zero := gathering_home_element crowdedSectors (i := 0) (by decide)
  rw [show (0x2FFFC : Word).toNat = 0x2FFFC from rfl, zero, gathering_afterLoad_block _ (by decide) (by decide), e] at read
  refine ⟨L, ?_, h⟩
  unfold leadReadOr
  rw [read]

/-- It reads the others through a streaming one. -/
theorem Crowd.other_element {n i : Nat} {L : List Sector} (h : Crowd 0x30000 n L) (h0 : 0 < i) (hi : i < 2048) :
    leadReadOr (0x2FFFC + BitVec.ofNat 64 (4 * i)) 4 (gathering L) = (some (128 * i), gathering L) := by
  have va := element_address hi
  have read := h.leadRead (va := 0x2FFFC + BitVec.ofNat 64 (4 * i)) (by omega) (by omega) (by omega)
  rw [va, gathering_home_element L hi, gathering_afterLoad_page L (by omega) (by omega)] at read
  unfold leadReadOr
  rw [read]

theorem Crowd.other_elements {n : Nat} {L : List Sector} (h : Crowd 0x30000 n L) :
    ∀ is : List Nat, (∀ i ∈ is, 0 < i ∧ i < 2048) →
      shadowElems gatheringShadow is (gathering L) = (is.map fun i => (i, 128 * i), gathering L)
  | [], _ => rfl
  | i :: is, hi => by
    obtain ⟨h0, hlt⟩ := hi i (by simp)
    have first : leadReadOr (gatheringShadow.base + BitVec.ofNat 64 (gatheringShadow.tag.width / 8 * i)) (gatheringShadow.tag.width / 8)
        (gathering L) = (some (128 * i), gathering L) := h.other_element h0 hlt
    have others := Crowd.other_elements h is fun j hj => hi j (by simp [hj])
    unfold shadowElems
    simp only [bind, StateT.bind, first, others]
    rfl

/-- The whole index array: element `i` is `128 * i`, and one line has joined the crowd. -/
theorem crowded_elements : ∃ L, shadowElems gatheringShadow (upTo 2048) (gathering crowdedSectors) =
    ((upTo 2048).map fun i => (i, 128 * i), gathering L) ∧ Crowd 0x30000 1026 L := by
  obtain ⟨L, e, h⟩ := crowded_first_element
  refine ⟨L, ?_, h⟩
  have first : leadReadOr (gatheringShadow.base + BitVec.ofNat 64 (gatheringShadow.tag.width / 8 * 0)) (gatheringShadow.tag.width / 8)
      (gathering crowdedSectors) = (some 0, gathering L) := e
  have others := h.other_elements ((List.range 2047).map Nat.succ) fun i hi => by
    obtain ⟨j, hj, rfl⟩ := List.mem_map.1 hi
    have := List.mem_range.1 hj
    omega
  rw [show upTo 2048 = 0 :: (List.range 2047).map Nat.succ from List.range_succ_eq_map]
  unfold shadowElems
  simp only [bind, StateT.bind, first, others]
  rfl

/-! The 2,048 lines of the gather -/

/-- The addresses of the gather. -/
def gatherAddresses : List Word := (upTo 2048).map fun i => 0x100000 + BitVec.ofNat 64 (128 * i)

/-- What the prefetch does at one line (R239). -/
def State.leadFillLine (s : State) (alloc : Bool) (line : Nat) : State :=
  match s.leadXlate (BitVec.ofNat 64 (128 * line)) with
  | some p => ((s.leadPage (BitVec.ofNat 64 (128 * line))).afterLoad s.cur.core p.attr alloc p.pa).countCur 0x08 1
  | none => s

theorem leadFill_eq (s : State) (alloc : Bool) (addrs : List Word) :
    s.leadFill alloc addrs = ((addrs.map fun a => a.toNat / 128).eraseDups).foldl (fun s line => s.leadFillLine alloc line) s := rfl

/-- They lie in as many lines. -/
theorem gatherAddresses_lines : (gatherAddresses.map fun a => a.toNat / 128).eraseDups = List.range' 8192 2048 := by
  have lines : (gatherAddresses.map fun a => a.toNat / 128) = List.range' 8192 2048 := by
    rw [List.range'_eq_map_range]
    unfold gatherAddresses upTo
    rw [List.map_map]
    refine List.map_congr_left fun i hi => ?_
    have := List.mem_range.1 hi
    show (0x100000 + BitVec.ofNat 64 (128 * i) : Word).toNat / 128 = 8192 + i
    rw [BitVec.toNat_add, BitVec.toNat_ofNat]
    show (0x100000 + 128 * i % 2 ^ 64) % 2 ^ 64 / 128 = _
    omega
  rw [lines, eraseDups_of_nodup List.nodup_range']

/-- A line above page 3 is filled through the cached block. -/
theorem gathering_leadFillLine (L : List Sector) {line : Nat} (high : 2048 ≤ line) (low : line < 2 ^ 22) :
    (gathering L).leadFillLine true line = ((gathering L).fillLine 0 (128 * line)).countCur 0x08 1 := by
  have va : (BitVec.ofNat 64 (128 * line)).toNat = 128 * line := by
    rw [BitVec.toNat_ofNat]
    omega
  unfold State.leadFillLine
  rw [gathering_leadXlate L (by omega), va]
  dsimp only
  rw [gathering_leadPage L (by omega)]
  exact congrArg (fun s : State => s.countCur 0x08 1) (gathering_afterLoad_block L (by omega) (by omega))

/-- Lines join the crowd in turn, as long as there is room. -/
theorem Crowd.leadFillLines : ∀ (m : Nat) {a n : Nat} {L : List Sector}, Crowd (128 * a) n L → 2048 ≤ a → a + m ≤ 2 ^ 22 →
    n + 2 * m ≤ 5120 → ∃ L', (List.range' a m).foldl (fun s line => s.leadFillLine true line) (gathering L) = gathering L' ∧
      Crowd (128 * (a + m)) (n + 2 * m) L'
  | 0, _, _, L, h, _, _, _ => ⟨L, rfl, h⟩
  | m + 1, a, n, L, h, high, low, room => by
    obtain ⟨L₁, e, h₁⟩ := h.fillLine (pa := 128 * a) (by omega) (by omega) (by omega)
    have step : (gathering L).leadFillLine true a = gathering L₁ := by
      rw [gathering_leadFillLine L high (by omega), e]
      rfl
    obtain ⟨L', e', h'⟩ := Crowd.leadFillLines m (a := a + 1) (n := n + 2) (h₁.mono (by omega)) (by omega) (by omega) (by omega)
    refine ⟨L', ?_, h'.length.trans (by omega), h'.drains, fun x hx => (h'.below x hx).trans_le (by omega), h'.marked⟩
    rw [List.range'_succ, List.foldl_cons, step, e']

/-- The last of the gather's lines finds the L1 full: the marked byte goes home. -/
theorem Crowd.leadFill {L : List Sector} (h : Crowd 0x30000 1026 L) :
    ((gathering L).leadFill true gatherAddresses).homeByte 0 = 1 := by
  obtain ⟨L', e, h'⟩ := Crowd.leadFillLines 2047 (a := 8192) (h.mono (by decide)) (by decide) (by decide) (by decide)
  rw [leadFill_eq, gatherAddresses_lines, show 2048 = 2047 + 1 from rfl, List.range'_concat, List.foldl_append, e]
  show ((gathering L').leadFillLine true (8192 + 1 * 2047)).homeByte 0 = 1
  rw [gathering_leadFillLine L' (by decide) (by decide), homeByte_countCur]
  refine h'.draining.fillLine h'.length (gathering_l1Lines L') (fun x hx => ?_) (gathering_near L' (by decide)) rfl
  have := h'.below x hx
  omega

/-- What a gather of the lead leaves at the homes is what its prefetch leaves there, at the addresses that its index shadow
gives. -/
theorem homeByte_leadGather {s t : State} {d a b : BitVec 5} {base : Word} {vl : Nat} {sh : Shadow} {vs : List (Nat × Nat)}
    {addrs : List Word} (ha : s.cur.lead.getX a = some base) (hl : s.cur.lead.vlLen = some vl) (hb : s.cur.lead.shadow b = some sh)
    (he : shadowElems sh (upTo (min vl sh.len)) s = (vs, t)) (hv : (vs.map fun v => base + indexWord sh.tag v.2) = addrs) (pa : Nat) :
    (s.leadGather d a b).homeByte pa = (t.leadFill (gatherAllocates { vbyp := s.cur.vbyp } addrs) addrs).homeByte pa := by
  unfold State.leadGather
  simp only [ha, hl, hb, StateT.run, he, hv]
  rw [homeByte_onLead, homeByte_track]

/-- The gather may allocate its lines (R173). -/
theorem gatherAddresses_allocate : gatherAllocates { vbyp := gatheringHart.vbyp } gatherAddresses = true := by
  unfold gatherAllocates
  rw [gatherAddresses_lines, List.length_range']
  decide

theorem crowded_leadGather : ((gathering crowdedSectors).leadGather 1 1 2).homeByte 0 = 1 := by
  obtain ⟨L, e, h⟩ := crowded_elements
  have allocates : gatherAllocates { vbyp := (gathering crowdedSectors).cur.vbyp } gatherAddresses = true := gatherAddresses_allocate
  rw [homeByte_leadGather (addrs := gatherAddresses) (base := 0x100000) (vl := 2048) (by decide) rfl (by decide) e List.map_map,
    allocates]
  exact h.leadFill

/-! The step -/

/-- The instruction stands in the home slices. -/
theorem gathering_home_word (L : List Sector) : (gathering L).homeRead 0x20000 4 = leBytes 4 gatherWord.toNat := by
  have byte (j : Nat) (hj : j < 4) : (gathering L).homeByte (0x20000 + j) = (leBytes 4 gatherWord.toNat).getD j 0 := by
    unfold State.homeByte
    rw [show (gathering L).l2 = gatheringCells from rfl, gatheringCells, cellGet_append,
      (cellGet_cellsOf true (leBytes 4 gatherWord.toNat) 0x20000 j hj).2 rfl]
    rfl
  unfold State.homeRead
  rw [show upTo 4 = [0, 1, 2, 3] from rfl]
  simp only [List.map_cons, List.map_nil, byte _ (show 0 < 4 by decide), byte _ (show 1 < 4 by decide),
    byte _ (show 2 < 4 by decide), byte _ (show 3 < 4 by decide)]
  rfl

/-- The lead stands at the gather and runs it. -/
theorem gathering_leadStep (L : List Sector) : (gathering L).leadStep = ((gathering L).leadGather 1 1 2).leadNext := by
  have fetch : (gathering L).peekXlate ((gathering L).cur.agent 0) .fetch (gathering L).cur.lead.pc =
      some (gatheringPhys 0x20000, true) := gathering_peek L (.inr rfl) (show gatheringLead.pc.toNat < 2 ^ 29 by decide)
  have sound : (gathering L).badByte (gathering L).cur.core .home (gatheringPhys 0x20000).pa 4 = false := rfl
  have word : (gathering L).codeWord (gathering L).cur.launch (gatheringPhys 0x20000).pa = (gatherWord, gathering L) := by
    have one : (gathering L).codeWords (gathering L).cur.launch (gatheringPhys 0x20000).pa = [gatherWord] := by
      unfold State.codeWords
      rw [show (gatheringPhys 0x20000).pa = 0x20000 from rfl, gathering_home_word]
      rfl
    unfold State.codeWord
    rw [one]
  have running : ¬(!((gathering L).cur.leadActive && !(gathering L).cur.leadStopped && (gathering L).cur.isResident) ||
      decide (512 ≤ (gathering L).cur.lead.buffer.length)) = true := Bool.false_ne_true
  have aligned : ¬(gathering L).cur.lead.pc &&& 3 ≠ 0 := show ¬gatheringLead.pc &&& 3 ≠ 0 by decide
  have decoded : decodeLow gatherWord = .ok (.vldx 1 1 2 0 0 0 0) := by decide
  have free : (gathering L).cur.lead.atBound (gathering L).cur.rad = false :=
    show gatheringLead.atBound gatheringHart.rad = false by decide
  unfold State.leadStep
  dsimp only
  rw [if_neg running, if_neg aligned, fetch]
  dsimp only
  rw [sound, if_neg Bool.false_ne_true, word]
  dsimp only
  rw [decoded]
  dsimp only
  unfold State.leadAt
  dsimp only
  rw [free]
  rfl

/-- The step of this lead writes byte 0 of memory, which was 0. -/
theorem crowded_leadIssue {t : State} (step : exec (.leadIssue 0) (gathering crowdedSectors) = .next t) :
    t.homeByte 0 = 1 ∧ (gathering crowdedSectors).homeByte 0 = 0 := by
  have run : exec (.leadIssue 0) (gathering crowdedSectors) = .next (gathering crowdedSectors).leadStep := rfl
  have after : (gathering crowdedSectors).leadStep = t := Host.Outcome.next.inj (run.symm.trans step)
  rw [← after, gathering_leadStep, homeByte_leadNext]
  exact ⟨crowded_leadGather, gathering_home_zero _⟩

/-- Its sectors are tidy. -/
theorem crowded_tidy : (gathering crowdedSectors).Tidy := fun x hx => by
  rcases List.mem_cons.1 hx with rfl | hx
  · exact ⟨rfl, rfl⟩
  · obtain ⟨i, -, rfl⟩ := List.mem_map.1 hx
    exact ⟨BitVec.zero_and, Nat.mul_mod_right 64 (i + 1)⟩

/-- The caches have the room that the statement asks for. -/
theorem crowded_roomy : (gathering crowdedSectors).Roomy := by
  have dirty : (gathering crowdedSectors).l2.length = 8196 := by
    show gatheringCells.length = 8196
    rw [gatheringCells, List.length_append, cellsOf_length, cellsOf_length, List.length_map, upTo, List.length_range,
      show (leBytes 4 gatherWord.toNat).length = 4 from rfl]
  have held : (gathering crowdedSectors).l1.length = 1024 := crowded_crowd.length
  have none_ : (gathering crowdedSectors).visitors.length = 0 := rfl
  refine ⟨?_, ?_⟩
  · rw [held]
  · rw [dirty, none_]
    unfold sliceLines
    norm_num

/-- Refutes O53: a gather of the lead can bring 2,049 lines, 4,098 sectors, into an L1 (the 2,048 lines of its elements and those of
the index array that it re-reads, R238, R239), and `State.Roomy` lets the L1 hold 1,024 sectors before. Where a spill region takes the
whole L1 (R88), the last of these lines makes all the others leave, and a dirty byte of one changes its home. -/
theorem not_leadHart : ¬ Obligations.LeadHart := by
  unfold Obligations.LeadHart
  intro h
  obtain ⟨t, step, -, -, -, -, fills, -⟩ := (h (gathering crowdedSectors) 0 0 0 0 0 { pa := 0, attr := .cached }).1
    (by decide) (fun n hn => by cases hn; exact le_rfl)
  obtain ⟨after, before⟩ := crowded_leadIssue step
  have same : t.homeByte 0 = (gathering crowdedSectors).homeByte 0 := (fills crowded_tidy crowded_roomy 0 0).1
  rw [after, before] at same
  exact absurd same (by decide)

end Sys2Proof.Machine
end

section
/-! The words of instructions (R21, R24-R29): the encoder gives back every word that the decoder accepts, and the decoder every
instruction that the encoder writes. -/

namespace Sys2Proof

/-! The fields of a word that is written part by part -/

/-- Bit `i` of a field. -/
theorem getElem_fld {w : BitVec 32} {lo len i : Nat} (h : i < len) : (fld w lo len)[i] = w.getLsbD (lo + i) :=
  BitVec.getElem_extractLsb' h

/-- The field of all 32 bits. -/
theorem fld_word (w : BitVec 32) : fld w 0 32 = w := extract_all w

/-- The major opcode as a number (R21). -/
theorem fld_major_toNat (w : BitVec 32) : (fld w 26 6).toNat = w.toNat / 2 ^ 26 := by
  have := w.isLt
  simp only [fld, BitVec.extractLsb'_toNat, Nat.shiftRight_eq_div_pow]
  omega

/-- A field is a concatenation when the parts are its upper and its lower bits. -/
theorem append_eq_fld {v n lo : Nat} {x : BitVec v} {y : BitVec n} {w : BitVec 32} (hx : x = fld w (lo + n) v)
    (hy : y = fld w lo n) : x ++ y = fld w lo (v + n) := by
  subst hx hy
  ext i hi
  rw [BitVec.getElem_append, getElem_fld]
  split
  · exact getElem_fld _
  · rw [getElem_fld]
    congr 1
    omega

/-- A test that reaches beyond the last part of a word fails where it asks for other bits than that part has. -/
theorem test_beyond {v n len : Nat} {x : BitVec v} {y : BitVec n} {c : BitVec len} (h : n < len) (hc : c.extractLsb' 0 n ≠ y) :
    ((x ++ y).extractLsb' 0 len == c) = false := by
  rw [beq_eq_false_iff_ne]
  rintro rfl
  refine hc ?_
  rw [BitVec.extractLsb'_extractLsb'_of_le (by omega)]
  exact (extract_low x y 0 n (by omega)).trans (extract_all y)

/-! From a word to its instruction and back -/

/-- What is read from `w` is a well-formed instruction whose word is `w`. -/
def ReadsBack (w : BitVec 32) (r : Except Reject Instr) : Prop := ∀ i, r = .ok i → encode i = some w ∧ i.wellFormed = true

theorem ReadsBack.error {w : BitVec 32} (e : Reject) : ReadsBack w (.error e) := fun _ h => nomatch h

theorem ReadsBack.accept {w : BitVec 32} {m : BitVec 6} {i : Instr} (h : encode i = some (fld w 0 32)) :
    ReadsBack w (accept m i) := by
  intro j hj
  unfold Sys2Proof.accept at hj
  split at hj
  · cases hj
    exact ⟨h.trans (congrArg some (fld_word w)), ‹_›⟩
  · nomatch hj

/-- A choice of the decoder reads back when both of its sides do. -/
theorem ReadsBack.ite {w : BitVec 32} {c : Prop} [Decidable c] {a b : Except Reject Instr} (ha : c → ReadsBack w a)
    (hb : ReadsBack w b) : ReadsBack w (if c then a else b) := by
  split
  · exact ha ‹_›
  · exact hb

/-- A row of a major reads back when its tests leave no bit of its word open but the operands. -/
theorem ReadsBack.row {w : BitVec 32} {c : Bool} {m : BitVec 6} {i : Instr} {rest : Except Reject Instr}
    (h : c = true → encode i = some (fld w 0 32)) (hr : ReadsBack w rest) :
    ReadsBack w (if c then Sys2Proof.accept m i else rest) :=
  .ite (fun tests => .accept (h tests)) hr

/-- The decoder reads back (R28): by the choice of the major, then row by row. The word of a row's instruction is put together from
the operands, which are fields of `w`, and the constants that the tests of the major and of the row have found in `w`. -/
theorem decode_readsBack (w : BitVec 32) : ReadsBack w (decode w) := by
  unfold decode
  repeat' with_reducible refine ReadsBack.ite (fun major => ?_) ?_
  all_goals repeat' refine ReadsBack.row (fun tests => ?_) ?_
  any_goals exact ReadsBack.error _
  any_goals refine ReadsBack.accept ?_
  -- One goal for each row: its word is `w`, part by part.
  all_goals
    simp only [beq_iff_eq, Bool.and_eq_true] at *
    refine congrArg some ?_
    repeat' refine append_eq_fld ?_ ?_
    all_goals simp only [Nat.reduceAdd, *]

/-- The majors 0x00, 0x3D, 0x3E and 0x3F hold no instruction (R28). -/
theorem decode_reservedMajor {w : BitVec 32} (h : w.toNat / 2 ^ 26 ∈ [0x00, 0x3D, 0x3E, 0x3F]) (i : Instr) :
    decode w ≠ .ok i := by
  have major : fld w 26 6 ∈ [0x00#6, 0x3D#6, 0x3E#6, 0x3F#6] := by
    have field : fld w 26 6 = BitVec.ofNat 6 (w.toNat / 2 ^ 26) := by
      rw [← fld_major_toNat, BitVec.ofNat_toNat, BitVec.setWidth_eq]
    rw [field]
    exact List.mem_map_of_mem (f := BitVec.ofNat 6) h
  have rejected : ∃ r, decode w = .error r := by
    simp only [List.mem_cons, List.not_mem_nil, or_false] at major
    rcases major with m | m | m | m <;> exact ⟨_, by simp only [decode, m]; rfl⟩
  obtain ⟨r, e⟩ := rejected
  rw [e]
  exact fun accepted => nomatch accepted

/-! From an instruction to its word and back -/

theorem accept_of_wellFormed {m : BitVec 6} {i : Instr} (h : i.wellFormed = true) : accept m i = .ok i := if_pos h

/-- The word of a well-formed instruction decodes to it. Each constructor has one word, and an event none. Every field that the
decoder reads of this word is one of its parts (`extract_low`, `extract_high`) or reaches beyond the last one (`test_beyond`), so
the tests of the rows before its own fail, those of its own row hold, and the operands are found where they were put. -/
theorem decode_encode {i : Instr} {w : BitVec 32} (wf : i.wellFormed = true) (e : encode i = some w) : decode w = .ok i := by
  cases i <;> cases e
  all_goals
    simp (disch := decide) only [decode,
      decodeMajor01, decodeMajor02, decodeMajor03, decodeMajor04, decodeMajor05, decodeMajor06, decodeMajor07, decodeMajor08,
      decodeMajor09, decodeMajor0A, decodeMajor0B, decodeMajor0C, decodeMajor0D, decodeMajor0E, decodeMajor0F, decodeMajor10,
      decodeMajor11, decodeMajor12, decodeMajor13, decodeMajor14, decodeMajor15, decodeMajor16, decodeMajor17, decodeMajor18,
      decodeMajor19, decodeMajor1A, decodeMajor1B, decodeMajor1C, decodeMajor1D, decodeMajor1E, decodeMajor1F, decodeMajor20,
      decodeMajor21, decodeMajor22, decodeMajor23, decodeMajor24, decodeMajor25, decodeMajor26, decodeMajor27, decodeMajor28,
      decodeMajor29, decodeMajor2A, decodeMajor2B, decodeMajor2C, decodeMajor2D, decodeMajor2E, decodeMajor2F, decodeMajor30,
      decodeMajor31, decodeMajor32, decodeMajor33, decodeMajor34, decodeMajor35, decodeMajor36, decodeMajor37, decodeMajor38,
      decodeMajor39, decodeMajor3A, decodeMajor3B, decodeMajor3C,
      fld, extract_low, extract_high, extract_all, test_beyond, accept_of_wellFormed wf, Nat.reduceSub, BitVec.reduceBEq,
      BitVec.reduceExtractLsb', Bool.and_false, Bool.false_and, Bool.and_self, Bool.false_eq_true, ↓reduceIte]

/-! The obligations -/

/-- Settles O1, by cases on the instruction (`decode_encode`). -/
theorem decodeEncode : Obligations.DecodeEncode := fun _ _ wf e => decode_encode wf e

/-- Settles O2, row by row of the decoder (`decode_readsBack`). -/
theorem encodeDecode : Obligations.EncodeDecode := by
  intro w i h
  obtain ⟨word, wf⟩ := decode_readsBack w i h
  exact ⟨word, wf, fun reserved => decode_reservedMajor reserved i h⟩

/-- Settles O3: each word is that of its instruction (`decode_encode`), and the reserved majors hold none. -/
theorem decodeWords : Obligations.DecodeWords :=
  ⟨decode_encode rfl rfl, decode_encode rfl rfl, decode_encode rfl rfl, decode_encode rfl rfl, decode_encode rfl rfl,
    decode_encode rfl rfl, decode_encode rfl rfl, decode_encode rfl rfl, fun _ h i => decode_reservedMajor h i⟩

/-- Settles O10, from the laws of the register files (R25). -/
theorem hardwiredRegisters : Obligations.HardwiredRegisters := by
  intro h v c m
  refine ⟨rfl, rfl, rfl, rfl, rfl, rfl, fun r q hr => ?_, fun r q hr => ?_, fun r q hr => ?_⟩
  · split
    case isTrue same => rw [same, Machine.Hart.getX_setX_same h hr]
    case isFalse other => exact Machine.Hart.getX_setX_other h other v
  · split
    case isTrue same => rw [same, Machine.Hart.getC_setC_same h hr]
    case isFalse other => exact Machine.Hart.getC_setC_other h other c
  · split
    case isTrue same => rw [same, Machine.Hart.getM_setM_same h hr]
    case isFalse other => exact Machine.Hart.getM_setM_other h other m

end Sys2Proof
end

section
/-! One step (R22, R23, R29, R30): what a hart runs next, and the word that it fetches. -/

namespace Sys2Proof.Machine

/-! The word of code -/

/-- The word that is fetched is one that stood there (R23). -/
theorem codeWord_mem (s : State) (launch pa : Nat) : (s.codeWord launch pa).1 ∈ s.codeWords launch pa := by
  unfold State.codeWord
  split
  case h_1 w only => exact only ▸ List.mem_singleton_self w
  case h_2 =>
    have some_ : 0 < (s.codeWords launch pa).length := Nat.succ_pos _
    dsimp only
    rw [List.getD_eq_getElem _ _ (Nat.mod_lt _ some_)]
    exact List.getElem_mem _

/-- Where code has not changed the word is the one in memory, and nothing is drawn. -/
theorem codeWord_of_unchanged {s : State} (h : s.recoded = []) (launch pa : Nat) :
    s.codeWord launch pa = (BitVec.ofNat 32 (leNat (s.homeRead pa 4)), s) := by
  simp only [State.codeWord, State.codeWords, h, List.filter_nil, List.map_nil]

/-- A draw leaves the hart in front as it is. -/
@[simp] theorem draw_cur (s : State) : s.draw.2.cur = s.cur := by
  unfold State.draw
  split <;> rfl

@[simp] theorem codeWord_cur (s : State) (launch pa : Nat) : (s.codeWord launch pa).2.cur = s.cur := by
  unfold State.codeWord
  split
  · rfl
  · exact draw_cur s

/-- A hart without early writes has nothing to note of them. -/
theorem onCur_depends_of_noEarly {s : State} (h : s.cur.early = []) (w : BitVec 32) (i : Instr) :
    s.onCur (Hart.depends w i) = s := by
  obtain ⟨cur⟩ := s
  obtain ⟨⟩ := cur
  cases h
  rfl

/-! What a hart runs next -/

section
variable {s : State} (resident : s.cur.isResident = true)
include resident

theorem nextRow_preempted (leaves : s.mustLeave s.cur = true) (up : s.cur.wait = .awake ∨ s.cur.wait = .exit) :
    s.nextRow = some (.preemption s.cur.uid, s) := by
  unfold State.nextRow
  rcases up with up | up <;> simp [resident, up, leaves]

theorem nextRow_exit (stays : s.mustLeave s.cur = false) (exits : s.cur.wait = .exit) : s.nextRow = some (.exit, s) := by
  unfold State.nextRow
  simp [resident, exits, stays]

omit resident in
theorem nextRow_asleep (h1 : s.cur.wait ≠ .awake) (h2 : s.cur.wait ≠ .exit) : s.nextRow = none := by
  unfold State.nextRow
  rw [if_pos]
  simp [h1, h2]

variable (stays : s.mustLeave s.cur = false) (awake : s.cur.wait = .awake)
include stays awake

theorem nextRow_interrupted (irq : (s.cur.irq && s.cur.status.ie && !s.cur.midway) = true) :
    s.nextRow = some (.faultPostedInterrupt s.cur.uid, s) := by
  unfold State.nextRow
  rw [if_neg (by simp [resident, awake]), stays, if_neg (by decide), awake, if_neg (by decide), if_pos irq]

variable (calm : (s.cur.irq && s.cur.status.ie && !s.cur.midway) = false)
include calm

theorem nextRow_of_wrote (wrote : s.wrote.contains s.cur.uid = true) : s.nextRow = none := by
  unfold State.nextRow
  rw [if_neg (by simp [resident, awake]), stays, if_neg (by decide), awake, if_neg (by decide), calm, if_neg (by decide),
    if_pos wrote]

variable (free : s.wrote.contains s.cur.uid = false)
include free

theorem nextRow_of_fetchFault {t : State} {c : BitVec 8} (fetched : s.fetch = (.error c, t)) :
    s.nextRow = some (.fetchFault c s.cur.pc, t) := by
  simp only [State.nextRow, resident, awake, stays, calm, free, fetched, Bool.not_true, bne_self_eq_false, Bool.false_and,
    Bool.or_self, Bool.false_eq_true, reduceCtorEq, ↓reduceIte]

theorem nextRow_of_instruction {t : State} {w : BitVec 32} {i : Instr} (fetched : s.fetch = (.ok w, t))
    (decodes : decode w = .ok i) : s.nextRow = some (i, t.onCur (Hart.depends w i)) := by
  simp only [State.nextRow, resident, awake, stays, calm, free, fetched, decodes, Bool.not_true, bne_self_eq_false, Bool.false_and,
    Bool.or_self, Bool.false_eq_true, reduceCtorEq, ↓reduceIte]

theorem nextRow_of_noInstruction {t : State} {w : BitVec 32} (fetched : s.fetch = (.ok w, t))
    (rejects : ∀ i, decode w ≠ .ok i) : s.nextRow = some (.notAnInstruction w, t) := by
  cases e : decode w with
  | ok i => exact absurd e (rejects i)
  | error r =>
    simp only [State.nextRow, resident, awake, stays, calm, free, fetched, e, Bool.not_true, bne_self_eq_false, Bool.false_and,
      Bool.or_self, Bool.false_eq_true, reduceCtorEq, ↓reduceIte]

end

/-- The step of a hart that is named on the agenda (notes/assumptions/6.md). -/
theorem step_of_named {s z : State} {u : Nat} {rest : List Item} (next : s.agenda = .hart u :: rest)
    (front : State.focus { s with agenda := rest } u = some z) : step s = z.hartStep := by
  unfold step State.runItem
  simp only [next, front]

/-- The step of a hart that runs a row. -/
theorem hartStep_of_row {s t : State} {i : Instr} (h : s.nextRow = some (i, t)) : s.hartStep = exec i t := by
  unfold State.hartStep
  simp only [h]

/-- The step of a hart that has no row. -/
theorem hartStep_of_none {s : State} (h : s.nextRow = none) : s.hartStep = .next s := by
  unfold State.hartStep
  simp only [h]

/-! The fetch -/

theorem fetch_of_fault {s t : State} {c : BitVec 8} (h : s.xlate (s.cur.agent 0) .fetch s.cur.pc = (.error c, t)) :
    s.fetch = (.error c, t) := by
  unfold State.fetch
  simp only [h]

theorem fetch_of_bad {s t : State} {p : Phys} (h : s.xlate (s.cur.agent 0) .fetch s.cur.pc = (.ok p, t))
    (bad : t.badByte t.cur.core .home p.pa 4 = true ∨ t.cur.undelivers p.pa 4 = true) : s.fetch = (.error 0x0D, t) := by
  unfold State.fetch
  simp only [h]
  exact if_pos (Bool.or_eq_true_iff.2 bad)

theorem fetch_of_word {s t : State} {p : Phys} (h : s.xlate (s.cur.agent 0) .fetch s.cur.pc = (.ok p, t))
    (good : t.badByte t.cur.core .home p.pa 4 = false) (delivers : t.cur.undelivers p.pa 4 = false) :
    s.fetch = (.ok (t.codeWord t.cur.launch p.pa).1, (t.codeWord t.cur.launch p.pa).2) := by
  unfold State.fetch
  simp only [h, good, delivers, Bool.or_self, Bool.false_eq_true, ↓reduceIte]

/-- Settles O4: by what stands on the agenda, and for a hart by the row that it runs next. -/
theorem stepRunsDecoded : Obligations.StepRunsDecoded := by
  intro s z t u rest i p c code issued
  refine ⟨fun next => ?_, fun next front resident => ?_, codeWord_mem t _ _, fun same => codeWord_of_unchanged same _ _, rfl,
    fun noEarly => onCur_depends_of_noEarly (by rw [codeWord_cur]; exact noEarly) _ _⟩
  · unfold step State.runItem
    simp only [next]
  · rw [step_of_named next front]
    refine ⟨fun leaves up => hartStep_of_row (nextRow_preempted resident leaves up), fun stays awake => ⟨?_, ?_, ?_⟩,
      fun stays exits => hartStep_of_row (nextRow_exit resident stays exits),
      fun asleep noExit => hartStep_of_none (nextRow_asleep asleep noExit)⟩
    · exact fun irq => hartStep_of_row (nextRow_interrupted resident stays awake irq)
    · exact fun calm wrote => hartStep_of_none (nextRow_of_wrote resident stays awake calm wrote)
    · refine fun calm free => ⟨fun found => ⟨fun good delivers => ⟨fun decodes => ?_, fun rejects => ?_⟩, fun bad => ?_⟩,
        fun failed => ?_⟩
      · exact hartStep_of_row (nextRow_of_instruction resident stays awake calm free (fetch_of_word found good delivers) decodes)
      · exact hartStep_of_row (nextRow_of_noInstruction resident stays awake calm free (fetch_of_word found good delivers) rejects)
      · exact hartStep_of_row (nextRow_of_fetchFault resident stays awake calm free (fetch_of_bad found bad))
      · exact hartStep_of_row (nextRow_of_fetchFault resident stays awake calm free (fetch_of_fault failed))

end Sys2Proof.Machine
end

section
/-! Traps of the control registers and of the privileged instructions (R30, R157, R158, R381, R386-R390). -/

namespace Sys2Proof.Machine

/-! What a hart that traps or leaves changes of itself -/

theorem Hart.giveUp_eq (h : Hart) (keeps : Bool) :
    ∃ kept arrived, h.giveUp keeps = { h with captured := kept, syncArrived := arrived, wait := .awake } := by
  cases keeps <;> exact ⟨_, _, rfl⟩

theorem Hart.leavesFor_eq (h : Hart) (resume : Word) :
    ∃ kept arrived, h.leavesFor resume = { h with captured := kept, syncArrived := arrived } := by
  unfold Hart.leavesFor
  split <;> exact ⟨_, _, rfl⟩

theorem Hart.stopLead_eq (h : Hart) : ∃ stopped lead, h.stopLead = { h with leadStopped := stopped, lead := lead } := by
  unfold Hart.stopLead
  split <;> exact ⟨_, _, rfl⟩

/-! The vectored entry -/

/-- What the vectored entry changes of a hart (R381, R388). -/
theorem Hart.vectorEntry_eq (h : Hart) : ∃ kept arrived stopped lead held progress tide, h.vectorEntry =
    { h with
      status := { h.status with pie := h.status.ie, pprv := h.status.sup, ie := false, sup := true }, pc := h.tvec &&& ~~~3
      links := [], captured := kept, syncArrived := arrived, leadStopped := stopped, lead := lead, heldProgress := held
      progress := progress, tide := tide, wait := .awake, midway := false, resumed := false, refork := false } := by
  obtain ⟨a, b, left⟩ := h.leavesFor_eq h.pc
  obtain ⟨c, d, stopped⟩ := (h.leavesFor h.pc).stopLead_eq
  unfold Hart.vectorEntry
  rw [stopped, left]
  exact ⟨_, _, _, _, _, _, _, rfl⟩

/-- A trap of a hart in supervisor mode with a handler vectors (R381), unless its cause is 0x0D or it always parks. -/
theorem vectors_takeTrap {s : State} {t : Trap} (h : s.cur.handles) (known : t.cause ≠ 0x0D) (vectors : t.parks = false) :
    Vectors s (.next (s.takeTrap t)) t.cause t.tval t.tidx := by
  obtain ⟨sup, tvec⟩ := h
  have here : s.cur.parksOn t = false := by
    simp only [Hart.parksOn, sup, vectors, beq_eq_false_iff_ne.2 tvec, beq_eq_false_iff_ne.2 known, Bool.not_true, Bool.or_self]
  have entry : s.takeTrap t = { s with cur := ((s.cur.trapRegisters t).giveUp t.keeps).vectorEntry } := takeTrap_vectors here
  obtain ⟨_, _, given⟩ := (s.cur.trapRegisters t).giveUp_eq t.keeps
  obtain ⟨_, _, _, _, _, _, _, entered⟩ := ((s.cur.trapRegisters t).giveUp t.keeps).vectorEntry_eq
  rw [entry, entered, given]
  exact ⟨_, rfl, rfl, rfl, rfl, rfl, rfl, rfl, rfl, rfl, rfl, rfl, rfl, rfl, rfl, sameMemory_of rfl rfl rfl rfl rfl rfl⟩

/-! Parking -/

/-- What the statement on parking looks at: the saved address, the cause, the x registers and the status. -/
def Hart.trapView (h : Hart) : Word × BitVec 8 × Vector Word 32 × Status := (h.epc, h.tcause, h.x, h.status)

theorem trimHome_cur (s : State) (pa n : Nat) : (s.trimHome pa n).cur = s.cur := by
  unfold State.trimHome
  split
  · rfl
  · refine foldl_kept _ (fun t : State => t.cur = s.cur) (fun t i h => ?_) _ _ rfl
    unfold State.homeTrim State.giveLine
    dsimp only
    split_ifs <;> exact h

/-- Bytes that reach their home change the early writes and the links of the hart in front alone. -/
theorem homePut_trapView (s : State) (pa : Nat) (bs : List Byte) (pick : Hart → Bool) :
    (s.homePut pa bs pick).cur.trapView = s.cur.trapView := by
  have before : (if touchesTile pa bs.length then { s with hbm := cellsWrite false s.hbm pa bs }
      else { s with l2 := cellsWrite true s.l2 pa bs }.trimHome pa bs.length).cur = s.cur := by
    split
    · rfl
    · exact trimHome_cur _ _ _
  unfold State.homePut
  dsimp only [State.mapHarts]
  rw [before]
  split <;> rfl

theorem homeWrite_trapView (s : State) (pa : Nat) (bs : List Byte) : (s.homeWrite pa bs).cur.trapView = s.cur.trapView := by
  obtain ⟨p, d, e⟩ := countHome_counts s pa bs.length
  unfold State.homeWrite
  rw [e]
  exact homePut_trapView { s with perf := p, draws := d } pa bs fun _ => true

theorem writeBackSector_trapView (s : State) (x : Sector) : (s.writeBackSector x).cur.trapView = s.cur.trapView := by
  have sent (pick : Hart → Bool) (is : List Nat) (u : State) (h : u.cur = s.cur) :
      (is.foldl (fun t i => t.homePut (x.addr + i) [sectorByte x.data i] pick) u).cur.trapView = s.cur.trapView :=
    foldl_kept _ (fun t : State => t.cur.trapView = s.cur.trapView) (fun t _ h => (homePut_trapView t _ _ _).trans h) is u
      (congrArg Hart.trapView h)
  refine sent _ _ _ ?_
  split
  · rfl
  · obtain ⟨p, d, e⟩ := countHomeSent_counts s (if 256 ≤ x.cache then 4 * (x.cache - 256) else x.cache) x.addr 64
      ((upTo 64).filter fun i => x.dirty.getLsbD i && !x.bad.getLsbD i).length true
    rw [e]

theorem releaseBy_trapView (s : State) (core scope : Nat) : (s.releaseBy core scope).cur.trapView = s.cur.trapView := by
  unfold State.releaseBy
  split
  · exact foldl_kept _ (fun t : State => t.cur.trapView = s.cur.trapView)
      (fun t x h => (writeBackSector_trapView t x).trans h) _ s rfl
  · rfl

theorem writeSaveArea_trapView (s : State) : s.writeSaveArea.cur.trapView = s.cur.trapView := by
  have written := foldl_kept (fun (t : State) (p : Nat × List Byte) => t.homeWrite (t.cur.handle + p.1) p.2)
    (fun t : State => t.cur.trapView = s.cur.trapView) (fun t p h => (homeWrite_trapView t _ _).trans h) (s.saveArea s.cur) s rfl
  unfold State.writeSaveArea
  dsimp only
  generalize List.foldl _ s _ = u at written ⊢
  exact written

theorem departing_trapView (h : Hart) (resume shore : Word) : (h.departing resume shore).trapView = h.trapView := by
  obtain ⟨a, b, e⟩ := h.leavesFor_eq resume
  unfold Hart.departing
  rw [e]
  rfl

theorem saveContext_trapView (s : State) (resume : Word) : (s.saveContext resume).cur.trapView = s.cur.trapView :=
  ((writeSaveArea_trapView _).trans (departing_trapView _ _ _)).trans (releaseBy_trapView s _ _)

theorem giveBack_cur (s : State) : s.giveBack.cur = s.cur := by
  unfold State.giveBack State.takeBars
  dsimp only
  split <;> rfl

theorem leaveBuffer_cur (s : State) (launch group : Nat) : (s.leaveBuffer launch group).cur = s.cur := by
  unfold State.leaveBuffer
  split
  · refine foldl_kept _ (fun t : State => t.cur = s.cur) (fun t x h => ?_) _ s rfl
    dsimp only
    split
    · exact h
    · unfold State.stow
      dsimp only
      split <;> exact h
  · rfl

/-- A hart whose fault is posted is parked, and keeps all else but its lane groups. -/
theorem vacate_some_cur (s : State) (r : FaultRecord) :
    (s.vacate (some r)).cur = { s.cur with place := .parked (r.flags.getLsbD 1), held := 0 } := leaveBuffer_cur _ _ _

/-- A hart that leaves its core with a fault record and without an error is parked. -/
theorem leaveCore_parks {s : State} (calm : s.leavingError = none) (resume : Word) (r : FaultRecord) :
    (s.leaveCore resume (some r)).cur.trapView = s.cur.trapView ∧ ∃ b, (s.leaveCore resume (some r)).cur.place = .parked b := by
  have e : s.leaveCore resume (some r) = (s.saveContext resume).vacate (some r) := by simp only [State.leaveCore, calm]
  rw [e, vacate_some_cur]
  exact ⟨saveContext_trapView s resume, _, rfl⟩

/-- A hart that begins to leave its core with a fault record parks, or waits for its commands (R256). -/
theorem beginLeave_parks {s : State} (calm : s.leavingError = none) (resume : Word) (r : FaultRecord) :
    (s.beginLeave resume (some r)).cur.trapView = s.cur.trapView ∧
      ((∃ b, (s.beginLeave resume (some r)).cur.place = .parked b) ∨
        ∃ x y, (s.beginLeave resume (some r)).cur.wait = .leaving x y) := by
  obtain ⟨a, b, e⟩ := s.cur.stopLead_eq
  unfold State.beginLeave State.onCur
  rw [e]
  dsimp only
  split
  · exact ⟨rfl, .inr ⟨_, _, rfl⟩⟩
  · obtain ⟨view, parked⟩ := leaveCore_parks (s := { s with cur := { s.cur with leadStopped := a, lead := b } }) calm resume r
    exact ⟨view, .inl parked⟩

/-- A trap of a hart in user mode parks it (R381, R390), or makes it wait to park. -/
theorem takeTrap_user {s : State} (user : s.cur.status.sup = false) (calm : s.leavingError = none) (t : Trap) :
    (s.takeTrap t).cur.tcause = t.cause ∧ (s.takeTrap t).cur.epc = s.cur.pc ∧ (s.takeTrap t).cur.x = s.cur.x ∧
      (s.takeTrap t).cur.status = s.cur.status ∧
      ((∃ b, (s.takeTrap t).cur.place = .parked b) ∨ ∃ x y, (s.takeTrap t).cur.wait = .leaving x y) := by
  have here : s.cur.parksOn t = true := by simp [Hart.parksOn, user]
  have leaves : s.takeTrap t = ({ s with cur := (s.cur.trapRegisters t).giveUp t.keeps } : State).beginLeave
      (if t.after then s.cur.pc + 4 else s.cur.pc) (some (s.faultRecord (s.cur.trapRegisters t) t.cause false)) :=
    takeTrap_parks here
  obtain ⟨a, b, given⟩ := (s.cur.trapRegisters t).giveUp_eq t.keeps
  rw [leaves, given]
  obtain ⟨view, gone⟩ := beginLeave_parks
    (s := { s with cur := { s.cur.trapRegisters t with captured := a, syncArrived := b, wait := .awake } }) calm
    (if t.after then s.cur.pc + 4 else s.cur.pc) (s.faultRecord (s.cur.trapRegisters t) t.cause false)
  simp only [Hart.trapView, Hart.trapRegisters, Prod.mk.injEq] at view
  obtain ⟨epc, tcause, x, status⟩ := view
  exact ⟨tcause, epc, x, status, gone⟩

end Sys2Proof.Machine
end

section
/-! The checks of control-register accesses (R158), and the traps that they and privileged instructions take. -/

namespace Sys2Proof.Machine

/-! The word of a CR instruction as a number (R24) -/

/-- A concatenation as a number. -/
theorem append_toNat {v n : Nat} (x : BitVec v) (y : BitVec n) : (x ++ y).toNat = x.toNat * 2 ^ n + y.toNat := by
  rw [BitVec.toNat_append, ← Nat.shiftLeft_add_eq_or_of_lt y.isLt, Nat.shiftLeft_eq]

/-- The value that a trap with a word reports is that word. -/
theorem ofNat_eq_setWidth {w : BitVec 32} {n : Nat} (h : w.toNat = n) : BitVec.ofNat 64 n = w.setWidth 64 := by
  rw [← h, BitVec.ofNat_toNat]

theorem toNat_of_encode_crr {d : BitVec 5} {n : BitVec 12} {w : BitVec 32} (h : encode (.crr d n) = some w) :
    w.toNat = ctlWord d.toNat 0 n.toNat 0 := by
  rw [← Option.some.inj h]
  simp only [append_toNat, ctlWord, BitVec.toNat_ofNat]
  omega

theorem toNat_of_encode_crw {a : BitVec 5} {n : BitVec 12} {w : BitVec 32} (h : encode (.crw a n) = some w) :
    w.toNat = ctlWord 0 a.toNat n.toNat 1 := by
  rw [← Option.some.inj h]
  simp only [append_toNat, ctlWord, BitVec.toNat_ofNat]
  omega

/-! The checks -/

section
variable {s : State} {n : BitVec 12} {r : CtlReg}

theorem ctlCheck_unlisted (h : CtlReg.ofNumber n = none) (write : Bool) (word : Nat) :
    s.ctlCheck n write word = .error { cause := 0x01, tval := BitVec.ofNat 64 word } := by
  simp only [State.ctlCheck, h]

theorem ctlCheck_refused (h : CtlReg.ofNumber n = some r) (ha : r.access s.cur.status.sup = .refused) (write : Bool)
    (word : Nat) : s.ctlCheck n write word = .error { cause := 0x11 } := by
  simp only [State.ctlCheck, h, ha]

theorem ctlCheck_readOnly (h : CtlReg.ofNumber n = some r) (ha : r.access s.cur.status.sup = .readOnly) (word : Nat) :
    s.ctlCheck n true word = .error { cause := 0x01 } := by
  simp only [State.ctlCheck, h, ha, ↓reduceIte]

theorem ctlCheck_readWrite (h : CtlReg.ofNumber n = some r) (ha : r.access s.cur.status.sup = .readWrite) (write : Bool)
    (word : Nat) : s.ctlCheck n write word = .ok r := by
  simp only [State.ctlCheck, h, ha]

/-! The instructions -/

theorem exec_crr_of_error {d : BitVec 5} {t : Trap} (h : s.ctlCheck n false (ctlWord d.toNat 0 n.toNat 0) = .error t) :
    exec (.crr d n) s = .next (s.takeTrap t) := by
  show execCrr d n s = _
  simp only [execCrr, h]

theorem ctlModify_of_error {word : Nat} {f : Word → Word} {t : Trap} (h : s.ctlCheck n true word = .error t) :
    ctlModify word n f s = .next (s.takeTrap t) := by
  simp only [ctlModify, h]

/-- A value that a field's map forbids traps (R158 step 4). -/
theorem ctlModify_of_forbidden {word : Nat} {f : Word → Word} (h : s.ctlCheck n true word = .ok r)
    (forbidden : r.forbids (f (s.ctlLatest r)) = true) : ctlModify word n f s = .next (s.takeTrap { cause := 0x01 }) := by
  simp only [ctlModify, h, forbidden, ↓reduceIte]

theorem exec_crw (a : BitVec 5) (n : BitVec 12) (s : State) :
    exec (.crw a n) s = ctlModify (ctlWord 0 a.toNat n.toNat 1) n (fun _ => s.x a) s := rfl

theorem exec_crs (a : BitVec 5) (n : BitVec 12) (s : State) :
    exec (.crs a n) s = ctlModify (ctlWord 0 a.toNat n.toNat 2) n (fun v => v ||| s.x a) s := rfl

theorem exec_crc (a : BitVec 5) (n : BitVec 12) (s : State) :
    exec (.crc a n) s = ctlModify (ctlWord 0 a.toNat n.toNat 3) n (fun v => v &&& ~~~s.x a) s := rfl

theorem exec_tret_user (user : s.cur.status.sup = false) : exec .tret s = .next (s.takeTrap { cause := 0x11 }) := by
  show execTret s = _
  simp only [execTret, user, Bool.not_false, ↓reduceIte]

theorem exec_wfi_user (user : s.cur.status.sup = false) : exec .wfi s = .next (s.takeTrap { cause := 0x11 }) := by
  show execWfi s = _
  simp only [execWfi, user, Bool.not_false, ↓reduceIte]

end

/-! The access columns of R157 in user mode -/

theorem access_of_supervisorOnly {r : CtlReg} (h : r ∈ [CtlReg.epc, .tcause, .tval, .tidx, .tvec, .partmv]) :
    r.access false = .refused := by
  revert r
  decide

theorem access_of_userReadable {r : CtlReg} (h : r ∈ [CtlReg.status, .tidectl, .bxstag, .agetime, .revoke]) :
    r.access false = .readOnly := by
  revert r
  decide

/-- Settles O21: each access ends in the trap that the checks of R158 give (`ctlCheck_unlisted` and its fellows), which vectors in
supervisor mode (`vectors_takeTrap`) and parks in user mode (`takeTrap_user`). -/
theorem controlRegisterTraps : Obligations.ControlRegisterTraps := by
  have vectors {s : State} (handles : s.cur.handles) (tval : Word) :
      Vectors s (.next (s.takeTrap { cause := 0x01, tval := tval })) 0x01 tval 0 :=
    vectors_takeTrap handles (show (0x01 : BitVec 8) ≠ 0x0D by decide) rfl
  refine ⟨fun s d a n handles => ⟨fun unlisted w word => ?_, fun unlisted w word => ?_, fun r listed =>
    ⟨fun readOnly => ?_, fun readWrite forbidden => ?_⟩⟩, ?_⟩
  · rw [exec_crr_of_error (ctlCheck_unlisted unlisted _ _), ofNat_eq_setWidth (toNat_of_encode_crr word)]
    exact vectors handles _
  · rw [exec_crw, ctlModify_of_error (ctlCheck_unlisted unlisted _ _), ofNat_eq_setWidth (toNat_of_encode_crw word)]
    exact vectors handles _
  · have traps (word : Nat) (f : Word → Word) : Vectors s (ctlModify word n f s) 0x01 0 0 := by
      rw [ctlModify_of_error (ctlCheck_readOnly listed (handles.1 ▸ readOnly) word)]
      exact vectors handles 0
    rw [exec_crw, exec_crs, exec_crc]
    exact ⟨traps _ _, traps _ _, traps _ _⟩
  · rw [exec_crw, ctlModify_of_forbidden (ctlCheck_readWrite listed (handles.1 ▸ readWrite) _ _) forbidden]
    exact vectors handles 0
  · intro s d a n r user calm listed parked
    have parks {i : Instr} {t : Trap} (h : exec i s = .next (s.takeTrap t)) : parked i t.cause :=
      ⟨_, h, takeTrap_user user calm t⟩
    refine ⟨fun hidden => ?_, fun readable => ?_, parks (exec_tret_user user), parks (exec_wfi_user user)⟩
    · have refused := fun write word =>
        ctlCheck_refused (s := s) (write := write) (word := word) listed (user ▸ access_of_supervisorOnly hidden)
      exact ⟨parks (exec_crr_of_error (refused _ _)), parks ((exec_crw a n s).trans (ctlModify_of_error (refused _ _)))⟩
    · have readOnly := fun word => ctlCheck_readOnly (s := s) (word := word) listed (user ▸ access_of_userReadable readable)
      exact ⟨parks ((exec_crw a n s).trans (ctlModify_of_error (readOnly _))),
        parks ((exec_crs a n s).trans (ctlModify_of_error (readOnly _)))⟩

end Sys2Proof.Machine
end

section
/-! The checks that vector instructions share (R90, R100, R108, R124), and what each of them traps with. -/

namespace Sys2Proof.Machine

/-! Steps of a computation -/

theorem bind_ok {α β : Type} {m : M α} {f : α → M β} {s t : State} {a : α} (h : m s = .ok a t) : (m >>= f) s = f a t := by
  simp only [bind, EStateM.bind, h]

theorem bind_error {α β : Type} {m : M α} {f : α → M β} {s t : State} {e : Trap} (h : m s = .error e t) :
    (m >>= f) s = .error e t := by
  simp only [bind, EStateM.bind, h]

theorem need_of {ok : Bool} (h : ok = true) (c : BitVec 8) (s : State) : need ok c 0 0 s = .ok () s := by
  simp only [need, h, ↓reduceIte]; rfl

theorem need_of_not {ok : Bool} (h : ok = false) (c : BitVec 8) (s : State) : need ok c 0 0 s = .error { cause := c } s := by
  simp only [need, h, Bool.false_eq_true, ↓reduceIte]; rfl

/-- A computation that traps with a cause, and names neither a value nor an element. -/
def Refuses (m : M Unit) (s : State) (c : BitVec 8) : Prop := m s = .error { cause := c } s

theorem Refuses.bind {m : M Unit} {s : State} {c : BitVec 8} (h : Refuses m s c) (f : Unit → M Unit) : Refuses (m >>= f) s c :=
  bind_error h

/-- An instruction that is restarted whole vectors with the cause of its computation (R112, R381). -/
theorem vectors_of_refuses {m : M Unit} {s : State} {c : BitVec 8} (h : Refuses m s c) (handles : s.cur.handles)
    (known : c ≠ 0x0D) (cap : Captured) : Vectors s (finish (restartable cap m) s) c 0 0 := by
  have e : restartable cap m s = .error { cause := c, keeps := true } (s.onCur (Hart.hold cap)) := by
    unfold Refuses at h
    simp only [restartable, h, Bool.false_eq_true, ↓reduceIte]
  rw [finish_trap e rfl]
  exact vectors_takeTrap (s := s.onCur (Hart.hold cap)) handles known rfl

/-! The checks in their order -/

section
variable {s : State}

theorem notMatrixNotReleased_matrix (matrix : s.cur.status.matrix = true) : Refuses notMatrixNotReleased s 0x0A :=
  bind_error (m := need (!s.cur.status.matrix) 0x0A) (f := fun _ => need s.cur.granted 0x09)
    (need_of_not (ok := !s.cur.status.matrix) (by rw [matrix]; rfl) _ s)

theorem notMatrixNotReleased_released (free : s.cur.status.matrix = false) (h : s.cur.granted = false) :
    Refuses notMatrixNotReleased s 0x09 :=
  (bind_ok (need_of (ok := !s.cur.status.matrix) (by rw [free]; rfl) _ s)).trans (need_of_not h _ s)

theorem notMatrixNotReleased_ok (free : s.cur.status.matrix = false) (h : s.cur.granted = true) :
    notMatrixNotReleased s = .ok () s :=
  (bind_ok (need_of (ok := !s.cur.status.matrix) (by rw [free]; rfl) _ s)).trans (need_of h _ s)

theorem capacity_ok {ts : List Tag} (h : s.cur.Fits ts) : capacity ts s = .ok () s :=
  need_of (ok := ts.all fun t => decide (t.width * s.cur.vlen ≤ 2048 * s.cur.vgrant))
    (List.all_eq_true.2 fun t ht => decide_eq_true (h t ht)) _ s

theorem capacity_refuses {ts : List Tag} (h : ¬ s.cur.Fits ts) : Refuses (capacity ts) s 0x02 :=
  need_of_not (ok := ts.all fun t => decide (t.width * s.cur.vlen ≤ 2048 * s.cur.vgrant))
    (Bool.eq_false_iff.2 fun all => h fun t ht => of_decide_eq_true (List.all_eq_true.1 all t ht)) _ s

/-- Are the sources live, and do the tag rules hold (R108)? -/
def tagsPass (s : State) (live : List (BitVec 5)) (ok : Bool) : Bool := (live.all fun r => (s.cur.getV r).tag != .dead) && ok

theorem tagsPass_iff {live : List (BitVec 5)} {ok : Bool} :
    tagsPass s live ok = true ↔ (∀ r ∈ live, (s.cur.getV r).tag ≠ .dead) ∧ ok = true := by
  simp only [tagsPass, Bool.and_eq_true, List.all_eq_true, bne_iff_ne]

theorem tagsPass_eq_false {live : List (BitVec 5)} {ok : Bool} (h : ok = false ∨ ∃ r ∈ live, (s.cur.getV r).tag = .dead) :
    tagsPass s live ok = false := by
  refine Bool.eq_false_iff.2 fun pass => ?_
  obtain ⟨alive, holds⟩ := tagsPass_iff.1 pass
  rcases h with bad | ⟨r, hr, dead⟩
  · exact absurd holds (by simp [bad])
  · exact alive r hr dead

theorem vectorChecks_matrix (matrix : s.cur.status.matrix = true) (live : List (BitVec 5)) (ok : Bool) (extra : List Tag) :
    Refuses (vectorChecks live ok extra) s 0x0A :=
  (notMatrixNotReleased_matrix matrix).bind _

theorem vectorChecks_released (free : s.cur.status.matrix = false) (h : s.cur.granted = false) (live : List (BitVec 5)) (ok : Bool)
    (extra : List Tag) : Refuses (vectorChecks live ok extra) s 0x09 :=
  (notMatrixNotReleased_released free h).bind _

theorem vectorChecks_tags (free : s.cur.status.matrix = false) (granted : s.cur.granted = true) {live : List (BitVec 5)} {ok : Bool}
    (h : tagsPass s live ok = false) (extra : List Tag) : Refuses (vectorChecks live ok extra) s 0x02 := by
  refine (bind_ok (notMatrixNotReleased_ok free granted)).trans ?_
  exact Refuses.bind (m := need (tagsPass s live ok) 0x02) (need_of_not h _ s) _

theorem vectorChecks_after_tags (free : s.cur.status.matrix = false) (granted : s.cur.granted = true) {live : List (BitVec 5)}
    {ok : Bool} (h : tagsPass s live ok = true) (extra : List Tag) :
    vectorChecks live ok extra s = capacity ((live.map fun r => (s.cur.getV r).tag) ++ extra) s := by
  refine (bind_ok (notMatrixNotReleased_ok free granted)).trans ?_
  exact bind_ok (m := need (tagsPass s live ok) 0x02) (f := fun _ => capacity _) (need_of h _ s)

/-- A source that breaches the capacity rule traps as a bad tag does, so the order of the two checks does not show. -/
theorem vectorChecks_capacity (free : s.cur.status.matrix = false) (granted : s.cur.granted = true) {live : List (BitVec 5)}
    {r : BitVec 5} (hr : r ∈ live) (h : ¬ s.cur.Fits [(s.cur.getV r).tag]) (ok : Bool) (extra : List Tag) :
    Refuses (vectorChecks live ok extra) s 0x02 := by
  cases pass : tagsPass s live ok with
  | false => exact vectorChecks_tags free granted pass extra
  | true =>
    refine (vectorChecks_after_tags free granted pass extra).trans (capacity_refuses fun fits => h ?_)
    exact List.forall_mem_singleton.2 (fits _ (List.mem_append_left _ (List.mem_map_of_mem hr)))

theorem vectorChecks_ok (free : s.cur.status.matrix = false) (granted : s.cur.granted = true) {live : List (BitVec 5)} {ok : Bool}
    {extra : List Tag} (h : tagsPass s live ok = true) (fits : s.cur.Fits ((live.map fun r => (s.cur.getV r).tag) ++ extra)) :
    vectorChecks live ok extra s = .ok () s :=
  (vectorChecks_after_tags free granted h extra).trans (capacity_ok fits)

/-- Outside matrix mode the moves make the checks of the other vector instructions. -/
theorem moveChecks_eq (free : s.cur.status.matrix = false) (regs live : List (BitVec 5)) (ok : Bool) :
    moveChecks regs live ok s = (vectorChecks live ok [] >>= fun _ => settled regs) s := by
  have latches : notLatches regs s = .ok () s := need_of (by rw [free]; rfl) _ s
  have left : moveChecks regs live ok s = (need s.cur.granted 0x09 >>= fun _ => need (tagsPass s live ok) 0x02 >>= fun _ =>
      capacity (live.map fun r => (s.cur.getV r).tag) >>= fun _ => settled regs) s :=
    bind_ok (f := fun _ => _) latches
  cases granted : s.cur.granted with
  | false =>
    rw [left, bind_error (need_of_not granted _ s)]
    exact ((vectorChecks_released free granted live ok []).bind _).symm
  | true =>
    rw [left, bind_ok (need_of granted _ s)]
    cases pass : tagsPass s live ok with
    | false =>
      rw [bind_error (need_of_not rfl _ s)]
      exact ((vectorChecks_tags free granted pass []).bind _).symm
    | true =>
      rw [bind_ok (need_of rfl _ s)]
      simp only [bind, EStateM.bind, vectorChecks_after_tags free granted pass [], List.append_nil]

/-! Instructions that begin with these checks -/

/-- The instruction is restarted whole, and what it computes begins with the checks of R108: `sources` are among the registers that
must be live and fit, and the tag rules hold only where `rule` does. -/
def Gated (s : State) (i : Instr) (sources : List (BitVec 5)) (rule : Prop) : Prop :=
  ∃ (cap : Captured) (whole checked : M Unit) (rest : Unit → M Unit) (live : List (BitVec 5)) (ok : Bool) (extra : List Tag),
    exec i s = finish whole s ∧ whole s = restartable cap checked s ∧ checked s = (vectorChecks live ok extra >>= rest) s ∧
    (∀ r ∈ sources, r ∈ live) ∧ (ok = true → rule)

section
variable {i : Instr} {sources : List (BitVec 5)} {rule : Prop}

theorem Gated.mono {rule' : Prop} (h : Gated s i sources rule) (imp : rule → rule') : Gated s i sources rule' := by
  obtain ⟨cap, whole, checked, rest, live, ok, extra, e, w, c, srcs, rules⟩ := h
  exact ⟨cap, whole, checked, rest, live, ok, extra, e, w, c, srcs, imp ∘ rules⟩

/-- Whatever these checks refuse, the instruction vectors with. -/
theorem Gated.vectors (h : Gated s i sources rule) (handles : s.cur.handles) {c : BitVec 8} (known : c ≠ 0x0D)
    (refuses : ∀ live ok extra, (∀ r ∈ sources, r ∈ live) → (ok = true → rule) → Refuses (vectorChecks live ok extra) s c) :
    Vectors s (exec i s) c 0 0 := by
  obtain ⟨cap, whole, checked, rest, live, ok, extra, e, w, c, srcs, rules⟩ := h
  have same : finish whole s = finish (restartable cap checked) s := by simp only [finish, w]
  rw [e, same]
  exact vectors_of_refuses (c.trans ((refuses live ok extra srcs rules).bind rest)) handles known cap

theorem Gated.vectors_matrix (h : Gated s i sources rule) (handles : s.cur.handles) (matrix : s.cur.status.matrix = true) :
    Vectors s (exec i s) 0x0A 0 0 :=
  h.vectors handles (by decide) fun live ok extra _ _ => vectorChecks_matrix matrix live ok extra

theorem Gated.vectors_released (h : Gated s i sources rule) (handles : s.cur.handles) (free : s.cur.status.matrix = false)
    (released : s.cur.granted = false) : Vectors s (exec i s) 0x09 0 0 :=
  h.vectors handles (by decide) fun live ok extra _ _ => vectorChecks_released free released live ok extra

section
variable (handles : s.cur.handles) (free : s.cur.status.matrix = false) (granted : s.cur.granted = true)
include handles free granted

theorem Gated.vectors_dead (h : Gated s i sources rule) {r : BitVec 5} (hr : r ∈ sources) (dead : (s.cur.getV r).tag = .dead) :
    Vectors s (exec i s) 0x02 0 0 :=
  h.vectors handles (by decide) fun _ _ extra srcs _ =>
    vectorChecks_tags free granted (tagsPass_eq_false (.inr ⟨r, srcs r hr, dead⟩)) extra

theorem Gated.vectors_capacity (h : Gated s i sources rule) {r : BitVec 5} (hr : r ∈ sources)
    (breach : ¬ s.cur.Fits [(s.cur.getV r).tag]) : Vectors s (exec i s) 0x02 0 0 :=
  h.vectors handles (by decide) fun _ ok extra srcs _ => vectorChecks_capacity free granted (srcs r hr) breach ok extra

theorem Gated.vectors_rule (h : Gated s i sources rule) (broken : ¬ rule) : Vectors s (exec i s) 0x02 0 0 :=
  h.vectors handles (by decide) fun _ _ extra _ rules =>
    vectorChecks_tags free granted (tagsPass_eq_false (.inl (Bool.eq_false_iff.2 fun ok => broken (rules ok)))) extra

end

end

end

end Sys2Proof.Machine
end

section
/-! Instructions of VARITH to VSPARSE by their checks, and their traps (R108, R110, R124, R127, R131, R134). -/

namespace Sys2Proof.Machine

section
variable {s : State} {i : Instr}

/-- A per-element instruction requires what its tag rule requires of the tags of va, of b and of vd. -/
theorem gated_of_binary {form : BitVec 2} {d a b : BitVec 5} {m : BitVec 3} {logic readsD : Bool} {ok : Tag → Tag → Tag → Bool}
    {rt : Tag → Tag → Tag} {f : BitVec 6 → Tag → Tag → Nat → Nat → Nat → FRes}
    (h : exec i s = finish (binary form d a b m logic readsD ok rt f) s) :
    Gated s i [a] (ok (s.cur.getV a).tag (s.cur.bTag form b (s.cur.getV a).tag) (s.cur.getV d).tag = true) := by
  refine ⟨_, _, _, _, _, _, _, h, rfl, rfl, ?_, id⟩
  refine List.forall_mem_singleton.2 (List.mem_append_left _ ?_)
  unfold sourceRegs
  split <;> exact List.mem_cons_self

/-- A register as the b operand has its own tag. -/
theorem bTag_eq {form : BitVec 2} {b : BitVec 5} {t : Tag} (h : t = s.cur.bTag form b t) : form = 0 → (s.cur.getV b).tag = t := by
  rintro rfl
  exact h.symm

theorem gated_of_unary {d a : BitVec 5} {m : BitVec 3} {ok : Tag → Bool} {f : BitVec 6 → Tag → Nat → FRes}
    (h : exec i s = unary d a m ok f s) : Gated s i [a] (ok (s.cur.getV a).tag = true) :=
  gated_of_binary (h.trans rfl)

theorem gated_of_reduction {ok : Tag → Bool} {d a : BitVec 5} {m : BitVec 3}
    {f : Tag → Mode → Nat → (Nat → Bool) → (Nat → Nat) → List (Option FRes) × BitVec 6}
    (h : exec i s = finish (reductionOf ok d a m f) s) : Gated s i [a] (ok (s.cur.getV a).tag = true) :=
  ⟨_, _, _, _, _, _, _, h, rfl, rfl, fun _ => id, id⟩

theorem gated_of_permute {cap : Captured} {d a : BitVec 5} {more : List (BitVec 5)} {m : BitVec 3} {ok : Bool} {f : Nat → Nat → Moved}
    (h : exec i s = finish (permute cap d a more m ok f) s) :
    Gated s i [a] ((s.cur.getV a).tag.movable = true ∧ ok = true) :=
  ⟨_, _, _, _, _, _, _, h, rfl, rfl, List.forall_mem_singleton.2 List.mem_cons_self, fun holds => by simpa using holds⟩

/-- Outside matrix mode a move is checked as the others are. -/
theorem gated_of_moveChecks (free : s.cur.status.matrix = false) {cap : Captured} {checked : M Unit} {regs live : List (BitVec 5)}
    {ok : Bool} {rest : Unit → M Unit} (h : exec i s = finish (restartable cap checked) s)
    (c : checked s = (moveChecks regs live ok >>= rest) s) : Gated s i live (ok = true) := by
  refine ⟨cap, _, checked, fun u => settled regs >>= rest, live, ok, [], h, rfl, ?_, fun _ => id, id⟩
  rw [c, ← bind_assoc]
  simp only [bind, EStateM.bind, moveChecks_eq free]

theorem curHart_bind {α : Type} (k : Hart → M α) : (curHart >>= k) s = k s.cur s := rfl

/-- A bitmap instruction has tag rules for its sources, and none is refused as dead. -/
theorem gated_of_bitmap {cap : Captured} {checked : M Unit} {ok : Bool} {rest : Unit → M Unit}
    (h : exec i s = finish (restartable cap checked) s)
    (c : checked s = (notMatrixNotReleased >>= fun _ => need ok 0x02 >>= fun _ => capacity [.n32] >>= rest) s) :
    Gated s i [] (ok = true) := by
  refine ⟨cap, _, checked, rest, [], ok, [.n32], h, rfl, ?_, fun _ => False.elim ∘ List.not_mem_nil, id⟩
  show _ = ((notMatrixNotReleased >>= fun _ => need ok 0x02 >>= fun _ => capacity [.n32]) >>= rest) s
  simp only [c, bind_assoc]

end

/-! The instructions by family -/

section
variable {s : State} (f : BitVec 2) (d a b : BitVec 5) (e m r : BitVec 3) (u : BitVec 4)

theorem gated_varith (op : VOp) {i : Instr} (h : exec i s = varith op f d a b m s) :
    Gated s i [a] ((f = 0 → (s.cur.getV b).tag = (s.cur.getV a).tag) ∧ op.accepts (s.cur.getV a).tag = true) :=
  (gated_of_binary (h.trans rfl)).mono fun ok => by
    simp only [Bool.and_eq_true, decide_eq_true_eq] at ok
    exact ⟨bTag_eq ok.1, ok.2⟩

theorem arith_gated : ∀ i ∈ [Instr.vadd f d a b m, .vsub f d a b m, .vrsub f d a b m, .vmul f d a b m, .vmin f d a b m,
    .vmax f d a b m],
    Gated s i [a] ((f = 0 → (s.cur.getV b).tag = (s.cur.getV a).tag) ∧ (s.cur.getV a).tag.isNumber = true) := by
  simp only [List.forall_mem_cons, List.not_mem_nil, false_imp_iff, implies_true, and_true]
  exact ⟨gated_varith f d a b m .add rfl, gated_varith f d a b m .sub rfl, gated_varith f d a b m .rsub rfl,
    gated_varith f d a b m .mul rfl, gated_varith f d a b m .min rfl, gated_varith f d a b m .max rfl⟩

theorem arithInt_gated : ∀ i ∈ [Instr.vmulh f d a b m, .vdiv f d a b m, .vrem f d a b m, .vsadd f d a b m, .vssub f d a b m],
    Gated s i [a] ((f = 0 → (s.cur.getV b).tag = (s.cur.getV a).tag) ∧ (s.cur.getV a).tag.isInt = true) := by
  simp only [List.forall_mem_cons, List.not_mem_nil, false_imp_iff, implies_true, and_true]
  exact ⟨gated_varith f d a b m .mulh rfl, gated_varith f d a b m .div rfl, gated_varith f d a b m .rem rfl,
    gated_varith f d a b m .sadd rfl, gated_varith f d a b m .ssub rfl⟩

theorem gated_vfma (negP negC : Bool) {i : Instr} (h : exec i s = vfma negP negC f d a b m s) :
    Gated s i [a] ((f = 0 → (s.cur.getV b).tag = (s.cur.getV a).tag) ∧ (s.cur.getV a).tag.isNumber = true ∧
      ((s.cur.getV d).tag = (s.cur.getV a).tag ∨ (s.cur.getV a).tag.widen = some (s.cur.getV d).tag)) :=
  (gated_of_binary (h.trans rfl)).mono fun ok => by
    simp only [Bool.and_eq_true, Bool.or_eq_true, decide_eq_true_eq, beq_iff_eq] at ok
    exact ⟨bTag_eq ok.1.1, ok.1.2, ok.2⟩

theorem fused_gated : ∀ i ∈ [Instr.vfma f d a b m, .vfms f d a b m, .vfnma f d a b m, .vfnms f d a b m],
    Gated s i [a] ((f = 0 → (s.cur.getV b).tag = (s.cur.getV a).tag) ∧ (s.cur.getV a).tag.isNumber = true ∧
      ((s.cur.getV d).tag = (s.cur.getV a).tag ∨ (s.cur.getV a).tag.widen = some (s.cur.getV d).tag)) := by
  simp only [List.forall_mem_cons, List.not_mem_nil, false_imp_iff, implies_true, and_true]
  exact ⟨gated_vfma f d a b m false false rfl, gated_vfma f d a b m false true rfl, gated_vfma f d a b m true true rfl,
    gated_vfma f d a b m true false rfl⟩

theorem vwmul_gated : Gated s (.vwmul f d a b m) [a]
    ((f = 0 → (s.cur.getV b).tag = (s.cur.getV a).tag) ∧ (s.cur.getV a).tag.widen ≠ none) :=
  (gated_of_binary rfl).mono fun ok => by
    simp only [Bool.and_eq_true, decide_eq_true_eq, Option.isSome_iff_ne_none] at ok
    exact ⟨bTag_eq ok.1, ok.2⟩

theorem gated_bitwise (g : Nat → Nat → Nat) {i : Instr} (h : exec i s = bitwise g f d a b m s) :
    Gated s i [a] (f = 0 → (s.cur.getV b).tag = (s.cur.getV a).tag) :=
  (gated_of_binary (h.trans rfl)).mono fun ok => bTag_eq (of_decide_eq_true ok)

theorem bitwise_gated : ∀ i ∈ [Instr.vand f d a b m, .vor f d a b m, .vxor f d a b m],
    Gated s i [a] (f = 0 → (s.cur.getV b).tag = (s.cur.getV a).tag) := by
  simp only [List.forall_mem_cons, List.not_mem_nil, false_imp_iff, implies_true, and_true]
  exact ⟨gated_bitwise f d a b m _ rfl, gated_bitwise f d a b m _ rfl, gated_bitwise f d a b m _ rfl⟩

theorem gated_shift (g : Nat → Nat → Nat → Nat) {i : Instr} (h : exec i s = shift g f d a b m s) :
    Gated s i [a] ((f = 0 → (s.cur.getV b).tag = (s.cur.getV a).tag) ∧ (s.cur.getV a).tag.isInt = true) :=
  (gated_of_binary (h.trans rfl)).mono fun ok => by
    simp only [Bool.and_eq_true, decide_eq_true_eq] at ok
    exact ⟨bTag_eq ok.1, ok.2⟩

theorem shifts_gated : ∀ i ∈ [Instr.vsll f d a b m, .vsrl f d a b m, .vsra f d a b m],
    Gated s i [a] ((f = 0 → (s.cur.getV b).tag = (s.cur.getV a).tag) ∧ (s.cur.getV a).tag.isInt = true) := by
  simp only [List.forall_mem_cons, List.not_mem_nil, false_imp_iff, implies_true, and_true]
  exact ⟨gated_shift f d a b m (fun w x k => (x <<< k) % 2 ^ w) rfl, gated_shift f d a b m (fun _ x k => x >>> k) rfl,
    gated_shift f d a b m (fun w x k => wrap w (signed w x / (2 ^ k : Nat))) rfl⟩

theorem gated_vcompare (cc : Cc) {i : Instr} (h : exec i s = finish (vcompare cc f e a b m) s) :
    Gated s i [a] ((f = 0 → (s.cur.getV b).tag = (s.cur.getV a).tag) ∧
      (if cc = .un then (s.cur.getV a).tag.isFloat else (s.cur.getV a).tag.isNumber) = true) := by
  refine ⟨_, _, _, _, _, _, _, h, rfl, rfl, List.forall_mem_singleton.2 ?_, fun ok => ?_⟩
  · unfold sourceRegs
    split <;> exact List.mem_cons_self
  · simp only [Bool.and_eq_true, beq_iff_eq] at ok
    exact ⟨bTag_eq ok.1, ok.2⟩

theorem compares_gated : ∀ i ∈ [Instr.vcmpEq f e a b m, .vcmpNe f e a b m, .vcmpLt f e a b m, .vcmpLe f e a b m,
    .vcmpGt f e a b m, .vcmpGe f e a b m],
    Gated s i [a] ((f = 0 → (s.cur.getV b).tag = (s.cur.getV a).tag) ∧ (s.cur.getV a).tag.isNumber = true) := by
  simp only [List.forall_mem_cons, List.not_mem_nil, false_imp_iff, implies_true, and_true]
  exact ⟨gated_vcompare f a b e m .eq rfl, gated_vcompare f a b e m .ne rfl, gated_vcompare f a b e m .lt rfl,
    gated_vcompare f a b e m .le rfl, gated_vcompare f a b e m .gt rfl, gated_vcompare f a b e m .ge rfl⟩

theorem negations_gated : ∀ i ∈ [Instr.vabs d a m, .vneg d a m], Gated s i [a] ((s.cur.getV a).tag.isNumber = true) := by
  simp only [List.forall_mem_cons, List.not_mem_nil, false_imp_iff, implies_true, and_true]
  exact ⟨gated_of_unary rfl, gated_of_unary rfl⟩

theorem vnot_gated : Gated s (.vnot d a m) [a] True := (gated_of_unary rfl).mono fun _ => trivial

theorem counts_gated : ∀ i ∈ [Instr.vpopc d a m, .vclz d a m], Gated s i [a] ((s.cur.getV a).tag.isInt = true) := by
  simp only [List.forall_mem_cons, List.not_mem_nil, false_imp_iff, implies_true, and_true]
  exact ⟨gated_of_unary rfl, gated_of_unary rfl⟩

theorem functions_gated : ∀ i ∈ [Instr.vrecip d a m, .vrsqrt d a m, .vsqrt d a m, .vexp2 d a m, .vlog2 d a m, .vtanh d a m],
    Gated s i [a] ((s.cur.getV a).tag.isF = true) := by
  simp only [List.forall_mem_cons, List.not_mem_nil, false_imp_iff, implies_true, and_true]
  exact ⟨gated_of_unary rfl, gated_of_unary rfl, gated_of_unary rfl, gated_of_unary rfl, gated_of_unary rfl,
    gated_of_unary rfl⟩

theorem conversions_gated : ∀ i ∈ [Instr.vcvt d a r m u, .vcvtSat d a r m u], Gated s i [a] True := by
  simp only [List.forall_mem_cons, List.not_mem_nil, false_imp_iff, implies_true, and_true]
  exact ⟨(gated_of_binary rfl).mono fun _ => trivial, (gated_of_binary rfl).mono fun _ => trivial⟩

theorem gated_vcvtSr (sat : Bool) {i : Instr} (h : exec i s = vcvtSr d a b m u sat s) :
    Gated s i [a] ((s.cur.getV b).tag = .n32 ∧ (Tag.ofCode u.toNat).fmt.isSome = true) :=
  (gated_of_binary (h.trans rfl)).mono fun ok => by
    simp only [Bool.and_eq_true, decide_eq_true_eq] at ok
    exact ok

theorem stochastic_gated : ∀ i ∈ [Instr.vcvtSr d a b m u, .vcvtSrSat d a b m u],
    Gated s i [a] ((s.cur.getV b).tag = .n32 ∧ (Tag.ofCode u.toNat).fmt.isSome = true) := by
  simp only [List.forall_mem_cons, List.not_mem_nil, false_imp_iff, implies_true, and_true]
  exact ⟨gated_vcvtSr d a b m u false rfl, gated_vcvtSr d a b m u true rfl⟩

theorem reductions_gated : ∀ i ∈ [Instr.vredsum d a m, .vredmax d a m, .vredmin d a m, .vscanSum d a m, .vscanMax d a m],
    Gated s i [a] ((s.cur.getV a).tag.isNumber = true) := by
  simp only [List.forall_mem_cons, List.not_mem_nil, false_imp_iff, implies_true, and_true]
  exact ⟨gated_of_reduction rfl, gated_of_reduction rfl, gated_of_reduction rfl, gated_of_reduction rfl, gated_of_reduction rfl⟩

theorem bitReductions_gated : ∀ i ∈ [Instr.vredand d a m, .vredor d a m, .vredxor d a m],
    Gated s i [a] ((s.cur.getV a).tag.isInt = true) := by
  simp only [List.forall_mem_cons, List.not_mem_nil, false_imp_iff, implies_true, and_true]
  exact ⟨gated_of_reduction rfl, gated_of_reduction rfl, gated_of_reduction rfl⟩

theorem vperm_gated : Gated s (.vperm d a b m) [a] ((s.cur.getV a).tag.movable = true ∧ (s.cur.getV b).tag.isInt = true) :=
  gated_of_permute rfl

theorem vcompress_gated : Gated s (.vcompress d a m) [a] ((s.cur.getV a).tag.movable = true) :=
  ⟨_, _, _, _, _, _, _, rfl, rfl, rfl, fun _ => id, id⟩

theorem permutations_gated : ∀ i ∈ [Instr.vslideup f d a b m, .vslidedn f d a b m, .vperm d a b m, .vcompress d a m,
    .vexpand d a m, .vbcast f d a b m], Gated s i [a] ((s.cur.getV a).tag.movable = true) := by
  simp only [List.forall_mem_cons, List.not_mem_nil, false_imp_iff, implies_true, and_true]
  exact ⟨(gated_of_permute rfl).mono And.left, (gated_of_permute rfl).mono And.left, (vperm_gated d a b m).mono And.left,
    vcompress_gated d a m, (gated_of_permute rfl).mono And.left, (gated_of_permute rfl).mono And.left⟩

theorem vnzb_gated : Gated s (.vnzb e a m) [a] True := ⟨_, _, _, _, _, _, _, rfl, rfl, rfl, fun _ => id, fun _ => trivial⟩

theorem vbpop_gated : Gated s (.vbpop d a m) [a] ((s.cur.getV a).tag.isInt = true) :=
  ⟨_, _, _, _, _, _, _, rfl, rfl, rfl, fun _ => id, id⟩

theorem vrank_gated : Gated s (.vrank d a b m) [] ((s.cur.getV a).tag.isInt = true ∧ (s.cur.getV b).tag = .n32) :=
  (gated_of_bitmap rfl (curHart_bind _)).mono fun ok => by simpa using ok

theorem vxsect_gated : Gated s (.vxsect d a b m) [] ((s.cur.getV a).tag.isInt = true ∧ (s.cur.getV b).tag.isInt = true) :=
  (gated_of_bitmap rfl (curHart_bind _)).mono fun ok => by simpa using ok

theorem viota_gated : Gated s (.viota d u m) [] ((Tag.ofCode u.toNat).isInt = true) :=
  ⟨_, _, _, _, _, _, _, rfl, rfl, rfl, fun _ => id, id⟩

section
variable (free : s.cur.status.matrix = false)
include free

theorem vmv_gated : Gated s (.vmv d a m) [a] True := (gated_of_moveChecks free rfl rfl).mono fun _ => trivial

theorem vmvx_gated : Gated s (.vmvx f d a b) [a] ((s.cur.getV a).tag.movable = true) := gated_of_moveChecks free rfl rfl

theorem vmvs_gated : Gated s (.vmvs d b m) [d] True := (gated_of_moveChecks free rfl rfl).mono fun _ => trivial

end

end

/-! The classes of tags (R110) -/

theorem Tag.not_isFloat_of_isInt {t : Tag} (h : t.isInt = true) : ¬ t.isFloat = true := by
  cases t <;> revert h <;> decide

theorem Tag.fmt_of_isInt {t : Tag} (h : t.isInt = true) : t.fmt = none := by
  cases t <;> revert h <;> decide

/-! The obligation -/

section
variable {s : State} {is js : List Instr} {sources : List (BitVec 5)} {rule : Prop}

theorem gated_append (h : ∀ i ∈ is, Gated s i sources rule) (g : ∀ i ∈ js, Gated s i sources rule) :
    ∀ i ∈ is ++ js, Gated s i sources rule :=
  List.forall_mem_append.2 ⟨h, g⟩

theorem gated_append_one {j : Instr} (h : ∀ i ∈ is, Gated s i sources rule) (g : Gated s j sources rule) :
    ∀ i ∈ is ++ [j], Gated s i sources rule :=
  gated_append h (List.forall_mem_singleton.2 g)

theorem gated_mono {rule' : Prop} (h : ∀ i ∈ is, Gated s i sources rule) (imp : rule → rule') : ∀ i ∈ is, Gated s i sources rule' :=
  fun i hi => (h i hi).mono imp

end

/-- Settles O34: each family of instructions begins with the checks of R108 under its own tag rule (the lemmas `…_gated`), and what
these checks refuse vectors (`Gated.vectors_matrix` and its fellows). -/
theorem vectorTraps : Obligations.VectorTraps := by
  intro s f d a b e m r u handles t tb td arith arithInt fused shifts compares twos counts functions stochastic reductions bits
    permutations bitmaps moves whole traps
  have twosGated : ∀ i ∈ twos, Gated s i [a] (f = 0 → tb = t) :=
    gated_append_one (gated_append (gated_append (gated_append (gated_append_one (gated_append (gated_append
      (gated_mono (arith_gated f d a b m) And.left) (gated_mono (arithInt_gated f d a b m) And.left))
      (gated_mono (fused_gated f d a b m) And.left)) ((vwmul_gated f d a b m).mono And.left)) (bitwise_gated f d a b m))
      (gated_mono (shifts_gated f d a b m) And.left)) (gated_mono (compares_gated f a b e m) And.left))
      ((gated_vcompare f a b e m .un rfl).mono And.left)
  have wholeGated : ∀ i ∈ whole, Gated s i [a] True := by
    have unruled {is : List Instr} {rule : Prop} (h : ∀ i ∈ is, Gated s i [a] rule) : ∀ i ∈ is, Gated s i [a] True :=
      gated_mono h fun _ => trivial
    have negations : ∀ i ∈ [Instr.vabs d a m, .vneg d a m, .vnot d a m], Gated s i [a] True :=
      gated_append_one (unruled (negations_gated d a m)) (vnot_gated d a m)
    have singles : ∀ i ∈ [Instr.vnzb e a m, .vbpop d a m], Gated s i [a] True :=
      gated_append_one (List.forall_mem_singleton.2 (vnzb_gated a e m)) ((vbpop_gated d a m).mono fun _ => trivial)
    exact gated_append (gated_append (gated_append (gated_append (gated_append (gated_append (gated_append (gated_append (gated_append
      (unruled twosGated) negations) (unruled (counts_gated d a m))) (unruled (functions_gated d a m))) (conversions_gated d a m r u))
      (unruled (stochastic_gated d a b m u))) (unruled (reductions_gated d a m))) (unruled (bitReductions_gated d a m)))
      (unruled (permutations_gated f d a b m))) singles
  have bitmapsGated : ∀ i ∈ bitmaps, Gated s i [] (t.isInt = true) :=
    gated_append_one (List.forall_mem_singleton.2 ((vrank_gated d a b m).mono And.left)) ((vxsect_gated d a b m).mono And.left)
  have movesGated (free : s.cur.status.matrix = false) : ∀ i ∈ moves, Gated s i [a] True :=
    gated_append_one (List.forall_mem_singleton.2 (vmv_gated d a m free)) ((vmvx_gated f d a b free).mono fun _ => trivial)
  have join {is js : List Instr} {c : BitVec 8} (h : traps is c) (g : traps js c) : traps (is ++ js) c := List.forall_mem_append.2 ⟨h, g⟩
  have one {i : Instr} {c : BitVec 8} (h : Vectors s (exec i s) c 0 0) : traps [i] c := List.forall_mem_singleton.2 h
  refine ⟨fun matrix => ?_, fun free released => ?_, fun free granted => ?_⟩
  · have all {is : List Instr} {sources : List (BitVec 5)} {rule : Prop} (h : ∀ i ∈ is, Gated s i sources rule) : traps is 0x0A :=
      fun i hi => (h i hi).vectors_matrix handles matrix
    exact join (join (all wholeGated) (all bitmapsGated)) (one ((viota_gated d m u).vectors_matrix handles matrix))
  · have all {is : List Instr} {sources : List (BitVec 5)} {rule : Prop} (h : ∀ i ∈ is, Gated s i sources rule) : traps is 0x09 :=
      fun i hi => (h i hi).vectors_released handles free released
    have last : traps [.viota d u m, .vmvs d b m] 0x09 :=
      join (one ((viota_gated d m u).vectors_released handles free released))
        (one ((vmvs_gated d b m free).vectors_released handles free released))
    exact join (join (join (all wholeGated) (all bitmapsGated)) (all (movesGated free))) last
  · have dead {is : List Instr} {rule : Prop} (h : ∀ i ∈ is, Gated s i [a] rule) (ht : t = .dead) : traps is 0x02 :=
      fun i hi => (h i hi).vectors_dead handles free granted List.mem_cons_self ht
    have breach {is : List Instr} {rule : Prop} (h : ∀ i ∈ is, Gated s i [a] rule) (no : ¬ s.cur.Fits [t]) : traps is 0x02 :=
      fun i hi => (h i hi).vectors_capacity handles free granted List.mem_cons_self no
    have broken {is : List Instr} {sources : List (BitVec 5)} {rule : Prop} (h : ∀ i ∈ is, Gated s i sources rule) (no : ¬ rule) :
        traps is 0x02 := fun i hi => (h i hi).vectors_rule handles free granted no
    have rule {i : Instr} {sources : List (BitVec 5)} {rule : Prop} (h : Gated s i sources rule) (no : ¬ rule) : traps [i] 0x02 :=
      one (h.vectors_rule handles free granted no)
    refine ⟨fun ht => ?_, fun htd => one ((vmvs_gated d b m free).vectors_dead handles free granted List.mem_cons_self htd),
      fun no => join (breach wholeGated no) (breach (movesGated free) no),
      fun register other => broken twosGated fun same => other (same register), fun ht => ?_, fun noInt => ?_, fun int => ?_,
      fun noF => broken (functions_gated d a m) (by simp [t, noF]), fun ht => rule (vwmul_gated f d a b m) fun h => h.2 ht,
      fun other narrow => broken (fused_gated f d a b m) fun h => h.2.2.elim other narrow,
      fun bad => broken (stochastic_gated d a b m u) fun h => ?_, fun no => rule (vrank_gated d a b m) fun h => no h.2, fun noInt => ?_,
      fun noInt => rule (viota_gated d m u) (Bool.eq_false_iff.1 noInt)⟩
    · have noInt : ¬ t.isInt = true := by rw [ht]; decide
      exact join (join (dead wholeGated ht) (broken bitmapsGated noInt)) (dead (movesGated free) ht)
    · have noNumber : ¬ t.isNumber = true := by rw [ht]; decide
      have noFloat : ¬ t.isFloat = true := by rw [ht]; decide
      have fixed : ¬ t.movable = true := by rw [ht]; decide
      exact join (join (join (join (join (join (join (broken (arith_gated f d a b m) fun h => noNumber h.2)
        (broken (fused_gated f d a b m) fun h => noNumber h.2.1)) (broken (negations_gated d a m) noNumber))
        (broken (compares_gated f a b e m) fun h => noNumber h.2)) (rule (gated_vcompare f a b e m .un rfl) fun h => noFloat h.2))
        (broken (reductions_gated d a m) noNumber)) (broken (permutations_gated f d a b m) fixed)) (rule (vmvx_gated f d a b free) fixed)
    · have no : ¬ t.isInt = true := Bool.eq_false_iff.1 noInt
      exact join (join (join (join (join (broken (arithInt_gated f d a b m) fun h => no h.2)
        (broken (shifts_gated f d a b m) fun h => no h.2)) (broken (counts_gated d a m) no)) (broken (bitReductions_gated d a m) no))
        (rule (vbpop_gated d a m) no)) (broken bitmapsGated no)
    · refine rule (gated_vcompare f a b e m .un rfl) fun h => ?_
      exact absurd h.2 (Tag.not_isFloat_of_isInt int)
    · exact bad.elim (fun no => no h.1) fun int => by simp [Tag.fmt_of_isInt int] at h
    · have no : ¬ tb.isInt = true := Bool.eq_false_iff.1 noInt
      exact join (rule (vperm_gated d a b m) fun h => no h.2) (rule (vxsect_gated d a b m) fun h => no h.2)

end Sys2Proof.Machine
end

section
/-! How vector instructions complete where nothing stops them (`State.VectorReady`). -/

namespace Sys2Proof.Machine

section
variable {s : State}

/-! What an instruction captures -/

theorem issue_fmode (operands : List Word) (scalar : Word) : (s.issue operands scalar).fmode = s.fmodeHere := by
  unfold State.fmodeHere State.issue
  cases s.cur.capturedHere <;> rfl

theorem issue_rkey (operands : List Word) (scalar : Word) : (s.issue operands scalar).rkey = (s.issue []).rkey := by
  unfold State.issue
  cases s.cur.capturedHere <;> rfl

/-! The checks pass -/

section
variable (ready : s.VectorReady)
include ready

theorem settled_ok (regs : List (BitVec 5)) : settled regs s = .ok () s := by
  have calm : (s.pendingGroups s.cur.uid).any (fun p => regs.any fun r => p.1 == r.toNat) = false := by rw [ready.written]; rfl
  show (if (s.pendingGroups s.cur.uid).any (fun p => regs.any fun r => p.1 == r.toNat) then stall else pure ()) s = _
  rw [calm]
  rfl

theorem settledElems_ok (d : Option (BitVec 5 × Tag)) (srcs : List (BitVec 5)) : settledElems d srcs s = .ok () s := by
  have calm : (s.pendingGroups s.cur.uid).any (s.cur.touches d srcs) = false := by rw [ready.written]; rfl
  show (if (s.pendingGroups s.cur.uid).any (s.cur.touches d srcs) then stall else pure ()) s = _
  rw [calm]
  rfl

theorem soundBelow_ok (n : Nat) (bad : Hart → Nat → Bool) : soundBelow n bad s = .ok () s := by
  have clean : s.cur.clean = true := by simp only [Hart.clean, ready.vectors, ready.masks, ready.tiles, List.isEmpty_nil, Bool.and_self]
  have calm : s.cur.lowestBad n (bad s.cur) = none := if_pos clean
  refine (curHart_bind _).trans ?_
  rw [calm]
  rfl

theorem checks_ok {live : List (BitVec 5)} {ok : Bool} {extra : List Tag} (alive : ∀ r ∈ live, (s.cur.getV r).tag ≠ .dead)
    (holds : ok = true) (sources : ∀ r ∈ live, s.cur.Fits [(s.cur.getV r).tag]) (fits : s.cur.Fits extra) :
    vectorChecks live ok extra s = .ok () s := by
  refine vectorChecks_ok ready.noMatrix ready.lanes (tagsPass_iff.2 ⟨alive, holds⟩) ?_
  refine List.forall_mem_append.2 ⟨fun t ht => ?_, fits⟩
  obtain ⟨r, hr, rfl⟩ := List.mem_map.1 ht
  exact sources r hr _ List.mem_cons_self

end

/-! Completion -/

theorem finish_restartable {m : M Unit} {t : State} (h : m s = .ok () t) (cap : Captured) :
    finish (restartable cap m) s = .next t :=
  finish_ok (by simp only [restartable, h])

theorem finish_congr {m m' : M Unit} (h : m s = m' s) : finish m s = finish m' s := by simp only [finish, h]

/-- An instruction that comes to write its results completes with them. -/
theorem vectorDone_of_plain (ready : s.VectorReady) {m : M Unit} {d : BitVec 5} {t : Tag} {n : Nat} {g : Nat → Option FRes}
    (h : m s = writeVector d t ((upTo n).map g) 0 s) : VectorDone s (finish m s) d t n g 0 := by
  have done := writeVector_done s ready.vectors d t n g 0
  rwa [ite_self, ← finish_congr h] at done

/-- An instruction that is restarted whole completes as the write of its results does. -/
theorem vectorDone_of_writes (ready : s.VectorReady) {m : M Unit} {d : BitVec 5} {t : Tag} {n : Nat} {g : Nat → Option FRes}
    {once : BitVec 6} (h : m s = writeVector d t ((upTo n).map g) once s) (cap : Captured) :
    VectorDone s (finish (restartable cap m) s) d t n g (if (upTo n).any (fun i => (g i).isSome) then once else 0) := by
  have ends : ∃ u, writeVector d t ((upTo n).map g) once s = .ok () u := ⟨_, rfl⟩
  obtain ⟨u, e⟩ := ends
  rw [finish_restartable (h.trans e), ← finish_ok e]
  exact writeVector_done s ready.vectors d t n g once

/-- Results whose instruction raises no flag of its own. -/
theorem vectorDone_of_results (ready : s.VectorReady) {m : M Unit} {d : BitVec 5} {t : Tag} {n : Nat} {g : Nat → Option FRes}
    (h : m s = writeVector d t ((upTo n).map g) 0 s) (cap : Captured) : VectorDone s (finish (restartable cap m) s) d t n g 0 := by
  have done := vectorDone_of_writes ready h cap
  rwa [ite_self] at done

theorem VectorDone.of_once {o : Result} {d : BitVec 5} {t : Tag} {n : Nat} {g : Nat → Option FRes} {once once' : BitVec 6}
    (h : VectorDone s o d t n g once) (e : once = once') : VectorDone s o d t n g once' := e ▸ h

/-- Results that agree below the length are the same completion. -/
theorem VectorDone.congr {o : Result} {d : BitVec 5} {t : Tag} {n : Nat} {g g' : Nat → Option FRes} {once : BitVec 6}
    (h : VectorDone s o d t n g once) (e : ∀ i, i < n → g i = g' i) : VectorDone s o d t n g' once := by
  have values : (fun i => if i < n then (g i).map FRes.val else none) = fun i => if i < n then (g' i).map FRes.val else none := by
    funext i
    split
    · next below => rw [e i below]
    · rfl
  have flags : flagsOf n g = flagsOf n g' := by
    unfold flagsOf
    congr 1
    exact List.filterMap_congr fun i hi => by rw [e i (List.mem_range.1 hi)]
  unfold VectorDone at h ⊢
  rwa [← values, ← flags]

/-! Per-element instructions -/

theorem any_isSome (n : Nat) (active : Nat → Bool) (g : Nat → FRes) :
    (upTo n).any (fun i => (if active i then some (g i) else none).isSome) = (List.range n).any active := by
  congr 1
  funext i
  cases active i <;> rfl

/-- An element `vl` that only an e2m1 source makes active shares its mask bit with the one below it (R92). -/
theorem any_active_of_last {pair : Bool} {t : Tag} {vl : Nat} {m : BitVec 2048} (h : activeAt pair vl m (destLen pair t vl) = true) :
    (List.range (destLen pair t vl)).any (activeAt pair vl m) = true := by
  cases pair with
  | false => simp [activeAt, destLen] at h
  | true =>
    unfold activeAt destLen at *
    simp only [↓reduceIte, Bool.true_and, Bool.and_eq_true, decide_eq_true_eq] at h ⊢
    obtain ⟨below, bit⟩ := h
    split at below
    · omega
    · next single =>
      simp only [if_neg single] at bit ⊢
      refine List.any_eq_true.2 ⟨vl - 1, List.mem_range.2 (by omega), ?_⟩
      have half : (vl - 1) / 2 = vl / 2 := by omega
      simp only [half, bit, Bool.and_true, decide_eq_true_eq]
      exact below

variable {i : Instr}

/-- A per-element instruction whose tag rules hold completes with its element function. -/
theorem elementWise_of_binary (ready : s.VectorReady) {form : BitVec 2} {d a b : BitVec 5} {m : BitVec 3} {logic readsD : Bool}
    {ok : Tag → Tag → Tag → Bool} {rt : Tag → Tag → Tag} {f : BitVec 6 → Tag → Tag → Nat → Nat → Nat → FRes}
    (h : exec i s = finish (binary form d a b m logic readsD ok rt f) s)
    (alive : ∀ r ∈ sourceRegs form a b ++ (if readsD then [d] else []),
      (s.cur.getV r).tag ≠ .dead ∧ s.cur.Fits [(s.cur.getV r).tag])
    (holds : ok (s.cur.getV a).tag (s.cur.bTag form b (s.cur.getV a).tag) (s.cur.getV d).tag = true)
    (fits : s.cur.Fits [rt (s.cur.getV a).tag (s.cur.getV d).tag]) :
    ElementWise s (exec i s) form d a b m logic (rt (s.cur.getV a).tag (s.cur.getV d).tag)
      (f s.fmodeHere (s.cur.getV a).tag (s.cur.getV d).tag) := by
  have checked := checks_ok ready (fun r hr => (alive r hr).1) holds (fun r hr => (alive r hr).2) fits
  unfold ElementWise
  intro ta pair n active bo at_
  have fmode : (s.issue [] (s.cur.getX b)).fmode = s.fmodeHere := issue_fmode _ _
  rw [h]
  refine (vectorDone_of_writes ready (n := n) (g := fun i => if active i then some (at_ i) else none)
    (once := bo.fl ||| if active n then (at_ n).fl else 0) ?_ (s.issue [] (s.cur.getX b))).of_once ?_
  · refine (bind_ok checked).trans ((bind_ok (settledElems_ok ready _ _)).trans ((bind_ok (soundBelow_ok ready _ _)).trans ?_))
    rw [fmode]
    rfl
  · rw [any_isSome]
    by_cases any : (List.range n).any active = true
    · simp only [any, ↓reduceIte]
    · have last : ¬ active n = true := fun h => any (any_active_of_last h)
      rw [if_neg any, if_neg any, if_neg last]
      rfl

/-- A unary instruction completes on every tag that it accepts and that fits. -/
theorem elementWise_of_unary (ready : s.VectorReady) {d a : BitVec 5} {m : BitVec 3} {ok : Tag → Bool} {f : BitVec 6 → Tag → Nat → FRes}
    (h : exec i s = unary d a m ok f s) (alive : (s.cur.getV a).tag ≠ .dead) (holds : ok (s.cur.getV a).tag = true)
    (fits : s.cur.Fits [(s.cur.getV a).tag]) :
    ElementWise s (exec i s) 0 d a a m false (s.cur.getV a).tag fun x _ _ => f s.fmodeHere (s.cur.getV a).tag x := by
  refine elementWise_of_binary ready (h.trans rfl) (fun r hr => ?_) holds fits
  obtain rfl : r = a := by simpa [sourceRegs] using hr
  exact ⟨alive, fits⟩

/-! Masks and scalars -/

/-- A vector instruction that changes the hart in front alone completes with that hart. -/
theorem completes_retireVector (h : Hart) :
    Completes s (.next ((({ s with cur := h } : State).countCur 0x03 1).retire)) (h.pc + 4) h :=
  ⟨_, rfl, by simp, by simp, by rw [retire_bare]; rfl,
    sameMemory_of (by simp) (by simp) (by simp) (by simp) (by simp) (by simp)⟩

/-- Bits of a mask image of which those below `n` are written. -/
theorem maskImage_bit (old : BitVec 2048) (n : Nat) (value : Nat → Bool) {i : Nat} (hi : i < 2048) :
    (BitVec.ofNat 2048 (insertBits old.toNat 0 n (packElems 1 ((upTo n).map fun j => flag (value j))))).getLsbD i =
      if i < n then value i else old.getLsbD i := by
  have packed (below : i < n) : (packElems 1 ((upTo n).map fun j => flag (value j))).testBit i = value i := by
    have := packElems_testBit 1 ((upTo n).map fun j => flag (value j)) i 0 (by decide)
    rw [Nat.one_mul, Nat.add_zero] at this
    rw [this]
    cases h : value i <;> simp [upTo, below, h, flag]
  rw [BitVec.getLsbD_ofNat, insertBits_testBit]
  split
  · next below => simp only [hi, decide_true, Bool.true_and, packed below]
  · simp only [hi, decide_true, Bool.true_and, BitVec.testBit_toNat]

theorem or_noFlags (fl : BitVec 6) : fl ||| 0 = fl := BitVec.or_zero

/-- A write of mask bits below `n` (R119), where no bit is in error. -/
theorem writeMask_after {h : Hart} (calm : h.mbad = []) (d : BitVec 3) (n : Nat) (value : Nat → Option Bool) :
    ∃ v, MaskAfter v (h.getM d) n value ∧ h.writeMask d n value = h.setM d v := by
  refine ⟨BitVec.ofNat 2048 (insertBits (h.getM d).toNat 0 n
    (packElems 1 ((upTo n).map fun i => flag ((value i).getD ((h.getM d).getLsbD i))))), fun i hi => maskImage_bit _ n _ hi, ?_⟩
  unfold Hart.writeMask Hart.setM
  split
  · simp only [calm, List.filter_nil]
    rw [← calm]
  · simp only [calm, List.filter_nil]

/-- An instruction that writes mask bits and raises no flag completes with them. -/
theorem maskDone_next (ready : s.VectorReady) (d : BitVec 3) (n : Nat) (value : Nat → Option Bool) :
    MaskDone s (.next ((({ s with cur := s.cur.writeMask d n value } : State).countCur 0x03 1).retire)) d n value 0 := by
  obtain ⟨v, after, e⟩ := writeMask_after ready.masks d n value
  refine ⟨v, after, ?_⟩
  have pc : (s.cur.setM d v).pc = s.cur.pc := by simp
  have done := completes_retireVector (s := s) (s.cur.setM d v)
  rw [pc, ← e] at done
  refine done.congr ?_
  rw [e, or_noFlags]
  unfold Hart.setM
  split <;> rfl

end

end Sys2Proof.Machine
end

section
/-! Mask and bitmap instructions (R92, R103, R134-R136): bits, counts and positions. -/

namespace Sys2Proof.Machine

/-! Counting and finding bits -/

theorem range_succ_filter (n : Nat) (p : Nat → Bool) :
    (List.range (n + 1)).filter p = (if p 0 then [0] else []) ++ ((List.range n).filter fun i => p (i + 1)).map Nat.succ := by
  rw [List.range_succ_eq_map, List.filter_cons, List.filter_map]
  split <;> rfl

theorem popCount_eq (n : Nat) : ∀ v, popCount n v = ((List.range n).filter v.testBit).length := by
  induction n with
  | zero => exact fun _ => rfl
  | succ n ih =>
    intro v
    have rest : (List.range n).filter (fun i => v.testBit (i + 1)) = (List.range n).filter (v / 2).testBit :=
      List.filter_congr fun i _ => Nat.testBit_succ v i
    rw [popCount, ih, range_succ_filter, List.length_append, List.length_map, rest, Nat.testBit_zero]
    rcases Nat.mod_two_eq_zero_or_one v with h | h <;> simp [h]

/-- Counting looks at no bit above. -/
theorem popCount_mod (n v : Nat) : popCount n (v % 2 ^ n) = ((List.range n).filter v.testBit).length := by
  rw [popCount_eq]
  congr 1
  refine List.filter_congr fun i hi => ?_
  rw [Nat.testBit_mod_two_pow, decide_eq_true (List.mem_range.1 hi), Bool.true_and]

theorem lowestSet_eq (n : Nat) : ∀ v, v < 2 ^ n → v ≠ 0 → (List.range n).find? v.testBit = some (lowestSet n v) := by
  induction n with
  | zero => exact fun v small nonzero => absurd (by simpa using small) nonzero
  | succ n ih =>
    intro v small nonzero
    rw [List.range_succ_eq_map, List.find?_cons, Nat.testBit_zero, lowestSet, List.find?_map]
    rcases Nat.mod_two_eq_zero_or_one v with h | h
    · have rest : (v.testBit ∘ Nat.succ) = (v / 2).testBit := funext fun i => Nat.testBit_succ v i
      simp only [h, rest, ih (v / 2) (by omega) (by omega)]
      rfl
    · simp only [h, ↓reduceIte, decide_true]

/-- The lowest set bit of a number, and the number without it. -/
theorem lowest_bit (c : Nat) : c ≠ 0 → ∃ k, c.testBit k = true ∧ (∀ i, i < k → c.testBit i = false) ∧
    ∀ i, (c &&& (c - 1)).testBit i = (c.testBit i && decide (i ≠ k)) := by
  induction c using Nat.strongRecOn with
  | ind c ih =>
    intro nonzero
    have pred (i : Nat) : (c - 1).testBit (i + 1) = ((c - 1) / 2).testBit i := Nat.testBit_succ _ i
    rcases Nat.mod_two_eq_zero_or_one c with h | h
    · obtain ⟨k, set, below, cleared⟩ := ih (c / 2) (by omega) (by omega)
      have half : (c - 1) / 2 = c / 2 - 1 := by omega
      refine ⟨k + 1, by rw [Nat.testBit_succ, set], fun i hi => ?_, fun i => ?_⟩
      · cases i with
        | zero => simp [h]
        | succ i => rw [Nat.testBit_succ, below i (by omega)]
      · cases i with
        | zero => simp [h]
        | succ i =>
          rw [Nat.testBit_and, pred, half, Nat.testBit_succ, ← Nat.testBit_and, cleared]
          simp
    · have half : (c - 1) / 2 = c / 2 := by omega
      refine ⟨0, by simp [h], fun i hi => absurd hi (Nat.not_lt_zero i), fun i => ?_⟩
      cases i with
      | zero => simp; omega
      | succ i =>
        rw [Nat.testBit_and, pred, half, Nat.testBit_succ]
        simp

/-- The positions of set bits, ascending, begin with the lowest. -/
theorem setBits_of_lowest {c N k : Nat} (small : c < 2 ^ N) (set : c.testBit k = true) (below : ∀ i, i < k → c.testBit i = false)
    {rest : Nat} (cleared : ∀ i, rest.testBit i = (c.testBit i && decide (i ≠ k))) :
    (List.range N).filter c.testBit = k :: (List.range N).filter rest.testBit := by
  have inside : k < N := by
    by_contra h
    rw [Nat.testBit_lt_two_pow (Nat.lt_of_lt_of_le small (Nat.pow_le_pow_right (by decide) (by omega)))] at set
    cases set
  obtain ⟨r, rfl⟩ : ∃ r, N = k + (1 + r) := ⟨N - k - 1, by omega⟩
  have first (p : Nat → Bool) (none : ∀ i, i < k → p i = false) : (List.range (k + (1 + r))).filter p =
      (if p k then [k] else []) ++ ((List.range r).map fun i => k + 1 + i).filter p := by
    rw [List.range_add, List.filter_append, List.range_add, List.map_append, List.filter_append, List.map_map]
    have start : (List.range k).filter p = [] := List.filter_eq_nil_iff.2 fun i hi => by rw [none i (List.mem_range.1 hi)]; decide
    rw [start]
    cases h : p k <;> simp [h, Nat.add_assoc]
  rw [first _ below, first _ fun i hi => by rw [cleared, below i hi]; rfl, cleared, set]
  have later : ((List.range r).map fun i => k + 1 + i).filter rest.testBit =
      ((List.range r).map fun i => k + 1 + i).filter c.testBit := by
    refine List.filter_congr fun i hi => ?_
    obtain ⟨j, _, rfl⟩ := List.mem_map.1 hi
    rw [cleared, decide_eq_true (by omega), Bool.and_true]
  simp [later]

theorem bitPositions_eq (n : Nat) : ∀ {c N : Nat}, c < 2 ^ N → bitPositions n c = ((List.range N).filter c.testBit).take n := by
  induction n with
  | zero => exact fun _ => rfl
  | succ n ih =>
    intro c N small
    rw [bitPositions]
    split
    · next zero => simp [zero]
    · next nonzero =>
      obtain ⟨k, set, below, cleared⟩ := lowest_bit c nonzero
      have lone : c ^^^ (c &&& (c - 1)) = 2 ^ k := by
        refine Nat.eq_of_testBit_eq fun i => ?_
        rw [Nat.testBit_xor, cleared, Nat.testBit_two_pow]
        by_cases h : i = k
        · simp [h, set]
        · simp [h, Ne.symm h]
      rw [setBits_of_lowest small set below cleared, List.take_succ_cons, ← ih (Nat.lt_of_le_of_lt Nat.and_le_left small)]
      simp only [lone, Nat.log2_two_pow]

/-! VMASK (R103) -/

section
variable {s : State}

theorem maskChecks_ok (ready : s.VectorReady) (masks : List (BitVec 3)) : maskChecks masks s = .ok () s :=
  (bind_ok (notMatrixNotReleased_ok ready.noMatrix ready.lanes)).trans ((curHart_bind _).trans (soundBelow_ok ready _ _))

/-- An instruction whose checks pass and that changes the hart in front alone. -/
theorem finish_of_checks {checks : M Unit} (h : checks s = .ok () s) (f : Hart → Hart) :
    finish (checks >>= fun _ => modCur f >>= fun _ => retireVector) s =
      .next ((({ s with cur := f s.cur } : State).countCur 0x03 1).retire) :=
  finish_ok ((bind_ok h).trans rfl)

theorem maskDone_of_maskOp (ready : s.VectorReady) {i : Instr} {d a b : BitVec 3} {f : Bool → Bool → Bool}
    (h : exec i s = maskOp d a b f s) : MaskDone s (exec i s) d s.cur.ml
      (fun j => some (f ((s.cur.getM a).getLsbD j) ((s.cur.getM b).getLsbD j))) 0 := by
  rw [h, maskOp, finish_of_checks (maskChecks_ok ready _)]
  exact maskDone_next ready d s.cur.ml _

theorem maskToX_completes (ready : s.VectorReady) (d : BitVec 5) (a : BitVec 3) (f : Nat → Nat → Word) :
    Completes s (maskToX d a f s) (s.cur.pc + 4) (s.cur.setX d (f s.cur.ml (s.cur.maskBits a))) := by
  rw [maskToX, finish_of_checks (maskChecks_ok ready _)]
  simpa using completes_retireVector (s := s) (s.cur.setX d (f s.cur.ml (s.cur.maskBits a)))

theorem maskToC_completes (ready : s.VectorReady) (d a : BitVec 3) (f : Nat → Nat → Bool) :
    Completes s (maskToC d a f s) (s.cur.pc + 4) (s.cur.setC d (f s.cur.ml (s.cur.maskBits a))) := by
  rw [maskToC, finish_of_checks (maskChecks_ok ready _)]
  simpa using completes_retireVector (s := s) (s.cur.setC d (f s.cur.ml (s.cur.maskBits a)))

/-- Bits of a mask below its length, as a predicate on positions. -/
theorem maskBits_testBit {h : Hart} {a : BitVec 3} {i : Nat} (hi : i < h.ml) : (h.maskBits a).testBit i = (h.getM a).getLsbD i := by
  rw [Hart.maskBits, Nat.testBit_mod_two_pow, decide_eq_true hi, Bool.true_and, BitVec.testBit_toNat]

/-- The set bits of a mask below its length. -/
theorem maskBits_filter (h : Hart) (a : BitVec 3) :
    (List.range h.ml).filter (h.maskBits a).testBit = (List.range h.ml).filter (h.getM a).getLsbD :=
  List.filter_congr fun _ hi => maskBits_testBit (List.mem_range.1 hi)

theorem maskBits_eq_zero {h : Hart} {a : BitVec 3} :
    h.maskBits a = 0 ↔ ∀ i, i < h.ml → (h.getM a).getLsbD i = false := by
  refine ⟨fun e i hi => ?_, fun e => Nat.eq_of_testBit_eq fun i => ?_⟩
  · rw [← maskBits_testBit hi, e, Nat.zero_testBit]
  · by_cases hi : i < h.ml
    · rw [maskBits_testBit hi, e i hi, Nat.zero_testBit]
    · rw [Hart.maskBits, Nat.testBit_mod_two_pow, decide_eq_false hi, Bool.false_and, Nat.zero_testBit]

theorem maskBits_eq_ones {h : Hart} {a : BitVec 3} :
    h.maskBits a = 2 ^ h.ml - 1 ↔ ∀ i, i < h.ml → (h.getM a).getLsbD i = true := by
  refine ⟨fun e i hi => ?_, fun e => Nat.eq_of_testBit_eq fun i => ?_⟩
  · rw [← maskBits_testBit hi, e, Nat.testBit_two_pow_sub_one, decide_eq_true hi]
  · rw [Nat.testBit_two_pow_sub_one]
    by_cases hi : i < h.ml
    · rw [maskBits_testBit hi, e i hi, decide_eq_true hi]
    · rw [Hart.maskBits, Nat.testBit_mod_two_pow, decide_eq_false hi, Bool.false_and]

/-- The first set bit of a mask below its length (R103). -/
theorem mfirst_word (h : Hart) (a : BitVec 3) :
    (if h.maskBits a = 0 then BitVec.allOnes 64 else BitVec.ofNat 64 (lowestSet h.ml (h.maskBits a))) =
      match (List.range h.ml).find? (h.getM a).getLsbD with
      | some i => BitVec.ofNat 64 i
      | none => BitVec.allOnes 64 := by
  have same : (List.range h.ml).find? (h.getM a).getLsbD = (List.range h.ml).find? (h.maskBits a).testBit := by
    rw [← List.head?_filter, ← List.head?_filter, maskBits_filter]
  have small : h.maskBits a < 2 ^ h.ml := Nat.mod_lt _ (Nat.two_pow_pos _)
  rw [same]
  split
  · next zero =>
    rw [zero, List.find?_eq_none.2 fun i _ => by rw [Nat.zero_testBit]; decide]
  · next nonzero =>
    rw [lowestSet_eq _ _ small nonzero]

theorem miota_done (ready : s.VectorReady) (fits : s.cur.Fits [.n32]) (d : BitVec 5) (a : BitVec 3) :
    VectorDone s (exec (.miota d a) s) d .n32 s.cur.vlen
      (fun i => some ⟨((List.range i).filter (s.cur.getM a).getLsbD).length, 0⟩) 0 := by
  have checked := checks_ok ready (live := []) (ok := true) (fun _ => nofun) rfl (fun _ => nofun) fits
  refine VectorDone.congr (vectorDone_of_plain ready (g := fun i => some ⟨popCount i ((s.cur.getM a).toNat % 2 ^ i), 0⟩)
    ((bind_ok checked).trans ((bind_ok (settled_ok ready _)).trans ((curHart_bind _).trans (bind_ok (soundBelow_ok ready _ _))))))
    fun i _ => ?_
  have count : popCount i ((s.cur.getM a).toNat % 2 ^ i) = ((List.range i).filter (s.cur.getM a).getLsbD).length :=
    popCount_mod i _
  rw [count]

end

theorem Tag.live_of_isInt {t : Tag} (h : t.isInt = true) : t ≠ .dead := by
  rintro rfl
  cases h

/-! Nonzero elements (R51, R135) -/

theorem Tag.width_of_fmt {t : Tag} {f : Fmt} (h : t.fmt = some f) : t.width = f.width := by
  cases t <;> simp only [Tag.fmt, Option.some.injEq, reduceCtorEq] at h <;> subst h <;> rfl

theorem nonzero_of_isInt {t : Tag} (h : t.isInt = true) (x : Nat) : nonzero t x = decide (x ≠ 0) := by
  unfold nonzero
  rw [Tag.fmt_of_isInt h, if_neg (by decide), Bool.eq_iff_iff]
  simp

theorem nonzero_of_fmt {t : Tag} {f : Fmt} (h : t.fmt = some f) (x : Nat) : nonzero t x = decide (f.mag x ≠ 0) := by
  unfold nonzero
  rw [Tag.width_of_fmt h, h, Option.isSome_some, if_pos rfl, Bool.eq_iff_iff, bne_iff_ne, decide_eq_true_iff]
  rfl

section
variable {s : State} (ready : s.VectorReady)
include ready

/-- `vnzb` writes a bit for each element of a live source, or for each pair of them (R135). -/
theorem vnzb_done (e m : BitVec 3) (a : BitVec 5) (live : (s.cur.getV a).tag ≠ .dead) (fits : s.cur.Fits [(s.cur.getV a).tag]) :
    MaskDone s (exec (.vnzb e a m) s) e (maskLen ((s.cur.getV a).tag == .e2m1) s.cur.vlen) (fun j =>
      if (s.cur.getM m).getLsbD j then some (if (s.cur.getV a).tag = .e2m1
        then nonzero (s.cur.getV a).tag ((s.cur.getV a).elem (2 * j)) || nonzero (s.cur.getV a).tag ((s.cur.getV a).elem (2 * j + 1))
        else nonzero (s.cur.getV a).tag ((s.cur.getV a).elem j)) else none) 0 := by
  have checked := checks_ok ready (live := [a]) (ok := true) (extra := []) (by simpa using live) rfl (by simpa using fits)
    (fun _ => nofun)
  show MaskDone s (finish (restartable _ _) s) e _ _ 0
  rw [finish_restartable ((curHart_bind _).trans ((bind_ok checked).trans ((bind_ok (settled_ok ready _)).trans
    ((bind_ok (soundBelow_ok ready _ _)).trans rfl))))]
  exact maskDone_next ready e _ _

/-! Bitmaps (R134-R136) -/

theorem soundBitmaps_ok (bitmaps regs : List (BitVec 5)) (m : BitVec 3) : soundBitmaps bitmaps regs m s = .ok () s :=
  (curHart_bind _).trans (soundBelow_ok ready _ _)

section
variable (d a b : BitVec 5) (m : BitVec 3) (fits : s.cur.Fits [.n32])
include fits

/-- The checks of a bitmap instruction and the wait for its registers pass. -/
theorem bitmap_ok {ok : Bool} (holds : ok = true) (regs bitmaps others : List (BitVec 5)) (rest : Unit → M Unit) :
    (notMatrixNotReleased >>= fun _ => need ok 0x02 >>= fun _ => capacity [.n32] >>= fun _ => settled regs >>= fun _ =>
      soundBitmaps bitmaps others m >>= rest) s = rest () s :=
  (bind_ok (notMatrixNotReleased_ok ready.noMatrix ready.lanes)).trans ((bind_ok (need_of holds _ s)).trans
    ((bind_ok (capacity_ok fits)).trans ((bind_ok (settled_ok ready _)).trans (bind_ok (soundBitmaps_ok ready _ _ m)))))

variable (int : (s.cur.getV a).tag.isInt = true)
include int

/-- `vbpop` counts the bits of the elements below (R135). -/
theorem vbpop_done (source : s.cur.Fits [(s.cur.getV a).tag]) :
    VectorDone s (exec (.vbpop d a m) s) d .n32 s.cur.vlen (fun i => if activeAt false s.cur.vlen (s.cur.getM m) i
      then some ⟨popCount ((s.cur.getV a).tag.width * i) (s.cur.getV a).img.toNat, 0⟩ else none) 0 := by
  have checked := checks_ok ready (live := [a]) (by simpa using Tag.live_of_isInt int) int (by simpa using source) fits
  exact vectorDone_of_results ready ((curHart_bind _).trans ((bind_ok checked).trans ((bind_ok (settled_ok ready _)).trans
    (bind_ok (soundBelow_ok ready _ _))))) _

/-- `vrank` counts the bits below the position that an element of b names (R135). -/
theorem vrank_done (tag : (s.cur.getV b).tag = .n32) :
    VectorDone s (exec (.vrank d a b m) s) d .n32 s.cur.vlen (fun i => if activeAt false s.cur.vlen (s.cur.getM m) i
      then some ⟨popCount (min ((s.cur.getV b).elem i) 16384) (s.cur.getV a).img.toNat, 0⟩ else none) 0 := by
  have holds : ((s.cur.getV a).tag.isInt && (s.cur.getV b).tag == .n32) = true := by rw [int, tag]; rfl
  exact vectorDone_of_results ready ((curHart_bind _).trans (bitmap_ok ready m fits holds _ _ _ _)) _

/-- `vxsect` gives the positions that two bitmaps share (R136). -/
theorem vxsect_done (other : (s.cur.getV b).tag.isInt = true) :
    VectorDone s (exec (.vxsect d a b m) s) d .n32 s.cur.vlen (fun j => if activeAt false s.cur.vlen (s.cur.getM m) j
      then some ⟨(bitPositions s.cur.vlen ((s.cur.getV a).img &&& (s.cur.getV b).img).toNat).getD j 0xFFFFFFFF, 0⟩ else none) 0 := by
  have holds : ((s.cur.getV a).tag.isInt && (s.cur.getV b).tag.isInt) = true := by rw [int, other]; rfl
  exact vectorDone_of_results ready ((curHart_bind _).trans (bitmap_ok ready m fits holds _ _ _ _)) _

end

end

/-- The positions that two bitmaps share, as far as a vector of `n` elements lists them. -/
theorem shared_positions (x y : BitVec 16384) {n j : Nat} (hj : j < n) (d : Nat) :
    (bitPositions n (x &&& y).toNat).getD j d = ((List.range 16384).filter fun i => x.getLsbD i && y.getLsbD i).getD j d := by
  have both : (List.range 16384).filter (x &&& y).toNat.testBit = (List.range 16384).filter fun i => x.getLsbD i && y.getLsbD i :=
    List.filter_congr fun i _ => by rw [BitVec.testBit_toNat, BitVec.getLsbD_and]
  rw [bitPositions_eq n (x &&& y).isLt, both, List.getD_eq_getElem?_getD, List.getD_eq_getElem?_getD, List.getElem?_take_of_lt hj]

/-- Settles O30: each instruction completes (`maskDone_of_maskOp`, `vnzb_done` and their fellows), and its counts and positions are those
of the set bits (`popCount_eq`, `lowestSet_eq`, `bitPositions_eq`). -/
theorem maskResults : Obligations.MaskResults := by
  refine ⟨fun s d a b x ready => ?_, fun s d a b e m ready => ?_⟩
  · intro n p q bits
    have op {i : Instr} (b : BitVec 3) (f : Bool → Bool → Bool) (h : exec i s = maskOp d a b f s) := maskDone_of_maskOp ready h
    have words := fun (f : Nat → Nat → Word) => maskToX_completes ready x a f
    have conds := fun (f : Nat → Nat → Bool) => maskToC_completes ready d a f
    refine ⟨op b (· && ·) rfl, op b (· || ·) rfl, op b (· != ·) rfl, op b (fun x y => x && !y) rfl, op a (fun x _ => !x) rfl,
      op a (fun x _ => x) rfl, maskDone_of_maskOp ready (a := 0) (b := 0) (f := fun _ _ => true) rfl,
      maskDone_of_maskOp ready (a := 0) (b := 0) (f := fun _ _ => false) rfl, ?_, fun _ => ⟨?_, ?_, ?_, ?_⟩,
      fun fits => miota_done ready fits x a⟩
    · have done := completes_retireVector (s := s) (s.cur.setM d s.cur.progress.vcomp)
      rw [← finish_of_checks (notMatrixNotReleased_ok ready.noMatrix ready.lanes) fun h => h.setM d h.progress.vcomp, Hart.setM_pc] at done
      exact done
    · have count : popCount n (s.cur.maskBits a) = ((List.range n).filter p).length := by rw [popCount_eq, maskBits_filter]
      rw [← count]
      exact words fun ml v => BitVec.ofNat 64 (popCount ml v)
    · have first := words fun ml v => if v = 0 then BitVec.allOnes 64 else BitVec.ofNat 64 (lowestSet ml v)
      rwa [mfirst_word] at first
    · have some_bit : (s.cur.maskBits a != 0) = (List.range n).any p := by
        rw [Bool.eq_iff_iff, bne_iff_ne, Ne, maskBits_eq_zero, List.any_eq_true]
        simp [p, n]
      rw [← some_bit]
      exact conds fun _ v => v != 0
    · have all_bits : (s.cur.maskBits a == 2 ^ n - 1) = (List.range n).all p := by
        rw [Bool.eq_iff_iff, beq_iff_eq, maskBits_eq_ones, List.all_eq_true]
        simp [p, n]
      rw [← all_bits]
      exact conds fun ml v => v == 2 ^ ml - 1
  · intro va t vl active count done
    refine ⟨⟨fun x h => nonzero_of_isInt h x, fun f x h => nonzero_of_fmt h x⟩, fun pair fits => ?_, fun live single fits => ?_, ?_⟩
    · have done := vnzb_done ready e m a (by rw [show (s.cur.getV a).tag = _ from pair]; decide) fits
      simpa only [t, va, vl, show (s.cur.getV a).tag = .e2m1 from pair, ↓reduceIte, BEq.rfl, maskLen] using done
    · have done := vnzb_done ready e m a live fits
      simpa only [t, va, vl, show ((s.cur.getV a).tag == .e2m1) = false from beq_false_of_ne single,
        if_neg (show ¬ (s.cur.getV a).tag = .e2m1 from single), maskLen, Bool.false_eq_true, ↓reduceIte] using done
    · intro int fits
      have counted (k : Nat) : popCount k va.img.toNat = count k := by rw [popCount_eq]; rfl
      refine ⟨fun source => ?_, fun tag => ?_, fun other => ?_⟩
      · refine (vbpop_done ready d a m fits int source).congr fun i _ => ?_
        exact congrArg (fun k => if active i then some (⟨k, 0⟩ : FRes) else none) (counted _)
      · refine (vrank_done ready d a b m fits int tag).congr fun i _ => ?_
        exact congrArg (fun k => if active i then some (⟨k, 0⟩ : FRes) else none) (counted _)
      · refine (vxsect_done ready d a b m fits int other).congr fun i hi => ?_
        rw [shared_positions _ _ hi]

end Sys2Proof.Machine
end

section
/-! Permutations, moves and random words (R58, R101, R131-R133). -/

namespace Sys2Proof.Machine

/-! Scalars as elements, and elements as scalars (R109, R133) -/

theorem scalarElem_of_isInt {t : Tag} (h : t.isInt = true) (logic : Bool) (md : Mode) (x : Word) :
    scalarElem t logic md x = ⟨x.toNat % 2 ^ t.width, 0⟩ := by
  simp only [scalarElem, Tag.fmt_of_isInt h]

theorem unbox_single (x : Word) :
    unbox 0 x = if x.toNat / 2 ^ 32 = 2 ^ 32 - 1 then x.toNat % 2 ^ 32 else 0x7FC00000 := rfl

/-- The scalar operand of an element instruction is what R109 makes of it. -/
theorem scalarElem_takes (t : Tag) (md : Mode) (x : Word) : t.Takes md x.toNat (scalarElem t false md x) := by
  refine ⟨fun int => scalarElem_of_isInt int false md x, ?_, ?_, fun f small tag => ?_⟩
  · rintro rfl
    rfl
  · rintro rfl
    exact congrArg (fun v => (⟨v, 0⟩ : FRes)) (unbox_single x)
  · have narrow : t ≠ .e2m1 ∧ t ≠ .f64 ∧ t ≠ .f32 := by
      refine ⟨?_, ?_, ?_⟩ <;> rintro rfl <;> cases tag <;> revert small <;> decide
    obtain ⟨h1, h2, h3⟩ := narrow
    simp only [scalarElem, tag, h1, h2, h3, Bool.false_or, decide_false, Bool.false_eq_true, ↓reduceIte, unbox_single]

theorem int_of_unsigned {t : Tag} (h : t.isSigned = false) {v : Nat} (hv : v < 2 ^ t.width) : t.int v = v := by
  rw [Tag.int, h, if_neg (by decide), Nat.mod_eq_of_lt hv]

theorem elemScalar_of_isInt {t : Tag} (h : t.isInt = true) {v : Nat} (hv : v < 2 ^ t.width) :
    elemScalar t v = BitVec.ofInt 64 (t.int v) := by
  cases signed : t.isSigned with
  | true => simp only [elemScalar, Tag.int, signed, ↓reduceIte]
  | false =>
    have other : t ≠ .f32 := by
      rintro rfl
      cases h
    simp only [elemScalar, signed, Bool.false_eq_true, ↓reduceIte, other, int_of_unsigned signed hv]
    exact (BitVec.ofInt_natCast 64 v).symm

theorem box_toNat_single {v : Nat} (h : v < 2 ^ 32) : (box 0 v).toNat = 0xFFFFFFFF00000000 + v := by
  show (BitVec.ofNat 64 (0xFFFFFFFF00000000 + v)).toNat = _
  rw [BitVec.toNat_ofNat]
  omega

theorem box_toNat_double {v : Nat} (h : v < 2 ^ 64) : (box 1 v).toNat = v := by
  show (BitVec.ofNat 64 v).toNat = _
  rw [BitVec.toNat_ofNat]
  omega

theorem elemScalar_toNat {t : Tag} (h : t ∈ [Tag.f16, .bf16, .e4m3, .e5m2, .f64]) {v : Nat} (hv : v < 2 ^ t.width) :
    (elemScalar t v).toNat = v := by
  have plain : elemScalar t v = BitVec.ofNat 64 v ∧ 2 ^ t.width ≤ 2 ^ 64 := by
    simp only [List.mem_cons, List.not_mem_nil, or_false] at h
    rcases h with rfl | rfl | rfl | rfl | rfl <;> exact ⟨rfl, by decide⟩
  rw [plain.1, BitVec.toNat_ofNat, Nat.mod_eq_of_lt (Nat.lt_of_lt_of_le hv plain.2)]

/-! Philox (R58) -/

/-- The key of round `n`, after so many bumps. -/
def philoxKey (r : Word) (n : Nat) : Nat × Nat := ((r.toNat + n * 0x9E3779B9) % 2 ^ 32, (r.toNat / 2 ^ 32 + n * 0xBB67AE85) % 2 ^ 32)

theorem philoxKey_succ (r : Word) (n : Nat) :
    philoxKey r (n + 1) = (((philoxKey r n).1 + 0x9E3779B9) % 2 ^ 32, ((philoxKey r n).2 + 0xBB67AE85) % 2 ^ 32) := by
  unfold philoxKey
  ext <;> dsimp only <;> omega

/-- A round and those that remain. The recursor is unfolded first: the kernel would compare the sums of the key digit by digit. -/
theorem philoxRounds_succ (n : Nat) (c : Nat × Nat × Nat × Nat) : philoxRounds (n + 1) c = fun k0 k1 =>
    philoxRounds n (philoxRound c.1 c.2.1 c.2.2.1 c.2.2.2 k0 k1) ((k0 + 0x9E3779B9) % 2 ^ 32) ((k1 + 0xBB67AE85) % 2 ^ 32) := by
  delta philoxRounds
  exact rfl

/-- The rounds that remain are a fold over their numbers. -/
theorem philoxRounds_eq (r : Word) (n : Nat) : ∀ (k : Nat) (c : Nat × Nat × Nat × Nat),
    philoxRounds n c (philoxKey r k).1 (philoxKey r k).2 = ((List.range' k n).foldl (fun x j =>
      philoxRound x.1 x.2.1 x.2.2.1 x.2.2.2 (philoxKey r j).1 (philoxKey r j).2) c).1 := by
  induction n with
  | zero => exact fun _ _ => rfl
  | succ n ih =>
    intro k c
    rw [List.range'_succ, List.foldl_cons, ← ih (k + 1), philoxKey_succ, philoxRounds_succ]

/-- Word 0 of Philox-4x32-10, round by round. -/
theorem philox_eq (c r : Word) : philox c r = ((List.range 10).foldl (fun x j =>
    philoxRound x.1 x.2.1 x.2.2.1 x.2.2.2 (philoxKey r j).1 (philoxKey r j).2) (c.toNat % 2 ^ 32, c.toNat / 2 ^ 32, 0, 0)).1 := by
  have start : philoxKey r 0 = (r.toNat % 2 ^ 32, r.toNat / 2 ^ 32) := by
    have := r.isLt
    unfold philoxKey
    ext <;> dsimp only <;> omega
  rw [List.range_eq_range', ← philoxRounds_eq, start, philox]

/-! Completion -/

section
variable {s : State} {i : Instr}

/-- The value that a permutation gives an element. -/
def Moved.value (va : VReg) : Moved → Option FRes
  | .keep => none
  | .zero => some ⟨0, 0⟩
  | .from k => some ⟨va.elem k, 0⟩

theorem Moved.value_from_or_zero (va : VReg) (p : Prop) [Decidable p] (j : Nat) :
    (if p then Moved.from j else .zero).value va = (some (if p then va.elem j else 0)).map fun v => ⟨v, 0⟩ := by
  split <;> rfl

theorem Moved.value_from_or_keep (va : VReg) (p : Prop) [Decidable p] (j : Nat) :
    (if p then Moved.from j else .keep).value va = (if p then some (va.elem j) else none).map fun v => ⟨v, 0⟩ := by
  split <;> rfl

theorem Tag.live_of_movable {t : Tag} (h : t.movable = true) : t ≠ .dead := by
  rintro rfl
  cases h

section
variable (ready : s.VectorReady)
include ready

theorem moveChecks_ok {regs live : List (BitVec 5)} {ok : Bool} (alive : ∀ r ∈ live, (s.cur.getV r).tag ≠ .dead)
    (holds : ok = true) (fits : ∀ r ∈ live, s.cur.Fits [(s.cur.getV r).tag]) : moveChecks regs live ok s = .ok () s :=
  (moveChecks_eq ready.noMatrix regs live ok).trans
    ((bind_ok (checks_ok ready (extra := []) alive holds fits fun _ => nofun)).trans (settled_ok ready regs))

theorem permute_done {cap : Captured} {d a : BitVec 5} {more : List (BitVec 5)} {m : BitVec 3} {ok : Bool} {f : Nat → Nat → Moved}
    (h : exec i s = finish (permute cap d a more m ok f) s) (movable : (s.cur.getV a).tag.movable = true) (holds : ok = true)
    (fits : s.cur.Fits [(s.cur.getV a).tag])
    (others : ∀ r ∈ more, (s.cur.getV r).tag ≠ .dead ∧ s.cur.Fits [(s.cur.getV r).tag]) :
    VectorDone s (exec i s) d (s.cur.getV a).tag s.cur.vlen (fun i => if activeAt false s.cur.vlen (s.cur.getM m) i
      then (f s.cur.vlen i).value (s.cur.getV a) else none) 0 := by
  have checked := checks_ok ready (live := a :: more) (ok := (s.cur.getV a).tag.movable && ok) (extra := [])
    (List.forall_mem_cons.2 ⟨Tag.live_of_movable movable, fun r hr => (others r hr).1⟩) (by rw [movable, holds]; rfl)
    (List.forall_mem_cons.2 ⟨fits, fun r hr => (others r hr).2⟩) fun _ => nofun
  rw [h]
  exact vectorDone_of_results ready ((curHart_bind _).trans ((bind_ok checked).trans ((bind_ok (settled_ok ready _)).trans
    ((bind_ok (soundBelow_ok ready _ _)).trans rfl)))) cap

section
variable (d a : BitVec 5) (m : BitVec 3) (fits : s.cur.Fits [(s.cur.getV a).tag])
include fits

/-- `vcompress` packs the active elements (R132). -/
theorem vcompress_done (movable : (s.cur.getV a).tag.movable = true) :
    VectorDone s (exec (.vcompress d a m) s) d (s.cur.getV a).tag
      ((List.range s.cur.vlen).filter (activeAt false s.cur.vlen (s.cur.getM m))).length
      (fun i => (((List.range s.cur.vlen).filter (activeAt false s.cur.vlen (s.cur.getM m)))[i]?).map fun j =>
        ⟨(s.cur.getV a).elem j, 0⟩) 0 := by
  have checked := checks_ok ready (live := [a]) (extra := []) (by simpa using Tag.live_of_movable movable) movable
    (by simpa using fits) fun _ => nofun
  have listed {α β : Type} (l : List α) (f : α → β) : l.map (fun x => some (f x)) = (upTo l.length).map fun i => (l[i]?).map f := by
    refine List.ext_getElem (by simp [upTo]) fun i h _ => ?_
    simp only [List.length_map] at h
    simp [upTo, h]
  refine vectorDone_of_results ready ((curHart_bind _).trans ((bind_ok checked).trans ((bind_ok (settled_ok ready _)).trans
    ((bind_ok (soundBelow_ok ready _ _)).trans ?_)))) _
  rw [listed]
  rfl

/-- `vmv` copies a live register (R131). -/
theorem vmv_done (live : (s.cur.getV a).tag ≠ .dead) :
    VectorDone s (exec (.vmv d a m) s) d (s.cur.getV a).tag
      (destLen ((s.cur.getV a).tag == .e2m1) (s.cur.getV a).tag s.cur.vlen)
      (fun i => if activeAt ((s.cur.getV a).tag == .e2m1) s.cur.vlen (s.cur.getM m) i then some ⟨(s.cur.getV a).elem i, 0⟩ else none)
      0 := by
  have checked := moveChecks_ok ready (regs := [d, a]) (live := [a]) (by simpa using live) rfl (by simpa using fits)
  exact vectorDone_of_results ready ((bind_ok checked).trans ((curHart_bind _).trans (bind_ok (soundBelow_ok ready _ _)))) _

/-- `vmvx` gives the scalar that an element becomes, and 0 beyond the length (R133). -/
theorem vmvx_completes (f : BitVec 2) (b : BitVec 5) (movable : (s.cur.getV a).tag.movable = true) :
    Completes s (exec (.vmvx f d a b) s) (s.cur.pc + 4) (s.cur.setX d (if (s.permCapture b).amount f b < s.cur.vlen
      then elemScalar (s.cur.getV a).tag ((s.cur.getV a).elem ((s.permCapture b).amount f b)) else 0)) := by
  have checked := moveChecks_ok ready (regs := [a]) (live := [a]) (by simpa using Tag.live_of_movable movable) movable
    (by simpa using fits)
  have sound (p : Prop) [Decidable p] (n : Nat) (bad : Hart → Nat → Bool) (rest : Unit → M Unit) :
      (if p then soundBelow n bad >>= rest else rest ()) s = rest () s := by
    split
    · exact bind_ok (soundBelow_ok ready _ _)
    · rfl
  have done := completes_retireVector (s := s) (s.cur.setX d (if (s.permCapture b).amount f b < s.cur.vlen
      then elemScalar (s.cur.getV a).tag ((s.cur.getV a).elem ((s.permCapture b).amount f b)) else 0))
  rw [Hart.setX_pc] at done
  show Completes s (finish (restartable _ _) s) _ _
  rw [finish_restartable ((curHart_bind _).trans ((bind_ok checked).trans ((sound _ _ _ _).trans rfl)))]
  exact done

end

/-- `viota` numbers the elements (R131). -/
theorem viota_done (d : BitVec 5) (u : BitVec 4) (m : BitVec 3) (int : (Tag.ofCode u.toNat).isInt = true)
    (fits : s.cur.Fits [Tag.ofCode u.toNat]) :
    VectorDone s (exec (.viota d u m) s) d (Tag.ofCode u.toNat) s.cur.vlen (fun i => if activeAt false s.cur.vlen (s.cur.getM m) i
      then some ⟨i % 2 ^ (Tag.ofCode u.toNat).width, 0⟩ else none) 0 := by
  have checked := checks_ok ready (live := []) (fun _ => nofun) int (fun _ => nofun) fits
  exact vectorDone_of_results ready ((bind_ok checked).trans ((bind_ok (settled_ok ready _)).trans ((curHart_bind _).trans
    (bind_ok (soundBelow_ok ready _ _))))) _

/-- `vrand` gives random words of the counter (R101). -/
theorem vrand_done (d b : BitVec 5) (m : BitVec 3) (fits : s.cur.Fits [.n32]) :
    VectorDone s (exec (.vrand d b m) s) d .n32 s.cur.vlen (fun i => if activeAt false s.cur.vlen (s.cur.getM m) i
      then some ⟨philox (s.scalarHere b + BitVec.ofNat 64 i) (s.issue []).rkey, 0⟩ else none) 0 := by
  have checked := checks_ok ready (live := []) (ok := true) (fun _ => nofun) rfl (fun _ => nofun) fits
  rw [← issue_rkey [] (s.x b)]
  exact vectorDone_of_results ready ((bind_ok checked).trans ((bind_ok (settled_ok ready _)).trans ((curHart_bind _).trans
    (bind_ok (soundBelow_ok ready _ _))))) _

/-- `vmvs` writes a scalar to the active elements of a live register (R133). -/
theorem vmvs_done (d b : BitVec 5) (m : BitVec 3) (live : (s.cur.getV d).tag ≠ .dead) (fits : s.cur.Fits [(s.cur.getV d).tag]) :
    let pair := (s.cur.getV d).tag == .e2m1
    let n := destLen pair (s.cur.getV d).tag s.cur.vlen
    let on := activeAt pair s.cur.vlen (s.cur.getM m)
    let r := scalarElem (s.cur.getV d).tag false (Mode.ofFmode s.fmodeHere) (s.scalarHere b)
    VectorDone s (exec (.vmvs d b m) s) d (s.cur.getV d).tag n (fun i => if on i then some ⟨r.val, 0⟩ else none)
      (if (List.range n).any on then r.fl else 0) := by
  intro pair n on r
  have checked := moveChecks_ok ready (regs := [d]) (live := [d]) (ok := true) (by simpa using live) rfl (by simpa using fits)
  have fmode : (s.permCapture b).fmode = s.fmodeHere := issue_fmode _ _
  refine (vectorDone_of_writes ready (n := n) (g := fun i => if on i then some ⟨r.val, 0⟩ else none) (once := r.fl)
    ((bind_ok checked).trans ((curHart_bind _).trans ((bind_ok (soundBelow_ok ready _ _)).trans ?_))) _).of_once ?_
  · rw [fmode]
    rfl
  · rw [any_isSome]

end

end

/-- Settles O32: permutations write what `Moved.value` says (`permute_done`), the moves and random words complete with their values
(`vmv_done` and its fellows), and Philox is a fold over its rounds (`philox_eq`). -/
theorem permutationResults : Obligations.PermutationResults := by
  refine ⟨fun t md x v => ⟨scalarElem_takes t md x, ?_, fun int small => elemScalar_of_isInt int small, ?_,
    fun other small => elemScalar_toNat other small⟩, fun c r => philox_eq c r, fun s f d a b m u ready => ?_⟩
  · rintro rfl
    rfl
  · rintro rfl small
    exact box_toNat_single small
  · intro va t vl active k done
    refine ⟨fun movable fits => ?_, fun live fits => vmv_done ready d a m fits live, fun live fits => vmvs_done ready d b m live fits,
      fun int fits => viota_done ready d u m int fits, fun fits => vrand_done ready d b m fits⟩
    have permuted {i : Instr} {cap : Captured} {more : List (BitVec 5)} {ok : Bool} {g : Nat → Nat → Moved}
        (h : exec i s = finish (permute cap d a more m ok g) s) (holds : ok = true)
        (others : ∀ r ∈ more, (s.cur.getV r).tag ≠ .dead ∧ s.cur.Fits [(s.cur.getV r).tag]) {r : Nat → Option Nat}
        (values : ∀ j, (g vl j).value va = (r j).map fun v => ⟨v, 0⟩) : done i r :=
      (permute_done ready h movable holds fits others).congr fun j _ =>
        congrArg (fun x => if active j then x else none) (values j)
    have alone : ∀ r ∈ ([] : List (BitVec 5)), (s.cur.getV r).tag ≠ .dead ∧ s.cur.Fits [(s.cur.getV r).tag] :=
      fun _ h => absurd h List.not_mem_nil
    refine ⟨permuted rfl rfl alone fun j => Moved.value_from_or_keep va _ _, permuted rfl rfl alone fun j =>
      Moved.value_from_or_zero va _ _, permuted rfl rfl alone fun j => Moved.value_from_or_zero va _ _,
      permuted rfl rfl alone fun j => ?_, fun int other => permuted rfl int
      (List.forall_mem_singleton.2 ⟨Tag.live_of_isInt int, other⟩) fun j => Moved.value_from_or_zero va _ _,
      vcompress_done ready d a m fits movable, vmvx_completes ready d a fits f b movable⟩
    have count : popCount j ((s.cur.getM m).toNat % 2 ^ j) = ((List.range j).filter (s.cur.getM m).getLsbD).length := popCount_mod j _
    simp only [Moved.value, count, Option.map]

end Sys2Proof.Machine
end

section
/-! Permitted accesses to control registers: what they read, and what a read after a write finds (R157-R164, R350, R352). -/

namespace Sys2Proof.Machine

/-! Fields of a word -/

theorem word_eq_of_toNat {x y : Word} (h : x.toNat = y.toNat) : x = y := BitVec.eq_of_toNat_eq h

theorem and_toNat (v m : Word) : (v &&& m).toNat = v.toNat &&& m.toNat := BitVec.toNat_and v m

/-- The low `n` bits of a word under a mask of so many ones. -/
theorem setWidth_mask (v : Word) {n : Nat} (hn : n < 64) (m : Word) (hm : m.toNat = 2 ^ n - 1) :
    (v.setWidth n).setWidth 64 = v &&& m := by
  have small : v.toNat % 2 ^ n < 2 ^ 64 :=
    Nat.lt_of_lt_of_le (Nat.mod_lt _ (Nat.two_pow_pos n)) (Nat.pow_le_pow_right (by decide) (Nat.le_of_lt hn))
  refine word_eq_of_toNat ?_
  rw [and_toNat, hm, Nat.and_two_pow_sub_one_eq_mod, BitVec.toNat_setWidth, BitVec.toNat_setWidth, Nat.mod_eq_of_lt small]

/-- Two fields of a number under a mask: `a` bits from bit `k` on, and `b` bits below. -/
theorem and_two_fields (v k a b : Nat) (hb : b ≤ k) :
    v &&& (2 ^ k * (2 ^ a - 1) + (2 ^ b - 1)) = 2 ^ k * (v / 2 ^ k % 2 ^ a) + v % 2 ^ b := by
  have low (x : Nat) : x % 2 ^ b < 2 ^ k := Nat.lt_of_lt_of_le (Nat.mod_lt _ (Nat.two_pow_pos b)) (Nat.pow_le_pow_right (by decide) hb)
  have ones : 2 ^ b - 1 < 2 ^ k := by
    have := Nat.pow_le_pow_right (show 1 ≤ 2 by decide) hb
    have := Nat.two_pow_pos b
    omega
  refine Nat.eq_of_testBit_eq fun i => ?_
  rw [Nat.testBit_and, Nat.testBit_two_pow_mul_add _ ones, Nat.testBit_two_pow_mul_add _ (low v), Nat.testBit_two_pow_sub_one,
    Nat.testBit_two_pow_sub_one, Nat.testBit_mod_two_pow, Nat.testBit_mod_two_pow, Nat.testBit_div_two_pow]
  split
  · exact Bool.and_comm _ _
  · next h => rw [Nat.sub_add_cancel (Nat.le_of_not_lt h), Bool.and_comm]

/-- A partition's register as its two fields. -/
theorem two_fields_mask (v : Word) (k a b : Nat) (hb : b ≤ k) (m : Word) (hm : m.toNat = 2 ^ k * (2 ^ a - 1) + (2 ^ b - 1)) :
    BitVec.ofNat 64 ((BitVec.ofNat a (v.toNat / 2 ^ k)).toNat * 2 ^ k + (BitVec.ofNat b v.toNat).toNat) = v &&& m := by
  have e : (v &&& m).toNat = 2 ^ k * (v.toNat / 2 ^ k % 2 ^ a) + v.toNat % 2 ^ b := by rw [and_toNat, hm, and_two_fields _ _ _ _ hb]
  refine word_eq_of_toNat ?_
  rw [BitVec.toNat_ofNat, BitVec.toNat_ofNat, BitVec.toNat_ofNat, Nat.mul_comm, ← e, Nat.mod_eq_of_lt (v &&& m).isLt]

/-- A written status reads as its written bits and the matrix bit that it keeps (R163). -/
theorem status_word (h : Status) (v : Word) :
    Status.word { h with pie := v.getLsbD 5, pprv := v.getLsbD 4, ie := v.getLsbD 1, sup := v.getLsbD 0 } =
      (h.word &&& 4) ||| (v &&& 0x33) := by
  have written : v &&& 0x33 = v &&& .twoPow 64 5 ||| v &&& .twoPow 64 4 ||| v &&& .twoPow 64 1 ||| v &&& .twoPow 64 0 := by
    rw [← BitVec.and_or_distrib_left, ← BitVec.and_or_distrib_left, ← BitVec.and_or_distrib_left]
    rfl
  simp only [written, BitVec.and_twoPow]
  obtain ⟨pie, pprv, matrix, ie, sup⟩ := h
  generalize v.getLsbD 5 = b5, v.getLsbD 4 = b4, v.getLsbD 1 = b1, v.getLsbD 0 = b0
  have kept : Status.word ⟨pie, pprv, matrix, ie, sup⟩ &&& 4 = BitVec.ofNat 64 (4 * flag matrix) := by
    revert pie pprv matrix ie sup
    decide
  rw [kept]
  clear kept
  dsimp only
  revert b5 b4 b1 b0 matrix
  decide

/-- `lstat` holds two flags in its upper half and a count in its lower one (R104). -/
theorem lstat_word (h : Hart) (v : Word) :
    Hart.lstatWord { h with divs := v.setWidth 32 } = (h.lstatWord &&& 0xFFFFFFFF00000000) ||| (v &&& 0xFFFFFFFF) := by
  have halves (g : Hart) : g.lstatWord = BitVec.ofNat 32 (flag g.leadActive * 2 ^ 31 + flag g.leadStopped * 2 ^ 30) ++ g.divs := by
    have e := append_toNat (BitVec.ofNat 32 (flag g.leadActive * 2 ^ 31 + flag g.leadStopped * 2 ^ 30)) g.divs
    have := g.divs.isLt
    refine word_eq_of_toNat (Eq.trans ?_ e.symm)
    unfold Hart.lstatWord
    rw [BitVec.toNat_add, BitVec.toNat_setWidth, BitVec.toNat_ofNat, BitVec.toNat_ofNat]
    cases g.leadActive <;> cases g.leadStopped <;> simp only [flag, Bool.false_eq_true, ↓reduceIte] <;> omega
  have low : v &&& 0xFFFFFFFF = 0#32 ++ v.setWidth 32 := by
    rw [← setWidth_mask v (n := 32) (by decide) 0xFFFFFFFF rfl]
    have upper : (0#32 ++ v.setWidth 32).toNat = (v.setWidth 32).toNat := by
      rw [append_toNat, BitVec.toNat_zero, Nat.zero_mul, Nat.zero_add]
    refine word_eq_of_toNat ((BitVec.toNat_setWidth _ _).trans ((Nat.mod_eq_of_lt ?_).trans upper.symm))
    exact Nat.lt_trans (v.setWidth 32).isLt (by decide)
  rw [halves, halves, low, show (0xFFFFFFFF00000000 : Word) = BitVec.allOnes 32 ++ 0#32 from by decide, BitVec.and_append,
    BitVec.or_append, BitVec.and_allOnes, BitVec.or_zero, BitVec.and_zero, BitVec.zero_or]

/-! What a read returns (R159, R350, R352) -/

section
variable {s : State} {n : BitVec 12} {r : CtlReg}

theorem completes_writeX (d : BitVec 5) (v : Word) : Completes s (writeX d v s) (s.cur.pc + 4) (s.cur.setX d v) := by
  have done := completes_retire s (s.cur.setX d v)
  rwa [Hart.setX_pc] at done

theorem ctlCheck_read (h : CtlReg.ofNumber n = some r) (readable : r.access s.cur.status.sup ≠ .refused) (word : Nat) :
    s.ctlCheck n false word = .ok r := by
  unfold State.ctlCheck
  rw [h]
  dsimp only
  cases e : r.access s.cur.status.sup with
  | refused => exact absurd e readable
  | readOnly => rfl
  | readWrite => rfl

theorem exec_crr_of_ok (d : BitVec 5) (h : s.ctlCheck n false (ctlWord d.toNat 0 n.toNat 0) = .ok r) :
    exec (.crr d n) s = if r = .shore then writeX d s.lookShore.shoreSeen s.lookShore else writeX d (s.ctlRead r) s := by
  show execCrr d n s = _
  simp only [execCrr, h]
  cases r <;> rfl

/-- A look at `shore` moves the last value returned and draws a choice; nothing else changes. -/
theorem lookShore_eq (s : State) : ∃ seen choices draws, s.lookShore = { s with
    shoreSeen := seen, choices := choices, draws := draws } := by
  unfold State.lookShore State.draw
  cases s.choices <;> exact ⟨_, _, _, rfl⟩

/-- The value lies at most 2 from the package's count and not below one that a read has returned (R350, R352). -/
theorem lookShore_near (s : State) : ∃ far : Int, s.lookShore.shoreSeen = s.shore + BitVec.ofInt 64 far ∧ far ≤ 2 ∧ -2 ≤ far ∧
    (-2 ≤ (s.shoreSeen - s.shore).toInt → (s.shoreSeen - s.shore).toInt ≤ 2 → (s.shoreSeen - s.shore).toInt ≤ far) := by
  have least : -2 ≤ s.shoreLeast ∧ s.shoreLeast ≤ 2 := by
    unfold State.shoreLeast
    dsimp only
    split
    · next h => simpa using h
    · decide
  have drawn := Nat.mod_lt s.draw.1 (show 0 < (3 - s.shoreLeast).toNat by omega)
  refine ⟨s.shoreLeast + (s.draw.1 % (3 - s.shoreLeast).toNat : Nat), rfl, by omega, by omega, fun low high => ?_⟩
  have seen : s.shoreLeast = (s.shoreSeen - s.shore).toInt := if_pos (by rw [decide_eq_true low, decide_eq_true high]; rfl)
  omega

/-! What a write leaves -/

theorem ctlWrite_pc (s : State) (r : CtlReg) (v : Word) : (s.ctlWrite r v).cur.pc = s.cur.pc := by
  cases r <;> try rfl
  unfold State.ctlWrite State.writePartmv
  dsimp only
  split <;> rfl

theorem completesAs_ctlModify {word : Nat} {f : Word → Word} (h : s.ctlCheck n true word = .ok r)
    (permitted : r.forbids (f (s.ctlLatest r)) = false) :
    CompletesAs (ctlModify word n f s) (s.cur.pc + 4) (s.ctlWrite r (f (s.ctlLatest r))) := by
  have e : ctlModify word n f s = .next (s.ctlWrite r (f (s.ctlLatest r))).retire := by
    simp only [ctlModify, h, permitted, Bool.false_eq_true, ↓reduceIte]
  rw [e, ← ctlWrite_pc s r (f (s.ctlLatest r))]
  exact completesAs_retire _

/-! The registers of the partition (R164) -/

/-- Only these registers belong to the partition. -/
theorem ctlLatest_eq_ctlRead (s : State) (h : r ∉ [CtlReg.tidectl, .bxstag, .agetime, .revoke]) : s.ctlLatest r = s.ctlRead r := by
  unfold State.ctlLatest
  split
  · exact absurd (by decide) h
  · exact absurd (by decide) h
  · exact absurd (by decide) h
  · exact absurd (by decide) h
  · rfl

section
variable {p : Partition} (here : s.part? s.cur.part = some p)
include here

theorem curPart_eq : s.curPart = p := by
  unfold State.curPart
  rw [here]
  rfl

theorem curPart_writePart {f : Partition → Partition} (same : ∀ p, (f p).id = p.id) : (s.writePart f).curPart = f p := by
  have found : (p.id == s.cur.part) = true :=
    List.find?_some (p := fun q : Partition => q.id == s.cur.part) here
  have ids : ((fun p : Partition => p.id == s.cur.part) ∘ fun p => if p.id == s.cur.part then f p else p) =
      fun p => p.id == s.cur.part := by
    funext q
    dsimp only [Function.comp]
    split <;> simp only [same]
  have e : (s.writePart f).part? (s.writePart f).cur.part = some (f p) := by
    show (s.parts.map fun p => if p.id == s.cur.part then f p else p).find? (fun p => p.id == s.cur.part) = _
    rw [List.find?_map, ids, show s.parts.find? (fun p => p.id == s.cur.part) = some p from here, Option.map_some, found, if_pos rfl]
  exact curPart_eq e

/-- A register of the partition reads as it acted before the write (R164). -/
theorem ctlRead_writePart {f : Partition → Partition} (same : ∀ p, (f p).id = p.id) (acting : ∀ p, (f p).acting = p.acting)
    (r : CtlReg) : (s.writePart f).ctlRead r = s.ctlRead r := by
  have kept : (s.writePart f).curPart.acting = s.curPart.acting := by rw [curPart_writePart here same, curPart_eq here, acting]
  unfold State.ctlRead
  rw [kept]
  rfl

theorem ctlLatest_writePart {f : Partition → Partition} (same : ∀ p, (f p).id = p.id) {r : CtlReg}
    (h : r ∈ [CtlReg.tidectl, .bxstag, .agetime, .revoke]) : (s.writePart f).ctlLatest r = (f p).toPartRegs.word r := by
  rw [← curPart_writePart here same]
  simp only [List.mem_cons, List.not_mem_nil, or_false] at h
  rcases h with rfl | rfl | rfl | rfl <;> rfl

theorem ctlLatest_of_acting (acting : p.acting = p.toPartRegs) (r : CtlReg) : s.ctlLatest r = s.ctlRead r := by
  unfold State.ctlLatest State.ctlRead
  rw [curPart_eq here, acting]
  cases r <;> rfl

end

end

/-- Settles O20: the checks of R158 let the access through (`ctlCheck_read`, `completesAs_ctlModify`), a look at `shore` is near
(`lookShore_near`), and what is written reads back field by field (`setWidth_mask`, `two_fields_mask`). -/
theorem controlRegisterAccess : Obligations.ControlRegisterAccess := by
  refine ⟨fun s d a n r listed => ⟨fun readable other => ?_, ?_, fun writable => ?_⟩, fun s v p r => ⟨ctlLatest_eq_ctlRead s,
    fun here => ⟨fun acting => ctlLatest_of_acting here acting r, ?_⟩⟩, fun s v => ?_⟩
  · rw [exec_crr_of_ok d (ctlCheck_read listed readable _), if_neg other]
    exact completes_writeX d _
  · rintro rfl
    obtain ⟨seen, choices, draws, look⟩ := lookShore_eq s
    obtain ⟨far, value, most, least, close⟩ := lookShore_near s
    have readable : CtlReg.shore.access s.cur.status.sup ≠ .refused := by cases s.cur.status.sup <;> decide
    rw [exec_crr_of_ok d (ctlCheck_read listed readable _), if_pos rfl]
    rw [look] at value ⊢
    refine ⟨_, rfl, by simp, by simp, ?_, sameMemory_of (by simp) (by simp) (by simp) (by simp) (by simp) (by simp), ?_⟩
    · rw [retire_bare]
      simp only [State.retire_shoreSeen, State.retire_choices, State.retire_draws]
      rfl
    · have drawn : (seen - s.shore).toInt = far := by
        rw [show seen = s.shore + BitVec.ofInt 64 far from value, BitVec.add_comm, BitVec.add_sub_cancel, BitVec.toInt_ofInt]
        exact Int.bmod_eq_of_le (by omega) (by omega)
      simp only [State.retire_shoreSeen]
      rw [show ((_ : State).shoreSeen - s.shore).toInt = far from drawn]
      exact ⟨most, least, close⟩
  · intro write
    have checked := ctlCheck_readWrite listed writable true
    exact ⟨completesAs_ctlModify (f := fun _ => s.x a) (checked _), completesAs_ctlModify (f := fun v => v ||| s.x a) (checked _),
      completesAs_ctlModify (f := fun v => v &&& ~~~s.x a) (checked _)⟩
  · have written (e : CtlReg × Word) (f : Partition → Partition) (own : e.1 ∈ [CtlReg.tidectl, .bxstag, .agetime, .revoke])
        (h : s.ctlWrite e.1 v = s.writePart f) (same : ∀ p, (f p).id = p.id) (acting : ∀ p, (f p).acting = p.acting)
        (value : (f p).toPartRegs.word e.1 = v &&& e.2) :
        (s.ctlWrite e.1 v).ctlRead r = s.ctlRead r ∧ (s.ctlWrite e.1 v).ctlLatest e.1 = v &&& e.2 ∧ (s.ctlWrite e.1 v).cur = s.cur ∧
          (s.ctlWrite e.1 v).wrote = s.cur.uid :: s.wrote := by
      rw [h]
      exact ⟨ctlRead_writePart here same acting r, (ctlLatest_writePart here same own).trans value, rfl, rfl⟩
    simp only [List.forall_mem_cons, List.not_mem_nil, false_imp_iff, implies_true, and_true]
    exact ⟨written (.tidectl, 0x73)
        (fun p => { p with floor := BitVec.ofNat 3 (v.toNat / 16), ramp := BitVec.ofNat 2 v.toNat }) (by decide) rfl
        (fun _ => rfl) (fun _ => rfl) (two_fields_mask v 4 3 2 (by decide) _ rfl),
      written (.bxstag, 0x3FF003F)
        (fun p => { p with bxSpacing := BitVec.ofNat 10 (v.toNat / 65536), bxGroup := BitVec.ofNat 6 v.toNat }) (by decide) rfl
        (fun _ => rfl) (fun _ => rfl) (two_fields_mask v 16 10 6 (by decide) _ rfl),
      written (.agetime, 0xFFFFFFFF) (fun p => { p with agetime := v.setWidth 32 }) (by decide) rfl (fun _ => rfl) (fun _ => rfl)
        (setWidth_mask v (by decide) _ rfl),
      written (.revoke, 0xFFFFFF) (fun p => { p with revoke := v.setWidth 24 }) (by decide) rfl (fun _ => rfl) (fun _ => rfl)
        (setWidth_mask v (by decide) _ rfl)⟩
  · refine ⟨setWidth_mask v (by decide) _ rfl, setWidth_mask v (by decide) _ rfl, rfl, setWidth_mask v (by decide) _ rfl,
      setWidth_mask v (by decide) _ rfl, setWidth_mask v (by decide) _ rfl, setWidth_mask v (by decide) _ rfl,
      setWidth_mask v (by decide) _ rfl, lstat_word s.cur v, status_word s.cur.status v, rfl, setWidth_mask v (by decide) _ rfl,
      rfl, setWidth_mask v (by decide) _ rfl, rfl⟩

end Sys2Proof.Machine
end

section
/-! Number formats: what a pattern decodes to (R44, R45), and the magnitudes in their order. -/

namespace Sys2Proof.Machine

/-! The formats -/

/-- The formats of R44. -/
def Fmt.known : List Fmt := Fmt.e2m1 :: Fmt.arithmetic

/-- What the formats of R44 have in common. -/
structure Fmt.Regular (f : Fmt) : Prop where
  fraction : 1 ≤ f.fbits
  exponent : 2 ≤ f.ebits
  biased : 1 ≤ f.bias
  normal : 2 ^ f.fbits ≤ f.maxMag
  inside : f.maxMag < 2 ^ (f.ebits + f.fbits)
  next : f.special = .ieee ∨ f.special = .e5m2 → f.maxMag + 1 = f.infMag

theorem Fmt.regular {f : Fmt} (h : f ∈ Fmt.known) : f.Regular := by
  simp only [Fmt.known, Fmt.arithmetic, List.mem_cons, List.not_mem_nil, or_false] at h
  rcases h with rfl | rfl | rfl | rfl | rfl | rfl | rfl <;>
    exact ⟨by decide, by decide, by decide, by decide, by decide, by decide⟩

theorem Fmt.known_of_arithmetic {f : Fmt} (h : f ∈ Fmt.arithmetic) : f ∈ Fmt.known := List.mem_cons_of_mem _ h

section
variable (f : Fmt)

theorem Fmt.width_sub_one : f.width - 1 = f.ebits + f.fbits := by
  unfold Fmt.width
  omega

theorem Fmt.mag_lt (x : Nat) : f.mag x < 2 ^ (f.ebits + f.fbits) := by
  rw [← f.width_sub_one]
  exact Nat.mod_lt _ (Nat.two_pow_pos _)

theorem Fmt.bits_eq (x : Nat) : bits x f.fbits f.ebits = f.mag x / 2 ^ f.fbits := by
  unfold bits Fmt.mag
  rw [f.width_sub_one, Nat.add_comm, Nat.pow_add, Nat.mod_mul_right_div_self, Nat.shiftRight_eq_div_pow]

theorem Fmt.fraction_eq (x : Nat) : x % 2 ^ f.fbits = f.mag x % 2 ^ f.fbits := by
  unfold Fmt.mag
  rw [f.width_sub_one, Nat.mod_mod_of_dvd _ (Nat.pow_dvd_pow 2 (Nat.le_add_left _ _))]

theorem Fmt.signed_eq (s : Bool) (n : Nat) : f.signed s n = f.signBit s + n := by
  cases s <;> simp [Fmt.signed, Fmt.signBit, flag]

/-- A pattern of the format is its sign in front of its magnitude bits. -/
theorem Fmt.pattern_eq {x : Nat} (hx : x < 2 ^ f.width) : x = f.signBit (x.testBit (f.width - 1)) + f.mag x := by
  have w : 2 ^ f.width = 2 * 2 ^ (f.width - 1) := by
    rw [← Nat.pow_succ', f.width_sub_one]
    congr 1
    unfold Fmt.width
    omega
  have top : x / 2 ^ (f.width - 1) < 2 := (Nat.div_lt_iff_lt_mul (Nat.two_pow_pos _)).2 (w ▸ hx)
  have parts := Nat.div_add_mod x (2 ^ (f.width - 1))
  rw [Nat.testBit_eq_decide_div_mod_eq]
  unfold Fmt.signBit Fmt.mag
  rcases Nat.le_one_iff_eq_zero_or_eq_one.1 (Nat.lt_succ_iff.1 top) with h | h <;> rw [h] at parts ⊢
  · simpa using parts.symm
  · simpa using parts.symm

theorem Fmt.mag_signBit_add (s : Bool) {n : Nat} (hn : n < 2 ^ (f.ebits + f.fbits)) : f.mag (f.signBit s + n) = n := by
  rw [← f.width_sub_one] at hn
  unfold Fmt.mag Fmt.signBit
  cases s
  · simpa using Nat.mod_eq_of_lt hn
  · simpa using Nat.mod_eq_of_lt hn

theorem Fmt.testBit_signBit_add (s : Bool) {n : Nat} (hn : n < 2 ^ (f.ebits + f.fbits)) :
    (f.signBit s + n).testBit (f.width - 1) = s := by
  rw [← f.width_sub_one] at hn
  unfold Fmt.signBit
  cases s
  · simpa using Nat.testBit_lt_two_pow hn
  · simp only [↓reduceIte]
    rw [Nat.testBit_two_pow_add_eq, Nat.testBit_lt_two_pow hn]
    rfl

/-! Magnitudes as integers times powers of two -/

/-- The integer significand of magnitude bits. -/
def Fmt.mant (n : Nat) : Nat := if n / 2 ^ f.fbits = 0 then n % 2 ^ f.fbits else n % 2 ^ f.fbits + 2 ^ f.fbits

/-- The exponent of its last place. -/
def Fmt.expo (n : Nat) : Int := (if n / 2 ^ f.fbits = 0 then 1 else ((n / 2 ^ f.fbits : Nat) : Int)) - f.bias - f.fbits

theorem Fmt.magnitude_eq (n : Nat) : f.magnitude n = f.mant n * 2 ^ f.expo n := by
  have two : (2 : Rat) ≠ 0 := by decide
  have scale (i : Int) (x : Rat) : x / 2 ^ f.fbits * 2 ^ i = x * 2 ^ (i - f.fbits) := by
    rw [zpow_sub₀ two, zpow_natCast]
    ring
  unfold Fmt.magnitude Fmt.mant Fmt.expo
  dsimp only
  split
  · rw [scale]
  · have whole : 1 + ((n % 2 ^ f.fbits : Nat) : Rat) / 2 ^ f.fbits = ((n % 2 ^ f.fbits + 2 ^ f.fbits : Nat) : Rat) / 2 ^ f.fbits := by
      push_cast
      field_simp
      ring
    rw [whole, scale]

theorem Fmt.mant_eq_zero {n : Nat} : f.mant n = 0 ↔ n = 0 := by
  have parts := Nat.div_add_mod n (2 ^ f.fbits)
  have pos := Nat.two_pow_pos f.fbits
  unfold Fmt.mant
  split
  · next h => rw [h] at parts; omega
  · next h =>
    refine ⟨fun e => by omega, ?_⟩
    rintro rfl
    exact absurd (Nat.zero_div _) h

theorem Fmt.mant_lt (n : Nat) : f.mant n < 2 ^ (f.fbits + 1) := by
  have := Nat.mod_lt n (Nat.two_pow_pos f.fbits)
  unfold Fmt.mant
  rw [Nat.pow_succ]
  split <;> omega

theorem Fmt.mant_fields (a : Nat) {b : Nat} (hb : b < 2 ^ f.fbits) :
    f.mant (2 ^ f.fbits * a + b) = if a = 0 then b else b + 2 ^ f.fbits := by
  unfold Fmt.mant
  rw [Nat.mul_add_div (Nat.two_pow_pos _), Nat.div_eq_of_lt hb, Nat.add_zero, Nat.mul_add_mod, Nat.mod_eq_of_lt hb]

theorem Fmt.expo_fields (a : Nat) {b : Nat} (hb : b < 2 ^ f.fbits) :
    f.expo (2 ^ f.fbits * a + b) = (if a = 0 then 1 else (a : Int)) - f.bias - f.fbits := by
  unfold Fmt.expo
  rw [Nat.mul_add_div (Nat.two_pow_pos _), Nat.div_eq_of_lt hb, Nat.add_zero]

/-- One more in the magnitude bits is one more in the last place. -/
theorem Fmt.magnitude_succ (n : Nat) : f.magnitude (n + 1) = (f.mant n + 1 : Nat) * 2 ^ f.expo n := by
  obtain ⟨a, b, hb, rfl⟩ : ∃ a b, b < 2 ^ f.fbits ∧ 2 ^ f.fbits * a + b = n :=
    ⟨n / 2 ^ f.fbits, n % 2 ^ f.fbits, Nat.mod_lt _ (Nat.two_pow_pos _), Nat.div_add_mod _ _⟩
  rw [f.magnitude_eq, f.mant_fields a hb, f.expo_fields a hb]
  by_cases carry : b + 1 < 2 ^ f.fbits
  · rw [Nat.add_assoc, f.mant_fields a carry, f.expo_fields a carry]
    split
    · rfl
    · rw [Nat.add_right_comm]
  · have full : b + 1 = 2 ^ f.fbits := by omega
    have next : 2 ^ f.fbits * a + b + 1 = 2 ^ f.fbits * (a + 1) + 0 := by rw [Nat.add_assoc, full]; ring
    rw [next, f.mant_fields _ (Nat.two_pow_pos _), f.expo_fields _ (Nat.two_pow_pos _), if_neg (Nat.succ_ne_zero a),
      if_neg (Nat.succ_ne_zero a)]
    by_cases first : a = 0
    · simp only [first, ↓reduceIte, full, Nat.zero_add, Nat.cast_one]
    · have double : (b + 2 ^ f.fbits + 1 : Nat) = 2 ^ f.fbits * 2 := by omega
      have shift : ((a + 1 : Nat) : Int) - f.bias - f.fbits = (a - f.bias - f.fbits) + 1 := by push_cast; ring
      rw [if_neg first, if_neg first, double, shift, zpow_add_one₀ (by decide)]
      push_cast
      ring

theorem Fmt.magnitude_zero : f.magnitude 0 = 0 := by
  rw [f.magnitude_eq, f.mant_eq_zero.2 rfl, Nat.cast_zero, zero_mul]

theorem Fmt.magnitude_strictMono : StrictMono f.magnitude := by
  refine strictMono_nat_of_lt_succ fun n => ?_
  rw [f.magnitude_succ, f.magnitude_eq]
  have : (0 : Rat) < 2 ^ f.expo n := by positivity
  push_cast
  linarith

theorem Fmt.magnitude_nonneg (n : Nat) : 0 ≤ f.magnitude n := f.magnitude_zero ▸ f.magnitude_strictMono.monotone (Nat.zero_le n)

theorem Fmt.magnitude_pos {n : Nat} (h : n ≠ 0) : 0 < f.magnitude n :=
  f.magnitude_zero ▸ f.magnitude_strictMono (Nat.pos_of_ne_zero h)

theorem Fmt.magnitude_eq_zero {n : Nat} : f.magnitude n = 0 ↔ n = 0 :=
  ⟨fun h => by_contra fun nonzero => absurd h (f.magnitude_pos nonzero).ne', fun h => h ▸ f.magnitude_zero⟩

/-! What a pattern decodes to -/

/-- The value that magnitude bits decode to where they are finite. -/
def Fmt.finite (x : Nat) : FVal := .fin (x.testBit (f.width - 1)) (f.mant (f.mag x)) (f.expo (f.mag x))

/-- The NaN that a pattern decodes to. -/
def Fmt.nan (x : Nat) : FVal := .nan (x.testBit (f.width - 1)) (f.signals x) (x % 2 ^ f.fbits) f.fbits

theorem Fmt.decode_finite_eq (x : Nat) : FVal.fin (bit x (f.width - 1))
    (if bits x f.fbits f.ebits = 0 then x % 2 ^ f.fbits else x % 2 ^ f.fbits + 2 ^ f.fbits)
    ((if bits x f.fbits f.ebits = 0 then 1 else (bits x f.fbits f.ebits : Int)) - f.bias - f.fbits) = f.finite x := by
  rw [f.bits_eq, f.fraction_eq]
  rfl

end

section
variable {f : Fmt}

theorem Fmt.exponent_full (x : Nat) : f.mag x / 2 ^ f.fbits = 2 ^ f.ebits - 1 ↔ f.infMag ≤ f.mag x := by
  have small : f.mag x / 2 ^ f.fbits < 2 ^ f.ebits :=
    (Nat.div_lt_iff_lt_mul (Nat.two_pow_pos _)).2 (by rw [← Nat.pow_add]; exact f.mag_lt x)
  rw [Fmt.infMag, ← Nat.le_div_iff_mul_le (Nat.two_pow_pos _)]
  omega

theorem Fmt.fraction_of_full {x : Nat} (full : f.mag x / 2 ^ f.fbits = 2 ^ f.ebits - 1) :
    f.mag x = f.infMag + f.mag x % 2 ^ f.fbits := by
  rw [Fmt.infMag, ← full, Nat.mul_comm]
  exact (Nat.div_add_mod _ _).symm

/-- In a format with infinities, the patterns from infinity on (R45). -/
theorem Fmt.decode_special (next : f.maxMag + 1 = f.infMag) (x : Nat) (signalling : Bool) :
    (if bits x f.fbits f.ebits = 2 ^ f.ebits - 1 then (if x % 2 ^ f.fbits = 0 then FVal.inf (bit x (f.width - 1))
      else .nan (bit x (f.width - 1)) signalling (x % 2 ^ f.fbits) f.fbits) else f.finite x) =
      if f.isFinite x then f.finite x else if f.infMag < f.mag x
        then .nan (x.testBit (f.width - 1)) signalling (x % 2 ^ f.fbits) f.fbits else .inf (x.testBit (f.width - 1)) := by
  rw [f.bits_eq]
  by_cases full : f.mag x / 2 ^ f.fbits = 2 ^ f.ebits - 1
  · have above := (f.exponent_full x).1 full
    have fields := Fmt.fraction_of_full full
    have beyond : f.isFinite x = false := decide_eq_false (by omega)
    rw [if_pos full, beyond, if_neg Bool.false_ne_true, f.fraction_eq]
    by_cases zero : f.mag x % 2 ^ f.fbits = 0
    · rw [if_pos zero, if_neg (by omega)]
      rfl
    · rw [if_neg zero, if_pos (by omega)]
      rfl
  · have below := mt (f.exponent_full x).2 full
    have within : f.isFinite x = true := decide_eq_true (by omega)
    rw [if_neg full, within, if_pos rfl]

/-- The formats with a coding of their own (R45). -/
theorem Fmt.eq_of_special (known : f ∈ Fmt.known) :
    (f.special = .e5m2 → f = .e5m2) ∧ (f.special = .e4m3 → f = .e4m3) ∧ (f.special = .e2m1 → f = .e2m1) := by
  simp only [Fmt.known, Fmt.arithmetic, List.mem_cons, List.not_mem_nil, or_false] at known
  rcases known with rfl | rfl | rfl | rfl | rfl | rfl | rfl <;> decide

theorem Fmt.signals_of_special (h : f.special ≠ .ieee) (x : Nat) : f.signals x = false := by
  unfold Fmt.signals
  rw [beq_false_of_ne h]
  rfl

/-- The three kinds of patterns by their magnitude bits (R45). -/
theorem Fmt.decode_eq (known : f ∈ Fmt.known) (x : Nat) :
    f.decode x = if f.isFinite x then f.finite x else if f.isNanCode x then f.nan x else .inf (x.testBit (f.width - 1)) := by
  have regular := Fmt.regular known
  obtain ⟨isE5m2, isE4m3, isE2m1⟩ := Fmt.eq_of_special known
  unfold Fmt.decode
  dsimp only
  rw [f.decode_finite_eq]
  cases kind : f.special with
  | ieee =>
    dsimp only
    have code : f.isNanCode x = decide (f.infMag < f.mag x) := by simp only [Fmt.isNanCode, kind]
    have quiet : bit (x % 2 ^ f.fbits) (f.fbits - 1) = x.testBit (f.fbits - 1) := by
      have := regular.fraction
      rw [bit, Nat.testBit_mod_two_pow, decide_eq_true (by omega), Bool.true_and]
    have signals (nan : f.infMag < f.mag x) : f.signals x = !x.testBit (f.fbits - 1) := by
      unfold Fmt.signals
      rw [kind, code, decide_eq_true nan]
      rfl
    rw [Fmt.decode_special (regular.next (.inl kind)), code, quiet, Fmt.nan]
    by_cases nan : f.infMag < f.mag x
    · rw [if_pos nan, decide_eq_true nan, if_pos rfl, signals nan]
    · rw [if_neg nan, decide_eq_false nan, if_neg Bool.false_ne_true]
  | e5m2 =>
    dsimp only
    have code : f.isNanCode x = decide (f.infMag < f.mag x) := by simp only [Fmt.isNanCode, kind]
    have full : 31 = 2 ^ f.ebits - 1 := by rw [isE5m2 kind]; rfl
    rw [full, Fmt.decode_special (regular.next (.inr kind)), code, Fmt.nan, Fmt.signals_of_special (by rw [kind]; decide)]
    simp only [decide_eq_true_eq]
  | e4m3 =>
    obtain rfl := isE4m3 kind
    dsimp only
    have small : Fmt.e4m3.mag x < 128 := Fmt.e4m3.mag_lt x
    have code : Fmt.e4m3.isNanCode x = (Fmt.e4m3.mag x == 0x7F) := rfl
    have within : Fmt.e4m3.isFinite x = decide (Fmt.e4m3.mag x ≤ 0x7E) := rfl
    have fields : (decide (bits x 3 4 = 15) && decide (x % 2 ^ 3 = 7)) = (Fmt.e4m3.mag x == 0x7F) := by
      rw [show bits x 3 4 = Fmt.e4m3.mag x / 2 ^ 3 from Fmt.e4m3.bits_eq x,
        show x % 2 ^ 3 = Fmt.e4m3.mag x % 2 ^ 3 from Fmt.e4m3.fraction_eq x, Bool.eq_iff_iff, Bool.and_eq_true, decide_eq_true_eq,
        decide_eq_true_eq, beq_iff_eq]
      omega
    rw [show bits x Fmt.e4m3.fbits Fmt.e4m3.ebits = bits x 3 4 from rfl, show x % 2 ^ Fmt.e4m3.fbits = x % 2 ^ 3 from rfl, fields, code,
      within]
    by_cases top : Fmt.e4m3.mag x = 0x7F
    · rw [top]
      rfl
    · rw [beq_false_of_ne top, decide_eq_true (by omega)]
      rfl
  | e2m1 =>
    obtain rfl := isE2m1 kind
    have small : Fmt.e2m1.mag x < 8 := Fmt.e2m1.mag_lt x
    have within : Fmt.e2m1.isFinite x = true := decide_eq_true (by show Fmt.e2m1.mag x ≤ 7; omega)
    rw [within, if_pos rfl]

theorem Fmt.decode_of_finite (known : f ∈ Fmt.known) {x : Nat} (h : f.isFinite x = true) : f.decode x = f.finite x := by
  rw [Fmt.decode_eq known, h, if_pos rfl]

theorem Fmt.isFinite_of_nan (known : f ∈ Fmt.known) {x : Nat} (h : f.isNanCode x = true) : f.isFinite x = false := by
  have regular := Fmt.regular known
  refine decide_eq_false ?_
  unfold Fmt.isNanCode at h
  cases kind : f.special with
  | ieee =>
    have := regular.next (.inl kind)
    simp only [kind, decide_eq_true_eq] at h
    omega
  | e5m2 =>
    have := regular.next (.inr kind)
    simp only [kind, decide_eq_true_eq] at h
    omega
  | e4m3 =>
    obtain rfl := (Fmt.eq_of_special known).2.1 kind
    have top : Fmt.e4m3.mag x = 0x7F := beq_iff_eq.1 h
    rw [top]
    decide
  | e2m1 => simp [kind] at h

theorem Fmt.decode_of_nan (known : f ∈ Fmt.known) {x : Nat} (h : f.isNanCode x = true) : f.decode x = f.nan x := by
  rw [Fmt.decode_eq known, Fmt.isFinite_of_nan known h, if_neg Bool.false_ne_true, h, if_pos rfl]

/-- A format has infinities, and this is one of them (R45). -/
theorem Fmt.decode_inf (h : f.special = .ieee ∨ f.special = .e5m2) (known : f ∈ Fmt.known) (s : Bool) :
    f.decode (f.signBit s + f.infMag) = .inf s := by
  have next := (Fmt.regular known).next h
  have inside : f.infMag < 2 ^ (f.ebits + f.fbits) := by
    rw [Fmt.infMag, Nat.pow_add]
    exact Nat.mul_lt_mul_of_pos_right (Nat.sub_lt (Nat.two_pow_pos _) (by decide)) (Nat.two_pow_pos _)
  have mag := f.mag_signBit_add s inside
  have beyond : f.isFinite (f.signBit s + f.infMag) = false := decide_eq_false (by rw [mag]; omega)
  have number : f.isNanCode (f.signBit s + f.infMag) = false := by
    unfold Fmt.isNanCode
    rw [mag]
    rcases h with h | h <;> simp [h]
  rw [Fmt.decode_eq known, beyond, number, f.testBit_signBit_add s inside]
  rfl

end

end Sys2Proof.Machine
end

section
/-! One rounding (R49, R50, R53): where an exact value lies between magnitudes, and what `Fmt.round` makes of it. -/

namespace Sys2Proof.Machine

/-! Where a value lies -/

/-- The predicates say which rationals a value lies above, and at or above: the value m × 2^e, or one strictly between it and
(m + 1) × 2^e when `sticky`, of which the multiples of 2^e tell. -/
structure Places (under upto : Rat → Prop) (m : Nat) (e : Int) (sticky : Bool) : Prop where
  strict : ∀ p q, 0 ≤ p → p < q → upto q → under p
  weak : ∀ q, 0 ≤ q → under q → upto q
  atGrid : ∀ c : Nat, upto (c * 2 ^ e) ↔ c ≤ m
  aboveGrid : ∀ c : Nat, under (c * 2 ^ e) ↔ if sticky then c ≤ m else c < m
  exact : sticky = false → ∀ q, 0 ≤ q → (upto q ↔ q ≤ m * 2 ^ e) ∧ (under q ↔ q < m * 2 ^ e)

/-- An exact value places itself. -/
theorem places_exact (m : Nat) (e : Int) : Places (fun q => q < (m : Rat) * 2 ^ e) (fun q => q ≤ (m : Rat) * 2 ^ e) m e false := by
  have pos : (0 : Rat) < 2 ^ e := by positivity
  refine ⟨fun p q _ => lt_of_lt_of_le, fun q _ => le_of_lt, fun c => ?_, fun c => ?_, fun _ q _ => ⟨Iff.rfl, Iff.rfl⟩⟩
  · rw [mul_le_mul_iff_left₀ pos, Nat.cast_le]
  · rw [mul_lt_mul_iff_left₀ pos, Nat.cast_lt]
    rfl

theorem Places.down {under upto : Rat → Prop} {m : Nat} {e : Int} {sticky : Bool} (places : Places under upto m e sticky)
    {p q : Rat} (nonneg : 0 ≤ p) (le : p ≤ q) (h : upto q) : upto p := by
  rcases le.eq_or_lt with rfl | lt
  · exact h
  · exact places.weak p nonneg (places.strict p q nonneg lt h)

/-- A value cut at multiples of `u`: `k` whole ones, the position of the rest against one half (2 for more, 1 for exactly it), and
whether there is a rest. -/
structure Cut (under upto : Rat → Prop) (u : Rat) (k half : Nat) (any : Bool) : Prop where
  whole : upto (k * u)
  below : ¬ upto ((k + 1 : Nat) * u)
  code : half ≤ 2
  rest : any = true ↔ under (k * u)
  more : half = 2 ↔ under (((2 * k + 1 : Nat) : Rat) * (u / 2))
  least : half ≠ 0 ↔ upto (((2 * k + 1 : Nat) : Rat) * (u / 2))

section
variable {under upto : Rat → Prop} {m : Nat} {e : Int} {sticky : Bool}

theorem two_zpow_pos (i : Int) : (0 : Rat) < 2 ^ i := by positivity

/-- 2^q as a multiple of 2^e. -/
theorem zpow_eq_mul {q : Int} (h : e ≤ q) : (2 : Rat) ^ q = ((2 ^ (q - e).toNat : Nat) : Rat) * 2 ^ e := by
  rw [Nat.cast_pow, Nat.cast_ofNat, ← zpow_natCast, ← zpow_add₀ (by decide)]
  congr 1
  omega

/-- The code of the rest `r` against one half `h`. -/
theorem half_code (r h : Nat) (sticky : Bool) :
    (if decide (h < r) || r == h && sticky then 2 else if r == h then 1 else 0) ≤ 2 ∧
      ((if decide (h < r) || r == h && sticky then 2 else if r == h then 1 else 0) = 2 ↔ if sticky then h ≤ r else h < r) ∧
      ((if decide (h < r) || r == h && sticky then 2 else if r == h then 1 else 0) ≠ 0 ↔ h ≤ r) := by
  rcases Nat.lt_trichotomy r h with lt | rfl | gt
  · cases sticky <;> simp [Nat.lt_asymm lt, lt.ne, Nat.not_le_of_lt lt]
  · cases sticky <;> simp
  · cases sticky <;> simp [gt, gt.le]

/-- `cutAt` cuts at multiples of 2^q (R49); a sticky value has to be cut above its last place. -/
theorem cutAt_cut (places : Places under upto m e sticky) {q : Int} (coarse : sticky = true → e < q) :
    Cut under upto (2 ^ q) (cutAt m e sticky q).1 (cutAt m e sticky q).2.1 (cutAt m e sticky q).2.2 := by
  unfold cutAt
  split
  · next fine =>
    have plain : sticky = false := by
      cases sticky
      · rfl
      · exact absurd (coarse rfl) (by omega)
    have unit := two_zpow_pos q
    have same : (((m <<< (e - q).toNat : Nat) : Rat)) * 2 ^ q = m * 2 ^ e := by
      rw [Nat.shiftLeft_eq, Nat.cast_mul, zpow_eq_mul fine, mul_assoc]
    have at_ (r : Rat) (h : 0 ≤ r) : upto r ↔ r ≤ m * 2 ^ e := (places.exact plain r h).1
    have above (r : Rat) (h : 0 ≤ r) : under r ↔ r < m * 2 ^ e := (places.exact plain r h).2
    generalize m <<< (e - q).toNat = k at same ⊢
    have half : ((2 * k + 1 : Nat) : Rat) * (2 ^ q / 2) = k * 2 ^ q + 2 ^ q / 2 := by push_cast; ring
    have next : ((k + 1 : Nat) : Rat) * 2 ^ q = k * 2 ^ q + 2 ^ q := by push_cast; ring
    refine ⟨?_, ?_, Nat.zero_le _, ?_, ?_, ?_⟩
    · rw [at_ _ (by positivity), same]
    · rw [at_ _ (by positivity), next, same]
      linarith
    · rw [above _ (by positivity), same, plain]
      simp
    · rw [above _ (by positivity), half, same]
      simp only [reduceCtorEq, false_iff]
      linarith
    · rw [at_ _ (by positivity), half, same]
      simp only [ne_eq, not_true_eq_false, false_iff]
      linarith
  · next wide =>
    obtain ⟨n, hn⟩ : ∃ n, (q - e).toNat = n + 1 := ⟨(q - e).toNat - 1, by omega⟩
    have unit : (2 : Rat) ^ q = ((2 * 2 ^ n : Nat) : Rat) * 2 ^ e := by rw [zpow_eq_mul (show e ≤ q by omega), hn, Nat.pow_succ']
    have onGrid (c : Nat) : ((c : Nat) : Rat) * 2 ^ q = ((c * (2 * 2 ^ n) : Nat) : Rat) * 2 ^ e := by rw [unit]; push_cast; ring
    have onHalf (c : Nat) : ((c : Nat) : Rat) * (2 ^ q / 2) = ((c * 2 ^ n : Nat) : Rat) * 2 ^ e := by rw [unit]; push_cast; ring
    have parts := Nat.div_add_mod m (2 * 2 ^ n)
    have rest := Nat.mod_lt m (show 0 < 2 * 2 ^ n by positivity)
    dsimp only
    rw [hn, Nat.add_sub_cancel, Nat.shiftRight_eq_div_pow, Nat.pow_succ']
    generalize m / (2 * 2 ^ n) = k, m % (2 * 2 ^ n) = r at parts rest ⊢
    generalize 2 ^ n = h at *
    have whole : k * (2 * h) = 2 * h * k := Nat.mul_comm _ _
    have next : (k + 1) * (2 * h) = 2 * h * k + 2 * h := by ring
    have half : (2 * k + 1) * h = 2 * h * k + h := by ring
    obtain ⟨code, more, least⟩ := half_code r h sticky
    refine ⟨?_, ?_, code, ?_, ?_, ?_⟩
    · rw [onGrid, places.atGrid]
      omega
    · rw [onGrid, places.atGrid]
      omega
    · rw [onGrid, places.aboveGrid, whole]
      cases sticky <;> simp <;> omega
    · rw [onHalf, places.aboveGrid, half, more]
      cases sticky <;> simp <;> omega
    · rw [onHalf, places.atGrid, half, least]
      omega

/-- The multiples of the unit that the value reaches. -/
theorem Cut.upto_iff {u : Rat} {k half : Nat} {any : Bool} (cut : Cut under upto u k half any) (unit : 0 < u)
    (places : Places under upto m e sticky) (c : Nat) : upto (c * u) ↔ c ≤ k := by
  constructor
  · intro reached
    by_contra beyond
    refine cut.below (places.down (by positivity) ?_ reached)
    exact mul_le_mul_of_nonneg_right (Nat.cast_le.2 (by omega)) unit.le
  · intro inside
    exact places.down (by positivity) (mul_le_mul_of_nonneg_right (Nat.cast_le.2 inside) unit.le) cut.whole

end

/-! The rounding modes -/

/-- The mode takes a value at or above `from_` away from zero, where `half` is the middle of its interval (R49). -/
def Rm.Leaves (rm : Rm) (s : Bool) (under upto : Rat → Prop) (from_ half : Rat) (odd : Prop) : Prop :=
  match rm with
  | .rne => under half ∨ upto half ∧ odd
  | .rna => upto half
  | .rtz => False
  | .rup => under from_ ∧ s = false
  | .rdn => under from_ ∧ s = true

section
variable {under upto : Rat → Prop} {m : Nat} {e : Int} {sticky : Bool}

theorem Cut.up_iff {u : Rat} {k half : Nat} {any : Bool} (cut : Cut under upto u k half any) (rm : Rm) (s odd : Bool) :
    rm.up s odd half any = true ↔
      rm.Leaves s under upto (k * u) (((2 * k + 1 : Nat) : Rat) * (u / 2)) (odd = true) := by
  have code := cut.code
  cases rm with
  | rne =>
    simp only [Rm.up, Rm.Leaves, Bool.or_eq_true, Bool.and_eq_true, beq_iff_eq, ← cut.more, ← cut.least]
    cases odd
    · simp
    · simp only [and_true]
      omega
  | rna => simp only [Rm.up, Rm.Leaves, bne_iff_ne, cut.least]
  | rtz => simp only [Rm.up, Rm.Leaves, Bool.false_eq_true]
  | rup => simp only [Rm.up, Rm.Leaves, Bool.and_eq_true, Bool.not_eq_true', cut.rest]
  | rdn => simp only [Rm.up, Rm.Leaves, Bool.and_eq_true, cut.rest]

/-- What leaves an interval lies inside it. -/
theorem Rm.Leaves.inside {rm : Rm} {s : Bool} {from_ half : Rat} {odd : Prop} (h : rm.Leaves s under upto from_ half odd)
    (places : Places under upto m e sticky) (nonneg : 0 ≤ from_) (lt : from_ < half) : under from_ := by
  have middle : upto half → under from_ := places.strict _ _ nonneg lt
  cases rm with
  | rne => exact middle (h.elim (places.weak _ (nonneg.trans lt.le)) And.left)
  | rna => exact middle h
  | rtz => exact h.elim
  | rup => exact h.1
  | rdn => exact h.1

end

/-! Significands as magnitude bits -/

section
variable (f : Fmt)

/-- The magnitude bits of the significand `k` with last place 2^q. -/
def Fmt.encode (q : Int) (k : Nat) : Nat :=
  if k < 2 ^ f.fbits then k else ((q + f.fbits - (1 - (f.bias : Int))).toNat + 1) * 2 ^ f.fbits + (k - 2 ^ f.fbits)

/-- A significand of the format with its last place: normal, or at the least exponent. -/
structure Fmt.Significand (q : Int) (k : Nat) : Prop where
  bound : k < 2 ^ (f.fbits + 1)
  least : 1 - (f.bias : Int) - f.fbits ≤ q
  subnormal : k < 2 ^ f.fbits → q = 1 - (f.bias : Int) - f.fbits

variable {f} {q : Int} {k : Nat}

theorem Fmt.Significand.fields (h : f.Significand q k) (normal : ¬ k < 2 ^ f.fbits) :
    f.encode q k = 2 ^ f.fbits * ((q + f.fbits - (1 - (f.bias : Int))).toNat + 1) + (k - 2 ^ f.fbits) ∧
      k - 2 ^ f.fbits < 2 ^ f.fbits := by
  have := h.bound
  rw [Nat.pow_succ] at this
  exact ⟨by rw [Fmt.encode, if_neg normal, Nat.mul_comm], by omega⟩

theorem Fmt.Significand.mant_encode (h : f.Significand q k) : f.mant (f.encode q k) = k := by
  by_cases normal : k < 2 ^ f.fbits
  · have := f.mant_fields 0 normal
    rw [Nat.mul_zero, Nat.zero_add, if_pos rfl] at this
    rw [Fmt.encode, if_pos normal, this]
  · obtain ⟨eq, small⟩ := h.fields normal
    rw [eq, f.mant_fields _ small, if_neg (Nat.succ_ne_zero _)]
    omega

theorem Fmt.Significand.expo_encode (h : f.Significand q k) : f.expo (f.encode q k) = q := by
  have least := h.least
  by_cases normal : k < 2 ^ f.fbits
  · have := f.expo_fields 0 normal
    rw [Nat.mul_zero, Nat.zero_add, if_pos rfl] at this
    rw [Fmt.encode, if_pos normal, this, h.subnormal normal]
  · obtain ⟨eq, small⟩ := h.fields normal
    rw [eq, f.expo_fields _ small, if_neg (Nat.succ_ne_zero _)]
    omega

theorem Fmt.Significand.magnitude (h : f.Significand q k) : f.magnitude (f.encode q k) = k * 2 ^ q := by
  rw [f.magnitude_eq, h.mant_encode, h.expo_encode]

theorem Fmt.Significand.magnitude_succ (h : f.Significand q k) :
    f.magnitude (f.encode q k + 1) = ((k + 1 : Nat) : Rat) * 2 ^ q := by
  rw [f.magnitude_succ, h.mant_encode, h.expo_encode]

theorem Fmt.Significand.encode_succ (h : f.Significand q k) : f.encode q (k + 1) = f.encode q k + 1 := by
  unfold Fmt.encode
  by_cases normal : k < 2 ^ f.fbits
  · have least := h.subnormal normal
    rw [if_pos normal]
    split
    · rfl
    · rw [show (q + f.fbits - (1 - (f.bias : Int))).toNat = 0 by omega]
      omega
  · rw [if_neg normal, if_neg (by omega)]
    omega

theorem Fmt.encode_lt (q : Int) (k : Nat) : f.encode q k < 2 ^ f.fbits ↔ k < 2 ^ f.fbits := by
  unfold Fmt.encode
  split
  · exact Iff.rfl
  · next normal =>
    refine iff_of_false (not_lt.2 ?_) normal
    exact (Nat.le_mul_of_pos_left _ (Nat.succ_pos _)).trans (Nat.le_add_right _ _)

theorem Fmt.encode_mod_two (fraction : 1 ≤ f.fbits) (q : Int) (k : Nat) : f.encode q k % 2 = k % 2 := by
  obtain ⟨n, hn⟩ : ∃ n, f.fbits = n + 1 := ⟨f.fbits - 1, by omega⟩
  unfold Fmt.encode
  split
  · rfl
  · next normal =>
    rw [hn, Nat.pow_succ, ← Nat.mul_assoc]
    rw [hn, Nat.pow_succ] at normal
    omega

end

end Sys2Proof.Machine
end

section
/-! One rounding (R49, R50, R53), continued: `Fmt.round` is the rounding of the value that it is given. -/

namespace Sys2Proof.Machine

/-! What is delivered between two neighbours -/

/-- The result where the value lies at or above magnitude bits `t` and below the next: rounded `up` or not, with a discarded part
or not, tiny or not. -/
def Fmt.deliver (f : Fmt) (md : Mode) (s : Bool) (t : Nat) (up any tiny : Bool) : FRes :=
  let mag := if up then t + 1 else t
  if f.maxMag < mag then ⟨f.overflowVal md s, flOF ||| flNX⟩
  else if tiny && md.ftz && f.flushes && mag != 0 then ⟨f.signed s 0, flUF ||| flNX⟩
  else ⟨f.signed s mag, (if any then flNX else 0) ||| (if tiny && any then flUF else 0)⟩

/-- Does an overflow give the largest magnitude (R53)? -/
def Fmt.ToMax (f : Fmt) (md : Mode) (s : Bool) : Prop :=
  md.sat = true ∨ f.special = .e2m1 ∨ md.rm = .rtz ∨ md.rm = .rup ∧ s = true ∨ md.rm = .rdn ∧ s = false

theorem Fmt.overflowMag_eq (f : Fmt) (md : Mode) (s : Bool) :
    (f.ToMax md s → f.overflowMag md s = f.maxMag) ∧
      (¬ f.ToMax md s → f.overflowMag md s = if f.special = .e4m3 then 0x7F else f.infMag) := by
  have code : (md.sat || f.special == .e2m1 ||
      (match md.rm with | .rne | .rna => false | .rtz => true | .rup => s | .rdn => !s)) = true ↔ f.ToMax md s := by
    unfold Fmt.ToMax
    cases md.rm <;> simp [or_assoc]
  unfold Fmt.overflowMag
  exact ⟨fun h => if_pos (code.2 h), fun h => if_neg (mt code.1 h)⟩

theorem Fmt.overflowVal_of_toMax {f : Fmt} {md : Mode} {s : Bool} (h : f.ToMax md s) :
    f.overflowVal md s = f.signBit s + f.maxMag := by
  unfold Fmt.overflowVal
  dsimp only
  rw [(f.overflowMag_eq md s).1 h, f.signed_eq, if_neg]
  by_cases kind : f.special = .e4m3
  · simp [Fmt.maxMag, kind]
  · simp [kind]

theorem Fmt.overflowVal_of_not_toMax {f : Fmt} {md : Mode} {s : Bool} (h : ¬ f.ToMax md s) :
    f.overflowVal md s = f.signBit (s && !(f.special == .e4m3 && md.dn)) + (if f.special = .e4m3 then 0x7F else f.infMag) := by
  unfold Fmt.overflowVal
  dsimp only
  rw [(f.overflowMag_eq md s).2 h, f.signed_eq]
  by_cases kind : f.special = .e4m3
  · cases dn : md.dn <;> simp [kind, Fmt.signBit]
  · simp [kind, beq_false_of_ne kind]

section
variable {f : Fmt} {md : Mode} {s : Bool} {under upto : Rat → Prop} {m : Nat} {e : Int} {sticky : Bool} {t : Nat}
  {up any tiny : Bool}

/-- The value lies at or above a magnitude of the format and below the next. -/
structure Between (f : Fmt) (upto : Rat → Prop) (t : Nat) : Prop where
  least : upto (f.magnitude t)
  most : ¬ upto (f.magnitude (t + 1))

theorem Between.upto_iff (h : Between f upto t) (places : Places under upto m e sticky) (c : Nat) :
    upto (f.magnitude c) ↔ c ≤ t := by
  have mono := f.magnitude_strictMono.monotone
  constructor
  · intro reached
    by_contra beyond
    exact h.most (places.down (f.magnitude_nonneg _) (mono (by omega)) reached)
  · exact fun inside => places.down (f.magnitude_nonneg _) (mono inside) h.least

/-- The value lies between one pair of neighbours only. -/
theorem Between.unique (h : Between f upto t) (places : Places under upto m e sticky) {c : Nat} (least : upto (f.magnitude c))
    (most : ¬ upto (f.magnitude (c + 1))) : c = t := by
  have := (h.upto_iff places c).1 least
  have := mt (h.upto_iff places (c + 1)).2 most
  omega

/-- The middle of the interval above magnitude bits. -/
def Fmt.middle (f : Fmt) (t : Nat) : Rat := (f.magnitude t + f.magnitude (t + 1)) / 2

/-- The result that R49 asks for is tiny (R50). -/
def Fmt.Tiny (f : Fmt) (rm : Rm) (s : Bool) (under upto : Rat → Prop) (t : Nat) : Prop :=
  t < 2 ^ f.fbits ∧ ¬(t + 1 = 2 ^ f.fbits ∧
    rm.Leaves s under upto (f.middle t) ((f.middle t + f.magnitude (t + 1)) / 2) True)

/-- What is delivered between two neighbours is the rounding. -/
theorem Fmt.isRounding_deliver (places : Places under upto m e sticky) (between : Between f upto t)
    (hup : up = true ↔ md.rm.Leaves s under upto (f.magnitude t) (f.middle t) (t % 2 = 1))
    (hany : any = true ↔ under (f.magnitude t)) (htiny : tiny = true ↔ f.Tiny md.rm s under upto t) :
    f.IsRounding md s under upto (f.deliver md s t up any tiny) := by
  have nonneg := f.magnitude_nonneg t
  have middle : f.magnitude t < f.middle t := by
    have := f.magnitude_strictMono (Nat.lt_succ_self t)
    unfold Fmt.middle
    linarith
  have overflows (beyond : f.maxMag < if up then t + 1 else t) :
      f.deliver md s t up any tiny = ⟨f.overflowVal md s, flOF ||| flNX⟩ := if_pos beyond
  have flushes : f.flushes = true ↔ f.special = .ieee := beq_iff_eq
  have positive (h : (if up then t + 1 else t) ≠ 0) : under 0 := by
    rcases Nat.eq_zero_or_pos t with rfl | pos
    · cases up with
      | false => exact absurd rfl h
      | true => exact f.magnitude_zero ▸ (hup.1 rfl).inside places nonneg middle
    · exact places.strict _ _ le_rfl (f.magnitude_pos pos.ne') between.least
  intro t'
  refine ⟨?_, ?_⟩
  · intro least most inside
    obtain rfl := between.unique places least most
    have bounded : ¬ f.maxMag < if up then t' + 1 else t' := by
      cases up with
      | false => simp only [Bool.false_eq_true, ↓reduceIte]; omega
      | true =>
        have := inside.resolve_right fun top => top.2 (hup.1 rfl)
        simp only [↓reduceIte]
        omega
    have delivered : f.deliver md s t' up any tiny = _ := if_neg bounded
    refine ⟨?_, ?_⟩
    · rintro ⟨ftz, ieee, isTiny, pos⟩
      rw [delivered, ftz, flushes.2 ieee, htiny.2 isTiny, f.signed_eq]
      by_cases zero : (if up then t' + 1 else t') = 0
      · have first : t' = 0 := by
          cases up with
          | false => exact zero
          | true => exact absurd zero (Nat.succ_ne_zero _)
        have some : any = true := hany.2 (by rw [first, f.magnitude_zero]; exact pos)
        rw [zero, some, f.signed_eq]
        rfl
      · rw [bne_iff_ne.2 zero]
        rfl
    · intro unflushed
      have plain : (tiny && md.ftz && f.flushes && (if up then t' + 1 else t') != 0) = false := by
        refine Bool.eq_false_iff.2 fun h => unflushed ?_
        simp only [Bool.and_eq_true, bne_iff_ne] at h
        obtain ⟨⟨⟨isTiny, ftz⟩, ieee⟩, nonzero⟩ := h
        exact ⟨ftz, flushes.1 ieee, htiny.1 isTiny, positive nonzero⟩
      rw [delivered, plain, if_neg Bool.false_ne_true, f.signed_eq]
      refine ⟨fun h => by rw [hup.2 h, if_pos rfl], fun h => by rw [if_neg (mt hup.1 h)], fun h => ?_, fun h big => ?_, fun h small => ?_⟩
      · rw [Bool.eq_false_iff.2 (mt hany.1 h), Bool.and_false]
        rfl
      · rw [hany.2 h, Bool.eq_false_iff.2 (mt htiny.1 big)]
        rfl
      · rw [hany.2 h, htiny.2 small]
        rfl
  · intro beyond
    have exceeds : f.maxMag < if up then t + 1 else t := by
      rcases beyond with above | ⟨rfl, least, most, leaves⟩
      · have := (between.upto_iff places _).1 above
        split <;> omega
      · obtain rfl := between.unique places least most
        rw [hup.2 leaves, if_pos rfl]
        omega
    rw [overflows exceeds]
    exact ⟨fun h => by rw [Fmt.overflowVal_of_toMax h], fun h => by rw [Fmt.overflowVal_of_not_toMax h]⟩

end

/-! `Fmt.round` cuts at the last place of the format -/

theorem bitLen_bounds {m : Nat} (h : m ≠ 0) : ∃ n, bitLen m = n + 1 ∧ 2 ^ n ≤ m ∧ m < 2 ^ (n + 1) :=
  ⟨Nat.log2 m, if_neg h, Nat.log2_self_le h, Nat.lt_log2_self⟩

/-- The exponent of a value's highest bit. -/
def topOf (m : Nat) (e : Int) : Int := e + (bitLen m : Int) - 1

/-- The exponent of the last place that a format keeps of it. -/
def Fmt.lastPlace (f : Fmt) (m : Nat) (e : Int) : Int := max (topOf m e - f.fbits) (1 - (f.bias : Int) - f.fbits)

section
variable {f : Fmt} {md : Mode} {s : Bool} {under upto : Rat → Prop} {m : Nat} {e : Int} {sticky : Bool}

theorem Places.top (places : Places under upto m e sticky) (nonzero : m ≠ 0) :
    upto (2 ^ topOf m e) ∧ ¬ upto (2 ^ (topOf m e + 1)) := by
  obtain ⟨n, len, least, most⟩ := bitLen_bounds nonzero
  have whole : (topOf m e - e).toNat = n := by unfold topOf; omega
  have next : (topOf m e + 1 - e).toNat = n + 1 := by unfold topOf; omega
  rw [zpow_eq_mul (show e ≤ topOf m e by unfold topOf; omega), zpow_eq_mul (show e ≤ topOf m e + 1 by unfold topOf; omega), whole,
    next, places.atGrid, places.atGrid]
  exact ⟨least, not_le.2 most⟩

/-- Cut at the last place that the format keeps, a value gives a significand of the format. -/
theorem Cut.significand {k half : Nat} {any : Bool} (cut : Cut under upto (2 ^ f.lastPlace m e) k half any)
    (places : Places under upto m e sticky) (nonzero : m ≠ 0) :
    f.Significand (f.lastPlace m e) k ∧ (k < 2 ^ f.fbits ↔ topOf m e < 1 - (f.bias : Int)) := by
  obtain ⟨reached, below⟩ := places.top nonzero
  have unit := two_zpow_pos (f.lastPlace m e)
  have grid (n : Nat) : ((2 ^ n : Nat) : Rat) * 2 ^ f.lastPlace m e = 2 ^ (f.lastPlace m e + n) := by
    rw [Nat.cast_pow, Nat.cast_ofNat, ← zpow_natCast, ← zpow_add₀ (by decide), Int.add_comm]
  have least : topOf m e - f.fbits ≤ f.lastPlace m e := le_max_left _ _
  have floor : 1 - (f.bias : Int) - f.fbits ≤ f.lastPlace m e := le_max_right _ _
  have below_ {i : Int} (h : topOf m e + 1 ≤ i) : ¬ upto (2 ^ i) := fun h' =>
    below (places.down (two_zpow_pos _).le (zpow_le_zpow_right₀ (by decide) h) h')
  have small : k < 2 ^ f.fbits ↔ topOf m e < 1 - (f.bias : Int) := by
    rw [← not_le, ← cut.upto_iff unit places, grid]
    constructor
    · intro short
      by_contra normal
      have : f.lastPlace m e + f.fbits = topOf m e := by unfold Fmt.lastPlace; omega
      exact short (this ▸ reached)
    · exact fun subnormal => below_ (by omega)
  refine ⟨⟨?_, floor, fun h => ?_⟩, small⟩
  · rw [← not_le, ← cut.upto_iff unit places, grid]
    exact below_ (by push_cast; omega)
  · have := small.1 h
    unfold Fmt.lastPlace
    omega

/-- `Fmt.round` delivers what lies between the neighbours at its cut. -/
theorem Fmt.round_eq_deliver (sig : f.Significand (f.lastPlace m e) (cutAt m e sticky (f.lastPlace m e)).1)
    (nonzero : ¬(m = 0 && !sticky) = true) :
    f.round md s m e sticky =
      let c := cutAt m e sticky (f.lastPlace m e)
      let c1 := cutAt m e sticky (topOf m e - f.fbits)
      let k1 := if md.rm.up s (c1.1 % 2 == 1) c1.2.1 c1.2.2 then c1.1 + 1 else c1.1
      f.deliver md s (f.encode (f.lastPlace m e) c.1) (md.rm.up s (c.1 % 2 == 1) c.2.1 c.2.2) c.2.2
        (decide (topOf m e < 1 - (f.bias : Int)) && !(k1 == 2 ^ (f.fbits + 1) && topOf m e + 1 == 1 - (f.bias : Int))) := by
  unfold Fmt.round Fmt.deliver
  rw [if_neg nonzero]
  dsimp only
  rw [← sig.encode_succ, ← apply_ite (f.encode _)]
  rfl

/-- Below the least normal binade the middle of the last interval, and the middle of its upper half, in units of half the last
place. -/
theorem Fmt.middle_last {t : Nat} (last : t + 1 = 2 ^ f.fbits) :
    f.middle t = ((2 ^ (f.fbits + 1) - 1 : Nat) : Rat) * 2 ^ (-(f.bias : Int) - f.fbits) ∧
      (f.middle t + f.magnitude (t + 1)) / 2 =
        ((2 * (2 ^ (f.fbits + 1) - 1) + 1 : Nat) : Rat) * (2 ^ (-(f.bias : Int) - f.fbits) / 2) := by
  have sig : f.Significand (1 - (f.bias : Int) - f.fbits) t := ⟨by rw [Nat.pow_succ]; omega, le_rfl, fun _ => rfl⟩
  have same : f.encode (1 - (f.bias : Int) - f.fbits) t = t := if_pos (by omega)
  have low := sig.magnitude
  have high := sig.magnitude_succ
  rw [same] at low high
  have double : (2 : Rat) ^ (1 - (f.bias : Int) - f.fbits) = 2 * 2 ^ (-(f.bias : Int) - f.fbits) := by
    rw [← zpow_one_add₀ (by decide)]
    congr 1
    omega
  have count : 2 ^ (f.fbits + 1) - 1 = 2 * t + 1 := by rw [Nat.pow_succ]; omega
  unfold Fmt.middle
  rw [low, high, double, count]
  push_cast
  constructor <;> ring

/-- The carry of a rounding with unbounded exponent into the least normal binade (R50). -/
theorem Fmt.carries_iff (places : Places under upto m e sticky) (nonzero : m ≠ 0) {k half k1 half1 : Nat} {any any1 : Bool}
    (cut : Cut under upto (2 ^ f.lastPlace m e) k half any) (cut1 : Cut under upto (2 ^ (topOf m e - f.fbits)) k1 half1 any1)
    (subnormal : k < 2 ^ f.fbits) :
    ((if md.rm.up s (k1 % 2 == 1) half1 any1 then k1 + 1 else k1) = 2 ^ (f.fbits + 1) ∧ topOf m e + 1 = 1 - (f.bias : Int)) ↔
      (k + 1 = 2 ^ f.fbits ∧ md.rm.Leaves s under upto (f.middle k) ((f.middle k + f.magnitude (k + 1)) / 2) True) := by
  obtain ⟨sig, small⟩ := cut.significand places nonzero
  have last := sig.subnormal subnormal
  have two : 2 ^ (f.fbits + 1) = 2 * 2 ^ f.fbits := Nat.pow_succ'
  have pos := Nat.two_pow_pos f.fbits
  obtain ⟨-, below⟩ := places.top nonzero
  have spread {i : Int} : (2 : Rat) ^ (i + (f.fbits + 1 : Nat)) = ((2 ^ (f.fbits + 1) : Nat) : Rat) * 2 ^ i := by
    rw [Nat.cast_pow, Nat.cast_ofNat, ← zpow_natCast, ← zpow_add₀ (by decide), Int.add_comm]
  by_cases next : topOf m e + 1 = 1 - (f.bias : Int)
  · have unit : topOf m e - f.fbits = -(f.bias : Int) - f.fbits := by omega
    rw [unit] at cut1
    have positive := two_zpow_pos (-(f.bias : Int) - f.fbits)
    have upto_iff := cut1.upto_iff positive places
    have bound : k1 < 2 ^ (f.fbits + 1) := by
      rw [← not_le, ← upto_iff, ← spread]
      exact fun h => below (by convert h using 2; push_cast; omega)
    have up_iff := cut1.up_iff md.rm s (k1 % 2 == 1)
    constructor
    · rintro ⟨carry, -⟩
      cases up : md.rm.up s (k1 % 2 == 1) half1 any1 with
      | false =>
        rw [up] at carry
        exact absurd carry (Nat.ne_of_lt bound)
      | true =>
        rw [up, if_pos rfl] at carry
        obtain rfl : k1 = 2 ^ (f.fbits + 1) - 1 := by omega
        have full : k + 1 = 2 ^ f.fbits := by
          have reached : 2 ^ f.fbits - 1 ≤ k := by
            have double : ((2 ^ f.fbits - 1 : Nat) : Rat) * 2 ^ (1 - (f.bias : Int) - f.fbits) =
                ((2 * (2 ^ f.fbits - 1) : Nat) : Rat) * 2 ^ (-(f.bias : Int) - f.fbits) := by
              rw [show 1 - (f.bias : Int) - f.fbits = -(f.bias : Int) - f.fbits + 1 by omega, zpow_add_one₀ (by decide)]
              push_cast
              ring
            rw [← cut.upto_iff (two_zpow_pos _) places, last, double, upto_iff]
            omega
          omega
        obtain ⟨middle, quarter⟩ := Fmt.middle_last full
        have odd : ((2 ^ (f.fbits + 1) - 1) % 2 == 1) = true := by rw [beq_iff_eq]; omega
        rw [quarter, middle]
        have := up_iff.1 up
        rw [odd, eq_self_iff_true] at this
        exact ⟨full, this⟩
    · rintro ⟨full, leaves⟩
      obtain ⟨middle, quarter⟩ := Fmt.middle_last full
      rw [quarter, middle] at leaves
      have inside := leaves.inside places (by positivity) (by push_cast; linarith)
      have := (upto_iff _).1 (places.weak _ (by positivity) inside)
      obtain rfl : k1 = 2 ^ (f.fbits + 1) - 1 := by omega
      have odd : ((2 ^ (f.fbits + 1) - 1) % 2 == 1) = true := by rw [beq_iff_eq]; omega
      rw [odd, eq_self_iff_true] at up_iff
      rw [odd, up_iff.2 leaves, if_pos rfl]
      exact ⟨by omega, next⟩
  · refine iff_of_false (fun h => next h.2) ?_
    rintro ⟨full, leaves⟩
    obtain ⟨middle, quarter⟩ := Fmt.middle_last full
    rw [quarter, middle] at leaves
    have positive := two_zpow_pos (-(f.bias : Int) - f.fbits)
    have inside := leaves.inside places (by positivity) (by push_cast; linarith)
    have whole : (2 : Rat) ^ (-(f.bias : Int)) = ((2 ^ f.fbits : Nat) : Rat) * 2 ^ (-(f.bias : Int) - f.fbits) := by
      rw [Nat.cast_pow, Nat.cast_ofNat, ← zpow_natCast, ← zpow_add₀ (by decide)]
      congr 1
      omega
    have first : (2 : Rat) ^ (topOf m e + 1) ≤ 2 ^ (-(f.bias : Int)) := by
      have := small.1 subnormal
      exact zpow_le_zpow_right₀ (by decide) (by omega)
    have second : ((2 ^ f.fbits : Nat) : Rat) * 2 ^ (-(f.bias : Int) - f.fbits) ≤
        ((2 ^ (f.fbits + 1) - 1 : Nat) : Rat) * 2 ^ (-(f.bias : Int) - f.fbits) :=
      mul_le_mul_of_nonneg_right (Nat.cast_le.2 (by omega)) positive.le
    exact below (places.down (two_zpow_pos _).le ((first.trans_eq whole).trans second) (places.weak _ (by positivity) inside))

/-- Zero rounds to itself. -/
theorem Fmt.round_zero_isRounding (regular : f.Regular) (places : Places under upto 0 e false) :
    f.IsRounding md s under upto (f.round md s 0 e) := by
  have leastBits := Nat.pow_le_pow_right (n := 2) (by decide) regular.fraction
  have none (q : Rat) (h : 0 ≤ q) : ¬ under q := by
    rw [(places.exact rfl q h).2, Nat.cast_zero, zero_mul]
    exact not_lt.2 h
  have least : upto (f.magnitude 0) := by
    rw [f.magnitude_zero, (places.exact rfl 0 le_rfl).1]
    positivity
  have most : ¬ upto (f.magnitude 1) := fun h => none 0 le_rfl (places.strict _ _ le_rfl (f.magnitude_pos one_ne_zero) h)
  have half : 0 < f.middle 0 := by
    have := f.magnitude_pos one_ne_zero
    unfold Fmt.middle
    rw [f.magnitude_zero]
    linarith
  have stays {odd : Prop} : ¬ md.rm.Leaves s under upto (f.magnitude 0) (f.middle 0) odd := fun leaves =>
    none _ (f.magnitude_nonneg 0) (leaves.inside places (f.magnitude_nonneg 0) (f.magnitude_zero.trans_lt half))
  have delivered : f.round md s 0 e = f.deliver md s 0 false false true := by
    unfold Fmt.round Fmt.deliver
    simp
  rw [delivered]
  refine Fmt.isRounding_deliver places ⟨least, most⟩ ?_ ?_ ?_
  · exact iff_of_false Bool.false_ne_true stays
  · exact iff_of_false Bool.false_ne_true (none _ (f.magnitude_nonneg 0))
  · exact iff_of_true rfl ⟨Nat.two_pow_pos _, fun h => by omega⟩

/-- The rounding of a format rounds (R49, R50, R53); a sticky value has to have more places than the format. -/
theorem Fmt.round_isRounding (regular : f.Regular) (places : Places under upto m e sticky)
    (enough : sticky = true → 2 ^ (f.fbits + 1) ≤ m) : f.IsRounding md s under upto (f.round md s m e sticky) := by
  by_cases zero : m = 0
  · obtain rfl := zero
    have plain : sticky = false := by
      cases sticky
      · rfl
      · exact absurd (enough rfl) (Nat.not_le_of_lt (Nat.two_pow_pos _))
    subst plain
    exact Fmt.round_zero_isRounding regular places
  obtain ⟨n, len, -, most⟩ := bitLen_bounds zero
  have fine : sticky = true → e < topOf m e - f.fbits := fun h => by
    have := (Nat.pow_lt_pow_iff_right (a := 2) (by decide)).1 ((enough h).trans_lt most)
    unfold topOf
    omega
  have cut1 := cutAt_cut places fine
  have wide : sticky = true → e < f.lastPlace m e := fun h => (fine h).trans_le (le_max_left _ _)
  have cut := cutAt_cut places wide
  obtain ⟨sig, small⟩ := cut.significand places zero
  rw [Fmt.round_eq_deliver sig (by simp [zero])]
  dsimp only
  have low := sig.magnitude
  have high := sig.magnitude_succ
  have middle : f.middle (f.encode (f.lastPlace m e) (cutAt m e sticky (f.lastPlace m e)).1) =
      ((2 * (cutAt m e sticky (f.lastPlace m e)).1 + 1 : Nat) : Rat) * (2 ^ f.lastPlace m e / 2) := by
    rw [Fmt.middle, low, high]
    push_cast
    ring
  refine Fmt.isRounding_deliver places ⟨low ▸ cut.whole, high ▸ cut.below⟩ ?_ ?_ ?_
  · rw [low, middle, Fmt.encode_mod_two regular.fraction, cut.up_iff, beq_iff_eq]
  · rw [low, cut.rest]
  · unfold Fmt.Tiny
    rw [Fmt.encode_lt, Bool.and_eq_true, decide_eq_true_eq, ← small, Bool.not_eq_true', Bool.and_eq_false_iff]
    refine and_congr_right fun subnormal => ?_
    rw [show f.encode (f.lastPlace m e) (cutAt m e sticky (f.lastPlace m e)).1 = _ from if_pos subnormal,
      ← Fmt.carries_iff places zero cut cut1 subnormal, not_and_or, beq_eq_false_iff_ne, beq_eq_false_iff_ne]

end

/-- Settles O14: what `Fmt.round` cuts off is compared with the middles between neighbouring magnitudes. -/
theorem roundingValues : Obligations.RoundingValues := fun _ known _ _ m e =>
  Fmt.round_isRounding (Fmt.regular known) (places_exact m e) fun h => absurd h Bool.false_ne_true

end Sys2Proof.Machine
end

section
/-! Arithmetic on decoded values (R49, R52, R76): sums, products and fused sums are one rounding, comparisons order values. -/

namespace Sys2Proof.Machine

/-! A rounding depends on the value alone -/

section
variable {f : Fmt} {md : Mode} {s : Bool} {under upto : Rat → Prop} {m : Nat} {e : Int} {sticky : Bool}

/-- Every value lies between two neighbours. -/
theorem Places.exists_between (places : Places under upto m e false) : ∃ t, Between f upto t := by
  by_cases zero : m = 0
  · refine ⟨0, ?_, ?_⟩
    · rw [f.magnitude_zero, (places.exact rfl 0 le_rfl).1]
      positivity
    · rw [(places.exact rfl _ (f.magnitude_nonneg _)).1, zero, Nat.cast_zero, zero_mul]
      exact not_le.2 (f.magnitude_pos one_ne_zero)
  · have cut := cutAt_cut places (q := f.lastPlace m e) fun h => absurd h Bool.false_ne_true
    have sig := (cut.significand places zero).1
    exact ⟨_, sig.magnitude ▸ cut.whole, sig.magnitude_succ ▸ cut.below⟩

/-- There is one rounding of a value. -/
theorem Fmt.IsRounding.unique {a b : FRes} (ha : f.IsRounding md s under upto a) (hb : f.IsRounding md s under upto b)
    (places : Places under upto m e sticky) {t : Nat} (between : Between f upto t) : a = b := by
  obtain ⟨inA, beyondA⟩ := ha t
  obtain ⟨inB, beyondB⟩ := hb t
  have inside_of_not {up : Prop} (h : ¬(upto (f.magnitude (f.maxMag + 1)) ∨ t = f.maxMag ∧ upto (f.magnitude t) ∧
      ¬ upto (f.magnitude (t + 1)) ∧ up)) : t < f.maxMag ∨ t = f.maxMag ∧ ¬ up := by
    rw [not_or, between.upto_iff places] at h
    obtain ⟨below, stays⟩ := h
    have := Nat.lt_or_eq_of_le (Nat.lt_succ_iff.1 (not_le.1 below))
    exact this.imp_right fun top => ⟨top, fun leaves => stays ⟨top, between.least, between.most, leaves⟩⟩
  by_cases beyond : upto (f.magnitude (f.maxMag + 1)) ∨ t = f.maxMag ∧ upto (f.magnitude t) ∧ ¬ upto (f.magnitude (t + 1)) ∧
      md.rm.Leaves s under upto (f.magnitude t) (f.middle t) (t % 2 = 1)
  · obtain ⟨maxA, infA⟩ := beyondA beyond
    obtain ⟨maxB, infB⟩ := beyondB beyond
    by_cases toMax : f.ToMax md s
    · rw [maxA toMax, maxB toMax]
    · rw [infA toMax, infB toMax]
  · have inside := inside_of_not beyond
    obtain ⟨flushedA, plainA⟩ := inA between.least between.most inside
    obtain ⟨flushedB, plainB⟩ := inB between.least between.most inside
    by_cases flushed : md.ftz = true ∧ f.special = .ieee ∧ f.Tiny md.rm s under upto t ∧ under 0
    · rw [flushedA flushed, flushedB flushed]
    · obtain ⟨upA, downA, exactA, normalA, tinyA⟩ := plainA flushed
      obtain ⟨upB, downB, exactB, normalB, tinyB⟩ := plainB flushed
      have val : a.val = b.val := by
        by_cases up : md.rm.Leaves s under upto (f.magnitude t) (f.middle t) (t % 2 = 1)
        · rw [upA up, upB up]
        · rw [downA up, downB up]
      have fl : a.fl = b.fl := by
        by_cases inexact : under (f.magnitude t)
        · by_cases tiny : f.Tiny md.rm s under upto t
          · rw [tinyA inexact tiny, tinyB inexact tiny]
          · rw [normalA inexact tiny, normalB inexact tiny]
        · rw [exactA inexact, exactB inexact]
      cases a
      cases b
      exact FRes.mk.injEq .. ▸ ⟨val, fl⟩

theorem Fmt.round_congr (regular : f.Regular) {m' : Nat} {e' : Int} (same : (m : Rat) * 2 ^ e = m' * 2 ^ e') :
    f.round md s m e = f.round md s m' e' := by
  obtain ⟨t, between⟩ := (places_exact m e).exists_between (f := f)
  have left := Fmt.round_isRounding (md := md) (s := s) regular (places_exact m e) fun h => absurd h Bool.false_ne_true
  have right := Fmt.round_isRounding (md := md) (s := s) regular (places_exact m' e') fun h => absurd h Bool.false_ne_true
  rw [← same] at right
  exact left.unique right (places_exact m e) between

theorem Fmt.round_zero : f.round md s 0 e = ⟨f.signBit s, 0⟩ := by
  have zero : f.round md s 0 e = ⟨f.signed s 0, 0⟩ := if_pos rfl
  rw [zero, f.signed_eq, Nat.add_zero]

end

/-! Signed values -/

/-- The value of a sign, a significand and an exponent. -/
def ratOf (s : Bool) (m : Nat) (e : Int) : Rat := (if s then -1 else 1) * ((m : Rat) * 2 ^ e)

section
variable {f : Fmt} {md : Mode} {s t : Bool} {m n : Nat} {e g : Int}

theorem ratOf_false : ratOf false m e = m * 2 ^ e := one_mul _

theorem ratOf_true : ratOf true m e = -(m * 2 ^ e) := neg_one_mul _

theorem ratOf_eq_zero : ratOf s m e = 0 ↔ m = 0 := by
  cases s <;> simp [ratOf, (two_zpow_pos e).ne']

theorem abs_ratOf : |ratOf s m e| = m * 2 ^ e := by
  have : (0 : Rat) ≤ m * 2 ^ e := by positivity
  cases s
  · rw [ratOf_false, abs_of_nonneg this]
  · rw [ratOf_true, abs_neg, abs_of_nonneg this]

theorem ratOf_not : ratOf (!s) m e = -ratOf s m e := by
  cases s
  · rw [ratOf_false]
    exact ratOf_true
  · rw [ratOf_true, neg_neg]
    exact ratOf_false

theorem ratOf_mul : ratOf (s != t) (m * n) (e + g) = ratOf s m e * ratOf t n g := by
  unfold ratOf
  rw [zpow_add₀ (by decide), Nat.cast_mul]
  cases s <;> cases t <;> simp <;> ring

/-- A nonzero value has one sign. -/
theorem sign_of_ratOf (nonzero : m ≠ 0) (same : ratOf s m e = ratOf t n g) : s = t ∧ (m : Rat) * 2 ^ e = n * 2 ^ g := by
  have size : (m : Rat) * 2 ^ e = n * 2 ^ g := by rw [← abs_ratOf (s := s), same, abs_ratOf]
  have pos : (0 : Rat) < m * 2 ^ e := by positivity
  refine ⟨?_, size⟩
  by_contra opposite
  have other : t = !s := by cases s <;> cases t <;> simp_all
  rw [other, ratOf_not] at same
  unfold ratOf at same
  rw [← size] at same
  cases s
  · simp only [Bool.false_eq_true, ↓reduceIte, one_mul] at same
    linarith
  · simp only [↓reduceIte, neg_one_mul, neg_neg] at same
    linarith

/-- The rounding of a value that the operands determine. -/
theorem Fmt.rounds_round (regular : f.Regular) : f.Rounds md (f.round md s m e) (ratOf s m e) := by
  intro s' m' e' nonzero same
  obtain ⟨rfl, size⟩ := sign_of_ratOf nonzero same.symm
  exact Fmt.round_congr regular size.symm

/-! Sums -/

theorem shiftLeft_cast {i j : Int} (h : j ≤ i) : ((m <<< (i - j).toNat : Nat) : Rat) * 2 ^ j = m * 2 ^ i := by
  rw [Nat.shiftLeft_eq, Nat.cast_mul, zpow_eq_mul h, mul_assoc]

/-- The exact sum, and the sign of a zero (R49). -/
theorem addExact_value (md : Mode) (s : Bool) (m : Nat) (e : Int) (t : Bool) (n : Nat) (g : Int) :
    let r := addExact md s m e t n g
    ratOf r.1 r.2.1 r.2.2 = ratOf s m e + ratOf t n g ∧ (r.2.1 = 0 → r.1 = zeroSign md s t) := by
  have left := shiftLeft_cast (m := m) (min_le_left e g)
  have right := shiftLeft_cast (m := n) (min_le_right e g)
  unfold addExact
  dsimp only
  generalize m <<< (e - min e g).toNat = x at left ⊢
  generalize n <<< (g - min e g).toNat = y at right ⊢
  have sum : ratOf s m e + ratOf t n g = ratOf s x (min e g) + ratOf t y (min e g) := by
    unfold ratOf
    rw [left, right]
  rw [sum]
  split
  · next same =>
    subst same
    refine ⟨?_, fun _ => (if_pos rfl).symm⟩
    dsimp only
    unfold ratOf
    push_cast
    ring
  · next opposite =>
    have other : t = !s := by cases s <;> cases t <;> simp_all
    rw [other, ratOf_not]
    split
    · next equal =>
      refine ⟨?_, fun _ => rfl⟩
      rw [equal, ratOf_eq_zero.2 rfl, add_neg_cancel]
    · next unequal =>
      split
      · next less =>
        refine ⟨?_, fun zero => absurd zero (Nat.sub_pos_of_lt less).ne'⟩
        dsimp only
        unfold ratOf
        rw [Nat.cast_sub less.le]
        ring
      · next notLess =>
        have less : x < y := by omega
        refine ⟨?_, fun zero => absurd zero (Nat.sub_pos_of_lt less).ne'⟩
        dsimp only
        rw [ratOf_not]
        unfold ratOf
        rw [Nat.cast_sub less.le]
        ring

/-- A zero with the sign of R49. -/
def Fmt.zeroOf (f : Fmt) (md : Mode) (s t : Bool) : FRes := ⟨f.signBit (zeroSign md s t), 0⟩

/-- The sum of finite values. -/
theorem Fmt.addExact_rounds (regular : f.Regular) {v w : Rat} (hv : v = ratOf s m e) (hw : w = ratOf t n g) :
    let r := addExact md s m e t n g
    f.Rounds md (f.round md r.1 r.2.1 r.2.2) (v + w) ∧ (v + w = 0 → f.round md r.1 r.2.1 r.2.2 = f.zeroOf md s t) := by
  obtain ⟨value, sign⟩ := addExact_value md s m e t n g
  dsimp only
  rw [hv, hw, ← value]
  refine ⟨Fmt.rounds_round regular, fun zero => ?_⟩
  have none := ratOf_eq_zero.1 zero
  rw [none, Fmt.round_zero, sign none]
  rfl

/-- The product of finite values. -/
theorem Fmt.mul_rounds (regular : f.Regular) {v w : Rat} (hv : v = ratOf s m e) (hw : w = ratOf t n g) :
    f.Rounds md (f.round md (s != t) (m * n) (e + g)) (v * w) ∧
      (v * w = 0 → f.round md (s != t) (m * n) (e + g) = ⟨f.signBit (s != t), 0⟩) := by
  rw [hv, hw, ← ratOf_mul]
  refine ⟨Fmt.rounds_round regular, fun zero => ?_⟩
  rw [ratOf_eq_zero.1 zero, Fmt.round_zero]

/-! Order -/

theorem magLt_iff : magLt m e n g = true ↔ (m : Rat) * 2 ^ e < n * 2 ^ g := by
  rw [magLt, decide_eq_true_eq, ← Nat.cast_lt (α := Rat), ← mul_lt_mul_iff_left₀ (two_zpow_pos (min e g)),
    shiftLeft_cast (min_le_left e g), shiftLeft_cast (min_le_right e g)]

/-- Finite values are ordered as numbers, zeros of either sign equal. -/
theorem FVal.lt_fin : (FVal.fin s m e).lt (.fin t n g) = true ↔ ratOf s m e < ratOf t n g := by
  have left : (0 : Rat) ≤ m * 2 ^ e := by positivity
  have right : (0 : Rat) ≤ n * 2 ^ g := by positivity
  have leftPos (h : m ≠ 0) : (0 : Rat) < m * 2 ^ e := by positivity
  have rightPos (h : n ≠ 0) : (0 : Rat) < n * 2 ^ g := by positivity
  rcases Nat.eq_zero_or_pos m with zero | pos
  · rcases Nat.eq_zero_or_pos n with zero' | pos'
    · simp [FVal.lt, zero, zero', ratOf_eq_zero.2]
    · have nonzero := rightPos pos'.ne'
      rw [ratOf_eq_zero.2 zero]
      cases t <;> simp [FVal.lt, zero, pos'.ne', ratOf_false, ratOf_true, nonzero, right]
  · have nonzero := leftPos pos.ne'
    rcases Nat.eq_zero_or_pos n with zero' | pos'
    · rw [ratOf_eq_zero.2 zero']
      cases s <;> simp [FVal.lt, zero', pos.ne', ratOf_false, ratOf_true, nonzero, left]
    · have nonzero' := rightPos pos'.ne'
      cases s <;> cases t <;>
        simp only [FVal.lt, pos.ne', pos'.ne', decide_false, Bool.false_and, Bool.false_eq_true, ↓reduceIte, ratOf_false, ratOf_true,
          Bool.not_false, Bool.not_true, Bool.true_and, Bool.true_or, Bool.false_or, magLt_iff, neg_lt_neg_iff, true_iff, false_iff] <;>
        linarith

end

end Sys2Proof.Machine
end

section
/-! Operands as they are read (R44, R50), quotients and square roots (R76), and roundings to integers (R54). -/

namespace Sys2Proof.Machine

/-! DAZ -/

section
variable (f : Fmt) (md : Mode)

/-- The sign of a pattern. -/
def Fmt.sign (x : Nat) : Bool := x.testBit (f.width - 1)

theorem Fmt.signBit_lt (s : Bool) : f.signBit s < 2 ^ f.width := by
  have : f.signBit s ≤ 2 ^ (f.width - 1) := by cases s <;> simp [Fmt.signBit]
  refine this.trans_lt (Nat.pow_lt_pow_right (by decide) ?_)
  unfold Fmt.width
  omega

theorem Fmt.daz_eq (x : Nat) :
    f.daz md x = if md.daz = true ∧ f.special = .ieee ∧ f.mag x < 2 ^ f.fbits then f.signBit (f.sign x) else x := by
  have least : f.mag x / 2 ^ f.fbits = 0 ↔ f.mag x < 2 ^ f.fbits := Nat.div_eq_zero_iff_lt (Nat.two_pow_pos _)
  have code : (md.daz && f.flushes && bits x f.fbits f.ebits == 0) = true ↔
      md.daz = true ∧ f.special = .ieee ∧ f.mag x < 2 ^ f.fbits := by
    rw [f.bits_eq, Bool.and_eq_true, Bool.and_eq_true, beq_iff_eq, least, Fmt.flushes, beq_iff_eq, and_assoc]
  unfold Fmt.daz
  by_cases flush : md.daz = true ∧ f.special = .ieee ∧ f.mag x < 2 ^ f.fbits
  · rw [if_pos flush, if_pos (code.2 flush), f.signed_eq]
    rfl
  · rw [if_neg flush, if_neg (mt code.1 flush)]

theorem Fmt.daz_lt {x : Nat} (h : x < 2 ^ f.width) : f.daz md x < 2 ^ f.width := by
  rw [f.daz_eq]
  split
  · exact f.signBit_lt _
  · exact h

theorem Fmt.mag_signBit (s : Bool) : f.mag (f.signBit s) = 0 := f.mag_signBit_add s (Nat.two_pow_pos _)

theorem Fmt.sign_signBit (s : Bool) : f.sign (f.signBit s) = s := f.testBit_signBit_add s (Nat.two_pow_pos _)

/-- DAZ keeps the sign. -/
@[simp] theorem Fmt.sign_daz (x : Nat) : f.sign (f.daz md x) = f.sign x := by
  rw [f.daz_eq]
  split
  · exact f.sign_signBit _
  · rfl

/-- DAZ is for subnormal magnitudes. -/
theorem Fmt.daz_of_normal {x : Nat} (h : 2 ^ f.fbits ≤ f.mag x) : f.daz md x = x := by
  rw [f.daz_eq, if_neg fun flush => absurd flush.2.2 (not_lt.2 h)]

end

section
variable {f : Fmt} {md : Mode}

theorem Fmt.daz_of_beyond (known : f ∈ Fmt.known) {x : Nat} (h : f.isFinite x = false) : f.daz md x = x := by
  have := (Fmt.regular known).normal
  have := of_decide_eq_false h
  exact f.daz_of_normal md (by omega)

theorem Fmt.daz_of_nan (known : f ∈ Fmt.known) {x : Nat} (h : f.isNanCode x = true) : f.daz md x = x :=
  Fmt.daz_of_beyond known (Fmt.isFinite_of_nan known h)

theorem Fmt.isFinite_daz (known : f ∈ Fmt.known) (x : Nat) : f.isFinite (f.daz md x) = f.isFinite x := by
  cases finite : f.isFinite x with
  | false => rw [Fmt.daz_of_beyond known finite, finite]
  | true =>
    rw [f.daz_eq]
    split
    · exact decide_eq_true (by rw [f.mag_signBit]; exact Nat.zero_le _)
    · exact finite

theorem Fmt.isNanCode_daz (known : f ∈ Fmt.known) (x : Nat) : f.isNanCode (f.daz md x) = f.isNanCode x := by
  cases nan : f.isNanCode x with
  | true => rw [Fmt.daz_of_nan known nan, nan]
  | false =>
    refine Bool.eq_false_iff.2 fun h => ?_
    have finite := Fmt.isFinite_of_nan known h
    rw [Fmt.isFinite_daz known] at finite
    rw [Fmt.daz_of_beyond known finite, nan] at h
    exact Bool.false_ne_true h

/-! Operands -/

/-- The value of a finite pattern. -/
theorem Fmt.value_eq (x : Nat) : f.value x = ratOf (f.sign x) (f.mant (f.mag x)) (f.expo (f.mag x)) := by
  rw [Fmt.value, f.magnitude_eq]
  rfl

/-- A finite operand as it is read. -/
theorem Fmt.read_finite (known : f ∈ Fmt.known) {x : Nat} (h : f.isFinite (f.daz md x) = true) :
    ∃ m e, f.read md x = .fin (f.sign x) m e ∧ f.value (f.daz md x) = ratOf (f.sign x) m e := by
  refine ⟨f.mant (f.mag (f.daz md x)), f.expo (f.mag (f.daz md x)), ?_, ?_⟩
  · rw [Fmt.read, Fmt.decode_of_finite known h, ← f.sign_daz md x]
    rfl
  · rw [Fmt.value_eq, f.sign_daz]

theorem Fmt.read_nan (known : f ∈ Fmt.known) {x : Nat} (h : f.isNanCode x = true) : f.read md x = f.nan x := by
  rw [Fmt.read, Fmt.daz_of_nan known h, Fmt.decode_of_nan known h]

/-- The pattern of an infinity. -/
def Fmt.inf (f : Fmt) (s : Bool) : Nat := f.signBit s + f.infMag

theorem Fmt.infMag_lt : f.infMag < 2 ^ (f.ebits + f.fbits) := by
  rw [Fmt.infMag, Nat.pow_add]
  exact Nat.mul_lt_mul_of_pos_right (Nat.sub_lt (Nat.two_pow_pos _) (by decide)) (Nat.two_pow_pos _)

theorem Fmt.daz_inf (known : f ∈ Fmt.known) (s : Bool) : f.daz md (f.inf s) = f.inf s := by
  refine f.daz_of_normal md ?_
  have exponent := (Fmt.regular known).exponent
  have : 2 ^ 1 ≤ 2 ^ f.ebits := Nat.pow_le_pow_right (by decide) (by omega)
  rw [Fmt.inf, f.mag_signBit_add s Fmt.infMag_lt, Fmt.infMag]
  exact Nat.le_mul_of_pos_left _ (by omega)

/-- Has the format infinities (R45)? -/
def Fmt.Infinite (f : Fmt) : Prop := f.special = .ieee ∨ f.special = .e5m2

theorem Fmt.read_inf (infinite : f.Infinite) (known : f ∈ Fmt.known) (s : Bool) : f.read md (f.inf s) = .inf s := by
  rw [Fmt.read, Fmt.daz_inf known]
  exact Fmt.decode_inf infinite known s

theorem Fmt.isNanCode_inf (infinite : f.Infinite) (s : Bool) : f.isNanCode (f.inf s) = false := by
  unfold Fmt.isNanCode
  rw [Fmt.inf, f.mag_signBit_add s Fmt.infMag_lt]
  rcases infinite with h | h <;> simp [h]

/-- Beyond the finite magnitudes and the NaNs there is infinity only. -/
theorem Fmt.eq_inf (infinite : f.Infinite) (known : f ∈ Fmt.known) {x : Nat} (bound : x < 2 ^ f.width)
    (beyond : f.isFinite x = false) (number : f.isNanCode x = false) : x = f.inf (f.sign x) := by
  have next := (Fmt.regular known).next infinite
  have above : ¬ f.infMag < f.mag x := by
    unfold Fmt.isNanCode at number
    rcases infinite with h | h <;> simpa [h] using number
  have := of_decide_eq_false beyond
  have mag : f.mag x = f.infMag := by omega
  have := f.pattern_eq bound
  rw [mag] at this
  exact this

/-- Every operand is a NaN, an infinity or finite. -/
theorem Fmt.finite_or_inf (infinite : f.Infinite) (known : f ∈ Fmt.known) {x : Nat} (bound : x < 2 ^ f.width)
    (number : f.isNanCode x = false) : f.isFinite (f.daz md x) = true ∨ ∃ s, x = f.inf s := by
  cases finite : f.isFinite x with
  | true => exact .inl (by rw [Fmt.isFinite_daz known, finite])
  | false => exact .inr ⟨_, Fmt.eq_inf infinite known bound finite number⟩

/-- Finite patterns of one value and one sign are the same. -/
theorem Fmt.value_injective {x y : Nat} (hx : x < 2 ^ f.width) (hy : y < 2 ^ f.width) (sign : f.sign x = f.sign y)
    (same : f.value x = f.value y) : x = y := by
  have size : f.magnitude (f.mag x) = f.magnitude (f.mag y) := by
    have ex : f.value x = (if f.sign x then -1 else 1) * f.magnitude (f.mag x) := rfl
    have ey : f.value y = (if f.sign y then -1 else 1) * f.magnitude (f.mag y) := rfl
    rw [ex, ey, sign] at same
    cases h : f.sign y <;> simpa [h] using same
  rw [f.pattern_eq hx, f.pattern_eq hy, f.magnitude_strictMono.injective size]
  exact congrArg (f.signBit · + _) sign

end

/-! Quotients -/

section
variable {f : Fmt} {md : Mode} {s t : Bool} {m n : Nat} {e g : Int}

/-- The quotient with `sh` more places places the exact one. -/
theorem places_div (n_ne : n ≠ 0) (sh : Nat) :
    Places (fun q => q * ((n : Rat) * 2 ^ g) < m * 2 ^ e) (fun q => q * ((n : Rat) * 2 ^ g) ≤ m * 2 ^ e)
      ((m <<< sh) / n) (e - g - sh) ((m <<< sh) % n != 0) := by
  have divisor : (0 : Rat) < n * 2 ^ g := by positivity
  have unit : (0 : Rat) < 2 ^ (e - sh) := by positivity
  have numerator : (m : Rat) * 2 ^ e = ((m <<< sh : Nat) : Rat) * 2 ^ (e - sh) := by
    rw [Nat.shiftLeft_eq, zpow_sub₀ (by decide), zpow_natCast]
    push_cast
    field_simp
  have grid (c : Nat) : (c : Rat) * 2 ^ (e - g - sh) * (n * 2 ^ g) = ((c * n : Nat) : Rat) * 2 ^ (e - sh) := by
    rw [show e - sh = (e - g - sh) + g by omega, zpow_add₀ (by decide)]
    push_cast
    ring
  have parts := Nat.div_add_mod (m <<< sh) n
  have rest := Nat.mod_lt (m <<< sh) (Nat.pos_of_ne_zero n_ne)
  have sticky : (m <<< sh % n != 0) = true ↔ m <<< sh % n ≠ 0 := bne_iff_ne
  rw [numerator]
  refine ⟨fun p q _ less => lt_of_lt_of_le (mul_lt_mul_of_pos_right less divisor), fun q _ => le_of_lt, fun c => ?_, fun c => ?_,
    fun exact_ q _ => ?_⟩
  · rw [grid, mul_le_mul_iff_left₀ unit, Nat.cast_le, Nat.le_div_iff_mul_le (Nat.pos_of_ne_zero n_ne)]
  · rw [grid, mul_lt_mul_iff_left₀ unit, Nat.cast_lt]
    split
    · next some =>
      have := sticky.1 some
      rw [Nat.le_div_iff_mul_le (Nat.pos_of_ne_zero n_ne)]
      refine ⟨le_of_lt, fun le => lt_of_le_of_ne le ?_⟩
      rintro whole
      exact this (whole ▸ Nat.mul_mod_left c n)
    · next none =>
      have whole := not_not.1 (mt sticky.2 none)
      rw [whole, Nat.add_zero, Nat.mul_comm] at parts
      rw [← Nat.mul_lt_mul_right (Nat.pos_of_ne_zero n_ne) (b := c), parts]
  · have whole := not_not.1 (mt sticky.2 (Bool.eq_false_iff.1 exact_))
    rw [whole, Nat.add_zero, Nat.mul_comm] at parts
    have same : ((m <<< sh : Nat) : Rat) * 2 ^ (e - sh) = ((m <<< sh / n : Nat) : Rat) * 2 ^ (e - g - sh) * (n * 2 ^ g) := by
      rw [grid, parts]
    rw [same]
    exact ⟨mul_le_mul_iff_left₀ divisor, mul_lt_mul_iff_left₀ divisor⟩

/-- The quotient of finite values is one rounding. -/
theorem Fmt.div_isRounding (regular : f.Regular) (n_ne : n ≠ 0) :
    f.IsRounding md s (fun q => q * ((n : Rat) * 2 ^ g) < m * 2 ^ e) (fun q => q * ((n : Rat) * 2 ^ g) ≤ m * 2 ^ e)
      (if m = 0 then ⟨f.signBit s, 0⟩ else f.round md s ((m <<< (f.fbits + 6 + bitLen n)) / n)
        (e - g - (f.fbits + 6 + bitLen n : Nat)) ((m <<< (f.fbits + 6 + bitLen n)) % n != 0)) := by
  have places := places_div (m := m) (e := e) (g := g) n_ne (f.fbits + 6 + bitLen n)
  split
  · next zero =>
    subst zero
    rw [Nat.zero_shiftLeft, Nat.zero_div, Nat.zero_mod] at places
    rw [← Fmt.round_zero (md := md) (e := e - g - (f.fbits + 6 + bitLen n : Nat))]
    exact Fmt.round_zero_isRounding regular places
  · next nonzero =>
    refine Fmt.round_isRounding regular places fun _ => ?_
    obtain ⟨k, len, -, most⟩ := bitLen_bounds n_ne
    rw [Nat.le_div_iff_mul_le (Nat.pos_of_ne_zero n_ne), Nat.shiftLeft_eq, Nat.pow_add 2 (f.fbits + 6), len]
    calc 2 ^ (f.fbits + 1) * n ≤ 2 ^ (f.fbits + 6) * 2 ^ (k + 1) :=
          Nat.mul_le_mul (Nat.pow_le_pow_right (by decide) (by omega)) most.le
      _ ≤ m * (2 ^ (f.fbits + 6) * 2 ^ (k + 1)) := Nat.le_mul_of_pos_left _ (Nat.pos_of_ne_zero nonzero)

/-! Square roots -/

/-- `isqrt` finds the bits of a root one after another. -/
theorem isqrt_between (n x r : Nat) (least : r * r ≤ x) (most : x < (r + 2 ^ n) * (r + 2 ^ n)) :
    isqrt n x r * isqrt n x r ≤ x ∧ x < (isqrt n x r + 1) * (isqrt n x r + 1) := by
  induction n generalizing r with
  | zero => exact ⟨least, most⟩
  | succ n ih =>
    unfold isqrt
    dsimp only
    split
    · next fits => exact ih _ fits (by rw [Nat.add_assoc, ← Nat.two_mul, ← Nat.pow_succ']; exact most)
    · next large => exact ih _ least (not_le.1 large)

theorem isqrt_eq (x : Nat) : isqrt (bitLen x / 2 + 1) x 0 = Nat.sqrt x := by
  have most : x < 2 ^ (bitLen x / 2 + 1) * 2 ^ (bitLen x / 2 + 1) := by
    have len : x < 2 ^ bitLen x := by
      rcases Nat.eq_zero_or_pos x with rfl | pos
      · exact Nat.two_pow_pos _
      · obtain ⟨n, len, -, most⟩ := bitLen_bounds pos.ne'
        exact len ▸ most
    rw [← Nat.pow_add]
    exact len.trans_le (Nat.pow_le_pow_right (by decide) (by omega))
  obtain ⟨least, next⟩ := isqrt_between (bitLen x / 2 + 1) x 0 (Nat.zero_le _) (by rwa [Nat.zero_add])
  exact Nat.eq_sqrt.2 ⟨least, next⟩

theorem sqrt_exponent_even (p : Nat) (e : Int) :
    let sh := 2 * p + (if e % 2 = 0 then 0 else 1)
    2 * ((e - (sh : Nat)) / 2) = e - (sh : Nat) := by
  dsimp only
  split <;> push_cast <;> omega

/-- The root with at least `p` places places the exact one. -/
theorem places_sqrt (p m : Nat) (e : Int) :
    let r := sqrtExact p m e
    Places (fun q => q * q < (m : Rat) * 2 ^ e) (fun q => q * q ≤ (m : Rat) * 2 ^ e) r.1 r.2.1 r.2.2 := by
  have even := sqrt_exponent_even p e
  unfold sqrtExact
  dsimp only at even ⊢
  generalize 2 * p + (if e % 2 = 0 then 0 else 1) = sh at even ⊢
  rw [isqrt_eq]
  generalize i_eq : (e - (sh : Int)) / 2 = i at even ⊢
  have unit : (0 : Rat) < 2 ^ i * 2 ^ i := by positivity
  have radicand : (m : Rat) * 2 ^ e = ((m <<< sh : Nat) : Rat) * (2 ^ i * 2 ^ i) := by
    rw [Nat.shiftLeft_eq, ← zpow_add₀ (by decide), show i + i = e - sh by omega, zpow_sub₀ (by decide), zpow_natCast]
    push_cast
    field_simp
  have grid (c : Nat) : (c : Rat) * 2 ^ i * (c * 2 ^ i) = ((c * c : Nat) : Rat) * (2 ^ i * 2 ^ i) := by
    push_cast
    ring
  have root := Nat.sqrt_le (m <<< sh)
  have sticky : (Nat.sqrt (m <<< sh) * Nat.sqrt (m <<< sh) != m <<< sh) = true ↔
      Nat.sqrt (m <<< sh) * Nat.sqrt (m <<< sh) ≠ m <<< sh := bne_iff_ne
  rw [radicand]
  refine ⟨fun p q nonneg less => lt_of_lt_of_le (mul_self_lt_mul_self nonneg less), fun q _ => le_of_lt, fun c => ?_, fun c => ?_,
    fun exact_ q nonneg => ?_⟩
  · rw [grid, mul_le_mul_iff_left₀ unit, Nat.cast_le, Nat.le_sqrt]
  · rw [grid, mul_lt_mul_iff_left₀ unit, Nat.cast_lt]
    split
    · next some =>
      have := sticky.1 some
      rw [Nat.le_sqrt]
      refine ⟨le_of_lt, fun le => lt_of_le_of_ne le ?_⟩
      rintro whole
      rw [← whole, Nat.sqrt_eq] at this
      exact this rfl
    · next none =>
      have whole := not_not.1 (mt sticky.2 none)
      rw [← Nat.mul_self_lt_mul_self_iff (n := Nat.sqrt _), whole]
  · have whole := not_not.1 (mt sticky.2 (Bool.eq_false_iff.1 exact_))
    have same : ((m <<< sh : Nat) : Rat) * (2 ^ i * 2 ^ i) =
        ((Nat.sqrt (m <<< sh) : Nat) : Rat) * 2 ^ i * ((Nat.sqrt (m <<< sh) : Nat) * 2 ^ i) := by rw [grid, whole]
    rw [same]
    have positive : (0 : Rat) ≤ (Nat.sqrt (m <<< sh) : Nat) * 2 ^ i := by positivity
    exact ⟨(mul_self_le_mul_self_iff nonneg positive).symm, (mul_self_lt_mul_self_iff nonneg positive).symm⟩

/-- The square root of a finite value that is not negative is one rounding. -/
theorem Fmt.sqrt_isRounding (regular : f.Regular) :
    f.IsRounding md s (fun q => q * q < (m : Rat) * 2 ^ e) (fun q => q * q ≤ (m : Rat) * 2 ^ e)
      (if m = 0 then ⟨f.signBit s, 0⟩ else
        let r := sqrtExact (f.fbits + 3) m e
        f.round md s r.1 r.2.1 r.2.2) := by
  have places := places_sqrt (f.fbits + 3) m e
  split
  · next zero =>
    subst zero
    have none : sqrtExact (f.fbits + 3) 0 e = (0, (sqrtExact (f.fbits + 3) 0 e).2.1, false) := by
      unfold sqrtExact
      dsimp only
      rw [Nat.zero_shiftLeft, isqrt_eq, Nat.sqrt_zero]
      rfl
    rw [none] at places
    rw [← Fmt.round_zero (md := md) (e := (sqrtExact (f.fbits + 3) 0 e).2.1)]
    exact Fmt.round_zero_isRounding regular places
  · next nonzero =>
    refine Fmt.round_isRounding regular places fun _ => ?_
    have root : (sqrtExact (f.fbits + 3) m e).1 = Nat.sqrt (m <<< (2 * (f.fbits + 3) + (if e % 2 = 0 then 0 else 1))) :=
      isqrt_eq _
    rw [root, Nat.le_sqrt, ← Nat.pow_add, Nat.shiftLeft_eq]
    exact (Nat.pow_le_pow_right (by decide) (by omega)).trans (Nat.le_mul_of_pos_left _ (Nat.pos_of_ne_zero nonzero))

end

end Sys2Proof.Machine
end

section
/-! Conversions to integers (R54), the NaNs of R52, and the operations on infinities. -/

namespace Sys2Proof.Machine

/-! Roundings to integers -/

section
variable {rm : Rm} {s : Bool} {u : Rat} {k half : Nat} {any : Bool}

/-- A signed integer of a magnitude. -/
def signedInt (s : Bool) (k : Nat) : Int := if s then -(k : Int) else k

theorem abs_sub_signedInt (s : Bool) (u : Rat) (k : Nat) : |(if s then -1 else 1) * u - (signedInt s k : Int)| = |u - k| := by
  cases s
  · simp [signedInt]
  · have : (-1 : Rat) * u - ((-(k : Int) : Int) : Rat) = -(u - k) := by push_cast; ring
    simp only [signedInt, ↓reduceIte, this, abs_neg]

theorem abs_signedInt (s : Bool) (k : Nat) : |((signedInt s k : Int) : Rat)| = k := by
  cases s <;> simp [signedInt]

theorem signedInt_even (s : Bool) (k : Nat) : signedInt s k % 2 = 0 ↔ k % 2 = 0 := by
  cases s
  · exact Int.natCast_mod k 2 ▸ Int.natCast_eq_zero
  · simp only [signedInt, ↓reduceIte]
    omega

/-- The integer that a mode takes from a cut at the units place. -/
def Rm.takes (rm : Rm) (s : Bool) (k half : Nat) (any : Bool) : Nat := if rm.up s (k % 2 == 1) half any then k + 1 else k

theorem Rm.takes_roundsInt (cut : Cut (· < u) (· ≤ u) 1 k half any) (nonneg : 0 ≤ u) :
    rm.RoundsInt ((if s then -1 else 1) * u) (signedInt s (rm.takes s k half any)) := by
  have whole : (k : Rat) ≤ u := by simpa using cut.whole
  have below : u < (k : Rat) + 1 := by simpa using cut.below
  have up_iff := cut.up_iff rm s (k % 2 == 1)
  have middle : ((2 * k + 1 : Nat) : Rat) * (1 / 2) = k + 1 / 2 := by push_cast; ring
  rw [middle, mul_one, beq_iff_eq] at up_iff
  unfold Rm.takes
  generalize rm.up s (k % 2 == 1) half any = up at up_iff ⊢
  cases rm with
  | rne =>
    simp only [Rm.Leaves] at up_iff
    simp only [Rm.RoundsInt, abs_sub_signedInt, signedInt_even]
    cases up with
    | true =>
      have leaves := up_iff.1 rfl
      simp only [↓reduceIte, Nat.cast_add, Nat.cast_one]
      rw [abs_of_neg (by linarith)]
      refine ⟨by rcases leaves with h | h <;> linarith [h], fun half_ => ?_⟩
      rcases leaves with h | ⟨-, odd⟩
      · linarith
      · omega
    | false =>
      have stays := mt up_iff.2 Bool.false_ne_true
      rw [not_or, not_lt] at stays
      simp only [Bool.false_eq_true, ↓reduceIte]
      rw [abs_of_nonneg (by linarith)]
      refine ⟨by linarith [stays.1], fun half_ => ?_⟩
      have := mt (fun odd => And.intro (show (k : Rat) + 1 / 2 ≤ u by linarith) odd) stays.2
      omega
  | rna =>
    simp only [Rm.Leaves] at up_iff
    have size : |(if s then -1 else 1) * u| = u := by cases s <;> simp [abs_of_nonneg nonneg]
    simp only [Rm.RoundsInt, abs_sub_signedInt, abs_signedInt, size]
    cases up with
    | true =>
      have leaves := up_iff.1 rfl
      simp only [↓reduceIte, Nat.cast_add, Nat.cast_one]
      rw [abs_of_neg (by linarith)]
      exact ⟨by linarith, fun _ => below.le⟩
    | false =>
      have stays := not_le.1 (mt up_iff.2 Bool.false_ne_true)
      simp only [Bool.false_eq_true, ↓reduceIte]
      rw [abs_of_nonneg (by linarith)]
      exact ⟨by linarith, fun half_ => by linarith⟩
  | rtz =>
    simp only [Rm.Leaves, iff_false, Bool.not_eq_true] at up_iff
    simp only [Rm.RoundsInt, up_iff, Bool.false_eq_true, ↓reduceIte]
    cases s with
    | false =>
      simp only [signedInt, Bool.false_eq_true, ↓reduceIte, one_mul, Int.cast_natCast]
      rw [if_pos nonneg]
      exact ⟨whole, below⟩
    | true =>
      simp only [signedInt, ↓reduceIte, neg_one_mul, Int.cast_neg, Int.cast_natCast]
      split
      · next zero =>
        have : (0 : Rat) ≤ k := Nat.cast_nonneg k
        exact ⟨by linarith, by linarith⟩
      · exact ⟨by linarith, by linarith⟩
  | rup =>
    simp only [Rm.Leaves] at up_iff
    simp only [Rm.RoundsInt]
    cases s with
    | false =>
      simp only [and_true] at up_iff
      simp only [signedInt, Bool.false_eq_true, ↓reduceIte, one_mul, Int.cast_natCast]
      cases up with
      | true =>
        have := up_iff.1 rfl
        simp only [↓reduceIte, Nat.cast_add, Nat.cast_one]
        exact ⟨below.le, by linarith⟩
      | false =>
        have := not_lt.1 (mt up_iff.2 Bool.false_ne_true)
        exact ⟨this, by simp only [Bool.false_eq_true, ↓reduceIte]; linarith⟩
    | true =>
      simp only [Bool.true_eq_false, and_false, iff_false, Bool.not_eq_true] at up_iff
      simp only [up_iff, signedInt, Bool.false_eq_true, ↓reduceIte, neg_one_mul, Int.cast_neg, Int.cast_natCast]
      exact ⟨by linarith, by linarith⟩
  | rdn =>
    simp only [Rm.Leaves] at up_iff
    simp only [Rm.RoundsInt]
    cases s with
    | true =>
      simp only [and_true] at up_iff
      simp only [signedInt, ↓reduceIte, neg_one_mul, Int.cast_neg, Int.cast_natCast]
      cases up with
      | true =>
        have := up_iff.1 rfl
        simp only [↓reduceIte, Nat.cast_add, Nat.cast_one]
        exact ⟨by linarith, by linarith⟩
      | false =>
        have := not_lt.1 (mt up_iff.2 Bool.false_ne_true)
        simp only [Bool.false_eq_true, ↓reduceIte]
        exact ⟨by linarith, by linarith⟩
    | false =>
      simp only [Bool.false_eq_true, and_false, iff_false, Bool.not_eq_true] at up_iff
      simp only [up_iff, signedInt, Bool.false_eq_true, ↓reduceIte, one_mul, Int.cast_natCast]
      exact ⟨whole, below⟩

/-- The integer taken is the value itself where the cut leaves no rest, and only there. -/
theorem Rm.takes_exact (cut : Cut (· < u) (· ≤ u) 1 k half any) : any = false ↔ (rm.takes s k half any : Rat) = u := by
  have whole : (k : Rat) ≤ u := by simpa using cut.whole
  have below : u < (k : Rat) + 1 := by simpa using cut.below
  have rest : any = true ↔ (k : Rat) < u := by simpa using cut.rest
  cases any with
  | true =>
    have inexact := rest.1 rfl
    refine iff_of_false (by decide) ?_
    unfold Rm.takes
    split
    · push_cast; exact below.ne'
    · exact inexact.ne
  | false =>
    have exact_ : (k : Rat) = u := le_antisymm whole (not_lt.1 (mt rest.2 Bool.false_ne_true))
    have stays : ¬ rm.up s (k % 2 == 1) half false = true := by
      rw [cut.up_iff]
      have middle : ((2 * k + 1 : Nat) : Rat) * (1 / 2) = k + 1 / 2 := by push_cast; ring
      have places : Places (· < u) (· ≤ u) k 0 false := by simpa [exact_] using places_exact k 0
      refine fun leaves => ?_
      have := leaves.inside places (by positivity) (by rw [middle, mul_one]; linarith)
      simp only [mul_one] at this
      linarith
    exact iff_of_true rfl (by rw [Rm.takes, if_neg stays, exact_])

end

theorem toIntSat_fin_eq (rm : Rm) (lo hi : Int) (s : Bool) (m : Nat) (e : Int) : toIntSat rm lo hi (.fin s m e) =
    let c := cutAt m e false 0
    let x := signedInt s (rm.takes s c.1 c.2.1 c.2.2)
    if x < lo then (lo, flNV) else if hi < x then (hi, flNV) else (x, if c.2.2 then flNX else 0) := rfl

/-- A finite value to an integer: rounded, then held in range (R54). -/
theorem toIntSat_fin (rm : Rm) {lo hi : Int} (range : lo < hi) (s : Bool) (m : Nat) (e : Int) :
    ∃ k : Int, rm.RoundsInt (ratOf s m e) k ∧ toIntSat rm lo hi (.fin s m e) =
      (max lo (min hi k), if lo ≤ k ∧ k ≤ hi then (if ratOf s m e = k then 0 else flNX) else flNV) := by
  have cut := cutAt_cut (places_exact m e) (q := 0) fun h => absurd h Bool.false_ne_true
  rw [zpow_zero] at cut
  have rounds := Rm.takes_roundsInt (rm := rm) (s := s) cut (by positivity)
  have exact_ := Rm.takes_exact (rm := rm) (s := s) cut
  refine ⟨signedInt s (rm.takes s (cutAt m e false 0).1 (cutAt m e false 0).2.1 (cutAt m e false 0).2.2), rounds, ?_⟩
  have same : ratOf s m e = ((signedInt s (rm.takes s (cutAt m e false 0).1 (cutAt m e false 0).2.1 (cutAt m e false 0).2.2) : Int)
      : Rat) ↔ (cutAt m e false 0).2.2 = false := by
    rw [exact_]
    cases s
    · simp [ratOf_false, signedInt, eq_comm]
    · simp [ratOf_true, signedInt, eq_comm]
  rw [toIntSat_fin_eq]
  dsimp only
  generalize signedInt s _ = k at same ⊢
  have flag : (if (cutAt m e false 0).2.2 then flNX else 0) = if ratOf s m e = k then 0 else flNX := by
    cases any : (cutAt m e false 0).2.2 with
    | true => rw [if_neg (mt same.1 (by rw [any]; decide))]; rfl
    | false => rw [if_pos (same.2 any)]; rfl
  rw [flag]
  split
  · next low => rw [if_neg (by omega), max_eq_left (by omega)]
  · split
    · next high => rw [if_neg (by omega), min_eq_left (by omega), max_eq_right (by omega)]
    · rw [if_pos (show lo ≤ k ∧ k ≤ hi by omega), min_eq_right (by omega), max_eq_right (by omega)]

end Sys2Proof.Machine
end

section
/-! Floating operations (R49, R50, R52, R53, R54, R76, R77, R79, R121), operand by operand: NaNs, finite values, infinities. -/

namespace Sys2Proof.Machine

section
variable {f g : Fmt} {md : Mode} {x y z : Nat}

/-! NaN operands -/

theorem Fmt.signals_of_number (h : f.isNanCode x = false) : f.signals x = false := by
  unfold Fmt.signals
  rw [h, Bool.and_false, Bool.false_and]

/-- What is read of an operand is a NaN where its code is one, and signals where it does. -/
theorem Fmt.nan_read (known : f ∈ Fmt.known) (x : Nat) :
    (f.read md x).isNan = f.isNanCode x ∧ (f.read md x).isSnan = f.signals x := by
  cases nan : f.isNanCode x with
  | true => exact Fmt.read_nan known nan ▸ ⟨rfl, rfl⟩
  | false =>
    rw [Fmt.signals_of_number nan, Fmt.read, Fmt.decode_eq known, Fmt.isNanCode_daz known, nan]
    split <;> exact ⟨rfl, rfl⟩

theorem Fmt.isNan_read (known : f ∈ Fmt.known) (x : Nat) : (f.read md x).isNan = f.isNanCode x := (Fmt.nan_read known x).1

theorem Fmt.isSnan_read (known : f ∈ Fmt.known) (x : Nat) : (f.read md x).isSnan = f.signals x := (Fmt.nan_read known x).2

/-- A fraction bit set in front of exponent and sign. -/
theorem or_above {n a b c : Nat} (hb : b < 2 ^ n) (hc : c < 2 ^ n) : (2 ^ n * a + b) ||| c = 2 ^ n * a + (b ||| c) := by
  have both := Nat.or_lt_two_pow hb hc
  rw [Nat.mul_comm, ← Nat.shiftLeft_eq, Nat.shiftLeft_add_eq_or_of_lt hb, Nat.or_assoc, ← Nat.shiftLeft_add_eq_or_of_lt both]

theorem Fmt.exists_signBit (f : Fmt) (s : Bool) : ∃ a, f.signBit s = 2 ^ f.fbits * a := by
  cases s
  · exact ⟨0, rfl⟩
  · refine ⟨2 ^ f.ebits, ?_⟩
    rw [← Nat.pow_add, Nat.add_comm, ← f.width_sub_one]
    rfl

/-- A NaN's magnitude bits (R45). -/
theorem Fmt.mag_of_nan (h : f.isNanCode x = true) :
    (f.special = .e4m3 → f.mag x = 0x7F) ∧
      (f.Infinite → f.mag x = f.infMag + x % 2 ^ f.fbits ∧ x % 2 ^ f.fbits ≠ 0) ∧ f.special ≠ .e2m1 := by
  refine ⟨fun kind => ?_, fun infinite => ?_, fun kind => ?_⟩
  · simpa [Fmt.isNanCode, kind] using h
  · have above : f.infMag < f.mag x := by
      unfold Fmt.isNanCode at h
      rcases infinite with kind | kind <;> simpa [kind] using h
    have fields := Fmt.fraction_of_full ((f.exponent_full x).2 above.le)
    rw [f.fraction_eq]
    exact ⟨fields, by omega⟩
  · simp [Fmt.isNanCode, kind] at h

/-- A NaN in its own format (R52): made quiet, or the default one. -/
theorem Fmt.nanOf_same (known : f ∈ Fmt.known) (bound : x < 2 ^ f.width) (h : f.isNanCode x = true) :
    f.nanOf md (f.sign x) (x % 2 ^ f.fbits) f.fbits = if md.dn then f.defaultNan else f.quieted x := by
  obtain ⟨e4m3, infinite, notE2m1⟩ := Fmt.mag_of_nan h
  have parts := f.pattern_eq bound
  have fraction := (Fmt.regular known).fraction
  unfold Fmt.nanOf
  by_cases dn : md.dn
  · rw [if_pos dn, if_pos dn]
  rw [if_neg dn, if_neg dn]
  cases kind : f.special with
  | ieee =>
    obtain ⟨mag, -⟩ := infinite (.inl kind)
    obtain ⟨a, sign⟩ := f.exists_signBit (f.sign x)
    have small := Nat.mod_lt x (Nat.two_pow_pos f.fbits)
    have quiet : 2 ^ (f.fbits - 1) < 2 ^ f.fbits := Nat.pow_lt_pow_right (by decide) (by omega)
    have front : f.signBit (f.sign x) + f.infMag = 2 ^ f.fbits * (a + (2 ^ f.ebits - 1)) := by
      rw [sign, Fmt.infMag, Nat.mul_add, Nat.mul_comm (2 ^ f.ebits - 1)]
    have shape : x = 2 ^ f.fbits * (a + (2 ^ f.ebits - 1)) + x % 2 ^ f.fbits := by
      rw [← front, Nat.add_assoc, ← mag]
      exact parts
    have quieted : f.quieted x = x ||| 2 ^ (f.fbits - 1) := if_pos kind
    have unshifted : (if f.fbits ≤ f.fbits then (x % 2 ^ f.fbits) <<< (f.fbits - f.fbits) else (x % 2 ^ f.fbits) >>> (f.fbits - f.fbits)) =
        x % 2 ^ f.fbits := by
      rw [if_pos le_rfl, Nat.sub_self]
      rfl
    have result := or_above (a := a + (2 ^ f.ebits - 1)) small quiet
    rw [← shape] at result
    dsimp only
    rw [quieted, unshifted, f.signed_eq, result, ← Nat.add_assoc, front]
  | e5m2 =>
    obtain rfl := (Fmt.eq_of_special known).1 kind
    obtain ⟨mag, nonzero⟩ := infinite (.inr kind)
    have shape : Fmt.e5m2.signed (Fmt.e5m2.sign x) (Fmt.e5m2.infMag + x % 2 ^ Fmt.e5m2.fbits) = x := by
      rw [Fmt.signed_eq, ← mag]
      exact parts.symm
    have chosen : (if x % 2 ^ 2 = 0 then 2 else x % 2 ^ 2) = x % 2 ^ 2 := if_neg nonzero
    show Fmt.e5m2.signed (Fmt.e5m2.sign x) (Fmt.e5m2.infMag + if x % 2 ^ 2 = 0 then 2 else x % 2 ^ 2) = x
    rw [chosen]
    exact shape
  | e4m3 =>
    have quieted : f.quieted x = x := if_neg (by rw [kind]; decide)
    dsimp only
    rw [quieted, f.signed_eq, ← e4m3 kind]
    exact parts.symm
  | e2m1 => exact absurd kind notE2m1

/-- The result of an operation with a NaN among its operands (R52). -/
theorem Fmt.nanResult_read (known : f ∈ Fmt.known) (md' : Mode) (ops : List Nat) (bound : ∀ a ∈ ops, a < 2 ^ f.width)
    (some_nan : ∃ a ∈ ops, f.isNanCode a = true) : f.nanResult md (ops.map (f.read md')) = f.nanFrom md ops := by
  have isNan : FVal.isNan ∘ f.read md' = f.isNanCode := funext (Fmt.isNan_read known)
  have isSnan : FVal.isSnan ∘ f.read md' = f.signals := funext (Fmt.isSnan_read known)
  obtain ⟨a, first⟩ : ∃ a, ops.find? f.isNanCode = some a :=
    Option.isSome_iff_exists.1 (List.find?_isSome.2 (by simpa using some_nan))
  have nan := List.find?_some first
  have notE2m1 := (Fmt.mag_of_nan nan).2.2
  unfold Fmt.nanResult Fmt.nanFrom
  rw [List.find?_map, List.any_map, isNan, isSnan, first, beq_false_of_ne notE2m1, Bool.or_false]
  dsimp only [Option.map_some, Option.getD_some]
  rw [Fmt.read_nan known nan, Fmt.nan]
  dsimp only
  rw [show a.testBit (f.width - 1) = f.sign a from rfl,
    Fmt.nanOf_same known (bound a (List.mem_of_find?_eq_some first)) nan]

theorem FVal.negate_of_isNan {a : FVal} (h : a.isNan = true) : a.negate = a := by
  cases a with
  | nan => rfl
  | inf => exact absurd h Bool.false_ne_true
  | fin => exact absurd h Bool.false_ne_true

theorem FVal.isNan_negate (a : FVal) : a.negate.isNan = a.isNan := by cases a <;> rfl

theorem Fmt.nanResult_negate (f : Fmt) (md : Mode) (a b : FVal) : f.nanResult md [a, b.negate] = f.nanResult md [a, b] := by
  cases a <;> cases b <;> rfl

theorem Fmt.addVals_nan {a b : FVal} (h : a.isNan = true ∨ b.isNan = true) : f.addVals md a b = f.nanResult md [a, b] := by
  cases a with
  | nan => rfl
  | inf | fin => cases b with
    | nan => rfl
    | inf | fin => exact absurd h (by simp [FVal.isNan])

theorem Fmt.mulVals_nan {a b : FVal} (h : a.isNan = true ∨ b.isNan = true) : f.mulVals md a b = f.nanResult md [a, b] := by
  cases a with
  | nan => rfl
  | inf | fin => cases b with
    | nan => rfl
    | inf | fin => exact absurd h (by simp [FVal.isNan])

theorem Fmt.div_nan (h : (f.read md x).isNan = true ∨ (f.read md y).isNan = true) :
    f.div md x y = f.nanResult md [f.read md x, f.read md y] := by
  unfold Fmt.div
  generalize f.read md x = a at h ⊢
  generalize f.read md y = b at h ⊢
  cases a with
  | nan => rfl
  | inf | fin => cases b with
    | nan => rfl
    | inf | fin => exact absurd h (by simp [FVal.isNan])

theorem Fmt.fmaVals_nan {a b c : FVal} (h : a.isNan = true ∨ b.isNan = true) :
    f.fmaVals md false false a b c = f.nanResult md [a, b, c] := by
  cases a with
  | nan => cases b <;> rfl
  | inf | fin => cases b with
    | nan => rfl
    | inf | fin => exact absurd h (by simp [FVal.isNan])

section
variable (known : f ∈ Fmt.known) (hx : x < 2 ^ f.width) (hy : y < 2 ^ f.width)
include known hx hy

theorem Fmt.nanResult_two (h : f.isNanCode x = true ∨ f.isNanCode y = true) :
    f.nanResult md [f.read md x, f.read md y] = f.nanFrom md [x, y] :=
  Fmt.nanResult_read known md [x, y] (by simp [hx, hy]) (by simpa using h)

/-- A NaN operand gives the NaN of R52. -/
theorem Fmt.operations_nan (hz : z < 2 ^ f.width) (h : f.isNanCode x = true ∨ f.isNanCode y = true) :
    (∀ op ∈ [Fmt.add, Fmt.sub, Fmt.mul, Fmt.div], op f md x y = f.nanFrom md [x, y]) ∧
      f.fmaVals md false false (f.read md x) (f.read md y) (f.read md z) = f.nanFrom md [x, y, z] ∧
      (f.cmp md x y).un = true ∧ (f.cmp md x y).lt = false ∧ (f.cmp md x y).eq = false := by
  have reads : (f.read md x).isNan = true ∨ (f.read md y).isNan = true := by
    rwa [Fmt.isNan_read known, Fmt.isNan_read known]
  have two := Fmt.nanResult_two known hx hy (md := md) h
  have un : ((f.read md x).isNan || (f.read md y).isNan) = true := Bool.or_eq_true_iff.2 reads
  refine ⟨?_, ?_, un, ?_, ?_⟩
  · intro op among
    simp only [List.mem_cons, List.not_mem_nil, or_false] at among
    rcases among with rfl | rfl | rfl | rfl
    · rw [Fmt.add, Fmt.addVals_nan reads, two]
    · rw [Fmt.sub, Fmt.addVals_nan (by rwa [FVal.isNan_negate]), Fmt.nanResult_negate, two]
    · rw [Fmt.mul, Fmt.mulVals_nan reads, two]
    · rw [Fmt.div_nan reads, two]
  · rw [Fmt.fmaVals_nan reads]
    refine Fmt.nanResult_read known md [x, y, z] (by simp [hx, hy, hz]) ?_
    rcases h with nan | nan
    · exact ⟨x, by simp, nan⟩
    · exact ⟨y, by simp, nan⟩
  · unfold Fmt.cmp
    dsimp only
    rw [un]
    rfl
  · unfold Fmt.cmp
    dsimp only
    rw [un]
    rfl

end

theorem Fmt.cmp_snan (known : f ∈ Fmt.known) : (f.cmp md x y).snan = (f.signals x || f.signals y) := by
  rw [← Fmt.isSnan_read known (md := md) x, ← Fmt.isSnan_read known (md := md) y]
  rfl

/-- Minimum and maximum drop one NaN (R52). -/
theorem Fmt.minmax_nan (known : f ∈ Fmt.known) (hx : x < 2 ^ f.width) (hy : y < 2 ^ f.width) (h : f.isNanCode x = true)
    (most : Bool) :
    (f.isNanCode y = true → f.minmax md most x y = f.nanFrom md [x, y]) ∧
      (f.isNanCode y = false → f.minmax md most x y = ⟨f.daz md y, if f.signals x then flNV else 0⟩ ∧
        f.minmax md most y x = ⟨f.daz md y, if f.signals x then flNV else 0⟩) := by
  have nanX : (f.decode (f.daz md x)).isNan = true := (Fmt.isNan_read known x).trans h
  have signalsX : (f.decode (f.daz md x)).isSnan = f.signals x := Fmt.isSnan_read known x
  have nanY : (f.decode (f.daz md y)).isNan = f.isNanCode y := Fmt.isNan_read known y
  have signalsY : (f.decode (f.daz md y)).isSnan = f.signals y := Fmt.isSnan_read known y
  refine ⟨fun nan => ?_, fun number => ?_⟩
  · have two := Fmt.nanResult_two known hx hy (md := md) (.inl h)
    unfold Fmt.minmax
    dsimp only
    rw [nanX, nanY, nan]
    exact two
  · unfold Fmt.minmax
    dsimp only
    rw [nanX, nanY, number, signalsX, signalsY, Fmt.signals_of_number number, Bool.or_false, Bool.false_or]
    exact ⟨rfl, rfl⟩

theorem Fmt.sqrt_nan (known : f ∈ Fmt.known) (hx : x < 2 ^ f.width) (h : f.isNanCode x = true) :
    f.sqrt md x = f.nanFrom md [x] := by
  rw [← Fmt.nanResult_read known md [x] (by simpa using hx) (by simpa using h)]
  unfold Fmt.sqrt
  rw [List.map_singleton, Fmt.read_nan known h]
  rfl

/-! Finite operands -/

section
variable (known : f ∈ Fmt.known) (finX : f.isFinite (f.daz md x) = true) (finY : f.isFinite (f.daz md y) = true)
include known finX finY

/-- Sums, differences and products of finite operands (R49). -/
theorem Fmt.sums_finite :
    f.Rounds md (f.add md x y) (f.value (f.daz md x) + f.value (f.daz md y)) ∧
      f.Rounds md (f.sub md x y) (f.value (f.daz md x) - f.value (f.daz md y)) ∧
      f.Rounds md (f.mul md x y) (f.value (f.daz md x) * f.value (f.daz md y)) ∧
      (f.value (f.daz md x) + f.value (f.daz md y) = 0 → f.add md x y = f.zeroOf md (f.sign x) (f.sign y)) ∧
      (f.value (f.daz md x) - f.value (f.daz md y) = 0 → f.sub md x y = f.zeroOf md (f.sign x) (!f.sign y)) ∧
      (f.value (f.daz md x) * f.value (f.daz md y) = 0 → f.mul md x y = ⟨f.signBit (f.sign x ^^ f.sign y), 0⟩) := by
  have regular := Fmt.regular known
  obtain ⟨m, e, readX, valueX⟩ := Fmt.read_finite known finX
  obtain ⟨n, i, readY, valueY⟩ := Fmt.read_finite known finY
  have negated : -f.value (f.daz md y) = ratOf (!f.sign y) n i := by rw [ratOf_not, valueY]
  obtain ⟨sum, sumZero⟩ := Fmt.addExact_rounds (f := f) (md := md) regular valueX valueY
  obtain ⟨difference, differenceZero⟩ := Fmt.addExact_rounds (f := f) (md := md) regular valueX negated
  obtain ⟨product, productZero⟩ := Fmt.mul_rounds (f := f) (md := md) regular valueX valueY
  rw [← sub_eq_add_neg] at difference differenceZero
  have add_eq : f.add md x y = f.addVals md (.fin (f.sign x) m e) (.fin (f.sign y) n i) := by rw [Fmt.add, readX, readY]
  have sub_eq : f.sub md x y = f.addVals md (.fin (f.sign x) m e) (.fin (!f.sign y) n i) := by
    rw [Fmt.sub, readX, readY]
    rfl
  have mul_eq : f.mul md x y = f.mulVals md (.fin (f.sign x) m e) (.fin (f.sign y) n i) := by rw [Fmt.mul, readX, readY]
  rw [add_eq, sub_eq, mul_eq]
  exact ⟨sum, difference, product, sumZero, differenceZero, productZero⟩

/-- Fused sums of finite operands (R76). -/
theorem Fmt.fma_finite (finZ : f.isFinite (f.daz md z) = true) :
    f.Rounds md (f.fmaVals md false false (f.read md x) (f.read md y) (f.read md z))
        (f.value (f.daz md x) * f.value (f.daz md y) + f.value (f.daz md z)) ∧
      (f.value (f.daz md x) * f.value (f.daz md y) + f.value (f.daz md z) = 0 →
        f.fmaVals md false false (f.read md x) (f.read md y) (f.read md z) =
          f.zeroOf md (f.sign x ^^ f.sign y) (f.sign z)) := by
  obtain ⟨m, e, readX, valueX⟩ := Fmt.read_finite known finX
  obtain ⟨n, i, readY, valueY⟩ := Fmt.read_finite known finY
  obtain ⟨k, j, readZ, valueZ⟩ := Fmt.read_finite known finZ
  have product : f.value (f.daz md x) * f.value (f.daz md y) = ratOf (f.sign x ^^ f.sign y) (m * n) (e + i) := by
    rw [valueX, valueY, ← ratOf_mul]
  obtain ⟨sum, sumZero⟩ := Fmt.addExact_rounds (f := f) (md := md) (Fmt.regular known) product valueZ
  have eq : f.fmaVals md false false (f.read md x) (f.read md y) (f.read md z) =
      let r := addExact md (f.sign x ^^ f.sign y) (m * n) (e + i) (f.sign z) k j
      f.round md r.1 r.2.1 r.2.2 := by
    have plain : ((f.sign x != f.sign y) != false) = (f.sign x ^^ f.sign y) := by simp
    rw [readX, readY, readZ, ← plain]
    rfl
  rw [eq]
  exact ⟨sum, sumZero⟩

/-- Quotients of finite operands (R76). -/
theorem Fmt.div_finite :
    (f.value (f.daz md y) ≠ 0 → f.IsRounding md (f.sign x ^^ f.sign y) (fun q => q * |f.value (f.daz md y)| < |f.value (f.daz md x)|)
        (fun q => q * |f.value (f.daz md y)| ≤ |f.value (f.daz md x)|) (f.div md x y)) ∧
      (f.value (f.daz md y) = 0 → f.div md x y =
        if f.value (f.daz md x) = 0 then f.invalid else ⟨f.signBit (f.sign x ^^ f.sign y) + f.infMag, flDZ⟩) := by
  obtain ⟨m, e, readX, valueX⟩ := Fmt.read_finite known finX
  obtain ⟨n, i, readY, valueY⟩ := Fmt.read_finite known finY
  rw [valueX, valueY, abs_ratOf, abs_ratOf]
  unfold Fmt.div
  rw [readX, readY]
  dsimp only
  rw [Ne, ratOf_eq_zero, f.signed_eq, f.signed_eq, Nat.add_zero]
  refine ⟨fun nonzero => ?_, fun zero => ?_⟩
  · rw [if_neg nonzero]
    exact Fmt.div_isRounding (Fmt.regular known) nonzero
  · rw [if_pos zero]
    by_cases dividend : m = 0
    · rw [if_pos dividend, if_pos (ratOf_eq_zero.2 dividend)]
    · rw [if_neg dividend, if_neg (mt ratOf_eq_zero.1 dividend)]

/-- Finite operands are compared as numbers (R79). -/
theorem Fmt.cmp_finite :
    (f.cmp md x y).un = false ∧ ((f.cmp md x y).lt = true ↔ f.value (f.daz md x) < f.value (f.daz md y)) ∧
      ((f.cmp md x y).eq = true ↔ f.value (f.daz md x) = f.value (f.daz md y)) := by
  obtain ⟨m, e, readX, valueX⟩ := Fmt.read_finite known finX
  obtain ⟨n, i, readY, valueY⟩ := Fmt.read_finite known finY
  have forth := FVal.lt_fin (s := f.sign x) (t := f.sign y) (m := m) (n := n) (e := e) (g := i)
  have back := FVal.lt_fin (s := f.sign y) (t := f.sign x) (m := n) (n := m) (e := i) (g := e)
  unfold Fmt.cmp
  rw [readX, readY, valueX, valueY]
  refine ⟨rfl, ?_, ?_⟩
  · simpa [FVal.isNan] using forth
  · simp only [FVal.isNan, Bool.or_self, Bool.not_false, Bool.true_and, Bool.and_eq_true, Bool.not_eq_true', ← Bool.not_eq_true, forth,
      back, not_lt]
    exact ⟨fun h => le_antisymm h.2 h.1, fun h => ⟨h.ge, h.le⟩⟩

/-- The lesser and the greater of finite operands, −0 below +0 (R52). -/
theorem Fmt.minmax_finite (hx : x < 2 ^ f.width) (hy : y < 2 ^ f.width) :
    f.minmax md false x y = ⟨if f.value (f.daz md x) < f.value (f.daz md y) ∨
        f.value (f.daz md x) = f.value (f.daz md y) ∧ f.sign x = true then f.daz md x else f.daz md y, 0⟩ ∧
      f.minmax md true x y = ⟨if f.value (f.daz md y) < f.value (f.daz md x) ∨
        f.value (f.daz md x) = f.value (f.daz md y) ∧ f.sign x = false then f.daz md x else f.daz md y, 0⟩ := by
  obtain ⟨m, e, readX, valueX⟩ := Fmt.read_finite known finX
  obtain ⟨n, i, readY, valueY⟩ := Fmt.read_finite known finY
  have same (value : f.value (f.daz md x) = f.value (f.daz md y)) (sign : f.sign x = f.sign y) : f.daz md x = f.daz md y :=
    Fmt.value_injective (f.daz_lt md hx) (f.daz_lt md hy) (by rw [f.sign_daz, f.sign_daz, sign]) value
  have forth := FVal.lt_fin (s := f.sign x) (t := f.sign y) (m := m) (n := n) (e := e) (g := i)
  have back := FVal.lt_fin (s := f.sign y) (t := f.sign x) (m := n) (n := m) (e := i) (g := e)
  rw [← valueX, ← valueY] at forth back
  rw [Fmt.read] at readX readY
  unfold Fmt.minmax
  dsimp only
  rw [readX, readY]
  simp only [FVal.isNan, FVal.sign]
  rcases lt_trichotomy (f.value (f.daz md x)) (f.value (f.daz md y)) with less | equal | greater
  · have notBack := Bool.eq_false_iff.2 (mt back.1 less.not_gt)
    rw [forth.2 less, notBack]
    simp [less, less.not_gt, less.ne]
  · have notForth := Bool.eq_false_iff.2 (mt forth.1 equal.not_lt)
    have notBack := Bool.eq_false_iff.2 (mt back.1 equal.not_gt)
    rw [notForth, notBack]
    cases sx : f.sign x with
    | false => simp [equal]
    | true =>
      cases sy : f.sign y with
      | false => simp [equal]
      | true => simp [same equal (sx.trans sy.symm)]
  · have notForth := Bool.eq_false_iff.2 (mt forth.1 greater.not_gt)
    rw [back.2 greater, notForth]
    simp [greater, greater.not_gt, greater.ne']

end

/-- The square root of a finite operand (R76). -/
theorem Fmt.sqrt_finite (known : f ∈ Fmt.known) (finX : f.isFinite (f.daz md x) = true) :
    (0 ≤ f.value (f.daz md x) → f.IsRounding md (f.sign x) (fun q => q * q < f.value (f.daz md x))
        (fun q => q * q ≤ f.value (f.daz md x)) (f.sqrt md x)) ∧
      (f.value (f.daz md x) < 0 → f.sqrt md x = f.invalid) := by
  obtain ⟨m, e, readX, valueX⟩ := Fmt.read_finite known finX
  have rounding := Fmt.sqrt_isRounding (md := md) (s := f.sign x) (m := m) (e := e) (Fmt.regular known)
  have nonneg : (0 : Rat) ≤ m * 2 ^ e := by positivity
  rw [valueX]
  unfold Fmt.sqrt
  rw [readX]
  dsimp only
  rw [f.signed_eq, Nat.add_zero]
  by_cases zero : m = 0
  · have value : ratOf (f.sign x) m e = m * 2 ^ e := by rw [ratOf_eq_zero.2 zero, zero, Nat.cast_zero, zero_mul]
    rw [if_pos zero] at rounding ⊢
    rw [value]
    exact ⟨fun _ => rounding, fun negative => absurd negative (not_lt.2 nonneg)⟩
  · have positive : (0 : Rat) < m * 2 ^ e := by positivity
    rw [if_neg zero] at rounding ⊢
    cases sign : f.sign x with
    | true =>
      rw [ratOf_true]
      exact ⟨fun h => by linarith, fun _ => rfl⟩
    | false =>
      rw [ratOf_false]
      rw [sign] at rounding
      exact ⟨fun _ => rounding, fun negative => absurd negative (not_lt.2 nonneg)⟩

end

end Sys2Proof.Machine
end

section
/-! Floating operations, continued: infinities (R52, R53, R76) and conversions (R54, R77, R121). -/

namespace Sys2Proof.Machine

section
variable {f g : Fmt} {md : Mode} {x y z : Nat}

/-! Infinities -/

theorem FVal.lt_inf (s t : Bool) : (FVal.inf s).lt (.inf t) = (s && !t) := rfl

theorem FVal.inf_lt_fin (s t : Bool) (m : Nat) (e : Int) : (FVal.inf s).lt (.fin t m e) = s := rfl

theorem FVal.fin_lt_inf (s t : Bool) (m : Nat) (e : Int) : (FVal.fin t m e).lt (.inf s) = !s := rfl

theorem Fmt.sign_inf (f : Fmt) (s : Bool) : f.sign (f.inf s) = s := f.testBit_signBit_add s Fmt.infMag_lt

theorem Fmt.inf_inj {s t : Bool} : f.inf s = f.inf t ↔ s = t :=
  ⟨fun h => by rw [← f.sign_inf s, h, f.sign_inf], congrArg f.inf⟩

theorem Fmt.inf_not_finite (infinite : f.Infinite) (known : f ∈ Fmt.known) (s : Bool) : f.isFinite (f.inf s) = false := by
  have next := (Fmt.regular known).next infinite
  refine decide_eq_false ?_
  rw [Fmt.inf, f.mag_signBit_add s Fmt.infMag_lt]
  omega

theorem Fmt.ne_inf (infinite : f.Infinite) (known : f ∈ Fmt.known) (finY : f.isFinite (f.daz md y) = true) (s : Bool) :
    y ≠ f.inf s := by
  rintro rfl
  rw [Fmt.daz_inf known, Fmt.inf_not_finite infinite known] at finY
  exact Bool.false_ne_true finY

/-- An infinity as a result, unless saturation replaces it. -/
theorem Fmt.infinity_eq (infinite : f.Infinite) (sat : md.sat = false) (s : Bool) : f.infinity md s = ⟨f.inf s, 0⟩ := by
  unfold Fmt.infinity
  rw [sat, f.signed_eq]
  rcases infinite with kind | kind <;> rw [kind] <;> rfl

section
variable (infinite : f.Infinite) (known : f ∈ Fmt.known)
include infinite known

/-- An infinity is compared with a number (R79). -/
theorem Fmt.cmp_inf (hy : y < 2 ^ f.width) (number : f.isNanCode y = false) (s : Bool) :
    (f.cmp md (f.inf s) y).un = false ∧ ((f.cmp md (f.inf s) y).lt = true ↔ s = true ∧ y ≠ f.inf true) ∧
      ((f.cmp md (f.inf s) y).eq = true ↔ y = f.inf s) ∧ ((f.cmp md y (f.inf s)).lt = true ↔ s = false ∧ y ≠ f.inf false) := by
  have readInf := Fmt.read_inf (md := md) infinite known
  unfold Fmt.cmp
  rw [readInf]
  rcases Fmt.finite_or_inf (md := md) infinite known hy number with finY | ⟨t, rfl⟩
  · obtain ⟨m, e, readY, -⟩ := Fmt.read_finite known finY
    have other := Fmt.ne_inf infinite known finY
    rw [readY]
    cases s <;> simp [FVal.isNan, FVal.inf_lt_fin, FVal.fin_lt_inf, other]
  · rw [readInf]
    cases s <;> cases t <;> simp [FVal.isNan, FVal.lt_inf, Fmt.inf_inj]

/-- Minimum and maximum of an infinity and a number (R52). -/
theorem Fmt.minmax_inf (hy : y < 2 ^ f.width) (number : f.isNanCode y = false) (s most : Bool) :
    f.minmax md most (f.inf s) y = ⟨if s = most then f.daz md y else f.inf s, 0⟩ ∧
      f.minmax md most y (f.inf s) = ⟨if s = most then f.daz md y else f.inf s, 0⟩ := by
  have decodeInf (t : Bool) : f.decode (f.inf t) = .inf t := Fmt.decode_inf infinite known t
  unfold Fmt.minmax
  rw [Fmt.daz_inf known]
  dsimp only
  rw [decodeInf]
  rcases Fmt.finite_or_inf (md := md) infinite known hy number with finY | ⟨t, rfl⟩
  · obtain ⟨m, e, readY, -⟩ := Fmt.read_finite known finY
    rw [Fmt.read] at readY
    rw [readY]
    cases s <;> cases most <;> simp [FVal.isNan, FVal.sign, FVal.inf_lt_fin, FVal.fin_lt_inf]
  · rw [Fmt.daz_inf known, decodeInf]
    cases s <;> cases t <;> cases most <;> simp [FVal.isNan, FVal.sign, FVal.lt_inf]

/-- Zero times an infinity, and opposite infinities (R76). -/
theorem Fmt.invalid_inf (s : Bool) :
    (f.isFinite (f.daz md y) = true → f.value (f.daz md y) = 0 →
      f.mul md (f.inf s) y = f.invalid ∧ f.mul md y (f.inf s) = f.invalid ∧
      f.fmaVals md false false (f.read md (f.inf s)) (f.read md y) (f.read md z) = f.invalid ∧
      f.fmaVals md false false (f.read md y) (f.read md (f.inf s)) (f.read md z) = f.invalid) ∧
    f.add md (f.inf s) (f.inf !s) = f.invalid ∧ f.sub md (f.inf s) (f.inf s) = f.invalid ∧
    (f.isFinite (f.daz md y) = true → f.value (f.daz md y) ≠ 0 →
      f.fmaVals md false false (f.read md (f.inf s)) (f.read md y) (f.read md (f.inf !(s ^^ f.sign y))) = f.invalid ∧
      f.fmaVals md false false (f.read md y) (f.read md (f.inf s)) (f.read md (f.inf !(s ^^ f.sign y))) = f.invalid) := by
  have readInf := Fmt.read_inf (md := md) infinite known
  refine ⟨fun finY zero => ?_, ?_, ?_, fun finY nonzero => ?_⟩
  · obtain ⟨m, e, readY, valueY⟩ := Fmt.read_finite known finY
    obtain rfl := ratOf_eq_zero.1 (valueY.symm.trans zero)
    rw [Fmt.mul, Fmt.mul, readInf, readY]
    exact ⟨rfl, rfl, rfl, rfl⟩
  · rw [Fmt.add, readInf, readInf]
    cases s <;> rfl
  · rw [Fmt.sub, readInf]
    cases s <;> rfl
  · obtain ⟨m, e, readY, valueY⟩ := Fmt.read_finite known finY
    have m_ne := mt ratOf_eq_zero.2 (valueY ▸ nonzero)
    rw [readInf, readInf, readY]
    unfold Fmt.fmaVals
    simp only [m_ne, beq_iff_eq, Bool.false_eq_true, ↓reduceIte]
    cases s <;> cases f.sign y <;> exact ⟨rfl, rfl⟩

/-- Quotients and roots of infinities (R76). -/
theorem Fmt.div_sqrt_inf (s : Bool) :
    (∀ u, f.div md (f.inf s) (f.inf u) = f.invalid) ∧ f.sqrt md (f.inf true) = f.invalid ∧
      (f.isFinite (f.daz md y) = true → f.div md y (f.inf s) = ⟨f.signBit (s ^^ f.sign y), 0⟩) := by
  have readInf := Fmt.read_inf (md := md) infinite known
  refine ⟨fun u => ?_, ?_, fun finY => ?_⟩
  · rw [Fmt.div, readInf, readInf]
  · rw [Fmt.sqrt, readInf]
    rfl
  · obtain ⟨m, e, readY, -⟩ := Fmt.read_finite known finY
    rw [Fmt.div, readInf, readY]
    show (⟨f.signed (f.sign y != s) 0, 0⟩ : FRes) = _
    rw [f.signed_eq, Nat.add_zero, Bool.xor_comm]

/-- Infinities as results (R76), where saturation does not replace them. -/
theorem Fmt.results_inf (sat : md.sat = false) (s : Bool) :
    f.add md (f.inf s) (f.inf s) = ⟨f.inf s, 0⟩ ∧ f.sub md (f.inf s) (f.inf !s) = ⟨f.inf s, 0⟩ ∧
      (∀ u, f.mul md (f.inf s) (f.inf u) = ⟨f.inf (s ^^ u), 0⟩) ∧ f.sqrt md (f.inf false) = ⟨f.inf false, 0⟩ := by
  have readInf := Fmt.read_inf (md := md) infinite known
  have result := Fmt.infinity_eq infinite sat
  simp only [← result]
  refine ⟨?_, ?_, fun u => ?_, ?_⟩
  · rw [Fmt.add, readInf]
    exact if_pos rfl
  · rw [Fmt.sub, readInf, readInf]
    exact if_pos (Bool.not_not s).symm
  · rw [Fmt.mul, readInf, readInf]
    rfl
  · rw [Fmt.sqrt, readInf]
    rfl

/-- The same with a finite operand beside the infinity. -/
theorem Fmt.results_inf_finite (sat : md.sat = false) (s : Bool) (finY : f.isFinite (f.daz md y) = true) :
    f.add md (f.inf s) y = ⟨f.inf s, 0⟩ ∧ f.add md y (f.inf s) = ⟨f.inf s, 0⟩ ∧ f.sub md (f.inf s) y = ⟨f.inf s, 0⟩ ∧
      f.sub md y (f.inf s) = ⟨f.inf !s, 0⟩ ∧
      (f.value (f.daz md y) ≠ 0 → f.mul md (f.inf s) y = ⟨f.inf (s ^^ f.sign y), 0⟩ ∧
        f.mul md y (f.inf s) = ⟨f.inf (s ^^ f.sign y), 0⟩ ∧
        (f.isFinite (f.daz md z) = true →
          f.fmaVals md false false (f.read md (f.inf s)) (f.read md y) (f.read md z) = ⟨f.inf (s ^^ f.sign y), 0⟩ ∧
          f.fmaVals md false false (f.read md y) (f.read md (f.inf s)) (f.read md z) = ⟨f.inf (s ^^ f.sign y), 0⟩)) ∧
      (f.isFinite (f.daz md x) = true →
        f.fmaVals md false false (f.read md x) (f.read md y) (f.read md (f.inf s)) = ⟨f.inf s, 0⟩) ∧
      f.div md (f.inf s) y = ⟨f.inf (s ^^ f.sign y), 0⟩ := by
  have readInf := Fmt.read_inf (md := md) infinite known
  obtain ⟨m, e, readY, valueY⟩ := Fmt.read_finite known finY
  simp only [← Fmt.infinity_eq infinite sat]
  have mul_eq (nonzero : f.value (f.daz md y) ≠ 0) : ¬ m = 0 := mt ratOf_eq_zero.2 (valueY ▸ nonzero)
  refine ⟨?_, ?_, ?_, ?_, fun nonzero => ⟨?_, ?_, fun finZ => ?_⟩, fun finX => ?_, ?_⟩
  · rw [Fmt.add, readInf, readY]
    rfl
  · rw [Fmt.add, readInf, readY]
    rfl
  · rw [Fmt.sub, readInf, readY]
    rfl
  · rw [Fmt.sub, readInf, readY]
    rfl
  · rw [Fmt.mul, readInf, readY]
    exact if_neg (mul_eq nonzero)
  · rw [Fmt.mul, readInf, readY, Bool.xor_comm]
    exact if_neg (mul_eq nonzero)
  · obtain ⟨k, i, readZ, -⟩ := Fmt.read_finite known finZ
    rw [readInf, readY, readZ]
    unfold Fmt.fmaVals
    simp only [mul_eq nonzero, beq_iff_eq, Bool.false_eq_true, ↓reduceIte]
    cases s <;> cases f.sign y <;> exact ⟨rfl, rfl⟩
  · obtain ⟨k, i, readX, -⟩ := Fmt.read_finite known finX
    rw [readInf, readY, readX]
    rfl
  · rw [Fmt.div, readInf, readY]

end

/-- A NaN added to a finite product (R52). -/
theorem Fmt.fma_addend_nan (known : f ∈ Fmt.known) (hz : z < 2 ^ f.width) (finX : f.isFinite (f.daz md x) = true)
    (finY : f.isFinite (f.daz md y) = true) (nanZ : f.isNanCode z = true) :
    f.fmaVals md false false (f.read md x) (f.read md y) (f.read md z) = f.nanFrom md [z] := by
  obtain ⟨m, e, readX, -⟩ := Fmt.read_finite known finX
  obtain ⟨n, i, readY, -⟩ := Fmt.read_finite known finY
  rw [readX, readY, ← Fmt.nanResult_read known md [z] (by simpa using hz) (by simpa using nanZ), List.map_singleton,
    Fmt.read_nan known nanZ]
  rfl

/-! Conversions -/

/-- Integers into a format (R77). -/
theorem Fmt.ofInt_rounds (regular : f.Regular) (n : Int) : f.Rounds md (f.ofInt md n) n := by
  have value : (n : Rat) = ratOf (decide (n < 0)) n.natAbs 0 := by
    rcases lt_or_ge n 0 with negative | nonneg
    · rw [decide_eq_true negative, ratOf_true, zpow_zero, mul_one, ← Int.cast_natCast, Int.ofNat_natAbs_of_nonpos negative.le]
      push_cast
      ring
    · rw [decide_eq_false (not_lt.2 nonneg), ratOf_false, zpow_zero, mul_one, ← Int.cast_natCast, Int.natAbs_of_nonneg nonneg]
  rw [value]
  exact Fmt.rounds_round regular

theorem Fmt.ofInt_zero (f : Fmt) (md : Mode) : f.ofInt md 0 = ⟨0, 0⟩ := Fmt.round_zero (s := false)

/-- A finite operand into another format (R121). -/
theorem Fmt.convert_finite (known : f ∈ Fmt.known) (target : g ∈ Fmt.known) (finX : f.isFinite (f.daz md x) = true) :
    g.Rounds md (f.convert g md x) (f.value (f.daz md x)) ∧
      (f.value (f.daz md x) = 0 → f.convert g md x = ⟨g.signBit (f.sign x), 0⟩) := by
  obtain ⟨m, e, readX, valueX⟩ := Fmt.read_finite known finX
  have eq : f.convert g md x = g.round md (f.sign x) m e := by
    rw [Fmt.convert, readX]
    rfl
  rw [eq, valueX]
  refine ⟨Fmt.rounds_round (Fmt.regular target), fun zero => ?_⟩
  rw [ratOf_eq_zero.1 zero, Fmt.round_zero]

/-- An infinity into another format (R53). -/
theorem Fmt.convert_inf (infinite : f.Infinite) (known : f ∈ Fmt.known) (s : Bool) :
    f.convert g md (f.inf s) =
      let toMax := md.sat || md.rm == .rtz || md.rm == .rup && s || md.rm == .rdn && !s
      match g.special with
      | .ieee | .e5m2 => ⟨g.signBit s + if md.sat then g.maxMag else g.infMag, 0⟩
      | .e4m3 => if toMax then ⟨g.signBit s + 0x7E, 0⟩ else ⟨g.signBit (s && !md.dn) + 0x7F, 0⟩
      | .e2m1 => ⟨g.signBit s + 7, 0⟩ := by
  have eq : f.convert g md (f.inf s) = g.infinity md s := by
    rw [Fmt.convert, Fmt.read_inf infinite known]
    rfl
  rw [eq, Fmt.infinity]
  cases kind : g.special with
  | ieee | e5m2 => simp only [g.signed_eq]
  | e4m3 =>
    have code : (md.sat || md.rm == .rtz || md.rm == .rup && s || md.rm == .rdn && !s) = true ↔ g.ToMax md s := by
      unfold Fmt.ToMax
      simp [kind, or_assoc]
    have largest : g.maxMag = 0x7E := by rw [Fmt.maxMag, kind]
    dsimp only
    by_cases toMax : g.ToMax md s
    · rw [Fmt.overflowVal_of_toMax toMax, if_pos (code.2 toMax), largest]
    · rw [Fmt.overflowVal_of_not_toMax toMax, if_neg (mt code.1 toMax), if_pos kind, kind]
      rfl
  | e2m1 =>
    have largest : g.maxMag = 7 := by rw [Fmt.maxMag, kind]
    dsimp only
    rw [Fmt.overflowVal_of_toMax (.inr (.inl kind)), largest]

/-- A NaN into another format (R52, R53). -/
theorem Fmt.convert_nan (known : f ∈ Fmt.known) (target : g ∈ Fmt.known) (hx : x < 2 ^ f.width) (h : f.isNanCode x = true) :
    (f.convert g md x).fl = (if f.signals x || g == .e2m1 then flNV else 0) ∧
      (md.dn = true ∨ g = .e2m1 → (f.convert g md x).val = g.defaultNan) ∧
      (md.dn = false → g = .e4m3 → (f.convert g md x).val = g.signBit (f.sign x) + 0x7F) ∧
      (md.dn = false → g = f → (f.convert g md x).val = f.quieted x) ∧
      (md.dn = false → f.special = .ieee → g.special = .ieee →
        (f.convert g md x).val = g.signBit (f.sign x) + (g.infMag + (2 ^ (g.fbits - 1) |||
          f.mag x % 2 ^ f.fbits * 2 ^ g.fbits / 2 ^ f.fbits))) := by
  have val : (f.convert g md x).val = g.nanOf md (f.sign x) (x % 2 ^ f.fbits) f.fbits := by
    rw [Fmt.convert, Fmt.read_nan known h]
    rfl
  have fl : (f.convert g md x).fl = if f.signals x || g.special == .e2m1 then flNV else 0 := by
    rw [Fmt.convert, Fmt.read_nan known h]
    show (if ([f.nan x].any FVal.isSnan || g.special == .e2m1) = true then flNV else 0) = _
    rw [List.any_cons, List.any_nil, Bool.or_false]
    rfl
  have only : g.special = .e2m1 ↔ g = .e2m1 := ⟨(Fmt.eq_of_special target).2.2, fun h => h ▸ rfl⟩
  rw [fl, val]
  refine ⟨?_, ?_, ?_, ?_, ?_⟩
  · congr 3
    rw [Bool.eq_iff_iff, beq_iff_eq, beq_iff_eq, only]
  · rintro (dn | rfl)
    · exact if_pos dn
    · unfold Fmt.nanOf
      split <;> rfl
  · rintro dn rfl
    unfold Fmt.nanOf
    rw [dn]
    exact Fmt.signed_eq _ _ _
  · rintro dn rfl
    rw [Fmt.nanOf_same known hx h, dn]
    rfl
  · intro dn source kind
    unfold Fmt.nanOf
    rw [dn, kind]
    dsimp only
    rw [if_neg Bool.false_ne_true, g.signed_eq, Nat.or_comm, f.fraction_eq]
    congr 3
    split
    · next wide =>
      rw [Nat.shiftLeft_eq, ← Nat.sub_add_cancel wide, Nat.pow_add, Nat.sub_add_cancel wide, ← Nat.mul_assoc,
        Nat.mul_div_cancel _ (Nat.two_pow_pos _)]
    · next narrow =>
      have le : g.fbits ≤ f.fbits := by omega
      rw [Nat.shiftRight_eq_div_pow, ← Nat.sub_add_cancel le, Nat.pow_add, Nat.sub_add_cancel le,
        Nat.mul_div_mul_right _ _ (Nat.two_pow_pos _)]

end

/-- The formats of arithmetic with infinities (R44). -/
theorem Fmt.infinite_of_arithmetic {f : Fmt} (h : f ∈ Fmt.arithmetic) (other : f.special ≠ .e4m3) : f.Infinite := by
  simp only [Fmt.arithmetic, List.mem_cons, List.not_mem_nil, or_false] at h
  rcases h with rfl | rfl | rfl | rfl | rfl | rfl
  · exact .inl rfl
  · exact .inl rfl
  · exact .inl rfl
  · exact .inl rfl
  · exact .inr rfl
  · exact absurd rfl other

/-- The four-bit format is always finite, and DAZ leaves it alone. -/
theorem Fmt.e2m1_finite (md : Mode) (n : Nat) : Fmt.e2m1.isFinite (Fmt.e2m1.daz md n) = true ∧ Fmt.e2m1.daz md n = n := by
  have same : Fmt.e2m1.daz md n = n := by
    rw [Fmt.daz_eq, if_neg]
    rintro ⟨-, kind, -⟩
    exact absurd kind (by decide)
  refine ⟨?_, same⟩
  have small : Fmt.e2m1.mag n < 8 := Fmt.e2m1.mag_lt n
  rw [same]
  exact decide_eq_true (by show Fmt.e2m1.mag n ≤ 7; omega)

/-- Settles O13: each operation decodes its operands, and a lemma for each kind of operands says what it then does. -/
theorem floatOperations : Obligations.FloatOperations := by
  refine ⟨rfl, ?_, ?_⟩
  · intro f arithmetic md x y z hx hy hz
    have known := Fmt.known_of_arithmetic arithmetic
    have regular := Fmt.regular known
    have infinite := Fmt.infinite_of_arithmetic arithmetic
    refine ⟨f.daz_eq md x, fun finX finY => ?_, Fmt.cmp_snan known, fun nan => Fmt.operations_nan known hx hy hz nan,
      fun finX finY nanZ => Fmt.fma_addend_nan known hz finX finY nanZ,
      fun nanX => ⟨Fmt.sqrt_nan known hx nanX, fun most => Fmt.minmax_nan known hx hy nanX most⟩,
      fun other s => ?_, Fmt.ofInt_rounds regular, Fmt.ofInt_zero f md, fun lo hi range => ⟨fun finX => ?_, fun other s => ?_,
        fun nanX => ?_⟩, fun g target => ⟨fun finX => Fmt.convert_finite known target finX,
        fun other s => Fmt.convert_inf (infinite other) known s, fun nanX => Fmt.convert_nan known target hx nanX⟩⟩
    · obtain ⟨add, sub, mul, addZero, subZero, mulZero⟩ := Fmt.sums_finite known finX finY
      obtain ⟨quotient, byZero⟩ := Fmt.div_finite known finX finY
      obtain ⟨root, negative⟩ := Fmt.sqrt_finite known finX
      obtain ⟨ordered, less, equal⟩ := Fmt.cmp_finite known finX finY
      obtain ⟨least, greatest⟩ := Fmt.minmax_finite known finX finY hx hy
      exact ⟨add, sub, mul, addZero, subZero, mulZero, fun _ => ⟨quotient, byZero, root, negative⟩,
        fun finZ => Fmt.fma_finite known finX finY finZ, ordered, less, equal, least, greatest⟩
    · obtain ⟨ofZero, opposite, difference, opposed⟩ := Fmt.invalid_inf (md := md) (y := y) (z := z) (infinite other) known s
      obtain ⟨quotient, negative, vanishes⟩ := Fmt.div_sqrt_inf (md := md) (y := y) (infinite other) known s
      refine ⟨fun number => ⟨Fmt.cmp_inf (infinite other) known hy number s, Fmt.minmax_inf (infinite other) known hy number s⟩,
        ofZero, opposite, difference, opposed, fun _ => ⟨quotient, negative, vanishes⟩, fun sat => ?_⟩
      obtain ⟨sum, unlike, product, root⟩ := Fmt.results_inf (infinite other) known sat s
      refine ⟨sum, unlike, product, fun finY => ?_, fun _ => root⟩
      obtain ⟨right, left, minuend, subtrahend, factors, addend, dividend⟩ :=
        Fmt.results_inf_finite (x := x) (z := z) (infinite other) known sat s finY
      exact ⟨right, left, minuend, subtrahend, factors, addend, fun _ => dividend⟩
    · obtain ⟨m, e, readX, valueX⟩ := Fmt.read_finite known finX
      rw [readX, valueX]
      exact toIntSat_fin md.rm range _ m e
    · exact Fmt.read_inf (infinite other) known s ▸ rfl
    · exact Fmt.read_nan known nanX ▸ rfl
  · intro g target md n _
    obtain ⟨finite, same⟩ := Fmt.e2m1_finite md n
    have converted := Fmt.convert_finite (g := g) (md := md) (x := n) (by decide) target finite
    rw [same] at converted
    exact converted

end Sys2Proof.Machine
end

section
/-! Scalar floating-point instructions (R47, R75-R79). -/

namespace Sys2Proof.Machine

/-! Flags beside a written register -/

section
variable (s : State) (fl : BitVec 6)

/-- A result in xd, with its flags. -/
theorem completes_writeX_raise (d : BitVec 5) (v : Word) :
    Completes s (writeX d v (s.raise fl)) (s.cur.pc + 4) { s.cur.setX d v with fflags := s.cur.fflags ||| fl } := by
  have cur : (s.raise fl).setX d v = { s with cur := { s.cur.setX d v with fflags := s.cur.fflags ||| fl } } := by
    unfold State.setX State.raise Hart.setX
    split <;> rfl
  have done := completes_retire s { s.cur.setX d v with fflags := s.cur.fflags ||| fl }
  rw [writeX, cur]
  rwa [Hart.setX_pc] at done

/-- A condition in cd, with its flags. -/
theorem completes_writeC_raise (c : BitVec 3) (v : Bool) :
    Completes s (writeC c v (s.raise fl)) (s.cur.pc + 4) { s.cur.setC c v with fflags := s.cur.fflags ||| fl } := by
  have cur : (s.raise fl).setC c v = { s with cur := { s.cur.setC c v with fflags := s.cur.fflags ||| fl } } := by
    unfold State.setC State.raise Hart.setC
    split <;> rfl
  have done := completes_retire s { s.cur.setC c v with fflags := s.cur.fflags ||| fl }
  rw [writeC, cur]
  rwa [Hart.setC_pc] at done

end

/-! Class words (R78) -/

theorem Fmt.known_of_single_double (p : BitVec 1) : fmtOfP p ∈ Fmt.known ∧ (fmtOfP p).special = .ieee := by
  rcases BitVec.eq_zero_or_eq_one p with rfl | rfl
  · exact ⟨by decide, rfl⟩
  · exact ⟨by decide, rfl⟩

/-- The class of a pattern (R78): zero, subnormal, normal, infinite, quiet or signalling. -/
def Fmt.kind (f : Fmt) (x : Nat) : Nat :=
  if f.isNanCode x then (if f.signals x then 5 else 4) else if f.mag x = f.infMag then 3 else if f.mag x = 0 then 0
  else if f.mag x < 2 ^ f.fbits then 1 else 2

/-- The least and the greatest normal magnitude. -/
def Fmt.edge (f : Fmt) (x : Nat) : Nat := if f.mag x = 2 ^ f.fbits then 1 else if f.mag x = f.maxMag then 2 else 0

theorem Fmt.edge_of_not_normal {f : Fmt} (h : f.mag x ≠ 2 ^ f.fbits) (h' : f.mag x ≠ f.maxMag) : f.edge x = 0 := by
  rw [Fmt.edge, if_neg h, if_neg h']

theorem classWord_eq {f : Fmt} (known : f ∈ Fmt.known) (ieee : f.special = .ieee) {x : Nat} (bound : x < 2 ^ f.width) :
    classWord f x = f.edge x * 16 + (if f.sign x then 1 else 0) * 8 + f.kind x := by
  have regular := Fmt.regular known
  have next := regular.next (.inl ieee)
  have normal := regular.normal
  have pos := Nat.two_pow_pos f.fbits
  have shape (cls : Nat) (value : (match f.decode x with
      | .nan _ sg _ _ => if sg then 5 else 4
      | .inf _ => 3
      | .fin _ m _ => if m = 0 then 0 else if f.mag x < 2 ^ f.fbits then 1 else 2) = cls) :
      classWord f x = (if cls = 2 then f.edge x else 0) * 16 + (if f.sign x then 1 else 0) * 8 + cls := by
    subst value
    rfl
  cases nan : f.isNanCode x with
  | true =>
    have beyond := of_decide_eq_false (Fmt.isFinite_of_nan known nan)
    have kind : f.kind x = if f.signals x then 5 else 4 := if_pos nan
    rw [shape (f.kind x) (by rw [Fmt.decode_of_nan known nan, kind]; rfl), Fmt.edge_of_not_normal (by omega) (by omega), ite_self]
  | false =>
    cases finite : f.isFinite x with
    | true =>
      have inside := of_decide_eq_true finite
      have kind : f.kind x = if f.mag x = 0 then 0 else if f.mag x < 2 ^ f.fbits then 1 else 2 := by
        rw [Fmt.kind, nan, if_neg Bool.false_ne_true, if_neg (by omega)]
      have decoded : f.decode x = f.finite x := Fmt.decode_of_finite known finite
      rw [shape (f.kind x) (by rw [decoded, kind, Fmt.finite]; simp only [f.mant_eq_zero])]
      congr 3
      split
      · rfl
      · next other =>
        refine (Fmt.edge_of_not_normal ?_ ?_).symm <;> intro h <;> rw [kind, if_neg (by omega), if_neg (by omega)] at other <;>
          exact other rfl
    | false =>
      have infinite := Fmt.eq_inf (.inl ieee) known bound finite nan
      have mag : f.mag x = f.infMag := by rw [infinite, Fmt.inf, f.mag_signBit_add _ Fmt.infMag_lt]
      have kind : f.kind x = 3 := by rw [Fmt.kind, nan, if_neg Bool.false_ne_true, if_pos mag]
      have decoded : f.decode x = .inf (f.sign x) := by
        rw [Fmt.decode_eq known, finite, nan]
        rfl
      rw [shape (f.kind x) (by rw [decoded, kind]), Fmt.edge_of_not_normal (by omega) (by omega), ite_self]

theorem Fmt.kind_lt (f : Fmt) (x : Nat) : f.kind x < 6 := by
  unfold Fmt.kind
  split
  · split <;> decide
  · split
    · decide
    · split
      · decide
      · split <;> decide

theorem Fmt.edge_lt (f : Fmt) (x : Nat) : f.edge x < 3 := by
  unfold Fmt.edge
  split
  · decide
  · split <;> decide

/-- The fields of a class word (R78). -/
theorem classWord_fields {f : Fmt} (known : f ∈ Fmt.known) (ieee : f.special = .ieee) {x : Nat} (bound : x < 2 ^ f.width) :
    classWord f x < 64 ∧ (classWord f x / 8 % 2 = 1 ↔ f.sign x = true) ∧ classWord f x % 8 = f.kind x ∧
      classWord f x / 16 = f.edge x := by
  have kind := f.kind_lt x
  have edge := f.edge_lt x
  rw [classWord_eq known ieee bound]
  cases f.sign x
  · refine ⟨?_, ⟨fun h => ?_, fun h => absurd h Bool.false_ne_true⟩, ?_, ?_⟩
    · simp only [Bool.false_eq_true, ↓reduceIte]; omega
    · simp only [Bool.false_eq_true, ↓reduceIte] at h; omega
    · simp only [Bool.false_eq_true, ↓reduceIte]; omega
    · simp only [Bool.false_eq_true, ↓reduceIte]; omega
  · refine ⟨?_, ⟨fun _ => rfl, fun _ => ?_⟩, ?_, ?_⟩
    · simp only [↓reduceIte]; omega
    · simp only [↓reduceIte]; omega
    · simp only [↓reduceIte]; omega
    · simp only [↓reduceIte]; omega

/-- Settles O12: every instruction writes one register and raises the flags of its operation. -/
theorem scalarFloatResults : Obligations.ScalarFloatResults := by
  refine ⟨fun s r => ⟨rfl, unbox_single _⟩, fun _ => box_toNat_single, fun _ => box_toNat_double, fun p x => ?_,
    fun s d a b c p r k => ?_⟩
  · obtain ⟨known, ieee⟩ := Fmt.known_of_single_double p
    exact classWord_fields known ieee
  · have float (v : FRes) := completes_writeX_raise s v.fl d (box p v.val)
    have int (v : Int × BitVec 6) := completes_writeX_raise s v.2 d (BitVec.ofInt 64 v.1)
    have cond (v nv : Bool) := completes_writeC_raise s (if nv then flNV else 0) c v
    have cls : exec (.fclass d a p) s = writeX d (BitVec.ofInt 64 (classWord (fmtOfP p) (s.fx p a) : Int)) (s.raise 0) := by
      have quiet : s.raise 0 = s := by
        have same : s.cur.fflags ||| 0 = s.cur.fflags := BitVec.or_zero
        rw [State.raise, same]
      rw [quiet, BitVec.ofInt_natCast]
      rfl
    have classified := int (classWord (fmtOfP p) (s.fx p a), 0)
    dsimp only at classified
    rw [← cls] at classified
    exact ⟨float _, float _, float _, float _, float _, float _, float _, float _, float _, float _, float _, int _, int _,
      classified, cond _ _, cond _ _, cond _ _, cond _ _⟩

end Sys2Proof.Machine
end

section
/-! Reductions on integer elements (R127, R128), and how reductions and scans complete. -/

namespace Sys2Proof.Machine

/-! Integers of a tag (R41) -/

section
variable {t : Tag}

theorem Tag.width_pos (int : t.isInt = true) : ∃ n, t.width = n + 1 := by
  refine Nat.exists_eq_succ_of_ne_zero ?_
  revert int
  cases t <;> decide

theorem Tag.int_of_lt (int : t.isInt = true) {x : Nat} (hx : x < 2 ^ t.width) :
    t.int x = if t.isSigned = true ∧ 2 ^ (t.width - 1) ≤ x then (x : Int) - (2 ^ t.width : Nat) else x := by
  obtain ⟨n, width⟩ := Tag.width_pos int
  unfold Tag.int signed
  rw [Nat.mod_eq_of_lt hx]
  dsimp only
  cases t.isSigned with
  | false => simp
  | true =>
    rw [if_pos rfl, if_neg (by omega)]
    by_cases low : x < 2 ^ (t.width - 1)
    · rw [if_pos low, if_neg (by omega)]
    · rw [if_neg low, if_pos ⟨rfl, by omega⟩]

theorem Tag.two_halves (int : t.isInt = true) : 2 ^ t.width = 2 * 2 ^ (t.width - 1) := by
  obtain ⟨n, width⟩ := Tag.width_pos int
  rw [width, Nat.add_sub_cancel, Nat.pow_succ']

/-- An element stands for an integer of the tag's range. -/
theorem Tag.int_bounds (int : t.isInt = true) {x : Nat} (hx : x < 2 ^ t.width) : t.least ≤ t.int x ∧ t.int x ≤ t.greatest := by
  have halves := Tag.two_halves int
  rw [Tag.int_of_lt int hx]
  unfold Tag.least Tag.greatest
  cases t.isSigned with
  | false => simp only [Bool.false_eq_true, false_and, ↓reduceIte]; omega
  | true => simp only [true_and, ↓reduceIte]; split <;> omega

theorem Tag.int_injective (int : t.isInt = true) {x y : Nat} (hx : x < 2 ^ t.width) (hy : y < 2 ^ t.width)
    (same : t.int x = t.int y) : x = y := by
  rw [Tag.int_of_lt int hx, Tag.int_of_lt int hy] at same
  split at same <;> split at same <;> omega

/-- An integer of the tag's range is what its low bits stand for. -/
theorem Tag.int_wrap (int : t.isInt = true) {v : Int} (least : t.least ≤ v) (greatest : v ≤ t.greatest) :
    wrap t.width v < 2 ^ t.width ∧ t.int (wrap t.width v) = v := by
  have halves := Tag.two_halves int
  have pos := Nat.two_pow_pos (t.width - 1)
  have bound : wrap t.width v < 2 ^ t.width := by
    have := Int.emod_lt_of_pos v (b := ((2 ^ t.width : Nat) : Int)) (by omega)
    unfold wrap
    omega
  have value : (wrap t.width v : Int) = if 0 ≤ v then v else v + (2 ^ t.width : Nat) := by
    unfold Tag.least at least
    unfold Tag.greatest at greatest
    unfold wrap
    rw [Int.toNat_of_nonneg (Int.emod_nonneg _ (by omega))]
    split
    · next nonneg => exact Int.emod_eq_of_lt nonneg (by split at greatest <;> omega)
    · next negative =>
      rw [← Int.add_emod_right]
      exact Int.emod_eq_of_lt (by split at least <;> omega) (by omega)
  refine ⟨bound, ?_⟩
  rw [Tag.int_of_lt int bound]
  unfold Tag.least at least
  unfold Tag.greatest at greatest
  cases signed : t.isSigned with
  | false =>
    rw [signed, if_neg Bool.false_ne_true] at least
    rw [if_pos least] at value
    rw [if_neg (by simp)]
    exact value
  | true =>
    rw [signed, if_pos rfl] at least greatest
    split at value
    · rw [if_neg (by omega)]
      exact value
    · rw [if_pos ⟨rfl, by omega⟩]
      omega

theorem Tag.least_le_greatest (int : t.isInt = true) : t.least ≤ t.greatest :=
  (Tag.int_bounds int (Nat.two_pow_pos _)).1.trans (Tag.int_bounds int (Nat.two_pow_pos _)).2

/-! Steps of a reduction on integers -/

theorem int_max_step (t : Tag) (x y : Nat) : t.int (Red.max.int t x y) = max (t.int x) (t.int y) := by
  unfold Red.int
  dsimp only
  split
  · next le => exact (max_eq_right le).symm
  · next gt => exact (max_eq_left (by omega)).symm

theorem int_min_step (t : Tag) (x y : Nat) : t.int (Red.min.int t x y) = min (t.int x) (t.int y) := by
  unfold Red.int
  dsimp only
  split
  · next le => exact (min_eq_left le).symm
  · next gt => exact (min_eq_right (by omega)).symm

theorem max_step_mem (t : Tag) (x y : Nat) : Red.max.int t x y ∈ [x, y] := by
  unfold Red.int
  dsimp only
  split <;> simp

theorem min_step_mem (t : Tag) (x y : Nat) : Red.min.int t x y ∈ [x, y] := by
  unfold Red.int
  dsimp only
  split <;> simp

theorem Red.max_identity (int : t.isInt = true) : Red.max.identity t < 2 ^ t.width ∧ t.int (Red.max.identity t) = t.least :=
  Tag.int_wrap int le_rfl (Tag.least_le_greatest int)

theorem Red.min_identity (int : t.isInt = true) : Red.min.identity t < 2 ^ t.width ∧ t.int (Red.min.identity t) = t.greatest :=
  Tag.int_wrap int (Tag.least_le_greatest int) le_rfl

/-- The running value of a reduction on integers. -/
def Red.run (op : Red) (t : Tag) (e : Nat → Nat) (x : Nat) (js : List Nat) : Nat := js.foldl (fun x i => op.int t x (e i)) x

theorem Red.reduce_of_isInt (op : Red) (int : t.isInt = true) (md : Mode) (vl : Nat) (active : Nat → Bool) (e : Nat → Nat) :
    op.reduce t md vl active e = ⟨op.run t e (op.identity t) ((List.range vl).filter active), 0⟩ := by
  unfold Red.reduce
  rw [Tag.fmt_of_isInt int]
  rfl

variable {e : Nat → Nat}

theorem Red.run_sum (js : List Nat) (x : Nat) (hx : x < 2 ^ t.width) :
    Red.sum.run t e x js = (x + (js.map e).sum) % 2 ^ t.width := by
  induction js generalizing x with
  | nil => exact (Nat.mod_eq_of_lt hx).symm
  | cons j js ih =>
    have step : Red.sum.run t e x (j :: js) = Red.sum.run t e ((x + e j) % 2 ^ t.width) js := rfl
    rw [step, ih _ (Nat.mod_lt _ (Nat.two_pow_pos _)), List.map_cons, List.sum_cons, ← Nat.add_assoc]
    exact Nat.mod_add_mod _ _ _

/-- A running value that a step takes from one of the two operands comes from the start or from an element. -/
theorem Red.run_mem {op : Red} (choose : ∀ x y, op.int t x y ∈ [x, y]) (js : List Nat) (x : Nat) :
    op.run t e x js = x ∨ ∃ j ∈ js, op.run t e x js = e j := by
  induction js generalizing x with
  | nil => exact .inl rfl
  | cons j js ih =>
    have step : op.run t e x (j :: js) = op.run t e (op.int t x (e j)) js := rfl
    rw [step]
    rcases ih (op.int t x (e j)) with start | ⟨k, hk, value⟩
    · rw [start]
      rcases List.mem_pair.1 (choose x (e j)) with left | right
      · exact .inl left
      · exact .inr ⟨j, List.mem_cons_self, right⟩
    · exact .inr ⟨k, List.mem_cons_of_mem _ hk, value⟩

theorem run_max_bounds (js : List Nat) (x : Nat) :
    t.int x ≤ t.int (Red.max.run t e x js) ∧ ∀ j ∈ js, t.int (e j) ≤ t.int (Red.max.run t e x js) := by
  induction js generalizing x with
  | nil => exact ⟨le_rfl, fun _ h => absurd h List.not_mem_nil⟩
  | cons j js ih =>
    obtain ⟨start, rest⟩ := ih (Red.max.int t x (e j))
    rw [int_max_step] at start
    exact ⟨(le_max_left _ _).trans start, List.forall_mem_cons.2 ⟨(le_max_right _ _).trans start, rest⟩⟩

theorem run_min_bounds (js : List Nat) (x : Nat) :
    t.int (Red.min.run t e x js) ≤ t.int x ∧ ∀ j ∈ js, t.int (Red.min.run t e x js) ≤ t.int (e j) := by
  induction js generalizing x with
  | nil => exact ⟨le_rfl, fun _ h => absurd h List.not_mem_nil⟩
  | cons j js ih =>
    obtain ⟨start, rest⟩ := ih (Red.min.int t x (e j))
    rw [int_min_step] at start
    exact ⟨start.trans (min_le_left _ _), List.forall_mem_cons.2 ⟨start.trans (min_le_right _ _), rest⟩⟩

/-- Among the elements of a run there is its result, where the start cannot be told from it otherwise. -/
theorem Red.run_attained (int : t.isInt = true) (small : ∀ i, e i < 2 ^ t.width) {op : Red} (choose : ∀ x y, op.int t x y ∈ [x, y])
    {js : List Nat} (some_ : js ≠ []) {x : Nat} (hx : x < 2 ^ t.width)
    (extreme : ∀ j ∈ js, t.int (op.run t e x js) = t.int x → t.int (e j) = t.int x) : ∃ j ∈ js, op.run t e x js = e j := by
  rcases Red.run_mem choose js x with start | attained
  · obtain ⟨j, hj⟩ := List.exists_mem_of_ne_nil js some_
    have same := extreme j hj (congrArg t.int start)
    exact ⟨j, hj, start.trans (Tag.int_injective int (small j) hx same).symm⟩
  · exact attained

theorem Red.run_testBit (k : Nat) (js : List Nat) (x : Nat) :
    (Red.and.run t e x js).testBit k = (x.testBit k && js.all fun j => (e j).testBit k) ∧
      (Red.or.run t e x js).testBit k = (x.testBit k || js.any fun j => (e j).testBit k) ∧
      ((Red.xor.run t e x js).testBit k = true ↔
        (flag (x.testBit k) + (js.filter fun j => (e j).testBit k).length) % 2 = 1) := by
  induction js generalizing x with
  | nil =>
    refine ⟨(Bool.and_true _).symm, (Bool.or_false _).symm, ?_⟩
    show x.testBit k = true ↔ _
    cases x.testBit k <;> simp [flag]
  | cons j js ih =>
    obtain ⟨all, -, -⟩ := ih (x &&& e j)
    obtain ⟨-, any, -⟩ := ih (x ||| e j)
    obtain ⟨-, -, odd⟩ := ih (x ^^^ e j)
    refine ⟨?_, ?_, ?_⟩
    · refine all.trans ?_
      rw [Nat.testBit_and, List.all_cons, Bool.and_assoc]
    · refine any.trans ?_
      rw [Nat.testBit_or, List.any_cons, Bool.or_assoc]
    · refine odd.trans ?_
      rw [Nat.testBit_xor]
      cases hx : x.testBit k <;> cases hj : (e j).testBit k <;> simp [hj, flag] <;> omega

/-- The results of reductions on integers (R128). -/
theorem Red.reduce_int (int : t.isInt = true) (md : Mode) (vl : Nat) (active : Nat → Bool) (small : ∀ i, e i < 2 ^ t.width) :
    let js := (List.range vl).filter active
    (Red.sum.reduce t md vl active e).val = (js.map e).sum % 2 ^ t.width ∧
    (∀ j ∈ js, t.int (e j) ≤ t.int (Red.max.reduce t md vl active e).val ∧
      t.int (Red.min.reduce t md vl active e).val ≤ t.int (e j)) ∧
    (js ≠ [] → (∃ j ∈ js, (Red.max.reduce t md vl active e).val = e j) ∧ ∃ j ∈ js, (Red.min.reduce t md vl active e).val = e j) ∧
    (js = [] → t.int (Red.max.reduce t md vl active e).val = t.least ∧
      t.int (Red.min.reduce t md vl active e).val = t.greatest) ∧
    ∀ k, k < t.width →
      (Red.and.reduce t md vl active e).val.testBit k = js.all (fun j => (e j).testBit k) ∧
      (Red.or.reduce t md vl active e).val.testBit k = js.any (fun j => (e j).testBit k) ∧
      ((Red.xor.reduce t md vl active e).val.testBit k = true ↔ (js.filter fun j => (e j).testBit k).length % 2 = 1) := by
  simp only [Red.reduce_of_isInt _ int]
  generalize (List.range vl).filter active = js
  obtain ⟨maxBound, maxValue⟩ := Red.max_identity int
  obtain ⟨minBound, minValue⟩ := Red.min_identity int
  have greatest := (run_max_bounds (t := t) (e := e) js (Red.max.identity t)).2
  have least := (run_min_bounds (t := t) (e := e) js (Red.min.identity t)).2
  refine ⟨?_, fun j hj => ⟨greatest j hj, least j hj⟩, fun some_ => ⟨?_, ?_⟩, fun none => ?_, fun k hk => ?_⟩
  · rw [show Red.sum.identity t = 0 from rfl, Red.run_sum js 0 (Nat.two_pow_pos _), Nat.zero_add]
  · refine Red.run_attained int small (max_step_mem t) some_ maxBound fun j hj same => ?_
    rw [maxValue] at same ⊢
    exact le_antisymm (same ▸ greatest j hj) (Tag.int_bounds int (small j)).1
  · refine Red.run_attained int small (min_step_mem t) some_ minBound fun j hj same => ?_
    rw [minValue] at same ⊢
    exact le_antisymm (Tag.int_bounds int (small j)).2 (same ▸ least j hj)
  · subst none
    exact ⟨maxValue, minValue⟩
  · have ones : (Red.and.identity t).testBit k = true := by
      show (2 ^ t.width - 1).testBit k = true
      rw [Nat.testBit_two_pow_sub_one, decide_eq_true hk]
    obtain ⟨all, -, -⟩ := Red.run_testBit (t := t) (e := e) k js (Red.and.identity t)
    obtain ⟨-, any, -⟩ := Red.run_testBit (t := t) (e := e) k js (Red.or.identity t)
    obtain ⟨-, -, odd⟩ := Red.run_testBit (t := t) (e := e) k js (Red.xor.identity t)
    have none : (Red.or.identity t).testBit k = false ∧ (Red.xor.identity t).testBit k = false := ⟨Nat.zero_testBit k, Nat.zero_testBit k⟩
    rw [ones, Bool.true_and] at all
    rw [none.1, Bool.false_or] at any
    rw [none.2, flag, if_neg Bool.false_ne_true, Nat.zero_add] at odd
    exact ⟨all, any, odd⟩

end

/-! Completion -/

section
variable {s : State} (ready : s.VectorReady)
include ready

/-- A reduction or a scan whose tag it accepts writes its list of results. -/
theorem reductionOf_done {ok : Tag → Bool} {d a : BitVec 5} {m : BitVec 3}
    {f : Tag → Mode → Nat → (Nat → Bool) → (Nat → Nat) → List (Option FRes) × BitVec 6} {n : Nat} {g : Nat → Option FRes}
    (fits : s.cur.Fits [(s.cur.getV a).tag]) (live : (s.cur.getV a).tag ≠ .dead) (accepted : ok (s.cur.getV a).tag = true)
    (results : f (s.cur.getV a).tag (Mode.ofFmode s.fmodeHere) s.cur.vlen (activeAt false s.cur.vlen (s.cur.getM m))
      (s.cur.getV a).elem = ((upTo n).map g, 0)) :
    VectorDone s (finish (reductionOf ok d a m f) s) d (s.cur.getV a).tag n g 0 := by
  have checked := checks_ok ready (live := [a]) (by simpa using live) accepted (by simpa using fits) (extra := [])
    (fun _ h => absurd h List.not_mem_nil)
  refine vectorDone_of_results ready (?_) (s.issue [])
  refine (bind_ok checked).trans ((bind_ok (settled_ok ready _)).trans ((bind_ok (soundBelow_ok ready _ _)).trans ?_))
  show (writeVector d (s.cur.getV a).tag _ _) s = _
  rw [show (s.issue []).fmode = s.fmodeHere from rfl, results]

end

/-- The running value of a scan. -/
def scanValue (op : Nat → Nat → FRes) (active : Nat → Bool) (e : Nat → Nat) (x : Nat) (js : List Nat) : Nat :=
  (js.filter active).foldl (fun x j => (op x (e j)).val) x

/-- Each active element of a scan steps from the running value over those below it. -/
theorem scanFrom_eq (op : Nat → Nat → FRes) (active : Nat → Bool) (e : Nat → Nat) (n k x : Nat) :
    scanFrom op active e x (List.range' k n) = (List.range' k n).map fun i =>
      if active i then some (op (scanValue op active e x (List.range' k (i - k))) (e i)) else none := by
  induction n generalizing k x with
  | zero => rfl
  | succ n ih =>
    have first : scanValue op active e x (List.range' k (k - k)) = x := by rw [Nat.sub_self]; rfl
    have later (y : Nat) (hy : scanValue op active e x [k] = y) : ∀ i ∈ List.range' (k + 1) n,
        scanValue op active e y (List.range' (k + 1) (i - (k + 1))) = scanValue op active e x (List.range' k (i - k)) := by
      intro i hi
      have above := (List.mem_range'_1.1 hi).1
      rw [show i - k = (i - (k + 1)) + 1 by omega, List.range'_succ, ← hy]
      unfold scanValue
      rw [← List.foldl_append, ← List.filter_append]
      rfl
    rw [List.range'_succ, List.map_cons, first]
    by_cases act : active k = true
    · rw [scanFrom, if_pos act, if_pos act]
      dsimp only
      rw [ih]
      refine congrArg (some (op x (e k)) :: ·) (List.map_congr_left fun i hi => ?_)
      rw [later (op x (e k)).val (by simp [scanValue, act]) i hi]
    · rw [scanFrom, if_neg act, if_neg act, ih]
      refine congrArg (none :: ·) (List.map_congr_left fun i hi => ?_)
      rw [later x (by simp [scanValue, act]) i hi]

end Sys2Proof.Machine
end

section
/-! Reduction trees on floating elements (R60, R128-R130). -/

namespace Sys2Proof.Machine

/-! Results of the e4m3 format are patterns of its width -/

section
variable {f : Fmt}

theorem Fmt.pattern_lt (f : Fmt) (s : Bool) {n : Nat} (h : n < 2 ^ (f.ebits + f.fbits)) : f.signBit s + n < 2 ^ f.width := by
  have double : 2 ^ f.width = 2 ^ (f.width - 1) + 2 ^ (f.width - 1) := by
    rw [← Nat.two_mul, ← Nat.pow_succ', f.width_sub_one]
    congr 1
    unfold Fmt.width
    omega
  have : f.signBit s ≤ 2 ^ (f.width - 1) := by cases s <;> simp [Fmt.signBit]
  rw [← f.width_sub_one] at h
  omega

theorem Fmt.e4m3_pattern_lt (s : Bool) {n : Nat} (h : n < 128) : Fmt.e4m3.signed s n < 2 ^ Fmt.e4m3.width := by
  rw [Fmt.signed_eq]
  exact Fmt.e4m3.pattern_lt s h

theorem Fmt.e4m3_overflowVal_lt (md : Mode) (s : Bool) : Fmt.e4m3.overflowVal md s < 2 ^ Fmt.e4m3.width := by
  by_cases toMax : Fmt.e4m3.ToMax md s
  · rw [Fmt.overflowVal_of_toMax toMax]
    exact Fmt.e4m3.pattern_lt s (by decide)
  · rw [Fmt.overflowVal_of_not_toMax toMax]
    exact Fmt.e4m3.pattern_lt _ (by decide)

theorem FRes.val_lt_of_ite {c : Prop} [Decidable c] {a b : FRes} {n : Nat} (yes : c → a.val < n) (no : ¬ c → b.val < n) :
    (if c then a else b).val < n := by
  split
  · next h => exact yes h
  · next h => exact no h

theorem Fmt.e4m3_round_lt (md : Mode) (s : Bool) (m : Nat) (e : Int) : (Fmt.e4m3.round md s m e).val < 2 ^ Fmt.e4m3.width := by
  have zero := Fmt.e4m3_pattern_lt s (n := 0) (by decide)
  unfold Fmt.round
  refine FRes.val_lt_of_ite (fun _ => zero) fun _ => FRes.val_lt_of_ite (fun _ => Fmt.e4m3_overflowVal_lt md s) fun inside =>
    FRes.val_lt_of_ite (fun _ => zero) fun _ => Fmt.e4m3_pattern_lt s ?_
  exact Nat.lt_succ_of_le ((not_lt.1 inside).trans (by decide))

theorem Fmt.e4m3_nanOf_lt (md : Mode) (s : Bool) (frac fb : Nat) : Fmt.e4m3.nanOf md s frac fb < 2 ^ Fmt.e4m3.width := by
  unfold Fmt.nanOf
  split
  · decide
  · exact Fmt.e4m3_pattern_lt s (by decide)

theorem Fmt.e4m3_nanResult_lt (md : Mode) (ops : List FVal) : (Fmt.e4m3.nanResult md ops).val < 2 ^ Fmt.e4m3.width := by
  unfold Fmt.nanResult
  dsimp only
  split
  · next sign _ frac fb _ => exact Fmt.e4m3_nanOf_lt md sign frac fb
  · show Fmt.e4m3.defaultNan < _
    decide

theorem Fmt.e4m3_ofVal_lt (md : Mode) (a : FVal) : (Fmt.e4m3.ofVal md a).val < 2 ^ Fmt.e4m3.width := by
  cases a with
  | nan => exact Fmt.e4m3_nanResult_lt md _
  | inf s => exact Fmt.e4m3_overflowVal_lt md s
  | fin s m e => exact Fmt.e4m3_round_lt md s m e

theorem Fmt.e4m3_addVals_lt (md : Mode) (a b : FVal) : (Fmt.e4m3.addVals md a b).val < 2 ^ Fmt.e4m3.width := by
  cases a with
  | nan => exact Fmt.e4m3_nanResult_lt md _
  | inf s =>
    cases b with
    | nan => exact Fmt.e4m3_nanResult_lt md _
    | inf t =>
      by_cases same : s = t
      · rw [show Fmt.e4m3.addVals md (.inf s) (.inf t) = Fmt.e4m3.infinity md s from if_pos same]
        exact Fmt.e4m3_overflowVal_lt md s
      · rw [show Fmt.e4m3.addVals md (.inf s) (.inf t) = Fmt.e4m3.invalid from if_neg same]
        decide
    | fin => exact Fmt.e4m3_overflowVal_lt md s
  | fin =>
    cases b with
    | nan => exact Fmt.e4m3_nanResult_lt md _
    | inf t => exact Fmt.e4m3_overflowVal_lt md t
    | fin => exact Fmt.e4m3_round_lt md _ _ _

theorem Fmt.isCarried_of_ne (h : f.special ≠ .e4m3) (x : Nat) : f.isCarried x = false := by
  unfold Fmt.isCarried
  rw [beq_false_of_ne h, Bool.false_and]

/-- A pattern of the format's width is not the carried infinity. -/
theorem Fmt.isCarried_of_lt (known : f ∈ Fmt.known) {x : Nat} (h : x < 2 ^ f.width) : f.isCarried x = false := by
  by_cases special : f.special = .e4m3
  · obtain rfl := (Fmt.eq_of_special known).2.1 special
    have : x ≠ e4m3Infinity := Nat.ne_of_lt h
    unfold Fmt.isCarried
    rw [beq_false_of_ne this, Bool.and_false]
  · exact Fmt.isCarried_of_ne special x

end

/-! Trees -/

theorem treeLevel_append (op : Nat → Nat → FRes) : ∀ (n : Nat) (xs ys : List Nat), xs.length = 2 * n →
    treeLevel op (xs ++ ys) = ((treeLevel op xs).1 ++ (treeLevel op ys).1, (treeLevel op xs).2 ||| (treeLevel op ys).2)
  | 0, xs, ys, h => by
    obtain rfl := List.length_eq_zero_iff.1 h
    exact Prod.ext rfl (BitVec.zero_or).symm
  | n + 1, xs, ys, h => by
    obtain ⟨a, b, rest, rfl⟩ : ∃ a b rest, xs = a :: b :: rest := by
      match xs, h with
      | a :: b :: rest, _ => exact ⟨a, b, rest, rfl⟩
    have tail := treeLevel_append op n rest ys (by simp only [List.length_cons] at h; omega)
    have shape (l : List Nat) : treeLevel op (a :: b :: l) = ((op a b).val :: (treeLevel op l).1, (op a b).fl ||| (treeLevel op l).2) :=
      rfl
    rw [List.cons_append, List.cons_append, shape, shape, tail]
    exact Prod.ext rfl (BitVec.or_assoc ..).symm

theorem treeLevel_length (op : Nat → Nat → FRes) : ∀ (n : Nat) (xs : List Nat), xs.length = 2 * n →
    (treeLevel op xs).1.length = n
  | 0, xs, h => by
    obtain rfl := List.length_eq_zero_iff.1 h
    rfl
  | n + 1, xs, h => by
    obtain ⟨a, b, rest, rfl⟩ : ∃ a b rest, xs = a :: b :: rest := by
      match xs, h with
      | a :: b :: rest, _ => exact ⟨a, b, rest, rfl⟩
    exact congrArg Nat.succ (treeLevel_length op n rest (by simp only [List.length_cons] at h; omega))

theorem tree_succ (op : Nat → Nat → FRes) (k : Nat) (l : List Nat) :
    tree op (k + 1) l = ⟨(tree op k (treeLevel op l).1).val, (treeLevel op l).2 ||| (tree op k (treeLevel op l).1).fl⟩ := rfl

theorem BitVec.or_swap {w : Nat} (a b c d : BitVec w) : a ||| b ||| (c ||| d) = a ||| c ||| (b ||| d) := by
  rw [BitVec.or_assoc, BitVec.or_assoc, ← BitVec.or_assoc b, BitVec.or_comm b, BitVec.or_assoc c]

/-- A tree joins the trees of its halves (R60). -/
theorem tree_append (op : Nat → Nat → FRes) (k : Nat) : ∀ xs ys : List Nat, xs.length = 2 ^ k → ys.length = 2 ^ k →
    tree op (k + 1) (xs ++ ys) =
      ⟨(op (tree op k xs).val (tree op k ys).val).val,
        (tree op k xs).fl ||| (tree op k ys).fl ||| (op (tree op k xs).val (tree op k ys).val).fl⟩ := by
  induction k with
  | zero =>
    intro xs ys hx hy
    obtain ⟨x, rfl⟩ := List.length_eq_one_iff.1 hx
    obtain ⟨y, rfl⟩ := List.length_eq_one_iff.1 hy
    have flags : (op x y).fl ||| 0 ||| 0 = 0 ||| 0 ||| (op x y).fl := by
      rw [BitVec.or_comm]
      exact (BitVec.or_assoc ..).symm ▸ congrArg (0 ||| ·) (BitVec.or_comm ..)
    exact congrArg (FRes.mk _) flags
  | succ k ih =>
    intro xs ys hx hy
    rw [Nat.pow_succ'] at hx hy
    rw [tree_succ, treeLevel_append op _ xs ys hx, ih _ _ (treeLevel_length op _ xs hx) (treeLevel_length op _ ys hy)]
    refine congrArg (FRes.mk _) ?_
    show (_ ||| _ ||| (_ ||| _ ||| _) : BitVec 6) = _
    rw [← BitVec.or_assoc, BitVec.or_swap]
    rfl

section
variable {P : Nat → Prop} {op : Nat → Nat → FRes} (node : ∀ x y, P (op x y).val)
include node

theorem treeLevel_forall : ∀ l : List Nat, (∀ x ∈ l, P x) → ∀ x ∈ (treeLevel op l).1, P x
  | [], leaves => leaves
  | [_], leaves => leaves
  | a :: b :: rest, leaves => List.forall_mem_cons.2 ⟨node a b, treeLevel_forall rest fun x hx =>
      leaves x (List.mem_cons_of_mem _ (List.mem_cons_of_mem _ hx))⟩

omit node in
theorem treeLevel_ne_nil : ∀ l : List Nat, l ≠ [] → (treeLevel op l).1 ≠ []
  | [], h => h
  | [_], h => h
  | _ :: _ :: _, _ => List.cons_ne_nil _ _

/-- What the leaves of a tree and its nodes have, its value has. -/
theorem tree_val (k : Nat) : ∀ l : List Nat, l ≠ [] → (∀ x ∈ l, P x) → P (tree op k l).val := by
  induction k with
  | zero =>
    intro l some_ leaves
    cases l with
    | nil => exact absurd rfl some_
    | cons a l => exact leaves a List.mem_cons_self
  | succ k ih => exact fun l some_ leaves => ih _ (treeLevel_ne_nil l some_) (treeLevel_forall node l leaves)

end

/-! Floating reductions -/

/-- Levels of the least tree that holds the elements. -/
theorem treeLevels_eq {k vl : Nat} (above : 2 ^ k < vl) (below : vl ≤ 2 ^ (k + 1)) : treeLevels vl = k + 1 := by
  have pos := Nat.two_pow_pos k
  have max_eq : Nat.max vl 1 = vl := Nat.max_eq_left (by omega)
  obtain ⟨n, len, least, most⟩ := bitLen_bounds (m := vl - 1) (by omega)
  unfold treeLevels
  rw [max_eq, len]
  congr 1
  have lower : n < k + 1 := (Nat.pow_lt_pow_iff_right (a := 2) (by decide)).1 (by omega)
  have upper : k < n + 1 := (Nat.pow_lt_pow_iff_right (a := 2) (by decide)).1 (by omega)
  omega

section
variable {t : Tag} {f : Fmt} {md : Mode} {active : Nat → Bool} {e : Nat → Nat}

/-- The leaves of a tree (R128). -/
def Red.leaf (op : Red) (f : Fmt) (active : Nat → Bool) (e : Nat → Nat) (j : Nat) : Nat :=
  if active j then e j else op.floatIdentity f

/-- The operations of a floating reduction and the formats that they are stated for. -/
def Red.Stated (op : Red) (f : Fmt) (md : Mode) (node : Nat → Nat → FRes) : Prop :=
  (op, node) ∈ [(Red.sum, f.add md), (.max, f.minmax md true), (.min, f.minmax md false)] ∧ (op = .sum ∨ f.special ≠ .e4m3)

theorem Red.Stated.float {op : Red} {node : Nat → Nat → FRes} (h : op.Stated f md node) : op.float f md = node := by
  obtain ⟨among, kind⟩ := h
  simp only [List.mem_cons, Prod.mk.injEq, List.not_mem_nil, or_false] at among
  rcases among with ⟨rfl, rfl⟩ | ⟨rfl, rfl⟩ | ⟨rfl, rfl⟩
  · rfl
  · have plain := Fmt.isCarried_of_ne (kind.resolve_left (by decide))
    funext x y
    simp only [Red.float, plain, Bool.false_eq_true, ↓reduceIte]
    rfl
  · have plain := Fmt.isCarried_of_ne (kind.resolve_left (by decide))
    funext x y
    simp only [Red.float, plain, Bool.false_eq_true, ↓reduceIte]
    rfl

/-- No result of a stated tree is the carried infinity. -/
theorem Red.Stated.not_carried (known : f ∈ Fmt.known) {op : Red} {node : Nat → Nat → FRes} (h : op.Stated f md node)
    (small : ∀ i, e i < 2 ^ f.width) (k : Nat) {l : List Nat} (some_ : l ≠ []) (leaves : ∀ x ∈ l, ∃ j, x = op.leaf f active e j) :
    f.isCarried (tree (op.float f md) k l).val = false := by
  by_cases kind : f.special = .e4m3
  · obtain rfl := h.2.resolve_right (not_not.2 kind)
    refine Fmt.isCarried_of_lt known (tree_val (P := (· < 2 ^ f.width)) (fun x y => ?_) k l some_ fun x hx => ?_)
    · obtain rfl := (Fmt.eq_of_special known).2.1 kind
      exact Fmt.e4m3_addVals_lt md _ _
    · obtain ⟨j, rfl⟩ := leaves x hx
      unfold Red.leaf
      split
      · exact small j
      · show f.signed true 0 < _
        rw [f.signed_eq]
        exact f.signBit_lt true
  · exact Fmt.isCarried_of_ne kind _

theorem Red.leaves_of_map {op : Red} (n : Nat) :
    ∀ x ∈ (upTo n).map (op.leaf f active e), ∃ j, x = op.leaf f active e j := by
  intro x hx
  obtain ⟨j, -, rfl⟩ := List.mem_map.1 hx
  exact ⟨j, rfl⟩

theorem upTo_map_ne_nil {n : Nat} (h : n ≠ 0) (g : Nat → Nat) : (upTo n).map g ≠ [] := by
  simpa [upTo] using h

/-- A reduction is its tree, but for one active element alone. -/
theorem Red.Stated.reduce_eq (known : f ∈ Fmt.known) (tag : t.fmt = some f) {op : Red} {node : Nat → Nat → FRes}
    (h : op.Stated f md node) (small : ∀ i, e i < 2 ^ f.width) {vl : Nat} (many : ¬(vl = 1 ∧ active 0 = true)) :
    op.reduce t md vl active e = tree node (treeLevels vl) ((upTo (2 ^ treeLevels vl)).map (op.leaf f active e)) := by
  have plain := h.not_carried known small (active := active) (treeLevels vl)
    (upTo_map_ne_nil (Nat.two_pow_pos (treeLevels vl)).ne' _) (Red.leaves_of_map _)
  have other : (decide (vl = 1) && active 0) = false := by simpa using many
  unfold Red.reduce
  rw [tag]
  dsimp only
  rw [other, if_neg Bool.false_ne_true, show (fun j => if active j then e j else op.floatIdentity f) = op.leaf f active e from rfl, plain,
    if_neg Bool.false_ne_true, h.float]

/-- The one element of a tree without a node. -/
theorem Red.Stated.reduce_one (known : f ∈ Fmt.known) (tag : t.fmt = some f) {op : Red} {node : Nat → Nat → FRes}
    (h : op.Stated f md node) (small : ∀ i, e i < 2 ^ f.width) (act : active 0 = true) :
    op.reduce t md 1 active e =
      if op = .sum then f.convert f md (e 0) else if f.isNanCode (e 0) then f.nanFrom md [e 0] else ⟨f.daz md (e 0), 0⟩ := by
  have single : op.single f md (e 0) =
      if op = .sum then f.convert f md (e 0) else if f.isNanCode (e 0) then f.nanFrom md [e 0] else ⟨f.daz md (e 0), 0⟩ := by
    have decoded : (f.decode (e 0)).isNan = f.isNanCode (e 0) := Fmt.isNan_read (md := {}) known (e 0)
    have nan (code : f.isNanCode (e 0) = true) : f.nanResult md [f.decode (e 0)] = f.nanFrom md [e 0] :=
      Fmt.nanResult_read known {} [e 0] (by simpa using small 0) (by simpa using code)
    have extreme : (if (f.decode (e 0)).isNan then f.nanResult md [f.decode (e 0)] else ⟨f.daz md (e 0), 0⟩) =
        if f.isNanCode (e 0) then f.nanFrom md [e 0] else ⟨f.daz md (e 0), 0⟩ := by
      rw [decoded]
      split
      · next code => exact nan code
      · rfl
    obtain ⟨among, -⟩ := h
    simp only [List.mem_cons, Prod.mk.injEq, List.not_mem_nil, or_false] at among
    rcases among with ⟨rfl, -⟩ | ⟨rfl, -⟩ | ⟨rfl, -⟩
    · rfl
    · exact extreme
    · exact extreme
  have plain : f.isCarried (op.single f md (e 0)).val = false := by
    by_cases kind : f.special = .e4m3
    · obtain rfl := h.2.resolve_right (not_not.2 kind)
      refine Fmt.isCarried_of_lt known ?_
      obtain rfl := (Fmt.eq_of_special known).2.1 kind
      exact Fmt.e4m3_ofVal_lt md _
    · exact Fmt.isCarried_of_ne kind _
  unfold Red.reduce
  rw [tag, ← single]
  dsimp only
  rw [act, show (decide (1 = 1) && true) = true from rfl, if_pos rfl, plain, if_neg Bool.false_ne_true]

theorem Red.leaf_shift (op : Red) (n j : Nat) :
    op.leaf f active e (n + j) = op.leaf f (fun j => active (j + n)) (fun j => e (j + n)) j := by
  unfold Red.leaf
  rw [Nat.add_comm]

/-- Floating reductions (R60, R128). -/
theorem Red.Stated.reductions (known : f ∈ Fmt.known) (tag : t.fmt = some f) {op : Red} {node : Nat → Nat → FRes}
    (h : op.Stated f md node) (small : ∀ i, e i < 2 ^ f.width) :
    op.reduce t md 0 active e = ⟨op.leaf f active e 0, 0⟩ ∧
      (active 0 = false → op.reduce t md 1 active e = ⟨op.floatIdentity f, 0⟩) ∧
      op.reduce t md 2 active e = node (op.leaf f active e 0) (op.leaf f active e 1) ∧
      ∀ k,
        (∀ vl, 2 ^ k < vl → vl ≤ 2 ^ (k + 1) → op.reduce t md vl active e = op.reduce t md (2 ^ (k + 1)) active e) ∧
        (1 ≤ k → let l := op.reduce t md (2 ^ k) active e
         let r := op.reduce t md (2 ^ k) (fun j => active (j + 2 ^ k)) fun j => e (j + 2 ^ k)
         op.reduce t md (2 ^ (k + 1)) active e = ⟨(node l.val r.val).val, l.fl ||| r.fl ||| (node l.val r.val).fl⟩) := by
  have many {vl : Nat} (ne : vl ≠ 1) (active : Nat → Bool) : ¬(vl = 1 ∧ active 0 = true) := fun one => ne one.1
  have power {k : Nat} (pos : 1 ≤ k) : treeLevels (2 ^ k) = k ∧ 2 ^ k ≠ 1 := by
    obtain ⟨n, rfl⟩ : ∃ n, k = n + 1 := ⟨k - 1, by omega⟩
    have := Nat.two_pow_pos n
    rw [treeLevels_eq (k := n) (by rw [Nat.pow_succ]; omega) le_rfl]
    exact ⟨rfl, by rw [Nat.pow_succ]; omega⟩
  refine ⟨?_, fun idle => ?_, ?_, fun k => ⟨fun vl above below => ?_, fun pos => ?_⟩⟩
  · rw [h.reduce_eq known tag small (many (by decide) active)]
    rfl
  · rw [h.reduce_eq known tag small fun one => absurd (idle.symm.trans one.2) Bool.false_ne_true]
    exact congrArg (FRes.mk · 0) (by simp [treeLevels, bitLen, upTo, Red.leaf, idle])
  · rw [h.reduce_eq known tag small (many (by decide) active)]
    have flags : (node (op.leaf f active e 0) (op.leaf f active e 1)).fl ||| 0 ||| 0 =
        (node (op.leaf f active e 0) (op.leaf f active e 1)).fl := (BitVec.or_zero ..).trans (BitVec.or_zero ..)
    exact congrArg (FRes.mk _) flags
  · have ne : vl ≠ 1 := by have := Nat.two_pow_pos k; omega
    rw [h.reduce_eq known tag small (many ne active), h.reduce_eq known tag small (many (power (Nat.succ_pos k)).2 active),
      treeLevels_eq above below, (power (Nat.succ_pos k)).1]
  · dsimp only
    rw [h.reduce_eq known tag small (many (power (Nat.succ_pos k)).2 active), h.reduce_eq known tag small (many (power pos).2 active),
      h.reduce_eq known tag (fun i => small (i + 2 ^ k)) (many (power pos).2 _), (power (Nat.succ_pos k)).1, (power pos).1]
    have halves : (upTo (2 ^ (k + 1))).map (op.leaf f active e) = (upTo (2 ^ k)).map (op.leaf f active e) ++
        (upTo (2 ^ k)).map (op.leaf f (fun j => active (j + 2 ^ k)) fun j => e (j + 2 ^ k)) := by
      unfold upTo
      rw [Nat.pow_succ, Nat.mul_two, List.range_add, List.map_append, List.map_map]
      exact congrArg _ (List.map_congr_left fun j _ => op.leaf_shift (2 ^ k) j)
    rw [halves]
    exact tree_append node k _ _ (by simp [upTo]) (by simp [upTo])

/-- The steps of floating scans (R130, R52). -/
theorem Red.scanStep_eq (known : f ∈ Fmt.known) (md : Mode) {x y : Nat} (hx : x < 2 ^ f.width) (hy : y < 2 ^ f.width) :
    Red.sum.scanStep f md x y = f.add md x y ∧
      (f.isNanCode x = false → f.isNanCode y = false → Red.max.scanStep f md x y = f.minmax md true x y) ∧
      (f.isNanCode x = true ∨ f.isNanCode y = true → Red.max.scanStep f md x y = f.nanFrom md [x, y]) ∧
      (f.special = .e4m3 → Red.max.scanStep f md (Red.max.floatIdentity f) y = ⟨y, 0⟩) := by
  have plainX := Fmt.isCarried_of_lt known hx
  have plainY := Fmt.isCarried_of_lt known hy
  have nanX : (f.decode x).isNan = f.isNanCode x := Fmt.isNan_read (md := {}) known x
  have nanY : (f.decode y).isNan = f.isNanCode y := Fmt.isNan_read (md := {}) known y
  have result (h : f.isNanCode x = true ∨ f.isNanCode y = true) : f.nanResult md [f.decode x, f.decode y] = f.nanFrom md [x, y] :=
    Fmt.nanResult_read known {} [x, y] (by simp [hx, hy]) (by simpa using h)
  unfold Red.scanStep
  refine ⟨?_, fun numberX numberY => ?_, fun nan => ?_, fun kind => ?_⟩
  · rw [plainX, if_neg Bool.false_ne_true, if_neg (by simp)]
    rfl
  · rw [plainX, nanX, nanY, numberX, numberY, if_neg Bool.false_ne_true, if_neg (by simp)]
    unfold Red.float
    dsimp only
    rw [plainX, plainY, if_neg Bool.false_ne_true, if_neg Bool.false_ne_true]
    rfl
  · rw [plainX, nanX, nanY, if_neg Bool.false_ne_true, if_pos ⟨rfl, by simpa using nan⟩, result nan]
  · have carried : f.isCarried (Red.max.floatIdentity f) = true := by
      rw [Red.floatIdentity, if_pos kind, Fmt.isCarried, kind]
      rfl
    rw [carried, if_pos rfl]

end

theorem Tag.live_of_isNumber {t : Tag} (h : t.isNumber = true) : t ≠ .dead := by
  rintro rfl
  exact absurd h (by decide)

theorem Tag.live_of_accepts {op : Red} {t : Tag} (h : op.accepts t = true) : t ≠ .dead := by
  cases op with
  | sum | max | min => exact Tag.live_of_isNumber h
  | and | or | xor => exact Tag.live_of_isInt h

/-- Every format of a tag is one of R44. -/
theorem Tag.known_of_fmt {t : Tag} {f : Fmt} (h : t.fmt = some f) : f ∈ Fmt.known := by
  cases t <;> cases h <;> decide

section
variable {s : State} (ready : s.VectorReady) {op : Red} {d a : BitVec 5} {m : BitVec 3}
  (fits : s.cur.Fits [(s.cur.getV a).tag]) (accepted : op.accepts (s.cur.getV a).tag = true)
include ready fits accepted

theorem vred_done : VectorDone s (vred op d a m s) d (s.cur.getV a).tag 1 (fun _ => some (op.reduce (s.cur.getV a).tag
    (Mode.ofFmode s.fmodeHere) s.cur.vlen (activeAt false s.cur.vlen (s.cur.getM m)) (s.cur.getV a).elem)) 0 :=
  reductionOf_done ready fits (Tag.live_of_accepts accepted) accepted rfl

theorem vscan_done :
    let t := (s.cur.getV a).tag
    let md := Mode.ofFmode s.fmodeHere
    let active := activeAt false s.cur.vlen (s.cur.getM m)
    let e := (s.cur.getV a).elem
    let next := fun (x y : Nat) => match t.fmt with
      | some f => op.scanStep f md x y
      | none => ⟨op.int t x y, 0⟩
    let start := match t.fmt with
      | some f => op.floatIdentity f
      | none => op.identity t
    let below := fun (i : Nat) => ((List.range i).filter active).foldl (fun x j => (next x (e j)).val) start
    VectorDone s (vscan op d a m s) d t s.cur.vlen (fun i => if active i then some (next (below i) (e i)) else none) 0 := by
  refine reductionOf_done ready fits (Tag.live_of_accepts accepted) accepted (Prod.ext ?_ rfl)
  have steps (next : Nat → Nat → FRes) (start : Nat) :=
    scanFrom_eq next (activeAt false s.cur.vlen (s.cur.getM m)) (s.cur.getV a).elem s.cur.vlen 0 start
  simp only [← List.range_eq_range', Nat.sub_zero] at steps
  cases tag : (s.cur.getV a).tag.fmt with
  | some f => exact steps (op.scanStep f (Mode.ofFmode s.fmodeHere)) (op.floatIdentity f)
  | none => exact steps (fun x y => ⟨op.int (s.cur.getV a).tag x y, 0⟩) (op.identity (s.cur.getV a).tag)

end

/-- Settles O31: trees are joined from the trees of their halves, and a scan is the list of its running values. -/
theorem reductionResults : Obligations.ReductionResults := by
  refine ⟨?_, fun t md vl active e int small => Red.reduce_int int md vl active small, fun t x y int hx hy => ?_,
    fun t f md active e number tag _ small => ?_⟩
  · intro s d a m ready t vl md active e fits
    refine ⟨fun r among accepted => ?_, fun r among accepted => ?_⟩
    · simp only [List.mem_cons, List.not_mem_nil, or_false] at among
      rcases among with rfl | rfl | rfl | rfl | rfl | rfl <;> exact vred_done ready fits accepted
    · simp only [List.mem_cons, List.not_mem_nil, or_false] at among
      rcases among with rfl | rfl <;> exact vscan_done ready fits accepted
  · exact ⟨rfl, rfl, (Red.max_identity int).2, int_max_step t x y, max_step_mem t x y⟩
  · have known := Tag.known_of_fmt tag
    rw [Tag.width_of_fmt tag] at small
    refine ⟨f.signed_eq true 0, fun other => ⟨?_, if_neg other⟩, fun op node among kind => ?_, fun x y hx hy => ?_⟩
    · rw [Red.floatIdentity, if_neg other, f.signed_eq]
    · have stated : op.Stated f md node := ⟨among, kind⟩
      obtain ⟨none, idle, two, rest⟩ := stated.reductions (active := active) known tag small
      exact ⟨none, idle, fun act => stated.reduce_one known tag small act, two, rest⟩
    · rw [Tag.width_of_fmt tag] at hx hy
      exact Red.scanStep_eq known md hx hy

end Sys2Proof.Machine
end

section
/-! VFMA, `vwmul`, the function instructions and VCVT (R111, R114, R116, R120-R122): completion, products and conversions. -/

namespace Sys2Proof.Machine

/-! Tags -/

section
variable {t u : Tag}

/-- The wider tag of an integer tag (R111). -/
theorem Tag.widen_int (int : t.isInt = true) (wide : t.widen = some u) :
    u.isInt = true ∧ u.isSigned = t.isSigned ∧ u.width = 2 * t.width := by
  cases t <;> cases wide <;> cases int <;> decide

/-- The wider tag of a floating tag. -/
theorem Tag.live_of_widen (wide : t.widen = some u) : t ≠ .dead ∧ u ≠ .dead := by
  cases t <;> cases wide <;> decide

theorem Tag.live_of_isF (h : t.isF = true) : t ≠ .dead := by
  rintro rfl
  exact absurd h (by decide)

/-- A live tag is an integer tag or has a format. -/
theorem Tag.int_or_fmt (live : t ≠ .dead) : t.isInt = true ∨ ∃ f, t.fmt = some f := by
  cases h : t.fmt with
  | some f => exact .inr ⟨f, rfl⟩
  | none =>
    refine .inl ?_
    revert live h
    cases t <;> decide

end

/-! Completion -/

theorem Hart.fits_two {h : Hart} {t u : Tag} (fits : h.Fits [t, u]) : h.Fits [t] ∧ h.Fits [u] :=
  ⟨fun v hv => fits v (by rw [List.mem_singleton.1 hv]; exact List.mem_cons_self),
    fun v hv => fits v (List.mem_cons_of_mem _ hv)⟩

/-- Where b has the tag of a, so has every source. -/
theorem sources_of_same {s : State} {f : BitVec 2} {a b : BitVec 5} (same : f = 0 → (s.cur.getV b).tag = (s.cur.getV a).tag) :
    s.cur.bTag f b (s.cur.getV a).tag = (s.cur.getV a).tag ∧
      ∀ r ∈ sourceRegs f a b, (s.cur.getV r).tag = (s.cur.getV a).tag := by
  by_cases vector : f = 0
  · subst vector
    refine ⟨same rfl, fun r hr => ?_⟩
    rcases List.mem_pair.1 hr with rfl | rfl
    · rfl
    · exact same rfl
  · refine ⟨if_neg vector, fun r hr => ?_⟩
    have only : sourceRegs f a b = [a] := if_neg vector
    rw [only, List.mem_singleton] at hr
    rw [hr]

section
variable {s : State} (ready : s.VectorReady) {f : BitVec 2} {d a b : BitVec 5} {m : BitVec 3}
include ready

theorem vfma_elementWise {i : Instr} {negP negC : Bool} (h : exec i s = vfma negP negC f d a b m s)
    (same : f = 0 → (s.cur.getV b).tag = (s.cur.getV a).tag) (number : (s.cur.getV a).tag.isNumber = true)
    (addend : (s.cur.getV d).tag = (s.cur.getV a).tag ∨ (s.cur.getV a).tag.widen = some (s.cur.getV d).tag)
    (fits : s.cur.Fits [(s.cur.getV a).tag, (s.cur.getV d).tag]) :
    ElementWise s (exec i s) f d a b m false (s.cur.getV d).tag
      (fmaElem negP negC (Mode.ofFmode s.fmodeHere) (s.cur.getV a).tag (s.cur.getV d).tag) := by
  obtain ⟨bTag, sources⟩ := sources_of_same same
  have live := Tag.live_of_isNumber number
  have liveD : (s.cur.getV d).tag ≠ .dead := by
    rcases addend with equal | wide
    · rw [equal]; exact live
    · exact (Tag.live_of_widen wide).2
  obtain ⟨fitsA, fitsD⟩ := Hart.fits_two fits
  refine elementWise_of_binary ready h (fun r hr => ?_) ?_ fitsD
  · rcases List.mem_append.1 hr with source | dest
    · rw [sources r source]
      exact ⟨live, fitsA⟩
    · obtain rfl : r = d := by simpa using dest
      exact ⟨liveD, fitsD⟩
  · rw [bTag]
    simpa [number] using addend

theorem vwmul_elementWise {u : Tag} (same : f = 0 → (s.cur.getV b).tag = (s.cur.getV a).tag)
    (wide : (s.cur.getV a).tag.widen = some u) (fits : s.cur.Fits [(s.cur.getV a).tag, u]) :
    ElementWise s (exec (.vwmul f d a b m) s) f d a b m false u
      (fun x y _ => wideMulElem (Mode.ofFmode s.fmodeHere) (s.cur.getV a).tag x y) := by
  obtain ⟨bTag, sources⟩ := sources_of_same same
  obtain ⟨fitsA, fitsU⟩ := Hart.fits_two fits
  have tag : (s.cur.getV a).tag.widen.getD .dead = u := by rw [wide]; rfl
  have done := elementWise_of_binary ready (i := .vwmul f d a b m) (d := d) (readsD := false)
    (rt := fun t _ => t.widen.getD .dead) rfl (fun r hr => ?_) ?_ (by rw [tag]; exact fitsU)
  · rwa [tag] at done
  · rw [sources r (by simpa using hr)]
    exact ⟨(Tag.live_of_widen wide).1, fitsA⟩
  · rw [bTag, wide]
    simp

theorem function_elementWise {i : Instr} {fn : BitVec 6 → Tag → Nat → FRes} {value : Nat → FRes}
    (h : exec i s = unary d a m Tag.isF fn s) (isF : (s.cur.getV a).tag.isF = true) (fits : s.cur.Fits [(s.cur.getV a).tag])
    (eq : ∀ x, fn s.fmodeHere (s.cur.getV a).tag x = value x) :
    ElementWise s (exec i s) 0 d a a m false (s.cur.getV a).tag (fun x _ _ => value x) := by
  have done := elementWise_of_unary ready h (Tag.live_of_isF isF) isF fits
  simpa only [eq] using done

/-- A conversion completes on every live source. -/
theorem vcvt_elementWise {i : Instr} {r : BitVec 3} {u : BitVec 4} {sat : Bool} (h : exec i s = vcvt d a r m u sat s)
    (live : (s.cur.getV a).tag ≠ .dead) (fits : s.cur.Fits [(s.cur.getV a).tag, Tag.ofCode u.toNat]) :
    ElementWise s (exec i s) 0 d a a m false (Tag.ofCode u.toNat)
      (fun x _ _ => convertElem (s.cur.getV a).tag (Tag.ofCode u.toNat) (vcvtMode s.fmodeHere r sat) x) := by
  obtain ⟨fitsA, fitsU⟩ := Hart.fits_two fits
  refine elementWise_of_binary ready h (fun r hr => ?_) rfl fitsU
  obtain rfl : r = a := by simpa [sourceRegs] using hr
  exact ⟨live, fitsA⟩

theorem vcvtSr_elementWise {i : Instr} {u : BitVec 4} {sat : Bool} (h : exec i s = vcvtSr d a b m u sat s)
    (live : (s.cur.getV a).tag ≠ .dead) (fits : s.cur.Fits [(s.cur.getV a).tag, Tag.ofCode u.toNat])
    (random : (s.cur.getV b).tag = .n32) (float : (Tag.ofCode u.toNat).fmt.isSome = true) (fitsR : s.cur.Fits [.n32]) :
    ElementWise s (exec i s) 0 d a b m false (Tag.ofCode u.toNat) (fun x y _ =>
      stochasticElem (s.cur.getV a).tag (Tag.ofCode u.toNat) { Mode.ofFmode s.fmodeHere with sat := sat } x y) := by
  obtain ⟨fitsA, fitsU⟩ := Hart.fits_two fits
  refine elementWise_of_binary ready h (fun r hr => ?_) ?_ fitsU
  · have source : r = a ∨ r = b := by simpa [sourceRegs] using hr
    rcases source with rfl | rfl
    · exact ⟨live, fitsA⟩
    · rw [random]
      exact ⟨by decide, fitsR⟩
  · have tag : s.cur.bTag 0 b (s.cur.getV a).tag = .n32 := random
    rw [tag, float]
    rfl

end

/-! Products -/

/-- The sign that a VFMA gives to its product or its addend. -/
def signFactor (neg : Bool) : Int := if neg then -1 else 1

theorem signFactor_mul (neg : Bool) (x : Int) : (if neg then -x else x) = signFactor neg * x := by
  cases neg
  · exact (one_mul x).symm
  · exact (neg_one_mul x).symm

/-- The low bits of an integer stand for it modulo their power of two. -/
theorem wrap_emod (n : Nat) (v : Int) : wrap n v < 2 ^ n ∧ ((wrap n v : Int) - v) % (2 ^ n : Nat) = 0 := by
  have pos : (0 : Int) < (2 ^ n : Nat) := Int.natCast_pos.2 (Nat.two_pow_pos n)
  have value : (wrap n v : Int) = v % (2 ^ n : Nat) := Int.toNat_of_nonneg (Int.emod_nonneg _ pos.ne')
  refine ⟨?_, ?_⟩
  · have := Int.emod_lt_of_pos v pos
    omega
  · rw [value, Int.sub_emod, Int.emod_emod_of_dvd _ (dvd_refl _), sub_self, Int.zero_emod]

section
variable {t u : Tag} {md : Mode} {negP negC : Bool} {x y z : Nat}

theorem fmaElem_int (int : t.isInt = true) :
    fmaElem negP negC md t u x y z =
      ⟨wrap u.width (signFactor negP * (t.int x * t.int y) + signFactor negC * u.int z), 0⟩ := by
  unfold fmaElem
  rw [Tag.fmt_of_isInt int, ← signFactor_mul, ← signFactor_mul]

/-- A product of two elements fits the wider tag. -/
theorem Tag.int_mul_bounds (int : t.isInt = true) (wide : t.widen = some u) (hx : x < 2 ^ t.width) (hy : y < 2 ^ t.width) :
    u.least ≤ t.int x * t.int y ∧ t.int x * t.int y ≤ u.greatest := by
  obtain ⟨leastX, mostX⟩ := Tag.int_bounds int hx
  obtain ⟨leastY, mostY⟩ := Tag.int_bounds int hy
  obtain ⟨-, signed, width⟩ := Tag.widen_int int wide
  obtain ⟨n, hn⟩ := Tag.width_pos int
  have double : u.width - 1 = n + n + 1 := by omega
  have whole : u.width = n + n + 1 + 1 := by omega
  unfold Tag.least Tag.greatest at *
  rw [signed]
  cases kind : t.isSigned with
  | false =>
    simp only [kind, Bool.false_eq_true, ↓reduceIte] at *
    rw [whole]
    rw [hn] at mostX mostY
    have wideX : t.int x ≤ 2 ^ (n + 1) - 1 := by exact_mod_cast mostX
    have wideY : t.int y ≤ 2 ^ (n + 1) - 1 := by exact_mod_cast mostY
    have square : (2 : Int) ^ (n + n + 1 + 1) = 2 ^ (n + 1) * 2 ^ (n + 1) := by rw [← pow_add]; congr 1; omega
    push_cast
    rw [square]
    exact ⟨mul_nonneg leastX leastY, by nlinarith [mul_le_mul wideX wideY leastY (leastX.trans wideX)]⟩
  | true =>
    simp only [kind, ↓reduceIte] at *
    rw [double]
    rw [hn, Nat.add_sub_cancel] at leastX mostX leastY mostY
    push_cast at *
    have square : (2 : Int) ^ (n + n + 1) = 2 * (2 ^ n * 2 ^ n) := by rw [pow_succ, pow_add]; ring
    have pos : (1 : Int) ≤ 2 ^ n := one_le_pow₀ (by decide)
    have sizeX : |t.int x| ≤ 2 ^ n := abs_le.2 ⟨leastX, by linarith⟩
    have sizeY : |t.int y| ≤ 2 ^ n := abs_le.2 ⟨leastY, by linarith⟩
    have size : |t.int x * t.int y| ≤ 2 ^ n * 2 ^ n := by
      rw [abs_mul]
      exact mul_le_mul sizeX sizeY (abs_nonneg _) (by positivity)
    obtain ⟨low, high⟩ := abs_le.1 size
    rw [square]
    constructor <;> nlinarith

/-- `vwmul` on integers is exact (R114). -/
theorem wideMulElem_int (int : t.isInt = true) (wide : t.widen = some u) (hx : x < 2 ^ t.width) (hy : y < 2 ^ t.width) :
    (wideMulElem md t x y).fl = 0 ∧ u.int (wideMulElem md t x y).val = t.int x * t.int y := by
  have eq : wideMulElem md t x y = ⟨wrap u.width (t.int x * t.int y), 0⟩ := by
    unfold wideMulElem
    rw [Tag.fmt_of_isInt int, wide]
    rfl
  obtain ⟨least, greatest⟩ := Tag.int_mul_bounds int wide hx hy
  rw [eq]
  exact ⟨rfl, (Tag.int_wrap (Tag.widen_int int wide).1 least greatest).2⟩

variable {f g : Fmt}

theorem fmaElem_float (tf : t.fmt = some f) (ug : u.fmt = some g) :
    fmaElem negP negC md t u x y z = g.fmaVals md negP negC (f.read md x) (f.read md y) (g.read md z) := by
  unfold fmaElem
  rw [tf, ug]

theorem wideMulElem_float (wide : t.widen = some u) (tf : t.fmt = some f) (ug : u.fmt = some g) :
    wideMulElem md t x y = g.mulVals md (f.read md x) (f.read md y) := by
  unfold wideMulElem
  rw [wide, Option.getD_some, tf]
  dsimp only
  rw [ug]

theorem ratOf_xor (neg s : Bool) (m : Nat) (e : Int) : ratOf (s ^^ neg) m e = (signFactor neg : Rat) * ratOf s m e := by
  cases neg
  · rw [Bool.xor_false]
    simp [signFactor]
  · rw [Bool.xor_true, ratOf_not]
    simp [signFactor]

/-- Fused sums of finite values with their signs (R114). -/
theorem Fmt.fmaVals_finite (target : g ∈ Fmt.known) {s₁ s₂ s₃ : Bool} {m n k : Nat} {e i j : Int} {v w c : Rat}
    (hv : v = ratOf s₁ m e) (hw : w = ratOf s₂ n i) (hc : c = ratOf s₃ k j) :
    let total := (signFactor negP : Rat) * (v * w) + signFactor negC * c
    let r := g.fmaVals md negP negC (.fin s₁ m e) (.fin s₂ n i) (.fin s₃ k j)
    g.Rounds md r total ∧ (total = 0 → r = g.zeroOf md ((s₁ ^^ s₂) ^^ negP) (s₃ ^^ negC)) := by
  have product : (signFactor negP : Rat) * (v * w) = ratOf ((s₁ ^^ s₂) ^^ negP) (m * n) (e + i) := by
    rw [ratOf_xor, hv, hw, ← ratOf_mul]
  have addend : (signFactor negC : Rat) * c = ratOf (s₃ ^^ negC) k j := by rw [ratOf_xor, hc]
  have eq : g.fmaVals md negP negC (.fin s₁ m e) (.fin s₂ n i) (.fin s₃ k j) =
      let r := addExact md ((s₁ ^^ s₂) ^^ negP) (m * n) (e + i) (s₃ ^^ negC) k j
      g.round md r.1 r.2.1 r.2.2 := by
    cases negC
    · rw [Bool.xor_false]
      rfl
    · rw [Bool.xor_true]
      rfl
  rw [eq]
  exact Fmt.addExact_rounds (Fmt.regular target) product addend

theorem Fmt.fmaVals_nan_signed {a b c : FVal} (h : a.isNan = true ∨ b.isNan = true) :
    g.fmaVals md negP negC a b c = g.nanResult md [a, b, if negC then c.negate else c] := by
  cases a with
  | nan => cases b <;> rfl
  | inf | fin => cases b with
    | nan => rfl
    | inf | fin => exact absurd h (by simp [FVal.isNan])

theorem Fmt.nanResult_negate_third (g : Fmt) (md : Mode) (a b c : FVal) :
    g.nanResult md [a, b, c.negate] = g.nanResult md [a, b, c] := by
  cases a <;> cases b <;> cases c <;> rfl

/-- Under `dn` every NaN result is the default one. -/
theorem Fmt.nanResult_default (g : Fmt) {md : Mode} (dn : md.dn = true) (ops : List FVal) : (g.nanResult md ops).val = g.defaultNan := by
  unfold Fmt.nanResult
  dsimp only
  split
  · exact if_pos dn
  · rfl

/-- Fused sums and wide products on floating elements (R114). -/
theorem fmaElem_float_values (known : f ∈ Fmt.known) (target : g ∈ Fmt.known) (tf : t.fmt = some f) (ug : u.fmt = some g)
    (hx : x < 2 ^ f.width) (hy : y < 2 ^ f.width) (hz : z < 2 ^ g.width) :
    (f.isFinite (f.daz md x) = true → f.isFinite (f.daz md y) = true →
      (g.isFinite (g.daz md z) = true →
        g.Rounds md (fmaElem negP negC md t u x y z) ((signFactor negP : Rat) * (f.value (f.daz md x) * f.value (f.daz md y)) +
          signFactor negC * g.value (g.daz md z)) ∧
        ((signFactor negP : Rat) * (f.value (f.daz md x) * f.value (f.daz md y)) + signFactor negC * g.value (g.daz md z) = 0 →
          fmaElem negP negC md t u x y z = g.zeroOf md ((f.sign x ^^ f.sign y) ^^ negP) (g.sign z ^^ negC))) ∧
      (t.widen = some u → g.Rounds md (wideMulElem md t x y) (f.value (f.daz md x) * f.value (f.daz md y)) ∧
        (f.value (f.daz md x) * f.value (f.daz md y) = 0 →
          wideMulElem md t x y = ⟨g.signBit (f.sign x ^^ f.sign y), 0⟩))) ∧
    (t = u → f.isNanCode x = true ∨ f.isNanCode y = true → fmaElem negP negC md t u x y z = f.nanFrom md [x, y, z]) ∧
    (t.widen = some u → md.dn = true → f.isNanCode x = true ∨ f.isNanCode y = true →
      (fmaElem negP negC md t u x y z).val = g.defaultNan ∧ (wideMulElem md t x y).val = g.defaultNan) := by
  have isNan (h : f.isNanCode x = true ∨ f.isNanCode y = true) : (f.read md x).isNan = true ∨ (f.read md y).isNan = true := by
    rwa [Fmt.isNan_read known, Fmt.isNan_read known]
  rw [fmaElem_float tf ug]
  refine ⟨fun finX finY => ?_, fun same nan => ?_, fun wide dn nan => ?_⟩
  · obtain ⟨m, e, readX, valueX⟩ := Fmt.read_finite known finX
    obtain ⟨n, i, readY, valueY⟩ := Fmt.read_finite known finY
    refine ⟨fun finZ => ?_, fun wide => ?_⟩
    · obtain ⟨k, j, readZ, valueZ⟩ := Fmt.read_finite target finZ
      rw [readX, readY, readZ]
      exact Fmt.fmaVals_finite target valueX valueY valueZ
    · rw [wideMulElem_float wide tf ug, readX, readY]
      exact Fmt.mul_rounds (Fmt.regular target) valueX valueY
  · obtain rfl : f = g := Option.some_injective _ (tf.symm.trans (same ▸ ug))
    have third : f.nanResult md [f.read md x, f.read md y, if negC then (f.read md z).negate else f.read md z] =
        f.nanResult md [f.read md x, f.read md y, f.read md z] := by
      cases negC
      · rfl
      · exact Fmt.nanResult_negate_third f md _ _ _
    rw [Fmt.fmaVals_nan_signed (isNan nan), third]
    refine Fmt.nanResult_read known md [x, y, z] (by simp [hx, hy, hz]) ?_
    rcases nan with nan | nan
    · exact ⟨x, by simp, nan⟩
    · exact ⟨y, by simp, nan⟩
  · rw [Fmt.fmaVals_nan_signed (isNan nan), wideMulElem_float wide tf ug, Fmt.mulVals_nan (isNan nan)]
    exact ⟨Fmt.nanResult_default g dn _, Fmt.nanResult_default g dn _⟩

end

/-! Conversions -/

section
variable {t u : Tag} {md : Mode} {x : Nat} {f : Fmt}

/-- A value held in range is one of the range. -/
theorem toIntSat_range (rm : Rm) {lo hi : Int} (least : lo ≤ 0) (greatest : 0 ≤ hi) (v : FVal) :
    lo ≤ (toIntSat rm lo hi v).1 ∧ (toIntSat rm lo hi v).1 ≤ hi := by
  cases v with
  | nan => exact ⟨least, greatest⟩
  | inf s =>
    show lo ≤ (if s then lo else hi) ∧ (if s then lo else hi) ≤ hi
    split <;> omega
  | fin s m e =>
    rw [toIntSat_fin_eq]
    dsimp only
    generalize signedInt s _ = k
    split
    · exact ⟨le_rfl, least.trans greatest⟩
    · split
      · exact ⟨least.trans greatest, le_rfl⟩
      · exact ⟨by omega, by omega⟩

/-- Conversions from a floating tag (R121). -/
theorem convertElem_of_fmt (tf : t.fmt = some f) :
    (∀ g, u.fmt = some g → u ≠ t → convertElem t u md x = f.convert g md x) ∧
      (u = t → convertElem t u md x = f.convert f { md with sat := false } x) ∧
      (u.isInt = true → (convertElem t u md x).val < 2 ^ u.width ∧
        (u.int (convertElem t u md x).val, (convertElem t u md x).fl) = toIntSat md.rm u.least u.greatest (f.read {} x)) := by
  unfold convertElem
  refine ⟨fun g ug other => ?_, fun same => ?_, fun int => ?_⟩
  · rw [tf, ug]
    exact if_neg other.symm
  · rw [same, tf]
    exact if_pos rfl
  · rw [tf, Tag.fmt_of_isInt int]
    have zero := Tag.int_bounds int (Nat.two_pow_pos u.width)
    rw [Tag.int_of_lt int (Nat.two_pow_pos _), if_neg (by simp)] at zero
    obtain ⟨least, greatest⟩ := toIntSat_range md.rm zero.1 zero.2 (f.decode x)
    obtain ⟨bound, value⟩ := Tag.int_wrap int least greatest
    exact ⟨bound, Prod.ext value rfl⟩

/-- An integer held in the range of a tag (R54). -/
theorem Tag.sat_eq (int : u.isInt = true) (v : Int) :
    (u.sat v).val < 2 ^ u.width ∧ u.int (u.sat v).val = max u.least (min u.greatest v) ∧
      (u.sat v).fl = if max u.least (min u.greatest v) = v then 0 else flSX := by
  have range := Tag.least_le_greatest int
  unfold Tag.sat
  split
  · next low =>
    obtain ⟨bound, value⟩ := Tag.int_wrap int le_rfl range
    have held : max u.least (min u.greatest v) = u.least := by omega
    rw [held, if_neg (by omega)]
    exact ⟨bound, value, rfl⟩
  · next notLow =>
    split
    · next high =>
      obtain ⟨bound, value⟩ := Tag.int_wrap int range le_rfl
      have held : max u.least (min u.greatest v) = u.greatest := by omega
      rw [held, if_neg (by omega)]
      exact ⟨bound, value, rfl⟩
    · next notHigh =>
      obtain ⟨bound, value⟩ := Tag.int_wrap int (not_lt.1 notLow) (not_lt.1 notHigh)
      have held : max u.least (min u.greatest v) = v := by omega
      rw [held, if_pos rfl]
      exact ⟨bound, value, rfl⟩

/-- Conversions from an integer tag (R121). -/
theorem convertElem_of_isInt (int : t.isInt = true) :
    (∀ g, u.fmt = some g → convertElem t u md x = g.ofInt md (t.int x)) ∧
      (u.isInt = true → (convertElem t u md x).val < 2 ^ u.width ∧
        (md.sat = true → u.int (convertElem t u md x).val = max u.least (min u.greatest (t.int x)) ∧
          (convertElem t u md x).fl = if u.int (convertElem t u md x).val = t.int x then 0 else flSX) ∧
        (md.sat = false → (convertElem t u md x).fl = 0 ∧
          (((convertElem t u md x).val : Int) - t.int x) % (2 ^ u.width : Nat) = 0)) := by
  unfold convertElem
  rw [Tag.fmt_of_isInt int]
  refine ⟨fun g ug => by rw [ug], fun target => ?_⟩
  rw [Tag.fmt_of_isInt target]
  dsimp only
  obtain ⟨bound, value, flags⟩ := Tag.sat_eq target (t.int x)
  cases md.sat with
  | true =>
    rw [if_pos rfl]
    refine ⟨bound, fun _ => ⟨value, ?_⟩, fun h => absurd h (by decide)⟩
    rw [flags, value]
  | false =>
    obtain ⟨low, congruent⟩ := wrap_emod u.width (t.int x)
    rw [if_neg Bool.false_ne_true]
    exact ⟨low, fun h => absurd h (by decide), fun _ => ⟨rfl, congruent⟩⟩

end

end Sys2Proof.Machine
end

section
/-! Stochastic rounding (R57): the discarded part decides with the random bits between two neighbours. -/

namespace Sys2Proof.Machine

section
variable {f : Fmt} {md : Mode} {s : Bool} {m : Nat} {e : Int} {rand : Nat}

/-- The magnitude bits at or below the value m × 2^e. -/
def Fmt.floorMag (f : Fmt) (m : Nat) (e : Int) : Nat := f.encode (f.lastPlace m e) (cutAt m e false (f.lastPlace m e)).1

/-- What a cut leaves is a significand of the format. -/
theorem Fmt.floorMag_significand (nonzero : m ≠ 0) : f.Significand (f.lastPlace m e) (cutAt m e false (f.lastPlace m e)).1 :=
  ((cutAt_cut (places_exact m e) fun h => absurd h Bool.false_ne_true).significand (places_exact m e) nonzero).1

/-- The value lies between those magnitude bits and the next. -/
theorem Fmt.floorMag_between (nonzero : m ≠ 0) : Between f (· ≤ (m : Rat) * 2 ^ e) (f.floorMag m e) := by
  have cut := cutAt_cut (places_exact m e) (q := f.lastPlace m e) fun h => absurd h Bool.false_ne_true
  have sig := Fmt.floorMag_significand (f := f) (e := e) nonzero
  exact ⟨sig.magnitude.trans_le cut.whole, fun h => cut.below (sig.magnitude_succ ▸ h)⟩

/-- The discarded part in units of 2^-32 of the last place. -/
def Fmt.discarded (f : Fmt) (m : Nat) (e : Int) : Nat :=
  if f.lastPlace m e ≤ e then 0 else ((m % 2 ^ (f.lastPlace m e - e).toNat) <<< 32) >>> (f.lastPlace m e - e).toNat

/-- The discarded part as a fraction of the interval between the neighbours. -/
theorem Fmt.discarded_eq (nonzero : m ≠ 0) :
    ⌊((m : Rat) * 2 ^ e - f.magnitude (f.floorMag m e)) / (f.magnitude (f.floorMag m e + 1) - f.magnitude (f.floorMag m e)) * 2 ^ 32⌋ =
      (f.discarded m e : Int) := by
  have sig := Fmt.floorMag_significand (f := f) (e := e) nonzero
  have unit := two_zpow_pos (f.lastPlace m e)
  have width : ((cutAt m e false (f.lastPlace m e)).1 + 1 : Nat) * (2 : Rat) ^ f.lastPlace m e -
      (cutAt m e false (f.lastPlace m e)).1 * 2 ^ f.lastPlace m e = 2 ^ f.lastPlace m e := by push_cast; ring
  rw [Fmt.floorMag, sig.magnitude, sig.magnitude_succ, width]
  unfold Fmt.discarded
  split
  · next fine =>
    have whole : (cutAt m e false (f.lastPlace m e)).1 = m <<< (e - f.lastPlace m e).toNat := by rw [cutAt, if_pos fine]
    rw [whole, shiftLeft_cast fine, sub_self, zero_div, zero_mul, Int.floor_zero]
    rfl
  · next coarse =>
    have quotient : (cutAt m e false (f.lastPlace m e)).1 = m / 2 ^ (f.lastPlace m e - e).toNat := by
      rw [cutAt, if_neg coarse, ← Nat.shiftRight_eq_div_pow]
    have scale : (2 : Rat) ^ f.lastPlace m e = ((2 ^ (f.lastPlace m e - e).toNat : Nat) : Rat) * 2 ^ e := zpow_eq_mul (by omega)
    generalize (f.lastPlace m e - e).toNat = n at quotient scale ⊢
    have parts : (m : Rat) = ((2 ^ n * (m / 2 ^ n) + m % 2 ^ n : Nat) : Rat) := by rw [Nat.div_add_mod]
    have power := two_zpow_pos e
    have ratio : ((m : Rat) * 2 ^ e - ((m / 2 ^ n : Nat) : Rat) * (((2 ^ n : Nat) : Rat) * 2 ^ e)) / (((2 ^ n : Nat) : Rat) * 2 ^ e) *
        2 ^ 32 = (((m % 2 ^ n * 2 ^ 32 : Nat) : Int) : Rat) / ((2 ^ n : Nat) : Rat) := by
      have numerator : (m : Rat) * 2 ^ e - ((m / 2 ^ n : Nat) : Rat) * (((2 ^ n : Nat) : Rat) * 2 ^ e) =
          ((m % 2 ^ n : Nat) : Rat) * 2 ^ e := by
        conv_lhs => rw [parts]
        push_cast
        ring
      rw [numerator, mul_div_mul_right _ _ power.ne']
      generalize m % 2 ^ n = rest
      push_cast
      ring
    rw [quotient, scale, ratio, Rat.floor_intCast_div_natCast, Nat.shiftLeft_eq, Nat.shiftRight_eq_div_pow]
    rfl

/-- What stochastic rounding delivers for magnitude bits. -/
def Fmt.deliverAt (f : Fmt) (md : Mode) (s : Bool) (mag : Nat) (any : Bool) : FRes :=
  if f.maxMag < mag then ⟨f.overflowVal { md with rm := if s then .rdn else .rup } s, flOF ||| flNX⟩
  else if decide (mag < 2 ^ f.fbits) && md.ftz && f.flushes && mag != 0 then ⟨f.signed s 0, flUF ||| flNX⟩
  else ⟨f.signed s mag, (if any then flNX else 0) ||| (if decide (mag < 2 ^ f.fbits) && any then flUF else 0)⟩

theorem Fmt.stochastic_fin (nonzero : m ≠ 0) :
    f.stochastic md (.fin s m e) rand = f.deliverAt md s
      (if 2 ^ 32 ≤ f.discarded m e + rand then f.floorMag m e + 1 else f.floorMag m e)
      (cutAt m e false (f.lastPlace m e)).2.2 := by
  have sig := Fmt.floorMag_significand (f := f) (e := e) nonzero
  unfold Fmt.stochastic Fmt.deliverAt
  dsimp only
  rw [if_neg nonzero, Fmt.floorMag, ← sig.encode_succ, ← apply_ite (f.encode _)]
  rfl

/-- The overflow of stochastic rounding is that of rounding away from zero. -/
theorem Fmt.toMax_away (f : Fmt) (md : Mode) (s : Bool) :
    f.ToMax { md with rm := if s then .rdn else .rup } s ↔ md.sat = true ∨ f.special = .e2m1 := by
  unfold Fmt.ToMax
  cases s <;> simp

/-- Magnitude bits within the format are delivered. -/
theorem Fmt.deliverAt_inside {mag : Nat} {any : Bool} (inside : mag ≤ f.maxMag)
    (unflushed : md.ftz = true → f.special = .ieee → 2 ^ f.fbits ≤ mag) :
    (f.deliverAt md s mag any).val = f.signBit s + mag ∧ (f.deliverAt md s mag any).fl.getLsbD 0 = any := by
  have plain : (decide (mag < 2 ^ f.fbits) && md.ftz && f.flushes && mag != 0) = false := by
    refine Bool.eq_false_iff.2 fun h => ?_
    simp only [Bool.and_eq_true, decide_eq_true_eq] at h
    obtain ⟨⟨⟨tiny, ftz⟩, flushes⟩, -⟩ := h
    exact absurd tiny (not_lt.2 (unflushed ftz (beq_iff_eq.1 flushes)))
  unfold Fmt.deliverAt
  rw [if_neg (not_lt.2 inside), plain, if_neg Bool.false_ne_true, f.signed_eq]
  refine ⟨rfl, ?_⟩
  show BitVec.getLsbD ((if any then flNX else 0) ||| (if decide (mag < 2 ^ f.fbits) && any then flUF else 0)) 0 = any
  cases any <;> cases decide (mag < 2 ^ f.fbits) <;> decide

/-- Stochastic rounding of the value m × 2^e (R57). -/
theorem Fmt.stochastic_values (rand_lt : rand < 2 ^ 32) (k : Nat) :
    let v := (m : Rat) * 2 ^ e
    let r := f.stochastic md (.fin s m e) rand
    let low := f.magnitude k
    let high := f.magnitude (k + 1)
    let up := 2 ^ 32 ≤ ⌊(v - low) / (high - low) * 2 ^ 32⌋ + rand
    let toMax := md.sat = true ∨ f.special = .e2m1
    (low ≤ v → v < high → k < f.maxMag ∨ k = f.maxMag ∧ ¬ up →
      (md.ftz = true → f.special = .ieee → 2 ^ f.fbits ≤ k) →
      (up → r.val = f.signBit s + (k + 1)) ∧ (¬ up → r.val = f.signBit s + k) ∧ (r.fl.getLsbD 0 = true ↔ v ≠ low)) ∧
    (f.magnitude (f.maxMag + 1) ≤ v ∨ k = f.maxMag ∧ low ≤ v ∧ v < high ∧ up →
      (toMax → r = ⟨f.signBit s + f.maxMag, flOF ||| flNX⟩) ∧
      (¬ toMax → r = ⟨f.signBit (s && !(f.special == .e4m3 && md.dn)) + (if f.special = .e4m3 then 0x7F else f.infMag),
        flOF ||| flNX⟩)) := by
  by_cases zero : m = 0
  · subst zero
    have value : ((0 : Nat) : Rat) * 2 ^ e = 0 := by rw [Nat.cast_zero, zero_mul]
    have none : f.stochastic md (.fin s 0 e) rand = ⟨f.signBit s, 0⟩ := congrArg (FRes.mk · 0) (f.signed_eq s 0)
    have least (h : f.magnitude k ≤ 0) : k = 0 := by
      by_contra positive
      exact absurd (f.magnitude_pos positive) (not_lt.2 h)
    have stays : ¬ (2 ^ 32 ≤ ⌊((0 : Rat) - f.magnitude 0) / (f.magnitude (0 + 1) - f.magnitude 0) * 2 ^ 32⌋ + (rand : Int)) := by
      rw [f.magnitude_zero, sub_self, zero_div, zero_mul, Int.floor_zero]
      omega
    dsimp only
    rw [value, none]
    refine ⟨fun low _ _ _ => ?_, ?_⟩
    · obtain rfl := least low
      exact ⟨fun up => absurd up stays, fun _ => rfl,
        iff_of_false (show ¬ (0 : BitVec 6).getLsbD 0 = true by decide) (not_not.2 f.magnitude_zero.symm)⟩
    · rintro (beyond | ⟨-, low, -, up⟩)
      · exact absurd (f.magnitude_pos (Nat.succ_ne_zero f.maxMag)) (not_lt.2 beyond)
      · obtain rfl := least low
        exact absurd up stays
  · have places := places_exact m e
    have between := Fmt.floorMag_between (f := f) (e := e) zero
    have any := (cutAt_cut places (q := f.lastPlace m e) fun h => absurd h Bool.false_ne_true).rest
    have low_eq := (Fmt.floorMag_significand (f := f) (e := e) zero).magnitude
    have discarded := Fmt.discarded_eq (f := f) (e := e) zero
    dsimp only
    rw [Fmt.stochastic_fin zero]
    have up_iff : (2 ^ 32 ≤ ⌊((m : Rat) * 2 ^ e - f.magnitude (f.floorMag m e)) / (f.magnitude (f.floorMag m e + 1) -
        f.magnitude (f.floorMag m e)) * 2 ^ 32⌋ + (rand : Int)) ↔ 2 ^ 32 ≤ f.discarded m e + rand := by
      rw [discarded]
      omega
    refine ⟨fun low high inside unflushed => ?_, fun beyond => ?_⟩
    · obtain rfl := between.unique places low (not_le.2 high)
      rw [up_iff] at inside ⊢
      by_cases up : 2 ^ 32 ≤ f.discarded m e + rand
      · have below := inside.resolve_right fun top => top.2 up
        obtain ⟨val, flag⟩ := Fmt.deliverAt_inside (s := s) (any := (cutAt m e false (f.lastPlace m e)).2.2) (md := md)
          (Nat.succ_le_of_lt below) (fun ftz ieee => (unflushed ftz ieee).trans (Nat.le_succ _))
        rw [if_pos up]
        refine ⟨fun _ => val, fun stays => absurd up stays, ?_⟩
        rw [flag, any, ← low_eq]
        exact lt_iff_le_and_ne.trans ⟨fun h => h.2.symm, fun h => ⟨low, h.symm⟩⟩
      · have within : f.floorMag m e ≤ f.maxMag := inside.elim le_of_lt fun top => top.1.le
        obtain ⟨val, flag⟩ := Fmt.deliverAt_inside (s := s) (any := (cutAt m e false (f.lastPlace m e)).2.2) (md := md) within unflushed
        rw [if_neg up]
        refine ⟨fun leaves => absurd leaves up, fun _ => val, ?_⟩
        rw [flag, any, ← low_eq]
        exact lt_iff_le_and_ne.trans ⟨fun h => h.2.symm, fun h => ⟨low, h.symm⟩⟩
    · have exceeds : f.maxMag < if 2 ^ 32 ≤ f.discarded m e + rand then f.floorMag m e + 1 else f.floorMag m e := by
        rcases beyond with above | ⟨rfl, low, high, up⟩
        · have := (between.upto_iff places _).1 above
          split <;> omega
        · have same := between.unique places low (not_le.2 high)
          rw [same, up_iff] at up
          rw [if_pos up]
          omega
      have overflow : f.deliverAt md s (if 2 ^ 32 ≤ f.discarded m e + rand then f.floorMag m e + 1 else f.floorMag m e)
          (cutAt m e false (f.lastPlace m e)).2.2 = ⟨f.overflowVal { md with rm := if s then .rdn else .rup } s, flOF ||| flNX⟩ :=
        if_pos exceeds
      rw [overflow]
      exact ⟨fun h => by rw [Fmt.overflowVal_of_toMax ((f.toMax_away md s).2 h)],
        fun h => by rw [Fmt.overflowVal_of_not_toMax (mt (f.toMax_away md s).1 h)]⟩

end

/-- The operand of a stochastic conversion as sign, significand and exponent. -/
theorem stochasticElem_operand {t u : Tag} {g : Fmt} {md : Mode} {x rand : Nat} {v : Rat} {s : Bool} (ug : u.fmt = some g)
    (float : ∀ f, t.fmt = some f → f.isFinite (f.daz md x) = true ∧ s = x.testBit (f.width - 1) ∧ v = |f.value (f.daz md x)|)
    (int : t.isInt = true → s = decide (t.int x < 0) ∧ v = |(t.int x : Rat)|) (live : t ≠ .dead) :
    ∃ (m : Nat) (e : Int), v = (m : Rat) * 2 ^ e ∧ stochasticElem t u md x rand = g.stochastic md (.fin s m e) rand := by
  unfold stochasticElem
  rw [ug]
  rcases Tag.int_or_fmt live with isInt | ⟨f, tf⟩
  · obtain ⟨rfl, rfl⟩ := int isInt
    refine ⟨(t.int x).natAbs, 0, ?_, by rw [Tag.fmt_of_isInt isInt]⟩
    rw [zpow_zero, mul_one, Nat.cast_natAbs, Int.cast_abs]
  · obtain ⟨finite, rfl, rfl⟩ := float f tf
    obtain ⟨m, e, read, value⟩ := Fmt.read_finite (Tag.known_of_fmt tf) finite
    refine ⟨m, e, by rw [value, abs_ratOf], ?_⟩
    rw [tf]
    dsimp only
    rw [read]
    rfl

end Sys2Proof.Machine
end

section
/-! The bounded functions of R116 and R117: a result near the exact value, and exact results. -/

namespace Sys2Proof.Machine

section
variable {f : Fmt} {md : Mode} {s : Bool} {m : Nat} {e : Int} {sticky : Bool}

/-! Roundings between known neighbours -/

theorem cutAt_fst (m : Nat) (e : Int) (sticky : Bool) (q : Int) : (cutAt m e sticky q).1 = (cutAt m e false q).1 := by
  unfold cutAt
  split <;> rfl

/-- Whatever lies beyond the cut, a rounding delivers one of the two neighbours. -/
theorem Fmt.round_delivers (nonzero : m ≠ 0) :
    ∃ up any tiny, f.round md s m e sticky = f.deliver md s (f.floorMag m e) up any tiny := by
  have sig := Fmt.floorMag_significand (f := f) (e := e) nonzero
  rw [← cutAt_fst m e sticky] at sig
  have eq := Fmt.round_eq_deliver (md := md) (s := s) sig (by simp [nonzero])
  have same : f.encode (f.lastPlace m e) (cutAt m e sticky (f.lastPlace m e)).1 = f.floorMag m e := by
    rw [cutAt_fst]
    rfl
  dsimp only at eq
  rw [same] at eq
  exact ⟨_, _, _, eq⟩

/-- Below the largest magnitude, where no tiny result is flushed, it is a finite pattern. -/
theorem Fmt.deliver_val {t : Nat} {up any tiny : Bool} (below : t < f.maxMag) (ftz : md.ftz = false) :
    (f.deliver md s t up any tiny).val = f.signBit s + (if up then t + 1 else t) := by
  have inside : ¬ f.maxMag < if up then t + 1 else t := by split <;> omega
  unfold Fmt.deliver
  dsimp only
  rw [if_neg inside, ftz, Bool.and_false, Bool.false_and, Bool.false_and, if_neg Bool.false_ne_true, f.signed_eq]

/-- A value that is a magnitude of the format rounds to it. -/
theorem Fmt.round_of_not_under (regular : f.Regular) (ftz : md.ftz = false) {under upto : Rat → Prop}
    (places : Places under upto m e sticky) (enough : sticky = true → 2 ^ (f.fbits + 1) ≤ m) {t : Nat} (between : Between f upto t) (within : t ≤ f.maxMag)
    (exact_ : ¬ under (f.magnitude t)) : f.round md s m e sticky = ⟨f.signBit s + t, 0⟩ := by
  have rounding := Fmt.round_isRounding (md := md) (s := s) regular places enough
  have above := f.magnitude_strictMono (Nat.lt_succ_self t)
  have middle : f.magnitude t < (f.magnitude t + f.magnitude (t + 1)) / 2 := by linarith
  have stays : ¬ md.rm.Leaves s under upto (f.magnitude t) ((f.magnitude t + f.magnitude (t + 1)) / 2) (t % 2 = 1) := fun leaves =>
    exact_ (leaves.inside places (f.magnitude_nonneg t) middle)
  obtain ⟨-, plain⟩ := (rounding t).1 between.least between.most (within.lt_or_eq.imp_right fun top => ⟨top, stays⟩)
  obtain ⟨-, val, fl, -⟩ := plain fun flushed => absurd (ftz.symm.trans flushed.1) Bool.false_ne_true
  have val := val stays
  have fl := fl exact_
  generalize f.round md s m e sticky = r at val fl
  cases r
  exact FRes.mk.injEq .. ▸ ⟨val, fl⟩

/-- A magnitude of the format rounds to itself. -/
theorem Fmt.round_exact (regular : f.Regular) (ftz : md.ftz = false) {t : Nat} (within : t ≤ f.maxMag)
    (value : f.magnitude t = (m : Rat) * 2 ^ e) : f.round md s m e = ⟨f.signBit s + t, 0⟩ :=
  Fmt.round_of_not_under regular ftz (places_exact m e) (fun h => absurd h Bool.false_ne_true)
    ⟨value.le, not_le.2 (value ▸ f.magnitude_strictMono (Nat.lt_succ_self t))⟩ within value.not_lt

/-- A rounding without a flag was of a magnitude of the format. -/
theorem Fmt.exact_of_flags (regular : f.Regular) (none : (f.round md s m e).fl = 0) :
    ∃ t, t ≤ f.maxMag ∧ f.magnitude t = (m : Rat) * 2 ^ e := by
  have places := places_exact m e
  have rounding := Fmt.round_isRounding (md := md) (s := s) regular places (fun h => absurd h Bool.false_ne_true)
  obtain ⟨t, between⟩ := places.exists_between (f := f)
  obtain ⟨inside, beyond⟩ := rounding t
  generalize f.round md s m e = r at *
  by_cases outside : f.magnitude (f.maxMag + 1) ≤ (m : Rat) * 2 ^ e ∨ t = f.maxMag ∧ f.magnitude t ≤ (m : Rat) * 2 ^ e ∧
      ¬ f.magnitude (t + 1) ≤ (m : Rat) * 2 ^ e ∧ md.rm.Leaves s (· < (m : Rat) * 2 ^ e) (· ≤ (m : Rat) * 2 ^ e) (f.magnitude t)
        ((f.magnitude t + f.magnitude (t + 1)) / 2) (t % 2 = 1)
  · obtain ⟨largest, other⟩ := beyond outside
    by_cases toMax : f.ToMax md s
    · rw [largest toMax] at none
      exact absurd none (show ¬ (flOF ||| flNX = 0) by decide)
    · rw [other toMax] at none
      exact absurd none (show ¬ (flOF ||| flNX = 0) by decide)
  · obtain ⟨notAbove, notTop⟩ := not_or.1 outside
    have bound : t ≤ f.maxMag := Nat.lt_succ_iff.1 (not_le.1 (mt (between.upto_iff places _).2 notAbove))
    obtain ⟨flushes, plain⟩ := inside between.least between.most
      (bound.lt_or_eq.imp_right fun top => ⟨top, fun leaves => notTop ⟨top, between.least, between.most, leaves⟩⟩)
    refine ⟨t, bound, le_antisymm between.least (not_lt.1 fun inexact => ?_)⟩
    by_cases flushed : md.ftz = true ∧ f.special = .ieee ∧ f.Tiny md.rm s (· < (m : Rat) * 2 ^ e) (· ≤ (m : Rat) * 2 ^ e) t ∧
        (0 : Rat) < (m : Rat) * 2 ^ e
    · rw [flushes flushed] at none
      exact absurd none (show ¬ (flUF ||| flNX = 0) by decide)
    · obtain ⟨-, -, -, normal, subnormal⟩ := plain flushed
      by_cases tiny : f.Tiny md.rm s (· < (m : Rat) * 2 ^ e) (· ≤ (m : Rat) * 2 ^ e) t
      · rw [subnormal inexact tiny] at none
        exact absurd none (by decide)
      · rw [normal inexact tiny] at none
        exact absurd none (by decide)

/-! Values within a bound of the exact one -/

/-- The exact value in half units of the last place, cut. -/
def Fmt.halves (f : Fmt) (m : Nat) (e : Int) : Nat := (cutAt m e false (f.lastPlace m e - 1)).1

theorem half_unit (c : Nat) (i : Int) : ((2 * c : Nat) : Rat) * 2 ^ (i - 1) = c * 2 ^ i := by
  rw [show (2 : Rat) ^ i = 2 ^ (i - 1) * 2 by rw [← zpow_add_one₀ (by decide), sub_add_cancel]]
  push_cast
  ring

/-- The cut in half units is that in units, or one half unit more. -/
theorem Fmt.halves_bounds (f : Fmt) (m : Nat) (e : Int) :
    2 * (cutAt m e false (f.lastPlace m e)).1 ≤ f.halves m e ∧ f.halves m e ≤ 2 * (cutAt m e false (f.lastPlace m e)).1 + 1 := by
  have places := places_exact m e
  have plain {P : Prop} (h : false = true) : P := absurd h Bool.false_ne_true
  have cut := cutAt_cut places (q := f.lastPlace m e) plain
  have fine := (cutAt_cut places (q := f.lastPlace m e - 1) plain).upto_iff (two_zpow_pos _) places
  have least := (fine (2 * (cutAt m e false (f.lastPlace m e)).1)).1 (by rw [half_unit]; exact cut.whole)
  have most := mt (fine (2 * ((cutAt m e false (f.lastPlace m e)).1 + 1))).2 (by rw [half_unit]; exact cut.below)
  unfold Fmt.halves
  omega

/-- The even one of the two half-unit neighbours is a neighbour in the format. -/
theorem Fmt.even_half (nonzero : m ≠ 0) : ∃ t, (t = f.floorMag m e ∨ t = f.floorMag m e + 1) ∧
    f.magnitude t = ((f.halves m e + f.halves m e % 2 : Nat) : Rat) * 2 ^ (f.lastPlace m e - 1) := by
  have sig := Fmt.floorMag_significand (f := f) (e := e) nonzero
  obtain ⟨least, most⟩ := f.halves_bounds m e
  have cases_ : f.halves m e + f.halves m e % 2 = 2 * (cutAt m e false (f.lastPlace m e)).1 ∨
      f.halves m e + f.halves m e % 2 = 2 * ((cutAt m e false (f.lastPlace m e)).1 + 1) := by omega
  rcases cases_ with low | high
  · exact ⟨_, .inl rfl, by rw [low, half_unit]; exact sig.magnitude⟩
  · exact ⟨_, .inr rfl, by rw [high, half_unit]; exact sig.magnitude_succ⟩

/-- A result of sign `s` and `j` half units of the last place of m × 2^e. -/
structure Fmt.AtHalves (f : Fmt) (s : Bool) (m : Nat) (e : Int) (val : Nat) (j : Int) (t : Nat) : Prop where
  inside : t ≤ f.maxMag
  size : f.magnitude t = (j.natAbs : Rat) * 2 ^ (f.lastPlace m e - 1)
  pattern : val = f.signBit (s != decide (j < 0)) + t

theorem Fmt.mem_near {bound h : Nat} {u j : Int} : j ∈ f.near bound h s u ↔
    ∃ i : Nat, i < 4 * bound ∧ j = (h : Int) + 1 - 2 * bound + i ∧ (f.round {} (s != decide (j < 0)) j.natAbs (u - 1)).fl = 0 := by
  unfold Fmt.near
  simp only [List.bind_eq_flatMap, List.pure_def, List.mem_filterMap, List.mem_flatMap, List.mem_range, List.mem_singleton,
    Option.ite_none_right_eq_some, Option.some.injEq]
  constructor
  · rintro ⟨_, ⟨i, small, rfl⟩, none, rfl⟩
    exact ⟨i, small, rfl, none⟩
  · rintro ⟨i, small, rfl, none⟩
    exact ⟨i, ⟨i, small, rfl⟩, none, rfl⟩

/-- An element that an index picks by its remainder. -/
theorem getD_mod_mem {α : Type} {l : List α} (some_ : l ≠ []) (n : Nat) (d : α) : l.getD (n % l.length) d ∈ l := by
  have small := Nat.mod_lt n (List.length_pos_iff.2 some_)
  rw [List.getD_eq_getElem l d small]
  exact List.getElem_mem small

/-- A result that is free within a bound (R117) lies within it. -/
theorem Fmt.within_near (regular : f.Regular) (ftz : md.ftz = false) {bound : Nat} (pos : 1 ≤ bound) (pick : Nat) (nonzero : m ≠ 0)
    (below : f.floorMag m e < f.maxMag) :
    ∃ j t, (f.halves m e : Int) + 1 - 2 * bound ≤ j ∧ j ≤ (f.halves m e : Int) + 2 * bound ∧
      f.AtHalves s m e (f.within md bound pick s m e).val j t := by
  have even : ((f.halves m e : Int) + f.halves m e % 2) ∈ f.near bound (f.halves m e) s (f.lastPlace m e) := by
    refine Fmt.mem_near.2 ⟨2 * bound - 1 + f.halves m e % 2, by omega, by omega, ?_⟩
    obtain ⟨t, neighbour, size⟩ := Fmt.even_half (f := f) (e := e) nonzero
    have abs : ((f.halves m e : Int) + f.halves m e % 2).natAbs = f.halves m e + f.halves m e % 2 := by omega
    rw [abs, Fmt.round_exact regular rfl (by rcases neighbour with rfl | rfl <;> omega) size]
  obtain ⟨i, small, shape, none⟩ := Fmt.mem_near.1 (getD_mod_mem (List.ne_nil_of_mem even) pick
    ((f.halves m e : Int) + f.halves m e % 2))
  obtain ⟨t, inside, size⟩ := Fmt.exact_of_flags regular none
  refine ⟨_, t, by omega, by omega, inside, size, ?_⟩
  have same : (cutAt m e true (f.lastPlace m e - 1)).1 = f.halves m e := cutAt_fst m e true _
  have val : (f.within md bound pick s m e).val =
      (let j := (f.near bound (cutAt m e true (f.lastPlace m e - 1)).1 s (f.lastPlace m e)).getD
        (pick % (f.near bound (cutAt m e true (f.lastPlace m e - 1)).1 s (f.lastPlace m e)).length)
        (((cutAt m e true (f.lastPlace m e - 1)).1 : Int) + ((cutAt m e true (f.lastPlace m e - 1)).1 : Int) % 2)
      f.round md (s != decide (j < 0)) j.natAbs (f.lastPlace m e - 1)).val := rfl
  rw [val, same]
  dsimp only
  rw [Fmt.round_exact regular ftz inside size]

/-- The result of a function for an operand in its domain: its sign, significand and exponent, and whether they are cut. -/
def Fmt.bounded (f : Fmt) (md : Mode) (bound pick : Nat) (s : Bool) (m : Nat) (e : Int) (cut : Bool) : FRes :=
  let rr := f.round md s m e cut
  if f.width = 16 || rr.fl &&& flOF != 0 || (f.round {} s m e cut).fl = 0 then rr else f.within md bound pick s m e

theorem Fmt.bounded_narrow (narrow : f.width = 16) (bound pick : Nat) (cut : Bool) :
    f.bounded md bound pick s m e cut = f.round md s m e cut := by
  unfold Fmt.bounded
  dsimp only
  rw [decide_eq_true narrow]
  rfl

/-- A representable value is the result. -/
theorem Fmt.bounded_exact (regular : f.Regular) (ftz : md.ftz = false) {t : Nat} (within : t ≤ f.maxMag)
    (value : f.magnitude t = (m : Rat) * 2 ^ e) (bound pick : Nat) : f.bounded md bound pick s m e false = ⟨f.signBit s + t, 0⟩ := by
  unfold Fmt.bounded
  dsimp only
  rw [Fmt.round_exact regular ftz within value, Fmt.round_exact regular (md := {}) rfl within value, if_pos (by simp)]

/-- A rounding is within a half-unit distance that every bound allows. -/
theorem Fmt.round_near (ftz : md.ftz = false) {bound : Nat} (pos : 1 ≤ bound) (nonzero : m ≠ 0) (below : f.floorMag m e < f.maxMag) :
    ∃ j t, (f.halves m e : Int) + 1 - 2 * bound ≤ j ∧ j ≤ (f.halves m e : Int) + 2 * bound ∧
      f.AtHalves s m e (f.round md s m e sticky).val j t := by
  have sig := Fmt.floorMag_significand (f := f) (e := e) nonzero
  obtain ⟨least, most⟩ := f.halves_bounds m e
  obtain ⟨up, any, tiny, delivered⟩ := Fmt.round_delivers (f := f) (md := md) (s := s) (e := e) (sticky := sticky) nonzero
  rw [delivered, Fmt.deliver_val below ftz]
  have plain (c : Nat) : (s != decide (((2 * c : Nat) : Int) < 0)) = s := by
    rw [decide_eq_false (by omega)]
    exact Bool.xor_false s
  cases up with
  | false =>
    refine ⟨(2 * (cutAt m e false (f.lastPlace m e)).1 : Nat), f.floorMag m e, by omega, by omega, below.le, ?_, ?_⟩
    · rw [Int.natAbs_natCast, half_unit]
      exact sig.magnitude
    · rw [plain]
      rfl
  | true =>
    refine ⟨(2 * ((cutAt m e false (f.lastPlace m e)).1 + 1) : Nat), f.floorMag m e + 1, by omega, by omega, below, ?_, ?_⟩
    · rw [Int.natAbs_natCast, half_unit]
      exact sig.magnitude_succ
    · rw [plain]
      rfl

/-- The result lies within the bound (R117). -/
theorem Fmt.bounded_near (regular : f.Regular) (ftz : md.ftz = false) {bound : Nat} (pos : 1 ≤ bound) (pick : Nat) (nonzero : m ≠ 0)
    (below : f.floorMag m e < f.maxMag) (cut : Bool) :
    ∃ j t, (f.halves m e : Int) + 1 - 2 * bound ≤ j ∧ j ≤ (f.halves m e : Int) + 2 * bound ∧
      f.AtHalves s m e (f.bounded md bound pick s m e cut).val j t := by
  unfold Fmt.bounded
  dsimp only
  split
  · exact Fmt.round_near ftz pos nonzero below
  · exact Fmt.within_near regular ftz pos pick nonzero below

end

/-! The functions on finite operands -/

/-- The exact result, with powers of two far outside every range held (R116). -/
def Fn.result (fn : Fn) (s : Bool) (m : Nat) (e : Int) : Bool × Nat × Int × Bool :=
  if fn = .exp2 && magLt 1100 0 m e then (false, 1, if s then -1100 else 1100, false) else fn.exact s m e

theorem Fn.result_eq {fn : Fn} {s : Bool} {m : Nat} {e : Int} (small : fn = .exp2 → (m : Rat) * 2 ^ e ≤ 1100) :
    fn.result s m e = fn.exact s m e := by
  refine if_neg fun large => ?_
  rw [Bool.and_eq_true, decide_eq_true_eq, magLt_iff, zpow_zero, mul_one] at large
  exact absurd (small large.1) (not_le.2 large.2)

/-- A function of an operand in its domain. -/
theorem Fmt.func_fin {f : Fmt} {fn : Fn} {tag : Nat} {fm : BitVec 6} {x : Nat} {s : Bool} {m : Nat} {e : Int}
    (read : f.read { Mode.ofFmode fm with rm := .rne } x = .fin s m e) (nonzero : m ≠ 0)
    (domain : fn = .rsqrt ∨ fn = .log2 → s = false) (range : fn = .tanh → (m : Rat) * 2 ^ e < 20) :
    ∃ pick, f.func fn tag fm x =
      let c := fn.result s m e
      f.bounded { Mode.ofFmode fm with rm := .rne } (fn.bound f) pick c.1 c.2.1 c.2.2.1 c.2.2.2 := by
  have inDomain : (s && (decide (fn = .rsqrt) || decide (fn = .log2))) = false := by
    refine Bool.eq_false_iff.2 fun h => ?_
    rw [Bool.and_eq_true, Bool.or_eq_true, decide_eq_true_eq, decide_eq_true_eq] at h
    rw [domain h.2] at h
    exact Bool.false_ne_true h.1
  have inRange : (decide (fn = .tanh) && !magLt m e 20 0) = false := by
    refine Bool.eq_false_iff.2 fun h => ?_
    rw [Bool.and_eq_true, decide_eq_true_eq, Bool.not_eq_true', ← Bool.not_eq_true, magLt_iff, zpow_zero, mul_one] at h
    exact h.2 (range h.1)
  refine ⟨Config.functionPick fn.code tag (BitVec.ofNat 64 x) (fm &&& 0x38), ?_⟩
  unfold Fmt.func
  dsimp only
  rw [read]
  dsimp only
  rw [if_neg nonzero, inDomain, inRange, if_neg Bool.false_ne_true, if_neg Bool.false_ne_true]
  rfl

end Sys2Proof.Machine
end

section
/-! The fixed-point evaluation of R117: no value that is cut vanishes. -/

namespace Sys2Proof.Machine

/-! Series and squarings -/

theorem expSeries_ge (n i x term sum : Nat) : sum ≤ expSeries n i x term sum := by
  induction n generalizing i term sum with
  | zero => exact le_rfl
  | succ n ih => exact (Nat.le_add_right _ _).trans (ih _ _ _)

theorem expSeries_succ (n i x term sum : Nat) : expSeries (n + 1) i x term sum =
    expSeries n (i + 1) x ((term * x) >>> fixBits / i) (sum + (term * x) >>> fixBits / i) := rfl

theorem expFix_ge (x : Nat) : 2 ^ fixBits + x ≤ expFix x := by
  have first : (2 ^ fixBits * x) >>> fixBits / 1 = x := by
    rw [Nat.div_one, Nat.shiftRight_eq_div_pow, Nat.mul_div_cancel_left _ (Nat.two_pow_pos _)]
  rw [expFix, show 100 = 99 + 1 from rfl, expSeries_succ, first]
  exact expSeries_ge _ _ _ _ _

/-- A square in fixed point is at least twice as far above one. -/
theorem square_ge {x d : Nat} (h : 2 ^ fixBits + d ≤ x) : 2 ^ fixBits + 2 * d ≤ (x * x) >>> fixBits := by
  rw [Nat.shiftRight_eq_div_pow, Nat.le_div_iff_mul_le (Nat.two_pow_pos _)]
  generalize 2 ^ fixBits = one at h ⊢
  calc (one + 2 * d) * one ≤ (one + d) * (one + d) := by nlinarith
    _ ≤ x * x := Nat.mul_le_mul h h

theorem squareFix_ge (n : Nat) {x d : Nat} (h : 2 ^ fixBits + d ≤ x) : 2 ^ fixBits + d * 2 ^ n ≤ squareFix n x := by
  induction n generalizing x d with
  | zero => exact (Nat.mul_one d).symm ▸ h
  | succ n ih =>
    have doubled : d * 2 ^ (n + 1) = 2 * d * 2 ^ n := by rw [Nat.pow_succ]; ring
    exact doubled ▸ ih (square_ge h)

/-! The bits of a logarithm -/

theorem log2Bits_succ (n x acc : Nat) : log2Bits (n + 1) x acc =
    if 2 * 2 ^ fixBits ≤ (x * x) >>> fixBits then log2Bits n ((x * x) >>> fixBits >>> 1) (2 * acc + 1)
    else log2Bits n ((x * x) >>> fixBits) (2 * acc) := by
  rw [log2Bits, Nat.pow_succ']

theorem log2Bits_range (n x acc : Nat) : acc * 2 ^ n ≤ log2Bits n x acc ∧ log2Bits n x acc < (acc + 1) * 2 ^ n := by
  induction n generalizing x acc with
  | zero => simp [log2Bits]
  | succ n ih =>
    have pos := Nat.two_pow_pos n
    have low : acc * 2 ^ (n + 1) = 2 * acc * 2 ^ n := by rw [Nat.pow_succ]; ring
    have high : (acc + 1) * 2 ^ (n + 1) = (2 * acc + 1 + 1) * 2 ^ n := by rw [Nat.pow_succ]; ring
    rw [log2Bits_succ, low, high]
    split
    · obtain ⟨least, most⟩ := ih ((x * x) >>> fixBits >>> 1) (2 * acc + 1)
      exact ⟨(Nat.mul_le_mul_right _ (by omega)).trans least, most⟩
    · obtain ⟨least, most⟩ := ih ((x * x) >>> fixBits) (2 * acc)
      exact ⟨least, most.trans_le (Nat.mul_le_mul_right _ (by omega))⟩

/-- A number above one has a bit set, given bits enough. -/
theorem log2Bits_pos (n : Nat) {x d : Nat} (above : 2 ^ fixBits + d ≤ x) (below : x < 2 * 2 ^ fixBits)
    (enough : 2 ^ fixBits ≤ d * 2 ^ n) : log2Bits n x 0 ≠ 0 := by
  induction n generalizing x d with
  | zero =>
    rw [Nat.pow_zero, Nat.mul_one] at enough
    omega
  | succ n ih =>
    rw [log2Bits_succ]
    split
    · have := (log2Bits_range n ((x * x) >>> fixBits >>> 1) (2 * 0 + 1)).1
      have := Nat.two_pow_pos n
      omega
    · next small =>
      refine ih (square_ge above) (not_le.1 small) (enough.trans (le_of_eq ?_))
      rw [Nat.pow_succ]
      ring

/-- A square in fixed point, halved, is half as far again below two. -/
theorem square_half_le {x : Nat} (above : 2 ^ fixBits ≤ x) (below : x < 2 * 2 ^ fixBits) :
    3 * (2 * 2 ^ fixBits - x) ≤ 2 * (2 * 2 ^ fixBits - (x * x) >>> fixBits >>> 1) := by
  have half : (x * x) >>> fixBits >>> 1 * (2 * 2 ^ fixBits) ≤ x * x := by
    rw [Nat.shiftRight_one, Nat.shiftRight_eq_div_pow]
    generalize 2 ^ fixBits = one
    rw [Nat.div_div_eq_div_mul, Nat.mul_comm 2]
    exact Nat.div_mul_le_self _ _
  generalize (x * x) >>> fixBits >>> 1 = y at half ⊢
  generalize 2 ^ fixBits = one at *
  have between : 0 ≤ ((x : Int) - one) * (2 * one - x) := mul_nonneg (by omega) (by omega)
  have bound : 2 * (y : Int) + 2 * one ≤ 3 * x := by
    by_contra large
    have scaled : (3 * (x : Int) + 1) * one ≤ (2 * y + 2 * one) * one := mul_le_mul_of_nonneg_right (by omega) (by omega)
    have half' : (y : Int) * (2 * one) ≤ x * x := by exact_mod_cast half
    have pos : (0 : Int) < one := by omega
    nlinarith
  omega

/-- A number below two has a bit clear, given bits enough. -/
theorem log2Bits_not_full (n : Nat) {x acc : Nat} (above : 2 ^ fixBits ≤ x) (below : x < 2 * 2 ^ fixBits)
    (enough : 2 ^ fixBits * 2 ^ n < (2 * 2 ^ fixBits - x) * 3 ^ n) : log2Bits n x acc + 1 < (acc + 1) * 2 ^ n := by
  induction n generalizing x acc with
  | zero =>
    simp only [pow_zero, mul_one] at enough
    omega
  | succ n ih =>
    have pos := Nat.two_pow_pos n
    have high : (acc + 1) * 2 ^ (n + 1) = (2 * acc + 1) * 2 ^ n + 2 ^ n := by rw [Nat.pow_succ]; ring
    rw [log2Bits_succ, high]
    split
    · next large =>
      have far := square_half_le above below
      have half : 2 ^ fixBits ≤ (x * x) >>> fixBits >>> 1 := by
        rw [Nat.shiftRight_one, Nat.le_div_iff_mul_le (by decide), Nat.mul_comm]
        exact large
      have enough' : 2 ^ fixBits * 2 ^ n < (2 * 2 ^ fixBits - (x * x) >>> fixBits >>> 1) * 3 ^ n := by
        rw [Nat.pow_succ 2 n, Nat.pow_succ 3 n] at enough
        have := Nat.mul_le_mul_right (3 ^ n) far
        nlinarith
      have room : (x * x) >>> fixBits >>> 1 < 2 * 2 ^ fixBits := by
        by_contra full
        rw [Nat.sub_eq_zero_of_le (not_lt.1 full), Nat.zero_mul] at enough'
        exact Nat.not_lt_zero _ enough'
      refine (ih half room enough').trans_eq ?_
      ring
    · have := (log2Bits_range n ((x * x) >>> fixBits) (2 * acc)).2
      omega

/-! Operands in fixed point -/

/-- A value of one part in 2^394 or more does not vanish in fixed point. -/
theorem toFix_pos {m : Nat} {e : Int} (nonzero : m ≠ 0) (large : 0 ≤ topOf m e + fixBits) : 1 ≤ toFix m e := by
  obtain ⟨n, len, least, -⟩ := bitLen_bounds nonzero
  unfold topOf at large
  unfold toFix
  split
  · rw [Nat.shiftLeft_eq]
    exact Nat.mul_pos (Nat.pos_of_ne_zero nonzero) (Nat.two_pow_pos _)
  · rw [Nat.shiftRight_eq_div_pow, Nat.le_div_iff_mul_le (Nat.two_pow_pos _), Nat.one_mul]
    exact (Nat.pow_le_pow_right (by decide) (by omega)).trans least

/-! No cut value vanishes -/

theorem exp2_exact_ne_zero (s : Bool) (m : Nat) (e : Int) : (Fn.exp2.exact s m e).2.1 ≠ 0 := by
  have pos (x : Nat) : expFix x ≠ 0 := by
    have := expFix_ge x
    have := Nat.two_pow_pos fixBits
    omega
  unfold Fn.exact
  dsimp only
  split
  · exact one_ne_zero
  · split
    · dsimp only
      apply pos
    · dsimp only
      apply pos

theorem tanh_exact_ne_zero (s : Bool) {m : Nat} {e : Int} (nonzero : m ≠ 0) : (Fn.tanh.exact s m e).2.1 ≠ 0 := by
  unfold Fn.exact
  dsimp only
  split
  · have : 1 * 2 ≤ m * 2 ^ 128 := Nat.mul_le_mul (Nat.pos_of_ne_zero nonzero) (by decide)
    rw [Nat.shiftLeft_eq]
    show m * 2 ^ 128 - 1 ≠ 0
    omega
  · next large =>
    have fixed : 1 ≤ toFix m (e + 1 - 7) := toFix_pos nonzero (by unfold topOf; unfold fixBits; omega)
    have grown := squareFix_ge 7 ((Nat.add_le_add_left fixed _).trans (expFix_ge (toFix m (e + 1 - 7))))
    dsimp only
    generalize squareFix 7 (expFix (toFix m (e + 1 - 7))) = g at grown ⊢
    have least : 8 ≤ 2 ^ fixBits := by
      show 2 ^ 3 ≤ 2 ^ fixBits
      exact Nat.pow_le_pow_right (by decide) (by decide)
    rw [Nat.shiftLeft_eq]
    generalize 2 ^ fixBits = one at grown least ⊢
    obtain ⟨d, rfl⟩ : ∃ d, g = one + d := ⟨g - one, by omega⟩
    rw [Nat.add_sub_cancel_left]
    refine (Nat.div_pos ?_ (by omega)).ne'
    nlinarith

/-- A number that is no power of two, scaled into the interval from one to two. -/
theorem log2_operand {m n : Nat} (len : bitLen m = n + 1) (least : 2 ^ n ≤ m) (most : m < 2 ^ (n + 1)) (other : m ≠ 2 ^ n)
    (small : n ≤ fixBits) :
    2 ^ fixBits + 2 ^ (fixBits - n) ≤ m <<< (fixBits + 1 - bitLen m) ∧
      m <<< (fixBits + 1 - bitLen m) + 2 ^ (fixBits - n) ≤ 2 * 2 ^ fixBits := by
  have whole : 2 ^ fixBits = 2 ^ n * 2 ^ (fixBits - n) := by rw [← Nat.pow_add, Nat.add_sub_cancel' small]
  rw [len, Nat.add_sub_add_right, Nat.shiftLeft_eq, whole]
  generalize 2 ^ (fixBits - n) = unit
  rw [Nat.pow_succ'] at most
  constructor
  · calc 2 ^ n * unit + unit = (2 ^ n + 1) * unit := by ring
      _ ≤ m * unit := Nat.mul_le_mul_right _ (by omega)
  · calc m * unit + unit = (m + 1) * unit := by ring
      _ ≤ 2 * 2 ^ n * unit := Nat.mul_le_mul_right _ most
      _ = 2 * (2 ^ n * unit) := by ring

/-- The bits of the logarithm of a number that is no power of two are neither all clear nor all set. -/
theorem log2Bits_between {m n : Nat} (len : bitLen m = n + 1) (least : 2 ^ n ≤ m) (most : m < 2 ^ (n + 1)) (other : m ≠ 2 ^ n)
    (small : n < 53) :
    log2Bits 160 (m <<< (fixBits + 1 - bitLen m)) 0 ≠ 0 ∧ log2Bits 160 (m <<< (fixBits + 1 - bitLen m)) 0 + 1 < 2 ^ 160 := by
  have fits : n ≤ fixBits := by unfold fixBits; omega
  have unit : 2 ^ fixBits ≤ 2 ^ (fixBits - n) * 2 ^ 52 := by
    rw [← Nat.pow_add]
    exact Nat.pow_le_pow_right (by decide) (by omega)
  obtain ⟨above, below⟩ := log2_operand len least most other fits
  have pos := Nat.two_pow_pos (fixBits - n)
  generalize m <<< (fixBits + 1 - bitLen m) = x at above below ⊢
  constructor
  · refine log2Bits_pos 160 above (by omega) (unit.trans ?_)
    exact Nat.mul_le_mul_left _ (Nat.pow_le_pow_right (by decide) (by decide))
  · rw [← Nat.one_mul (2 ^ 160)]
    refine log2Bits_not_full 160 (acc := 0) ((Nat.le_add_right _ _).trans above) (by omega) ?_
    calc 2 ^ fixBits * 2 ^ 160 ≤ 2 ^ (fixBits - n) * 2 ^ 52 * 2 ^ 160 := Nat.mul_le_mul_right _ unit
      _ = 2 ^ (fixBits - n) * (2 ^ 52 * 2 ^ 160) := Nat.mul_assoc _ _ _
      _ < 2 ^ (fixBits - n) * 3 ^ 160 := Nat.mul_lt_mul_of_pos_left (by norm_num) pos
      _ ≤ (2 * 2 ^ fixBits - x) * 3 ^ 160 := Nat.mul_le_mul_right _ (by omega)

/-- The logarithm of a number of at most 53 bits vanishes for one alone, and there it is exact. -/
theorem log2_exact_ne_zero {m : Nat} {e : Int} (nonzero : m ≠ 0) (small : m < 2 ^ 53) :
    (Fn.log2.exact false m e).2.1 ≠ 0 ∨ Fn.log2.exact false m e = (false, 0, 0, false) := by
  obtain ⟨n, len, least, most⟩ := bitLen_bounds nonzero
  have bits : n < 53 := (Nat.pow_lt_pow_iff_right (a := 2) (by decide)).1 (least.trans_lt small)
  unfold Fn.exact
  dsimp only
  split
  · by_cases unit : e + (bitLen m : Int) - 1 = 0
    · exact .inr (by rw [unit]; rfl)
    · exact .inl (Int.natAbs_ne_zero.2 unit)
  · next other =>
    rw [len, Nat.add_sub_cancel] at other
    obtain ⟨some_, room⟩ := log2Bits_between len least most other bits
    left
    generalize log2Bits 160 _ 0 = fr at some_ room ⊢
    split <;> dsimp only <;> omega

end Sys2Proof.Machine
end

section
/-! Reciprocals and reciprocal roots (R116, R117), and the distance of a bounded result from the exact value. -/

namespace Sys2Proof.Machine

section
variable {f : Fmt} {md : Mode} {s : Bool} {m : Nat} {e : Int} {sticky : Bool}

/-! What a result at half units stands for -/

theorem Fmt.mag_of_pattern (regular : f.Regular) {t : Nat} (inside : t ≤ f.maxMag) (s : Bool) :
    f.mag (f.signBit s + t) = t ∧ f.sign (f.signBit s + t) = s ∧ f.isFinite (f.signBit s + t) = true := by
  have bound := inside.trans_lt regular.inside
  have mag := f.mag_signBit_add s bound
  exact ⟨mag, f.testBit_signBit_add s bound, decide_eq_true (by rw [mag]; exact inside)⟩

theorem Fmt.AtHalves.value {val t : Nat} {j : Int} (h : f.AtHalves s m e val j t) (regular : f.Regular) :
    f.isFinite val = true ∧ f.mag val = t ∧
      f.value val = (if s then -1 else 1) * ((j : Rat) * 2 ^ (f.lastPlace m e - 1)) := by
  obtain ⟨mag, sign, finite⟩ := Fmt.mag_of_pattern regular h.inside (s != decide (j < 0))
  rw [h.pattern]
  refine ⟨finite, mag, ?_⟩
  have value (x : Nat) : f.value x = (if f.sign x then -1 else 1) * f.magnitude (f.mag x) := rfl
  rw [value, mag, sign, h.size, Nat.cast_natAbs, Int.cast_abs]
  rcases lt_or_ge j 0 with negative | nonneg
  · have : (j : Rat) < 0 := Int.cast_lt_zero.2 negative
    rw [decide_eq_true negative, abs_of_neg this]
    cases s <;> simp
  · have : (0 : Rat) ≤ j := Int.cast_nonneg nonneg
    rw [decide_eq_false (not_lt.2 nonneg), abs_of_nonneg this]
    cases s <;> simp

/-- The distance of neighbours is a unit of the last place. -/
theorem Fmt.floorMag_unit (nonzero : m ≠ 0) :
    f.magnitude (f.floorMag m e + 1) - f.magnitude (f.floorMag m e) = 2 * 2 ^ (f.lastPlace m e - 1) := by
  have sig := Fmt.floorMag_significand (f := f) (e := e) nonzero
  have double : (2 : Rat) ^ f.lastPlace m e = 2 * 2 ^ (f.lastPlace m e - 1) := by
    rw [← zpow_one_add₀ (by decide), add_sub_cancel]
  rw [Fmt.floorMag, sig.magnitude, sig.magnitude_succ, double]
  push_cast
  ring

/-- The result lies within so many units of the last place of the value that was cut. -/
theorem Fmt.AtHalves.near {val t : Nat} {j : Int} (h : f.AtHalves s m e val j t) (regular : f.Regular) (nonzero : m ≠ 0) {bound : Nat}
    (least : (f.halves m e : Int) + 1 - 2 * bound ≤ j) (most : j ≤ (f.halves m e : Int) + 2 * bound) :
    |f.value val - (if s then -((m : Rat) * 2 ^ e) else (m : Rat) * 2 ^ e)| ≤
      bound * (f.magnitude (f.floorMag m e + 1) - f.magnitude (f.floorMag m e)) := by
  have cut := cutAt_cut (places_exact m e) (q := f.lastPlace m e - 1) fun h => absurd h Bool.false_ne_true
  have whole : (f.halves m e : Rat) * 2 ^ (f.lastPlace m e - 1) ≤ m * 2 ^ e := cut.whole
  have below : (m : Rat) * 2 ^ e < ((f.halves m e + 1 : Nat) : Rat) * 2 ^ (f.lastPlace m e - 1) := not_le.1 cut.below
  have unit := two_zpow_pos (f.lastPlace m e - 1)
  have least' : (f.halves m e : Rat) + 1 - 2 * bound ≤ j := by exact_mod_cast least
  have most' : (j : Rat) ≤ f.halves m e + 2 * bound := by exact_mod_cast most
  have lower := mul_le_mul_of_nonneg_right least' unit.le
  have upper := mul_le_mul_of_nonneg_right most' unit.le
  rw [(h.value regular).2.2, Fmt.floorMag_unit nonzero]
  push_cast at below
  have size : |(j : Rat) * 2 ^ (f.lastPlace m e - 1) - m * 2 ^ e| ≤ bound * (2 * 2 ^ (f.lastPlace m e - 1)) :=
    abs_le.2 ⟨by linarith, by linarith⟩
  cases s with
  | false =>
    simp only [Bool.false_eq_true, ↓reduceIte, one_mul]
    exact size
  | true =>
    simp only [↓reduceIte, neg_one_mul]
    rwa [neg_sub_neg, abs_sub_comm]

/-! A bounded function of a placed value -/

/-- A bounded result with a bound of one unit, for a value that its significand places (R117). -/
theorem Fmt.bounded_placed (regular : f.Regular) (ftz : md.ftz = false) {under upto : Rat → Prop} (places : Places under upto m e sticky)
    (nonzero : m ≠ 0) (enough : sticky = true → 2 ^ (f.fbits + 2) ≤ m) {t : Nat} (between : Between f upto t) (below : t < f.maxMag)
    (pick : Nat) :
    let r := f.bounded md 1 pick s m e sticky
    let unit := f.magnitude (t + 1) - f.magnitude t
    r.val = f.signBit s + f.mag r.val ∧ (¬ under (f.magnitude t) → r = ⟨f.signBit s + t, 0⟩) ∧
      (f.width = 16 → f.IsRounding md s under upto r) ∧
      (f.magnitude (f.mag r.val) ≤ unit ∨ upto (f.magnitude (f.mag r.val) - unit)) ∧
      ¬ under (f.magnitude (f.mag r.val) + unit) := by
  have precise (h : sticky = true) : 2 ^ (f.fbits + 1) ≤ m := (Nat.pow_le_pow_right (by decide) (by omega)).trans (enough h)
  have fine (h : sticky = true) : e < f.lastPlace m e - 1 := by
    obtain ⟨n, len, -, most⟩ := bitLen_bounds nonzero
    have := (Nat.pow_lt_pow_iff_right (a := 2) (by decide)).1 ((enough h).trans_lt most)
    have : topOf m e - f.fbits ≤ f.lastPlace m e := le_max_left _ _
    unfold topOf at this
    omega
  have cut := cutAt_cut places (q := f.lastPlace m e) fun h => (fine h).trans (by omega)
  have cutHalf := cutAt_cut places fine
  have sig := Fmt.floorMag_significand (f := f) (e := e) nonzero
  have same : f.floorMag m e = t := by
    have whole := cut.whole
    have beyond := cut.below
    rw [cutAt_fst] at whole beyond
    exact between.unique places (sig.magnitude ▸ whole) (sig.magnitude_succ ▸ beyond)
  have half := two_zpow_pos (f.lastPlace m e - 1)
  have upto_iff := cutHalf.upto_iff half places
  rw [cutAt_fst, show (cutAt m e false (f.lastPlace m e - 1)).1 = f.halves m e from rfl] at upto_iff
  obtain ⟨j, t', least, most, at_⟩ :=
    Fmt.bounded_near (s := s) regular ftz le_rfl pick nonzero (same.trans_lt below) sticky
  have unit_eq := Fmt.floorMag_unit (f := f) (e := e) nonzero
  rw [same] at unit_eq
  have nonneg : 0 ≤ j := by
    by_contra negative
    have one : j = -1 := by omega
    have none : f.halves m e = 0 := by omega
    have zero : t = 0 := by
      have := (f.halves_bounds m e).1
      rw [← same, Fmt.floorMag, Fmt.encode, if_pos (by have := Nat.two_pow_pos f.fbits; omega)]
      omega
    have size := at_.size
    rw [one, Int.natAbs_neg, Int.natAbs_one, Nat.cast_one, one_mul] at size
    have positive : 1 ≤ t' := by
      by_contra vanishes
      rw [show t' = 0 by omega, f.magnitude_zero] at size
      exact half.ne size
    have := f.magnitude_strictMono.monotone positive
    rw [zero, f.magnitude_zero, sub_zero, Nat.zero_add] at unit_eq
    linarith
  obtain ⟨-, mag, -⟩ := at_.value regular
  have pattern := at_.pattern
  rw [decide_eq_false (not_lt.2 nonneg), show (s != false) = s from Bool.xor_false s] at pattern
  obtain ⟨c, rfl⟩ := Int.eq_ofNat_of_zero_le nonneg
  have size := at_.size
  rw [Int.natAbs_natCast] at size
  refine ⟨?_, fun exact_ => ?_, fun narrow => ?_, ?_, ?_⟩
  · rw [mag]
    exact pattern
  · have rounded (md : Mode) (ftz : md.ftz = false) :=
      Fmt.round_of_not_under (md := md) (s := s) regular ftz places precise between below.le exact_
    unfold Fmt.bounded
    dsimp only
    rw [rounded md ftz, rounded {} rfl, if_pos (by simp)]
  · rw [Fmt.bounded_narrow narrow]
    exact Fmt.round_isRounding regular places precise
  · rw [mag, size, unit_eq]
    by_cases small : (c : Rat) * 2 ^ (f.lastPlace m e - 1) ≤ 2 * 2 ^ (f.lastPlace m e - 1)
    · exact .inl small
    · refine .inr (places.down (by linarith) ?_ ((upto_iff _).2 le_rfl))
      have : (c : Rat) ≤ f.halves m e + 2 := by exact_mod_cast most
      have := mul_le_mul_of_nonneg_right this half.le
      linarith
  · rw [mag, size, unit_eq, show (c : Rat) * 2 ^ (f.lastPlace m e - 1) + 2 * 2 ^ (f.lastPlace m e - 1) =
      ((c + 2 : Nat) : Rat) * 2 ^ (f.lastPlace m e - 1) by push_cast; ring]
    intro inside
    have := (upto_iff _).1 (places.weak _ (by positivity) inside)
    omega

end

/-! The exact values -/

section
variable {n : Nat} {e : Int}

theorem recip_exact (s : Bool) (n : Nat) (e : Int) : Fn.recip.exact s n e =
    (s, 2 ^ (64 + 2 * bitLen n) / n, -e - (64 + 2 * bitLen n : Nat), 2 ^ (64 + 2 * bitLen n) % n != 0) := rfl

theorem places_recip (nonzero : n ≠ 0) (s : Bool) :
    let c := Fn.recip.exact s n e
    Places (fun q => q * ((n : Rat) * 2 ^ e) < 1) (fun q => q * ((n : Rat) * 2 ^ e) ≤ 1) c.2.1 c.2.2.1 c.2.2.2 := by
  have places := places_div (m := 1) (e := 0) (g := e) nonzero (64 + 2 * bitLen n)
  rw [Nat.one_shiftLeft, zero_sub, Nat.cast_one, zpow_zero, one_mul] at places
  exact places

/-- More bits than any format holds. -/
theorem recip_precise (nonzero : n ≠ 0) (s : Bool) : 2 ^ 64 ≤ (Fn.recip.exact s n e).2.1 := by
  obtain ⟨k, len, -, most⟩ := bitLen_bounds nonzero
  rw [recip_exact, Nat.le_div_iff_mul_le (Nat.pos_of_ne_zero nonzero), len]
  calc 2 ^ 64 * n ≤ 2 ^ 64 * 2 ^ (k + 1) := Nat.mul_le_mul_left _ most.le
    _ = 2 ^ (64 + (k + 1)) := (Nat.pow_add 2 64 (k + 1)).symm
    _ ≤ 2 ^ (64 + 2 * (k + 1)) := Nat.pow_le_pow_right (by decide) (by omega)

/-- The reciprocal root of an operand with an even exponent. -/
def rsqrtEven (n : Nat) (e : Int) : Bool × Nat × Int × Bool :=
  let sh := 2 * (64 + bitLen n)
  (false, Nat.sqrt (2 ^ sh / n), -(e / 2) - (sh / 2 : Nat), Nat.sqrt (2 ^ sh / n) * Nat.sqrt (2 ^ sh / n) * n != 2 ^ sh)

theorem rsqrt_exact (s : Bool) (n : Nat) (e : Int) :
    Fn.rsqrt.exact s n e = if e % 2 = 0 then rsqrtEven n e else rsqrtEven (2 * n) (e - 1) := by
  unfold Fn.exact rsqrtEven
  dsimp only
  split <;> simp only [isqrt_eq, Nat.cast_ofNat, Int.natCast_ediv]

theorem places_rsqrtEven (nonzero : n ≠ 0) (even : e % 2 = 0) :
    let c := rsqrtEven n e
    Places (fun q => q * q * ((n : Rat) * 2 ^ e) < 1) (fun q => q * q * ((n : Rat) * 2 ^ e) ≤ 1) c.2.1 c.2.2.1 c.2.2.2 := by
  unfold rsqrtEven
  dsimp only
  generalize 64 + bitLen n = c
  rw [Nat.mul_div_cancel_left c (by decide : 0 < 2)]
  obtain ⟨i, rfl⟩ : ∃ i, e = i + i := ⟨e / 2, by omega⟩
  rw [show (i + i) / 2 = i by omega]
  have positive : (0 : Rat) < n * 2 ^ (i + i) := by positivity
  have size : ((2 ^ (2 * c) : Nat) : Rat) * (2 ^ (-i - (c : Int)) * 2 ^ (-i - (c : Int)) * 2 ^ (i + i)) = 1 := by
    rw [Nat.cast_pow, Nat.cast_ofNat, ← zpow_natCast, ← zpow_add₀ (by decide), ← zpow_add₀ (by decide), ← zpow_add₀ (by decide)]
    convert zpow_zero (2 : Rat) using 2
    push_cast
    ring
  have unit : (0 : Rat) < 2 ^ (-i - (c : Int)) * 2 ^ (-i - (c : Int)) * 2 ^ (i + i) := by positivity
  have grid (k : Nat) : (k : Rat) * 2 ^ (-i - (c : Int)) * (k * 2 ^ (-i - (c : Int))) * (n * 2 ^ (i + i)) =
      ((k * k * n : Nat) : Rat) * (2 ^ (-i - (c : Int)) * 2 ^ (-i - (c : Int)) * 2 ^ (i + i)) := by
    push_cast
    ring
  generalize (2 : Nat) ^ (2 * c) = one at size ⊢
  have root (k : Nat) : k ≤ Nat.sqrt (one / n) ↔ k * k * n ≤ one := by
    rw [Nat.le_sqrt, Nat.le_div_iff_mul_le (Nat.pos_of_ne_zero nonzero)]
  generalize Nat.sqrt (one / n) = r at root ⊢
  have least := (root r).1 le_rfl
  have sticky : (r * r * n != one) = true ↔ r * r * n ≠ one := bne_iff_ne
  have scaled (p q : Rat) (nonneg : 0 ≤ p) (less : p < q) : p * p * (n * 2 ^ (i + i)) < q * q * (n * 2 ^ (i + i)) :=
    mul_lt_mul_of_pos_right (mul_self_lt_mul_self nonneg less) positive
  refine ⟨fun p q nonneg less => lt_of_lt_of_le (scaled p q nonneg less), fun q _ => le_of_lt, fun k => ?_, fun k => ?_,
    fun exact_ q nonneg => ?_⟩
  · rw [grid, ← size, mul_le_mul_iff_left₀ unit, Nat.cast_le, root]
  · rw [grid, ← size, mul_lt_mul_iff_left₀ unit, Nat.cast_lt]
    split
    · next some_ =>
      have inexact := sticky.1 some_
      rw [root]
      refine ⟨le_of_lt, fun le => lt_of_le_of_ne le fun whole => inexact (le_antisymm least ?_)⟩
      rw [← whole]
      exact Nat.mul_le_mul_right _ (Nat.mul_le_mul ((root k).2 le) ((root k).2 le))
    · next none =>
      have whole := not_not.1 (mt sticky.2 none)
      rw [← whole, Nat.mul_lt_mul_right (Nat.pos_of_ne_zero nonzero), Nat.mul_self_lt_mul_self_iff]
  · have whole := not_not.1 (mt sticky.2 (Bool.eq_false_iff.1 exact_))
    have same : (1 : Rat) = (r : Rat) * 2 ^ (-i - (c : Int)) * (r * 2 ^ (-i - (c : Int))) * (n * 2 ^ (i + i)) := by
      rw [grid, whole, size]
    have nonneg' : (0 : Rat) ≤ r * 2 ^ (-i - (c : Int)) := by positivity
    rw [same, mul_le_mul_iff_left₀ positive, mul_lt_mul_iff_left₀ positive]
    exact ⟨(mul_self_le_mul_self_iff nonneg nonneg').symm, (mul_self_lt_mul_self_iff nonneg nonneg').symm⟩

theorem rsqrtEven_precise (nonzero : n ≠ 0) (e : Int) : 2 ^ 64 ≤ (rsqrtEven n e).2.1 := by
  obtain ⟨k, len, -, most⟩ := bitLen_bounds nonzero
  unfold rsqrtEven
  dsimp only
  rw [Nat.le_sqrt, Nat.le_div_iff_mul_le (Nat.pos_of_ne_zero nonzero), len, ← Nat.pow_add]
  calc 2 ^ (64 + 64) * n ≤ 2 ^ (64 + 64) * 2 ^ (k + 1) := Nat.mul_le_mul_left _ most.le
    _ = 2 ^ (64 + 64 + (k + 1)) := (Nat.pow_add 2 (64 + 64) (k + 1)).symm
    _ ≤ 2 ^ (2 * (64 + (k + 1))) := Nat.pow_le_pow_right (by decide) (by omega)

theorem places_rsqrt (nonzero : n ≠ 0) (s : Bool) :
    let c := Fn.rsqrt.exact s n e
    c.1 = false ∧ 2 ^ 64 ≤ c.2.1 ∧
      Places (fun q => q * q * ((n : Rat) * 2 ^ e) < 1) (fun q => q * q * ((n : Rat) * 2 ^ e) ≤ 1) c.2.1 c.2.2.1 c.2.2.2 := by
  rw [rsqrt_exact]
  split
  · next even => exact ⟨rfl, rsqrtEven_precise nonzero e, places_rsqrtEven nonzero even⟩
  · next odd =>
    have twice : 2 * n ≠ 0 := by omega
    have value : (n : Rat) * 2 ^ e = ((2 * n : Nat) : Rat) * 2 ^ (e - 1) := (half_unit n e).symm
    rw [value]
    exact ⟨rfl, rsqrtEven_precise twice (e - 1), places_rsqrtEven twice (by omega)⟩

end

end Sys2Proof.Machine
end

section
/-! The functions of R116 and R117 on the four formats of vector functions. -/

namespace Sys2Proof.Machine

/-! The formats -/

/-- What the formats of the functions have in common. -/
structure Fmt.Binary (f : Fmt) : Prop where
  known : f ∈ Fmt.known
  ieee : f.special = .ieee
  top : f.maxMag + 1 = 2 ^ f.fbits * (2 * f.bias + 1)
  narrow : f.fbits ≤ 52
  small : f.bias ≤ 1023
  logs : f.bias + f.fbits < 2 ^ (f.fbits + 1)
  wide : f.fbits < f.bias

theorem Fmt.binary {f : Fmt} (h : f ∈ [Fmt.f16, .bf16, .f32, .f64]) : f.Binary := by
  simp only [List.mem_cons, List.not_mem_nil, or_false] at h
  rcases h with rfl | rfl | rfl | rfl <;>
    exact ⟨by decide, by decide, by decide, by decide, by decide, by decide, by decide⟩

/-- The power of two with an exponent field. -/
theorem Fmt.magnitude_field (f : Fmt) {a : Nat} (nonzero : a ≠ 0) : f.magnitude (2 ^ f.fbits * a) = 2 ^ ((a : Int) - f.bias) := by
  have mant := f.mant_fields a (Nat.two_pow_pos f.fbits)
  have expo := f.expo_fields a (Nat.two_pow_pos f.fbits)
  rw [Nat.add_zero, if_neg nonzero] at mant expo
  rw [f.magnitude_eq, mant, expo, Nat.zero_add, Nat.cast_pow, Nat.cast_ofNat, ← zpow_natCast, ← zpow_add₀ (by decide)]
  congr 1
  omega

section
variable {f : Fmt} (binary : f.Binary)
include binary

theorem Fmt.Binary.regular : f.Regular := Fmt.regular binary.known

theorem Fmt.Binary.magnitude_top : f.magnitude (f.maxMag + 1) = 2 ^ ((f.bias : Int) + 1) := by
  rw [binary.top, Fmt.magnitude_field f (Nat.succ_ne_zero _)]
  congr 1
  push_cast
  ring

theorem Fmt.Binary.magnitude_one : f.magnitude (f.bias * 2 ^ f.fbits) = 1 := by
  have := binary.wide
  rw [Nat.mul_comm, Fmt.magnitude_field f (by omega), sub_self, zpow_zero]

/-- The finite magnitudes are those below the next power of two. -/
theorem Fmt.Binary.finite_iff (t : Nat) : t ≤ f.maxMag ↔ f.magnitude t < 2 ^ ((f.bias : Int) + 1) := by
  rw [← binary.magnitude_top, f.magnitude_strictMono.lt_iff_lt, Nat.lt_succ_iff]

/-- The exponents of powers of two among the finite magnitudes. -/
theorem Fmt.Binary.exponent_bounds {t : Nat} {n : Int} (inside : t ≤ f.maxMag) (value : f.magnitude t = 2 ^ n) :
    -(f.bias : Int) - f.fbits < n ∧ n ≤ f.bias := by
  have above := (binary.finite_iff t).1 inside
  rw [value, zpow_lt_zpow_iff_right₀ (by decide)] at above
  have nonzero : t ≠ 0 := by
    rintro rfl
    rw [f.magnitude_zero] at value
    exact (two_zpow_pos n).ne value
  have least : f.magnitude 1 = 2 ^ (1 - (f.bias : Int) - f.fbits) := by
    have one := f.magnitude_succ 0
    rwa [f.mant_eq_zero.2 rfl, show f.expo 0 = 1 - (f.bias : Int) - f.fbits by simp [Fmt.expo], Nat.zero_add, Nat.cast_one, one_mul]
      at one
  have below := f.magnitude_strictMono.monotone (Nat.pos_of_ne_zero nonzero)
  rw [least, value, zpow_le_zpow_iff_right₀ (by decide)] at below
  omega

/-- Small integers are magnitudes. -/
theorem Fmt.Binary.exists_natural {k : Nat} (bound : k < 2 ^ (f.fbits + 1)) :
    ∃ t, t ≤ f.maxMag ∧ f.magnitude t = (k : Rat) * 2 ^ (0 : Int) := by
  by_cases zero : k = 0
  · exact ⟨0, Nat.zero_le _, by rw [f.magnitude_zero, zero, Nat.cast_zero, zero_mul]⟩
  · obtain ⟨n, len, least, -⟩ := bitLen_bounds zero
    have short : n < f.fbits + 1 := (Nat.pow_lt_pow_iff_right (a := 2) (by decide)).1 (least.trans_lt bound)
    have := binary.wide
    have fine : f.lastPlace k 0 ≤ 0 := by
      unfold Fmt.lastPlace topOf
      omega
    have sig := Fmt.floorMag_significand (f := f) (e := 0) zero
    have value : f.magnitude (f.floorMag k 0) = (k : Rat) * 2 ^ (0 : Int) := by
      rw [Fmt.floorMag, sig.magnitude, cutAt, if_pos fine, shiftLeft_cast fine]
    refine ⟨_, (binary.finite_iff _).2 ?_, value⟩
    rw [value, zpow_zero, mul_one]
    calc (k : Rat) < ((2 ^ (f.fbits + 1) : Nat) : Rat) := Nat.cast_lt.2 bound
      _ = 2 ^ ((f.fbits + 1 : Nat) : Int) := by rw [zpow_natCast, Nat.cast_pow, Nat.cast_ofNat]
      _ ≤ 2 ^ ((f.bias : Int) + 1) := zpow_le_zpow_right₀ (by decide) (by push_cast; omega)

end

/-- What an operand that reads as a number is. -/
theorem Fmt.of_read {f : Fmt} {md : Mode} (known : f ∈ Fmt.known) {x : Nat} {s : Bool} {n : Nat} {e : Int}
    (read : f.read md x = .fin s n e) :
    f.isFinite (f.daz md x) = true ∧ n < 2 ^ (f.fbits + 1) ∧ s = f.sign x ∧ f.value (f.daz md x) = ratOf s n e := by
  have finite : f.isFinite (f.daz md x) = true := by
    by_contra beyond
    rw [Fmt.read, Fmt.decode_eq known, if_neg beyond] at read
    split at read <;> cases read
  have decoded := Fmt.decode_of_finite known finite
  rw [← Fmt.read, read] at decoded
  injection decoded with sign mant expo
  refine ⟨finite, mant ▸ f.mant_lt _, by rw [sign]; exact f.sign_daz md x, ?_⟩
  rw [Fmt.value_eq, sign, mant, expo]
  rfl

/-! Exact results (R117) -/

section
variable {m : Nat} {e : Int}

/-- A whole number in fixed point. -/
theorem toFix_whole {k : Nat} (value : (m : Rat) * 2 ^ e = k) :
    toFix m e = k * 2 ^ fixBits ∧ (0 ≤ e ∨ m % 2 ^ (-e).toNat = 0) := by
  unfold toFix
  rcases le_or_gt 0 e with whole | fraction
  · obtain ⟨a, rfl⟩ := Int.eq_ofNat_of_zero_le whole
    have count : k = m * 2 ^ a := by
      have : ((k : Nat) : Rat) = ((m * 2 ^ a : Nat) : Rat) := by
        rw [← value]
        push_cast
        rw [zpow_natCast]
      exact_mod_cast this
    refine ⟨?_, .inl whole⟩
    rw [if_pos (by omega), show ((a : Int) + fixBits).toNat = a + fixBits by omega, Nat.shiftLeft_eq, Nat.pow_add, count, Nat.mul_assoc]
  · obtain ⟨a, rfl⟩ : ∃ a : Nat, e = -a := ⟨(-e).toNat, by omega⟩
    have count : m = k * 2 ^ a := by
      have : ((m : Nat) : Rat) = ((k * 2 ^ a : Nat) : Rat) := by
        push_cast
        rw [← value, zpow_neg, zpow_natCast, mul_assoc, inv_mul_cancel₀ (by positivity), mul_one]
      exact_mod_cast this
    refine ⟨?_, .inr ?_⟩
    · split
      · next wide =>
        have split_ : fixBits = a + (-(a : Int) + fixBits).toNat := by omega
        rw [Nat.shiftLeft_eq, count, Nat.mul_assoc, ← Nat.pow_add, ← split_]
      · next far =>
        have split_ : a = fixBits + (-(-(a : Int) + fixBits)).toNat := by omega
        rw [Nat.shiftRight_eq_div_pow, count]
        conv_lhs => rw [split_]
        rw [Nat.pow_add, ← Nat.mul_assoc, show (-(-((fixBits + (-(-(a : Int) + fixBits)).toNat : Nat) : Int) + fixBits)).toNat =
          (-(-(a : Int) + fixBits)).toNat by omega, Nat.mul_div_cancel _ (Nat.two_pow_pos _)]
    · rw [count, show (-(-(a : Int))).toNat = a by omega, Nat.mul_mod_left]

/-- Two to the power of an integer (R117). -/
theorem exp2_exact_whole (s : Bool) {k : Nat} (value : (m : Rat) * 2 ^ e = k) :
    Fn.exp2.exact s m e = (false, 1, if s then -(k : Int) else k, false) := by
  obtain ⟨fixed, whole⟩ := toFix_whole value
  have count : (k * 2 ^ fixBits) >>> fixBits = k := by
    rw [Nat.shiftRight_eq_div_pow, Nat.mul_div_cancel _ (Nat.two_pow_pos _)]
  have none : k * 2 ^ fixBits % 2 ^ fixBits = 0 := Nat.mul_mod_left _ _
  have exact_ : (decide (k * 2 ^ fixBits % 2 ^ fixBits = 0) && (decide (0 ≤ e) || m % 2 ^ (-e).toNat == 0)) = true := by
    rw [Bool.and_eq_true, Bool.or_eq_true, decide_eq_true_eq, decide_eq_true_eq, beq_iff_eq]
    exact ⟨none, whole⟩
  unfold Fn.exact
  dsimp only
  rw [fixed, exact_, if_pos rfl, count]

/-- The logarithm of a power of two (R117). -/
theorem log2_exact_power (nonzero : m ≠ 0) {n : Int} (value : (m : Rat) * 2 ^ e = 2 ^ n) :
    Fn.log2.exact false m e = (decide (n < 0), n.natAbs, 0, false) := by
  have least : e ≤ n := by
    rw [← zpow_le_zpow_iff_right₀ (a := (2 : Rat)) (by decide), ← value]
    exact le_mul_of_one_le_left (two_zpow_pos e).le (Nat.one_le_cast.2 (Nat.pos_of_ne_zero nonzero))
  have count : m = 2 ^ (n - e).toNat := by
    have := two_zpow_pos e
    rw [zpow_eq_mul least, mul_left_inj' this.ne'] at value
    exact_mod_cast value
  have len : bitLen m = (n - e).toNat + 1 := by rw [bitLen, if_neg nonzero, count, Nat.log2_two_pow]
  have power : e + (bitLen m : Int) - 1 = n := by omega
  unfold Fn.exact
  dsimp only
  rw [if_pos (by rw [len, Nat.add_sub_cancel, ← count]), power]

end

/-! Operands outside the domain and at its edges (R116) -/

section
variable {f : Fmt} (binary : f.Binary) (tag : Nat) (fm : BitVec 6) {x : Nat}
include binary

/-- The modes of a function: those of `fmode`, with RNE. -/
def functionMode (fm : BitVec 6) : Mode := { Mode.ofFmode fm with rm := .rne }

theorem Fmt.func_nan (bound : x < 2 ^ f.width) (nan : f.isNanCode x = true) (fn : Fn) :
    f.func fn tag fm x = f.nanFrom (functionMode fm) [x] := by
  rw [← Fmt.nanResult_read binary.known (functionMode fm) [x] (by simpa using bound) (by simpa using nan), List.map_singleton,
    Fmt.read_nan binary.known nan]
  unfold Fmt.func
  dsimp only
  rw [Fmt.read_nan binary.known nan]
  rfl

theorem Fmt.func_zero (finite : f.isFinite (f.daz (functionMode fm) x) = true) (zero : f.value (f.daz (functionMode fm) x) = 0) :
    f.func .recip tag fm x = ⟨f.inf (f.sign x), flDZ⟩ ∧ f.func .rsqrt tag fm x = ⟨f.inf (f.sign x), flDZ⟩ ∧
      f.func .exp2 tag fm x = ⟨f.bias * 2 ^ f.fbits, 0⟩ ∧ f.func .log2 tag fm x = ⟨f.inf true, flDZ⟩ ∧
      f.func .tanh tag fm x = ⟨f.signBit (f.sign x), 0⟩ := by
  obtain ⟨m, e, read, value⟩ := Fmt.read_finite binary.known finite
  obtain rfl := ratOf_eq_zero.1 (value.symm.trans zero)
  unfold functionMode at read
  unfold Fmt.func
  dsimp only
  rw [read]
  simp only [↓reduceIte, f.signed_eq, Nat.add_zero]
  exact ⟨rfl, rfl, trivial, rfl, trivial⟩

theorem Fmt.func_inf (s : Bool) :
    f.func .recip tag fm (f.inf s) = ⟨f.signBit s, 0⟩ ∧ f.func .rsqrt tag fm (f.inf false) = ⟨0, 0⟩ ∧
      f.func .rsqrt tag fm (f.inf true) = f.invalid ∧ f.func .exp2 tag fm (f.inf false) = ⟨f.inf false, 0⟩ ∧
      f.func .exp2 tag fm (f.inf true) = ⟨0, 0⟩ ∧ f.func .log2 tag fm (f.inf false) = ⟨f.inf false, 0⟩ ∧
      f.func .log2 tag fm (f.inf true) = f.invalid ∧
      f.func .tanh tag fm (f.inf s) = ⟨f.signBit s + f.bias * 2 ^ f.fbits, 0⟩ := by
  have read (s : Bool) : f.read { Mode.ofFmode fm with rm := .rne } (f.inf s) = .inf s :=
    Fmt.read_inf (.inl binary.ieee) binary.known s
  have positive : f.inf false = f.infMag := Nat.zero_add _
  unfold Fmt.func
  dsimp only
  simp only [read, f.signed_eq, Nat.add_zero]
  rw [positive]
  exact ⟨trivial, rfl, rfl, rfl, rfl, rfl, rfl, trivial⟩

theorem Fmt.func_negative (finite : f.isFinite (f.daz (functionMode fm) x) = true) (negative : f.value (f.daz (functionMode fm) x) < 0) :
    f.func .rsqrt tag fm x = f.invalid ∧ f.func .log2 tag fm x = f.invalid := by
  obtain ⟨m, e, read, value⟩ := Fmt.read_finite binary.known finite
  have sign : f.sign x = true := by
    by_contra positive
    rw [value, Bool.eq_false_iff.2 positive, ratOf_false] at negative
    exact absurd negative (not_lt.2 (by positivity))
  have nonzero : m ≠ 0 := mt ratOf_eq_zero.2 (value ▸ negative.ne)
  unfold functionMode at read
  unfold Fmt.func
  dsimp only
  rw [read, sign]
  dsimp only
  rw [if_neg nonzero, if_neg nonzero]
  exact ⟨rfl, rfl⟩

theorem Fmt.func_tanh_large (finite : f.isFinite (f.daz (functionMode fm) x) = true)
    (large : 20 ≤ |f.value (f.daz (functionMode fm) x)|) :
    f.func .tanh tag fm x = ⟨f.signBit (f.sign x) + f.bias * 2 ^ f.fbits, flNX⟩ := by
  obtain ⟨m, e, read, value⟩ := Fmt.read_finite binary.known finite
  rw [value, abs_ratOf] at large
  have nonzero : m ≠ 0 := by
    rintro rfl
    rw [Nat.cast_zero, zero_mul] at large
    linarith
  have beyond : magLt m e 20 0 = false := by
    rw [← Bool.not_eq_true, magLt_iff, zpow_zero, mul_one, not_lt]
    exact large
  unfold functionMode at read
  unfold Fmt.func
  dsimp only
  rw [read]
  dsimp only
  rw [if_neg nonzero, beyond, f.signed_eq]
  cases f.sign x <;> rfl

end

end Sys2Proof.Machine
end

section
/-! VFMA, widening, function and conversion instructions, settled (R57, R111, R114, R116, R117, R120-R122). -/

namespace Sys2Proof.Machine

theorem Fmt.abs_value (f : Fmt) (x : Nat) : |f.value x| = f.magnitude (f.mag x) := by
  rw [Fmt.value_eq, abs_ratOf, f.magnitude_eq]

/-- A significand of 2^64 or more has more bits than the format and its half unit. -/
theorem Fmt.Binary.enough {f : Fmt} (binary : f.Binary) {m : Nat} {cut : Bool} (precise : 2 ^ 64 ≤ m) (_ : cut = true) :
    2 ^ (f.fbits + 2) ≤ m :=
  (Nat.pow_le_pow_right (by decide) (by have := binary.narrow; omega)).trans precise

/-! Functions of operands in their domain (R116, R117) -/

section
variable {f : Fmt} (binary : f.Binary) (tag : Nat) {fm : BitVec 6} (ftz : (functionMode fm).ftz = false) {x : Nat}
include binary ftz

/-- A function that is cut in fixed point lies within its bound of the value that was cut (R117). -/
theorem Fmt.func_within {fn : Fn} (fixed : fn = .exp2 ∨ fn = .log2 ∨ fn = .tanh) {s : Bool} {n : Nat} {e : Int}
    (read : f.read (functionMode fm) x = .fin s n e) (nonzero : n ≠ 0) (small : fn = .exp2 → (n : Rat) * 2 ^ e ≤ 1100)
    (domain : fn = .log2 → s = false) (range : fn = .tanh → (n : Rat) * 2 ^ e < 20) :
    let c := fn.exact s n e
    let exact := (c.2.1 : Rat) * 2 ^ c.2.2.1
    let r := f.func fn tag fm x
    (f.width = 16 → r = f.round (functionMode fm) c.1 c.2.1 c.2.2.1 c.2.2.2) ∧
      ∀ t, t < f.maxMag → f.magnitude t ≤ exact → exact < f.magnitude (t + 1) → f.isFinite r.val = true ∧
        |f.value r.val - (if c.1 then -exact else exact)| ≤ fn.bound f * (f.magnitude (t + 1) - f.magnitude t) := by
  have noRoot : fn ≠ .rsqrt := by rcases fixed with rfl | rfl | rfl <;> decide
  have pos : 1 ≤ fn.bound f := by
    rcases fixed with rfl | rfl | rfl <;> (unfold Fn.bound; dsimp only; split <;> decide)
  have vanishes : (fn.exact s n e).2.1 ≠ 0 ∨ fn.exact s n e = (false, 0, 0, false) := by
    rcases fixed with rfl | rfl | rfl
    · exact .inl (exp2_exact_ne_zero s n e)
    · rw [domain rfl]
      exact log2_exact_ne_zero nonzero ((Fmt.of_read binary.known read).2.1.trans_le
        (Nat.pow_le_pow_right (by decide) (Nat.succ_le_succ binary.narrow)))
    · exact .inl (tanh_exact_ne_zero s nonzero)
  obtain ⟨pick, result⟩ := Fmt.func_fin (tag := tag) read nonzero (fun h => domain (h.resolve_left noRoot)) range
  rw [Fn.result_eq small] at result
  dsimp only at result ⊢
  rw [result]
  clear result
  generalize fn.exact s n e = c at vanishes ⊢
  obtain ⟨sign, m, i, cut⟩ := c
  refine ⟨fun narrow => Fmt.bounded_narrow narrow _ _ _, fun t below least most => ?_⟩
  dsimp only at vanishes least most ⊢
  rcases vanishes with some_ | none
  · obtain rfl := (Fmt.floorMag_between some_).unique (places_exact m i) least (not_le.2 most)
    obtain ⟨j, t', low, high, near⟩ :=
      Fmt.bounded_near (s := sign) (md := functionMode fm) binary.regular ftz pos pick some_ below cut
    exact ⟨(near.value binary.regular).1, near.near binary.regular some_ low high⟩
  · obtain ⟨rfl, rfl, rfl, rfl⟩ : sign = false ∧ m = 0 ∧ i = 0 ∧ cut = false := by simpa using none
    have zero : f.magnitude 0 = ((0 : Nat) : Rat) * 2 ^ (0 : Int) := by rw [f.magnitude_zero, Nat.cast_zero, zero_mul]
    rw [Fmt.bounded_exact (md := { Mode.ofFmode fm with rm := .rne }) binary.regular ftz (Nat.zero_le _) zero]
    obtain ⟨mag, -, finite⟩ := Fmt.mag_of_pattern binary.regular (Nat.zero_le f.maxMag) false
    have value : f.value (f.signBit false + 0) = 0 := by rw [Fmt.value, mag, f.magnitude_zero, mul_zero]
    have unit := sub_pos.2 (f.magnitude_strictMono (Nat.lt_succ_self t))
    refine ⟨finite, ?_⟩
    rw [value, Nat.cast_zero, zero_mul, if_neg Bool.false_ne_true, sub_zero, abs_zero]
    positivity

/-- Two to the power of an integer is exact (R117). -/
theorem Fmt.func_exp2_whole (finite : f.isFinite (f.daz (functionMode fm) x) = true) {n : Int}
    (value : f.value (f.daz (functionMode fm) x) = n) {t : Nat} (inside : t ≤ f.maxMag) (power : f.magnitude t = 2 ^ n) :
    f.func .exp2 tag fm x = ⟨t, 0⟩ := by
  by_cases zero : n = 0
  · subst zero
    obtain ⟨-, -, one, -, -⟩ := Fmt.func_zero binary tag fm finite (value.trans Int.cast_zero)
    rw [one, f.magnitude_strictMono.injective (power.trans (zpow_zero 2 |>.trans binary.magnitude_one.symm))]
  · obtain ⟨m, e, read, shape⟩ := Fmt.read_finite binary.known finite
    have whole : (m : Rat) * 2 ^ e = n.natAbs := by
      rw [← abs_ratOf (s := f.sign x), ← shape, value, Nat.cast_natAbs, Int.cast_abs]
    have nonzero : m ≠ 0 := by
      rintro rfl
      rw [Nat.cast_zero, zero_mul] at whole
      exact zero (Int.natAbs_eq_zero.1 (by exact_mod_cast whole.symm))
    have signed : (if f.sign x then -(n.natAbs : Int) else n.natAbs) = n := by
      have : ratOf (f.sign x) m e = n := shape.symm.trans value
      cases sign : f.sign x with
      | false =>
        rw [sign, ratOf_false, whole] at this
        exact (if_neg Bool.false_ne_true).trans (Int.cast_injective ((Int.cast_natCast _).trans this))
      | true =>
        rw [sign, ratOf_true, whole] at this
        rw [if_pos rfl]
        exact_mod_cast this
    have range : n.natAbs ≤ 1100 := by
      have := binary.exponent_bounds inside power
      have := binary.small
      have := binary.narrow
      omega
    obtain ⟨pick, result⟩ := Fmt.func_fin (fn := .exp2) (tag := tag) read nonzero (by simp) (by simp)
    rw [Fn.result_eq (fun _ => by rw [whole]; exact_mod_cast range), exp2_exact_whole _ whole, signed] at result
    dsimp only at result
    rw [result, Fmt.bounded_exact (md := { Mode.ofFmode fm with rm := .rne }) binary.regular ftz inside
      (by rw [power, Nat.cast_one, one_mul])]
    exact congrArg (FRes.mk · 0) (Nat.zero_add t)

/-- The logarithm of a power of two is exact (R117). -/
theorem Fmt.func_log2_power (finite : f.isFinite (f.daz (functionMode fm) x) = true) {n : Int}
    (value : f.value (f.daz (functionMode fm) x) = 2 ^ n) :
    f.value (f.func .log2 tag fm x).val = n ∧ (f.func .log2 tag fm x).fl = 0 ∧ (n = 0 → f.func .log2 tag fm x = ⟨0, 0⟩) := by
  obtain ⟨m, e, read, shape⟩ := Fmt.read_finite binary.known finite
  have positive := two_zpow_pos n
  have sign : f.sign x = false := by
    by_contra negative
    rw [shape, eq_true_of_ne_false negative, ratOf_true] at value
    have : (0 : Rat) ≤ m * 2 ^ e := by positivity
    linarith
  rw [sign] at read shape
  have power : (m : Rat) * 2 ^ e = 2 ^ n := by rw [← ratOf_false, ← shape, value]
  have nonzero : m ≠ 0 := by
    rintro rfl
    rw [Nat.cast_zero, zero_mul] at power
    exact positive.ne power
  have short : n.natAbs < 2 ^ (f.fbits + 1) := by
    have operand : f.magnitude (f.mag (f.daz (functionMode fm) x)) = 2 ^ n := by
      rw [← f.abs_value, value, abs_of_pos positive]
    have := binary.exponent_bounds (of_decide_eq_true finite) operand
    have := binary.logs
    omega
  obtain ⟨t, inside, natural⟩ := binary.exists_natural short
  obtain ⟨pick, result⟩ := Fmt.func_fin (fn := .log2) (tag := tag) read nonzero (fun _ => rfl) (by simp)
  rw [Fn.result_eq (by simp), log2_exact_power nonzero power] at result
  dsimp only at result
  rw [Fmt.bounded_exact (md := { Mode.ofFmode fm with rm := .rne }) binary.regular ftz inside natural] at result
  rw [result]
  obtain ⟨mag, signed, -⟩ := Fmt.mag_of_pattern binary.regular inside (decide (n < 0))
  refine ⟨?_, rfl, ?_⟩
  · have split_ (y : Nat) : f.value y = (if f.sign y then -1 else 1) * f.magnitude (f.mag y) := rfl
    rw [split_, mag, signed, natural, zpow_zero, mul_one, Nat.cast_natAbs, Int.cast_abs]
    rcases lt_or_ge n 0 with below | above
    · rw [decide_eq_true below, if_pos rfl, abs_of_neg (Int.cast_lt_zero.2 below), neg_one_mul, neg_neg]
    · rw [decide_eq_false (not_lt.2 above), if_neg Bool.false_ne_true, abs_of_nonneg (Int.cast_nonneg above), one_mul]
  · rintro rfl
    rw [f.magnitude_eq_zero.1 (natural.trans (by simp))]
    rfl

/-- A reciprocal lies within a unit of the exact value (R117). -/
theorem Fmt.func_recip_within (finite : f.isFinite (f.daz (functionMode fm) x) = true)
    (some_ : f.value (f.daz (functionMode fm) x) ≠ 0) {t : Nat} (below : t < f.maxMag)
    (least : f.magnitude t * |f.value (f.daz (functionMode fm) x)| ≤ 1)
    (most : 1 < f.magnitude (t + 1) * |f.value (f.daz (functionMode fm) x)|) :
    let v := |f.value (f.daz (functionMode fm) x)|
    let unit := f.magnitude (t + 1) - f.magnitude t
    let r := f.func .recip tag fm x
    let e := f.magnitude (f.mag r.val)
    r.val = f.signBit (f.sign x) + f.mag r.val ∧ (f.magnitude t * v = 1 → r = ⟨f.signBit (f.sign x) + t, 0⟩) ∧
      (f.width = 16 → f.IsRounding (functionMode fm) (f.sign x) (fun q => q * v < 1) (fun q => q * v ≤ 1) r) ∧
      (e - unit) * v ≤ 1 ∧ 1 ≤ (e + unit) * v := by
  obtain ⟨m, e, read, shape⟩ := Fmt.read_finite binary.known finite
  have nonzero : m ≠ 0 := mt ratOf_eq_zero.2 (shape ▸ some_)
  rw [shape, abs_ratOf] at least most ⊢
  obtain ⟨pick, result⟩ := Fmt.func_fin (fn := .recip) (tag := tag) read nonzero (by simp) (by simp)
  rw [Fn.result_eq (by simp)] at result
  obtain ⟨pattern, exact_, narrow, lower, upper⟩ := Fmt.bounded_placed (s := f.sign x) (md := functionMode fm) binary.regular ftz
    (places_recip nonzero (f.sign x)) (by have := recip_precise (e := e) nonzero (f.sign x); omega)
    (binary.enough (recip_precise nonzero (f.sign x))) ⟨least, not_le.2 most⟩ below pick
  dsimp only
  rw [show f.func .recip tag fm x = _ from result]
  have size : (0 : Rat) ≤ m * 2 ^ e := by positivity
  refine ⟨pattern, fun whole => exact_ whole.not_lt, narrow, ?_, not_lt.1 upper⟩
  rcases lower with small | inside
  · exact (mul_nonpos_of_nonpos_of_nonneg (sub_nonpos.2 small) size).trans zero_le_one
  · exact inside

/-- A reciprocal root lies within a unit of the exact value (R117). -/
theorem Fmt.func_rsqrt_within (finite : f.isFinite (f.daz (functionMode fm) x) = true)
    (positive : 0 < f.value (f.daz (functionMode fm) x)) {t : Nat} (below : t < f.maxMag)
    (least : f.magnitude t * f.magnitude t * f.value (f.daz (functionMode fm) x) ≤ 1)
    (most : 1 < f.magnitude (t + 1) * f.magnitude (t + 1) * f.value (f.daz (functionMode fm) x)) :
    let v := f.value (f.daz (functionMode fm) x)
    let unit := f.magnitude (t + 1) - f.magnitude t
    let r := f.func .rsqrt tag fm x
    let e := f.magnitude (f.mag r.val)
    r.val = f.mag r.val ∧ (f.magnitude t * f.magnitude t * v = 1 → r = ⟨t, 0⟩) ∧
      (f.width = 16 → f.IsRounding (functionMode fm) false (fun q => q * q * v < 1) (fun q => q * q * v ≤ 1) r) ∧
      (e ≤ unit ∨ (e - unit) * (e - unit) * v ≤ 1) ∧ 1 ≤ (e + unit) * (e + unit) * v := by
  obtain ⟨m, e, read, shape⟩ := Fmt.read_finite binary.known finite
  have sign : f.sign x = false := by
    by_contra negative
    rw [shape, eq_true_of_ne_false negative, ratOf_true] at positive
    have : (0 : Rat) ≤ m * 2 ^ e := by positivity
    linarith
  rw [sign] at read shape
  have nonzero : m ≠ 0 := mt ratOf_eq_zero.2 (shape ▸ positive.ne')
  rw [shape, ratOf_false] at least most ⊢
  obtain ⟨pick, result⟩ := Fmt.func_fin (fn := .rsqrt) (tag := tag) read nonzero (fun _ => rfl) (by simp)
  obtain ⟨plain, precise, places⟩ := places_rsqrt (e := e) nonzero false
  rw [Fn.result_eq (by simp)] at result
  dsimp only at result
  rw [plain] at result
  obtain ⟨pattern, exact_, narrow, lower, upper⟩ := Fmt.bounded_placed (s := false) (md := functionMode fm) binary.regular ftz
    places (by omega) (binary.enough precise) ⟨least, not_le.2 most⟩ below pick
  have none (t : Nat) : f.signBit false + t = t := Nat.zero_add t
  rw [none] at pattern exact_
  dsimp only
  rw [show f.func .rsqrt tag fm x = _ from result]
  exact ⟨pattern, fun whole => exact_ whole.not_lt, narrow, lower, not_lt.1 upper⟩

end

end Sys2Proof.Machine
end

section
/-! `VectorFunctions`, assembled. -/

namespace Sys2Proof.Machine

/-! Completion (R111, R114, R116, R120, R122) -/

section
variable {s : State} (ready : s.VectorReady) {f : BitVec 2} {d a b : BitVec 5} {m : BitVec 3}
include ready

theorem fusedForms_elementWise (same : f = 0 → (s.cur.getV b).tag = (s.cur.getV a).tag)
    (number : (s.cur.getV a).tag.isNumber = true)
    (addend : (s.cur.getV d).tag = (s.cur.getV a).tag ∨ (s.cur.getV a).tag.widen = some (s.cur.getV d).tag)
    (fits : s.cur.Fits [(s.cur.getV a).tag, (s.cur.getV d).tag]) :
    let elem := fun negP negC => fmaElem negP negC (Mode.ofFmode s.fmodeHere) (s.cur.getV a).tag (s.cur.getV d).tag
    ElementWise s (exec (.vfma f d a b m) s) f d a b m false (s.cur.getV d).tag (elem false false) ∧
      ElementWise s (exec (.vfms f d a b m) s) f d a b m false (s.cur.getV d).tag (elem false true) ∧
      ElementWise s (exec (.vfnma f d a b m) s) f d a b m false (s.cur.getV d).tag (elem true true) ∧
      ElementWise s (exec (.vfnms f d a b m) s) f d a b m false (s.cur.getV d).tag (elem true false) :=
  ⟨vfma_elementWise ready rfl same number addend fits, vfma_elementWise ready rfl same number addend fits,
    vfma_elementWise ready rfl same number addend fits, vfma_elementWise ready rfl same number addend fits⟩

theorem functionForms_elementWise {g : Fmt} (isF : (s.cur.getV a).tag.isF = true) (fmt : (s.cur.getV a).tag.fmt = some g)
    (fits : s.cur.Fits [(s.cur.getV a).tag]) :
    ElementWise s (exec (.vsqrt d a m) s) 0 d a a m false (s.cur.getV a).tag (fun x _ _ => g.sqrt (Mode.ofFmode s.fmodeHere) x) ∧
      ∀ e ∈ [(Instr.vrecip d a m, Fn.recip), (.vrsqrt d a m, .rsqrt), (.vexp2 d a m, .exp2), (.vlog2 d a m, .log2),
          (.vtanh d a m, .tanh)],
        ElementWise s (exec e.1 s) 0 d a a m false (s.cur.getV a).tag fun x _ _ => g.func e.2 (s.cur.getV a).tag.code s.fmodeHere x := by
  have bounded {i : Instr} {fn : Fn} (h : exec i s = vfunc fn d a m s) : ElementWise s (exec i s) 0 d a a m false (s.cur.getV a).tag
      fun x _ _ => g.func fn (s.cur.getV a).tag.code s.fmodeHere x :=
    function_elementWise ready h isF fits fun x => by rw [fmt]
  refine ⟨function_elementWise ready (i := .vsqrt d a m) rfl isF fits fun x => by rw [fmt], fun e he => ?_⟩
  simp only [List.mem_cons, List.not_mem_nil, or_false] at he
  rcases he with rfl | rfl | rfl | rfl | rfl
  · exact bounded rfl
  · exact bounded rfl
  · exact bounded rfl
  · exact bounded rfl
  · exact bounded rfl

end

/-- Settles O28: each form completes element by element; fused sums and products are roundings of the exact value; a stochastic
rounding is decided by the discarded part; and a function's result is a rounding, an exact result, or within half units of the
cut value that its bound allows. -/
theorem vectorFunctions : Obligations.VectorFunctions := by
  refine ⟨?_, ?_, ?_, ?_, ?_, ?_⟩
  · intro s f d a b m ready t td md
    exact ⟨fun same => ⟨fun number addend fits => fusedForms_elementWise ready same number addend fits,
      fun u wide fits => vwmul_elementWise ready same wide fits⟩,
      fun g isF fmt fits => functionForms_elementWise ready isF fmt fits⟩
  · intro s d a b r m u ready t res md live _ fits
    exact ⟨vcvt_elementWise ready rfl live fits, vcvt_elementWise ready rfl live fits, fun random float fitsR =>
      ⟨vcvtSr_elementWise ready rfl live fits random float fitsR, vcvtSr_elementWise ready rfl live fits random float fitsR⟩⟩
  · intro t u md negP negC x y z hx hy hz tags r plus
    refine ⟨fun int => ⟨?_, fun wide => wideMulElem_int int wide hx hy⟩, fun f g number tf ug => ?_⟩
    · have eq : r = _ := fmaElem_int int
      rw [eq]
      exact ⟨rfl, wrap_emod _ _⟩
    · rw [Tag.width_of_fmt tf] at hx hy
      rw [Tag.width_of_fmt ug] at hz
      exact fmaElem_float_values (Tag.known_of_fmt tf) (Tag.known_of_fmt ug) tf ug hx hy hz
  · intro t u md x hx r
    exact ⟨fun f tf => convertElem_of_fmt tf, fun int => convertElem_of_isInt int⟩
  · intro t u g md x rand k v s ug hx small float int live r
    obtain ⟨m, e, rfl, eq⟩ := stochasticElem_operand (rand := rand) ug float int live
    have eq : r = _ := eq
    rw [eq]
    exact Fmt.stochastic_values small k
  · intro f hf tag fm x hx md x' v neg one inf invalid func all
    have binary := Fmt.binary hf
    refine ⟨fun nan fn _ => Fmt.func_nan binary tag fm hx nan fn, fun zero finite => Fmt.func_zero binary tag fm finite zero,
      Fmt.func_inf binary tag fm neg, fun finite negative => Fmt.func_negative binary tag fm finite negative, ?_,
      fun finite large => Fmt.func_tanh_large binary tag fm finite large, fun finite ftz => ⟨?_, ?_, fun t below => ⟨?_, ?_⟩⟩⟩
    · intro ftz fn fixed sgn n e read nonzero small domain range
      obtain ⟨narrow, wide⟩ := Fmt.func_within binary tag ftz (by simpa using fixed) read nonzero small domain range
      exact ⟨narrow, fun _ => wide⟩
    · exact fun n value t inside power => Fmt.func_exp2_whole binary tag ftz finite value inside power
    · exact fun n value => Fmt.func_log2_power binary tag ftz finite value
    · exact fun some_ least most => Fmt.func_recip_within binary tag ftz finite some_ below least most
    · exact fun positive least most => Fmt.func_rsqrt_within binary tag ftz finite positive below least most

end Sys2Proof.Machine
end

section
/-! Scalar integer instructions (R69-R74, R79-R81): their results as sums, quotients, comparisons and bits of integers. -/

namespace Sys2Proof.Machine

/-! Completion -/

theorem completes_writeX_of_eq (s : State) (d : BitVec 5) {v w : Word} (value : v = w) :
    Completes s (writeX d v s) (s.cur.pc + 4) (s.cur.setX d w) := value ▸ completes_writeX d v

theorem completes_writeC (s : State) (d : BitVec 3) (v : Bool) :
    Completes s (writeC d v s) (s.cur.pc + 4) (s.cur.setC d v) := by
  have done := completes_retire s (s.cur.setC d v)
  rwa [Hart.setC_pc] at done

/-- A comparison writes whether it holds. -/
theorem completes_comparison (s : State) (d : BitVec 3) {v : Bool} {p : Prop} (holds : v = true ↔ p) :
    ∃ w : Bool, (w = true ↔ p) ∧ Completes s (writeC d v s) (s.cur.pc + 4) (s.cur.setC d w) :=
  ⟨v, holds, completes_writeC s d v⟩

/-! Sign extension and shifts -/

theorem sext_toInt {n : Nat} (h : n ≤ 64) (i : BitVec n) : (sext i).toInt = i.toInt := BitVec.toInt_signExtend_of_le h

theorem sext_eq_ofInt {n : Nat} (i : BitVec n) : sext i = BitVec.ofInt 64 i.toInt := rfl

theorem eq_sext_iff {n : Nat} (h : n ≤ 64) {x : Word} {i : BitVec n} : x = sext i ↔ x.toInt = i.toInt := by
  rw [← sext_toInt h, BitVec.toInt_inj]

theorem add_sext (x : Word) {n : Nat} (i : BitVec n) : x + sext i = BitVec.ofInt 64 (x.toInt + i.toInt) := by
  rw [BitVec.ofInt_add, BitVec.ofInt_toInt, sext_eq_ofInt]

theorem sext_mul {n : Nat} (i : BitVec n) (k : Int) : sext i * BitVec.ofInt 64 k = BitVec.ofInt 64 (i.toInt * k) := by
  rw [BitVec.ofInt_mul, sext_eq_ofInt]

theorem add_sext_mul (x : Word) {n : Nat} (i : BitVec n) (k : Int) :
    x + sext i * BitVec.ofInt 64 k = BitVec.ofInt 64 (x.toInt + i.toInt * k) := by
  rw [BitVec.ofInt_add, BitVec.ofInt_toInt, sext_mul]

theorem shiftLeft_eq_ofNat (x : Word) (k : Nat) : x <<< k = BitVec.ofNat 64 (x.toNat * 2 ^ k) := by
  apply BitVec.eq_of_toNat_eq
  rw [BitVec.toNat_shiftLeft, BitVec.toNat_ofNat, Nat.shiftLeft_eq]

theorem shiftRight_eq_ofNat (x : Word) (k : Nat) : x >>> k = BitVec.ofNat 64 (x.toNat / 2 ^ k) := by
  apply BitVec.eq_of_toNat_eq
  rw [BitVec.toNat_ushiftRight, BitVec.toNat_ofNat, Nat.shiftRight_eq_div_pow,
    Nat.mod_eq_of_lt (Nat.lt_of_le_of_lt (Nat.div_le_self _ _) x.isLt)]

theorem sshiftRight_eq_ofInt (x : Word) (k : Nat) : x.sshiftRight k = BitVec.ofInt 64 (x.toInt / 2 ^ k) := by
  rw [BitVec.sshiftRight, Int.shiftRight_eq_div_pow]
  norm_cast

/-- Settles O9: the sign-extended immediate is the word of its signed value, and a shift multiplies or divides by a power of two. -/
theorem immediateResults : Obligations.ImmediateResults := by
  refine ⟨fun s d a i => ?_, fun s d a n i => ?_⟩
  · have value {v w : Word} (e : v = w) := completes_writeX_of_eq s d e
    exact ⟨value (add_sext _ i), value rfl, value rfl, value rfl⟩
  · have value {v w : Word} (e : v = w) := completes_writeX_of_eq s d e
    exact ⟨value (shiftLeft_eq_ofNat _ _), value (shiftRight_eq_ofNat _ _), value (sshiftRight_eq_ofInt _ _),
      value (sext_mul i 65536), value (add_sext_mul _ i 65536)⟩

/-! Smaller and larger operands (R69) -/

theorem ite_toInt_le (x y : Word) : (if x.toInt ≤ y.toInt then x else y) = BitVec.ofInt 64 (min x.toInt y.toInt) ∧
    (if x.toInt ≤ y.toInt then y else x) = BitVec.ofInt 64 (max x.toInt y.toInt) := by
  rw [min_def, max_def]
  split
  · exact ⟨BitVec.ofInt_toInt.symm, BitVec.ofInt_toInt.symm⟩
  · exact ⟨BitVec.ofInt_toInt.symm, BitVec.ofInt_toInt.symm⟩

theorem ite_toNat_le (x y : Word) : (if x.toNat ≤ y.toNat then x else y) = BitVec.ofNat 64 (min x.toNat y.toNat) ∧
    (if x.toNat ≤ y.toNat then y else x) = BitVec.ofNat 64 (max x.toNat y.toNat) := by
  have same (z : Word) : z = BitVec.ofNat 64 z.toNat := by rw [BitVec.ofNat_toNat, BitVec.setWidth_eq]
  rw [min_def, max_def]
  split
  · exact ⟨same x, same y⟩
  · exact ⟨same y, same x⟩

/-! Bit counts (R70) -/

/-- Above the highest set bit every bit is clear. -/
theorem leadingZeros_spec (x : Word) : ∃ n, n ≤ 64 ∧ leadingZeros x = BitVec.ofNat 64 n ∧
    (∀ i, i < n → x.getLsbD (63 - i) = false) ∧ (n < 64 → x.getLsbD (63 - n) = true) := by
  by_cases zero : x.toNat = 0
  · have none : x = 0 := BitVec.eq_of_toNat_eq zero
    refine ⟨64, le_rfl, by rw [none]; rfl, fun i _ => by rw [none]; exact BitVec.getLsbD_zero, fun h => absurd h (lt_irrefl _)⟩
  · obtain ⟨k, len, least, most⟩ := bitLen_bounds zero
    have inside : k < 64 := (Nat.pow_lt_pow_iff_right (by decide)).1 (lt_of_le_of_lt least x.isLt)
    refine ⟨63 - k, by omega, by rw [leadingZeros, len, show 64 - (k + 1) = 63 - k by omega], fun i below => ?_, fun _ => ?_⟩
    · exact Nat.testBit_lt_two_pow (lt_of_lt_of_le most (Nat.pow_le_pow_right (by decide) (by omega)))
    · rw [show 63 - (63 - k) = k by omega]
      exact Nat.testBit_of_two_pow_le_and_two_pow_add_one_gt least most

theorem lowestSet_zero (n : Nat) : lowestSet n 0 = n := by
  induction n with
  | zero => rfl
  | succ n ih => rw [lowestSet, if_neg (by decide), Nat.zero_div, ih]

theorem trailingZeros_spec (x : Word) : ∃ n, n ≤ 64 ∧ trailingZeros x = BitVec.ofNat 64 n ∧
    (∀ i, i < n → x.getLsbD i = false) ∧ (n < 64 → x.getLsbD n = true) := by
  by_cases zero : x.toNat = 0
  · have none : x = 0 := BitVec.eq_of_toNat_eq zero
    refine ⟨64, le_rfl, by rw [none]; rfl, fun i _ => by rw [none]; exact BitVec.getLsbD_zero, fun h => absurd h (lt_irrefl _)⟩
  · obtain ⟨set, inside, before⟩ := List.find?_range_eq_some.1 (lowestSet_eq 64 x.toNat x.isLt zero)
    exact ⟨_, (List.mem_range.1 inside).le, rfl, fun i below => Bool.eq_false_of_not_eq_true' (before i below), fun _ => set⟩

theorem reverseBits_lt (n : Nat) : ∀ v, reverseBits n v < 2 ^ n := by
  induction n with
  | zero => exact fun _ => Nat.one_pos
  | succ n ih =>
    intro v
    have low := ih (v / 2)
    rcases Nat.mod_two_eq_zero_or_one v with h | h <;> rw [reverseBits, h, Nat.pow_succ] <;> omega

theorem testBit_reverseBits (n : Nat) : ∀ v i, i < n → (reverseBits n v).testBit i = v.testBit (n - 1 - i) := by
  induction n with
  | zero => exact fun _ _ h => absurd h (Nat.not_lt_zero _)
  | succ n ih =>
    intro v i below
    have small := reverseBits_lt n (v / 2)
    rw [reverseBits, Nat.mul_comm]
    rcases Nat.lt_succ_iff_lt_or_eq.1 below with inside | rfl
    · rw [Nat.testBit_two_pow_mul_add _ small, if_pos inside, ih _ _ inside, Nat.testBit_div_two]
      congr 1
      omega
    · rw [Nat.testBit_two_pow_mul_add _ small, if_neg (lt_irrefl _), Nat.sub_self, Nat.add_sub_cancel, Nat.sub_self,
        Nat.testBit_zero, Nat.testBit_zero, Nat.mod_mod]

/-- Settles O7: each instruction writes one register, with the value or the bit that its rule gives. -/
theorem aluResults : Obligations.AluResults := by
  refine ⟨fun s d a b c => ?_, fun s d a => ?_, fun s d a b i => ?_, fun s d a b => ?_⟩
  · have plain (v : Word) := completes_writeX (s := s) d v
    have value {v w : Word} (e : v = w) := completes_writeX_of_eq s d e
    obtain ⟨least, greatest⟩ := ite_toInt_le (s.x a) (s.x b)
    obtain ⟨leastU, greatestU⟩ := ite_toNat_le (s.x a) (s.x b)
    exact ⟨plain _, plain _, plain _, plain _, plain _, plain _, plain _, value (sshiftRight_eq_ofInt _ _), value least,
      value greatest, value leastU, value greatestU, plain _, value rfl, plain _, plain _⟩
  · have value {v w : Word} (e : v = w) := completes_writeX_of_eq s d e
    obtain ⟨n, most, leading, clear, set⟩ := leadingZeros_spec (s.x a)
    obtain ⟨m, most', trailing, clear', set'⟩ := trailingZeros_spec (s.x a)
    refine ⟨⟨n, most, value leading, clear, set⟩, ⟨m, most', value trailing, clear', set'⟩,
      value (congrArg (BitVec.ofNat 64) (popCount_eq 64 _)), _, value rfl, fun i below => ?_⟩
    rw [BitVec.getLsbD_ofNat, decide_eq_true below, Bool.true_and]
    exact testBit_reverseBits 64 _ i below
  · have wide : (sext i).toInt = i.toInt := sext_toInt (by decide) i
    have equal : (s.x a == sext i) = true ↔ (s.x a).toInt = i.toInt := beq_iff_eq.trans (eq_sext_iff (by decide))
    have other : (s.x a != sext i) = true ↔ (s.x a).toInt ≠ i.toInt := bne_iff_ne.trans (eq_sext_iff (by decide)).not
    have less : decide ((s.x a).toInt < (sext i).toInt) = true ↔ (s.x a).toInt < i.toInt := by rw [decide_eq_true_iff, wide]
    have atLeast : decide ((sext i).toInt ≤ (s.x a).toInt) = true ↔ (s.x a).toInt ≥ i.toInt := by
      rw [decide_eq_true_iff, wide, ge_iff_le]
    have below : decide ((s.x a).toNat < (sext i).toNat) = true ↔ (s.x a).toNat < (BitVec.ofInt 64 i.toInt).toNat :=
      decide_eq_true_iff
    have notBelow : decide ((sext i).toNat ≤ (s.x a).toNat) = true ↔ (s.x a).toNat ≥ (BitVec.ofInt 64 i.toInt).toNat :=
      decide_eq_true_iff
    have writes {v : Bool} {p : Prop} (holds : v = true ↔ p) := completes_comparison s d holds
    exact ⟨writes beq_iff_eq, writes bne_iff_ne, writes decide_eq_true_iff, writes decide_eq_true_iff, writes decide_eq_true_iff,
      writes decide_eq_true_iff, writes equal, writes other, writes less, writes atLeast, writes below, writes notBelow⟩
  · have condition := completes_writeC s d
    exact ⟨condition _, condition _, condition _, condition _, condition _, condition _, condition _, condition _⟩

/-! Divisions (R71) -/

section
variable {x y : Word}

theorem sdivide_eq_sdiv (divides : y ≠ 0) (fits : ¬(x.toInt = -2 ^ 63 ∧ y.toInt = -1)) :
    sdivide x y = x.sdiv y ∧ sremainder x y = x.srem y ∧ (sdivide x y).toInt = x.toInt.tdiv y.toInt := by
  have inside : x ≠ BitVec.intMin 64 ∨ y ≠ -1#64 := by
    by_contra both
    push Not at both
    exact fits (by rw [both.1, both.2]; decide)
  have quotient := BitVec.toInt_sdiv_of_ne_or_ne x y inside
  have exact : sdivide x y = x.sdiv y := by
    rw [sdivide, if_neg divides, if_neg fits, ← quotient, BitVec.ofInt_toInt]
  refine ⟨exact, ?_, exact ▸ quotient⟩
  rw [sremainder, if_neg divides, if_neg fits, ← Int.tmod_def, ← BitVec.toInt_srem, BitVec.ofInt_toInt]

theorem sdivide_zero (x : Word) :
    (sdivide x 0).toInt = if 0 < x.toInt then 2 ^ 63 - 1 else if x.toInt < 0 then -2 ^ 63 else 0 := by
  rw [sdivide, if_pos rfl]
  split
  · rfl
  · split <;> rfl

/-- The one quotient that overflows, and its remainder. -/
theorem sdivide_overflow (least : x.toInt = -2 ^ 63) (minusOne : y.toInt = -1) :
    x = BitVec.intMin 64 ∧ y = -1#64 ∧ sdivide x y = 0x7FFFFFFFFFFFFFFF ∧ sremainder x y = -1#64 := by
  obtain rfl : x = BitVec.intMin 64 := BitVec.eq_of_toInt_eq (least.trans (by decide))
  obtain rfl : y = -1#64 := BitVec.eq_of_toInt_eq (minusOne.trans (by decide))
  exact ⟨rfl, rfl, by decide, by decide⟩

theorem sdivide_mul_add_sremainder (x y : Word) : x = y * sdivide x y + sremainder x y := by
  by_cases zero : y = 0
  · rw [zero, sremainder, if_pos rfl, zero_mul, zero_add]
  · by_cases overflow : x.toInt = -2 ^ 63 ∧ y.toInt = -1
    · obtain ⟨least, minusOne, quotient, remainder⟩ := sdivide_overflow overflow.1 overflow.2
      rw [quotient, remainder, least, minusOne]
      decide
    · have parts : y.toInt * x.toInt.tdiv y.toInt + (x.toInt - y.toInt * x.toInt.tdiv y.toInt) = x.toInt := by omega
      rw [sdivide, sremainder, if_neg zero, if_neg zero, if_neg overflow, if_neg overflow]
      conv_lhs => rw [← BitVec.ofInt_toInt (x := x), ← parts, BitVec.ofInt_add, BitVec.ofInt_mul, BitVec.ofInt_toInt]

theorem sremainder_sign (x y : Word) : sremainder x y = 0 ∨ ((sremainder x y).toInt < 0 ↔ x.toInt < 0) := by
  by_cases zero : y = 0
  · rw [sremainder, if_pos zero]
    exact .inr Iff.rfl
  · by_cases overflow : x.toInt = -2 ^ 63 ∧ y.toInt = -1
    · obtain ⟨least, -, -, remainder⟩ := sdivide_overflow overflow.1 overflow.2
      rw [remainder, least]
      exact .inr (by decide)
    · obtain ⟨-, remainder, -⟩ := sdivide_eq_sdiv zero overflow
      have value := BitVec.toInt_srem x y
      rw [remainder]
      rcases lt_or_ge x.toInt 0 with negative | positive
      · have sign := Int.tmod_nonneg y.toInt (neg_nonneg.2 negative.le)
        rw [Int.neg_tmod] at sign
        by_cases exact : x.srem y = 0
        · exact .inl exact
        · have nonzero : (x.srem y).toInt ≠ 0 := fun h => exact (BitVec.eq_of_toInt_eq h)
          exact .inr (by omega)
      · have sign := Int.tmod_nonneg y.toInt positive
        exact .inr (by omega)

theorem udivide_toNat (divides : y ≠ 0) :
    (udivide x y).toNat = x.toNat / y.toNat ∧ (uremainder x y).toNat = x.toNat % y.toNat := by
  have fits := x.isLt
  rw [udivide, uremainder, if_neg divides, if_neg divides, BitVec.toNat_ofNat, BitVec.toNat_ofNat, ← Nat.mod_eq_sub_mul_div]
  exact ⟨Nat.mod_eq_of_lt ((Nat.div_le_self _ _).trans_lt fits), Nat.mod_eq_of_lt ((Nat.mod_le _ _).trans_lt fits)⟩

theorem udivide_mul_add_uremainder (x y : Word) : x = y * udivide x y + uremainder x y := by
  by_cases zero : y = 0
  · rw [zero, uremainder, if_pos rfl, zero_mul, zero_add]
  · obtain ⟨quotient, remainder⟩ := udivide_toNat (x := x) zero
    apply BitVec.eq_of_toNat_eq
    rw [BitVec.toNat_add, BitVec.toNat_mul, quotient, remainder, Nat.mod_add_mod, Nat.div_add_mod, Nat.mod_eq_of_lt x.isLt]

end

/-- Settles O8: a representable quotient is the truncated one and the remainder that of the division; the others are in the table. -/
theorem divisionResults : Obligations.DivisionResults := by
  intro s d a b done x y
  refine ⟨⟨_, _, completes_writeX d (sdivide x y), completes_writeX d (sremainder x y), sdivide_mul_add_sremainder x y,
    sremainder_sign x y, fun divides fits => (sdivide_eq_sdiv divides fits).2.2, fun least minusOne => ?_, fun zero => ?_⟩,
    _, _, completes_writeX d (udivide x y), completes_writeX d (uremainder x y), udivide_mul_add_uremainder x y,
    fun divides => ?_, fun zero => ?_⟩
  · obtain ⟨-, -, quotient, -⟩ := sdivide_overflow least minusOne
    rw [quotient]
    decide
  · rw [zero]
    exact sdivide_zero x
  · obtain ⟨quotient, remainder⟩ := udivide_toNat (x := x) divides
    have nonzero : 0 < y.toNat := Nat.pos_of_ne_zero fun h => divides (BitVec.eq_of_toNat_eq h)
    exact ⟨quotient, remainder ▸ Nat.mod_lt _ nonzero⟩
  · rw [udivide, if_pos zero]
    rfl

/-! Branches and jumps (R82-R84) -/

/-- The meeting with the delay buffer changes what the lead does alone (R242). -/
theorem Hart.checkBranch_bare (h : Hart) (taken : Bool) (target : Word) : (h.checkBranch taken target).bare = h.bare := by
  unfold Hart.checkBranch
  split
  · rfl
  · split
    · split <;> rfl
    · rfl
    · rfl

theorem completes_branchTo (s : State) (h : Hart) (taken : Bool) {target next : Word} (value : target = next) :
    Completes s (branchTo taken target { s with cur := h }) next h := by
  subst value
  exact (completes_retireTo s (h.checkBranch taken target) target).congr (h.checkBranch_bare taken target)

theorem completes_branchIf (s : State) (taken : Bool) (o : BitVec 22) : Completes s (branchIf taken o s)
    (if taken then BitVec.ofInt 64 (s.cur.pc.toInt + o.toInt * 4) else s.cur.pc + 4) s.cur := by
  unfold branchIf
  cases taken with
  | true => exact completes_branchTo s s.cur true (add_sext_mul _ o 4)
  | false => exact completes_branchTo s s.cur false rfl

theorem and_three_eq_zero_iff (t : Word) : t &&& 3 = 0 ↔ t.toNat % 4 = 0 := by
  rw [← BitVec.toNat_inj, BitVec.toNat_and]
  exact (Nat.and_two_pow_sub_one_eq_mod t.toNat 2).congr_left

/-- Settles O11: a branch goes where its condition says, and a jump to an aligned target links. -/
theorem controlTransfers : Obligations.ControlTransfers := by
  refine ⟨fun s c o => ⟨completes_branchIf s _ o, ?_, completes_branchIf s false o⟩,
    fun s d o => completes_branchTo s (s.cur.setX d (s.cur.pc + 4)) true (add_sext_mul _ o 4), fun s d a i => ?_⟩
  · have branch := completes_branchIf s (!s.c c) o
    have swap (t u : Word) : (if (!s.c c) = true then t else u) = if s.c c = true then u else t := by cases s.c c <;> rfl
    rw [swap] at branch
    exact branch
  · intro t
    have target : s.x a + sext i = t := add_sext _ i
    have jump : exec (.jalr d a i) s = if t &&& 3 = 0 then branchTo true t (s.setX d (s.cur.pc + 4))
        else .next (s.takeTrap { cause := 0x03, tval := t }) := by
      rw [← target]
      rfl
    rw [jump]
    refine ⟨fun aligned => ?_, fun misaligned => ?_⟩
    · rw [if_pos ((and_three_eq_zero_iff t).2 aligned)]
      exact completes_branchTo s (s.cur.setX d (s.cur.pc + 4)) true rfl
    · rw [if_neg ((and_three_eq_zero_iff t).not.2 misaligned)]
      exact ⟨rfl, fun handles =>
        vectors_takeTrap (t := { cause := 0x03, tval := t }) handles (show (0x03 : BitVec 8) ≠ 0x0D by decide) rfl⟩

end Sys2Proof.Machine
end

section
/-! The machine at reset (R63, R64, R86, R91, R93, R138, R157-R164), and the registers of a new partition (R164, R401). -/

namespace Sys2Proof.Machine

theorem getX_reset (r : BitVec 5) : State.reset.cur.getX r = 0 := by
  unfold Hart.getX
  split
  · rfl
  · exact Vector.getElem_replicate _

theorem getM_reset (r : BitVec 3) : State.reset.cur.getM r = if r = 0 then BitVec.allOnes 2048 else 0 := by
  unfold Hart.getM
  split
  · rfl
  · next other =>
    have away : 0 ≠ r.toNat := fun h => other (BitVec.eq_of_toNat_eq h.symm)
    exact (Vector.getElem_set_ne (by decide) _ away).trans (Vector.getElem_replicate _)

/-- A partition is created with the reset values of its registers (R164, R401). -/
theorem requested_regs {s : State} {q : PartitionRequest} {p : Partition} (made : s.requested q = some p) :
    p.toPartRegs = {} ∧ p.acting = p.toPartRegs := by
  unfold State.requested at made
  cases root : q.root <;> rw [root] at made
  · exact nomatch made
  cases queue : q.faultQueue <;> rw [queue] at made
  · exact nomatch made
  cases save : q.saveRegion <;> rw [save] at made
  · exact nomatch made
  simp only [Option.bind_eq_bind, Option.bind_some] at made
  split at made
  · cases made
    exact ⟨rfl, rfl⟩
  · exact nomatch made

/-- Settles O6: the values that the state is made with. -/
theorem resetState : Obligations.ResetState := by
  refine ⟨getX_reset, by decide, getM_reset, fun r => Vector.getElem_replicate _, fun r => Vector.getElem_replicate _,
    by decide, rfl, rfl, rfl, rfl, rfl, rfl, rfl, rfl, rfl, rfl, rfl, rfl, rfl, reset_canonical, fun s q p made => ?_⟩
  obtain ⟨registers, acting⟩ := requested_regs made
  exact ⟨congrArg PartRegs.floor registers, congrArg PartRegs.ramp registers, congrArg PartRegs.bxSpacing registers,
    congrArg PartRegs.bxGroup registers, congrArg PartRegs.agetime registers, congrArg PartRegs.revoke registers, acting⟩

end Sys2Proof.Machine
end

section
/-! A home slice that overflows (R16, R175, R181): which of its dirty lines it writes to HBM is a free choice (R2), and the machine
of the refutation of O57 is made for the choice that falls on its save area. -/

namespace Sys2Proof.Machine

open Host (Cell)

/-! Lists without duplicates but for one stretch -/

theorem eraseDups_stretch {A M B : List Nat} {x : Nat} (some : M ≠ []) (same : ∀ y ∈ M, y = x) (nodup : (A ++ x :: B).Nodup) :
    (A ++ (M ++ B)).eraseDups = A ++ x :: B := by
  obtain ⟨left, right, apart⟩ := List.nodup_append.1 nodup
  obtain ⟨out, rest⟩ := List.nodup_cons.1 right
  cases M with
  | nil => exact absurd rfl some
  | cons y M =>
    obtain rfl := same y List.mem_cons_self
    have others : (y :: M ++ B).removeAll A = y :: M ++ B := by
      refine List.filter_eq_self.2 fun z hz => ?_
      have later : z ∈ y :: B := by
        rcases List.mem_append.1 hz with h | h
        · exact same z h ▸ List.mem_cons_self
        · exact List.mem_cons_of_mem _ h
      simpa using fun h => apart z h z later rfl
    have once : (M ++ B).filter (fun b => !b == y) = B := by
      rw [List.filter_append, List.filter_eq_nil_iff.2, List.nil_append, List.filter_eq_self.2]
      · intro z hz
        simpa using fun e : z = y => out (e ▸ hz)
      · intro z hz
        simpa using same z (List.mem_cons_of_mem _ hz)
    rw [List.eraseDups_append, eraseDups_of_nodup left, others, List.cons_append, List.eraseDups_cons, once,
      eraseDups_of_nodup rest]

/-! Addresses of one slice -/

/-- The address `j` of those at local address 0 of this package (R300) beyond what 52 bits can name. -/
def farLine (j : Nat) : Nat := 2 ^ 52 * (j + 1)

theorem farLine_add_le {i j : Nat} (h : i < j) : farLine i + 256 ≤ farLine j := by
  unfold farLine
  omega

theorem localOf_farLine (j : Nat) {i : Nat} (h : i < 2 ^ 40) : localOf (farLine j + i) = i := by
  unfold localOf farLine
  omega

theorem packageOf_farLine (j : Nat) {i : Nat} (h : i < 2 ^ 40) : packageOf (farLine j + i) = 0 := by
  unfold packageOf farLine
  omega

theorem isTile_farLine (j : Nat) {i : Nat} (h : i < 2 ^ 40) : isTile (farLine j + i) = false := by
  unfold isTile
  rw [localOf_farLine j h]
  exact decide_eq_false (by omega)

theorem touchesTile_farLine (j : Nat) {n : Nat} (h : n ≤ 2 ^ 40) : touchesTile (farLine j) n = false := by
  unfold touchesTile
  rw [List.any_eq_false]
  intro i hi
  rw [isTile_farLine j ((List.mem_range.1 hi).trans_le h)]
  exact Bool.false_ne_true

theorem sliceOf_farLine (j : Nat) {i : Nat} (h : i < 256) : sliceOf (farLine j + i) = i / 128 := by
  have hashed : ∀ i < 256, sliceOf i = i / 128 := by decide +kernel
  have local_ : localOf (farLine j + i) = localOf i := by
    rw [localOf_farLine j (h.trans (by decide)), localOf, Nat.mod_eq_of_lt (h.trans (by decide))]
  rw [← hashed i h]
  unfold sliceOf
  rw [local_]

theorem slice_farLine (j : Nat) : sliceOf (farLine j) = 0 := sliceOf_farLine j (i := 0) (by decide)

/-! Bytes of many lines of a slice -/

def farCell (j : Nat) : Cell := (farLine j, 1)

def farCells (n : Nat) : List Cell := (List.range n).map farCell

/-- The numbers below `n` beyond `k`. -/
def linesAfter (n k : Nat) : List Nat := (List.range (n - (k + 1))).map (k + 1 + ·)

theorem mem_linesAfter {n k j : Nat} (h : j ∈ linesAfter n k) : k < j := by
  obtain ⟨i, -, rfl⟩ := List.mem_map.1 h
  omega

theorem lines_split {n k : Nat} (h : k < n) : List.range n = List.range k ++ k :: linesAfter n k := by
  have parts : n = k + (1 + (n - (k + 1))) := by omega
  conv_lhs => rw [parts, List.range_add, List.range_add, List.map_append, List.map_map]
  exact congrArg (List.range k ++ k :: ·) (List.map_congr_left fun i _ => (Nat.add_assoc k 1 i).symm)

theorem farCells_rising (n : Nat) : rising (farCells n) = true := by
  rw [rising_iff, farCells, List.pairwise_map]
  exact List.pairwise_lt_range.imp fun h => Nat.lt_of_lt_of_le (Nat.lt_add_of_pos_right (by decide)) (farLine_add_le h)

theorem farCells_tiles (n : Nat) {pa : Nat} (h : isTile pa = true) : cellGet (farCells n) pa = none := by
  refine cellGet_none fun c hc => ?_
  obtain ⟨j, -, rfl⟩ := List.mem_map.1 hc
  rintro rfl
  exact Bool.false_ne_true ((isTile_farLine j (i := 0) (by decide)).symm.trans h)

section
variable {n k : Nat} {bs : List Byte}

/-- A write to one of these lines takes the place of its byte. -/
theorem farCells_written (h : k < n) (length : bs.length = 256) : cellsWrite true (farCells n) (farLine k) bs =
    (List.range k).map farCell ++ (cellsOf true (farLine k) bs ++ (linesAfter n k).map farCell) := by
  have before : ∀ c ∈ (List.range k).map farCell, c.1 < farLine k := by
    intro c hc
    obtain ⟨j, hj, rfl⟩ := List.mem_map.1 hc
    exact Nat.lt_of_lt_of_le (by simp [farCell]) (farLine_add_le (List.mem_range.1 hj))
  have after : ∀ c ∈ (linesAfter n k).map farCell, farLine k + 256 ≤ c.1 := by
    intro c hc
    obtain ⟨j, hj, rfl⟩ := List.mem_map.1 hc
    exact farLine_add_le (mem_linesAfter hj)
  have kept : ((linesAfter n k).map farCell).dropWhile (fun c => decide (c.1 < farLine k + 256)) = (linesAfter n k).map farCell :=
    List.dropWhile_eq_self_iff.2 fun some => by simpa using after _ (List.getElem_mem some)
  have lower : ∀ c ∈ (List.range k).map farCell, decide (c.1 < farLine k + 256) = true := fun c hc =>
    decide_eq_true (Nat.lt_add_right 256 (before c hc))
  rw [cellsWrite, farCells, lines_split h, List.map_append, List.map_cons, length,
    List.takeWhile_append_of_pos fun c hc => decide_eq_true (before c hc), List.takeWhile_cons_of_neg (by simp [farCell]),
    List.dropWhile_append_of_pos lower, List.dropWhile_cons_of_pos (by simp [farCell]), kept, List.append_nil, List.append_assoc]

theorem cellsOf_addresses (bs : List Byte) : ∀ a, (cellsOf true a bs).map (·.1) = (List.range bs.length).map (a + ·) := by
  induction bs with
  | nil => exact fun _ => rfl
  | cons b bs ih =>
    intro a
    rw [cellsOf, if_pos (by rfl), List.map_cons, ih, List.length_cons, List.range_succ_eq_map, List.map_cons, List.map_map]
    exact congrArg _ (List.map_congr_left fun i _ => by simp only [Function.comp]; omega)

theorem farCells_written_addresses (h : k < n) (length : bs.length = 256) :
    (cellsWrite true (farCells n) (farLine k) bs).map (·.1) =
      (List.range k).map farLine ++ ((List.range 256).map (farLine k + ·) ++ (linesAfter n k).map farLine) := by
  rw [farCells_written h length, List.map_append, List.map_append, cellsOf_addresses, length, List.map_map, List.map_map]
  rfl

theorem farCells_written_near (h : k < n) (length : bs.length = 256) {a : Nat}
    (ha : a ∈ (cellsWrite true (farCells n) (farLine k) bs).map (·.1)) : packageOf a = 0 := by
  rw [farCells_written_addresses h length] at ha
  rcases List.mem_append.1 ha with ha | ha
  · obtain ⟨j, -, rfl⟩ := List.mem_map.1 ha
    exact packageOf_farLine j (i := 0) (by decide)
  · rcases List.mem_append.1 ha with ha | ha
    · obtain ⟨i, hi, rfl⟩ := List.mem_map.1 ha
      exact packageOf_farLine k ((List.mem_range.1 hi).trans (by decide))
    · obtain ⟨j, -, rfl⟩ := List.mem_map.1 ha
      exact packageOf_farLine j (i := 0) (by decide)

/-! The slice that overflows -/

theorem farLine_filter (k : Nat) (js : List Nat) :
    ((js.map farLine).filter fun a => sliceOf a == sliceOf (farLine k)) = js.map farLine := by
  refine List.filter_eq_self.2 fun a ha => ?_
  obtain ⟨j, -, rfl⟩ := List.mem_map.1 ha
  rw [slice_farLine, slice_farLine]
  rfl

theorem farLine_div (j : Nat) : farLine j / 128 = 2 ^ 45 * (j + 1) := by
  unfold farLine
  omega

variable {s : State}

/-- The slice holds a line of each of the bytes, in their order. -/
theorem sliceHolds_far (h : k < n) (length : bs.length = 256) (cells : s.l2 = cellsWrite true (farCells n) (farLine k) bs)
    (visitors : s.visitors = []) (package : s.pkg = 0) :
    s.sliceHolds (sliceOf (farLine k)) = (List.range n).map fun j => farLine j / 128 := by
  have near : ∀ a ∈ s.l2.map (·.1), (!s.isRemote a) = true := by
    intro a ha
    unfold State.isRemote
    rw [farCells_written_near h length (cells ▸ ha), package]
    rfl
  have own : ∀ y ∈ (((List.range 256).map (farLine k + ·)).filter fun a => sliceOf a == sliceOf (farLine k)).map (· / 128),
      y = farLine k / 128 := by
    intro y hy
    obtain ⟨a, ha, rfl⟩ := List.mem_map.1 hy
    obtain ⟨inside, slice⟩ := List.mem_filter.1 ha
    obtain ⟨i, hi, rfl⟩ := List.mem_map.1 inside
    rw [sliceOf_farLine k (List.mem_range.1 hi), slice_farLine, beq_iff_eq] at slice
    unfold farLine
    omega
  have some : (((List.range 256).map (farLine k + ·)).filter fun a => sliceOf a == sliceOf (farLine k)).map (· / 128) ≠ [] :=
    List.ne_nil_of_mem (List.mem_map.2 ⟨farLine k, List.mem_filter.2
      ⟨List.mem_map.2 ⟨0, List.mem_range.2 (by decide), Nat.add_zero _⟩, beq_self_eq_true _⟩, rfl⟩)
  have nodup : ((List.range n).map fun j => farLine j / 128).Nodup := by
    refine List.nodup_range.map fun i j e => ?_
    simp only [farLine_div] at e
    omega
  unfold State.sliceHolds
  rw [lines_split h, List.map_append, List.map_cons] at nodup ⊢
  rw [List.filter_eq_self.2 near, visitors, List.map_nil, List.append_nil, cells, farCells_written_addresses h length,
    List.filter_append, List.filter_append, farLine_filter, farLine_filter, List.map_append, List.map_append, List.map_map,
    List.map_map]
  exact eraseDups_stretch some own nodup

end

/-! What writes at the home change (R188) -/

theorem giveLine_frame (s : State) (lines : List Nat) :
    ∃ d v m l, s.giveLine lines = { s with draws := d, visitors := v, hbm := m, l2 := l } := by
  unfold State.giveLine
  dsimp only
  split
  · exact ⟨_, _, s.hbm, s.l2, rfl⟩
  · exact ⟨_, _, _, _, rfl⟩

theorem homeTrim_frame (s : State) (pa : Nat) :
    ∃ d v m l, s.homeTrim pa = { s with draws := d, visitors := v, hbm := m, l2 := l } := by
  unfold State.homeTrim
  dsimp only
  split_ifs
  · exact ⟨s.draws, s.visitors, s.hbm, s.l2, rfl⟩
  · exact ⟨s.draws, s.visitors, s.hbm, s.l2, rfl⟩
  · exact giveLine_frame s _

theorem trimHome_frame (s : State) (pa n : Nat) :
    ∃ d v m l, s.trimHome pa n = { s with draws := d, visitors := v, hbm := m, l2 := l } := by
  unfold State.trimHome
  split
  · exact ⟨s.draws, s.visitors, s.hbm, s.l2, rfl⟩
  · refine foldl_kept _ (fun t : State => ∃ d v m l, t = { s with draws := d, visitors := v, hbm := m, l2 := l }) (fun t i h => ?_)
      _ s ⟨s.draws, s.visitors, s.hbm, s.l2, rfl⟩
    obtain ⟨_, _, _, _, rfl⟩ := h
    obtain ⟨d, v, m, l, trimmed⟩ := homeTrim_frame _ (pa / 128 * 128 + 128 * i)
    exact ⟨d, v, m, l, trimmed⟩

theorem homeWrite_frame (s : State) (pa : Nat) (bs : List Byte) : ∃ p d v m l b r o, s.homeWrite pa bs =
    { s.mapHarts fun h => (h.seenBy pa bs.length).breakLinks pa bs.length with
      perf := p, draws := d, visitors := v, hbm := m, l2 := l, poison := b, recoded := r, spoiled := o } := by
  obtain ⟨p, d, counted⟩ := countHome_counts s pa bs.length
  unfold State.homeWrite State.homePut
  rw [counted]
  dsimp only
  split
  · exact ⟨_, _, _, _, _, _, _, _, rfl⟩
  · obtain ⟨_, _, _, _, trimmed⟩ := trimHome_frame { s with perf := p, draws := d, l2 := cellsWrite true s.l2 pa bs } pa bs.length
    rw [trimmed]
    exact ⟨_, _, _, _, _, _, _, _, rfl⟩

/-- Where a write leaves the home slices, once it is counted. -/
theorem homeWrite_l2 {s : State} {pa : Nat} {bs : List Byte} {p : List PerfCtr} {d : Nat}
    (counted : s.countHome pa bs.length = { s with perf := p, draws := d }) :
    (s.homeWrite pa bs).l2 = if touchesTile pa bs.length then s.l2
      else ({ s with perf := p, draws := d, l2 := cellsWrite true s.l2 pa bs }.trimHome pa bs.length).l2 := by
  unfold State.homeWrite State.homePut
  rw [counted]
  dsimp only [State.mapHarts]
  split_ifs
  · rfl
  · rfl

/-! A byte that no home slice lists -/

section
variable {s : State} {b : Nat}

theorem unlisted_giveLine (wf : Memory.wf s = true) (free : cellGet s.l2 b = none) (lines : List Nat) :
    cellGet (s.giveLine lines).l2 b = none := by
  unfold State.giveLine
  dsimp only
  split
  · exact free
  · exact cellGet_dropped ((Memory.wf_iff s).1 wf).2.2 _ _ b free

theorem unlisted_homeTrim (wf : Memory.wf s = true) (free : cellGet s.l2 b = none) (pa : Nat) :
    cellGet (s.homeTrim pa).l2 b = none := by
  unfold State.homeTrim
  dsimp only
  split_ifs
  · exact free
  · exact free
  · exact unlisted_giveLine wf free _

theorem unlisted_trimHome (wf : Memory.wf s = true) (free : cellGet s.l2 b = none) (pa n : Nat) :
    cellGet (s.trimHome pa n).l2 b = none := by
  unfold State.trimHome
  split
  · exact free
  · exact (foldl_kept _ (fun t : State => Memory.wf t = true ∧ cellGet t.l2 b = none)
      (fun t i h => ⟨homeTrim_wf h.1 _, unlisted_homeTrim h.1 h.2 _⟩) _ s ⟨wf, free⟩).2

theorem unlisted_homeWrite (wf : Memory.wf s = true) (free : cellGet s.l2 b = none) {pa : Nat} {bs : List Byte} (before : b < pa) :
    cellGet (s.homeWrite pa bs).l2 b = none := by
  obtain ⟨p, d, counted⟩ := countHome_counts s pa bs.length
  obtain ⟨hbm, zeros, slices⟩ := (Memory.wf_iff s).1 wf
  have written : Memory.wf { s with perf := p, draws := d, l2 := cellsWrite true s.l2 pa bs } = true :=
    (Memory.wf_iff _).2 ⟨hbm, zeros, cellsWrite_rising true pa bs slices⟩
  rw [homeWrite_l2 counted]
  split
  · exact free
  · exact unlisted_trimHome written ((cellGet_cellsWrite_other true slices pa bs (.inl before)).trans free) _ _

/-- The line that the part picks leaves its slice. -/
theorem unlisted_of_given (wf : Memory.wf s = true) {lines : List Nat} {n : Nat}
    (picked : lines.getD (Config.choice s.draws % lines.length) 0 = n) (near : s.isRemote (128 * n) = false)
    (inside : 128 * n ≤ b ∧ b < 128 * n + 128) : cellGet (s.giveLine lines).l2 b = none := by
  unfold State.giveLine
  dsimp only
  rw [picked]
  split
  · next remote => exact absurd (near.symm.trans remote) Bool.false_ne_true
  · exact cellGet_cellsDrop_same ((Memory.wf_iff s).1 wf).2.2 _ _ inside

end

theorem homeTrim_of_over {s : State} {pa : Nat} {lines : List Nat} (holds : s.sliceHolds (sliceOf pa) = lines)
    (full : sliceLines < s.l2.length + s.visitors.length) (more : sliceLines < lines.length) :
    s.homeTrim pa = s.giveLine lines := by
  subst holds
  unfold State.homeTrim
  rw [if_neg (Nat.not_le.2 full)]
  exact if_neg (Nat.not_le.2 more)

theorem trimHome_two {s : State} {pa : Nat} (near : s.isRemote pa = false) (aligned : pa % 128 = 0) :
    s.trimHome pa 256 = (s.homeTrim pa).homeTrim (pa + 128) := by
  have line : pa / 128 * 128 = pa := by omega
  unfold State.trimHome
  have lines : upTo (ceilDiv (0 + 256) 128) = [0, 1] := rfl
  rw [near, aligned, line, lines]
  rfl

/-- A slice that holds one line more than it has gives up the line that the part chooses. -/
theorem unlisted_trimHome_farLine {s : State} {bs : List Byte} {n k i : Nat} (more : sliceLines < n)
    (chosen : Config.choice s.draws % n = k) (length : bs.length = 256) (cells : s.l2 = cellsWrite true (farCells n) (farLine k) bs)
    (visitors : s.visitors = []) (package : s.pkg = 0) (wf : Memory.wf s = true) (inside : i < 128) :
    cellGet (s.trimHome (farLine k) 256).l2 (farLine k + i) = none := by
  have below : k < n := chosen ▸ Nat.mod_lt _ (Nat.zero_lt_of_lt more)
  have near : s.isRemote (farLine k) = false := by
    have own : packageOf (farLine k) = 0 := packageOf_farLine k (i := 0) (by decide)
    rw [State.isRemote, own, package, bne_self_eq_false]
  have line : 128 * (farLine k / 128) = farLine k := by rw [farLine_div]; unfold farLine; omega
  have full : sliceLines < s.l2.length + s.visitors.length := by
    have counted := congrArg List.length (farCells_written_addresses below length)
    simp only [List.length_map, List.length_append, List.length_range, linesAfter] at counted
    rw [cells]
    omega
  have lines : ((List.range n).map fun j => farLine j / 128).length = n := by rw [List.length_map, List.length_range]
  have picked : ((List.range n).map fun j => farLine j / 128).getD
      (Config.choice s.draws % ((List.range n).map fun j => farLine j / 128).length) 0 = farLine k / 128 := by
    rw [lines, chosen, List.getD_eq_getElem _ _ (lines.symm ▸ below), List.getElem_map, List.getElem_range]
  have gone : cellGet (s.homeTrim (farLine k)).l2 (farLine k + i) = none := by
    rw [homeTrim_of_over (sliceHolds_far below length cells visitors package) full (lines.symm ▸ more)]
    exact unlisted_of_given wf picked (line.symm ▸ near) (by omega)
  rw [trimHome_two near (by unfold farLine; omega)]
  exact unlisted_homeTrim (homeTrim_wf wf _) gone _

/-- The line that the part chooses leaves its slice when it is written. -/
theorem unlisted_farLine {s : State} {bs : List Byte} {n k i : Nat} (more : sliceLines < n)
    (chosen : Config.choice s.draws % n = k) (length : bs.length = 256) (cells : s.l2 = farCells n)
    (visitors : s.visitors = []) (uncounted : s.perf = []) (package : s.pkg = 0) (wf : Memory.wf s = true) (inside : i < 128) :
    cellGet (s.homeWrite (farLine k) bs).l2 (farLine k + i) = none := by
  obtain ⟨hbm, zeros, -⟩ := (Memory.wf_iff s).1 wf
  have counts : s.countHome (farLine k) bs.length = { s with perf := s.perf, draws := s.draws } := by
    unfold State.countHome
    rw [uncounted, List.any_nil, Bool.not_false, Bool.or_true, if_pos rfl]
  rw [homeWrite_l2 counts, length, touchesTile_farLine k (by decide), if_neg Bool.false_ne_true, cells]
  exact unlisted_trimHome_farLine more (s := { s with l2 := cellsWrite true (farCells n) (farLine k) bs }) chosen length rfl visitors
    package ((Memory.wf_iff _).2 ⟨hbm, zeros, cellsWrite_rising true _ bs (farCells_rising n)⟩) inside

end Sys2Proof.Machine
end

section
/-! The hart of the refutation of O57: it leaves its core with a save area on a line that the home slice gives up, and with an
allocation that is said to be so large that its removal from the tile buffers takes the line's bytes from HBM (R168, R295, R393). -/

namespace Sys2Proof.Machine

/-! A hart that leaves its core -/

section
variable {s : State}

theorem exec_preemption (here : s.cur.place ≠ .absent) : exec (.preemption s.cur.uid) s = .next s.preempt := by
  have focused : s.focus s.cur.uid = some s := by
    unfold State.focus
    rw [beq_self_eq_true, Bool.true_and, if_pos (bne_iff_ne.2 here)]
  show s.eventOn s.cur.uid _ = _
  rw [State.eventOn, focused]

theorem preempt_of_awake (resident : s.cur.isResident = true) (must : s.mustLeave s.cur = true) (awake : s.cur.wait = .awake) :
    s.preempt = s.beginLeave s.cur.pc none := by
  unfold State.preempt
  rw [resident, must, awake]
  rfl

theorem beginLeave_of_calm {resume : Word} {r : Option FaultRecord}
    (calm : (s.onCur Hart.stopLead).pendingCmds (s.onCur Hart.stopLead).cur.uid = false) :
    s.beginLeave resume r = (s.onCur Hart.stopLead).leaveCore resume r := by
  rw [State.beginLeave, calm]
  rfl

theorem leaveCore_of_calm {resume : Word} {r : Option FaultRecord} (calm : s.leavingError = none) :
    s.leaveCore resume r = (s.saveContext resume).vacate r := by
  rw [State.leaveCore, calm]

end

/-! The machine -/

/-- An allocation as long as 2^70 bytes, far beyond the tile buffer of core 0. -/
def hugeLaunch : Launch := { uid := 1, record := { tbuf := 2 ^ 60 }, allocs := [{ group := 0, core := 0, base := 0 }] }

def leavingHart (k : Nat) : Hart :=
  { uid := 1, launch := 1, place := .resident 0 0, handle := farLine k, x := (Vector.replicate 32 0).set 1 1 }

/-- A victim past its deadline, with `n` lines of one home slice dirty. -/
def leaving (n k : Nat) : State :=
  { cur := leavingHart k, launches := [hugeLaunch], l2 := farCells n
    reclaims := [{ hart := 1, leave := 0, victim := true, due := true }] }

theorem leaving_wf (n k : Nat) : Memory.wf (leaving n k) = true := (Memory.wf_iff _).2 ⟨rfl, rfl, farCells_rising n⟩

theorem leaving_rests (n k : Nat) : (leaving n k).Rests :=
  ⟨⟨rfl, rfl, rfl⟩, rfl, rfl, ⟨rfl, rfl⟩, leaving_wf n k, fun _ tile => farCells_tiles n tile⟩

theorem farLine_place (k : Nat) : farLine k % 0x80000 = 0 ∧ isHbm (farLine k) = true := by
  have local_ : localOf (farLine k) = 0 := localOf_farLine k (i := 0) (by decide)
  refine ⟨by unfold farLine; omega, ?_⟩
  rw [isHbm, local_]
  rfl

/-- The context that is saved. -/
def departed (n k : Nat) : State := (leaving n k).onCur fun h => h.departing 0 0

theorem leaving_saves (n k : Nat) : ((leaving n k).onCur Hart.stopLead).saveContext 0 = (departed n k).writeSaveArea := by
  have stopped : (leaving n k).onCur Hart.stopLead = leaving n k := rfl
  have nothing : (leaving n k).releaseBy (leaving n k).cur.core ((leaving n k).partScope (leaving n k).cur.part) = leaving n k := by
    unfold State.releaseBy
    split
    · rfl
    · rfl
  rw [stopped, State.saveContext, nothing]
  rfl

theorem leaving_preempted (n k : Nat) : exec (.preemption 1) (leaving n k) = .next ((departed n k).writeSaveArea.vacate none) := by
  have event : exec (.preemption (leaving n k).cur.uid) (leaving n k) = .next (leaving n k).preempt :=
    exec_preemption (fun h => nomatch h)
  have leaves : (leaving n k).preempt = ((leaving n k).onCur Hart.stopLead).leaveCore 0 none :=
    (preempt_of_awake rfl rfl rfl).trans (beginLeave_of_calm rfl)
  rw [← leaving_saves, ← leaveCore_of_calm rfl, ← leaves]
  exact event

/-! The save area -/

theorem wordsBytes_length (ws : List Word) : (wordsBytes ws).length = 8 * ws.length := by
  induction ws with
  | nil => rfl
  | cons w ws ih =>
    rw [wordsBytes, List.flatMap_cons, List.length_append, ← wordsBytes, ih, List.length_cons]
    simp only [leBytes, List.length_cons, List.length_nil]
    omega

/-- The registers come first in a save area, and all else lies beyond them (R393). -/
theorem saveArea_registers (s : State) (h : Hart) :
    ∃ rest, s.saveArea h = (0, wordsBytes (0 :: h.x.toList.tail)) :: rest ∧ ∀ p ∈ rest, 256 ≤ p.1 := by
  refine ⟨_, rfl, fun p hp => ?_⟩
  simp only [List.append_eq, List.mem_append] at hp
  rcases hp with (((hp | hp) | hp) | hp) | hp
  · simp only [List.mem_cons, List.not_mem_nil, or_false] at hp
    rcases hp with rfl | rfl | rfl | rfl | rfl | rfl <;> simp
  · obtain ⟨q, -, rfl⟩ := List.mem_map.1 hp
    dsimp only
    omega
  · rw [List.mem_singleton.1 hp]
    exact (by decide : 256 ≤ 16384)
  · obtain ⟨i, -, here⟩ := List.mem_filterMap.1 hp
    split at here
    · cases here
      dsimp only
      omega
    · exact nomatch here
  · split at hp
    · obtain ⟨i, -, here⟩ := List.mem_filterMap.1 hp
      split at here
      · cases here
        dsimp only
        omega
      · exact nomatch here
    · exact absurd hp List.not_mem_nil

/-- The registers' line is in HBM, and what else the hart's leaving looks at is as at first. -/
structure State.GivenUp (k : Nat) (s : State) : Prop where
  wf : Memory.wf s = true
  unlisted : cellGet s.l2 (farLine k + 8) = none
  handle : s.cur.handle = farLine k
  launch : s.cur.launch = 1
  group : s.cur.group = 0
  alone : s.rest = []
  launches : s.launches = [hugeLaunch]
  package : s.pkg = 0

theorem State.GivenUp.homeWrite {k : Nat} {s : State} (h : s.GivenUp k) {o : Nat} (beyond : 256 ≤ o) (bs : List Byte) :
    (s.homeWrite (s.cur.handle + o) bs).GivenUp k := by
  have unlisted := unlisted_homeWrite h.wf h.unlisted (pa := s.cur.handle + o) (bs := bs) (by rw [h.handle]; omega)
  have wf := homeWrite_wf h.wf (s.cur.handle + o) bs
  obtain ⟨_, _, _, _, _, _, _, _, frame⟩ := homeWrite_frame s (s.cur.handle + o) bs
  rw [frame] at unlisted wf ⊢
  exact ⟨wf, unlisted, h.handle, h.launch, h.group, by rw [State.mapHarts, h.alone]; rfl, h.launches, h.package⟩

section
variable {n k : Nat} (more : sliceLines < n) (chosen : Config.choice 0 % n = k)
include more chosen

theorem departed_registers :
    ((departed n k).homeWrite (farLine k) (wordsBytes (0 :: (departed n k).cur.x.toList.tail))).GivenUp k := by
  have length : (wordsBytes (0 :: (departed n k).cur.x.toList.tail)).length = 256 := by
    rw [wordsBytes_length]
    simp
  generalize wordsBytes (0 :: (departed n k).cur.x.toList.tail) = bs at length ⊢
  have wf : Memory.wf (departed n k) = true := (onCur_wf _ _).trans (leaving_wf n k)
  have unlisted := unlisted_farLine more (s := departed n k) chosen length rfl rfl rfl rfl wf (i := 8) (by decide)
  have written := homeWrite_wf wf (farLine k) bs
  obtain ⟨_, _, _, _, _, _, _, _, frame⟩ := homeWrite_frame (departed n k) (farLine k) bs
  rw [frame] at unlisted written ⊢
  exact ⟨written, unlisted, rfl, rfl, rfl, rfl, rfl, rfl⟩

theorem departed_saved : (departed n k).writeSaveArea.GivenUp k := by
  obtain ⟨rest, area, beyond⟩ := saveArea_registers (departed n k) (departed n k).cur
  have first := departed_registers more chosen
  have others : ∀ (ps : List (Nat × List Byte)) (s : State), (∀ p ∈ ps, 256 ≤ p.1) → s.GivenUp k →
      (ps.foldl (fun (s : State) p => s.homeWrite (s.cur.handle + p.1) p.2) s).GivenUp k := by
    intro ps
    induction ps with
    | nil => exact fun _ _ h => h
    | cons p ps ih =>
      exact fun s beyond h => ih _ (fun q hq => beyond q (List.mem_cons_of_mem _ hq)) (h.homeWrite (beyond p List.mem_cons_self) p.2)
  have written := others rest _ beyond first
  unfold State.writeSaveArea
  rw [area, List.foldl_cons]
  exact ⟨written.wf, written.unlisted, written.handle, written.launch, written.group, written.alone, written.launches,
    written.package⟩

end

/-! The core is left -/

theorem giveBack_frame (s : State) : ∃ q r l, s.giveBack = { s with queues := q, reclaims := r, launches := l } := by
  unfold State.giveBack State.takeBars
  dsimp only
  split
  · exact ⟨_, _, _, rfl⟩
  · exact ⟨_, _, _, rfl⟩

theorem giveBack_launches {k : Nat} {s : State} (h : s.GivenUp k) :
    ∃ b, s.giveBack.launches = [{ hugeLaunch with bars := b }] := by
  unfold State.giveBack State.takeBars State.callUnit State.rekeyBars State.onLaunch
  dsimp only
  rw [h.alone, h.launches, h.launch]
  exact ⟨_, rfl⟩

section
variable {s : State} {l : Launch} {x : Alloc}

/-- The one allocation of a launch leaves its buffer with the last of its harts there. -/
theorem leaveBuffer_of_single (found : s.launch? l.uid = some l) (single : l.allocs = [x])
    (away : s.keepsBuffer l.uid x.group = false) : s.leaveBuffer l.uid x.group = s.stow l x.core x.base [x.group] := by
  have sharers : l.sharers x.core x.base = [x.group] := by simp [Launch.sharers, single]
  unfold State.leaveBuffer
  rw [found]
  dsimp only
  have own : [x].filter (fun y => y.group == x.group) = [x] := by simp
  rw [single, own, List.foldl_cons, List.foldl_nil, sharers, List.any_cons, away]
  rfl

/-- An allocation that leaves its buffer takes the bytes there from HBM (R168). -/
theorem stow_of_single (found : s.launch? l.uid = some l) (single : l.allocs = [x]) :
    (s.stow l x.core x.base [x.group]).hbm = cellsDrop s.hbm (tileAddr s.pkg x.core (1024 * x.base)) (1024 * l.record.tbuf) ∧
      (s.stow l x.core x.base [x.group]).l2 = s.l2 := by
  unfold State.stow
  rw [found, Option.getD_some, single]
  simp [State.onLaunch]

theorem keepsBuffer_of_alone (alone : s.rest = []) (saved : s.cur.place = .saved) (launch group : Nat) :
    s.keepsBuffer launch group = false := by
  unfold State.keepsBuffer State.harts
  rw [alone]
  simp [saved]

/-- A byte that no home slice lists is gone with the allocation in whose place it stands. -/
theorem homeByte_leaveBuffer {b : Nat} (found : s.launch? l.uid = some l) (single : l.allocs = [x])
    (away : s.keepsBuffer l.uid x.group = false) (wf : Memory.wf s = true) (unlisted : cellGet s.l2 b = none)
    (inside : tileAddr s.pkg x.core (1024 * x.base) ≤ b ∧ b < tileAddr s.pkg x.core (1024 * x.base) + 1024 * l.record.tbuf) :
    (s.leaveBuffer l.uid x.group).homeByte b = 0 := by
  obtain ⟨hbm, l2⟩ := stow_of_single found single
  rw [leaveBuffer_of_single found single away, State.homeByte, hbm, l2, unlisted,
    cellGet_cellsDrop_same ((Memory.wf_iff s).1 wf).1 _ _ inside]
  rfl

end

/-- The hart in front as it goes to its resume list (R295). -/
def State.sentAway (s : State) : State :=
  ({ s.giveBack with cur := { s.cur with place := .saved, held := 0 } } : State).enlist s.cur

theorem vacate_none (s : State) : s.vacate none = s.sentAway.leaveBuffer s.cur.launch s.cur.group := rfl

theorem sentAway_frame (s : State) : s.sentAway.rest = s.rest ∧ s.sentAway.hbm = s.hbm ∧ s.sentAway.l2 = s.l2 ∧
    s.sentAway.lighthouse = s.lighthouse ∧ s.sentAway.launches = s.giveBack.launches ∧ s.sentAway.cur.place = .saved := by
  obtain ⟨q, r, l, given⟩ := giveBack_frame s
  unfold State.sentAway
  rw [given]
  exact ⟨rfl, rfl, rfl, rfl, rfl, rfl⟩

/-- In the end the line's byte is nowhere. -/
theorem State.GivenUp.vacated {k : Nat} {s : State} (h : s.GivenUp k) (low : k < 2 ^ 16) :
    (s.vacate none).homeByte (farLine k + 8) = 0 := by
  obtain ⟨b, launches⟩ := giveBack_launches h
  obtain ⟨rest, hbm, l2, lighthouse, same, saved⟩ := sentAway_frame s
  have found : s.sentAway.launch? 1 = some { hugeLaunch with bars := b } := by
    rw [State.launch?, same, launches]
    rfl
  have package : s.sentAway.pkg = 0 := by
    rw [State.pkg, lighthouse]
    exact h.package
  rw [vacate_none, h.launch, h.group]
  refine homeByte_leaveBuffer (l := { hugeLaunch with bars := b }) (x := { group := 0, core := 0, base := 0 }) found rfl
    (keepsBuffer_of_alone (rest.trans h.alone) saved 1 0) ((Memory.wf_congr hbm l2).trans h.wf) (l2 ▸ h.unlisted) ?_
  rw [package]
  unfold tileAddr farLine hugeLaunch
  dsimp only
  omega

/-- Refutes O57: no premise keeps a save area below 2^52, the end of physical addresses. Where one lies in the line that its full
home slice chooses to write to HBM (R16, R181), an allocation that is recorded as larger than any tile buffer takes that line along
as it leaves the buffer (R168), and the saved `x1` reads as 0 (R393). -/
theorem not_scheduling : ¬ Obligations.Scheduling := by
  intro h
  obtain ⟨n, lines⟩ : ∃ n, n = sliceLines + 1 := ⟨_, rfl⟩
  have more : sliceLines < n := by omega
  obtain ⟨k, chosen⟩ : ∃ k, Config.choice 0 % n = k := ⟨_, rfl⟩
  have low : k < 2 ^ 16 := chosen ▸ (Nat.mod_lt _ (Nat.zero_lt_of_lt more)).trans (by rw [lines]; decide)
  obtain ⟨-, -, leave, -⟩ := h (leaving n k)
    { id := 0, cores := [], root := 0, faultQueue := 0, saveBase := 0, saveHarts := 0 } 0
    { cls := 0, source := .spawn 0 0, launch := 0, groups := [] } hugeLaunch { part := 0, cls := 0, launch := 0, since := 0 }
    { part := 0, cls := 0, harts := [], since := 0 } {} 0 0 0 0 0 0
  obtain ⟨aligned, hbm⟩ := farLine_place k
  obtain ⟨⟨u, event, -, -, -, -, -, -, -, -, -, saved⟩, -⟩ := leave rfl rfl rfl rfl rfl (leaving_rests n k) aligned hbm
  have same : (departed n k).writeSaveArea.vacate none = u :=
    Host.Outcome.next.inj ((leaving_preempted n k).symm.trans event)
  have gone : u.homeByte (farLine k + 8) = 0 := same ▸ (departed_saved more chosen).vacated low
  have word : leNat (u.homeRead (farLine k + 8) 8) = 1 := saved 1 (by decide)
  have first : leNat (u.homeRead (farLine k + 8) 8) % 256 = (u.homeByte (farLine k + 8)).toNat := by
    show ((u.homeByte (farLine k + 8)).toNat + 256 * _) % 256 = _
    rw [Nat.add_mul_mod_self_left, Nat.mod_eq_of_lt (u.homeByte (farLine k + 8)).isLt]
  rw [word, gone] at first
  exact absurd first (by decide)

end Sys2Proof.Machine
end

section
/-! Grant points and the configuration of vector registers (R98-R100, R201). -/

namespace Sys2Proof.Machine

section
variable {s : State}

/-! The grant (R98) -/

theorem le_chosenGrant (s : State) (h : Hart) : max (s.recordOf h).lgmin 1 ≤ s.chosenGrant h := le_max_right _ _

/-- A reclamation only takes lane groups away from what the launch may have (R96). -/
theorem chosenGrant_le {h : Hart} (room : max (s.recordOf h).lgmin 1 ≤ (s.recordOf h).lgmax) :
    s.chosenGrant h ≤ (s.recordOf h).lgmax := by
  refine max_le (List.foldlRecOn _ _ (motive := (· ≤ (s.recordOf h).lgmax)) le_rfl fun g below q _ => ?_) room
  split
  · exact (min_le_left _ _).trans below
  · exact below

/-- The hart in front after a grant of `g` groups for `request` elements of tag `t`, their number in `d` (R98). -/
def Hart.withGrant (g : Nat) (d : BitVec 5) (request : Word) (t : Tag) (h : Hart) : Hart :=
  ({ h with
      held := g, vgrant := g, ltag := t, vlmax := g * 2048 / t.width, vlen := min request.toNat (g * 2048 / t.width)
      v := h.v.map (VReg.trim g), vbad := h.vbad.filter fun p => decide (p.2 < 256 * g) }).setX d
    (BitVec.ofNat 64 (min request.toNat (g * 2048 / t.width)))

/-- At a grant point nothing changes but the hart in front and the requests for its lanes. -/
theorem setvl_completes (s : State) (d : BitVec 5) (request : Word) (t : Tag) :
    ∃ rs, CompletesAs (.next (s.setvl d request t)) (s.cur.pc + 4)
      { s with reclaims := rs, cur := s.cur.withGrant (s.chosenGrant s.cur) d request t } := by
  refine ⟨_, _, rfl, ?_, State.retire_cur_wait _, retire_bare _⟩
  exact (State.retire_cur_pc _).trans (congrArg (· + 4) (Hart.setX_pc _ _ _))

/-! When the grant is made (R98, R201) -/

section
variable (d a : BitVec 5) (u : BitVec 4)

theorem exec_vsetvl_of_free (free : s.cur.status.matrix = false) (settled : s.pendingGroups s.cur.uid = [])
    (groups : s.freeGroups s.cur ≠ 0) :
    exec (.vsetvl d a u) s = .next (s.setvl d ((s.issue [s.x a]).operands.headD 0) (Tag.ofCode u.toNat)) := by
  show execVsetvl d a u s = _
  simp only [execVsetvl, free, settled, groups, Bool.false_eq_true, List.isEmpty_nil, Bool.not_true, if_false]

theorem exec_vsetvl_of_none (free : s.cur.status.matrix = false) (settled : s.pendingGroups s.cur.uid = [])
    (taken : s.freeGroups s.cur = 0) :
    exec (.vsetvl d a u) s = .next (s.onCur fun h => { h.hold (s.issue [s.x a]) with
      wait := .vsetvl d ((s.issue [s.x a]).operands.headD 0) (Tag.ofCode u.toNat) }) := by
  show execVsetvl d a u s = _
  simp only [execVsetvl, free, settled, taken, Bool.false_eq_true, List.isEmpty_nil, Bool.not_true, if_false, if_true]

end

/-- What issues for the first time captures its operands as they stand. -/
theorem issue_operands_of_first (first : s.cur.capturedHere = none) (operands : List Word) (scalar : Word) :
    (s.issue operands scalar).operands = operands := by
  rw [State.issue, first]
  rfl

theorem focus_cur (here : s.cur.place ≠ .absent) : s.focus s.cur.uid = some s := by
  rw [State.focus, beq_self_eq_true, Bool.true_and, if_pos (bne_iff_ne.2 here)]

theorem exec_vsetvlLaneWake_of_free (here : s.cur.place ≠ .absent) {d : BitVec 5} {request : Word} {t : Tag}
    (asleep : s.cur.wait = .vsetvl d request t) (groups : s.freeGroups s.cur ≠ 0) (stays : s.mustLeave s.cur = false) :
    exec (.vsetvlLaneWake s.cur.uid) s = .next (s.setvl d request t) := by
  show execVsetvlLaneWake s.cur.uid s = _
  simp only [execVsetvlLaneWake, State.eventOn, focus_cur here, asleep, groups, stays, decide_false, Bool.or_self,
    Bool.false_eq_true, if_false]

/-! The tag of a register (R99) -/

theorem ofCode_ne_dead : ∀ {u : BitVec 4}, u ≠ 0 → Tag.ofCode u.toNat ≠ .dead := by decide

section
variable (ready : s.VectorReady) (d : BitVec 5)
include ready

/-- Where no check of `vcfg` stops it, it changes the register and completes. -/
theorem exec_vcfg (u : BitVec 4) : exec (.vcfg d u) s =
    finish (if Tag.ofCode u.toNat = .dead then modCur (fun h => h.setV d {}) >>= fun _ => retireVector
      else modCur (fun h => { h with v := h.v.set d.toNat { h.getV d with tag := Tag.ofCode u.toNat } }) >>=
        fun _ => retireVector) s := by
  have latches : notLatches [d] s = .ok () s :=
    (curHart_bind _).trans (need_of (by rw [ready.noMatrix]; rfl) _ _)
  have lanes : need s.cur.granted 0x09 0 0 s = .ok () s := need_of ready.lanes _ _
  exact finish_congr ((bind_ok latches).trans ((curHart_bind _).trans ((bind_ok lanes).trans
    ((bind_ok (settled_ok ready [d])).trans rfl))))

theorem vcfg_live_completes {u : BitVec 4} (live : u ≠ 0) : Completes s (exec (.vcfg d u) s) (s.cur.pc + 4)
    { s.cur with v := s.cur.v.set d.toNat { img := (s.cur.getV d).img, tag := Tag.ofCode u.toNat } } := by
  rw [exec_vcfg ready, if_neg (ofCode_ne_dead live)]
  exact completes_retireVector (s := s) { s.cur with v := s.cur.v.set d.toNat { s.cur.getV d with tag := Tag.ofCode u.toNat } }

theorem vcfg_dead_completes : Completes s (exec (.vcfg d 0) s) (s.cur.pc + 4) (s.cur.setV d { img := 0, tag := .dead }) := by
  rw [exec_vcfg ready]
  exact completes_retireVector (s := s) (s.cur.setV d {})

/-! Giving up the lanes (R100) -/

theorem vrel_completes : Completes s (exec .vrel s) (s.cur.pc + 4) s.cur.release := by
  have released : exec .vrel s = .next ((({ s with cur := s.cur.release } : State).countCur 0x03 1).retire) := by
    refine finish_ok ((bind_ok (notMatrixNotReleased_ok ready.noMatrix ready.lanes)).trans ?_)
    show (if !(s.pendingGroups s.cur.uid).isEmpty then stall else modCur Hart.release >>= fun _ => retireVector) s = _
    rw [ready.written]
    rfl
  rw [released]
  exact completes_retireVector s.cur.release

end

theorem getV_release (h : Hart) (r : BitVec 5) : h.release.getV r = { img := 0, tag := .dead } := Vector.getElem_replicate _

/-- The mask registers are as at reset. -/
theorem getM_release (h : Hart) {r : BitVec 3} (other : r ≠ 0) : h.release.getM r = 0 :=
  (getM_reset r).trans (if_neg other)

end

/-- Settles O33: the chosen grant keeps to its bounds, `vsetvl` and its wake come to the same grant point (`setvl_completes`), and the
checks let `vcfg` and `vrel` through to their changes of the hart. -/
theorem vectorConfiguration : Obligations.VectorConfiguration := by
  refine ⟨fun s d a u request t => ⟨fun room => ⟨le_chosenGrant s s.cur, chosenGrant_le room⟩, fun free settled groups => ?_,
    exec_vsetvl_of_none d a u, fun first => issue_operands_of_first first _ _, fun here asleep groups stays => ?_⟩,
    fun s d u ready => ⟨vcfg_live_completes ready d, vcfg_dead_completes ready d, s.cur.release, vrel_completes ready,
      rfl, rfl, rfl, rfl, getV_release _, fun r other => getM_release _ other, rfl, rfl, rfl, rfl, rfl⟩⟩
  · rw [exec_vsetvl_of_free d a u free settled groups]
    exact setvl_completes s d _ _
  · rw [exec_vsetvlLaneWake_of_free here asleep groups stays]
    exact setvl_completes s d request t

end Sys2Proof.Machine
end

section
/-! Element by element: what the instructions of VARITH and VLOGIC complete with (R107, R109, R113, R115). -/

namespace Sys2Proof.Machine

section
variable {s : State} (ready : s.VectorReady) {f : BitVec 2} {d a b : BitVec 5} {m : BitVec 3} {i : Instr}
include ready

/-- An instruction on two sources of one live tag that it accepts completes with its element function. -/
theorem elementWise_of_same {logic : Bool} {ok : Tag → Tag → Tag → Bool} {g : BitVec 6 → Tag → Tag → Nat → Nat → Nat → FRes}
    (h : exec i s = finish (binary f d a b m logic false ok (fun t _ => t) g) s)
    (same : f = 0 → (s.cur.getV b).tag = (s.cur.getV a).tag) (live : (s.cur.getV a).tag ≠ .dead)
    (accepted : ok (s.cur.getV a).tag (s.cur.getV a).tag (s.cur.getV d).tag = true) (fits : s.cur.Fits [(s.cur.getV a).tag]) :
    ElementWise s (exec i s) f d a b m logic (s.cur.getV a).tag (g s.fmodeHere (s.cur.getV a).tag (s.cur.getV d).tag) := by
  obtain ⟨bTag, sources⟩ := sources_of_same same
  refine elementWise_of_binary ready h (fun r hr => ?_) (bTag.symm ▸ accepted) fits
  rw [sources r (by simpa using hr)]
  exact ⟨live, fits⟩

theorem bitwise_elementWise {op : Nat → Nat → Nat} (h : exec i s = bitwise op f d a b m s)
    (same : f = 0 → (s.cur.getV b).tag = (s.cur.getV a).tag) (live : (s.cur.getV a).tag ≠ .dead)
    (fits : s.cur.Fits [(s.cur.getV a).tag]) :
    ElementWise s (exec i s) f d a b m true (s.cur.getV a).tag fun x y _ => ⟨op x y, 0⟩ :=
  elementWise_of_same ready h same live (decide_eq_true rfl) fits

theorem shift_elementWise {op : Nat → Nat → Nat → Nat} (h : exec i s = shift op f d a b m s)
    (same : f = 0 → (s.cur.getV b).tag = (s.cur.getV a).tag) (int : (s.cur.getV a).tag.isInt = true)
    (fits : s.cur.Fits [(s.cur.getV a).tag]) :
    ElementWise s (exec i s) f d a b m true (s.cur.getV a).tag fun x y _ =>
      ⟨op (s.cur.getV a).tag.width x (y % (s.cur.getV a).tag.width), 0⟩ :=
  elementWise_of_same ready h same (Tag.live_of_isInt int) (by simp [int]) fits

end

/-- Settles O27: the instructions of R115 complete element by element; a shift multiplies or divides by a power of two, and
`vpopc` counts the set bits (`popCount_eq`). -/
theorem vectorLogic : Obligations.VectorLogic := by
  intro s f d a b m ready t w live fits same
  refine ⟨bitwise_elementWise ready (op := (· &&& ·)) rfl same live fits,
    bitwise_elementWise ready (op := (· ||| ·)) rfl same live fits, bitwise_elementWise ready (op := (· ^^^ ·)) rfl same live fits,
    elementWise_of_unary ready (show exec (.vnot d a m) s = execVnot d a m s from rfl) live rfl fits, fun int => ?_⟩
  have vsll := shift_elementWise ready (show exec (.vsll f d a b m) s = execVsll f d a b m s from rfl) same int fits
  have vsrl := shift_elementWise ready (show exec (.vsrl f d a b m) s = execVsrl f d a b m s from rfl) same int fits
  have vsra := shift_elementWise ready (show exec (.vsra f d a b m) s = execVsra f d a b m s from rfl) same int fits
  have vpopc := elementWise_of_unary ready (show exec (.vpopc d a m) s = execVpopc d a m s from rfl) live int fits
  have vclz := elementWise_of_unary ready (show exec (.vclz d a m) s = execVclz d a m s from rfl) live int fits
  simp only [Nat.shiftLeft_eq] at vsll
  simp only [Nat.shiftRight_eq_div_pow] at vsrl
  simp only [popCount_eq] at vpopc
  exact ⟨vsll, vsrl, vsra, vpopc, vclz⟩

end Sys2Proof.Machine
end

section
/-! Vector comparisons (R118, R119): the mask bits and flags that they complete with, and the outcomes of one comparison. -/

namespace Sys2Proof.Machine

/-! Completion -/

/-- Bits that agree below the length, and equal flags, are the same completion. -/
theorem MaskDone.congr {s : State} {o : Result} {d : BitVec 3} {n : Nat} {g g' : Nat → Option Bool} {fl fl' : BitVec 6}
    (h : MaskDone s o d n g fl) (bits : ∀ i, i < n → g i = g' i) (flags : fl = fl') : MaskDone s o d n g' fl' := by
  obtain ⟨v, after, done⟩ := h
  refine ⟨v, fun i hi => ?_, flags ▸ done⟩
  rw [after i hi]
  split
  · next below => rw [bits i below]
  · rfl

/-- Outcomes and flags of the active elements, as VCMP collects them (R118). -/
def comparisons (n : Nat) (active : Nat → Bool) (one : Nat → Bool × BitVec 6) : List (Option (Bool × BitVec 6)) :=
  (upTo n).map fun i => if active i then some (one i) else none

section
variable {n : Nat} {active : Nat → Bool} {one : Nat → Bool × BitVec 6}

theorem comparisons_outcome {i : Nat} (below : i < n) :
    (((comparisons n active one)[i]?).join).map Prod.fst = if active i then some (one i).1 else none := by
  have element : ((comparisons n active one)[i]?).join = if active i then some (one i) else none := by
    simp [comparisons, upTo, below]
  rw [element]
  split <;> rfl

theorem comparisons_flags : (comparisons n active one).filterMap (fun r => r.map Prod.snd) =
    (List.range n).filterMap fun i => if active i then some (one i).2 else none := by
  unfold comparisons
  rw [List.filterMap_map]
  refine List.filterMap_congr fun i _ => ?_
  dsimp only [Function.comp_apply]
  split <;> rfl

theorem comparisons_any : (comparisons n active one).any Option.isSome = (List.range n).any active := by
  unfold comparisons
  rw [List.any_map]
  congr 1
  funext i
  dsimp only [Function.comp_apply]
  cases active i <;> rfl

end

section
variable {s : State} (ready : s.VectorReady)
include ready

/-- An instruction that writes mask bits and raises flags completes with both. -/
theorem maskDone_raise (d : BitVec 3) (n : Nat) (value : Nat → Option Bool) (fl : BitVec 6) :
    MaskDone s (.next (((({ s with cur := s.cur.writeMask d n value } : State).raise fl).countCur 0x03 1).retire)) d n value fl := by
  obtain ⟨v, after, e⟩ := writeMask_after ready.masks d n value
  refine ⟨v, after, ?_⟩
  have pc := Hart.setM_pc s.cur d v
  have fflags := Hart.setM_fflags s.cur d v
  have done := completes_retireVector (s := s) { s.cur.setM d v with fflags := (s.cur.setM d v).fflags ||| fl }
  rw [fflags] at done
  unfold State.raise
  dsimp only
  rw [e, fflags, ← pc]
  exact done

variable {i : Instr} {f : BitVec 2} {d : BitVec 3} {a b : BitVec 5} {m : BitVec 3} {cc : Cc}

/-- A comparison completes on every tag that it accepts. -/
theorem vcompare_done (h : exec i s = finish (vcompare cc f d a b m) s)
    (same : f = 0 → (s.cur.getV b).tag = (s.cur.getV a).tag) (fits : s.cur.Fits [(s.cur.getV a).tag])
    (accepted : (if cc = .un then (s.cur.getV a).tag.isFloat else (s.cur.getV a).tag.isNumber) = true) :
    let active := activeAt false s.cur.vlen (s.cur.getM m)
    let bo := s.cur.bOperand (s.issue [] (s.x b)) f b (s.cur.getV a).tag false
    let one := fun i => cc.apply (s.cur.getV a).tag (Mode.ofFmode s.fmodeHere) ((s.cur.getV a).elem i) (bo.elem i)
    MaskDone s (exec i s) d s.cur.vlen (fun i => if active i then some (one i).1 else none)
      (orFlags ((List.range s.cur.vlen).filterMap fun i => if active i then some (one i).2 else none) |||
        if (List.range s.cur.vlen).any active then bo.fl else 0) := by
  intro active bo one
  have number : (s.cur.getV a).tag.isNumber = true := by
    split at accepted
    · rw [Tag.isNumber, accepted, Bool.or_true]
    · exact accepted
  obtain ⟨bTag, sources⟩ := sources_of_same same
  have checked := checks_ok ready (live := sourceRegs f a b) (extra := [])
    (ok := (s.cur.getV a).tag == s.cur.bTag f b (s.cur.getV a).tag &&
      (if cc = .un then (s.cur.getV a).tag.isFloat else (s.cur.getV a).tag.isNumber))
    (fun r hr => by rw [sources r hr]; exact Tag.live_of_isNumber number) (by rw [bTag, accepted, BEq.rfl]; rfl)
    (fun r hr => by rw [sources r hr]; exact fits) fun _ => nofun
  have fmode : (s.issue [] (s.cur.getX b)).fmode = s.fmodeHere := issue_fmode _ _
  have ends : exec i s = .next (((({ s with
      cur := s.cur.writeMask d s.cur.vlen fun i => (((comparisons s.cur.vlen active one)[i]?).join).map Prod.fst } : State).raise
        (orFlags ((comparisons s.cur.vlen active one).filterMap fun r => r.map Prod.snd) |||
          if (comparisons s.cur.vlen active one).any Option.isSome then bo.fl else 0)).countCur 0x03 1).retire) := by
    rw [h]
    refine finish_restartable ((bind_ok checked).trans ((bind_ok (settledElems_ok ready _ _)).trans
      ((bind_ok (soundBelow_ok ready _ _)).trans ?_))) (s.issue [] (s.cur.getX b))
    rw [fmode]
    rfl
  rw [ends]
  refine (maskDone_raise ready d _ _ _).congr (fun i below => comparisons_outcome below) ?_
  rw [comparisons_flags, comparisons_any]

end

/-! One comparison -/

section
variable {t : Tag} {md : Mode} {x y : Nat} (cc : Cc)

theorem Cc.apply_of_isInt (int : t.isInt = true) : cc.apply t md x y = (cc.int (t.int x) (t.int y), 0) := by
  unfold Cc.apply
  rw [Tag.fmt_of_isInt int]

variable {f : Fmt}

theorem Cc.apply_of_fmt (fmt : t.fmt = some f) : cc.apply t md x y = (cc.holds (f.cmp md x y),
    if (f.cmp md x y).snan || ((f.cmp md x y).un && cc.signals) then flNV else 0) := by
  unfold Cc.apply
  rw [fmt]

theorem Fmt.cmp_un (known : f ∈ Fmt.known) : (f.cmp md x y).un = (f.isNanCode x || f.isNanCode y) := by
  rw [← Fmt.isNan_read known (md := md) x, ← Fmt.isNan_read known (md := md) y]
  rfl

/-- Where the operands are unordered, neither is less and they are not equal (R79). -/
theorem Fmt.cmp_unordered (un : (f.cmp md x y).un = true) : (f.cmp md x y).lt = false ∧ (f.cmp md x y).eq = false := by
  unfold Fmt.cmp at un ⊢
  dsimp only at un ⊢
  rw [un]
  exact ⟨rfl, rfl⟩

/-- Only NaNs signal (R45). -/
theorem Fmt.signals_or_nan (f : Fmt) (x y : Nat) :
    ((f.signals x || f.signals y) || (f.isNanCode x || f.isNanCode y)) = (f.isNanCode x || f.isNanCode y) := by
  cases nanX : f.isNanCode x with
  | true => rw [Bool.true_or, Bool.or_true]
  | false => cases nanY : f.isNanCode y with
    | true => rw [Bool.or_true, Bool.or_true]
    | false => rw [Fmt.signals_of_number nanX, Fmt.signals_of_number nanY]; rfl

/-- The ordered conditions are false of a NaN, and raise NV for any (R118). -/
theorem Cc.ordered_of_nan {cc : Cc} (ordered : cc.signals = true) (fmt : t.fmt = some f) :
    ((f.isNanCode x || f.isNanCode y) = true → (cc.apply t md x y).1 = false) ∧
      (cc.apply t md x y).2 = if f.isNanCode x || f.isNanCode y then flNV else 0 := by
  have known := Tag.known_of_fmt fmt
  rw [Cc.apply_of_fmt cc fmt, ordered, Bool.and_true, Fmt.cmp_snan known, Fmt.cmp_un known, Fmt.signals_or_nan]
  refine ⟨fun nan => ?_, rfl⟩
  have un := (Fmt.cmp_un known (md := md)).trans nan
  obtain ⟨lt, eq⟩ := Fmt.cmp_unordered un
  show cc.holds (f.cmp md x y) = false
  cases cc with
  | eq | ne | un => cases ordered
  | lt => exact lt
  | le => simp only [Cc.holds, lt, eq, Bool.or_self]
  | gt | ge => simp only [Cc.holds, un, Bool.not_true, Bool.false_and]

end

/-- What VCMP runs (R118). -/
theorem vcmp_runs {s : State} (f : BitVec 2) (d : BitVec 3) (a b : BitVec 5) (m : BitVec 3) :
    ∀ e ∈ [(Instr.vcmpEq f d a b m, Cc.eq), (.vcmpNe f d a b m, .ne), (.vcmpLt f d a b m, .lt), (.vcmpLe f d a b m, .le),
        (.vcmpGt f d a b m, .gt), (.vcmpGe f d a b m, .ge), (.vcmpUn f d a b m, .un)],
      exec e.1 s = finish (vcompare e.2 f d a b m) s := by
  simp only [List.forall_mem_cons, List.not_mem_nil, false_imp_iff, implies_true, and_true]
  exact ⟨rfl, rfl, rfl, rfl, rfl, rfl, rfl⟩

/-- Settles O29: a comparison completes with its outcomes and flags (`vcompare_done`), and with a NaN nothing is less or equal. -/
theorem vectorCompares : Obligations.VectorCompares := by
  refine ⟨fun s f d a b m ready => ?_, fun t md x y => ⟨fun int => ?_, fun f fmt => ?_⟩⟩
  · intro t vl active bo one fits same e he
    exact vcompare_done ready (vcmp_runs f d a b m e he) same fits
  · simp only [Cc.apply_of_isInt _ int]
    exact ⟨rfl, rfl, rfl, rfl, rfl, rfl⟩
  · intro c
    have known := Tag.known_of_fmt fmt
    have outcome (cc : Cc) : (cc.apply t md x y).1 = cc.holds c := by rw [Cc.apply_of_fmt cc fmt]
    refine ⟨outcome _, outcome _, outcome _, outcome _, fun ordered => ⟨?_, ?_⟩, outcome _, ?_⟩
    · rw [outcome, Cc.holds, ordered, Bool.not_false, Bool.true_and, Bool.not_or]
    · rw [outcome, Cc.holds, ordered, Bool.not_false, Bool.true_and]
    · intro _ _ nan
      have un : c.un = nan := Fmt.cmp_un known
      refine ⟨un, fun e he => Cc.ordered_of_nan ?_ fmt, fun isNan => ?_, fun e he => ?_⟩
      · revert e
        decide
      · obtain ⟨-, eq⟩ := Fmt.cmp_unordered (un.trans isNan)
        rw [outcome, outcome, Cc.holds, Cc.holds, eq]
        exact ⟨rfl, rfl⟩
      · have quiet : e.signals = false := by
          revert e
          decide
        rw [Cc.apply_of_fmt e fmt, quiet, Bool.and_false, Bool.or_false, Fmt.cmp_snan known]

end Sys2Proof.Machine
end

section
/-! VARITH on the integers of a tag (R71, R113): results modulo the width, in the range of the tag, and held in it. -/

namespace Sys2Proof.Machine

/-! Low bits -/

theorem wrap_congr {n : Nat} {v u : Int} (h : v ≡ u [ZMOD (2 ^ n : Nat)]) : wrap n v = wrap n u := congrArg Int.toNat h

theorem wrap_natCast (n k : Nat) : wrap n k = k % 2 ^ n := by
  unfold wrap
  rw [← Int.natCast_mod, Int.toNat_natCast]

/-- What a natural number is congruent to has its low bits. -/
theorem wrap_of_modEq {n k : Nat} {v : Int} (h : v ≡ k [ZMOD (2 ^ n : Nat)]) : wrap n v = k % 2 ^ n :=
  (wrap_congr h).trans (wrap_natCast n k)

theorem modEq_pow_sub {n x : Nat} {v : Int} (hx : x ≤ 2 ^ n) (h : v ≡ x [ZMOD (2 ^ n : Nat)]) :
    -v ≡ (2 ^ n - x : Nat) [ZMOD (2 ^ n : Nat)] := by
  rw [Nat.cast_sub hx, sub_eq_add_neg]
  exact h.neg.trans (Int.modEq_iff_dvd.2 ⟨1, by ring⟩)

/-- The range of an integer tag, by half of its values (R41). -/
theorem Tag.limits {t : Tag} (int : t.isInt = true) : ∃ h : Nat, 1 ≤ h ∧ 2 ^ t.width = 2 * h ∧
    (t.isSigned = true ∧ t.least = -h ∧ t.greatest = h - 1 ∨ t.isSigned = false ∧ t.least = 0 ∧ t.greatest = 2 * h - 1) := by
  refine ⟨2 ^ (t.width - 1), Nat.one_le_two_pow, Tag.two_halves int, ?_⟩
  unfold Tag.least Tag.greatest
  cases t.isSigned with
  | true => exact .inl ⟨rfl, rfl, rfl⟩
  | false =>
    refine .inr ⟨rfl, rfl, ?_⟩
    rw [if_neg Bool.false_ne_true, Tag.two_halves int]
    push_cast
    rfl

section
variable {t : Tag} (int : t.isInt = true) {md : Mode} {x y : Nat}
include int

theorem VOp.apply_of_isInt (op : VOp) : op.apply t md x y = op.int t (t.int x) (t.int y) := by
  unfold VOp.apply
  rw [Tag.fmt_of_isInt int]

theorem VOp.divide_apply :
    VOp.div.apply t md x y = ⟨wrap t.width (t.quotient (t.int x) (t.int y)), 0⟩ ∧
      VOp.rem.apply t md x y = ⟨wrap t.width (t.remainder (t.int x) (t.int y)), 0⟩ := by
  rw [VOp.apply_of_isInt int, VOp.apply_of_isInt int]
  exact ⟨rfl, rfl⟩

/-- Saturating sums and differences (R54, R113). -/
theorem varith_saturating :
    t.int (VOp.sadd.apply t md x y).val = max t.least (min t.greatest (t.int x + t.int y)) ∧
      ((VOp.sadd.apply t md x y).fl = flSX ↔ (t.int x + t.int y < t.least ∨ t.greatest < t.int x + t.int y)) ∧
      t.int (VOp.ssub.apply t md x y).val = max t.least (min t.greatest (t.int x - t.int y)) := by
  simp only [VOp.apply_of_isInt int, VOp.int]
  obtain ⟨-, sum, flags⟩ := Tag.sat_eq int (t.int x + t.int y)
  obtain ⟨-, difference, -⟩ := Tag.sat_eq int (t.int x - t.int y)
  have range := Tag.least_le_greatest int
  refine ⟨sum, ?_, difference⟩
  rw [flags]
  split
  · exact ⟨fun h => absurd h (by decide), fun h => by omega⟩
  · exact ⟨fun _ => by omega, fun _ => rfl⟩

section
variable (hx : x < 2 ^ t.width)
include hx

/-- An element is congruent to the integer that it stands for. -/
theorem Tag.int_modEq : t.int x ≡ x [ZMOD (2 ^ t.width : Nat)] := by
  rw [Tag.int_of_lt int hx]
  split
  · exact Int.modEq_iff_dvd.2 ⟨1, by ring⟩
  · rfl

theorem negElem_of_isInt : negElem t x = (2 ^ t.width - x) % 2 ^ t.width := by
  unfold negElem
  rw [if_pos int]
  exact wrap_of_modEq (modEq_pow_sub hx.le (Tag.int_modEq int hx))

/-- `vabs` on integers: the least value of a signed tag has no opposite in it. -/
theorem absElem_of_isInt : absElem t x < 2 ^ t.width ∧
    t.int (absElem t x) = if t.isSigned = true ∧ t.int x = t.least then t.int x else |t.int x| := by
  obtain ⟨least, greatest⟩ := Tag.int_bounds int hx
  obtain ⟨h, pos, whole, limits⟩ := Tag.limits int
  have eq : absElem t x = wrap t.width |t.int x| := by
    unfold absElem
    rw [if_pos int, Int.natCast_natAbs]
  rw [eq]
  refine ⟨(wrap_emod _ _).1, ?_⟩
  split
  · next edge =>
    have opposite : |t.int x| ≡ t.int x [ZMOD (2 ^ t.width : Nat)] := by
      have value : t.int x = -h := by
        obtain ⟨-, low, -⟩ | ⟨unsigned, -⟩ := limits
        · exact edge.2.trans low
        · exact absurd (unsigned.symm.trans edge.1) (by decide)
      rw [value, abs_neg, Nat.abs_cast, whole]
      exact Int.modEq_iff_dvd.2 ⟨-1, by push_cast; ring⟩
    rw [wrap_congr opposite]
    exact (Tag.int_wrap int least greatest).2
  · next inside =>
    have range : t.least ≤ |t.int x| ∧ |t.int x| ≤ t.greatest := by
      obtain ⟨signed, low, high⟩ | ⟨-, low, high⟩ := limits
      · have above : t.int x ≠ t.least := fun e => inside ⟨signed, e⟩
        obtain ⟨size, -⟩ | ⟨size, -⟩ := abs_cases (t.int x) <;> omega
      · rw [abs_of_nonneg (by omega)]
        exact ⟨least, greatest⟩
    exact (Tag.int_wrap int range.1 range.2).2

/-- Divisions by zero (R71). -/
theorem varith_divide_zero (zero : t.int y = 0) : (VOp.rem.apply t md x y).val = x ∧
    t.int (VOp.div.apply t md x y).val = if 0 < t.int x then t.greatest else if t.int x < 0 then t.least else 0 := by
  obtain ⟨div, rem⟩ := VOp.divide_apply int (md := md) (x := x) (y := y)
  have range := Tag.least_le_greatest int
  obtain ⟨least, greatest⟩ := Tag.int_bounds int hx
  rw [div, rem, Tag.quotient, Tag.remainder, if_pos zero, if_pos zero]
  refine ⟨(wrap_of_modEq (Tag.int_modEq int hx)).trans (Nat.mod_eq_of_lt hx), ?_⟩
  split
  · exact (Tag.int_wrap int range le_rfl).2
  · split
    · exact (Tag.int_wrap int le_rfl range).2
    · exact (Tag.int_wrap int (v := 0) (by omega) (by omega)).2

section
variable (hy : y < 2 ^ t.width)
include hy

/-- Sums, differences and products modulo the width (R113). -/
theorem varith_modular :
    VOp.add.apply t md x y = ⟨(x + y) % 2 ^ t.width, 0⟩ ∧ VOp.sub.apply t md x y = ⟨(x + (2 ^ t.width - y)) % 2 ^ t.width, 0⟩ ∧
      VOp.rsub.apply t md x y = ⟨(y + (2 ^ t.width - x)) % 2 ^ t.width, 0⟩ ∧
      VOp.mul.apply t md x y = ⟨x * y % 2 ^ t.width, 0⟩ := by
  have left := Tag.int_modEq int hx
  have right := Tag.int_modEq int hy
  have low {v : Int} {k : Nat} (h : v ≡ k [ZMOD (2 ^ t.width : Nat)]) : (⟨wrap t.width v, 0⟩ : FRes) = ⟨k % 2 ^ t.width, 0⟩ :=
    congrArg (fun n => (⟨n, 0⟩ : FRes)) (wrap_of_modEq h)
  simp only [VOp.apply_of_isInt int]
  refine ⟨low ?_, low ?_, low ?_, low ?_⟩
  · rw [Nat.cast_add]
    exact left.add right
  · rw [Nat.cast_add, sub_eq_add_neg]
    exact left.add (modEq_pow_sub hy.le right)
  · rw [Nat.cast_add, sub_eq_add_neg]
    exact right.add (modEq_pow_sub hx.le left)
  · rw [Nat.cast_mul]
    exact left.mul right

/-- The smaller and the larger operand (R113). -/
theorem varith_minmax :
    t.int (VOp.min.apply t md x y).val = min (t.int x) (t.int y) ∧ t.int (VOp.max.apply t md x y).val = max (t.int x) (t.int y) := by
  obtain ⟨leastX, greatestX⟩ := Tag.int_bounds int hx
  obtain ⟨leastY, greatestY⟩ := Tag.int_bounds int hy
  simp only [VOp.apply_of_isInt int, VOp.int, ← min_def, ← max_def]
  exact ⟨(Tag.int_wrap int (le_min leastX leastY) (min_le_of_left_le greatestX)).2,
    (Tag.int_wrap int (le_max_of_le_left leastX) (max_le greatestX greatestY)).2⟩

/-- The upper half of a product is in the range of the tag. -/
theorem mulh_range : t.least ≤ t.int x * t.int y / (2 ^ t.width : Nat) ∧ t.int x * t.int y / (2 ^ t.width : Nat) ≤ t.greatest := by
  obtain ⟨leastX, greatestX⟩ := Tag.int_bounds int hx
  obtain ⟨leastY, greatestY⟩ := Tag.int_bounds int hy
  obtain ⟨h, pos, whole, limits⟩ := Tag.limits int
  have half : (1 : Int) ≤ h := by exact_mod_cast pos
  rw [whole, Nat.cast_mul, Int.le_ediv_iff_mul_le (by omega), ← Int.lt_add_one_iff (b := t.greatest),
    Int.ediv_lt_iff_lt_mul (by omega)]
  obtain ⟨-, low, high⟩ | ⟨-, low, high⟩ := limits
  · have sizeX : |t.int x| ≤ h := abs_le.2 ⟨low ▸ leastX, by omega⟩
    have sizeY : |t.int y| ≤ h := abs_le.2 ⟨low ▸ leastY, by omega⟩
    have size : |t.int x * t.int y| ≤ h * h := by
      rw [abs_mul]
      exact mul_le_mul sizeX sizeY (abs_nonneg _) (by omega)
    obtain ⟨below, above⟩ := abs_le.1 size
    rw [low, high]
    constructor <;> push_cast <;> nlinarith
  · rw [low] at leastX leastY
    have product : t.int x * t.int y < 2 * h * (2 * h) := mul_lt_mul'' (by omega) (by omega) leastX leastY
    rw [low, high, zero_mul, sub_add_cancel]
    exact ⟨mul_nonneg leastX leastY, by exact_mod_cast product⟩

theorem varith_mulh : t.int (VOp.mulh.apply t md x y).val = t.int x * t.int y / (2 ^ t.width : Nat) := by
  obtain ⟨least, greatest⟩ := mulh_range int hx hy
  rw [VOp.apply_of_isInt int]
  exact (Tag.int_wrap int least greatest).2

/-- Quotient and remainder stay in the range of the tag, but for the least value over −1 (R71). -/
theorem divide_range (inside : ¬(t.isSigned = true ∧ t.int x = t.least ∧ t.int y = -1)) :
    (t.least ≤ (t.int x).tdiv (t.int y) ∧ (t.int x).tdiv (t.int y) ≤ t.greatest) ∧
      t.least ≤ (t.int x).tmod (t.int y) ∧ (t.int x).tmod (t.int y) ≤ t.greatest := by
  obtain ⟨leastX, greatestX⟩ := Tag.int_bounds int hx
  obtain ⟨leastY, greatestY⟩ := Tag.int_bounds int hy
  obtain ⟨h, pos, whole, limits⟩ := Tag.limits int
  generalize t.int x = a at *
  generalize t.int y = b at *
  have quotient : (a.tdiv b).natAbs = a.natAbs / b.natAbs := Int.natAbs_tdiv a b
  have remainder : (a.tmod b).natAbs ≤ a.natAbs := (Int.natAbs_tmod a b).trans_le (Nat.mod_le _ _)
  have forward := Int.tmod_nonneg (a := a) b
  have backward := Int.tmod_nonneg (a := -a) b
  rw [Int.neg_tmod] at backward
  obtain ⟨signed, low, high⟩ | ⟨unsigned, low, high⟩ := limits
  · refine ⟨?_, by omega, by omega⟩
    by_cases one : b = 1
    · rw [one, Int.tdiv_one]
      exact ⟨leastX, greatestX⟩
    · have smaller : a.natAbs / b.natAbs < h := by
        by_cases unit : b.natAbs = 1
        · have edge : a ≠ t.least := fun e => inside ⟨signed, e, by omega⟩
          rw [unit, Nat.div_one]
          omega
        · rcases Nat.eq_zero_or_pos b.natAbs with zero | divides
          · rw [zero, Nat.div_zero]
            exact pos
          · have := Nat.div_le_div_left (c := 2) (a := a.natAbs) (b := b.natAbs) (by omega) (by omega)
            omega
      omega
  · have smaller : a.natAbs / b.natAbs ≤ a.natAbs := Nat.div_le_self _ _
    have nonneg := Int.tdiv_nonneg (a := a) (b := b) (by omega) (by omega)
    omega

/-- Truncated quotients and their remainders (R71). -/
theorem varith_divide (divides : t.int y ≠ 0) (inside : ¬(t.isSigned = true ∧ t.int x = t.least ∧ t.int y = -1)) :
    t.int (VOp.div.apply t md x y).val = (t.int x).tdiv (t.int y) ∧
      t.int (VOp.rem.apply t md x y).val = (t.int x).tmod (t.int y) := by
  obtain ⟨⟨leastQ, greatestQ⟩, leastR, greatestR⟩ := divide_range int hx hy inside
  obtain ⟨div, rem⟩ := VOp.divide_apply int (md := md) (x := x) (y := y)
  have plain : ¬(t.isSigned && t.int x == t.least && t.int y == -1) = true := by
    simpa only [Bool.and_eq_true, beq_iff_eq, and_assoc] using inside
  rw [div, rem, Tag.quotient, Tag.remainder, if_neg divides, if_neg divides, if_neg plain, if_neg plain, ← Int.tmod_def]
  exact ⟨(Tag.int_wrap int leastQ greatestQ).2, (Tag.int_wrap int leastR greatestR).2⟩

end

end

/-- The one quotient that overflows (R71). -/
theorem varith_divide_overflow (signed : t.isSigned = true) (least : t.int x = t.least) (minusOne : t.int y = -1) :
    t.int (VOp.div.apply t md x y).val = t.greatest ∧ t.int (VOp.rem.apply t md x y).val = -1 := by
  obtain ⟨div, rem⟩ := VOp.divide_apply int (md := md) (x := x) (y := y)
  have range := Tag.least_le_greatest int
  have inside : t.least ≤ -1 ∧ -1 ≤ t.greatest := by
    obtain ⟨h, pos, -, limits⟩ := Tag.limits int
    obtain ⟨-, low, high⟩ | ⟨unsigned, -⟩ := limits
    · omega
    · exact absurd (unsigned.symm.trans signed) (by decide)
  have edge : (t.isSigned && t.int x == t.least && t.int y == -1) = true := by
    simpa only [Bool.and_eq_true, beq_iff_eq, and_assoc] using ⟨signed, least, minusOne⟩
  have divides : t.int y ≠ 0 := by omega
  rw [div, rem, Tag.quotient, Tag.remainder, if_neg divides, if_neg divides, if_pos edge, if_pos edge]
  exact ⟨(Tag.int_wrap int range le_rfl).2, (Tag.int_wrap int inside.1 inside.2).2⟩

end
end Sys2Proof.Machine
end

section
/-! The b operand of vector arithmetic (R109): registers, scalars and immediates as elements of a tag. -/

namespace Sys2Proof.Machine

theorem scalarElem_logic (t : Tag) (md : Mode) (x : Word) : scalarElem t true md x = ⟨x.toNat % 2 ^ t.width, 0⟩ := by
  unfold scalarElem
  cases t.fmt <;> rfl

theorem immediateElem_bits {t : Tag} {logic : Bool} (h : t.isInt = true ∨ logic = true) (k : BitVec 5) :
    immediateElem t logic k = wrap t.width k.toInt := by
  unfold immediateElem
  rcases h with int | rfl
  · rw [Tag.fmt_of_isInt int]
  · cases t.fmt <;> rfl

theorem immediateElem_of_fmt {t : Tag} {f : Fmt} (fmt : t.fmt = some f) (k : BitVec 5) :
    immediateElem t false k = (f.ofInt {} k.toInt).val := by
  unfold immediateElem
  rw [fmt]
  rfl

/-! Immediates in a format -/

/-- Does the finite pattern `e` stand for the integer `n`? -/
def Fmt.standsFor (f : Fmt) (e : Nat) (n : Int) : Bool :=
  f.isFinite e && f.sign e == decide (n < 0) &&
    f.mant (f.mag e) * 2 ^ (f.expo (f.mag e)).toNat == n.natAbs * 2 ^ (-f.expo (f.mag e)).toNat

theorem Fmt.value_of_standsFor {f : Fmt} {e : Nat} {n : Int} (h : f.standsFor e n = true) : f.isFinite e = true ∧ f.value e = n := by
  unfold Fmt.standsFor at h
  simp only [Bool.and_eq_true, beq_iff_eq] at h
  obtain ⟨⟨finite, sign⟩, scaled⟩ := h
  refine ⟨finite, ?_⟩
  have size : (f.mant (f.mag e) : Rat) * 2 ^ f.expo (f.mag e) = n.natAbs := by
    generalize f.mant (f.mag e) = m at scaled
    generalize f.expo (f.mag e) = i at scaled
    have split : (2 : Rat) ^ i * 2 ^ (-i).toNat = 2 ^ i.toNat := by
      rw [← zpow_natCast, ← zpow_natCast, ← zpow_add₀ (by decide)]
      congr 1
      omega
    have pos : (0 : Rat) < 2 ^ (-i).toNat := by positivity
    refine mul_right_cancel₀ pos.ne' ?_
    rw [mul_assoc, split]
    exact_mod_cast scaled
  rw [f.value_eq, sign]
  unfold ratOf
  rw [size]
  rcases lt_or_ge n 0 with negative | nonneg
  · rw [decide_eq_true negative, if_pos rfl, Nat.cast_natAbs, abs_of_neg negative]
    push_cast
    ring
  · rw [decide_eq_false (not_lt.2 nonneg), if_neg Bool.false_ne_true, one_mul, Nat.cast_natAbs, abs_of_nonneg nonneg]

/-- What an immediate becomes in a format: e5m2, with three significant bits, rounds four magnitudes to even (R109). -/
def Fmt.nearInt (f : Fmt) (k : Int) : Int :=
  if f = .e5m2 ∧ |k| ∈ [9, 11, 13, 15] then (if k < 0 then -1 else 1) * (if |k| = 9 then 8 else if |k| = 15 then 16 else 12)
  else k

/-- The immediates of five bits in the formats of R110. -/
theorem Fmt.ofInt_immediate : ∀ f ∈ Fmt.arithmetic, ∀ k : BitVec 5,
    f.standsFor (f.ofInt {} k.toInt).val (f.nearInt k.toInt) = true := by
  decide +kernel

/-! The operand -/

section
variable (h : Hart) (cap : Captured) (b : BitVec 5) (t : Tag) (i : Nat)

theorem bOperand_scalar (logic : Bool) : (⟨(h.bOperand cap 1 b t logic).elem i, (h.bOperand cap 1 b t logic).fl⟩ : FRes) =
    scalarElem t logic (Mode.ofFmode cap.fmode) cap.scalar := rfl

end

end Sys2Proof.Machine
end

section
/-! VARITH on floating elements (R113), and the obligation. -/

namespace Sys2Proof.Machine

section
variable {t : Tag} {f : Fmt} {md : Mode} {x y : Nat}

theorem VOp.apply_of_fmt (fmt : t.fmt = some f) (op : VOp) : op.apply t md x y = op.float f md x y := by
  unfold VOp.apply
  rw [fmt]

/-- `vabs` and `vneg` change the sign bit alone (R113). -/
theorem signElems_of_fmt (fmt : t.fmt = some f) (hx : x < 2 ^ t.width) :
    absElem t x = f.mag x ∧ negElem t x = f.signBit (!x.testBit (f.width - 1)) + f.mag x := by
  have float : ¬ t.isInt = true := fun int => by
    rw [Tag.fmt_of_isInt int] at fmt
    cases fmt
  unfold absElem negElem
  rw [if_neg float, if_neg float]
  rw [Tag.width_of_fmt fmt] at hx ⊢
  refine ⟨rfl, ?_⟩
  have flipped : x ^^^ 2 ^ (f.width - 1) < 2 ^ f.width :=
    Nat.xor_lt_two_pow hx (Nat.pow_lt_pow_right (by decide) (by unfold Fmt.width; omega))
  have sign : (x ^^^ 2 ^ (f.width - 1)).testBit (f.width - 1) = !x.testBit (f.width - 1) := by
    rw [Nat.testBit_xor, Nat.testBit_two_pow_self, Bool.xor_true]
  have mag : f.mag (x ^^^ 2 ^ (f.width - 1)) = f.mag x := by
    unfold Fmt.mag
    rw [Nat.xor_mod_two_pow, Nat.mod_self, Nat.xor_zero]
  rw [← sign, ← mag]
  exact f.pattern_eq flipped

/-- `vrsub` rounds b − a once (R49, R113). -/
theorem rsub_rounds (known : f ∈ Fmt.known) (finX : f.isFinite (f.daz md x) = true) (finY : f.isFinite (f.daz md y) = true) :
    f.Rounds md (VOp.rsub.float f md x y) (f.value (f.daz md y) - f.value (f.daz md x)) := by
  obtain ⟨m, e, readX, valueX⟩ := Fmt.read_finite known finX
  obtain ⟨n, i, readY, valueY⟩ := Fmt.read_finite known finY
  have negated : -f.value (f.daz md x) = ratOf (!f.sign x) m e := by rw [ratOf_not, valueX]
  have sum := (Fmt.addExact_rounds (f := f) (md := md) (Fmt.regular known) negated valueY).1
  rw [neg_add_eq_sub] at sum
  have eq : VOp.rsub.float f md x y = f.addVals md (.fin (!f.sign x) m e) (.fin (f.sign y) n i) := by
    rw [VOp.float, readX, readY]
    rfl
  rw [eq]
  exact sum

end

theorem Tag.live_of_varith {op : VOp} {t : Tag} (h : op.accepts t = true) : t ≠ .dead := by
  cases op with
  | add | sub | rsub | mul | min | max => exact Tag.live_of_isNumber h
  | mulh | div | rem | sadd | ssub => exact Tag.live_of_isInt h

section
variable {s : State} (f : BitVec 2) (d a b : BitVec 5) (m : BitVec 3)

/-- What VARITH runs (R113). -/
theorem varith_runs : ∀ e ∈ [(Instr.vadd f d a b m, VOp.add), (.vsub f d a b m, .sub), (.vrsub f d a b m, .rsub),
    (.vmul f d a b m, .mul), (.vmulh f d a b m, .mulh), (.vdiv f d a b m, .div), (.vrem f d a b m, .rem), (.vmin f d a b m, .min),
    (.vmax f d a b m, .max), (.vsadd f d a b m, .sadd), (.vssub f d a b m, .ssub)], exec e.1 s = varith e.2 f d a b m s := by
  simp only [List.forall_mem_cons, List.not_mem_nil, false_imp_iff, implies_true, and_true]
  exact ⟨rfl, rfl, rfl, rfl, rfl, rfl, rfl, rfl, rfl, rfl, rfl⟩

theorem varith_elementWise (ready : s.VectorReady) {i : Instr} {op : VOp} (h : exec i s = varith op f d a b m s)
    (same : f = 0 → (s.cur.getV b).tag = (s.cur.getV a).tag) (accepted : op.accepts (s.cur.getV a).tag = true)
    (fits : s.cur.Fits [(s.cur.getV a).tag]) :
    ElementWise s (exec i s) f d a b m false (s.cur.getV a).tag
      fun x y _ => op.apply (s.cur.getV a).tag (Mode.ofFmode s.fmodeHere) x y :=
  elementWise_of_same ready h same (Tag.live_of_varith accepted) (by simp [accepted]) fits

end

/-- Settles O26: each instruction completes element by element (`varith_elementWise`); on integers the results are those of integers
modulo the width or in the range of the tag, a b operand is converted to the tag, and a format's operations are one rounding. -/
theorem vectorArithmetic : Obligations.VectorArithmetic := by
  refine ⟨?_, ?_, ?_, ?_⟩
  · intro s f d a b m ready t md fits
    refine ⟨fun same e he accepted => varith_elementWise f d a b m ready (varith_runs f d a b m e he) same accepted fits,
      fun number => ⟨?_, ?_⟩⟩
    · exact elementWise_of_unary ready (show exec (.vabs d a m) s = execVabs d a m s from rfl) (Tag.live_of_isNumber number) number fits
    · exact elementWise_of_unary ready (show exec (.vneg d a m) s = execVneg d a m s from rfl) (Tag.live_of_isNumber number) number fits
  · intro t md x y int hx hy w p q
    obtain ⟨add, sub, rsub, mul⟩ := varith_modular int (md := md) hx hy
    obtain ⟨min, max⟩ := varith_minmax int (md := md) hx hy
    obtain ⟨small, abs⟩ := absElem_of_isInt int hx
    obtain ⟨sadd, clamped, ssub⟩ := varith_saturating int (md := md) (x := x) (y := y)
    obtain ⟨div, rem⟩ := VOp.divide_apply int (md := md) (x := x) (y := y)
    exact ⟨add, sub, rsub, mul, min, max, varith_mulh int hx hy, fun divides inside => (varith_divide int hx hy divides inside).1,
      fun divides inside => (varith_divide int hx hy divides inside).2, varith_divide_zero int hx, varith_divide_overflow int,
      by rw [div], by rw [rem], small, abs, negElem_of_isInt int hx, sadd, clamped, ssub⟩
  · intro h cap b t logic i bo k w e
    refine ⟨⟨rfl, rfl, rfl⟩, ?_, ?_, fun bits => ?_, fun f hf fmt plain => ?_⟩
    · rintro rfl
      have scalar := (bOperand_scalar h cap b t i true).trans (scalarElem_logic t _ _)
      exact ⟨congrArg FRes.val scalar, congrArg FRes.fl scalar⟩
    · rintro rfl
      rw [bOperand_scalar]
      exact scalarElem_takes t _ _
    · have value : e = wrap w k := immediateElem_bits bits b
      rw [value]
      exact wrap_emod w k
    · have value : e = (f.ofInt {} k).val := (congrArg (immediateElem t · b) plain).trans (immediateElem_of_fmt fmt b)
      obtain ⟨finite, near⟩ := Fmt.value_of_standsFor (Fmt.ofInt_immediate f hf b)
      rw [value]
      refine ⟨fun zero => ?_, finite, near.trans ?_⟩
      · rw [zero, Fmt.ofInt_zero]
      · unfold Fmt.nearInt
        push_cast
        rfl
  · intro t f md x y fmt
    simp only [VOp.apply_of_fmt fmt]
    refine ⟨signElems_of_fmt fmt, rfl, rfl, rfl, ?_, rfl, rfl⟩
    exact fun _ _ _ _ _ _ finX finY => rsub_rounds (Tag.known_of_fmt fmt) finX finY

end Sys2Proof.Machine
end

section
/-! Product sums of MOPA (R61): exact sums of products, on integers and on floating operands. -/

namespace Sys2Proof.Machine

/-- On integers a product sum is the sum modulo 2^32, without flags. -/
theorem mopaResult_of_isInt {ta tb : Tag} (acc : Nat) (x y : List Nat) (sa sb : Option Int) (int : ta.isInt = true) :
    let r := mopaResult ta tb acc x y sa sb
    r.fl = 0 ∧ r.val < 2 ^ 32 ∧
      ((r.val : Int) - (acc + ((x.zip y).map fun e => ta.int e.1 * tb.int e.2).sum)) % 2 ^ 32 = 0 := by
  have result : mopaResult ta tb acc x y sa sb = mopaInt acc ta tb x y := by
    unfold mopaResult
    rw [Tag.fmt_of_isInt int]
  rw [result]
  unfold mopaInt wrap
  rw [← List.sum_eq_foldl]
  dsimp only
  generalize (acc : Int) + _ = v
  refine ⟨rfl, ?_, ?_⟩ <;> omega

/-- The exact value of a decoded finite number; 0 for the others. -/
def FVal.rat : FVal → Rat
  | .fin s m e => ratOf s m e
  | _ => 0

/-- An exact sum is the sum of the values (R61). -/
theorem exactSum_value : ∀ (vs : List FVal) (a : Bool × Nat × Int),
    ratOf (exactSum a vs).1 (exactSum a vs).2.1 (exactSum a vs).2.2 = ratOf a.1 a.2.1 a.2.2 + (vs.map FVal.rat).sum
  | [], a => by simp [exactSum]
  | .fin s m e :: vs, a => by
    rw [exactSum, exactSum_value vs, (addExact_value {} a.1 a.2.1 a.2.2 s m e).1, List.map_cons, List.sum_cons, FVal.rat, add_assoc]
  | .inf _ :: vs, a => by
    rw [exactSum, exactSum_value vs, List.map_cons, List.sum_cons, FVal.rat, zero_add]
    all_goals simp
  | .nan _ _ _ _ :: vs, a => by
    rw [exactSum, exactSum_value vs, List.map_cons, List.sum_cons, FVal.rat, zero_add]
    all_goals simp

section
variable {fa fb : Fmt}

/-- The exact product of two finite patterns, scaled by a power of two (R61). -/
def Fmt.scaledProduct (fa fb : Fmt) (scale : Int) (p : Nat × Nat) : FVal :=
  .fin (fa.sign p.1 != fb.sign p.2) (fa.mant (fa.mag p.1) * fb.mant (fb.mag p.2)) (fa.expo (fa.mag p.1) + fb.expo (fb.mag p.2) + scale)

theorem Fmt.scaledProduct_rat (scale : Int) (p : Nat × Nat) :
    (fa.scaledProduct fb scale p).rat = 2 ^ scale * (fa.value p.1 * fb.value p.2) := by
  rw [Fmt.value_eq, Fmt.value_eq, ← ratOf_mul]
  show ratOf _ _ _ = _
  unfold ratOf
  rw [zpow_add₀ two_ne_zero _ scale]
  ring

theorem sum_scaledProduct (scale : Int) (l : List (Nat × Nat)) :
    ((l.map (fa.scaledProduct fb scale)).map FVal.rat).sum = 2 ^ scale * (l.map fun p => fa.value p.1 * fb.value p.2).sum := by
  rw [List.map_map, ← List.sum_map_mul_left]
  exact congrArg List.sum (List.map_congr_left fun p _ => Fmt.scaledProduct_rat scale p)

/-- A list of finite patterns decodes to finite values. -/
theorem decode_all_finite {f : Fmt} (known : f ∈ Fmt.known) {x : List Nat} (finite : x.all f.isFinite = true) :
    x.map f.decode = x.map f.finite :=
  List.map_congr_left fun e he => Fmt.decode_of_finite known (List.all_eq_true.1 finite e he)

/-- The products of finite operands are exact. -/
theorem products_finite (x y : List Nat) : (((x.map fa.finite).zip (y.map fb.finite)).map fun p => p.1.times p.2) =
    (x.zip y).map fun p => some (fa.scaledProduct fb 0 p) := by
  rw [List.zip_map, List.map_map]
  refine List.map_congr_left fun p _ => ?_
  simp only [Function.comp, Prod.map, Fmt.finite, FVal.times, Fmt.scaledProduct, Fmt.sign, add_zero]

/-- On finite values a product sum is rounded once, without UF (R61). -/
theorem mopaFloat_finite (knownA : fa ∈ Fmt.known) (knownB : fb ∈ Fmt.known) {acc : Nat} {x y : List Nat}
    (finite : Fmt.f32.isFinite acc = true) (finiteX : x.all fa.isFinite = true) (finiteY : y.all fb.isFinite = true) (scale : Int) :
    let a := exactSum (Fmt.f32.sign acc, Fmt.f32.mant (Fmt.f32.mag acc), Fmt.f32.expo (Fmt.f32.mag acc))
      ((x.zip y).map (fa.scaledProduct fb scale))
    let r := Fmt.f32.round {} a.1 a.2.1 a.2.2
    mopaFloat acc fa fb x y (some scale) = ⟨r.val, r.fl &&& ~~~flUF⟩ := by
  unfold mopaFloat
  dsimp only
  rw [decode_all_finite knownA finiteX, decode_all_finite knownB finiteY, products_finite,
    Fmt.decode_of_finite (by decide) finite]
  have products : ((x.zip y).map fun p => some (fa.scaledProduct fb 0 p)).filterMap id = (x.zip y).map (fa.scaledProduct fb 0) := by
    rw [List.filterMap_map]
    exact congrFun List.filterMap_eq_map _
  have noNan : ((Fmt.f32.finite acc :: x.map fa.finite ++ y.map fb.finite).any FVal.isNan) = false := by
    simp [Fmt.finite, FVal.isNan]
  have noInf (sign : Bool) : (Fmt.f32.finite acc :: (x.zip y).map (fa.scaledProduct fb 0)).any (FVal.isInf sign) = false := by
    simp [Fmt.finite, Fmt.scaledProduct, FVal.isInf]
  have exact_ : ((x.zip y).map fun p => some (fa.scaledProduct fb 0 p)).any Option.isNone = false := by simp
  rw [products, noNan, noInf, noInf, exact_]
  simp only [Option.isNone_some, Bool.or_self, Bool.and_self, Bool.false_eq_true, ↓reduceIte, Option.getD_some, List.map_map,
    Function.comp_def, Fmt.finite, Fmt.scaledProduct, add_zero]
  rfl

/-- Where there is a NaN among the element, the operands and the scales, the result is the default NaN (R61). -/
theorem mopaFloat_nan (knownA : fa ∈ Fmt.known) (knownB : fb ∈ Fmt.known) {acc : Nat} {x y : List Nat} {scale : Option Int}
    (nan : Fmt.f32.isNanCode acc = true ∨ x.any fa.isNanCode = true ∨ y.any fb.isNanCode = true ∨ scale = none) :
    (mopaFloat acc fa fb x y scale).val = 0x7FC00000 := by
  have decoded {f : Fmt} (known : f ∈ Fmt.known) {e : Nat} (h : f.isNanCode e = true) : (f.decode e).isNan = true := by
    rw [Fmt.decode_of_nan known h]
    rfl
  have met : (scale.isNone || (Fmt.f32.decode acc :: x.map fa.decode ++ y.map fb.decode).any FVal.isNan) = true := by
    simp only [List.any_append, List.any_cons, List.any_map, Bool.or_eq_true, List.any_eq_true, Function.comp_apply,
      Option.isNone_iff_eq_none] at nan ⊢
    rcases nan with h | ⟨e, he, h⟩ | ⟨e, he, h⟩ | h
    · exact .inr (.inl (.inl (decoded (by decide) h)))
    · exact .inr (.inl (.inr ⟨e, he, decoded knownA h⟩))
    · exact .inr (.inr ⟨e, he, decoded knownB h⟩)
    · exact .inl h
  unfold mopaFloat
  dsimp only
  rw [Bool.or_assoc, met, Bool.or_true, if_pos rfl]

end

theorem mopaResult_of_fmt {ta tb : Tag} {fa fb : Fmt} (hta : ta.fmt = some fa) (htb : tb.fmt = some fb) (acc : Nat) (x y : List Nat)
    (sa sb : Option Int) :
    mopaResult ta tb acc x y sa sb = mopaFloat acc fa fb x y (sa.bind fun p => sb.map fun q => p + q) := by
  unfold mopaResult
  rw [hta, htb]

/-- A product sum of finite operands is the one rounding of its exact value (R61). -/
theorem mopaResult_rounds {ta tb : Tag} {fa fb : Fmt} (hta : ta.fmt = some fa) (htb : tb.fmt = some fb) {acc : Nat} {x y : List Nat}
    (finite : Fmt.f32.isFinite acc = true) (finiteX : x.all fa.isFinite = true) (finiteY : y.all fb.isFinite = true)
    {p q : Int} {sign : Bool} {m : Nat} {e : Int} (nonzero : m ≠ 0)
    (value : Fmt.f32.value acc + 2 ^ (p + q) * ((x.zip y).map fun e => fa.value e.1 * fb.value e.2).sum =
      (if sign then -1 else 1) * ((m : Rat) * 2 ^ e)) :
    let r := Fmt.f32.round {} sign m e
    mopaResult ta tb acc x y (some p) (some q) = ⟨r.val, r.fl &&& ~~~flUF⟩ := by
  have sum := mopaFloat_finite (Tag.known_of_fmt hta) (Tag.known_of_fmt htb) finite finiteX finiteY (p + q)
  dsimp only at sum ⊢
  have exact_ := exactSum_value ((x.zip y).map (fa.scaledProduct fb (p + q)))
    (Fmt.f32.sign acc, Fmt.f32.mant (Fmt.f32.mag acc), Fmt.f32.expo (Fmt.f32.mag acc))
  rw [sum_scaledProduct, ← Fmt.value_eq, value] at exact_
  rw [mopaResult_of_fmt hta htb]
  refine sum.trans ?_
  rw [Fmt.rounds_round (Fmt.regular (by decide)) sign m e nonzero exact_]

end Sys2Proof.Machine
end

section
/-! Words of a tile (R138): what a write of words leaves in each. -/

namespace Sys2Proof.Machine

theorem bits_testBit (v lo len k : Nat) : (bits v lo len).testBit k = (decide (k < len) && v.testBit (lo + k)) := by
  simp [bits, Nat.testBit_mod_two_pow, Nat.testBit_shiftRight]

/-- Bits of a number after a field in it was replaced. -/
theorem insertBits_field_testBit (old off len v k : Nat) : (insertBits old off len v).testBit k =
    if k < off then old.testBit k else if k < off + len then v.testBit (k - off) else old.testBit k := by
  have split_ : insertBits old off len v = 2 ^ off * insertBits (old >>> off) 0 len v + old % 2 ^ off := by
    simp only [insertBits, Nat.shiftLeft_eq, Nat.shiftRight_add, pow_zero, Nat.mod_one, zero_add, mul_one, Nat.pow_add]
    ring
  rw [split_, Nat.testBit_two_pow_mul_add _ (Nat.mod_lt _ (Nat.two_pow_pos off))]
  split
  · next below => simp [Nat.testBit_mod_two_pow, below]
  · next above =>
    rw [insertBits_testBit, Nat.testBit_shiftRight, show off + (k - off) = k by omega]
    exact if_congr (by omega) rfl rfl

/-- A word of a number after a word in it was replaced. -/
theorem bits_insertBits_word (n p v q : Nat) :
    bits (insertBits n (32 * p) 32 v) (32 * q) 32 = if p = q then v % 2 ^ 32 else bits n (32 * q) 32 := by
  apply Nat.eq_of_testBit_eq
  intro k
  rw [bits_testBit, insertBits_field_testBit]
  by_cases hk : k < 32
  · by_cases e : p = q
    · subst e
      rw [if_neg (by omega), if_pos (by omega), if_pos rfl, Nat.testBit_mod_two_pow, show 32 * p + k - 32 * p = k by omega]
    · rw [if_neg e, bits_testBit]
      by_cases below : 32 * q + k < 32 * p
      · rw [if_pos below]
      · rw [if_neg below, if_neg (by omega)]
  · rw [decide_eq_false hk, Bool.false_and]
    split
    · rw [Nat.testBit_mod_two_pow, decide_eq_false hk, Bool.false_and]
    · rw [bits_testBit, decide_eq_false hk, Bool.false_and]

/-- The words of a number after several were replaced, each by what a function gives for its place. -/
theorem bits_putWords (f : Nat → Nat) (q : Nat) : ∀ (ws : List (Nat × Nat)), (∀ w ∈ ws, w.2 = f w.1) → ∀ n,
    bits (ws.foldl (fun n w => insertBits n (32 * w.1) 32 w.2) n) (32 * q) 32 =
      if q ∈ ws.map Prod.fst then f q % 2 ^ 32 else bits n (32 * q) 32
  | [], _, n => by simp
  | w :: ws, hf, n => by
    rw [List.foldl_cons, bits_putWords f q ws (fun w hw => hf w (List.mem_cons_of_mem _ hw)), bits_insertBits_word,
      hf w List.mem_cons_self]
    by_cases later : q ∈ ws.map Prod.fst
    · simp [later]
    · by_cases e : w.1 = q
      · simp [e]
      · simp [later, e, Ne.symm e]

/-- A field within the width is that of the number. -/
theorem bits_ofNat {width off len : Nat} (h : off + len ≤ width) (n : Nat) :
    bits (BitVec.ofNat width n).toNat off len = bits n off len := by
  apply Nat.eq_of_testBit_eq
  intro k
  rw [bits_testBit, bits_testBit, BitVec.toNat_ofNat, Nat.testBit_mod_two_pow]
  by_cases hk : k < len
  · simp only [hk, show off + k < width by omega, decide_true, Bool.true_and]
  · simp [hk]

/-- The words of a tile after several were written. -/
theorem Tile.put_word (t : Tile) {ws : List (Nat × Nat)} {f : Nat → Nat} (hf : ∀ w ∈ ws, w.2 = f w.1) (tag : TileTag) {q : Nat}
    (hq : q < 4096) : bits (t.put ws tag).img.toNat (32 * q) 32 =
      if q ∈ ws.map Prod.fst then f q % 2 ^ 32 else bits t.img.toNat (32 * q) 32 :=
  (bits_ofNat (by omega) _).trans (bits_putWords f q ws hf _)

@[simp] theorem Tile.put_tag (t : Tile) (ws : List (Nat × Nat)) (tag : TileTag) : (t.put ws tag).tag = tag := rfl

/-- The elements of a tile after several were written. -/
theorem Tile.put_at (t : Tile) {ws : List (Nat × Nat)} {f : Nat → Nat} (hf : ∀ w ∈ ws, w.2 = f w.1) (tag : TileTag) {i j : Nat}
    (hi : i < 64) (hj : j < 64) :
    (t.put ws tag).at_ i j = if 64 * i + j ∈ ws.map Prod.fst then f (64 * i + j) % 2 ^ 32 else t.at_ i j :=
  t.put_word hf tag (by omega)

/-- Without an error in any tile a write of elements is a write of the tile (R389). -/
theorem Hart.putT_sound {h : Hart} (sound : h.tbad = []) (t : BitVec 4) (ws : List (Nat × Nat)) (tag : TileTag) :
    h.putT t ws tag = h.setT t ((h.getT t).put ws tag) := by
  unfold Hart.putT Hart.setT
  simp [sound]

/-- A tile written with what it holds. -/
theorem Hart.setT_getT {h : Hart} (sound : h.tbad = []) (t : BitVec 4) : h.setT t (h.getT t) = h := by
  unfold Hart.setT Hart.getT
  rw [Vector.set_getElem_self, sound, List.filter_nil, ← sound]

end Sys2Proof.Machine
end

section
/-! Matrix mode entered and left, and rows and columns of tiles moved (R143-R145, R153). -/

namespace Sys2Proof.Machine

/-- Under a tag of the tile itself every element has its own mask bit (R153). -/
theorem tileTag_active (tag : TileTag) (mask : BitVec 2048) {j : Nat} (hj : j < 64) :
    activeAt (tag.tag == .e2m1) 64 mask j = mask.getLsbD j := by
  have plain : (tag.tag == .e2m1) = false := by cases tag <;> rfl
  simp only [activeAt, plain, Bool.false_eq_true, ↓reduceIte, hj, decide_true, Bool.true_and]

section
variable {s : State}

/-! The checks pass -/

theorem settled_of_written (written : s.pendingGroups s.cur.uid = []) (regs : List (BitVec 5)) : settled regs s = .ok () s := by
  have calm : (s.pendingGroups s.cur.uid).any (fun p => regs.any fun r => p.1 == r.toNat) = false := by rw [written]; rfl
  show (if (s.pendingGroups s.cur.uid).any (fun p => regs.any fun r => p.1 == r.toNat) then stall else pure ()) s = _
  rw [calm]
  rfl

theorem allSettled_of_written (written : s.pendingGroups s.cur.uid = []) : allSettled s = .ok () s := by
  show (if !(s.pendingGroups s.cur.uid).isEmpty then stall else pure ()) s = _
  rw [written]
  rfl

/-- Registers below v24 are no operand latches (R142). -/
theorem notLatches_of_low {regs : List (BitVec 5)} (low : ∀ r ∈ regs, r.toNat < 24) : notLatches regs s = .ok () s := by
  have free : (regs.any fun r => decide (24 ≤ r.toNat)) = false :=
    List.any_eq_false.2 fun r hr => by simpa using low r hr
  exact need_of (by rw [free, Bool.and_false]; rfl) _ s

section
variable (ready : s.MatrixReady)
include ready

theorem State.MatrixReady.clean : s.cur.clean = true := by
  simp only [Hart.clean, ready.vectors, ready.masks, ready.tiles, List.isEmpty_nil, Bool.and_self]

theorem soundBelow_of_matrix (n : Nat) (bad : Hart → Nat → Bool) : soundBelow n bad s = .ok () s := by
  have calm : s.cur.lowestBad n (bad s.cur) = none := if_pos ready.clean
  refine (curHart_bind _).trans ?_
  rw [calm]
  rfl

theorem mmovChecks_ok {v : BitVec 5} {tagsOk : Bool} (low : v.toNat < 24) (holds : tagsOk = true) : mmovChecks v tagsOk s = .ok () s :=
  (curHart_bind _).trans ((bind_ok (need_of ready.mode _ s)).trans
    ((bind_ok (notLatches_of_low fun r hr => by rwa [List.mem_singleton.1 hr])).trans (need_of holds _ s)))

/-! Rows and columns of a tile (R153) -/

/-- A row or a column of a tile comes into a register (R153). -/
theorem mread_done (row : Bool) (t : BitVec 4) {a : BitVec 5} (b : BitVec 5) (m : BitVec 3) {tagsOk : Bool} (res : Tag)
    (convert : Nat → FRes) (low : a.toNat < 24) (holds : tagsOk = true) :
    VectorDone s (finish (mmovChecks a tagsOk >>= fun _ => mread row t a b m res convert) s) a res 64
      (fun j => if activeAt (res == .e2m1) 64 (s.cur.getM m) j then
        some (if (s.x b).toNat < 64 then
          convert (if row then (s.cur.getT t).at_ (s.x b).toNat j else (s.cur.getT t).at_ j (s.x b).toNat) else ⟨0, 0⟩)
        else none) 0 := by
  have done := writeVector_done s ready.vectors a res 64 (fun j => if activeAt (res == .e2m1) 64 (s.cur.getM m) j then
    some (if 64 ≤ (s.x b).toNat then ⟨0, 0⟩
      else convert (if row then (s.cur.getT t).at_ (s.x b).toNat j else (s.cur.getT t).at_ j (s.x b).toNat)) else none) 0
  rw [ite_self] at done
  have computes : (mmovChecks a tagsOk >>= fun _ => mread row t a b m res convert) s = _ :=
    (bind_ok (mmovChecks_ok ready low holds)).trans
      ((bind_ok (settled_of_written ready.written _)).trans (bind_ok (soundBelow_of_matrix ready _ _)))
  rw [finish_congr computes]
  exact done.congr fun j _ => by simp only [← Nat.not_lt, ite_not]

/-- `mrow` and `mcol` complete with the words of a row or a column (R153). -/
theorem mread_words_done (row : Bool) (t : BitVec 4) {a : BitVec 5} (b : BitVec 5) (m : BitVec 3) (low : a.toNat < 24)
    (live : (s.cur.getT t).tag ≠ .dead) :
    VectorDone s (finish (mmovChecks a ((s.cur.getT t).tag != .dead) >>= fun _ =>
        mread row t a b m (s.cur.getT t).tag.tag fun x => ⟨x, 0⟩) s) a (s.cur.getT t).tag.tag 64
      (fun j => if (s.cur.getM m).getLsbD j then
        some ⟨if (s.x b).toNat < 64 then
          (if row then (s.cur.getT t).at_ (s.x b).toNat j else (s.cur.getT t).at_ j (s.x b).toNat) else 0, 0⟩ else none) 0 := by
  refine (mread_done ready row t b m _ _ low (bne_iff_ne.2 live)).congr fun j hj => ?_
  rw [tileTag_active _ _ hj]
  split <;> [split; skip] <;> rfl

end

/-- Where a write to row or column `k` of a tile takes element (i, j) from, if it writes it (R153). -/
def lineSource (row : Bool) (k i j : Nat) : Option Nat :=
  if row then (if i = k then some j else none) else if j = k then some i else none

theorem mem_line {row : Bool} {k i j : Nat} {on : Nat → Bool} (hk : k < 64) (hi : i < 64) (hj : j < 64) :
    64 * i + j ∈ ((upTo 64).filter on).map (lineElem row k) ↔ ∃ e, lineSource row k i j = some e ∧ on e = true := by
  unfold lineSource lineElem upTo
  simp only [List.mem_map, List.mem_filter, List.mem_range]
  cases row
  · constructor
    · rintro ⟨e, ⟨he, hon⟩, place⟩
      simp only [Bool.false_eq_true, ↓reduceIte] at place ⊢
      obtain ⟨rfl, rfl⟩ : e = i ∧ j = k := by omega
      exact ⟨e, if_pos rfl, hon⟩
    · rintro ⟨e, source, hon⟩
      simp only [Bool.false_eq_true, ↓reduceIte, Option.ite_none_right_eq_some, Option.some.injEq] at source ⊢
      obtain ⟨rfl, rfl⟩ := source
      exact ⟨i, ⟨hi, hon⟩, rfl⟩
  · constructor
    · rintro ⟨e, ⟨he, hon⟩, place⟩
      simp only [↓reduceIte] at place ⊢
      obtain ⟨rfl, rfl⟩ : e = j ∧ i = k := by omega
      exact ⟨e, if_pos rfl, hon⟩
    · rintro ⟨e, source, hon⟩
      simp only [↓reduceIte, Option.ite_none_right_eq_some, Option.some.injEq] at source ⊢
      obtain ⟨rfl, rfl⟩ := source
      exact ⟨j, ⟨hj, hon⟩, rfl⟩

/-- A register of 32-bit elements, as `mputr` and `mputc` take it (R153). -/
theorem elem_lt_of_word {v : VReg} (word : v.tag.width = 32) (i : Nat) : v.elem i < 2 ^ 32 := by
  unfold VReg.elem elemOf bits
  rw [word]
  exact Nat.mod_lt _ (Nat.two_pow_pos 32)

/-- The tile after a row or a column of it was written from a register (R153). -/
def lineWritten (row : Bool) (tile : Tile) (v : VReg) (k : Nat) (on : Nat → Bool) : Tile :=
  if k < 64 then
    tile.put (((upTo 64).filter on).map fun j => (lineElem row k j, v.elem j)) (if v.tag = .f32 then .f32 else .i32)
  else tile

theorem lineWritten_at (row : Bool) (tile : Tile) {v : VReg} (word : v.tag.width = 32) (k : Nat) (on : Nat → Bool) {i j : Nat}
    (hi : i < 64) (hj : j < 64) : (lineWritten row tile v k on).at_ i j = match lineSource row k i j with
      | some e => if on e then v.elem e else tile.at_ i j
      | none => tile.at_ i j := by
  unfold lineWritten
  split
  · next hk =>
    have value : ∀ w ∈ ((upTo 64).filter on).map (fun j => (lineElem row k j, v.elem j)),
        w.2 = v.elem (if row then w.1 % 64 else w.1 / 64) := by
      intro w hw
      obtain ⟨e, he, rfl⟩ := List.mem_map.1 hw
      have small : e < 64 := List.mem_range.1 (List.mem_filter.1 he).1
      refine congrArg v.elem ?_
      unfold lineElem
      cases row
      · simp only [Bool.false_eq_true, ↓reduceIte]
        omega
      · simp only [↓reduceIte]
        omega
    have places : (((upTo 64).filter on).map fun j => (lineElem row k j, v.elem j)).map Prod.fst =
        ((upTo 64).filter on).map (lineElem row k) := List.map_map
    rw [tile.put_at (f := fun q => v.elem (if row then q % 64 else q / 64)) value _ hi hj, places]
    simp only [mem_line hk hi hj]
    cases source : lineSource row k i j with
    | none => simp
    | some e =>
      have place : (if row then (64 * i + j) % 64 else (64 * i + j) / 64) = e := by
        unfold lineSource at source
        cases row
        · simp only [Bool.false_eq_true, ↓reduceIte, Option.ite_none_right_eq_some, Option.some.injEq] at source ⊢
          omega
        · simp only [↓reduceIte, Option.ite_none_right_eq_some, Option.some.injEq] at source ⊢
          omega
      rw [place, Nat.mod_eq_of_lt (elem_lt_of_word word e)]
      simp
  · next beyond =>
    have none_ : lineSource row k i j = none := by
      have row_ : i ≠ k := by omega
      have column : j ≠ k := by omega
      unfold lineSource
      rw [if_neg row_, if_neg column, ite_self]
    rw [none_]

/-- `mputr` and `mputc` complete with the tile so written (R153). -/
theorem mwrite_completes (ready : s.MatrixReady) (row : Bool) (t : BitVec 4) {a : BitVec 5} (b : BitVec 5) (m : BitVec 3)
    (low : a.toNat < 24) (live : (s.cur.getT t).tag ≠ .dead) (source : (s.cur.getV a).tag ∈ [Tag.f32, .i32, .n32]) :
    Completes s (mwrite row t a b m s) (s.cur.pc + 4)
      (s.cur.setT t (lineWritten row (s.cur.getT t) (s.cur.getV a) (s.x b).toNat (s.cur.getM m).getLsbD)) := by
  have tags : ((s.cur.getT t).tag != .dead && ((s.cur.getV a).tag == .f32 || (s.cur.getV a).tag == .i32 || (s.cur.getV a).tag == .n32)) =
      true := by
    simp only [List.mem_cons, List.not_mem_nil, or_false] at source
    simp only [Bool.and_eq_true, bne_iff_ne, Bool.or_eq_true, beq_iff_eq, or_assoc]
    exact ⟨live, source⟩
  have done := completes_retireVector (s := s)
    (s.cur.setT t (lineWritten row (s.cur.getT t) (s.cur.getV a) (s.x b).toNat (s.cur.getM m).getLsbD))
  rw [Hart.setT_pc] at done
  unfold mwrite
  refine Eq.subst (motive := fun o => Completes s o (s.cur.pc + 4) _) (Eq.symm ?_) done
  refine finish_ok ((bind_ok (mmovChecks_ok ready low tags)).trans ((bind_ok (settled_of_written ready.written _)).trans ?_))
  unfold lineWritten
  dsimp only
  split
  · refine (bind_ok (soundBelow_of_matrix ready _ _)).trans ?_
    rw [← Hart.putT_sound ready.tiles]
    rfl
  · rw [Hart.setT_getT ready.tiles]
    rfl

end

/-! MCTL (R143-R145) -/

theorem getT_setTiles (f : Nat → Tile) (r : BitVec 4) : ∀ (is : List Nat), (∀ i ∈ is, i < 16) → ∀ h : Hart,
    (is.foldl (fun h i => h.setT (BitVec.ofNat 4 i) (f i)) h).getT r = if r.toNat ∈ is then f r.toNat else h.getT r
  | [], _, h => by simp
  | i :: is, small, h => by
    have hi : (BitVec.ofNat 4 i).toNat = i := Nat.mod_eq_of_lt (small i List.mem_cons_self)
    rw [List.foldl_cons, getT_setTiles f r is fun i hi => small i (List.mem_cons_of_mem _ hi)]
    by_cases e : r = BitVec.ofNat 4 i
    · subst e
      rw [Hart.getT_setT_same, hi]
      simp
    · have ne : r.toNat ≠ i := fun same => e (BitVec.eq_of_toNat_eq (same.trans hi.symm))
      rw [Hart.getT_setT_other h e]
      simp [ne]

theorem getV_setVectors (v : VReg) (r : BitVec 5) : ∀ (is : List Nat), (∀ i ∈ is, i < 32) → ∀ h : Hart,
    (is.foldl (fun h i => h.setV (BitVec.ofNat 5 i) v) h).getV r = if r.toNat ∈ is then v else h.getV r
  | [], _, h => by simp
  | i :: is, small, h => by
    have hi : (BitVec.ofNat 5 i).toNat = i := Nat.mod_eq_of_lt (small i List.mem_cons_self)
    rw [List.foldl_cons, getV_setVectors v r is fun i hi => small i (List.mem_cons_of_mem _ hi)]
    by_cases e : r = BitVec.ofNat 5 i
    · subst e
      rw [Hart.getV_setV_same, hi]
      simp
    · have ne : r.toNat ≠ i := fun same => e (BitVec.eq_of_toNat_eq (same.trans hi.symm))
      rw [Hart.getV_setV_other h e]
      simp [ne]

/-- What `menter` makes of the registers: v24 to v31 dead, tiles bound or dead (R143). -/
def Hart.bindTiles (n : BitVec 4) (h : Hart) : Hart :=
  (upTo 16).foldl (fun h i => h.setT (BitVec.ofNat 4 i) { tag := if i ≤ n.toNat then .f32 else .dead })
    ((upTo 8).foldl (fun h i => h.setV (BitVec.ofNat 5 (24 + i)) {}) h)

theorem setTiles_v (f : Nat → Tile) (is : List Nat) (h : Hart) :
    (is.foldl (fun h i => h.setT (BitVec.ofNat 4 i) (f i)) h).v = h.v :=
  foldl_kept (fun h i => h.setT (BitVec.ofNat 4 i) (f i)) (fun g : Hart => g.v = h.v) (fun _ _ e => e) is h rfl

theorem Hart.bindTiles_frame (n : BitVec 4) (h : Hart) :
    ∃ v b t c, h.bindTiles n = { h with v := v, vbad := b, tiles := t, tbad := c } := by
  have kept {α : Type} (f : Hart → α → Hart)
      (hf : ∀ g a, ∃ v b t c, f g a = { g with v := v, vbad := b, tiles := t, tbad := c }) (is : List α) (g : Hart)
      (start : ∃ v b t c, g = { h with v := v, vbad := b, tiles := t, tbad := c }) :
      ∃ v b t c, is.foldl f g = { h with v := v, vbad := b, tiles := t, tbad := c } :=
    foldl_kept f (fun g => ∃ v b t c, g = { h with v := v, vbad := b, tiles := t, tbad := c }) (fun g a hg => by
      obtain ⟨v, b, t, c, e⟩ := hf g a
      obtain ⟨v', b', t', c', rfl⟩ := hg
      exact ⟨v, b, t, c, e⟩) is g start
  exact kept _ (fun _ _ => ⟨_, _, _, _, rfl⟩) _ _ (kept _ (fun _ _ => ⟨_, _, _, _, rfl⟩) _ _ ⟨_, _, _, _, rfl⟩)

theorem Hart.getT_bindTiles (n : BitVec 4) (h : Hart) (i : BitVec 4) :
    (h.bindTiles n).getT i = { img := 0, tag := if i.toNat ≤ n.toNat then .f32 else .dead } := by
  unfold Hart.bindTiles
  rw [getT_setTiles (fun i => { tag := if i ≤ n.toNat then .f32 else .dead }) i (upTo 16) fun i hi => List.mem_range.1 hi,
    if_pos (show i.toNat ∈ upTo 16 from List.mem_range.2 i.isLt)]

theorem Hart.getV_bindTiles (n : BitVec 4) (h : Hart) (r : BitVec 5) :
    (h.bindTiles n).getV r = if 24 ≤ r.toNat then { img := 0, tag := .dead } else h.getV r := by
  have latches := getV_setVectors {} r [24, 25, 26, 27, 28, 29, 30, 31] (by decide) h
  have member : r.toNat ∈ [24, 25, 26, 27, 28, 29, 30, 31] ↔ 24 ≤ r.toNat := by
    have := r.isLt
    simp only [List.mem_cons, List.not_mem_nil, or_false]
    omega
  rw [if_congr member rfl rfl] at latches
  unfold Hart.bindTiles
  unfold Hart.getV at latches ⊢
  rw [setTiles_v (fun i => { tag := if i ≤ n.toNat then .f32 else .dead })]
  exact latches

/-- The hart in matrix mode (R143). -/
def Hart.enterMatrix (n : BitVec 4) (h : Hart) : Hart :=
  let h := h.bindTiles n
  { h with
    vlen := 64 * h.ltag.depth, vlmax := 64 * h.ltag.depth, bound := n.toNat + 1
    status := { h.status with matrix := true } }

section
variable {s : State}

/-- A meaning that makes checks, changes the hart in front and completes. -/
theorem completes_of_modCur {m : M Unit} {f : Hart → Hart} (h : m s = (modCur f >>= fun _ => retireM) s)
    (pc : (f s.cur).pc = s.cur.pc) : Completes s (finish m s) (s.cur.pc + 4) (f s.cur) := by
  have done := completes_retire s (f s.cur)
  rw [pc] at done
  rwa [finish_ok (h.trans (show _ = EStateM.Result.ok () ({ s with cur := f s.cur } : State).retire from rfl))]

/-- `menter` enters matrix mode (R143). -/
theorem menter_completes {n : BitVec 4} (free : s.cur.status.matrix = false) (lanes : s.cur.granted = true)
    (tiles : n.toNat + 1 ≤ (s.recordOf s.cur).ntile) (operand : s.cur.ltag.isOperand = true)
    (written : s.pendingGroups s.cur.uid = []) :
    Completes s (execMenter n s) (s.cur.pc + 4) { s.cur with
      v := (s.cur.bindTiles n).v, vbad := (s.cur.bindTiles n).vbad, tiles := (s.cur.bindTiles n).tiles
      tbad := (s.cur.bindTiles n).tbad, bound := n.toNat + 1, vlen := 64 * s.cur.ltag.depth, vlmax := 64 * s.cur.ltag.depth
      status := { s.cur.status with matrix := true } } := by
  obtain ⟨v, b, t, c, e⟩ := s.cur.bindTiles_frame n
  have pc : (s.cur.enterMatrix n).pc = s.cur.pc := by rw [Hart.enterMatrix, e]
  have done : Completes s (execMenter n s) (s.cur.pc + 4) (s.cur.enterMatrix n) := completes_of_modCur
    ((bind_ok (need_of (ok := !s.cur.status.matrix) (by rw [free]; rfl) _ s)).trans
      ((bind_ok (need_of lanes _ s)).trans ((bind_ok (need_of (decide_eq_true tiles) _ s)).trans
        ((bind_ok (need_of operand _ s)).trans (bind_ok (allSettled_of_written written)))))) pc
  rw [Hart.enterMatrix, e] at done
  rwa [e]

/-- `mexit` gives the tiles up (R144). -/
theorem mexit_completes (mode : s.cur.status.matrix = true) : Completes s (execMexit s) (s.cur.pc + 4) { s.cur with
    tiles := Vector.replicate 16 { img := 0, tag := .dead }, tbad := [], bound := 0, vlen := 0, vlmax := 0, ltag := .dead
    status := { s.cur.status with matrix := false } } :=
  completes_of_modCur (f := fun h => { h with
    tiles := Vector.replicate 16 {}, tbad := [], bound := 0, vlen := 0, vlmax := 0, ltag := .dead
    status := { h.status with matrix := false } }) (bind_ok (need_of mode _ s)) rfl

/-- `mzero` clears a tile (R145). -/
theorem mzero_completes (mode : s.cur.status.matrix = true) {t : BitVec 4} (live : (s.cur.getT t).tag ≠ .dead) :
    Completes s (execMzero t s) (s.cur.pc + 4) (s.cur.setT t { img := 0, tag := .f32 }) :=
  completes_of_modCur (f := fun h => h.setT t { tag := .f32 })
    ((bind_ok (need_of mode _ s)).trans (bind_ok (need_of (bne_iff_ne.2 live) _ s))) rfl

end

end Sys2Proof.Machine
end

section
/-! One repetition of a MOPA (R148, R151, R152): its checks, its results, and the state that it leaves. -/

namespace Sys2Proof.Machine

/-! Results -/

theorem getLsbD_orFlags (l : List (BitVec 6)) (n : Nat) : (orFlags l).getLsbD n = l.any fun fl => fl.getLsbD n := by
  have fold : ∀ (l : List (BitVec 6)) (a : BitVec 6),
      (l.foldl (· ||| ·) a).getLsbD n = (a.getLsbD n || l.any fun fl => fl.getLsbD n) := by
    intro l
    induction l with
    | nil => simp
    | cons fl l ih =>
      intro a
      rw [List.foldl_cons, ih, BitVec.getLsbD_or, List.any_cons, Bool.or_assoc]
  exact (fold l 0).trans (by simp)

section
variable {tile : Tile} {m : BitVec 2048} {ta tb : Tag} {as bs : List Nat} {sa sb : Nat → Option Int}

theorem repetition_eq : repetition tile m ta tb as bs sa sb =
    ((upTo 64).filter m.getLsbD).flatMap fun i => ((upTo 64).filter fun j => m.getLsbD (64 + j)).map fun j =>
      (64 * i + j, mopaResult ta tb (tile.at_ i j) (rowElems ta (as.getD i 0)) (rowElems tb (bs.getD j 0)) (sa i) (sb j)) := by
  unfold repetition mopaResult
  refine List.flatMap_congr fun i _ => List.map_congr_left fun j _ => ?_
  cases sa i <;> cases sb j <;> rfl

/-- The elements of a repetition are those that the mask enables, each with its product sum (R148). -/
theorem mem_repetition {w : Nat × FRes} : w ∈ repetition tile m ta tb as bs sa sb ↔
    ∃ i j, i < 64 ∧ j < 64 ∧ (m.getLsbD i && m.getLsbD (64 + j)) = true ∧
      w = (64 * i + j, mopaResult ta tb (tile.at_ i j) (rowElems ta (as.getD i 0)) (rowElems tb (bs.getD j 0)) (sa i) (sb j)) := by
  rw [repetition_eq]
  unfold upTo
  simp only [List.mem_flatMap, List.mem_map, List.mem_filter, List.mem_range, Bool.and_eq_true]
  constructor
  · rintro ⟨i, ⟨hi, row⟩, j, ⟨hj, column⟩, rfl⟩
    exact ⟨i, j, hi, hj, ⟨row, column⟩, rfl⟩
  · rintro ⟨i, j, hi, hj, ⟨row, column⟩, rfl⟩
    exact ⟨i, ⟨hi, row⟩, j, ⟨hj, column⟩, rfl⟩

theorem repetition_flags (n : Nat) :
    (orFlags ((repetition tile m ta tb as bs sa sb).map fun r => r.2.fl)).getLsbD n = true ↔
      ∃ i j, i < 64 ∧ j < 64 ∧ (m.getLsbD i && m.getLsbD (64 + j)) = true ∧
        (mopaResult ta tb (tile.at_ i j) (rowElems ta (as.getD i 0)) (rowElems tb (bs.getD j 0)) (sa i) (sb j)).fl.getLsbD n = true := by
  rw [getLsbD_orFlags, List.any_eq_true]
  constructor
  · rintro ⟨fl, hfl, raised⟩
    obtain ⟨w, hw, rfl⟩ := List.mem_map.1 hfl
    obtain ⟨i, j, hi, hj, on, rfl⟩ := mem_repetition.1 hw
    exact ⟨i, j, hi, hj, on, raised⟩
  · rintro ⟨i, j, hi, hj, on, raised⟩
    exact ⟨_, List.mem_map_of_mem (mem_repetition.2 ⟨i, j, hi, hj, on, rfl⟩), raised⟩

/-- The tile after a repetition (R148). -/
theorem repetition_at (tag : TileTag) {i j : Nat} (hi : i < 64) (hj : j < 64) :
    (tile.put ((repetition tile m ta tb as bs sa sb).map fun r => (r.1, r.2.val)) tag).at_ i j =
      if m.getLsbD i && m.getLsbD (64 + j) then
        (mopaResult ta tb (tile.at_ i j) (rowElems ta (as.getD i 0)) (rowElems tb (bs.getD j 0)) (sa i) (sb j)).val % 2 ^ 32
      else tile.at_ i j := by
  let value (i j : Nat) : Nat :=
    (mopaResult ta tb (tile.at_ i j) (rowElems ta (as.getD i 0)) (rowElems tb (bs.getD j 0)) (sa i) (sb j)).val
  have values : ∀ w ∈ (repetition tile m ta tb as bs sa sb).map (fun r => (r.1, r.2.val)), w.2 = value (w.1 / 64) (w.1 % 64) := by
    intro w hw
    obtain ⟨r, hr, rfl⟩ := List.mem_map.1 hw
    obtain ⟨i, j, hi, hj, -, rfl⟩ := mem_repetition.1 hr
    dsimp only
    rw [show (64 * i + j) / 64 = i by omega, show (64 * i + j) % 64 = j by omega]
  have places : 64 * i + j ∈ ((repetition tile m ta tb as bs sa sb).map fun r => (r.1, r.2.val)).map Prod.fst ↔
      (m.getLsbD i && m.getLsbD (64 + j)) = true := by
    rw [List.map_map, List.mem_map]
    constructor
    · rintro ⟨r, hr, place⟩
      obtain ⟨i', j', hi', hj', on, rfl⟩ := mem_repetition.1 hr
      obtain ⟨rfl, rfl⟩ : i' = i ∧ j' = j := by
        simp only [Function.comp_apply] at place
        omega
      exact on
    · exact fun on => ⟨_, mem_repetition.2 ⟨i, j, hi, hj, on, rfl⟩, rfl⟩
  rw [tile.put_at (f := fun q => value (q / 64) (q % 64)) values tag hi hj, if_congr places rfl rfl]
  rw [show (64 * i + j) / 64 = i by omega, show (64 * i + j) % 64 = j by omega]

end

/-! What a repetition leaves alone -/

theorem Hart.unseen_seenBy (pa n : Nat) (h : Hart) : (h.seenBy pa n).unseen = h.unseen := by
  unfold Hart.seenBy Hart.unseen
  simp only [List.map_map, Function.comp_def]

section
variable {s : State}

/-- The hart of a read of window rows differs in what it may still read early alone (R190). -/
theorem MopaOperand.settles_frame (o : MopaOperand) (s : State) (k : Nat) (h : Hart) :
    ∃ e, o.settles s k h = { h with early := e } := by
  unfold MopaOperand.settles
  split
  · exact ⟨_, rfl⟩
  · split
    · exact ⟨_, rfl⟩
    · exact foldl_kept _ (fun g : Hart => ∃ e, g = { h with early := e }) (fun g i hg => by
        obtain ⟨e, rfl⟩ := hg
        exact ⟨_, rfl⟩) _ h ⟨_, rfl⟩

theorem MopaOperand.settles_both (A B : MopaOperand) (s : State) (k : Nat) (h : Hart) :
    ∃ e, B.settles s k (A.settles s k h) = { h with early := e } := by
  obtain ⟨e, eA⟩ := A.settles_frame s k h
  obtain ⟨e', eB⟩ := B.settles_frame s k (A.settles s k h)
  exact ⟨e', by rw [eB, eA]⟩

/-- The other harts are as before but for who may know of their stores (R197). -/
theorem State.seenRows_frame (s : State) (o : MopaOperand) (k : Nat) :
    ∃ r, s.seenRows o k = { s with rest := r } ∧ r.map Hart.unseen = s.rest.map Hart.unseen := by
  unfold State.seenRows
  split
  · exact ⟨_, rfl, rfl⟩
  · split
    · exact ⟨_, rfl, rfl⟩
    · refine foldl_kept _ (fun t : State => ∃ r, t = { s with rest := r } ∧ r.map Hart.unseen = s.rest.map Hart.unseen)
        (fun t i ht => ?_) _ s ⟨_, rfl, rfl⟩
      obtain ⟨r, rfl, same⟩ := ht
      refine ⟨_, rfl, Eq.trans ?_ same⟩
      rw [List.map_map]
      exact List.map_congr_left fun h _ => Hart.unseen_seenBy _ _ h

/-- An issued repetition changes the hart's accounts and the matrix unit's (R156, R377). -/
theorem State.countRep_frame (s : State) {c : RepClass} (issues : c ≠ .held) :
    ∃ a f i, s.countRep c = { s with cur := { s.cur with tide := a }, freeReps := f, issued := i } := by
  unfold State.countRep
  dsimp only
  rw [if_neg issues]
  split <;> exact ⟨_, _, _, rfl⟩

/-! The checks (R151) -/

/-- A tile-buffer operand that passes checks 4 and 5 of R151. -/
def MopaOperand.Inside (o : MopaOperand) (rep size : Nat) : Prop :=
  match o.src with
  | .inl _ => True
  | .inr x => x.base % 64 = 0 ∧ x.rowPitch % 4 = 0 ∧ ∀ q r, q ≤ rep → r < 64 → x.row (o.at_ q) r + 4 ≤ size

theorem MopaOperand.Inside.aligned_ok {o : MopaOperand} {rep size : Nat} (inside : o.Inside rep size) (s : State) :
    o.aligned s = .ok () s := by
  obtain ⟨src, latched, mx⟩ := o
  cases src with
  | inl v => rfl
  | inr d =>
    obtain ⟨base, pitch, -⟩ := inside
    unfold MopaOperand.aligned
    simp only [base, pitch, need, beq_self_eq_true, ↓reduceIte]
    rfl

theorem MopaOperand.Inside.offsets_inside {o : MopaOperand} {rep size : Nat} (inside : o.Inside rep size) :
    ∀ e ∈ o.offsets rep, e + 4 ≤ size := by
  obtain ⟨src, latched, mx⟩ := o
  cases src with
  | inl v => exact fun e he => by cases he
  | inr d =>
    intro e he
    obtain ⟨q, hq, he⟩ := List.mem_flatMap.1 he
    obtain ⟨r, hr, rfl⟩ := List.mem_map.1 he
    exact inside.2.2 q r (Nat.lt_succ_iff.1 (List.mem_range.1 hq)) (List.mem_range.1 hr)

/-- The operands and tiles of a MOPA that passes R151. -/
structure State.MopaFits (s : State) (t : BitVec 4) (rep : Nat) (A B : MopaOperand) : Prop where
  low : ∀ r ∈ A.regs rep ++ B.regs rep, r.toNat < 24
  bound : t.toNat + rep < s.cur.bound
  insideA : A.Inside rep (s.allocation s.cur).2
  insideB : B.Inside rep (s.allocation s.cur).2
  tags : ∀ q, q ≤ rep → tagsMeet (s.cur.operandTag A q) (s.cur.operandTag B q) = true ∧
    (A.mx = true → (s.cur.operandTag A q).isScaled = true ∧ (s.cur.operandTag B q).isScaled = true)
  scales : s.cur.scalesOk A rep = true ∧ s.cur.scalesOk B rep = true

/-- Without `.mx` there are no scales to check (R149). -/
theorem Hart.scalesOk_of_plain {o : MopaOperand} (plain : o.mx = false) (h : Hart) (rep : Nat) : h.scalesOk o rep = true := by
  obtain ⟨src, latched, mx⟩ := o
  obtain rfl : mx = false := plain
  cases src <;> rfl

theorem mopaChecks_ok (ready : s.MatrixReady) {t : BitVec 4} {rep : Nat} {A B : MopaOperand} (fits : s.MopaFits t rep A B) :
    mopaChecks t rep A B s = .ok () s := by
  have tags : ((upTo (rep + 1)).all fun k => tagsMeet (s.cur.operandTag A k) (s.cur.operandTag B k) &&
      (!A.mx || ((s.cur.operandTag A k).isScaled && (s.cur.operandTag B k).isScaled))) = true := by
    refine List.all_eq_true.2 fun q hq => ?_
    obtain ⟨meet, scaled⟩ := fits.tags q (Nat.lt_succ_iff.1 (List.mem_range.1 hq))
    cases mx : A.mx with
    | false => rw [meet]; rfl
    | true => rw [meet, (scaled mx).1, (scaled mx).2]; rfl
  have outside : (A.offsets rep ++ B.offsets rep).filter (fun e => decide ((s.allocation s.cur).2 < e + 4)) = [] := by
    refine List.filter_eq_nil_iff.2 fun e he => ?_
    have := (List.mem_append.1 he).elim (fits.insideA.offsets_inside e) (fits.insideB.offsets_inside e)
    simpa using this
  refine (bind_ok (m := get) rfl).trans ((bind_ok (need_of ready.mode _ s)).trans ((bind_ok (notLatches_of_low fits.low)).trans
    ((bind_ok (need_of (decide_eq_true fits.bound) _ s)).trans ((bind_ok (need_of tags _ s)).trans
      ((bind_ok (need_of (Bool.and_eq_true_iff.2 fits.scales) _ s)).trans ((bind_ok (fits.insideA.aligned_ok s)).trans
        ((bind_ok (fits.insideB.aligned_ok s)).trans ?_)))))))
  rw [outside]
  exact settled_of_written ready.written _

/-! The repetition (R148, R152) -/

/-- No row of an operand is in error. -/
theorem operandRows_sound (ready : s.MatrixReady) (sound : s.poison = []) (o : MopaOperand) (k : Nat) :
    (s.operandRows s.cur o k).2 = none := by
  unfold State.operandRows
  split
  · simp only [ready.vectors, List.any_nil, Bool.false_eq_true, ↓reduceIte]
  · have row (pa : Nat) : s.badByte s.cur.core .home pa 4 = false := by
      simp [State.badByte, State.served1, sound]
    simp only [row, Option.map_eq_none_iff, List.find?_eq_none, Bool.false_eq_true, not_false_eq_true, implies_true]

/-- The results of repetition `k` on the tile that it adds to. -/
def State.mopaResults (s : State) (t : BitVec 4) (k : Nat) (m : BitVec 3) (A B : MopaOperand) : List (Nat × FRes) :=
  repetition (s.cur.getT (t + BitVec.ofNat 4 k)) (s.cur.getM m) (s.cur.operandTag A k) (s.cur.operandTag B k)
    (s.operandRows s.cur A k).1 (s.operandRows s.cur B k).1 (s.cur.scaleOf A k) (s.cur.scaleOf B k)

/-- The state once a repetition is done. -/
def State.repeated (s : State) (t : BitVec 4) (k : Nat) (m : BitVec 3) (A B : MopaOperand) : State :=
  let rs := s.mopaResults t k m A B
  let u := s.onCur fun h => (B.settles s k (A.settles s k h)).putT (t + BitVec.ofNat 4 k) (rs.map fun r => (r.1, r.2.val))
    (if (s.cur.operandTag A k).isInt then .i32 else .f32)
  ((((u.raise (orFlags (rs.map fun r => r.2.fl))).countRep s.classify).seenRows A k).seenRows B k).countCur 0x04 1

/-- The state that a MOPA leaves after repetition `k`: the next one follows, or it has completed (R148, R152). -/
def State.mopaLeaves (s : State) (t : BitVec 4) (rep k : Nat) (m : BitVec 3) (A B : MopaOperand) (cap : Captured) : State :=
  if k < rep then (s.repeated t k m A B).onCur fun h => { h with
    progress := { vstart := BitVec.ofNat 12 (k + 1), addr := some s.cur.pc, cap := cap }, midway := true }
  else (((s.repeated t k m A B).onCur fun h => { h with progress := {} }).countCur 0x03 1).retire

theorem mopaStep_ok (ready : s.MatrixReady) (sound : s.poison = []) (free : s.issued.contains s.cur.core = false)
    (issues : s.classify ≠ .held) (t : BitVec 4) (rep k : Nat) (m : BitVec 3) (A B : MopaOperand) (cap : Captured) :
    mopaStep t rep k m A B cap s = .ok () (s.mopaLeaves t rep k m A B cap) := by
  have noError : ((if s.cur.repetitionBad (t + BitVec.ofNat 4 k) m then some (0 : Word) else none).or
      ((s.operandRows s.cur A k).2.or (s.operandRows s.cur B k).2)) = none := by
    rw [operandRows_sound ready sound, operandRows_sound ready sound]
    simp [Hart.repetitionBad, ready.masks, ready.tiles]
  refine (bind_ok (m := get) rfl).trans ?_
  dsimp only
  rw [if_neg (by rw [free]; exact Bool.false_ne_true), if_neg issues, noError]
  unfold State.mopaLeaves State.repeated State.mopaResults
  by_cases more : k < rep
  · rw [if_pos more, if_pos more]
    rfl
  · rw [if_neg more, if_neg more]
    rfl

/-- What a repetition has changed: its tile, flags and accounts, and who may know of what was read. -/
theorem State.repeated_frame (ready : s.MatrixReady) (issues : s.classify ≠ .held) (t : BitVec 4) (k : Nat) (m : BitVec 3)
    (A B : MopaOperand) : let rs := s.mopaResults t k m A B
    let w := (s.cur.getT (t + BitVec.ofNat 4 k)).put (rs.map fun r => (r.1, r.2.val))
      (if (s.cur.operandTag A k).isInt then .i32 else .f32)
    ∃ a e f i r p, s.repeated t k m A B = { s with
        cur := { s.cur.setT (t + BitVec.ofNat 4 k) w with
          fflags := s.cur.fflags ||| orFlags (rs.map fun r => r.2.fl), tide := a, early := e }
        freeReps := f, issued := i, rest := r, perf := p } ∧ r.map Hart.unseen = s.rest.map Hart.unseen := by
  intro rs w
  obtain ⟨e, settled⟩ := MopaOperand.settles_both A B s k s.cur
  have put : (B.settles s k (A.settles s k s.cur)).putT (t + BitVec.ofNat 4 k) (rs.map fun r => (r.1, r.2.val))
      (if (s.cur.operandTag A k).isInt then .i32 else .f32) = { s.cur.setT (t + BitVec.ofNat 4 k) w with early := e } := by
    rw [settled]
    exact Hart.putT_sound (h := { s.cur with early := e }) ready.tiles _ _ _
  obtain ⟨u, hu⟩ : ∃ u : State, u = { s with cur := { s.cur.setT (t + BitVec.ofNat 4 k) w with
    fflags := s.cur.fflags ||| orFlags (rs.map fun r => r.2.fl), early := e } } := ⟨_, rfl⟩
  obtain ⟨a, f, i, counted⟩ := u.countRep_frame issues
  obtain ⟨r, seenA, sameA⟩ := (u.countRep s.classify).seenRows_frame A k
  obtain ⟨r', seenB, sameB⟩ := ((u.countRep s.classify).seenRows A k).seenRows_frame B k
  have repeated : s.repeated t k m A B = (((u.countRep s.classify).seenRows A k).seenRows B k).countCur 0x04 1 := by
    have start : (s.onCur fun h => (B.settles s k (A.settles s k h)).putT (t + BitVec.ofNat 4 k) (rs.map fun r => (r.1, r.2.val))
        (if (s.cur.operandTag A k).isInt then .i32 else .f32)).raise (orFlags (rs.map fun r => r.2.fl)) = u := by
      rw [hu]
      exact congrArg (fun g : Hart => State.raise { s with cur := g } (orFlags (rs.map fun r => r.2.fl))) put
    rw [← start]
    rfl
  refine ⟨a, e, f, i, r', (s.repeated t k m A B).perf, ?_, ?_⟩
  · rw [repeated, seenB, seenA, counted, hu]
    rfl
  · rw [seenA, counted, hu] at sameB
    rw [counted, hu] at sameA
    exact sameB.trans sameA

/-- What a MOPA leaves after a repetition (R148, R152). -/
theorem State.mopaLeaves_frame (ready : s.MatrixReady) (issues : s.classify ≠ .held) (t : BitVec 4) (rep k : Nat) (m : BitVec 3)
    (A B : MopaOperand) (cap : Captured) : let rs := s.mopaResults t k m A B
    let w := (s.cur.getT (t + BitVec.ofNat 4 k)).put (rs.map fun r => (r.1, r.2.val))
      (if (s.cur.operandTag A k).isInt then .i32 else .f32)
    let u := s.mopaLeaves t rep k m A B cap
    u.cur.bare = { s.cur.setT (t + BitVec.ofNat 4 k) w with
        fflags := s.cur.fflags ||| orFlags (rs.map fun r : Nat × FRes => r.2.fl), tide := u.cur.tide, progress := u.cur.progress
        early := u.cur.early }.bare ∧
      s.sameMemory u ∧ u.rest.map Hart.unseen = s.rest.map Hart.unseen ∧ u.launches = s.launches ∧
      (k = rep → u.cur.pc = s.cur.pc + 4 ∧ u.cur.progress = {}) ∧
      (k < rep → u.cur.pc = s.cur.pc ∧
        u.cur.progress = { vstart := BitVec.ofNat 12 (k + 1), addr := some s.cur.pc, cap := cap }) := by
  intro rs w u
  obtain ⟨a, e, f, i, r, p, frame, same⟩ := State.repeated_frame ready issues t k m A B
  rcases Nat.lt_or_ge k rep with more | last
  · have leaves : u = _ := if_pos more
    rw [frame] at leaves
    rw [leaves]
    exact ⟨rfl, sameMemory_of rfl rfl rfl rfl rfl rfl, same, rfl, fun h => absurd h (Nat.ne_of_lt more), fun _ => ⟨rfl, rfl⟩⟩
  · have leaves : u = _ := if_neg (Nat.not_lt.2 last)
    rw [frame] at leaves
    rw [leaves]
    refine ⟨?_, ?_, ?_, by simp, fun _ => ⟨?_, by simp⟩, fun h => absurd h (Nat.not_lt.2 last)⟩
    · refine (congrArg State.cur (retire_bare _)).trans ?_
      simp only [State.retire_cur_tide, State.retire_cur_progress, State.retire_cur_early]
      rfl
    · exact sameMemory_of (by simp) (by simp) (by simp) (by simp) (by simp) (by simp)
    · rw [State.retire_rest]
      exact same
    · rw [State.retire_pc]
      rfl

/-! The instruction -/

/-- A MOPA that stands before repetition `k` with the operands that it captured (R147, R150, R152). -/
def State.MopaAt (s : State) (a b : BitVec 5) (src : BitVec 2) (ops : List Word) (k : Nat) : Prop :=
  (s.cur.progress = {} ∧ k = 0 ∧
    ops = (if src.getLsbD 0 then [s.x a, s.x (a + 1)] else []) ++ (if src.getLsbD 1 then [s.x b, s.x (b + 1)] else [])) ∨
  (s.cur.progress.addr = some s.cur.pc ∧ s.cur.progress.vstart = BitVec.ofNat 12 k ∧ ops = s.cur.progress.cap.operands)

theorem captureOf_first (first : s.cur.progress.addr = none) (operands : List Word) :
    captureOf operands s = .ok (s.capture operands) s := by
  refine (bind_ok (m := get) rfl).trans ?_
  rw [first]
  rfl

theorem captureOf_resumed (resumed : s.cur.progress.addr = some s.cur.pc) (operands : List Word) :
    captureOf operands s = .ok s.cur.progress.cap s := by
  refine (bind_ok (m := get) rfl).trans ?_
  rw [resumed]
  dsimp only
  rw [if_pos rfl]
  rfl

/-- It runs that repetition (R148, R152). -/
theorem mopa_next (ready : s.MatrixReady) (sound : s.poison = []) (free : s.issued.contains s.cur.core = false)
    (issues : s.classify ≠ .held) {a b : BitVec 5} {src : BitVec 2} {ops : List Word} {k : Nat} {rep : BitVec 4}
    (at_ : s.MopaAt a b src ops k) (hk : k ≤ rep.toNat) {t : BitVec 4} (m : BitVec 3) {ra mx : Bool}
    (fits : s.MopaFits t rep.toNat (mopaOperands a b src ra mx ops).1 (mopaOperands a b src ra mx ops).2) :
    ∃ cap : Captured, cap.operands = ops ∧ mopa t a b rep src m ra mx s = .next (s.mopaLeaves t rep.toNat k m
      (mopaOperands a b src ra mx ops).1 (mopaOperands a b src ra mx ops).2 cap) := by
  have run (cap : Captured) (same : cap.operands = ops)
      (starts : (if s.cur.progress.addr.isSome then min s.cur.progress.vstart.toNat rep.toNat else 0) = k)
      (captured : captureOf ((if src.getLsbD 0 then [s.x a, s.x (a + 1)] else []) ++
        (if src.getLsbD 1 then [s.x b, s.x (b + 1)] else [])) s = .ok cap s) :
      mopa t a b rep src m ra mx s = .next (s.mopaLeaves t rep.toNat k m
        (mopaOperands a b src ra mx ops).1 (mopaOperands a b src ra mx ops).2 cap) := by
    subst same
    refine finish_ok ((bind_ok captured).trans ((bind_ok (mopaChecks_ok ready fits)).trans ?_))
    show mopaStep t rep.toNat (if s.cur.progress.addr.isSome then min s.cur.progress.vstart.toNat rep.toNat else 0) m
      _ _ cap s = _
    rw [starts]
    exact mopaStep_ok ready sound free issues t rep.toNat k m _ _ cap
  rcases at_ with ⟨begins, first, operands⟩ | ⟨resumed, vstart, operands⟩
  · have fresh : s.cur.progress.addr = none := by rw [begins]
    refine ⟨s.capture ops, rfl, run _ rfl (by rw [fresh, first]; rfl) ?_⟩
    rw [operands]
    exact captureOf_first fresh _
  · refine ⟨s.cur.progress.cap, operands.symm, run _ operands.symm ?_ (captureOf_resumed resumed _)⟩
    have start : (BitVec.ofNat 12 k).toNat = k := Nat.mod_eq_of_lt (by have := rep.isLt; omega)
    rw [resumed, vstart, start, Nat.min_eq_left hk]
    rfl

end

end Sys2Proof.Machine
end

section
/-! MOPA, settled (R61, R146-R152). -/

namespace Sys2Proof.Machine

/-- Settles O46: a repetition leaves its results in the elements that the mask enables (`repetition_at`) and changes no more than
`State.mopaLeaves_frame` says; a product sum is one rounding of its exact value (`mopaResult_rounds`). -/
theorem matrixProducts : Obligations.MatrixProducts := by
  refine ⟨?_, fun ta tb acc x y sa sb int _ => mopaResult_of_isInt acc x y sa sb int, fun ta tb fa fb acc x y hta htb _ _ _ _ =>
    ⟨fun p q sign m e finite finiteX finiteY nonzero value => mopaResult_rounds hta htb finite finiteX finiteY nonzero value, ?_⟩⟩
  · intro s t a b rep src m ops k pair mk d old runs ready sound free issues hk at_
    have key (i : Instr) (ra mx : Bool) (h : exec i s = mopa t a b rep src m ra mx s) : runs i ra mx := by
      dsimp only [runs]
      intro low bound insideA insideB tags
      have fits : s.MopaFits t rep.toNat (mopaOperands a b src ra mx ops).1 (mopaOperands a b src ra mx ops).2 :=
        ⟨low, bound, insideA, insideB, fun q hq => ⟨(tags q hq).1, fun scaled => ⟨((tags q hq).2 scaled).1, ((tags q hq).2 scaled).2.1⟩⟩, ?_⟩
      · obtain ⟨cap, operands, next⟩ := mopa_next ready sound free issues at_ hk m fits
        obtain ⟨bare, memory, rest, launches, completes, goesOn⟩ := State.mopaLeaves_frame ready issues t rep.toNat k m
          (mopaOperands a b src ra mx ops).1 (mopaOperands a b src ra mx ops).2 cap
        refine ⟨_, _, _, h.trans next, fun i j hi hj => repetition_at _ hi hj, rfl, fun n => repetition_flags n, bare, memory, rest,
          launches, completes, fun more => ?_⟩
        obtain ⟨pc, progress⟩ := goesOn more
        rw [progress]
        exact ⟨pc, rfl, rfl, operands⟩
      · cases mx with
        | false => exact ⟨Hart.scalesOk_of_plain rfl _ _, Hart.scalesOk_of_plain rfl _ _⟩
        | true => exact ((tags 0 (Nat.zero_le _)).2 rfl).2.2
    refine ⟨key _ _ _ rfl, key _ _ _ rfl, fun none_ => ⟨key _ _ _ ?_, key _ _ _ ?_⟩⟩
    · rw [none_]
      rfl
    · rw [none_]
      rfl
  · intro sa sb nan
    rw [mopaResult_of_fmt hta htb]
    refine mopaFloat_nan (Tag.known_of_fmt hta) (Tag.known_of_fmt htb) ?_
    rcases nan with h | h | h | rfl | rfl
    · exact .inl h
    · exact .inr (.inl h)
    · exact .inr (.inr (.inl h))
    · exact .inr (.inr (.inr rfl))
    · cases sa <;> exact .inr (.inr (.inr rfl))

end Sys2Proof.Machine
end

section
/-! The frame of the tile accesses (R154, R155): checks, probe, order and perform of their units. -/

namespace Sys2Proof.Machine

/-! The order of the units (R192, R170) -/

theorem permuteBy_perm {α : Type} : ∀ (n k : Nat) (l : List α), (permuteBy n k l).Perm l
  | 0, _, l => .refl l
  | n + 1, k, l => by
    unfold permuteBy
    split
    · next x found =>
      obtain ⟨below, rfl⟩ := List.getElem?_eq_some_iff.1 found
      exact ((permuteBy_perm n _ _).cons _).trans (List.getElem_cons_eraseIdx_perm below)
    · exact .refl l

section
variable (cls : Nat × Phys → Option Nat)

/-- The units that are left of a list with distinct units when one of them goes. -/
theorem perm_cons_filter_ne {rest : List (Nat × Phys)} (distinct : (rest.map Prod.fst).Nodup) {n : Nat × Phys} (mem : n ∈ rest) :
    rest.Perm (n :: rest.filter fun w => w.1 != n.1) := by
  have same : (rest.filter fun w => w.1 != n.1) = rest.erase n := by
    rw [(List.Nodup.of_map _ distinct).erase_eq_filter]
    refine List.filter_congr fun w hw => ?_
    rw [Bool.eq_iff_iff, bne_iff_ne, bne_iff_ne]
    exact not_congr ⟨fun e => List.inj_on_of_nodup_map distinct hw mem e, congrArg _⟩
  rw [same]
  exact List.perm_cons_erase mem

/-- With as many classed units left in each class as there are places for them, every unit finds a place. -/
theorem inClassOrder_fold : ∀ (p out rest : List (Nat × Phys)), (rest.map Prod.fst).Nodup → (∀ w ∈ rest, (cls w).isSome = true) →
    (∀ c, rest.countP (fun w => cls w == some c) = p.countP fun w => cls w == some c) →
    (p.foldl (fun (acc : List (Nat × Phys) × List (Nat × Phys)) u =>
      if (cls u).isSome then
        let n := (acc.2.find? fun w => cls w == cls u).getD u
        (acc.1 ++ [n], acc.2.filter fun w => w.1 != n.1)
      else (acc.1 ++ [u], acc.2)) (out, rest)).1.Perm (out ++ (rest ++ p.filter fun w => (cls w).isNone))
  | [], out, rest, _, classed, counts => by
    have empty : rest = [] := List.eq_nil_iff_forall_not_mem.2 fun w hw => by
      obtain ⟨c, hc⟩ := Option.isSome_iff_exists.1 (classed w hw)
      exact absurd (counts c) (List.countP_pos_iff.2 ⟨w, hw, by simp [hc]⟩).ne'
    simp [empty]
  | u :: p, out, rest, distinct, classed, counts => by
    rw [List.foldl_cons]
    cases hu : cls u with
    | none =>
      simp only [Option.isSome_none, Bool.false_eq_true, ↓reduceIte]
      refine (inClassOrder_fold p (out ++ [u]) rest distinct classed fun c => (counts c).trans ?_).trans ?_
      · simp [hu]
      · rw [List.filter_cons_of_pos (by simp [hu]), List.append_assoc, List.singleton_append]
        exact (List.perm_middle.symm).append_left out
    | some c =>
      simp only [Option.isSome_some, ↓reduceIte]
      obtain ⟨w, hw, same⟩ := List.countP_pos_iff.1 (by rw [counts c]; simp [hu] : 0 < rest.countP fun w => cls w == some c)
      obtain ⟨n, found⟩ := Option.isSome_iff_exists.1 (List.find?_isSome (p := fun w => cls w == some c).2 ⟨w, hw, same⟩)
      have taken := perm_cons_filter_ne distinct (List.mem_of_find?_eq_some found)
      have class_ : cls n = some c := by simpa using List.find?_some found
      rw [found, Option.getD_some]
      refine (inClassOrder_fold p (out ++ [n]) _ (distinct.sublist (List.filter_sublist.map _))
        (fun w hw => classed w (List.mem_filter.1 hw).1) fun d => ?_).trans ?_
      · have all := (taken.countP_eq fun w => cls w == some d).symm.trans (counts d)
        rw [List.countP_cons, List.countP_cons, class_, hu] at all
        exact Nat.add_right_cancel all
      · rw [List.filter_cons_of_neg (by simp [hu]), List.append_assoc, List.singleton_append, ← List.cons_append]
        exact (taken.symm.append_right _).append_left out

/-- An order of the units stays one when each class takes its places in ascending order. -/
theorem inClassOrder_perm {us p : List (Nat × Phys)} (distinct : (us.map Prod.fst).Nodup) (order : p.Perm us) :
    (inClassOrder cls (us.filter fun u => (cls u).isSome) p).Perm us := by
  have split_ : ((us.filter fun u => (cls u).isSome) ++ us.filter fun u => (cls u).isNone).Perm us := by
    simpa using List.filter_append_perm (fun u => (cls u).isSome) us
  refine (inClassOrder_fold cls p [] _ (distinct.sublist (List.filter_sublist.map _)) (fun w hw => (List.mem_filter.1 hw).2)
    fun c => ?_).trans (((order.filter _).append_left _).trans split_)
  rw [List.countP_filter, order.countP_eq]
  refine List.countP_congr fun w _ => ?_
  cases cls w <;> simp

/-- A relaxed instruction performs each of its units once; of the state the order takes at most a choice. -/
theorem relaxedOrder_ok (n : Nat) (stops : Bool) {us : List (Nat × Phys)} (distinct : (us.map Prod.fst).Nodup) (s : State) :
    ∃ ordered u, relaxedOrder n cls stops us s = .ok ordered u ∧ ordered.Perm us ∧ (u = s ∨ u = s.draw.2) := by
  by_cases free : (s.cut.isNone && !stops && !s.mayFail && !overlapping n ((classFirsts cls us).map fun u => u.2.pa / n * n)) = true
  · refine ⟨us, s, ?_, .refl us, .inl rfl⟩
    refine (bind_ok (m := get) rfl).trans ?_
    rw [if_pos free]
    rfl
  · refine ⟨_, s.draw.2, ?_, inClassOrder_perm cls distinct (permuteBy_perm us.length s.draw.1 us), .inr rfl⟩
    refine (bind_ok (m := get) rfl).trans ?_
    rw [if_neg free]
    rfl

end

/-! The perform of the units -/

/-- Units that all succeed are all performed, and what each keeps stands at the end. -/
theorem performUnits_ok {α : Type} {f : Nat → Phys → M α} {all : List (Nat × Phys)} {g : Nat × Phys → α}
    {I : List (Nat × Phys) → State → Prop}
    (step : ∀ done up rest t, done ++ up :: rest = all → I done t → ∃ u, f up.1 up.2 t = .ok (g up) u ∧ I (done ++ [up]) u) :
    ∀ (us done : List (Nat × Phys)) (t : State), done ++ us = all → I done t →
      ∃ u, performUnits f none us t = .ok (us.map fun up => (up.1, g up), .finished) u ∧ I all u
  | [], done, t, whole, kept => ⟨t, rfl, by rwa [← whole, List.append_nil]⟩
  | up :: us, done, t, whole, kept => by
    obtain ⟨u, runs, next⟩ := step done up us t whole kept
    obtain ⟨v, later, last⟩ := performUnits_ok step us (done ++ [up]) u (by rw [List.append_assoc]; exact whole) next
    refine ⟨v, ?_, last⟩
    have tried : attempt (f up.1 up.2) t = .ok (.ok (g up)) u := by unfold attempt; rw [runs]
    exact (bind_ok tried).trans ((bind_ok later).trans rfl)

/-! The probe -/

/-- A probe whose units are all served passes and changes nothing (R219). -/
theorem probe_served {s : State} {a : Agent} {k : Kind} {addr : Nat → Word} {p : Nat → Phys} (elems : Nat) :
    ∀ (us : List Nat) (first : Bool), (∀ u ∈ us, s.ServesFor a k (addr u) (p u)) →
      probe a k false false elems [] addr first us s = .ok (us.map fun u => (u, p u), none) s
  | [], _, _ => rfl
  | u :: us, first, served => by
    have here : s.xlate a k (addr u) = (.ok (p u), s) := served u List.mem_cons_self s.l2 s.hbm
    have later := probe_served elems us false fun v hv => served v (List.mem_cons_of_mem _ hv)
    unfold probe
    refine (bind_ok (m := get) rfl).trans ?_
    simp only [Bool.false_and, Bool.false_eq_true, ↓reduceIte, here]
    refine (bind_ok (m := set s) rfl).trans ?_
    exact (bind_ok later).trans rfl

/-! The access -/

/-- What `mld` and `mst` do at one unit whose access meets no error. -/
def tileUnitAccess (tile : Tile) (cap : Captured) (store : Bool) (u : Nat) (p : Phys) : M Nat := do
  if store then
    storeUnit 0 0 8 (bits tile.img.toNat (64 * u) 64) (tileUnit cap.operands u) u p
    return 0
  else
    let bs ← readPhys p 8 .plain (cap.vbyp != 0 && decide (64 * 256 ≤ cap.vbyp.toNat)) (tileUnit cap.operands u) u
    return leNat (← earlyRead cap.rad.toNat p.pa bs)

/-- The words that the units of a tile load write. -/
def unitWords (rs : List (Nat × Nat)) : List (Nat × Nat) :=
  rs.flatMap fun r => [(2 * r.1, r.2 % 2 ^ 32), (2 * r.1 + 1, r.2 / 2 ^ 32)]

/-- The state after the units of `mld` or `mst` were all performed, with their results. -/
def State.tileDone (s : State) (t : BitVec 4) (tile : Tile) (store : Bool) (rs : List (Nat × Nat)) : State :=
  let h := if store then s.cur else s.cur.putT t (unitWords rs) tile.tag
  ((({ s with cur := { h.ageEarly with progress := {} } } : State).countCur 0x03 1).retire)

theorem draw_cut (s : State) : s.draw.2.cut = s.cut := by
  unfold State.draw
  split <;> rfl

theorem cleared_cut {s : State} (uncut : s.cut = none) :
    (modify fun s => { s with cut := none } : M Unit) s = .ok () s := by
  show EStateM.Result.ok () { s with cut := none } = _
  rw [← uncut]

/-- A tile access whose enabled rows translate performs each of its units once, in some order (R154, R155, R192). -/
theorem tileAccess_runs {s : State} (ready : s.MatrixReady) (fresh : s.cur.progress = {}) (uncut : s.cut = none) {t : BitVec 4}
    {a b : BitVec 5} {m : BitVec 3} {p : Nat → Phys} (live : (s.cur.getT t).tag ≠ .dead) (base : (s.x a).toNat % 8 = 0)
    (pitch : (s.x b).toNat % 8 = 0) (store : Bool)
    (served : ∀ u, tileUnits (s.cur.getM m) u = true → s.ServesUnit (if store then .write else .read)
      (s.x a + BitVec.ofNat 64 (u / 32) * s.x b + BitVec.ofNat 64 (8 * (u % 32))) (p u)) :
    ∃ (ordered : List (Nat × Phys)) (s₁ : State),
      ordered.Perm (((upTo 2048).filter fun u => (s.cur.getM m).getLsbD (u / 32)).map fun u => (u, p u)) ∧
      (s₁ = s ∨ s₁ = s.draw.2) ∧
      ∀ (rs : List (Nat × Nat)) (s₂ : State),
        performUnits (tileUnitAccess (s.cur.getT t) (s.capture [s.x a, s.x b]) store) none ordered s₁ = .ok (rs, .finished) s₂ →
        finish (tileAccess t a b m store) s = .next (s₂.tileDone t (s.cur.getT t) store rs) := by
  have clean : s.cur.clean = true := ready.clean
  have all : ((upTo 2048).filter fun u => !s.cur.progress.vcomp.getLsbD u) = upTo 2048 :=
    List.filter_eq_self.2 fun u _ => by rw [fresh]; simp
  have sound (u : Nat) : s.cur.bitBad m u = false := by simp [Hart.bitBad, ready.masks]
  obtain ⟨ordered, s₁, drawn, order, from_⟩ := relaxedOrder_ok bankClass 8 false
    (us := ((upTo 2048).filter fun u => (s.cur.getM m).getLsbD (u / 32)).map fun u => (u, p u)) (by
      rw [List.map_map]
      exact (List.nodup_range.filter _).map_on fun x _ y _ e => e) s
  have cut₁ : s₁.cut = none := by
    rcases from_ with rfl | rfl
    · exact uncut
    · rw [draw_cut, uncut]
  refine ⟨ordered, s₁, order, from_, fun rs s₂ performed => finish_ok ?_⟩
  have probed : probe (s.cur.unitAgent (s.capture [s.x a, s.x b]).cw) (if store then .write else .read) false false 1 []
      (tileUnit (s.capture [s.x a, s.x b]).operands) true
      ((upTo 2048).filter fun u => (s.cur.getM m).getLsbD (u / 32)) s =
        .ok (((upTo 2048).filter fun u => (s.cur.getM m).getLsbD (u / 32)).map fun u => (u, p u), none) s := by
    refine probe_served _ _ _ fun u hu => served u ?_
    obtain ⟨below, on⟩ := List.mem_filter.1 hu
    simpa [tileUnits, on] using List.mem_range.1 below
  unfold tileAccess
  refine (bind_ok (m := get) rfl).trans ?_
  refine (bind_ok (need_of ready.mode _ s)).trans ?_
  refine (bind_ok (captureOf_first (by rw [fresh]) _)).trans ?_
  refine (bind_ok (need_of (bne_iff_ne.2 live) _ s)).trans ?_
  refine (bind_ok (show need _ 0x03 (s.x a) 0 s = .ok () s by
    show need ((s.x a).toNat % 8 == 0) 0x03 (s.x a) 0 s = _; rw [base]; rfl)).trans ?_
  refine (bind_ok (show need _ 0x03 (s.x b) 0 s = .ok () s by
    show need ((s.x b).toNat % 8 == 0) 0x03 (s.x b) 0 s = _; rw [pitch]; rfl)).trans ?_
  refine (curHart_bind _).trans ?_
  simp only [all, sound, clean, Bool.not_true, Bool.false_and, Bool.not_false, Bool.and_true, List.filter_false]
  refine (bind_ok probed).trans ?_
  simp only [withBad, List.isEmpty_nil, ↓reduceIte, Bool.not_true, List.contains_nil, Bool.false_eq_true]
  refine (bind_ok drawn).trans ?_
  refine (bind_ok (m := get) rfl).trans ?_
  rw [cut₁]
  refine (bind_ok (cleared_cut cut₁)).trans ?_
  refine (bind_ok performed).trans ?_
  cases store <;> rfl

end Sys2Proof.Machine
end

section
/-! Bytes of a sector (R171): what a write of bytes leaves in each. -/

namespace Sys2Proof.Machine

theorem sectorByte_getLsbD (d : BitVec 512) (i k : Nat) :
    (sectorByte d i).getLsbD k = (decide (k < 8) && d.getLsbD (8 * i + k)) := BitVec.getLsbD_extractLsb' ..

/-- The bits of a list of bytes are those of its bytes (R4). -/
theorem leNat_testBit : ∀ (bs : List Byte) (i : Nat) {k : Nat}, k < 8 → (leNat bs).testBit (8 * i + k) = (bs.getD i 0).getLsbD k
  | [], i, k, _ => by simp [leNat]
  | b :: bs, i, k, hk => by
    show (b.toNat + 256 * leNat bs).testBit (8 * i + k) = _
    rw [Nat.add_comm, show 256 = 2 ^ 8 from rfl, Nat.testBit_two_pow_mul_add _ b.isLt]
    cases i with
    | zero => rw [if_pos (by omega), Nat.mul_zero, Nat.zero_add]; rfl
    | succ i =>
      rw [if_neg (by omega), show 8 * (i + 1) + k - 8 = 8 * i + k by omega, leNat_testBit bs i hk]
      rfl

/-- A byte of a sector made of 64 bytes. -/
theorem sectorByte_ofBytes (bs : List Byte) {i : Nat} (hi : i < 64) : sectorByte (BitVec.ofNat 512 (leNat bs)) i = bs.getD i 0 := by
  apply BitVec.eq_of_getLsbD_eq
  intro k hk
  rw [sectorByte_getLsbD, BitVec.getLsbD_ofNat, leNat_testBit bs i hk]
  simp [hk, show 8 * i + k < 512 by omega]

/-- A byte of a sector into which bytes were written. -/
theorem sectorByte_insert (d : BitVec 512) (bs : List Byte) {i j : Nat} (hj : j < 64) :
    sectorByte (BitVec.ofNat 512 (insertBits d.toNat (8 * i) (8 * bs.length) (leNat bs))) j =
      if i ≤ j ∧ j < i + bs.length then bs.getD (j - i) 0 else sectorByte d j := by
  apply BitVec.eq_of_getLsbD_eq
  intro k hk
  rw [sectorByte_getLsbD, BitVec.getLsbD_ofNat, insertBits_field_testBit]
  simp only [hk, show 8 * j + k < 512 by omega, decide_true, Bool.true_and]
  by_cases inside : i ≤ j ∧ j < i + bs.length
  · rw [if_neg (by omega), if_pos (by omega), if_pos inside, show 8 * j + k - 8 * i = 8 * (j - i) + k by omega,
      leNat_testBit bs _ hk]
  · rw [if_neg inside, sectorByte_getLsbD, decide_eq_true hk, Bool.true_and]
    split
    · rfl
    · rw [if_neg (by omega)]
      rfl

/-- A byte of a sector into which one byte was written. -/
theorem sectorByte_insert_byte (d : BitVec 512) (b : Byte) {i j : Nat} (hj : j < 64) :
    sectorByte (BitVec.ofNat 512 (insertBits d.toNat (8 * i) 8 b.toNat)) j = if j = i then b else sectorByte d j := by
  have one := sectorByte_insert d [b] (i := i) hj
  rw [show leNat [b] = b.toNat from by simp [leNat]] at one
  refine one.trans ?_
  by_cases e : j = i
  · subst e
    simp
  · rw [if_neg e, if_neg (by simp only [List.length_singleton]; omega)]

theorem byteMask_getLsbD {i n : Nat} (fits : i + n ≤ 64) (j : Nat) : (byteMask i n).getLsbD j = decide (i ≤ j ∧ j < i + n) := by
  unfold byteMask
  rw [BitVec.getLsbD_ofNat, Nat.testBit_shiftLeft, Nat.testBit_two_pow_sub_one, Bool.eq_iff_iff]
  simp only [Bool.and_eq_true, decide_eq_true_eq]
  omega

theorem sectorOf_add_mod (pa : Nat) : sectorOf pa + pa % 64 = pa := by
  unfold sectorOf
  omega

theorem homeRead_getD (s : State) (pa : Nat) {n i : Nat} (hi : i < n) : (s.homeRead pa n).getD i 0 = s.homeByte (pa + i) := by
  simp [State.homeRead, upTo, List.getD_eq_getElem?_getD, hi]

theorem recode_self (s : State) (pa n : Nat) : s.recode s pa n = s.recoded := by
  unfold State.recode
  simp

end Sys2Proof.Machine
end

section
/-! Reads on a machine whose caches hold only clean copies (R171, R176, R187): they return the bytes of the homes, and leave only
clean copies. -/

namespace Sys2Proof.Machine

/-- A state without what a read may change: who may know of a store, the caches, which of the homes' bytes stand in HBM, the
counters and the free values. -/
def State.readCore (s : State) : State := { s with
  rest := s.rest.map Hart.unseen, l1 := [], l2 := [], hbm := [], visitors := [], perf := [], choices := [], draws := 0 }

/-- A clean sector without error whose valid bytes are those of `home`. -/
structure Sector.CopyOf (home : Nat → Byte) (x : Sector) : Prop where
  clean : x.dirty = 0
  sound : x.bad = 0
  copies : ∀ i, i < 64 → x.valid.getLsbD i = true → sectorByte x.data i = home (x.addr + i)

/-- From `s` to `t` only reads were performed: no home has another byte, and the caches hold clean copies alone. -/
structure State.OnlyRead (s t : State) : Prop where
  core : t.readCore = s.readCore
  wf : Memory.wf t = true
  home : ∀ b, t.homeByte b = s.homeByte b
  sectors : ∀ x ∈ t.l1, x.CopyOf s.homeByte
  visitors : ∀ v ∈ t.visitors, ∀ i, i < 64 → sectorByte v.data i = s.homeByte (v.addr + i)

section
variable {s t : State}

theorem writeBackSector_clean {x : Sector} (clean : x.dirty = 0) : t.writeBackSector x = t.l1Put x := by
  have idle : ((upTo 64).filter fun i => x.dirty.getLsbD i && !x.bad.getLsbD i) = [] := by simp [clean]
  have same : { x with dirty := x.dirty &&& x.bad } = x := by
    rw [show x.dirty &&& x.bad = x.dirty by simp [clean]]
  unfold State.writeBackSector
  simp only [idle, List.foldl_nil, List.isEmpty_nil, if_true, recode_self, same]

theorem State.OnlyRead.cur (h : s.OnlyRead t) : t.cur = s.cur := (congrArg State.cur h.core :)
theorem State.OnlyRead.poison (h : s.OnlyRead t) : t.poison = s.poison := (congrArg State.poison h.core :)

/-- Counting and a change of the choices alone leave the homes and caches as they are. -/
theorem State.OnlyRead.counted (h : s.OnlyRead t) {u : State} (e : ∃ p d, u = { t with perf := p, draws := d }) : s.OnlyRead u := by
  obtain ⟨p, d, rfl⟩ := e
  exact ⟨h.core, h.wf, h.home, h.sectors, h.visitors⟩

theorem draw_eq (s : State) : s.draw.2 = { s with choices := s.draw.2.choices, draws := s.draw.2.draws } := by
  unfold State.draw
  split <;> rfl

theorem State.OnlyRead.drawn (h : s.OnlyRead t) : s.OnlyRead t.draw.2 := by
  rw [draw_eq]
  exact ⟨h.core, h.wf, h.home, h.sectors, h.visitors⟩

/-- With nothing cached there are no copies. -/
theorem State.OnlyRead.refl (l1 : s.l1 = []) (visitors : s.visitors = []) (wf : Memory.wf s = true) : s.OnlyRead s :=
  ⟨rfl, wf, fun _ => rfl, by simp [l1], by simp [visitors]⟩

/-- Of all but the hart in front reads change only caches, homes, the choices and what the completion of any instruction may. -/
theorem State.OnlyRead.bare (h : s.OnlyRead t) (g : Hart) : ({ t with cur := g } : State).bare =
    ({ s with cur := g, l1 := t.l1, l2 := t.l2, hbm := t.hbm, visitors := t.visitors, choices := t.choices, draws := t.draws } :
      State).bare :=
  congrArg (fun u : State => { u with
    cur := g.bare, l1 := t.l1, l2 := t.l2, hbm := t.hbm, visitors := t.visitors, choices := t.choices, spoiled := [] }) h.core

theorem State.OnlyRead.withL1 (h : s.OnlyRead t) {l : List Sector} (copies : ∀ x ∈ l, x.CopyOf s.homeByte) :
    s.OnlyRead { t with l1 := l } := ⟨h.core, h.wf, h.home, copies, h.visitors⟩

theorem State.OnlyRead.withVisitors (h : s.OnlyRead t) {l : List Visitor}
    (copies : ∀ v ∈ l, ∀ i, i < 64 → sectorByte v.data i = s.homeByte (v.addr + i)) :
    s.OnlyRead { t with visitors := l } := ⟨h.core, h.wf, h.home, h.sectors, copies⟩

theorem State.OnlyRead.l1Put (h : s.OnlyRead t) {x : Sector} (copy : x.CopyOf s.homeByte) : s.OnlyRead (t.l1Put x) :=
  h.withL1 fun _ hy => (mem_l1Put hy).elim (fun e => e ▸ copy) (h.sectors _)

theorem State.OnlyRead.filterL1 (h : s.OnlyRead t) (keep : Sector → Bool) : s.OnlyRead { t with l1 := t.l1.filter keep } :=
  h.withL1 fun x hx => h.sectors x (List.mem_filter.1 hx).1

/-! The bytes that a read finds -/

theorem State.OnlyRead.visitorFind (h : s.OnlyRead t) {pa : Nat} {v : Visitor} (found : t.visitorFind pa = some v) :
    sectorByte v.data (pa % 64) = s.homeByte pa := by
  have at_ : v.addr = sectorOf pa := by simpa using List.find?_some found
  rw [h.visitors v (List.mem_of_find?_eq_some found) _ (Nat.mod_lt _ (by omega)), at_, sectorOf_add_mod]

theorem State.OnlyRead.behindL1 (h : s.OnlyRead t) (pa : Nat) : t.behindL1 pa = s.homeByte pa := by
  unfold State.behindL1
  split
  · split
    · next v found => exact h.visitorFind found
    · exact h.home pa
  · exact h.home pa

/-- Every read finds the byte of the home. -/
theorem State.OnlyRead.readByte (h : s.OnlyRead t) (core : Nat) (mode : ReadMode) (pa : Nat) :
    t.readByte core mode pa = s.homeByte pa := by
  unfold State.readByte
  cases found : t.l1Find (t.cacheOf core) pa with
  | none => cases mode <;> simp [h.home, h.behindL1]
  | some x =>
    have copy := h.sectors x (l1Find_mem found)
    have at_ : x.addr = sectorOf pa := by
      have := List.find?_some found
      simp only [Bool.and_eq_true, beq_iff_eq] at this
      exact this.2
    cases mode with
    | home => exact h.home pa
    | fresh => simp [copy.clean, h.home]
    | behind => simp [copy.clean, h.behindL1]
    | plain =>
      simp only
      split
      · next valid => rw [copy.copies _ (Nat.mod_lt _ (by omega)) valid, at_, sectorOf_add_mod]
      · exact h.behindL1 pa

theorem State.OnlyRead.sameMemory (h : s.OnlyRead t) (rests : s.OnlyRead s) : s.sameMemory t := fun core mode pa =>
  (h.readByte core mode pa).trans (rests.readByte core mode pa).symm

/-- No byte is in error. -/
theorem State.OnlyRead.badByte (h : s.OnlyRead t) (sound : s.poison = []) (core : Nat) (mode : ReadMode) (pa n : Nat) :
    t.badByte core mode pa n = false := by
  have calm : (t.l1.any fun x => x.cache == t.cacheOf core && x.bad != 0 &&
      (upTo 64).any fun i => x.bad.getLsbD i && decide (pa ≤ x.addr + i) && decide (x.addr + i < pa + n) &&
        (t.served1 core mode pa n == .plain || x.dirty.getLsbD i)) = false :=
    List.any_eq_false.2 fun x hx => by simp [(h.sectors x hx).sound]
  unfold State.badByte
  rw [h.poison, sound]
  simp only [List.any_nil, Bool.false_or, calm, Bool.and_false]

/-! What a read leaves in the caches -/

theorem State.OnlyRead.writeBackSector (h : s.OnlyRead t) {x : Sector} (copy : x.CopyOf s.homeByte) :
    s.OnlyRead (t.writeBackSector x) := by
  rw [writeBackSector_clean copy.clean]
  exact h.l1Put copy

theorem State.OnlyRead.l1Evict (h : s.OnlyRead t) (cache : Nat) (keep : Option Nat) : s.OnlyRead (t.l1Evict cache keep) := by
  rw [l1Evict_eq]
  exact (List.foldlRecOn (motive := fun t => s.OnlyRead t) _ _ (h.counted ⟨t.perf, t.draws + 1, rfl⟩) fun u hu x hx =>
    hu.writeBackSector (h.sectors x (List.mem_filter.1 (List.mem_filter.1 hx).1).1)).filterL1 _

theorem State.OnlyRead.l1Trim (h : s.OnlyRead t) (cache more : Nat) (keep : Option Nat) : s.OnlyRead (t.l1Trim cache more keep) := by
  unfold State.l1Trim
  split
  · exact h
  · exact foldl_kept _ (fun t => s.OnlyRead t) (fun _ _ h => h.l1Evict _ _) _ _ h

theorem State.OnlyRead.l1Room (h : s.OnlyRead t) (cache pa : Nat) : s.OnlyRead (t.l1Room cache pa) := h.l1Trim _ _ _

theorem State.OnlyRead.cleanHome (h : s.OnlyRead t) (pa n : Nat) : s.OnlyRead (t.cleanHome pa n) :=
  ⟨h.core, cleanHome_wf h.wf pa n, fun b => (homeByte_cleanHome h.wf pa n b).trans (h.home b), h.sectors, h.visitors⟩

theorem State.OnlyRead.homeRoom (h : s.OnlyRead t) (pa : Nat) : s.OnlyRead (t.homeRoom pa) := by
  have give (lines : List Nat) : s.OnlyRead (t.giveLine lines) := by
    unfold State.giveLine
    have dropped : s.OnlyRead { t with
        draws := t.draws + 1
        visitors := t.visitors.filter fun v => v.addr / 128 != 128 * lines.getD (Config.choice t.draws % lines.length) 0 / 128 } :=
      (h.counted ⟨t.perf, t.draws + 1, rfl⟩).withVisitors fun v hv => h.visitors v (List.mem_filter.1 hv).1
    dsimp only
    split
    · exact dropped
    · exact dropped.cleanHome _ _
  unfold State.homeRoom
  dsimp only
  split
  · exact h
  · split
    · exact h
    · exact give _

theorem State.OnlyRead.visitorFill (h : s.OnlyRead t) (pa : Nat) : s.OnlyRead (t.visitorFill pa) := by
  unfold State.visitorFill
  refine foldl_kept _ (fun t => s.OnlyRead t) (fun t a h => ?_) _ _ h
  dsimp only
  split
  · exact h
  · have roomy := h.homeRoom a
    refine roomy.withVisitors fun v hv i hi => ?_
    rcases List.mem_cons.1 hv with rfl | old
    · rw [sectorByte_ofBytes _ hi, homeRead_getD _ _ hi, roomy.home]
    · exact roomy.visitors v old i hi

theorem State.OnlyRead.l1Get (h : s.OnlyRead t) (cache pa : Nat) : (t.l1Get cache pa).CopyOf s.homeByte := by
  unfold State.l1Get
  cases found : t.l1Find cache pa with
  | none => exact ⟨rfl, rfl, fun i _ valid => by simp at valid⟩
  | some x => exact h.sectors x (l1Find_mem found)

/-- A byte from behind the L1 joins a copy. -/
theorem Sector.CopyOf.insert {home : Nat → Byte} {y : Sector} (copy : y.CopyOf home) {i : Nat} (hi : i < 64) :
    ({ y with
      data := BitVec.ofNat 512 (insertBits y.data.toNat (8 * i) 8 (home (y.addr + i)).toNat)
      valid := y.valid ||| byteMask i 1
      bad := y.bad &&& ~~~byteMask i 1 } : Sector).CopyOf home := by
  refine ⟨copy.clean, by simp [copy.sound], fun j hj valid => ?_⟩
  simp only [sectorByte_insert_byte _ _ hj]
  split
  · next e => rw [e]
  · next ne =>
    refine copy.copies j hj ?_
    rw [BitVec.getLsbD_or, byteMask_getLsbD (by omega), decide_eq_false (by omega), Bool.or_false] at valid
    exact valid

theorem State.OnlyRead.fillSector (h : s.OnlyRead t) (sound : s.poison = []) (cache pa : Nat) :
    s.OnlyRead (t.fillSector cache pa) := by
  unfold State.fillSector
  split
  · exact h
  · have roomy := h.l1Room cache pa
    have got := roomy.l1Get cache pa
    refine roomy.l1Put (List.foldlRecOn (motive := fun (y : Sector) => y.addr = ((t.l1Room cache pa).l1Get cache pa).addr ∧
      y.CopyOf s.homeByte) (upTo 64) _ ⟨rfl, got⟩ fun y hy i hi => ?_).2
    obtain ⟨at_, copy⟩ := hy
    simp only [got.clean, roomy.poison, sound, BitVec.ofNat_eq_ofNat, BitVec.getLsbD_zero, Bool.false_eq_true, ↓reduceIte, List.contains_nil,
      roomy.behindL1, ← at_, true_and]
    exact copy.insert (List.mem_range.1 hi)

theorem State.OnlyRead.fillLine (h : s.OnlyRead t) (sound : s.poison = []) (core pa : Nat) : s.OnlyRead (t.fillLine core pa) := by
  unfold State.fillLine
  dsimp only
  split
  · exact ((h.visitorFill pa).fillSector sound _ _).fillSector sound _ _
  · exact (h.fillSector sound _ _).fillSector sound _ _

theorem State.OnlyRead.visitorDrop (h : s.OnlyRead t) (pa : Nat) : s.OnlyRead (t.visitorDrop pa) :=
  h.withVisitors fun v hv => h.visitors v (List.mem_filter.1 hv).1

theorem State.OnlyRead.forgetClean (h : s.OnlyRead t) (core pa : Nat) (deep : Bool) : s.OnlyRead (t.forgetClean core pa deep) := by
  have forget {t : State} (h : s.OnlyRead t) : s.OnlyRead (match t.l1Find (t.cacheOf core) pa with
      | some x => t.l1Put { x with valid := x.dirty, bad := x.bad &&& x.dirty }
      | none => t) := by
    split
    · next x found =>
      have copy := h.sectors x (l1Find_mem found)
      exact h.l1Put ⟨copy.clean, by simp [copy.sound], fun i _ valid => by simp [copy.clean] at valid⟩
    · exact h
  cases deep with
  | false => exact forget h
  | true => exact forget (h.visitorDrop pa)

theorem State.OnlyRead.writeBackDrop (h : s.OnlyRead t) (core pa : Nat) : s.OnlyRead (t.writeBackDrop core pa) := by
  unfold State.writeBackDrop
  split
  · next x found => exact (h.writeBackSector (h.sectors x (l1Find_mem found))).filterL1 _
  · exact h

theorem State.OnlyRead.afterLoad (h : s.OnlyRead t) (sound : s.poison = []) (core : Nat) (attr : Attr) (alloc : Bool) (pa : Nat) :
    s.OnlyRead (t.afterLoad core attr alloc pa) := by
  have far : s.OnlyRead (if t.isRemote pa then t.visitorFill pa else t) := by
    split
    · exact h.visitorFill pa
    · exact h
  unfold State.afterLoad
  split
  · exact h
  · cases attr with
    | window => exact h
    | uncached => exact h
    | streaming => exact far
    | cached =>
      dsimp only
      split
      · exact h.fillLine sound core pa
      · exact far

theorem State.OnlyRead.afterRead (h : s.OnlyRead t) (sound : s.poison = []) (core : Nat) (attr : Attr) (served : ReadMode)
    (alloc : Bool) (pa : Nat) : s.OnlyRead (t.afterRead core attr served alloc pa) := by
  unfold State.afterRead
  split
  · exact h
  · cases served with
    | plain => exact h.afterLoad sound core attr alloc pa
    | behind => exact (h.forgetClean core pa false).afterLoad sound core attr alloc pa
    | fresh => exact h.forgetClean core pa true
    | home => exact h.forgetClean core pa true

theorem State.OnlyRead.seenByRest (h : s.OnlyRead t) (pa n : Nat) : s.OnlyRead (t.seenByRest pa n) := by
  refine ⟨Eq.trans ?_ h.core, h.wf, h.home, h.sectors, h.visitors⟩
  unfold State.readCore State.seenByRest
  rw [List.map_map, show Hart.unseen ∘ Hart.seenBy pa n = Hart.unseen from funext fun g => Hart.unseen_seenBy pa n g]

/-- A read of a place returns the bytes of its home (R171, R176, R306). -/
theorem State.OnlyRead.readPhys (h : s.OnlyRead t) (sound : s.poison = []) (delivers : s.cur.undelivered = []) (p : Phys) (n : Nat)
    (mode : ReadMode) (alloc : Bool) (va : Word) (tidx : Nat) :
    ∃ u, readPhys p n mode alloc va tidx t = .ok (s.homeRead p.pa n) u ∧ s.OnlyRead u := by
  have passed : s.OnlyRead (t.passL1 p) := by
    unfold State.passL1
    split
    · exact h.writeBackDrop _ _
    · exact h
  have calm : (t.passL1 p).cur.undelivers p.pa n = false := by
    unfold Hart.undelivers
    rw [passed.cur, delivers]
    rfl
  have found (mode : ReadMode) : (t.passL1 p).readBytes (t.passL1 p).cur.core mode p.pa n = s.homeRead p.pa n :=
    List.map_congr_left fun i _ => passed.readByte _ _ _
  obtain ⟨md, wanted⟩ : ∃ md, p.attr.mode (if mode = .plain && !alloc && ((t.passL1 p).l1Find ((t.passL1 p).cacheOf
    (t.passL1 p).cur.core) p.pa).any (fun x => x.dirty != 0) then .behind else mode) = md := ⟨_, rfl⟩
  refine ⟨((((t.passL1 p).afterRead (t.passL1 p).cur.core p.attr ((t.passL1 p).served1 (t.passL1 p).cur.core md p.pa n) alloc
    p.pa).countRead (t.passL1 p).cur.core (t.passL1 p).cur.part p.attr ((t.passL1 p).served1 (t.passL1 p).cur.core md p.pa n)
    p.pa n).seenByRest p.pa n), ?_, ((passed.afterRead sound _ _ _ _ _).counted (countRead_counts _ _ _ _ _ _ _)).seenByRest _ _⟩
  unfold Machine.readPhys
  refine (bind_ok (m := modify fun s => s.passL1 p) (t := t.passL1 p) (a := ()) rfl).trans ?_
  refine (bind_ok (m := get) rfl).trans ?_
  dsimp only
  rw [wanted, passed.badByte sound, calm, found]
  rfl

end

end Sys2Proof.Machine
end

section
/-! A tile is loaded from memory (R154). -/

namespace Sys2Proof.Machine

/-- A 64-bit unit of a tile is two of its words (R154). -/
theorem bits_unit (n u : Nat) : bits n (64 * u) 64 = bits n (32 * (2 * u)) 32 + 2 ^ 32 * bits n (32 * (2 * u + 1)) 32 := by
  apply Nat.eq_of_testBit_eq
  intro k
  rw [Nat.add_comm, Nat.testBit_two_pow_mul_add _ (show bits n (32 * (2 * u)) 32 < 2 ^ 32 from Nat.mod_lt _ (Nat.two_pow_pos 32)), bits_testBit]
  split
  · next low => rw [bits_testBit, show 32 * (2 * u) + k = 64 * u + k by omega]; simp [low, show k < 64 by omega]
  · next high =>
    rw [bits_testBit, show 32 * (2 * u + 1) + (k - 32) = 64 * u + k by omega]
    congr 1
    exact decide_eq_decide.2 (by omega)

theorem leNat_lt : ∀ (bs : List Byte), leNat bs < 256 ^ bs.length
  | [] => by simp [leNat]
  | b :: bs => by
    have low := b.isLt
    have high := leNat_lt bs
    rw [List.length_cons, Nat.pow_succ]
    unfold leNat
    omega

/-- What a unit of 8 bytes with value `v u` writes into word `q` of a tile. -/
def unitWord (v : Nat → Nat) (q : Nat) : Nat := if q % 2 = 0 then v (q / 2) % 2 ^ 32 else v (q / 2) / 2 ^ 32

/-- The units of a tile after some were loaded (R154). -/
theorem Tile.put_units (tile : Tile) {rs : List (Nat × Nat)} {v : Nat → Nat} (value : ∀ r ∈ rs, r.2 = v r.1)
    (small : ∀ u, v u < 2 ^ 64) (tag : TileTag) {u : Nat} (hu : u < 2048) :
    bits (tile.put (unitWords rs) tag).img.toNat (64 * u) 64 =
      if u ∈ rs.map Prod.fst then v u else bits tile.img.toNat (64 * u) 64 := by
  have words : ∀ w ∈ unitWords rs, w.2 = unitWord v w.1 := by
    intro w hw
    obtain ⟨r, hr, at_⟩ := List.mem_flatMap.1 hw
    rw [value r hr] at at_
    rcases List.mem_pair.1 at_ with rfl | rfl
    · rw [unitWord, if_pos (by omega), show 2 * r.1 / 2 = r.1 by omega]
    · rw [unitWord, if_neg (by omega), show (2 * r.1 + 1) / 2 = r.1 by omega]
  have named (q : Nat) : q ∈ (unitWords rs).map Prod.fst ↔ q / 2 ∈ rs.map Prod.fst := by
    unfold unitWords
    simp only [List.map_flatMap, List.map_cons, List.map_nil, List.mem_flatMap, List.mem_pair, List.mem_map]
    exact exists_congr fun r => and_congr_right fun _ => by omega
  rw [bits_unit, tile.put_word words tag (by omega), tile.put_word words tag (by omega)]
  simp only [named, show 2 * u / 2 = u by omega, show (2 * u + 1) / 2 = u by omega]
  split
  · have := small u
    rw [unitWord, unitWord, if_pos (by omega), if_neg (by omega), show 2 * u / 2 = u by omega, show (2 * u + 1) / 2 = u by omega]
    omega
  · exact (bits_unit _ u).symm

theorem Hart.with_no_early {h : Hart} (none_ : h.early = []) : { h with early := [] } = h := by
  rw [← none_]

/-- Without a scalar write that it may be performed before, an access settles nothing (R191). -/
theorem Hart.settle_none {h : Hart} (none_ : h.early = []) (pa n : Nat) : h.settle pa n = h := by
  unfold Hart.settle
  rw [none_]
  exact Hart.with_no_early none_

/-- It returns the bytes as they stand (R191). -/
theorem earlyRead_none {t : State} (none_ : t.cur.early = []) (rad pa : Nat) (bs : List Byte) : earlyRead rad pa bs t = .ok bs t := by
  have settled_ : t.onCur (Hart.settle pa bs.length) = t := by
    unfold State.onCur
    rw [Hart.settle_none none_]
  unfold earlyRead
  refine (curHart_bind _).trans ?_
  rw [none_]
  exact congrArg (EStateM.Result.ok bs) settled_

/-- With no early store and no progress, the instruction ends with the hart as it is. -/
theorem Hart.ageEarly_none {h : Hart} (none_ : h.early = []) (fresh : h.progress = {}) : { h.ageEarly with progress := {} } = h := by
  unfold Hart.ageEarly
  rw [none_, ← fresh]
  exact Hart.with_no_early none_

section
variable {s : State} (ready : s.MatrixReady) (rests : s.Rests) (fresh : s.cur.progress = {}) (uncut : s.cut = none) {t : BitVec 4}
  {a b : BitVec 5} {m : BitVec 3} {p : Nat → Phys} (live : (s.cur.getT t).tag ≠ .dead) (base : (s.x a).toNat % 8 = 0)
  (pitch : (s.x b).toNat % 8 = 0)
include ready rests fresh uncut live base pitch

/-- `mld` reads the enabled rows of a tile, 8 bytes a unit (R154). -/
theorem mld_completes (served : ∀ u, tileUnits (s.cur.getM m) u = true → s.ServesUnit .read
      (s.x a + BitVec.ofNat 64 (u / 32) * s.x b + BitVec.ofNat 64 (8 * (u % 32))) (p u)) :
    ∃ (r : State) (w : Tile), exec (.mld t a b m) s = .next r ∧ r.cur.pc = s.cur.pc + 4 ∧ r.cur.wait = .awake ∧
      s.sameMemory r ∧ w.tag = (s.cur.getT t).tag ∧
      (∀ u, u < 2048 → bits w.img.toNat (64 * u) 64 =
        if tileUnits (s.cur.getM m) u then leNat (s.homeRead (p u).pa 8) else bits (s.cur.getT t).img.toNat (64 * u) 64) ∧
      r.bare = { s with
        cur := s.cur.setT t w, l1 := r.l1, l2 := r.l2, hbm := r.hbm, visitors := r.visitors, choices := r.choices, draws := r.draws }.bare := by
  have start : s.OnlyRead s := .refl rests.quiet.l1 rests.quiet.visitors rests.wf
  obtain ⟨ordered, s₁, order, from_, runs⟩ := tileAccess_runs ready fresh uncut live base pitch false served
  have start₁ : s.OnlyRead s₁ := by
    rcases from_ with rfl | rfl
    · exact start
    · exact start.drawn
  obtain ⟨s₂, performed, ends⟩ := performUnits_ok (I := fun _ u => s.OnlyRead u) (g := fun up => leNat (s.homeRead up.2.pa 8))
    (f := tileUnitAccess (s.cur.getT t) (s.capture [s.x a, s.x b]) false) (all := ordered) (by
      intro _ up _ u _ kept
      obtain ⟨v, read, kept'⟩ := kept.readPhys rests.quiet.poison rests.delivers.accesses up.2 8 .plain
        ((s.capture [s.x a, s.x b]).vbyp != 0 && decide (64 * 256 ≤ (s.capture [s.x a, s.x b]).vbyp.toNat))
        (tileUnit (s.capture [s.x a, s.x b]).operands up.1) up.1
      refine ⟨v, (bind_ok read).trans ?_, kept'⟩
      exact (bind_ok (earlyRead_none (by rw [kept'.cur, rests.early]) _ _ _)).trans rfl) ordered [] s₁ rfl start₁
  obtain ⟨w, written⟩ : ∃ w, (s.cur.getT t).put (unitWords (ordered.map fun up => (up.1, leNat (s.homeRead up.2.pa 8))))
    (s.cur.getT t).tag = w := ⟨_, rfl⟩
  have value : ∀ r ∈ ordered.map (fun up => (up.1, leNat (s.homeRead up.2.pa 8))), r.2 = leNat (s.homeRead (p r.1).pa 8) := by
    intro r hr
    obtain ⟨up, hup, rfl⟩ := List.mem_map.1 hr
    obtain ⟨u, hu, rfl⟩ := List.mem_map.1 (order.mem_iff.1 hup)
    rfl
  have named (u : Nat) : u ∈ (ordered.map fun up => (up.1, leNat (s.homeRead up.2.pa 8))).map Prod.fst ↔
      tileUnits (s.cur.getM m) u = true := by
    rw [List.map_map, (order.map _).mem_iff, List.map_map]
    simp [tileUnits, upTo]
  have hart : s₂.tileDone t (s.cur.getT t) false (ordered.map fun up => (up.1, leNat (s.homeRead up.2.pa 8))) =
      (({ s₂ with cur := s.cur.setT t w } : State).countCur 0x03 1).retire := by
    have put : s.cur.putT t (unitWords (ordered.map fun up => (up.1, leNat (s.homeRead up.2.pa 8)))) (s.cur.getT t).tag =
        s.cur.setT t w := by
      rw [Hart.putT_sound ready.tiles, written]
    have aged : { (s.cur.setT t w).ageEarly with progress := {} } = s.cur.setT t w := Hart.ageEarly_none rests.early fresh
    unfold State.tileDone
    rw [if_neg (by decide), ends.cur, put]
    exact congrArg (fun h => (({ s₂ with cur := h } : State).countCur 0x03 1).retire) aged
  obtain ⟨r, same, pc, awake, bare, memory⟩ := completes_retireVector (s := s₂) (s.cur.setT t w)
  injection same with same
  have kept : r.l1 = s₂.l1 ∧ r.l2 = s₂.l2 ∧ r.hbm = s₂.hbm ∧ r.visitors = s₂.visitors ∧ r.choices = s₂.choices := by
    rw [← same]
    simp
  obtain ⟨l1, l2, hbm, visitors, choices⟩ := kept
  refine ⟨r, w, (runs _ _ performed).trans (by rw [hart, same]), pc, awake, fun core mode pa => ?_, ?_, fun u hu => ?_, ?_⟩
  · exact (memory core mode pa).trans (ends.sameMemory start core mode pa)
  · rw [← written, Tile.put_tag]
  · have small (u : Nat) : leNat (s.homeRead (p u).pa 8) < 2 ^ 64 :=
      lt_of_lt_of_eq (leNat_lt _) (by simp [State.homeRead, upTo])
    rw [← written, Tile.put_units (v := fun u => leNat (s.homeRead (p u).pa 8)) _ value small _ hu]
    exact if_congr (named u) rfl rfl
  · rw [bare, ends.bare, l1, l2, hbm, visitors, choices]
    rfl
end

end Sys2Proof.Machine
end

section
/-! Stores of a tile's units (R155, R171, R193): after each, the core reads what it stored and elsewhere what it read before. -/

namespace Sys2Proof.Machine

/-! What stores leave alone -/

/-- A hart without its links, who may know of its stores, and its writes that wait for their acknowledgement. -/
def Hart.unsent (h : Hart) : Hart := { h.unlinked with unacked := [] }

/-- A state without what stores may change. -/
def State.storeCore (s : State) : State := { s with
  cur := s.cur.unsent, rest := s.rest.map Hart.unlinked, l1 := [], l2 := [], hbm := [], visitors := [], poison := [], recoded := []
  spoiled := [], perf := [], choices := [], draws := 0 }

theorem Hart.unlinked_seenBy (pa n : Nat) (h : Hart) : (h.seenBy pa n).unlinked = h.unlinked := by
  unfold Hart.unlinked
  rw [Hart.unseen_seenBy]

theorem Hart.unlinked_breakLinks (pa n : Nat) (h : Hart) : (h.breakLinks pa n).unlinked = h.unlinked := rfl

theorem cacheOf_of_storeCore {s t : State} (core : t.storeCore = s.storeCore) (c : Nat) : t.cacheOf c = s.cacheOf c := by
  have fused := congrArg State.fused core
  unfold State.storeCore at fused
  unfold State.cacheOf
  rw [fused]

theorem storeCore_mapHarts {f : Hart → Hart} (same : ∀ h, (f h).unlinked = h.unlinked) (t : State) :
    (t.mapHarts f).storeCore = t.storeCore := by
  unfold State.storeCore State.mapHarts Hart.unsent
  rw [List.map_map, show Hart.unlinked ∘ f = Hart.unlinked from funext same, same]

theorem storeCore_homePut (t : State) (pa : Nat) (bs : List Byte) (pick : Hart → Bool) :
    (t.homePut pa bs pick).storeCore = t.storeCore := by
  have breaks (h : Hart) : ((if pick h then h.seenBy pa bs.length else h).breakLinks pa bs.length).unlinked = h.unlinked := by
    rw [Hart.unlinked_breakLinks]
    split
    · exact Hart.unlinked_seenBy _ _ h
    · rfl
  refine (storeCore_mapHarts breaks _).trans ?_
  split
  · rfl
  · obtain ⟨_, _, _, _, trimmed⟩ := trimHome_frame { t with l2 := cellsWrite true t.l2 pa bs } pa bs.length
    rw [trimmed]
    rfl

theorem storeCore_counted {t u : State} (e : ∃ p d, u = { t with perf := p, draws := d }) : u.storeCore = t.storeCore := by
  obtain ⟨p, d, rfl⟩ := e
  rfl

theorem storeCore_homeWrite (t : State) (pa : Nat) (bs : List Byte) : (t.homeWrite pa bs).storeCore = t.storeCore :=
  (storeCore_homePut (t.countHome pa bs.length) pa bs fun _ => true).trans (storeCore_counted (countHome_counts t pa bs.length))

theorem homePut_poison (t : State) (pa : Nat) (bs : List Byte) (pick : Hart → Bool) :
    (t.homePut pa bs pick).poison = t.poison.filter fun a => decide (a < pa) || decide (pa + bs.length ≤ a) := by
  have trimmed : (if touchesTile pa bs.length then { t with hbm := cellsWrite false t.hbm pa bs }
      else { t with l2 := cellsWrite true t.l2 pa bs }.trimHome pa bs.length).poison = t.poison := by
    split
    · rfl
    · obtain ⟨_, _, _, _, trimmed⟩ := trimHome_frame { t with l2 := cellsWrite true t.l2 pa bs } pa bs.length
      rw [trimmed]
  exact congrArg (List.filter _) trimmed

/-! Sectors found in an L1 -/

section
variable {t : State} {c b : Nat}

theorem l1Get_addr (t : State) (c b : Nat) : (t.l1Get c b).addr = sectorOf b := by
  unfold State.l1Get
  cases found : t.l1Find c b with
  | none => rfl
  | some x =>
    have here := List.find?_some found
    simp only [Bool.and_eq_true, beq_iff_eq] at here
    exact here.2

theorem l1Get_cache (t : State) (c b : Nat) : (t.l1Get c b).cache = c := by
  unfold State.l1Get
  cases found : t.l1Find c b with
  | none => rfl
  | some x =>
    have here := List.find?_some found
    simp only [Bool.and_eq_true, beq_iff_eq] at here
    exact here.1

theorem l1Get_congr {u : State} (l1 : u.l1 = t.l1) (c b : Nat) : u.l1Get c b = t.l1Get c b := by
  unfold State.l1Get State.l1Find
  rw [l1]

theorem l1Get_sector (t : State) (c : Nat) {a b : Nat} (same : sectorOf a = sectorOf b) : t.l1Get c a = t.l1Get c b := by
  unfold State.l1Get State.l1Find
  rw [same]

theorem Sector.blank_clean (c b i : Nat) : (Sector.blank c b).dirty.getLsbD i = false := by
  simp [Sector.blank]

theorem mem_of_dirty {i : Nat} (dirty : (t.l1Get c b).dirty.getLsbD i = true) : t.l1Get c b ∈ t.l1 := by
  unfold State.l1Get at dirty ⊢
  cases found : t.l1Find c b with
  | none => simp [found] at dirty
  | some x => exact l1Find_mem found

/-- A read by the core's own dirty bytes and the homes, by the sector that a write would go to (R193). -/
theorem readByte_fresh (t : State) (core b : Nat) : t.readByte core .fresh b =
    if (t.l1Get (t.cacheOf core) b).dirty.getLsbD (b % 64) then sectorByte (t.l1Get (t.cacheOf core) b).data (b % 64)
    else t.homeByte b := by
  unfold State.readByte State.l1Get
  cases t.l1Find (t.cacheOf core) b <;> simp

/-- The sectors of the other addresses stay when those of one are dropped. -/
theorem l1Get_dropped {u : State} {pa : Nat} (l1 : u.l1 = t.l1.filter fun y => !(y.cache == c && y.addr == sectorOf pa))
    (other : sectorOf b ≠ sectorOf pa) : u.l1Get c b = t.l1Get c b := by
  unfold State.l1Get State.l1Find
  rw [l1, List.find?_filter]
  refine congrArg (Option.getD · _) (List.find?_congr fun y _ => ?_)
  by_cases here : y.addr = sectorOf b
  · simp [here, other, beq_eq_decide]
  · simp [here]

/-- A sector put into an L1 is found there, and the others as before. -/
theorem l1Get_l1Put {x : Sector} (live : x.valid ≠ 0) (c b : Nat) :
    (t.l1Put x).l1Get c b = if x.cache = c ∧ x.addr = sectorOf b then x else t.l1Get c b := by
  have l1 : (t.l1Put x).l1 = x :: t.l1.filter fun y => !(y.cache == x.cache && y.addr == x.addr) := if_neg live
  unfold State.l1Get State.l1Find
  rw [l1, List.find?_cons]
  by_cases here : x.cache = c ∧ x.addr = sectorOf b
  · simp [here]
  · rw [if_neg here]
    have missed : (x.cache == c && x.addr == sectorOf b) = false := by simpa using here
    rw [missed, List.find?_filter]
    refine congrArg (Option.getD · _) (List.find?_congr fun y _ => ?_)
    by_cases hit : y.cache = c ∧ y.addr = sectorOf b
    · have apart : ¬(y.cache = x.cache ∧ y.addr = x.addr) := fun e => here ⟨e.1.symm.trans hit.1, e.2.symm.trans hit.2⟩
      have kept : (y.cache == x.cache && y.addr == x.addr) = false := by simpa using apart
      rw [kept]
      simp [hit]
    · have missed : (y.cache == c && y.addr == sectorOf b) = false := by simpa using hit
      simp [missed]

end

/-! Bytes written into a sector -/

/-- A sector with bytes written from byte `i` on, dirty (R171). -/
def Sector.withBytes (x : Sector) (i : Nat) (bs : List Byte) : Sector := { x with
  data := BitVec.ofNat 512 (insertBits x.data.toNat (8 * i) (8 * bs.length) (leNat bs))
  valid := x.valid ||| byteMask i bs.length
  dirty := x.dirty ||| byteMask i bs.length
  bad := x.bad &&& ~~~byteMask i bs.length }

theorem Sector.withBytes_dirty (x : Sector) {i : Nat} {bs : List Byte} (fits : i + bs.length ≤ 64) (j : Nat) :
    (x.withBytes i bs).dirty.getLsbD j = (x.dirty.getLsbD j || decide (i ≤ j ∧ j < i + bs.length)) := by
  rw [← byteMask_getLsbD fits]
  exact BitVec.getLsbD_or

theorem Sector.withBytes_byte (x : Sector) (i : Nat) {bs : List Byte} {j : Nat} (hj : j < 64) :
    sectorByte (x.withBytes i bs).data j = if i ≤ j ∧ j < i + bs.length then bs.getD (j - i) 0 else sectorByte x.data j :=
  sectorByte_insert x.data bs hj

theorem Sector.withBytes_live (x : Sector) {i : Nat} {bs : List Byte} (fits : i + bs.length ≤ 64) (some_ : 0 < bs.length) :
    (x.withBytes i bs).valid ≠ 0 := by
  intro none_
  have bit : (x.valid ||| byteMask i bs.length).getLsbD i = (0 : BitVec 64).getLsbD i := congrArg (·.getLsbD i) none_
  rw [BitVec.getLsbD_or, byteMask_getLsbD fits, decide_eq_true (by omega)] at bit
  simp at bit

theorem l1Get_sound {t : State} (sound : ∀ x ∈ t.l1, x.bad = 0) (c b : Nat) : (t.l1Get c b).bad = 0 := by
  unfold State.l1Get
  cases found : t.l1Find c b with
  | none => rfl
  | some x => exact sound x (l1Find_mem found)

theorem l1Put_length_le (t : State) (x : Sector) : (t.l1Put x).l1.length ≤ t.l1.length + 1 := by
  have others := List.length_filter_le (fun y : Sector => !(y.cache == x.cache && y.addr == x.addr)) t.l1
  unfold State.l1Put
  dsimp only
  split
  · exact others.trans (Nat.le_succ _)
  · exact Nat.succ_le_succ others

/-! A sector sent home -/

/-- Bytes of a sector that are sent to their homes stand there, and every other byte is as before (R171). -/
theorem homeByte_sendBytes (x : Sector) (pick : Hart → Bool) (b : Nat) : ∀ (l : List Nat) {t : State}, t.Canonical →
    (l.foldl (fun (t : State) i => t.homePut (x.addr + i) [sectorByte x.data i] pick) t).homeByte b =
      if x.addr ≤ b ∧ b - x.addr ∈ l then sectorByte x.data (b - x.addr) else t.homeByte b
  | [], _, _ => by simp
  | i :: l, t, canonical => by
    obtain ⟨other, same⟩ := homeByte_homePut canonical.wf (x.addr + i) [sectorByte x.data i] pick
    rw [List.foldl_cons, homeByte_sendBytes x pick b l (homePut_canonical canonical _ _ _)]
    by_cases later : x.addr ≤ b ∧ b - x.addr ∈ l
    · rw [if_pos later, if_pos ⟨later.1, List.mem_cons_of_mem _ later.2⟩]
    · rw [if_neg later]
      by_cases here : b = x.addr + i
      · subst here
        rw [if_pos ⟨by omega, by simp⟩, Nat.add_sub_cancel_left]
        exact same 0 (by simp) fun tile => canonical.tiles _ (by simpa [touchesTile] using tile)
      · rw [other b (by simp only [List.length_singleton]; omega), if_neg]
        rintro ⟨above, mem⟩
        rcases List.mem_cons.1 mem with e | mem
        · omega
        · exact later ⟨above, mem⟩

theorem homeByte_writeBackSector {t : State} (canonical : t.Canonical) {x : Sector} (sound : x.bad = 0) (b : Nat) :
    (t.writeBackSector x).homeByte b =
      if x.addr ≤ b ∧ b - x.addr < 64 ∧ x.dirty.getLsbD (b - x.addr) = true then sectorByte x.data (b - x.addr) else t.homeByte b := by
  obtain ⟨sent, is_sent⟩ : ∃ l, ((upTo 64).filter fun i => x.dirty.getLsbD i && !x.bad.getLsbD i) = l := ⟨_, rfl⟩
  have mem (i : Nat) : i ∈ sent ↔ i < 64 ∧ x.dirty.getLsbD i = true := by
    rw [← is_sent]
    simp [upTo, sound]
  obtain ⟨counted, is_counted⟩ : ∃ u, (if sent.isEmpty then t else (t.countHome x.addr 64).countSent
    (if 256 ≤ x.cache then 4 * (x.cache - 256) else x.cache) x.addr sent.length true) = u := ⟨_, rfl⟩
  have counts : ∃ p d, counted = { t with perf := p, draws := d } := by
    rw [← is_counted]
    split
    · exact ⟨t.perf, t.draws, rfl⟩
    · exact countHomeSent_counts ..
  have home : counted.homeByte b = t.homeByte b := by
    obtain ⟨p, d, rfl⟩ := counts
    rfl
  unfold State.writeBackSector
  dsimp only
  rw [is_sent, is_counted]
  refine (homeByte_sendBytes x _ b sent (counted_canonical canonical counts)).trans ?_
  rw [home]
  exact if_congr (and_congr_right fun _ => mem _) rfl rfl

theorem storeCore_writeBackSector (t : State) (x : Sector) : (t.writeBackSector x).storeCore = t.storeCore := by
  refine foldl_kept (fun (u : State) i => u.homePut (x.addr + i) [sectorByte x.data i] fun h => t.cacheOf h.core != x.cache)
    (fun u => u.storeCore = t.storeCore) (fun u i same => (storeCore_homePut _ _ _ _).trans same) _ _ ?_
  split
  · rfl
  · exact storeCore_counted (countHomeSent_counts ..)

theorem writeBackSector_poison {t : State} (sound : t.poison = []) (x : Sector) : (t.writeBackSector x).poison = [] := by
  refine foldl_kept (fun (u : State) i => u.homePut (x.addr + i) [sectorByte x.data i] fun h => t.cacheOf h.core != x.cache)
    (fun u => u.poison = []) (fun u i same => by rw [homePut_poison, same, List.filter_nil]) _ _ ?_
  split
  · exact sound
  · obtain ⟨p, d, e⟩ := countHomeSent_counts t (if 256 ≤ x.cache then 4 * (x.cache - 256) else x.cache) x.addr 64
      ((upTo 64).filter fun i => x.dirty.getLsbD i && !x.bad.getLsbD i).length true
    rw [e]
    exact sound

/-- A sector that is written back and dropped leaves the other sectors (R172). -/
theorem writeBackDrop_l1 (t : State) (core pa : Nat) : (t.writeBackDrop core pa).l1 =
    t.l1.filter fun y => !(y.cache == t.cacheOf core && y.addr == sectorOf pa) := by
  unfold State.writeBackDrop
  cases found : t.l1Find (t.cacheOf core) pa with
  | none => exact (List.filter_eq_self.2 fun y hy => by simpa [imp_iff_not_or] using List.find?_eq_none.1 found y hy).symm
  | some x =>
    have here := List.find?_some found
    simp only [Bool.and_eq_true, beq_iff_eq] at here
    obtain ⟨cache, at_⟩ := here
    show ((t.writeBackSector x).l1.filter fun y => !(y.cache == t.cacheOf core && y.addr == sectorOf pa)) = _
    rw [writeBackSector_l1]
    unfold State.l1Put
    dsimp only
    rw [cache, at_]
    split
    · rw [List.filter_filter]; simp
    · rw [List.filter_cons_of_neg (by simp), List.filter_filter]; simp

theorem homeByte_writeBackDrop {t : State} (canonical : t.Canonical) (sound : ∀ x ∈ t.l1, x.bad = 0) (core pa b : Nat) :
    (t.writeBackDrop core pa).homeByte b =
      if sectorOf b = sectorOf pa ∧ (t.l1Get (t.cacheOf core) b).dirty.getLsbD (b % 64) = true then
        sectorByte (t.l1Get (t.cacheOf core) b).data (b % 64)
      else t.homeByte b := by
  unfold State.writeBackDrop
  cases found : t.l1Find (t.cacheOf core) pa with
  | none =>
    refine (if_neg fun hit => ?_).symm
    rw [l1Get_sector t _ hit.1] at hit
    simp [State.l1Get, found] at hit
  | some x =>
    have got : t.l1Get (t.cacheOf core) pa = x := by simp [State.l1Get, found]
    have at_ : x.addr = sectorOf pa := got ▸ l1Get_addr t _ pa
    refine (homeByte_writeBackSector canonical (sound x (l1Find_mem found)) b).trans ?_
    by_cases here : sectorOf b = sectorOf pa
    · have split_ := sectorOf_add_mod b
      rw [l1Get_sector t _ here, got, show b - x.addr = b % 64 by omega]
      exact if_congr ⟨fun h => ⟨here, h.2.2⟩, fun h => ⟨by omega, by omega, h.2⟩⟩ rfl rfl
    · refine (if_neg ?_).trans (if_neg fun h => here h.1).symm
      rintro ⟨above, below, -⟩
      refine here ?_
      rw [at_] at above below
      unfold sectorOf at *
      omega

/-! The state among stores -/

/-- The bytes `V` with `bs` written at `pa`. -/
def overwritten (V : Nat → Byte) (pa : Nat) (bs : List Byte) (b : Nat) : Byte :=
  if pa ≤ b ∧ b < pa + bs.length then bs.getD (b - pa) 0 else V b

/-- From `s` to `t` at most `n` stores into the L1 were performed: the core reads the bytes `V` by its own dirty bytes and the homes,
and only bytes of `D` are dirty. -/
structure State.Stored (s t : State) (V : Nat → Byte) (D : Nat → Prop) (n : Nat) : Prop where
  core : t.storeCore = s.storeCore
  canonical : t.Canonical
  poison : t.poison = []
  sectors : ∀ x ∈ t.l1, x.bad = 0 ∧ x.cache = s.cacheOf s.cur.core
  few : t.l1.length ≤ n
  view : ∀ b, t.readByte s.cur.core .fresh b = V b
  dirty : ∀ x ∈ t.l1, ∀ i, i < 64 → x.dirty.getLsbD i = true → D (x.addr + i)

section
variable {s t : State} {V : Nat → Byte} {D : Nat → Prop} {n : Nat}

theorem State.Stored.cacheOf (h : s.Stored t V D n) : t.cacheOf s.cur.core = s.cacheOf s.cur.core := cacheOf_of_storeCore h.core _

theorem State.Stored.cur (h : s.Stored t V D n) : t.cur.unsent = s.cur.unsent := by
  have cur := congrArg State.cur h.core
  unfold State.storeCore at cur
  exact cur

theorem State.Stored.curCore (h : s.Stored t V D n) : t.cur.core = s.cur.core := by
  have place := congrArg Hart.place h.cur
  unfold Hart.unsent Hart.unlinked Hart.unseen at place
  unfold Hart.core
  rw [place]

/-- What leaves the caches, the homes and the errors alone may change the rest of what stores may. -/
theorem State.Stored.congr (h : s.Stored t V D n) {u : State} (core : u.storeCore = t.storeCore) (l1 : u.l1 = t.l1) (l2 : u.l2 = t.l2)
    (hbm : u.hbm = t.hbm) (poison : u.poison = t.poison) : s.Stored u V D n := by
  refine ⟨core.trans h.core, h.canonical.congr hbm l2 l1, poison.trans h.poison, l1 ▸ h.sectors, l1 ▸ h.few, fun b => ?_,
    l1 ▸ h.dirty⟩
  have cache : u.cacheOf s.cur.core = t.cacheOf s.cur.core := cacheOf_of_storeCore core _
  have home : u.homeByte b = t.homeByte b := by unfold State.homeByte; rw [l2, hbm]
  rw [← h.view b, readByte_fresh, readByte_fresh, cache, home, l1Get_congr l1]

theorem State.Stored.counted (h : s.Stored t V D n) {u : State} (e : ∃ p d, u = { t with perf := p, draws := d }) :
    s.Stored u V D n := by
  obtain ⟨p, d, rfl⟩ := e
  exact h.congr rfl rfl rfl rfl rfl

theorem State.Stored.visitorDrop (h : s.Stored t V D n) (pa : Nat) : s.Stored (t.visitorDrop pa) V D n :=
  h.congr rfl rfl rfl rfl rfl

theorem State.Stored.mono (h : s.Stored t V D n) {D' : Nat → Prop} {n' : Nat} (more : ∀ b, D b → D' b) (le : n ≤ n') :
    s.Stored t V D' n' :=
  ⟨h.core, h.canonical, h.poison, h.sectors, h.few.trans le, h.view, fun x hx i hi d => more _ (h.dirty x hx i hi d)⟩

/-- Nothing changes for the core when it sends a sector home and drops it (R172). -/
theorem State.Stored.writeBackDrop (h : s.Stored t V D n) (pa : Nat) :
    s.Stored (t.writeBackDrop s.cur.core pa) V D n ∧ ∀ y ∈ (t.writeBackDrop s.cur.core pa).l1, y.addr ≠ sectorOf pa := by
  have l1 := writeBackDrop_l1 t s.cur.core pa
  have kept {y : Sector} (hy : y ∈ (t.writeBackDrop s.cur.core pa).l1) : y ∈ t.l1 := (List.mem_filter.1 (l1 ▸ hy)).1
  have absent : ∀ y ∈ (t.writeBackDrop s.cur.core pa).l1, y.addr ≠ sectorOf pa := by
    intro y hy at_
    have other := (List.mem_filter.1 (l1 ▸ hy)).2
    simp [(h.sectors y (kept hy)).2, h.cacheOf, at_] at other
  have core : (t.writeBackDrop s.cur.core pa).storeCore = t.storeCore := by
    unfold State.writeBackDrop
    split
    · exact storeCore_writeBackSector t _
    · rfl
  have poison : (t.writeBackDrop s.cur.core pa).poison = [] := by
    unfold State.writeBackDrop
    split
    · exact writeBackSector_poison h.poison _
    · exact h.poison
  have cache : (t.writeBackDrop s.cur.core pa).cacheOf s.cur.core = t.cacheOf s.cur.core :=
    cacheOf_of_storeCore core _
  refine ⟨⟨core.trans h.core, writeBackDrop_canonical h.canonical _ _, poison, fun y hy => h.sectors y (kept hy),
    (l1 ▸ List.length_filter_le _ _ : (t.writeBackDrop s.cur.core pa).l1.length ≤ t.l1.length).trans h.few, fun b => ?_,
    fun y hy => h.dirty y (kept hy)⟩, absent⟩
  rw [← h.view b, readByte_fresh, readByte_fresh, cache]
  rw [homeByte_writeBackDrop h.canonical fun x hx => (h.sectors x hx).1]
  by_cases here : sectorOf b = sectorOf pa
  · have gone : (t.writeBackDrop s.cur.core pa).l1Get (t.cacheOf s.cur.core) b = Sector.blank (t.cacheOf s.cur.core) b :=
      l1Get_absent fun y hy => here ▸ absent y hy
    rw [gone, Sector.blank_clean, if_neg Bool.false_ne_true]
    exact if_congr (and_iff_right here) rfl rfl
  · rw [l1Get_dropped l1 here, if_neg (show ¬(sectorOf b = sectorOf pa ∧ _) from fun h => here h.1)]

/-- A write of 8 bytes at the home, of whose sector the L1 holds nothing (R188). -/
theorem State.Stored.homeWrite (h : s.Stored t V D n) {pa : Nat} (absent : ∀ y ∈ t.l1, y.addr ≠ sectorOf pa) {bs : List Byte}
    (length : bs.length = 8) (aligned : pa % 8 = 0) : s.Stored (t.homeWrite pa bs) (overwritten V pa bs) D n := by
  have l1 : (t.homeWrite pa bs).l1 = t.l1 := by
    obtain ⟨_, _, _, _, _, _, _, _, e⟩ := homeWrite_frame t pa bs
    rw [e]
    rfl
  have core := storeCore_homeWrite t pa bs
  have poison : (t.homeWrite pa bs).poison = [] := by
    refine (homePut_poison (t.countHome pa bs.length) pa bs fun _ => true).trans ?_
    obtain ⟨p, d, e⟩ := countHome_counts t pa bs.length
    rw [e]
    exact congrArg (List.filter _) h.poison
  refine ⟨core.trans h.core, homeWrite_canonical h.canonical _ _, poison, l1 ▸ h.sectors, l1 ▸ h.few, fun b => ?_, l1 ▸ h.dirty⟩
  unfold overwritten
  rw [← h.view b, readByte_fresh, readByte_fresh, cacheOf_of_storeCore core, l1Get_congr l1]
  by_cases inside : pa ≤ b ∧ b < pa + bs.length
  · have same : sectorOf b = sectorOf pa := by unfold sectorOf; omega
    rw [if_pos inside, l1Get_absent fun y hy => same ▸ absent y hy, Sector.blank_clean, if_neg Bool.false_ne_true]
    have put := homeByte_homeWrite_same h.canonical.wf pa bs (i := b - pa) (by omega) fun tile => h.canonical.tiles _ (by
      rw [length, touchesTile_block (by decide) (by decide) aligned] at tile
      rw [isTile_block (n := 8) (by decide) aligned (by omega), tile])
    rwa [show pa + (b - pa) = b by omega] at put
  · rw [if_neg inside, homeByte_homeWrite_other h.canonical.wf pa bs (by omega)]

/-- A write of 8 bytes into the L1, dirty (R171). -/
theorem State.Stored.l1Write (h : s.Stored t V D n) (room : n + 1 ≤ 5120) {pa : Nat} {bs : List Byte} (length : bs.length = 8)
    (aligned : pa % 8 = 0) : s.Stored (t.l1Write (s.cacheOf s.cur.core) pa bs) (overwritten V pa bs)
      (fun b => D b ∨ pa ≤ b ∧ b < pa + 8) (n + 1) := by
  have roomy : t.l1Room (s.cacheOf s.cur.core) pa = t :=
    l1Room_of_room (Nat.succ_le_succ ((List.length_filter_le _ _).trans h.few) |>.trans room) pa
  have write : t.l1Write (s.cacheOf s.cur.core) pa bs =
      t.l1Put ((t.l1Get (s.cacheOf s.cur.core) pa).withBytes (pa % 64) bs) := by
    unfold State.l1Write
    rw [roomy]
    rfl
  have fits : pa % 64 + bs.length ≤ 64 := by omega
  have live := Sector.withBytes_live (t.l1Get (s.cacheOf s.cur.core) pa) fits (by omega)
  have at_ : ((t.l1Get (s.cacheOf s.cur.core) pa).withBytes (pa % 64) bs).addr = sectorOf pa := l1Get_addr t _ pa
  have cache : ((t.l1Get (s.cacheOf s.cur.core) pa).withBytes (pa % 64) bs).cache = s.cacheOf s.cur.core := l1Get_cache t _ pa
  have place := sectorOf_add_mod pa
  have canonical := l1Write_canonical h.canonical (s.cacheOf s.cur.core) pa bs
  rw [write] at canonical ⊢
  refine ⟨h.core, canonical, h.poison, fun x hx => ?_, ?_, fun b => ?_, fun x hx i hi dirty => ?_⟩
  · rcases mem_l1Put hx with rfl | old
    · refine ⟨?_, cache⟩
      show (t.l1Get (s.cacheOf s.cur.core) pa).bad &&& _ = 0
      rw [l1Get_sound fun x hx => (h.sectors x hx).1]
      simp
    · exact h.sectors x old
  · exact (l1Put_length_le _ _).trans (Nat.succ_le_succ h.few)
  · have same : (t.l1Put ((t.l1Get (s.cacheOf s.cur.core) pa).withBytes (pa % 64) bs)).cacheOf s.cur.core = s.cacheOf s.cur.core :=
      h.cacheOf
    unfold overwritten
    rw [← h.view b, readByte_fresh, readByte_fresh, same, h.cacheOf]
    have low : b % 64 < 64 := Nat.mod_lt _ (by omega)
    have split_ := sectorOf_add_mod b
    by_cases here : sectorOf pa = sectorOf b
    · rw [(l1Get_l1Put live _ b).trans (if_pos ⟨cache, at_.trans here⟩), Sector.withBytes_dirty _ fits, Sector.withBytes_byte _ _ low, l1Get_sector t _ here]
      by_cases inside : pa ≤ b ∧ b < pa + bs.length
      · rw [if_pos inside, if_pos (show pa % 64 ≤ b % 64 ∧ b % 64 < pa % 64 + bs.length by omega),
          decide_eq_true (show pa % 64 ≤ b % 64 ∧ b % 64 < pa % 64 + bs.length by omega), Bool.or_true, if_pos rfl]
        exact congrArg (bs.getD · 0) (by omega)
      · rw [if_neg inside, if_neg (show ¬(pa % 64 ≤ b % 64 ∧ b % 64 < pa % 64 + bs.length) by omega),
          decide_eq_false (show ¬(pa % 64 ≤ b % 64 ∧ b % 64 < pa % 64 + bs.length) by omega), Bool.or_false]
        rfl
    · rw [(l1Get_l1Put live _ b).trans (if_neg fun e => here (at_.symm.trans e.2)), if_neg (show ¬(pa ≤ b ∧ b < pa + bs.length) by unfold sectorOf at here; omega)]
      rfl
  · rcases mem_l1Put hx with rfl | old
    · rw [Sector.withBytes_dirty _ fits, Bool.or_eq_true, decide_eq_true_eq] at dirty
      rcases dirty with dirty | inside
      · exact .inl (h.dirty _ (mem_of_dirty dirty) i hi dirty)
      · exact .inr (by omega)
    · exact .inl (h.dirty x old i hi dirty)

end

end Sys2Proof.Machine
end

section
/-! A tile is stored to memory (R155). -/

namespace Sys2Proof.Machine

section
variable {s t : State} {V : Nat → Byte} {D : Nat → Prop} {n : Nat}

/-- Before an access at the home the core's copy of the sector goes home and the visitor copy is dropped (R172, R176). -/
theorem State.Stored.sendBack (h : s.Stored t V D n) (p : Phys) (va : Word) (tidx : Nat) :
    sendBack p va tidx t = .ok () ((t.writeBackDrop s.cur.core p.pa).visitorDrop p.pa) := by
  have sendable : (t.unsendable (t.cacheOf t.cur.core)).any (fun x => x.addr == sectorOf p.pa) = false := by
    refine List.any_eq_false.2 fun x hx => ?_
    obtain ⟨mem, bad⟩ := List.mem_filter.1 hx
    simp [(h.sectors x mem).1] at bad
  unfold Machine.sendBack
  rw [← h.curCore]
  by_cases uncached : p.attr = .uncached
  · rw [if_pos uncached]
    refine (bind_ok (m := modify fun s => s.passL1 p) (t := t.writeBackDrop t.cur.core p.pa) (a := ()) ?_).trans rfl
    exact congrArg (EStateM.Result.ok ()) (if_pos uncached)
  · rw [if_neg uncached]
    refine (bind_ok (t := t.writeBackDrop t.cur.core p.pa) (a := ()) ?_).trans rfl
    unfold sendOwn
    refine (bind_ok (m := get) rfl).trans ?_
    rw [sendable]
    rfl

/-- A write of 8 bytes at the home: of the sector nothing stays in the L1 (R172, R194). -/
theorem State.Stored.storeHome (h : s.Stored t V D n) (attr : Attr) {pa : Nat} {bs : List Byte}
    (absent : ∀ y ∈ t.l1, y.addr ≠ sectorOf pa) (length : bs.length = 8) (aligned : pa % 8 = 0) :
    s.Stored (t.storeHome s.cur.core attr pa bs) (overwritten V pa bs) D n := by
  unfold State.storeHome
  refine State.Stored.counted ?_ (countSent_counts ..)
  split
  · exact h.homeWrite absent length aligned
  · obtain ⟨sent, gone⟩ := h.writeBackDrop pa
    exact (sent.visitorDrop pa).homeWrite gone length aligned

theorem State.Stored.awaits (h : s.Stored t V D n) (remote scalar : Bool) (va : Word) :
    s.Stored (t.onCur (Hart.awaits remote scalar va)) V D n := by
  refine h.congr ?_ rfl rfl rfl rfl
  have same : (t.cur.awaits remote scalar va).unsent = t.cur.unsent := by
    unfold Hart.awaits
    split <;> rfl
  exact congrArg (fun g => { t.storeCore with cur := g }) same

theorem State.Stored.seenByRest (h : s.Stored t V D n) (pa m : Nat) : s.Stored (t.seenByRest pa m) V D n := by
  refine h.congr ?_ rfl rfl rfl rfl
  unfold State.storeCore State.seenByRest
  rw [List.map_map, show Hart.unlinked ∘ Hart.seenBy pa m = Hart.unlinked from funext (Hart.unlinked_seenBy pa m)]

/-- A write of 8 bytes by a vector store: of a cached page they are dirty in the L1 or stand at their home, of another they stand
at their home (R171, R194, R306). -/
theorem State.Stored.storePhys (h : s.Stored t V D n) (room : n + 1 ≤ 5120) (p : Phys) {bs : List Byte} (length : bs.length = 8)
    (aligned : p.pa % 8 = 0) (va : Word) (tidx : Nat) : ∃ u, storePhys p bs false false va tidx t = .ok () u ∧
      s.Stored u (overwritten V p.pa bs) (fun b => D b ∨ p.attr.mode .fresh = .fresh ∧ p.pa ≤ b ∧ b < p.pa + 8) (n + 1) := by
  unfold Machine.storePhys
  by_cases home : t.goesHome s.cur.core p.attr p.pa = true
  · obtain ⟨sent, gone⟩ := h.writeBackDrop p.pa
    refine ⟨(((t.writeBackDrop s.cur.core p.pa).visitorDrop p.pa).storeHome s.cur.core p.attr p.pa bs).onCur
        (Hart.awaits (t.isRemote p.pa) false va), ?_,
      (((sent.visitorDrop p.pa).storeHome p.attr gone length aligned).mono (fun b => Or.inl) (Nat.le_succ n)).awaits _ _ _⟩
    refine (bind_ok (m := get) rfl).trans ?_
    dsimp only
    rw [h.curCore, home, Bool.or_true, if_pos rfl]
    exact (bind_ok (h.sendBack p va tidx)).trans rfl
  · have cached : p.attr.mode .fresh = .fresh := by
      cases attr : p.attr <;> simp [State.goesHome, attr] at home ⊢ <;> rfl
    have stored := (h.l1Write room length aligned).mono (D' := fun b => D b ∨ p.attr.mode .fresh = .fresh ∧ p.pa ≤ b ∧ b < p.pa + 8)
      (fun b => Or.imp_right fun inside => ⟨cached, inside⟩) (Nat.le_refl _)
    rw [← h.cacheOf] at stored
    have counted := (stored.counted (u := (t.l1Write (t.cacheOf s.cur.core) p.pa bs).countStore s.cur.core t.cur.part
      (t.l1Find (t.cacheOf s.cur.core) p.pa).isSome) ⟨_, _, rfl⟩).seenByRest p.pa bs.length
    refine ⟨{ ((t.l1Write (t.cacheOf s.cur.core) p.pa bs).countStore s.cur.core t.cur.part
      (t.l1Find (t.cacheOf s.cur.core) p.pa).isSome).seenByRest p.pa bs.length with
      spoiled := t.disturbed p.pa bs.length ++ t.spoiled }, ?_, counted.congr rfl rfl rfl rfl rfl⟩
    refine (bind_ok (m := get) rfl).trans ?_
    dsimp only
    rw [h.curCore, Bool.false_or, if_neg home]
    rfl

theorem State.Stored.early (h : s.Stored t V D n) (none_ : s.cur.early = []) : t.cur.early = [] := by
  have same := congrArg Hart.early h.cur
  unfold Hart.unsent Hart.unlinked Hart.unseen at same
  rw [none_] at same
  exact List.map_eq_nil_iff.1 same

/-- A relaxed unit of 8 bytes is stored (R193). -/
theorem State.Stored.storeUnit (h : s.Stored t V D n) (none_ : s.cur.early = []) (room : n + 1 ≤ 5120) (p : Phys)
    (aligned : p.pa % 8 = 0) (v : Nat) (va : Word) (tidx : Nat) : ∃ u, storeUnit 0 0 8 v va tidx p t = .ok () u ∧
      s.Stored u (overwritten V p.pa (leBytes 8 v)) (fun b => D b ∨ p.attr.mode .fresh = .fresh ∧ p.pa ≤ b ∧ b < p.pa + 8) (n + 1) := by
  obtain ⟨u, stores, stored⟩ := h.storePhys room p (bs := leBytes 8 v) rfl aligned va tidx
  refine ⟨u, ?_, stored⟩
  have settled_ : u.onCur (Hart.settle p.pa 8) = u := by
    unfold State.onCur
    rw [Hart.settle_none (stored.early none_)]
  unfold Machine.storeUnit
  refine (bind_ok (m := get) rfl).trans ?_
  dsimp only
  rw [if_neg (by decide)]
  refine (bind_ok stores).trans ?_
  exact congrArg (EStateM.Result.ok ()) settled_

end

/-! All units -/

/-- Does a unit of 8 bytes at `p` cover byte `b`? -/
def Phys.covers (p : Phys) (b : Nat) : Prop := p.pa ≤ b ∧ b < p.pa + 8

/-- From `s` to `t` the 8-byte units `done` with the values `v` were stored: the core reads them, and every other byte as before. -/
def State.UnitsStored (s : State) (v : Nat → Nat) (done : List (Nat × Phys)) (t : State) : Prop :=
  ∃ V : Nat → Byte, s.Stored t V (fun b => ∃ up ∈ done, up.2.attr.mode .fresh = .fresh ∧ up.2.covers b) done.length ∧
    (∀ up ∈ done, ∀ j, j < 8 → V (up.2.pa + j) = (leBytes 8 (v up.1)).getD j 0) ∧
    ∀ b, (∀ up ∈ done, ¬up.2.covers b) → V b = s.readByte s.cur.core .fresh b

section
variable {s t : State} {v : Nat → Nat}

theorem State.UnitsStored.start (rests : s.Rests) {u : State} (from_ : u = s ∨ u = s.draw.2) : s.UnitsStored v [] u := by
  have canonical : s.Canonical := ⟨rests.wf, by simp [State.Single, rests.quiet.l1], fun x hx => by simp [rests.quiet.l1] at hx, rests.tiles⟩
  have start : s.Stored s (s.readByte s.cur.core .fresh) (fun b => ∃ up ∈ ([] : List (Nat × Phys)), up.2.attr.mode .fresh = .fresh ∧
      up.2.covers b) 0 :=
    ⟨rfl, canonical, rests.quiet.poison, by simp [rests.quiet.l1], by simp [rests.quiet.l1], fun _ => rfl, by simp [rests.quiet.l1]⟩
  refine ⟨_, ?_, by simp, fun _ _ => rfl⟩
  rcases from_ with rfl | rfl
  · exact start
  · rw [draw_eq]
    exact start.congr rfl rfl rfl rfl rfl

/-- One more unit is stored; where it covers bytes of one before, it is the same unit. -/
theorem State.UnitsStored.step {done : List (Nat × Phys)} (h : s.UnitsStored v done t) (none_ : s.cur.early = [])
    (room : done.length + 1 ≤ 5120) {up : Nat × Phys} (aligned : up.2.pa % 8 = 0)
    (apart : ∀ w ∈ done, ∀ b, w.2.covers b → up.2.covers b → w = up) (va : Word) (tidx : Nat) :
    ∃ u, storeUnit 0 0 8 (v up.1) va tidx up.2 t = .ok () u ∧ s.UnitsStored v (done ++ [up]) u := by
  obtain ⟨V, stored, written, kept⟩ := h
  obtain ⟨u, stores, next⟩ := stored.storeUnit none_ room up.2 aligned (v up.1) va tidx
  have length : (leBytes 8 (v up.1)).length = 8 := rfl
  refine ⟨u, stores, _, next.mono (fun b => ?_) (by simp), fun w hw j hj => ?_, fun b outside => ?_⟩
  · rintro (⟨w, hw, cached⟩ | cached)
    · exact ⟨w, List.mem_append_left _ hw, cached⟩
    · exact ⟨up, by simp, cached⟩
  · unfold overwritten
    rw [length]
    by_cases inside : up.2.pa ≤ w.2.pa + j ∧ w.2.pa + j < up.2.pa + 8
    · have same : w = up := by
        rcases List.mem_append.1 hw with old | new
        · exact apart w old _ ⟨by omega, by omega⟩ inside
        · exact List.mem_singleton.1 new
      rw [if_pos inside, same, Nat.add_sub_cancel_left]
    · rw [if_neg inside]
      rcases List.mem_append.1 hw with old | new
      · exact written w old j hj
      · rw [List.mem_singleton.1 new] at inside
        omega
  · have missed : ¬(up.2.pa ≤ b ∧ b < up.2.pa + 8) := outside up (by simp)
    unfold overwritten
    rw [length, if_neg missed]
    exact kept b fun w hw => outside w (List.mem_append_left _ hw)

/-- Each stored unit is read back, at the home where its page is not cached (R169, R306). -/
theorem State.UnitsStored.reads {done : List (Nat × Phys)} (h : s.UnitsStored v done t)
    (apart : ∀ w ∈ done, ∀ up ∈ done, ∀ b, w.2.covers b → up.2.covers b → w = up) {up : Nat × Phys} (mem : up ∈ done) {j : Nat}
    (hj : j < 8) : t.readByte s.cur.core (up.2.attr.mode .fresh) (up.2.pa + j) = (leBytes 8 (v up.1)).getD j 0 := by
  obtain ⟨V, stored, written, -⟩ := h
  rw [← written up mem j hj, ← stored.view]
  have modes : up.2.attr.mode .fresh = .fresh ∨ up.2.attr.mode .fresh = .home := by
    cases up.2.attr <;> simp [Attr.mode]
  rcases modes with fresh | home
  · rw [fresh]
  · rw [home, readByte_fresh, if_neg]
    · rfl
    · intro dirty
      obtain ⟨w, hw, cached, covers⟩ := stored.dirty _ (mem_of_dirty dirty) _ (Nat.mod_lt _ (by omega)) dirty
      rw [l1Get_addr, sectorOf_add_mod] at covers
      rw [apart w hw up mem _ covers ⟨by omega, by omega⟩, home] at cached
      exact absurd cached (by decide)

theorem State.UnitsStored.others {done : List (Nat × Phys)} (h : s.UnitsStored v done t) {b : Nat}
    (outside : ∀ up ∈ done, ¬up.2.covers b) : t.readByte s.cur.core .fresh b = s.readByte s.cur.core .fresh b := by
  obtain ⟨V, stored, -, kept⟩ := h
  exact (stored.view b).trans (kept b outside)

end

section
variable {s t : State} {V : Nat → Byte} {D : Nat → Prop} {n : Nat}

/-- Of all but memory, caches and the words that code may still be fetched as, stores change links and choices alone. -/
theorem State.Stored.bare (h : s.Stored t V D n) (sound : s.poison = []) : t.bare = ({ s with
    cur := { s.cur with links := t.cur.links }, rest := t.rest, l1 := t.l1, l2 := t.l2, hbm := t.hbm, visitors := t.visitors
    recoded := t.recoded, choices := t.choices, draws := t.draws } : State).bare := by
  have same := congrArg (fun u : State => { u with
    cur := { u.cur with
      links := t.cur.links, pc := 0, captured := [], resumed := false, wait := .awake, syncArrived := [], midway := false
      refork := false, lead := {}, leadStopped := false, divs := 0 }
    rest := t.rest.map Hart.unseen, l1 := t.l1, l2 := t.l2, hbm := t.hbm, visitors := t.visitors, poison := t.poison
    recoded := t.recoded, choices := t.choices }) h.core
  refine Eq.trans ?_ (same.trans ?_)
  · rfl
  · rw [h.poison, ← sound]
    rfl

end

end Sys2Proof.Machine
end

section
/-! The tile moves and the tile's loads and stores settled (R143-R145, R153-R155). -/

namespace Sys2Proof.Machine

/-- A frame of a store stays one when the instruction completes. -/
theorem storeFrame_of_completes {s u r : State} {V : Nat → Byte} {D : Nat → Prop} {n : Nat} (stored : s.Stored u V D n)
    (sound : s.poison = []) (is_ : ((u.countCur 0x03 1).retire) = r) : StoreFrame s r s.cur := by
  have pc : u.cur.pc = s.cur.pc := by
    have same := congrArg Hart.pc stored.cur
    unfold Hart.unsent Hart.unlinked Hart.unseen at same
    exact same
  have seq : r.seq = s.seq := by
    have same := congrArg State.seq stored.core
    unfold State.storeCore at same
    rw [← is_, ← same]
    simp
  have rest : u.rest.map Hart.unlinked = s.rest.map Hart.unlinked := by
    have same := congrArg State.rest stored.core
    unfold State.storeCore at same
    exact same
  obtain ⟨_, same, next, awake, bare, -⟩ := completes_retireVector (s := u) u.cur
  injection same with same
  rw [← same, is_] at next awake bare
  have links : r.cur.links = u.cur.links := (congrArg (fun u : State => u.cur.links) bare :)
  have kept : r.rest = u.rest ∧ r.l1 = u.l1 ∧ r.l2 = u.l2 ∧ r.hbm = u.hbm ∧ r.visitors = u.visitors ∧ r.recoded = u.recoded ∧
      r.choices = u.choices := by
    rw [← is_]
    simp
  obtain ⟨rest_, l1, l2, hbm, visitors, recoded, choices⟩ := kept
  refine ⟨next.trans (by rw [pc]), awake, ?_, by rw [rest_, rest]⟩
  rw [bare, links, rest_, l1, l2, hbm, visitors, recoded, choices, seq]
  exact stored.bare sound

section
variable {s : State} (ready : s.MatrixReady) (rests : s.Rests) (fresh : s.cur.progress = {}) (uncut : s.cut = none) {t : BitVec 4}
  {a b : BitVec 5} {m : BitVec 3} {p : Nat → Phys} (live : (s.cur.getT t).tag ≠ .dead) (base : (s.x a).toNat % 8 = 0)
  (pitch : (s.x b).toNat % 8 = 0)
include ready rests fresh uncut live base pitch

/-- `mst` writes the enabled rows of a tile, 8 bytes a unit (R155). -/
theorem mst_completes (served : ∀ u, tileUnits (s.cur.getM m) u = true → s.ServesUnit .write
      (s.x a + BitVec.ofNat 64 (u / 32) * s.x b + BitVec.ofNat 64 (8 * (u % 32))) (p u))
    (aligned : ∀ u, tileUnits (s.cur.getM m) u = true → (p u).pa % 8 = 0)
    (apart : ∀ u v, tileUnits (s.cur.getM m) u = true → tileUnits (s.cur.getM m) v = true → u ≠ v → (p u).pa / 8 ≠ (p v).pa / 8) :
    ∃ r, exec (.mst t a b m) s = .next r ∧ StoreFrame s r s.cur ∧
      (∀ u, tileUnits (s.cur.getM m) u = true → ∀ j, j < 8 →
        r.readByte s.cur.core ((p u).attr.mode .fresh) ((p u).pa + j) =
          (leBytes 8 (bits (s.cur.getT t).img.toNat (64 * u) 64)).getD j 0) ∧
      ∀ c, (∀ u, tileUnits (s.cur.getM m) u = true → c < (p u).pa ∨ (p u).pa + 8 ≤ c) →
        r.readByte s.cur.core .fresh c = s.readByte s.cur.core .fresh c := by
  obtain ⟨ordered, s₁, order, from_, runs⟩ := tileAccess_runs ready fresh uncut live base pitch true served
  have mem (up : Nat × Phys) : up ∈ ordered ↔ tileUnits (s.cur.getM m) up.1 = true ∧ up.2 = p up.1 := by
    rw [order.mem_iff]
    simp only [List.mem_map, List.mem_filter, upTo, List.mem_range, tileUnits, Bool.and_eq_true, decide_eq_true_eq]
    constructor
    · rintro ⟨u, active, rfl⟩
      exact ⟨active, rfl⟩
    · rintro ⟨active, place⟩
      exact ⟨up.1, active, by rw [← place]⟩
  have few : ordered.length ≤ 2048 := by
    rw [order.length_eq, List.length_map]
    exact (List.length_filter_le _ _).trans (by simp [upTo])
  have aligned_ (up : Nat × Phys) (hup : up ∈ ordered) : up.2.pa % 8 = 0 := by
    obtain ⟨active, place⟩ := (mem up).1 hup
    rw [place]
    exact aligned _ active
  have single : ∀ w ∈ ordered, ∀ up ∈ ordered, ∀ c, w.2.covers c → up.2.covers c → w = up := by
    intro w hw up hup c ⟨low, high⟩ ⟨low', high'⟩
    have block := aligned_ w hw
    have block' := aligned_ up hup
    obtain ⟨active, place⟩ := (mem w).1 hw
    obtain ⟨active', place'⟩ := (mem up).1 hup
    by_cases same : w.1 = up.1
    · exact Prod.ext same (by rw [place, place', same])
    · refine absurd ?_ (apart _ _ active active' same)
      rw [← place, ← place']
      omega
  obtain ⟨s₂, performed, stored⟩ := performUnits_ok
    (I := fun done u => s.UnitsStored (fun u => bits (s.cur.getT t).img.toNat (64 * u) 64) done u) (g := fun _ => 0)
    (f := tileUnitAccess (s.cur.getT t) (s.capture [s.x a, s.x b]) true) (all := ordered) (by
      intro done up later u whole kept
      have here : up ∈ ordered := whole ▸ List.mem_append_right _ List.mem_cons_self
      have before {w : Nat × Phys} (hw : w ∈ done) : w ∈ ordered := whole ▸ List.mem_append_left _ hw
      have room : done.length + 1 ≤ 5120 := by
        have total := congrArg List.length whole
        rw [List.length_append] at total
        omega
      obtain ⟨v, stores, kept'⟩ := kept.step rests.early room (aligned_ up here)
        (fun w hw c => single w (before hw) up here c) (tileUnit (s.capture [s.x a, s.x b]).operands up.1) up.1
      exact ⟨v, (bind_ok stores).trans rfl, kept'⟩) ordered [] s₁ rfl (.start rests from_)
  have hart : s₂.tileDone t (s.cur.getT t) true (ordered.map fun up => (up.1, 0)) = (s₂.countCur 0x03 1).retire := by
    obtain ⟨V, rests₂, -, -⟩ := stored
    have progress : s₂.cur.progress = {} := by
      have same := congrArg Hart.progress rests₂.cur
      unfold Hart.unsent Hart.unlinked Hart.unseen at same
      exact same.trans fresh
    unfold State.tileDone
    rw [if_pos rfl]
    exact congrArg (fun h => (({ s₂ with cur := h } : State).countCur 0x03 1).retire)
      (Hart.ageEarly_none (rests₂.early rests.early) progress)
  obtain ⟨_, same, -, -, -, memory⟩ := completes_retireVector (s := s₂) s₂.cur
  injection same with same
  rw [← same] at memory
  refine ⟨(s₂.countCur 0x03 1).retire, (runs _ _ performed).trans (by rw [hart]), ?_, fun u active j hj => ?_, fun c outside => ?_⟩
  · obtain ⟨V, kept, -, -⟩ := stored
    exact storeFrame_of_completes kept rests.quiet.poison rfl
  · exact (memory _ _ _).trans (stored.reads single ((mem (u, p u)).2 ⟨active, rfl⟩) hj)
  · refine (memory _ _ _).trans (stored.others fun up hup covers => ?_)
    obtain ⟨active, place⟩ := (mem up).1 hup
    rw [place] at covers
    have := outside _ active
    unfold Phys.covers at covers
    omega

end

/-- Settles O45: each instruction's checks pass and it completes (`menter_completes` and its fellows); the reads of a tile load find
the bytes of the homes whatever they leave in the caches (`State.OnlyRead`), and after each store of a unit the core reads what was
stored and all else as before (`State.UnitsStored`). -/
theorem matrixMoves : Obligations.MatrixMoves := by
  unfold Obligations.MatrixMoves
  refine ⟨?_, ?_⟩
  · intro s t n a b m code tile k on
    refine ⟨fun free lanes tiles operand written => ⟨s.cur.bindTiles n, menter_completes free lanes tiles operand written,
      s.cur.getT_bindTiles n, s.cur.getV_bindTiles n⟩, fun mode => ⟨mexit_completes mode, mzero_completes mode⟩,
      fun ready low live => ⟨mread_words_done ready true t b m low live, mread_words_done ready false t b m low live, ?_, ?_⟩⟩
    · intro res active _ fits
      exact mread_done ready true t b m res _ low (Bool.and_eq_true_iff.2 ⟨bne_iff_ne.2 live, decide_eq_true fits⟩)
    · intro source put
      have word : (s.cur.getV a).tag.width = 32 := by
        simp only [List.mem_cons, List.not_mem_nil, or_false] at source
        rcases source with e | e | e <;> rw [e] <;> rfl
      have tag (row : Bool) : (lineWritten row tile (s.cur.getV a) k on).tag =
          if k < 64 then (if (s.cur.getV a).tag = .f32 then .f32 else .i32) else tile.tag := by
        unfold lineWritten
        split <;> rfl
      exact ⟨⟨_, fun i j hi hj => lineWritten_at true tile word k on hi hj, tag true, mwrite_completes ready true t b m low live source⟩,
        ⟨_, fun i j hi hj => lineWritten_at false tile word k on hi hj, tag false, mwrite_completes ready false t b m low live source⟩⟩
  · intro s t a b m p tile active addr ready rests fresh uncut live base pitch
    refine ⟨fun served => mld_completes ready rests fresh uncut live base pitch served, fun served apart => ?_⟩
    exact mst_completes ready rests fresh uncut live base pitch (fun u on => (served u on).1) (fun u on => (served u on).2.1) apart

end Sys2Proof.Machine
end
